-- ==== Sys2Proof/Word.lean ====
section
/-! DEFINITION. The word types of the WT40 model. -/

namespace Sys2Proof

/-- A byte of a message body, a record or the slice store (12_formats.md, R184). -/
abbrev Byte := BitVec 8

/-- A node number, 0 to 7 (00_scope.md, Conductors and ports). -/
abbrev Node := Fin 8

/-- The rank of a spine message, class × 256 + topic × 8 + origin (00_scope.md, Rank). -/
abbrev Rank := BitVec 12

/-- An event counter, 16 bits wide (00_scope.md, Counters). -/
abbrev Counter := BitVec 16

end Sys2Proof
end

