-- ==== Sys2Proof/Config.lean ====
section
/-! DEFINITION. The free values: what the spec leaves open without stopping the machine. -/

namespace Sys2Proof

/-- DESIGN CHOICE (log 12), safe. The value the spec leaves open, one for each index.
It has no body, so nothing can be proved of it.
It is used, at the index `State.free` then advances, for the header bytes of an untagged frame (R97, R105),
for the rank of a SEND whose rank field is above 4095 (R180), for the local count after its 48 bits
are used up (R59), and for what other stations do to the alert wire in each microsecond (R57, R58). -/
opaque Config.freeValue : Nat → BitVec 48

end Sys2Proof
end

