-- ==== Sys2Proof/Syntax.lean ====
section
/-! DEFINITION. The commands of the block: one constructor per row of spec/opcode_table.json, and the types of
their operands. An operand is what the outside hands over with the event (INVENTORY.md, Instructions). -/

namespace Sys2Proof

/-- The role strap (00_scope.md, Roles on a tether). -/
inductive Role
  | console | headset | supply
  deriving DecidableEq, Repr

/-- The spine rate strap: 12.5 or 25 Mbit/s (01, Stations on the spine). -/
inductive Rate
  | mbit12 | mbit25
  deriving DecidableEq, Repr

/-- The five straps (00_scope.md, Conductors and ports; R1, R177). -/
structure Straps where
  node : Node
  role : Role
  rate : Rate
  supplyPresent : Bool
  profilePresent : Bool
  deriving DecidableEq, Repr

/-- One of the two head-fit dials (05, The dials). -/
inductive Dial
  | e0 | e1
  deriving DecidableEq, Repr

/-- One eye of the picture (06). -/
inductive Eye
  | left | right
  deriving DecidableEq, Repr

/-- A pixel: three colour channels of 8 bits (00_scope.md, Shifts and pixels). -/
structure Pixel where
  r : Byte
  g : Byte
  b : Byte
  deriving DecidableEq, Repr

/-- The kind of a send error (R10). -/
inductive SendErrorKind
  | drive | shape | echo
  deriving DecidableEq, Repr

/-- The kind of a receiver error (R11). -/
inductive ReceiveErrorKind
  | shape | check
  deriving DecidableEq, Repr

/-- What the receiver read of a message whose end run was well shaped (R5, R14): its rank, its body, the check
bits, and how its start bit lay against the microseconds of the local count (log 4). -/
structure Received where
  rank : Rank
  body : List Byte
  check : BitVec 16
  /-- one microsecond more began between its start bit and its last bit than fit whole between them -/
  extra : Bool
  deriving DecidableEq, Repr

/-- Three values on the axes X, Y, Z of the sensor (05, Sensor reads). -/
structure Triple (α : Type) where
  x : α
  y : α
  z : α
  deriving DecidableEq, Repr

/-- A frame tag: target frame and pose sequence (R97). -/
structure FrameTag where
  target : BitVec 32
  pose : BitVec 16
  deriving DecidableEq, Repr

/-- A slice packet header as the receiver read it (R105, 12_formats.md, Slice packet header). -/
structure PacketHeader where
  eye : Byte
  index : Byte
  flags : Byte
  target : BitVec 32
  pose : BitVec 16
  lines : Byte
  width : BitVec 16
  check : BitVec 16
  deriving DecidableEq, Repr

/-- The pixel bytes of a packet that have come so far, in order, and how many of them had come when an opening cut its
write, if one did (R119, R121; log 11). -/
structure PixelRun where
  bytes : List Byte
  beforeCut : Nat
  deriving DecidableEq, Repr

/-- No pixel byte has come. -/
def noPixels : PixelRun := { bytes := [], beforeCut := 0 }

/-- What a device on the meter port has answered to a reading (R165). -/
inductive MeterAnswer (α : Type)
  /-- nothing so far -/
  | awaited
  /-- it came back with the device's not-ready mark -/
  | notReady
  | value (v : α)
  deriving DecidableEq, Repr

/-- The contents of a SEND record (12_formats.md, Local port records). -/
structure SendRecord where
  flags : Byte
  rank : BitVec 16
  length : Byte
  body : List Byte
  deriving DecidableEq, Repr

/-- The commands of the block, in the order of spec/opcode_table.json. An operand with a default is one that the plain
event does not have: no driven bit time was seen, no packet was arriving. -/
inductive Instr
  | powerOn (straps : Straps)
  | profileMemoryTimeout
  | profileInstalled (image : List Byte)
  | restartBegin (straps : Straps)
  | spineStart (further : Nat) (driven : Bool := false)
  | quietRun (driven : Bool := false)
  | rejoin (driven : Bool := false)
  | arbitrationLoss
  | sendError (kind : SendErrorKind)
  | receiveError (kind : ReceiveErrorKind)
  | sendEnd
  | messageTaken (m : Received)
  | status
  | clearAlarm
  | holdEncoders
  | readSamples
  | alignPose
  | readBands
  | clearMapFault
  | capture
  | setGain
  | readQueue
  | restart
  | readTime
  | unknownCommand
  | beacon
  | timeRecordExpiry (origin : Node)
  | listeningTimerExpiry
  | frame
  | sample
  | powerReport
  | portStatus
  | sensorReadComplete (ready : Bool) (rates accels : Triple (BitVec 16))
  | sensorReadTimeout
  | dialChange (dial : Dial) (a b : Bool)
  | inputFrameStart
  | inputLineStart
  | inputPixel (p : Pixel)
  | tag (t : FrameTag)
  | lanePacketStart
  | lanePacketEnd
  | laneDown (run : PixelRun := noPixels)
  | laneUp
  | packetHeader (h : PacketHeader) (cut : PixelRun := noPixels)
  | packetEnd (run : PixelRun) (check : BitVec 32)
  | scanLine
  | scanEnd
  | playStampReached
  | codecFrame (mic : BitVec 16)
  | silenceTimerExpiry
  | powerEntryExpiry (node : Node)
  | meterReadingComplete (load : MeterAnswer (BitVec 16)) (battery : MeterAnswer Byte)
  | meterReadingTimeout (load : MeterAnswer (BitVec 16)) (battery : MeterAnswer Byte)
  | send (r : SendRecord)
  | abort
  | ack
  | restartRecord (straps : Straps)
  | portError
  | outgoingRecordStart
  | outgoingRecordEnd
  | poseReportRepeatFiring
  deriving DecidableEq, Repr

end Sys2Proof
end

