-- ==== Sys2Proof/WellFormed.lean ====
section
/-! DEFINITION. Which commands are well formed: operands the outside can hand over. The meanings are total and do
not consult this check. -/

namespace Sys2Proof

/-- No more pixel bytes than the largest packet has (R105), and a cut among them. -/
def PixelRun.wf (r : PixelRun) : Bool := decide (r.bytes.length ≤ 196608) && decide (r.beforeCut ≤ r.bytes.length)

/-- The device has answered, be it with its not-ready mark (R165). -/
def MeterAnswer.answered {α : Type} : MeterAnswer α → Bool
  | .awaited => false
  | .notReady => true
  | .value _ => true

/-- A command whose operands the interfaces of the block can carry.
- an image of at most 512 bytes (11, The profile image);
- fewer than 10 further undriven bit times, since ten would be a quiet run (R7);
- a body that a 6-bit length field can announce (R5);
- no more pixel bytes than the largest packet has, and a cut among them (R105, R121);
- an answer of at least one device on the meter port (R165);
- a SEND record whose 2-byte length covers its contents (12_formats.md). -/
def Instr.wf : Instr → Bool
  | .profileInstalled image => decide (image.length ≤ 512)
  | .spineStart further _ => decide (further < 10)
  | .messageTaken m => decide (m.body.length ≤ 63)
  | .laneDown run => run.wf
  | .packetHeader _ cut => cut.wf
  | .packetEnd run _ => run.wf
  | .meterReadingComplete load battery => load.answered || battery.answered
  | .send r => decide (r.body.length ≤ 65531)
  | .powerOn _ => true
  | .profileMemoryTimeout => true
  | .restartBegin _ => true
  | .quietRun _ => true
  | .rejoin _ => true
  | .arbitrationLoss => true
  | .sendError _ => true
  | .receiveError _ => true
  | .sendEnd => true
  | .status => true
  | .clearAlarm => true
  | .holdEncoders => true
  | .readSamples => true
  | .alignPose => true
  | .readBands => true
  | .clearMapFault => true
  | .capture => true
  | .setGain => true
  | .readQueue => true
  | .restart => true
  | .readTime => true
  | .unknownCommand => true
  | .beacon => true
  | .timeRecordExpiry _ => true
  | .listeningTimerExpiry => true
  | .frame => true
  | .sample => true
  | .powerReport => true
  | .portStatus => true
  | .sensorReadComplete _ _ _ => true
  | .sensorReadTimeout => true
  | .dialChange _ _ _ => true
  | .inputFrameStart => true
  | .inputLineStart => true
  | .inputPixel _ => true
  | .tag _ => true
  | .lanePacketStart => true
  | .lanePacketEnd => true
  | .laneUp => true
  | .scanLine => true
  | .scanEnd => true
  | .playStampReached => true
  | .codecFrame _ => true
  | .silenceTimerExpiry => true
  | .powerEntryExpiry _ => true
  | .meterReadingTimeout _ _ => true
  | .abort => true
  | .ack => true
  | .restartRecord _ => true
  | .portError => true
  | .outgoingRecordStart => true
  | .outgoingRecordEnd => true
  | .poseReportRepeatFiring => true

end Sys2Proof
end

