-- ==== Sys2Proof/Decode.lean ====
section
/-! DEFINITION. The commands that words spell: none, since no row of spec/opcode_table.json gives bits. -/

namespace Sys2Proof

/-- The command a word spells. No row of the table has a fixed pattern or a field, so no word spells one. -/
def decodeTableWord (_nbits _w : Nat) : Option Instr := none

end Sys2Proof
end

