-- ==== Sys2Proof/Machine/Blocks.lean ====
section
/-! DEFINITION. The types of the state of each block (00_scope.md, How the blocks work together). Data only; the
values after power-on stand in Machine/PowerOn.lean. -/

namespace Sys2Proof.Machine

/-- One value for each eye. -/
structure Both (α : Type) where
  left : α
  right : α
  deriving DecidableEq, Repr

/-- One value for each head axis (00_scope.md, Angles). -/
structure Axes (α : Type) where
  yaw : α
  pitch : α
  roll : α
  deriving DecidableEq, Repr

/-- A stereo frame of playback (R145): signed 16-bit samples. -/
structure StereoFrame where
  left : BitVec 16
  right : BitVec 16
  deriving DecidableEq, Repr

/-! ### Pins -/

/-- The last line sent to a panel (R141). -/
structure PanelLine where
  line : Nat
  pixels : List Pixel
  deriving DecidableEq, Repr

/-- Levels at the block's pins that are not registers (logs 5 and 27). -/
structure Pins where
  /-- another station drives the alert wire (R57) -/
  alertOthers : Bool
  /-- HEADSET: a signal is on the lane. CONSOLE: the lane reports a partner (R103, R106) -/
  laneSignal : Bool
  /-- levels of A and B of dial E0, then of dial E1 (R89) -/
  dialLevels : (Bool × Bool) × (Bool × Bool)
  /-- the last line sent to each panel (R141) -/
  panel : Both (Option PanelLine)
  /-- the last frame given to the codec (R152) -/
  codecOut : StereoFrame
  deriving DecidableEq, Repr

/-! ### Life -/

/-- The life state (R176). -/
inductive Life
  | loading | listening | running
  deriving DecidableEq, Repr

/-- The profile loader (R176 to R178). -/
structure Loader where
  life : Life
  epoch : BitVec 16
  /-- the reply of a RESTART command is done (log 7) -/
  restartDue : Bool
  /-- this LOADING is a restart's, so the dials count (R89) -/
  fromRestart : Bool
  deriving DecidableEq, Repr

/-! ### Spine controller -/

/-- The standing (R44). -/
inductive Standing
  | open | strained | muted | cut
  deriving DecidableEq, Repr

/-- The eight transmit slots, in slot order (R20). -/
inductive SlotName
  | alarm | time | credit | pose | audio | power | reply | port
  deriving DecidableEq, Repr

/-- The own message on the spine (R5, R8, R14). -/
structure Transmission where
  slot : SlotName
  rank : Rank
  body : List Byte
  check : BitVec 16
  loop : Bool
  /-- agreed time, in sixteenths, as read at the start bit -/
  start : Nat
  /-- the same, moved by every correction since (R61, R64) -/
  startMoved : Int
  deriving DecidableEq, Repr

/-- What the station last drove on the spine (R4, R12, R13). -/
inductive SpineDrive
  | undriven | message | echo | spoil | recessiveSpoil
  deriving DecidableEq, Repr

/-- The spine controller with the fault counts and the standing (01, 03). -/
structure Spine where
  sfc : Nat
  tfc : Nat
  standing : Standing
  /-- the strain level L (R44) -/
  strain : Nat
  tx : Option Transmission
  receiving : Bool
  synced : Bool
  /-- the quiet runs complete since the last driven bit time, held at 2 (R7; log 3) -/
  quietRuns : Nat
  lastOwn : Bool
  drive : SpineDrive
  driveErrors : Counter
  shapeErrors : Counter
  checkErrors : Counter
  echoErrors : Counter
  losses : Counter
  duplicates : Counter
  deriving DecidableEq, Repr

/-! ### Transmit slots -/

/-- The state of a slot (R20). -/
inductive SlotState
  | empty | pending | sending
  deriving DecidableEq, Repr

/-- What an owner hands its slot, and what the held record keeps (R20, R21). -/
structure Content where
  rank : Rank
  body : List Byte
  singleShot : Bool
  loop : Bool
  deriving DecidableEq, Repr

/-- A transmit slot (R20). -/
structure Slot where
  state : SlotState
  content : Content
  abortMark : Bool
  attempts : BitVec 8
  held : Option Content
  superseded : Counter
  deriving DecidableEq, Repr

/-- The eight slots and the refused-load counter (R20, R22). -/
structure Slots where
  alarm : Slot
  time : Slot
  credit : Slot
  pose : Slot
  audio : Slot
  power : Slot
  reply : Slot
  port : Slot
  refused : Counter
  deriving DecidableEq, Repr

/-! ### Intake -/

/-- Where an intake entry sends a message (R29). -/
inductive Destination
  | queue | unit | both | drop
  deriving DecidableEq, Repr

/-- An entry of the intake table (R29). -/
structure IntakeEntry where
  matchValue : BitVec 12
  care : BitVec 12
  dest : Destination
  deriving DecidableEq, Repr

/-- An entry of the intake queue (R32). -/
structure QueueEntry where
  rank : Rank
  body : List Byte
  time : BitVec 14
  /-- the entry is the local reply to a RESTART command (R39, log 25) -/
  restartReply : Bool
  deriving DecidableEq, Repr

/-- The intake table and queue (R29 to R35). -/
structure Intake where
  table : Vector IntakeEntry 8
  queue : List QueueEntry
  inTransfer : Option QueueEntry
  overrun : Bool
  split : Bool
  taken : Counter
  dropped : Counter
  overruns : Counter
  deriving DecidableEq, Repr

/-! ### Command unit -/

/-- A command waiting in the command queue (R36). -/
structure Command where
  origin : Node
  code : BitVec 5
  tag : Byte
  args : List Byte
  /-- marked for a local reply -/
  isLocal : Bool
  deriving DecidableEq, Repr

/-- The command unit (R36 to R39); `answering` is `none` while the unit is FREE. -/
structure CommandUnit where
  queue : List Command
  answering : Option Command
  malformed : Counter
  drops : Counter
  discarded : Counter
  deriving DecidableEq, Repr

/-! ### Alarm set -/

/-- The twelve flags, in order of their numbers (R48). -/
inductive Flag
  | profile | dupnode | strain | cut | timelost | timestep | sensor | map | audio | overdraw | battery | lane
  deriving DecidableEq, Repr

/-- A mask of flags: flag n in bit n (R48, R184). -/
abbrev FlagMask := BitVec 12

/-- The alarm set (R48 to R51). -/
structure Alarms where
  latched : FlagMask
  unsent : FlagMask
  wire : FlagMask
  message : FlagMask
  /-- condition flags: the condition is present (R50) -/
  present : FlagMask
  deriving DecidableEq, Repr

/-! ### Time unit -/

/-- A present record of the time table (R65). Times are in sixteenths of agreed time, moved by corrections (R61). -/
structure TimeRecord where
  lastNumber : Byte
  ownTime : Int
  lastHeard : Int
  carriedRef : Node
  carriedHas : Bool
  /-- its expiry has been handed to the reference choice (log 16) -/
  expired : Bool
  deriving DecidableEq, Repr

/-- Agreed time as it was read in one microsecond, in sixteenths, and the offset then in force (R14, R61; log 4). -/
structure TimeReading where
  read : Nat
  offset : Int
  deriving DecidableEq, Repr

/-- The time unit (R59 to R71). -/
structure TimeUnit where
  localCount : Nat
  offset : Int
  slew : Int
  /-- agreed time in the last 29 microseconds, newest first, for the record of a message's start bit (R14; log 4) -/
  readings : List TimeReading
  table : Vector (Option TimeRecord) 8
  /-- `none` while the station is its own reference (R67) -/
  reference : Option Node
  corrected : Bool
  beaconNumber : Byte
  prevStart : Option Int
  timer : Option Int
  stepLimit : Nat
  malformed : Counter
  beaconsSent : Counter
  skipped : Counter
  beaconsTaken : Counter
  pairs : Counter
  steps : Counter
  slews : Counter
  refChanges : Counter
  refLosses : Counter
  deriving DecidableEq, Repr

/-! ### Schedule -/

/-- The actions of schedule entries (R72). -/
inductive Action
  | none | beacon | frame | sample | poseReport | powerReport | portStatus
  deriving DecidableEq, Repr

/-- The mode of an entry with the fields of that mode (R72). Times in sixteenths of a µs. -/
inductive Mode
  | repeating (period phase nextDue : Nat)
  | counted (source : Fin 8) (n progress : Nat)
  deriving DecidableEq, Repr

/-- A schedule entry (R72). -/
structure SchedEntry where
  action : Action
  mode : Mode
  deriving DecidableEq, Repr

/-- The schedule table (R72, R74). -/
structure Schedule where
  entries : Vector SchedEntry 8
  skippedDues : Counter
  deriving DecidableEq, Repr

/-! ### Motion -/

/-- One row of the axis map: sensor axis 0 to 2 and sign (05, Profile values). -/
structure AxisMap where
  axis : Fin 3
  negative : Bool
  deriving DecidableEq, Repr

/-- The profile's motion values (05, Profile values). -/
structure MotionSettings where
  axisMap : Axes AxisMap
  bias : Axes Int
  gain : Axes Nat
  readLimit : Nat
  deriving DecidableEq, Repr

/-- A sensor read in flight (R79): its stamp in µs and the local count at its start. -/
structure SensorRead where
  stamp : Nat
  since : Nat
  deriving DecidableEq, Repr

/-- A record of the sample ring (R81). -/
structure SampleRecord where
  stamp : Nat
  gyro : Axes (BitVec 16)
  accel : Axes (BitVec 16)
  gyroSat : Axes Bool
  accelSat : Axes Bool
  held : Bool
  deriving DecidableEq, Repr

/-- An entry of the pose history (R84). -/
structure PoseEntry where
  sequence : BitVec 16
  stamp : Nat
  angles : Axes (BitVec 32)
  increments : Axes Int
  held : Bool
  saturated : Bool
  deriving DecidableEq, Repr

/-- The motion unit (R79 to R88); ring and history oldest first. -/
structure Motion where
  reading : Option SensorRead
  ring : List SampleRecord
  lastGyro : Axes (BitVec 16)
  lastAccel : Axes (BitVec 16)
  acc : Axes (BitVec 32)
  lastInc : Axes Int
  failures : BitVec 16
  history : List PoseEntry
  settings : MotionSettings
  good : Counter
  notReady : Counter
  timedOut : Counter
  overlaps : Counter
  zeroed : Counter
  saturated : Counter
  emptyReports : Counter
  deriving DecidableEq, Repr

/-- A dial's range and start count (R92). -/
structure DialRange where
  min : Int
  max : Int
  start : Int
  deriving DecidableEq, Repr

/-- One dial (R89 to R93). -/
structure DialState where
  range : DialRange
  count : Int
  lineA : Bool
  lineB : Bool
  limit : Bool
  frameValue : Int
  skips : Counter
  limitSteps : Counter
  deriving DecidableEq, Repr

/-- The two dials. -/
structure Dials where
  e0 : DialState
  e1 : DialState
  deriving DecidableEq, Repr

/-! ### Lane sender -/

/-- The line of the picture input in progress (R96). -/
inductive InputLine
  /-- no line start since the frame start -/
  | none
  /-- the pixels of an unfinished line, in order -/
  | filling (pixels : List Pixel)
  /-- complete; the mark says that pixels after the last were counted as a long line -/
  | full (long : Bool)
  /-- a line after line H − 1 -/
  | extra
  deriving DecidableEq, Repr

/-- The input frame in progress (R96 to R99). -/
structure InputFrame where
  tag : Option FrameTag
  linesDone : Nat
  line : InputLine
  /-- the completed lines of the slice in progress, in order -/
  slice : List (List Pixel)
  extraCounted : Bool
  deriving DecidableEq, Repr

/-- The input frame state of an eye (R99). -/
inductive EyeInput
  | sending | voiding | dropping
  deriving DecidableEq, Repr

/-- A slice in a lane queue (R100). -/
structure Slice where
  index : Nat
  tag : Option FrameTag
  pixels : List Pixel
  deriving DecidableEq, Repr

/-- The lane sender's state for one eye (R99 to R101). -/
structure SenderEye where
  input : EyeInput
  voidsOwed : Nat
  /-- `none`: no void tag; `some none`: the tag of an untagged frame -/
  voidTag : Option (Option FrameTag)
  queue : List Slice
  sent : BitVec 16
  horizon : BitVec 16
  deriving DecidableEq, Repr

/-- The packet on the lane (R102, R105). -/
structure LanePacket where
  eye : Eye
  bytes : List Byte
  deriving DecidableEq, Repr

/-- The lane sender of a CONSOLE (R96 to R104). -/
structure LaneSender where
  frame : Option InputFrame
  tags : List FrameTag
  eyes : Both SenderEye
  lastEye : Eye
  leftNext : Bool
  packet : Option LanePacket
  epochHeld : Option Byte
  frameNumber : BitVec 32
  malformed : Counter
  inputFrames : Counter
  inputShape : Counter
  untagged : Counter
  tagsRefused : Counter
  slicesFormed : Counter
  slicesQueued : Counter
  slicesDropped : Counter
  framesDropped : Counter
  voidsSent : Counter
  slicesSent : Counter
  creditsTaken : Counter
  resyncs : Counter
  flushed : Counter
  laneDowns : Counter
  deriving DecidableEq, Repr

/-! ### Lane receiver -/

/-- The lane receiver's state for one eye (R106). -/
structure ReceiverEye where
  accepted : BitVec 16
  horizon : BitVec 16
  lastLoaded : Option (BitVec 16)
  deriving DecidableEq, Repr

/-- The pixel packet whose pixels are arriving (R109, R119): where it is written, if anywhere. -/
structure Arriving where
  eye : Eye
  index : Nat
  buffer : Option (Fin 256)
  deriving DecidableEq, Repr

/-- The lane receiver of a HEADSET (R106 to R112). -/
structure LaneReceiver where
  eyes : Both ReceiverEye
  epoch : Byte
  packet : Option Arriving
  packetsTaken : Counter
  voidsTaken : Counter
  voided : Counter
  headerDiscards : Counter
  overruns : Counter
  creditLoads : Counter
  laneDowns : Counter
  deriving DecidableEq, Repr

/-! ### Slice store -/

/-- The picture geometry and edge colours (R113). -/
structure Geometry where
  S : Nat
  H : Nat
  W : Nat
  edge : Both Pixel
  deriving DecidableEq, Repr

/-- What the last packet taken into a buffer left there (R114). -/
inductive BufferContent
  | pixels | unchanged | damaged
  deriving DecidableEq, Repr

/-- A tag as a buffer or a header holds it, with its present mark (R105, R114). -/
structure Tag where
  target : BitVec 32
  pose : BitVec 16
  present : Bool
  deriving DecidableEq, Repr

/-- A buffer record (R114). -/
structure BufferRecord where
  /-- FULL, else OPEN -/
  full : Bool
  content : BufferContent
  tag : Tag
  /-- a write is in progress -/
  writing : Bool
  deriving DecidableEq, Repr

/-- The access of a band (R115). -/
inductive BandAccess
  | live | fixed | absent
  deriving DecidableEq, Repr

/-- The direction of a band's run of buffers (R115). -/
inductive Direction
  | up | down
  deriving DecidableEq, Repr

/-- A band descriptor (R115). -/
structure Band where
  access : BandAccess
  base : Nat
  count : Nat
  direction : Direction
  fill : Pixel
  written : Bool
  stale : Bool
  deriving DecidableEq, Repr

/-- The kind of a map fault (R122). -/
inductive MapFaultKind
  | overrun | absent | length
  deriving DecidableEq, Repr

/-- A frozen map fault capture record (R122). -/
structure MapFault where
  kind : MapFaultKind
  eye : Eye
  index : Byte
  tag : Tag
  time : Nat
  later : Counter
  deriving DecidableEq, Repr

/-- The bytes of the buffer areas: a sparse list of (address, byte), in one canonical form (log 11). -/
abbrev Memory := List Host.Cell

/-- The slice store of a HEADSET (07); the geometry serves the CONSOLE too. -/
structure SliceStore where
  geometry : Geometry
  buffers : Vector BufferRecord 256
  mem : Memory
  bands : Both (Vector Band 8)
  /-- `none` while the record is released -/
  fault : Option MapFault
  pixelWrites : Counter
  voidKeeps : Counter
  checkFailures : Counter
  writesCut : Counter
  fixedDiscards : Counter
  mapFaults : Counter
  captures : Counter
  deriving DecidableEq, Repr

/-! ### Scan unit -/

/-- The profile's scan values (08, Profile values); brightness B[0] to B[3]. -/
structure ScanSettings where
  lp : Nat
  glow : Nat
  hmax : Nat
  kx : Nat
  ky : Nat
  lensStep : Int
  maxshift : Nat
  brightness : Vector Nat 4
  deriving DecidableEq, Repr

/-- A shift record (R129). -/
structure ShiftRecord where
  dx16 : Int
  dy : Int
  unmatched : Bool
  hClamp : Bool
  vClamp : Bool
  deriving DecidableEq, Repr

/-- The scan unit's state for one eye (R129). -/
structure ScanEye where
  shift : Option ShiftRecord
  staleCurrent : Bool
  staleBehind : Bool
  deriving DecidableEq, Repr

/-- The scan unit of a HEADSET (R128 to R144). -/
structure Scan where
  scanning : Bool
  current : Option Nat
  eyes : Both ScanEye
  tickTime : Option Nat
  lineClock : Nat
  /-- the next line to be formed, implied by R131 -/
  nextLine : Nat
  frameNumber : BitVec 32
  settings : ScanSettings
  overlaps : Counter
  staleShows : Counter
  lateShows : Counter
  unmatched : Counter
  clamped : Counter
  overtaken : Counter
  deriving DecidableEq, Repr

/-! ### Audio unit -/

/-- The stream state (R146). -/
inductive StreamState
  | idle | priming | playing | underrun | draining
  deriving DecidableEq, Repr

/-- The kind of a block list record with the fields of that kind (R146). -/
inductive BlockKind
  | block (sequence : Byte) (stamp : Int)
  | fill
  deriving DecidableEq, Repr

/-- A record of the block list (R146). -/
structure BlockRecord where
  kind : BlockKind
  remaining : Nat
  started : Bool
  deriving DecidableEq, Repr

/-- The state of a capture buffer (R157). -/
inductive CaptureState
  | filling | waiting | free
  deriving DecidableEq, Repr

/-- A capture buffer (R157). -/
structure CaptureBuffer where
  state : CaptureState
  stamp : Nat
  samples : List (BitVec 16)
  deriving DecidableEq, Repr

/-- Capture (R157 to R159). -/
structure Capture where
  switch : Bool
  a : CaptureBuffer
  b : CaptureBuffer
  sequence : Byte
  blocks : Counter
  deriving DecidableEq, Repr

/-- The audio unit of a HEADSET (09). -/
structure Audio where
  state : StreamState
  origin : Option Node
  lastSeq : Option Byte
  lastFrame : StereoFrame
  ring : List StereoFrame
  blocks : List BlockRecord
  /-- `none` while the silence timer is stopped -/
  silence : Option Nat
  gain : Nat
  capture : Capture
  slipLimit : Nat
  captureEnable : Bool
  malformed : Counter
  taken : Counter
  foreign : Counter
  late : Counter
  early : Counter
  old : Counter
  gaps : Counter
  resyncs : Counter
  overflows : Counter
  slips : Counter
  underruns : Counter
  captureOverruns : Counter
  deriving DecidableEq, Repr

/-! ### Power unit -/

/-- The profile's power figures (R161), in units of 10 mW. -/
structure PowerSettings where
  draw : Vector Nat 4
  available : Nat
  reserve : Nat
  yellow : Nat
  red : Nat
  low : Nat
  empty : Nat
  availableFull : Nat
  availableLow : Nat
  deriving DecidableEq, Repr

/-- A present entry of the power view (R163). -/
structure PowerEntry where
  supplier : Bool
  consumer : Bool
  available : Nat
  floor : Nat
  desire : Nat
  grant : Nat
  lastHeard : Nat
  /-- its expiry has been counted (log 16) -/
  expired : Bool
  deriving DecidableEq, Repr

/-- A reading in flight on the meter port (R165): the local count at its start, and what has come back. -/
structure MeterReading where
  since : Nat
  load : MeterAnswer (BitVec 16)
  battery : MeterAnswer Byte
  deriving DecidableEq, Repr

/-- The power unit (R161 to R175). -/
structure Power where
  view : Vector (Option PowerEntry) 8
  ownAvailable : Nat
  load : Nat
  battery : Option Nat
  grant : Nat
  supplied : Bool
  /-- `none` while holdover is off -/
  holdover : Option Nat
  step : Fin 4
  rise : Nat
  yellow : Nat
  /-- `none` while no reading is in flight -/
  reading : Option MeterReading
  pool : Nat
  settings : PowerSettings
  malformed : Counter
  taken : Counter
  expired : Counter
  holdoversBegun : Counter
  holdoversEnded : Counter
  stepFalls : Counter
  stepRises : Counter
  yellowEvents : Counter
  redEvents : Counter
  meterFailures : Counter
  meterOverlaps : Counter
  deriving DecidableEq, Repr

/-! ### Local port -/

/-- The cause of a BUSY answer (R182). -/
inductive BusyCause
  | queue | refused | held | tags
  deriving DecidableEq, Repr

/-- The outcome of a send or a record (R24, R27, R182). -/
inductive SendOutcome
  | sent | lost | failed | aborted | busy (cause : BusyCause)
  deriving DecidableEq, Repr

/-- An OUTCOME waiting for the outgoing link (R182). -/
structure OutcomeRecord where
  outcome : SendOutcome
  attempts : BitVec 8
  deriving DecidableEq, Repr

/-- The kind of an outgoing record (R182). -/
inductive OutKind
  | message | outcome | portStatus
  deriving DecidableEq, Repr

/-- The record in transfer to the computer: its kind and its bytes with the frame check (R182, R184). -/
structure OutRecord where
  kind : OutKind
  bytes : List Byte
  deriving DecidableEq, Repr

/-- The local port of a CONSOLE (R179 to R183); a waiting PORT STATUS is held as its contents. -/
structure LocalPort where
  outcomes : List OutcomeRecord
  status : Option (List Byte)
  out : Option OutRecord
  /-- the link ended its last record with its abort mark (R182; log 27) -/
  abortMark : Bool
  errors : Counter
  busy : Counter
  deriving DecidableEq, Repr

/-! ### The profile -/

/-- Every setting the profile gives (12_formats.md, Profile image), before or after the loader's checks.
The due times of REPEAT entries are set at installation (R74). -/
structure Settings where
  wire : FlagMask
  message : FlagMask
  table : Vector IntakeEntry 8
  entries : Vector SchedEntry 8
  geometry : Geometry
  bands : Both (Vector Band 8)
  scan : ScanSettings
  motion : MotionSettings
  e0 : DialRange
  e1 : DialRange
  slipLimit : Nat
  captureEnable : Bool
  power : PowerSettings
  strain : Nat
  stepLimit : Nat
  deriving DecidableEq, Repr

end Sys2Proof.Machine
end

