-- ==== Sys2Proof/Machine/PowerOn.lean ====
section
/-! DEFINITION. The role defaults of the settings and the power-on value of every block. Before the profile is
installed the settings stand at their role defaults (log 6). -/

namespace Sys2Proof.Machine

def Both.same {α : Type} (v : α) : Both α := { left := v, right := v }

def Axes.same {α : Type} (v : α) : Axes α := { yaw := v, pitch := v, roll := v }

def black : Pixel := { r := 0, g := 0, b := 0 }

/-! ### Role defaults -/

/-- R51: message enables of all flags. -/
def defaultMessage : FlagMask := 0xFFF

/-- R51: wire enables of PROFILE, DUPNODE, CUT, SENSOR, OVERDRAW, BATTERY and LANE (flags 0, 1, 3, 6, 9, 10, 11). -/
def defaultWire : FlagMask := 0xE4B

def entryAny (d : Destination) : IntakeEntry := { matchValue := 0, care := 0, dest := d }

def entryClass (m : BitVec 12) (d : Destination) : IntakeEntry := { matchValue := m, care := 3840, dest := d }

def entryPlayback (d : Destination) : IntakeEntry := { matchValue := 1024, care := 4088, dest := d }

/-- The role defaults of the intake table (R31). -/
def defaultTable : Role → Vector IntakeEntry 8
  | .console => #v[entryClass 256 .unit, entryClass 512 .unit, entryClass 1280 .both, entryClass 1536 .unit,
      entryPlayback .drop, entryAny .queue, entryAny .drop, entryAny .drop]
  | .headset => #v[entryClass 256 .unit, entryClass 1280 .unit, entryClass 1536 .unit, entryPlayback .unit,
      entryClass 0 .queue, entryAny .drop, entryAny .drop, entryAny .drop]
  | .supply => #v[entryClass 256 .unit, entryClass 1280 .unit, entryClass 1536 .unit, entryClass 0 .queue,
      entryAny .drop, entryAny .drop, entryAny .drop, entryAny .drop]

/-- An entry that never fires (R72). -/
def noneEntry : SchedEntry := { action := .none, mode := .repeating 0 0 0 }

def repeatEntry (a : Action) (period phase : Nat) : SchedEntry := { action := a, mode := .repeating period phase 0 }

def countedEntry (a : Action) (source : Fin 8) (n : Nat) : SchedEntry := { action := a, mode := .counted source n 0 }

/-- The role defaults of the schedule table (R78). -/
def defaultEntries (role : Role) (node : Node) : Vector SchedEntry 8 :=
  let beacon := repeatEntry .beacon 1600000 (node.val * 200000)
  let power := repeatEntry .powerReport 1600000 (node.val * 200000 + 100000)
  let frame := repeatEntry .frame 177778 0
  match role with
  | .headset => #v[beacon, frame, repeatEntry .sample 16000 0, countedEntry .poseReport 2 2, power,
      noneEntry, noneEntry, noneEntry]
  | .console => #v[beacon, frame, power, countedEntry .portStatus 1 1, noneEntry, noneEntry, noneEntry, noneEntry]
  | .supply => #v[beacon, power, noneEntry, noneEntry, noneEntry, noneEntry, noneEntry, noneEntry]

/-- The defaults of the geometry (R113). -/
def defaultGeometry : Geometry := { S := 16, H := 1536, W := 1600, edge := .same black }

def defaultBand (base : Nat) : Band :=
  { access := .live, base := base, count := 12, direction := .up, fill := black, written := false, stale := false }

/-- The default band maps (R115). -/
def defaultBands : Both (Vector Band 8) where
  left := #v[defaultBand 0, defaultBand 12, defaultBand 24, defaultBand 36, defaultBand 48, defaultBand 60,
    defaultBand 72, defaultBand 84]
  right := #v[defaultBand 96, defaultBand 108, defaultBand 120, defaultBand 132, defaultBand 144, defaultBand 156,
    defaultBand 168, defaultBand 180]

/-- 08, Profile values used by the scan. -/
def defaultScan : ScanSettings where
  lp := 104
  glow := 2000
  hmax := 20000
  kx := 100531
  ky := 100531
  lensStep := 3
  maxshift := 96
  brightness := #v[0, 128, 192, 256]

/-- The default axis map: yaw from axis 2, pitch from axis 0, roll from axis 1, all + (05, Profile values). -/
def defaultAxisMap : Axes AxisMap where
  yaw := { axis := 2, negative := false }
  pitch := { axis := 0, negative := false }
  roll := { axis := 1, negative := false }

def defaultMotion : MotionSettings where
  axisMap := defaultAxisMap
  bias := .same 0
  gain := .same 728
  readLimit := 400

def defaultE0 : DialRange := { min := -40, max := 40, start := 0 }

def defaultE1 : DialRange := { min := 0, max := 30, start := 0 }

/-- The defaults of the power figures (R161); a figure the role does not use is 0 (log 6). -/
def defaultPower : Role → PowerSettings
  | .headset =>
    { draw := #v[300, 900, 1250, 1600]
      available := 0
      reserve := 100
      yellow := 100
      red := 400
      low := 0
      empty := 0
      availableFull := 0
      availableLow := 0 }
  | .console =>
    { draw := #v[60, 250, 250, 250]
      available := 0
      reserve := 100
      yellow := 100
      red := 400
      low := 0
      empty := 0
      availableFull := 0
      availableLow := 0 }
  | .supply =>
    { draw := #v[40, 40, 40, 40]
      available := 0
      reserve := 100
      yellow := 100
      red := 400
      low := 20
      empty := 5
      availableFull := 1700
      availableLow := 1300 }

/-- Every setting at its role default (R177). -/
def defaultSettings (role : Role) (node : Node) : Settings where
  wire := defaultWire
  message := defaultMessage
  table := defaultTable role
  entries := defaultEntries role node
  geometry := defaultGeometry
  bands := defaultBands
  scan := defaultScan
  motion := defaultMotion
  e0 := defaultE0
  e1 := defaultE1
  slipLimit := 250
  captureEnable := false
  power := defaultPower role
  strain := 80
  stepLimit := 100

/-! ### Power-on values -/

/-- The pins before anything outside has acted (log 5). -/
def pinsAtPowerOn : Pins where
  alertOthers := false
  laneSignal := false
  dialLevels := ((false, false), (false, false))
  panel := .same none
  codecOut := { left := 0, right := 0 }

/-- The straps of `State.reset` (log 5). -/
def strapsAtReset : Straps where
  node := 0
  role := .console
  rate := .mbit25
  supplyPresent := false
  profilePresent := false

def loaderAtPowerOn : Loader := { life := .loading, epoch := 0, restartDue := false, fromRestart := false }

/-- R44, R7, R15. -/
def spineAtPowerOn (st : Settings) : Spine where
  sfc := 0
  tfc := 0
  standing := .open
  strain := st.strain
  tx := none
  receiving := false
  synced := false
  quietRuns := 0
  lastOwn := false
  drive := .undriven
  driveErrors := 0
  shapeErrors := 0
  checkErrors := 0
  echoErrors := 0
  losses := 0
  duplicates := 0

def noContent : Content := { rank := 0, body := [], singleShot := false, loop := false }

/-- R20: EMPTY, attempt count 0, flags clear, no held record. -/
def emptySlot : Slot where
  state := .empty
  content := noContent
  abortMark := false
  attempts := 0
  held := none
  superseded := 0

def slotsAtPowerOn : Slots where
  alarm := emptySlot
  time := emptySlot
  credit := emptySlot
  pose := emptySlot
  audio := emptySlot
  power := emptySlot
  reply := emptySlot
  port := emptySlot
  refused := 0

/-- R32. -/
def intakeAtPowerOn (st : Settings) : Intake where
  table := st.table
  queue := []
  inTransfer := none
  overrun := false
  split := false
  taken := 0
  dropped := 0
  overruns := 0

/-- R36, R38. -/
def cmdAtPowerOn : CommandUnit := { queue := [], answering := none, malformed := 0, drops := 0, discarded := 0 }

/-- R48, R51: every flag unlatched and unmarked, all enables clear. -/
def alarmsAtPowerOn : Alarms := { latched := 0, unsent := 0, wire := 0, message := 0, present := 0 }

/-- R59, R64, R65, R67. -/
def timeAtPowerOn (st : Settings) : TimeUnit where
  localCount := 0
  offset := 0
  slew := 0
  readings := []
  table := .replicate 8 none
  reference := none
  corrected := false
  beaconNumber := 0
  prevStart := none
  timer := none
  stepLimit := st.stepLimit
  malformed := 0
  beaconsSent := 0
  skipped := 0
  beaconsTaken := 0
  pairs := 0
  steps := 0
  slews := 0
  refChanges := 0
  refLosses := 0

/-- R72: the table is empty until it is installed. -/
def schedAtPowerOn : Schedule := { entries := .replicate 8 noneEntry, skippedDues := 0 }

/-- R79, R81 to R84. -/
def motionAtPowerOn (st : Settings) : Motion where
  reading := none
  ring := []
  lastGyro := .same 0
  lastAccel := .same 0
  acc := .same 0
  lastInc := .same 0
  failures := 0
  history := []
  settings := st.motion
  good := 0
  notReady := 0
  timedOut := 0
  overlaps := 0
  zeroed := 0
  saturated := 0
  emptyReports := 0

/-- A dial before the profile is installed (R92, log 28). -/
def dialAtPowerOn (r : DialRange) : DialState where
  range := r
  count := r.start
  lineA := false
  lineB := false
  limit := false
  frameValue := 0
  skips := 0
  limitSteps := 0

def dialsAtPowerOn (st : Settings) : Dials := { e0 := dialAtPowerOn st.e0, e1 := dialAtPowerOn st.e1 }

/-- R99, R100, R101. -/
def senderEyeAtPowerOn : SenderEye :=
  { input := .sending, voidsOwed := 0, voidTag := none, queue := [], sent := 0, horizon := 0 }

/-- R96, R97, R102, R104. -/
def laneTxAtPowerOn : LaneSender where
  frame := none
  tags := []
  eyes := .same senderEyeAtPowerOn
  lastEye := .right
  leftNext := false
  packet := none
  epochHeld := none
  frameNumber := 0
  malformed := 0
  inputFrames := 0
  inputShape := 0
  untagged := 0
  tagsRefused := 0
  slicesFormed := 0
  slicesQueued := 0
  slicesDropped := 0
  framesDropped := 0
  voidsSent := 0
  slicesSent := 0
  creditsTaken := 0
  resyncs := 0
  flushed := 0
  laneDowns := 0

/-- R106: every buffer is OPEN, so the horizon is accepted + N. -/
def receiverEyeAtPowerOn (n : Nat) : ReceiverEye := { accepted := 0, horizon := BitVec.ofNat 16 n, lastLoaded := none }

/-- R106: the epoch is the restart epoch mod 256. -/
def laneRxAtPowerOn (st : Settings) (epoch : BitVec 16) : LaneReceiver where
  eyes := .same (receiverEyeAtPowerOn (st.geometry.H / st.geometry.S))
  epoch := epoch.setWidth 8
  packet := none
  packetsTaken := 0
  voidsTaken := 0
  voided := 0
  headerDiscards := 0
  overruns := 0
  creditLoads := 0
  laneDowns := 0

/-- R114: OPEN, DAMAGED, no write in progress, present mark clear. -/
def bufferAtPowerOn : BufferRecord :=
  { full := false, content := .damaged, tag := { target := 0, pose := 0, present := false }, writing := false }

/-- R114, R115, R122. -/
def storeAtPowerOn (st : Settings) : SliceStore where
  geometry := st.geometry
  buffers := .replicate 256 bufferAtPowerOn
  mem := []
  bands := st.bands
  fault := none
  pixelWrites := 0
  voidKeeps := 0
  checkFailures := 0
  writesCut := 0
  fixedDiscards := 0
  mapFaults := 0
  captures := 0

def scanEyeAtPowerOn : ScanEye := { shift := none, staleCurrent := false, staleBehind := false }

/-- R129. -/
def scanAtPowerOn (st : Settings) : Scan where
  scanning := false
  current := none
  eyes := .same scanEyeAtPowerOn
  tickTime := none
  lineClock := 0
  nextLine := 0
  frameNumber := 0
  settings := st.scan
  overlaps := 0
  staleShows := 0
  lateShows := 0
  unmatched := 0
  clamped := 0
  overtaken := 0

/-- A FREE capture buffer; its stamp while it has no sample is 0 (R157; log 28). -/
def freeBuffer : CaptureBuffer := { state := .free, stamp := 0, samples := [] }

/-- R157: the switch takes the profile's capture enable, both buffers FREE, sequence 0. -/
def captureAtPowerOn (st : Settings) : Capture :=
  { switch := st.captureEnable, a := freeBuffer, b := freeBuffer, sequence := 0, blocks := 0 }

/-- R146. -/
def audioAtPowerOn (st : Settings) : Audio where
  state := .idle
  origin := none
  lastSeq := none
  lastFrame := { left := 0, right := 0 }
  ring := []
  blocks := []
  silence := none
  gain := 256
  capture := captureAtPowerOn st
  slipLimit := st.slipLimit
  captureEnable := st.captureEnable
  malformed := 0
  taken := 0
  foreign := 0
  late := 0
  early := 0
  old := 0
  gaps := 0
  resyncs := 0
  overflows := 0
  slips := 0
  underruns := 0
  captureOverruns := 0

/-- The own entry of the power view from the own figures (R161, R163): floor is draw[1], desire is draw[3]. -/
def ownEntryOf (straps : Straps) (ps : PowerSettings) (available grant localCount : Nat) : PowerEntry where
  supplier := straps.supplyPresent
  consumer := decide (0 < ps.draw[3])
  available := if straps.supplyPresent then available else 0
  floor := ps.draw[1]
  desire := ps.draw[3]
  grant := grant
  lastHeard := localCount
  expired := false

/-- R162, R163. -/
def powerAtPowerOn (straps : Straps) (st : Settings) : Power where
  view := (Vector.replicate 8 none).set straps.node.val (some (ownEntryOf straps st.power 0 st.power.draw[0] 0))
  ownAvailable := 0
  load := 0
  battery := none
  grant := st.power.draw[0]
  supplied := false
  holdover := none
  step := 0
  rise := 0
  yellow := 0
  reading := none
  pool := 0
  settings := st.power
  malformed := 0
  taken := 0
  expired := 0
  holdoversBegun := 0
  holdoversEnded := 0
  stepFalls := 0
  stepRises := 0
  yellowEvents := 0
  redEvents := 0
  meterFailures := 0
  meterOverlaps := 0

/-- R182. -/
def portAtPowerOn : LocalPort := { outcomes := [], status := none, out := none, abortMark := false, errors := 0, busy := 0 }

end Sys2Proof.Machine
end

