-- ==== Sys2Proof/Machine/State.lean ====
section
/-! DEFINITION. The state of a station, the reasons a step can stop, and the state right after power-on. -/

namespace Sys2Proof.Machine

/-- The state of one WT40 station: its queue of waiting commands, its pins, and the state of each block. -/
structure State where
  /-- commands that wait, first in, first out -/
  pending : List Instr
  /-- index of the next free value (log 12); the model's own -/
  free : Nat
  pins : Pins
  straps : Straps
  loader : Loader
  spine : Spine
  slots : Slots
  intake : Intake
  cmd : CommandUnit
  alarms : Alarms
  time : TimeUnit
  sched : Schedule
  motion : Motion
  dials : Dials
  laneTx : LaneSender
  laneRx : LaneReceiver
  store : SliceStore
  scan : Scan
  audio : Audio
  power : Power
  port : LocalPort
  deriving DecidableEq, Repr

/-- Why a step can stop with a fault. -/
inductive Fault
  /-- Raised by PACKET_END and SCAN_LINE when the geometry gives slices larger than a buffer's area of 196,608 bytes.
  The loader's checks (R113) never leave such a geometry. Safe: the model stops (log 29). -/
  | sliceOverArea
  deriving DecidableEq, Repr

/-- Why a step can be refused. -/
inductive Refusal
  /-- Raised by an arm of exec whose command has no meaning yet; none is left. Safe. -/
  | notModelled (mnemonic : String)
  deriving DecidableEq, Repr

/-- The state at power-on (R176): every block at its power-on value, given the straps read (R1, R177), the levels at
the pins, the waiting commands and the index of the next free value. -/
def State.powerOn (straps : Straps) (pins : Pins) (pending : List Instr) (free : Nat) : State :=
  let st := defaultSettings straps.role straps.node
  { pending := pending
    free := free
    pins := { pins with panel := .same none, codecOut := { left := 0, right := 0 } }
    straps := straps
    loader := loaderAtPowerOn
    spine := spineAtPowerOn st
    slots := slotsAtPowerOn
    intake := intakeAtPowerOn st
    cmd := cmdAtPowerOn
    alarms := alarmsAtPowerOn
    time := timeAtPowerOn st
    sched := schedAtPowerOn
    motion := motionAtPowerOn st
    dials := dialsAtPowerOn st
    laneTx := laneTxAtPowerOn
    laneRx := laneRxAtPowerOn st 0
    store := storeAtPowerOn st
    scan := scanAtPowerOn st
    audio := audioAtPowerOn st
    power := powerAtPowerOn straps st
    port := portAtPowerOn }

/-- The machine right after power-on, with no command waiting (log 5 names the straps and pins). -/
def State.reset : State := State.powerOn strapsAtReset pinsAtPowerOn [] 0

end Sys2Proof.Machine
end

