-- ==== Sys2Proof/Machine/Ops.lean ====
section
/-! DEFINITION. Named operations over the state: one update per block, counters, agreed time, the slice store's bytes
and the readings that more than one block makes. -/

namespace Sys2Proof.Machine

/-! ### One update per block -/

def State.updPins (s : State) (f : Pins → Pins) : State := { s with pins := f s.pins }
def State.updLoader (s : State) (f : Loader → Loader) : State := { s with loader := f s.loader }
def State.updSpine (s : State) (f : Spine → Spine) : State := { s with spine := f s.spine }
def State.updSlots (s : State) (f : Slots → Slots) : State := { s with slots := f s.slots }
def State.updIntake (s : State) (f : Intake → Intake) : State := { s with intake := f s.intake }
def State.updCmd (s : State) (f : CommandUnit → CommandUnit) : State := { s with cmd := f s.cmd }
def State.updAlarms (s : State) (f : Alarms → Alarms) : State := { s with alarms := f s.alarms }
def State.updTime (s : State) (f : TimeUnit → TimeUnit) : State := { s with time := f s.time }
def State.updSched (s : State) (f : Schedule → Schedule) : State := { s with sched := f s.sched }
def State.updMotion (s : State) (f : Motion → Motion) : State := { s with motion := f s.motion }
def State.updDials (s : State) (f : Dials → Dials) : State := { s with dials := f s.dials }
def State.updLaneTx (s : State) (f : LaneSender → LaneSender) : State := { s with laneTx := f s.laneTx }
def State.updLaneRx (s : State) (f : LaneReceiver → LaneReceiver) : State := { s with laneRx := f s.laneRx }
def State.updStore (s : State) (f : SliceStore → SliceStore) : State := { s with store := f s.store }
def State.updScan (s : State) (f : Scan → Scan) : State := { s with scan := f s.scan }
def State.updAudio (s : State) (f : Audio → Audio) : State := { s with audio := f s.audio }
def State.updPower (s : State) (f : Power → Power) : State := { s with power := f s.power }
def State.updPort (s : State) (f : LocalPort → LocalPort) : State := { s with port := f s.port }

/-- The free value at the present index is used up (log 12). -/
def State.useFree (s : State) : State := { s with free := s.free + 1 }

/-! ### Access to the parts of a block -/

def Both.get {α : Type} (b : Both α) : Eye → α
  | .left => b.left
  | .right => b.right

def Both.put {α : Type} (b : Both α) (e : Eye) (v : α) : Both α :=
  match e with
  | .left => { b with left := v }
  | .right => { b with right := v }

def Both.map {α β : Type} (f : α → β) (b : Both α) : Both β := { left := f b.left, right := f b.right }

def Axes.map {α β : Type} (f : α → β) (a : Axes α) : Axes β := { yaw := f a.yaw, pitch := f a.pitch, roll := f a.roll }

def Axes.zip {α β γ : Type} (f : α → β → γ) (a : Axes α) (b : Axes β) : Axes γ :=
  { yaw := f a.yaw b.yaw, pitch := f a.pitch b.pitch, roll := f a.roll b.roll }

/-- The vector with entry `i` replaced. -/
def putAt {α : Type} {n : Nat} (v : Vector α n) (i : Fin n) (x : α) : Vector α n := v.set i.val x i.isLt

/-- The node numbers, in order. -/
def allNodes : List Node := [0, 1, 2, 3, 4, 5, 6, 7]

def Eye.other : Eye → Eye
  | .left => .right
  | .right => .left

/-! ### Counters -/

/-- An event is counted: 16 bits, saturating (00_scope.md, Counters). -/
def bump (c : Counter) : Counter := if c = 65535 then c else c + 1

/-- `n` events are counted, saturating. -/
def bumpBy (c : Counter) (n : Nat) : Counter := BitVec.ofNat 16 (min (c.toNat + n) 65535)

/-- An attempt count rises by 1, saturating at 255 (R20). -/
def bump8 (c : BitVec 8) : BitVec 8 := if c = 255 then c else c + 1

/-- clamp(v, lo, hi) (00_scope.md, Arithmetic). -/
def clampInt (v lo hi : Int) : Int := if v < lo then lo else if hi < v then hi else v

def clampNat (v lo hi : Nat) : Nat := if v < lo then lo else if hi < v then hi else v

/-! ### Time -/

/-- Where agreed time holds: 2^48 − 1 µs (R59), in sixteenths. -/
def agreedCap : Nat := (2 ^ 48 - 1) * 16

/-- Agreed time in sixteenths of a µs (R59). -/
def TimeUnit.agreed (t : TimeUnit) : Nat := min (16 * (t.localCount : Int) + t.offset).toNat agreedCap

/-- Agreed time in sixteenths of a µs (R59). -/
def State.agreed (s : State) : Nat := s.time.agreed

/-- Agreed time in whole µs (R59). -/
def State.agreedUs (s : State) : Nat := s.agreed / 16

/-- The 32-bit time field for a time in whole µs (R59). -/
def low32 (us : Nat) : BitVec 32 := BitVec.ofNat 32 us

/-- Rebuild a 32-bit time field against own agreed time `g` in µs (R62): the value with those low bits in
[g − 2^31, g + 2^31). -/
def rebuild (field : BitVec 32) (g : Nat) : Int :=
  let low : Int := (g : Int) - 2 ^ 31
  low + ((field.toNat : Int) - low) % 2 ^ 32

/-! ### Service -/

/-- The station is in service: RUNNING and not CUT (R47, R157). -/
def State.inService (s : State) : Bool := s.loader.life == .running && s.spine.standing != .cut

/-- A load of any slot is refused (R22). -/
def State.loadRefused (s : State) : Bool := s.loader.life != .running || s.spine.standing == .cut

/-- The station is the HEADSET and out of LOADING. -/
def State.headsetActive (s : State) : Bool := s.straps.role == .headset && s.loader.life != .loading

/-- The station is the CONSOLE and out of LOADING. -/
def State.consoleActive (s : State) : Bool := s.straps.role == .console && s.loader.life != .loading

/-! ### Geometry -/

/-- N, slices per eye (R113). -/
def Geometry.slices (g : Geometry) : Nat := g.H / g.S

/-- M, slices per band (R113). -/
def Geometry.bandSlices (g : Geometry) : Nat := g.slices / 8

/-- The pixel bytes of one slice. -/
def Geometry.sliceBytes (g : Geometry) : Nat := g.S * g.W * 3

/-- The bytes of one buffer's area (07, Buffer records). -/
def areaBytes : Nat := 196608

/-- A slice fits its buffer's area (07, Buffer records). -/
def Geometry.fits (g : Geometry) : Bool := decide (g.sliceBytes ≤ areaBytes)

/-! ### Bytes of the slice store (log 11) -/

/-- What an unlisted address reads as (log 11). -/
def unlistedByte : Byte := 0

/-- The byte at an address. -/
def Memory.read : Memory → Nat → Byte
  | [], _ => unlistedByte
  | (k, v) :: rest, a => if k = a then v else Memory.read rest a

/-- The listed cells of a run of bytes from address `a`. -/
def Memory.cells : Nat → List Byte → Memory
  | _, [] => []
  | a, v :: vs => if v = unlistedByte then Memory.cells (a + 1) vs else (a, v) :: Memory.cells (a + 1) vs

/-- The memory with the bytes `vs` written from address `a` on. -/
def Memory.write (m : Memory) (a : Nat) (vs : List Byte) : Memory :=
  m.filter (fun c => decide (c.1 < a)) ++ Memory.cells a vs ++
    m.filter (fun c => decide (a + vs.length ≤ c.1))

/-- Addresses strictly rise from `lo` on, and no cell holds what an unlisted address reads as. -/
def Memory.wfFrom : Nat → Memory → Bool
  | _, [] => true
  | lo, (k, v) :: rest => decide (lo ≤ k) && v != unlistedByte && Memory.wfFrom (k + 1) rest

/-- The canonical form. -/
def Memory.wf (m : Memory) : Bool := Memory.wfFrom 0 m

/-- The first byte of a buffer's area (07, Buffer records). -/
def areaBase (b : Fin 256) : Nat := b.val * areaBytes

end Sys2Proof.Machine
end

