-- ==== Sys2Proof/Machine/Operands.lean ====
section
/-! DEFINITION. Byte layouts: fields of several bytes, ranks, checks, and the codes of enumerated fields (R184, R6,
R105). -/

namespace Sys2Proof.Machine

/-! ### Fields of bytes -/

/-- The `k` low bytes of a number, most significant first (R184). -/
def beBytes : Nat → Nat → List Byte
  | 0, _ => []
  | k + 1, v => BitVec.ofNat 8 (v / 256 ^ k) :: beBytes k v

/-- A signed number as `k` bytes, two's complement (R184). -/
def beInt (k : Nat) (v : Int) : List Byte := beBytes k (v % (256 ^ k : Nat)).toNat

/-- The bytes of a bit vector of `8 * k` bits or fewer. -/
def beBits {w : Nat} (k : Nat) (v : BitVec w) : List Byte := beBytes k v.toNat

/-- The number that bytes spell, most significant first (R184). -/
def fromBytes (bs : List Byte) : Nat := bs.foldl (fun acc b => acc * 256 + b.toNat) 0

/-- The number in the `len` bytes from offset `off`. -/
def fieldAt (bs : List Byte) (off len : Nat) : Nat := fromBytes ((bs.drop off).take len)

/-- One byte, 0 beyond the end. -/
def byteAt (bs : List Byte) (off : Nat) : Byte := bs.getD off 0

/-- The flags of a byte, bit 0 first (R184); the bits that no flag takes are 0 (log 46). -/
def flagByte (bits : List Bool) : Byte :=
  BitVec.ofNat 8 (bits.foldr (fun b acc => acc * 2 + (if b then 1 else 0)) 0)

/-- The node in a byte whose value is 0 to 7. -/
def nodeOf (v : Nat) : Node := Fin.ofNat 8 v

/-! ### Ranks -/

/-- class × 256 + topic × 8 + origin (00_scope.md, Rank). -/
def mkRank (cls topic : Nat) (n : Node) : Rank := BitVec.ofNat 12 (cls * 256 + topic * 8 + n.val)

def rankClass (r : Rank) : Nat := r.toNat / 256

def rankTopic (r : Rank) : Nat := r.toNat / 8 % 32

def rankOrigin (r : Rank) : Node := nodeOf (r.toNat % 8)

/-- The rank with its origin replaced by a station's own node (R5). -/
def withOrigin (r : Rank) (n : Node) : Rank := mkRank (rankClass r) (rankTopic r) n

/-! ### Checks -/

/-- The bits of a number of `w` bits, most significant first (R4). -/
def bitsOf : Nat → Nat → List Bool
  | 0, _ => []
  | k + 1, v => v.testBit k :: bitsOf k v

def byteBits (bs : List Byte) : List Bool := bs.flatMap (fun b => bitsOf 8 b.toNat)

/-- The remainder of dividing a bit string by the generator x^w + gen, over GF(2). -/
def polyRemainder {w : Nat} (gen : BitVec w) (bits : List Bool) : BitVec w :=
  bits.foldl (fun r b =>
    let shifted := (r <<< 1) ||| (if b then 1#w else 0#w)
    if r.msb then shifted ^^^ gen else shifted) 0#w

/-- The check of a bit string: the first w bits inverted, w zero bits after it, and the remainder (R6, R105). -/
def checkOf {w : Nat} (gen : BitVec w) (bits : List Bool) : BitVec w :=
  polyRemainder gen ((bits.take w).map not ++ bits.drop w ++ List.replicate w false)

/-- x^16 + x^12 + x^5 + 1 (R6). -/
def generator16 : BitVec 16 := 0x1021

/-- x^32 + x^26 + x^23 + x^22 + x^16 + x^12 + x^11 + x^10 + x^8 + x^7 + x^5 + x^4 + x^2 + x + 1 (R105). -/
def generator32 : BitVec 32 := 0x04C11DB7

/-- The check of a spine message over rank, length and body (R6). -/
def spineCheck (rank : Rank) (body : List Byte) : BitVec 16 :=
  checkOf generator16 (bitsOf 12 rank.toNat ++ bitsOf 6 body.length ++ byteBits body)

/-- The header check, and the frame check of a local port record (R105, R184). -/
def bytesCheck (bs : List Byte) : BitVec 16 := checkOf generator16 (byteBits bs)

/-- The pixel check (R105). -/
def pixelCheck (bs : List Byte) : BitVec 32 := checkOf generator32 (byteBits bs)

/-! ### Codes (R184) -/

def Life.code : Life → Nat
  | .loading => 0
  | .listening => 1
  | .running => 2

def Standing.code : Standing → Nat
  | .open => 0
  | .strained => 1
  | .muted => 2
  | .cut => 3

/-- A command's result (R38). -/
inductive Result
  | done | notHere | unknown | empty | clamped
  deriving DecidableEq, Repr

def Result.code : Result → Nat
  | .done => 0
  | .notHere => 1
  | .unknown => 2
  | .empty => 3
  | .clamped => 4

def SendOutcome.code : SendOutcome → Nat
  | .sent => 0
  | .lost => 1
  | .failed => 2
  | .aborted => 3
  | .busy _ => 4

def BusyCause.code : BusyCause → Nat
  | .queue => 0
  | .refused => 1
  | .held => 2
  | .tags => 3

/-- The cause byte of an OUTCOME record, 0 unless BUSY (R184). -/
def SendOutcome.causeCode : SendOutcome → Nat
  | .busy c => c.code
  | .sent => 0
  | .lost => 0
  | .failed => 0
  | .aborted => 0

def MapFaultKind.code : MapFaultKind → Nat
  | .overrun => 0
  | .absent => 1
  | .length => 2

def BandAccess.code : BandAccess → Nat
  | .live => 0
  | .fixed => 1
  | .absent => 2

def StreamState.code : StreamState → Nat
  | .idle => 0
  | .priming => 1
  | .playing => 2
  | .underrun => 3
  | .draining => 4

def Eye.code : Eye → Nat
  | .left => 0
  | .right => 1

def bit (b : Bool) : Nat := if b then 1 else 0

/-! ### Pixels -/

def Pixel.bytes (p : Pixel) : List Byte := [p.r, p.g, p.b]

end Sys2Proof.Machine
end

