-- ==== Sys2Proof/Machine/Slots.lean ====
section
/-! DEFINITION. The transmit slots: load, selection, end of a send, clearing (R20 to R27), and what the command unit
and the local port do with an outcome. -/

namespace Sys2Proof.Machine

/-! ### Slots by name -/

def Slots.get (t : Slots) : SlotName → Slot
  | .alarm => t.alarm
  | .time => t.time
  | .credit => t.credit
  | .pose => t.pose
  | .audio => t.audio
  | .power => t.power
  | .reply => t.reply
  | .port => t.port

def Slots.put (t : Slots) (n : SlotName) (v : Slot) : Slots :=
  match n with
  | .alarm => { t with alarm := v }
  | .time => { t with time := v }
  | .credit => { t with credit := v }
  | .pose => { t with pose := v }
  | .audio => { t with audio := v }
  | .power => { t with power := v }
  | .reply => { t with reply := v }
  | .port => { t with port := v }

def State.slot (s : State) (n : SlotName) : Slot := s.slots.get n

def State.updSlot (s : State) (n : SlotName) (f : Slot → Slot) : State := s.updSlots fun t => t.put n (f (t.get n))

/-- The slots in slot order (R20). -/
def slotOrder : List SlotName := [.alarm, .time, .credit, .pose, .audio, .power, .reply, .port]

/-! ### Load -/

/-- What a load does to a slot, by its state (R21). -/
def Slot.load (sl : Slot) (c : Content) : Slot :=
  match sl.state with
  | .empty => { sl with state := .pending, content := c, attempts := 0 }
  | .pending => { sl with content := c, superseded := bump sl.superseded }
  | .sending =>
    { sl with held := some c, superseded := if sl.held.isSome then bump sl.superseded else sl.superseded }

/-- A refused load is counted, unless the command unit made it (R22). -/
def countRefused (n : SlotName) (s : State) : State :=
  if n = .reply then s else s.updSlots fun t => { t with refused := bump t.refused }

/-- An owner loads its slot (R21), or is refused (R22). -/
def loadSlot (n : SlotName) (c : Content) (s : State) : State :=
  if s.loadRefused then countRefused n s else s.updSlot n (·.load c)

/-- A message of a unit: own node as origin, neither single-shot nor loop (R5). -/
def ownContent (s : State) (cls topic : Nat) (body : List Byte) : Content :=
  { rank := mkRank cls topic s.straps.node, body := body, singleShot := false, loop := false }

/-! ### Selection -/

/-- The better of a candidate and a further slot: PENDING, lower rank, the earlier in slot order on equal ranks (R23). -/
def pickBetter (t : Slots) (best : Option SlotName) (n : SlotName) : Option SlotName :=
  if (t.get n).state = .pending then
    match best with
    | none => some n
    | some b => if (t.get n).content.rank.toNat < (t.get b).content.rank.toNat then some n else some b
  else best

/-- The PENDING slot of lowest rank (R23). -/
def Slots.pick (t : Slots) : Option SlotName := slotOrder.foldl (pickBetter t) none

/-- The selected slot becomes SENDING and its attempt count rises (R23). -/
def Slot.select (sl : Slot) : Slot := { sl with state := .sending, attempts := bump8 sl.attempts }

/-! ### End of a send -/

/-- After an outcome: the held record becomes the content, or the slot is EMPTY (R24). -/
def Slot.finish (sl : Slot) : Slot :=
  match sl.held with
  | some c => { sl with state := .pending, content := c, attempts := 0, held := none, abortMark := false }
  | none => { sl with state := .empty, content := noContent, attempts := 0, held := none, abortMark := false }

/-- After a loss or an error without an outcome: PENDING with the same content, or with the held record (R24). -/
def Slot.again (sl : Slot) : Slot :=
  { sl with state := .pending, content := sl.held.getD sl.content, held := none, abortMark := false }

/-- The slot after a loss or an error, and its outcome if it has one: `o` if single-shot, ABORTED if marked, none
otherwise (R24, R27). -/
def Slot.endUnsent (sl : Slot) (o : SendOutcome) : Slot × Option SendOutcome :=
  if sl.content.singleShot then (sl.finish, some o)
  else if sl.abortMark then (sl.finish, some .aborted)
  else (sl.again, none)

/-! ### Owners of the REPLY and PORT slots -/

/-- An OUTCOME joins the outcome queue of the local port (R182). -/
def pushOutcome (o : SendOutcome) (attempts : BitVec 8) (s : State) : State :=
  s.updPort fun p =>
    if p.outcomes.length < 6 then { p with outcomes := p.outcomes ++ [{ outcome := o, attempts := attempts }] } else p

/-- The code of the RESTART command (R37). -/
def restartCode : BitVec 5 := 11

/-- The reply is done: the command unit becomes FREE (R38, R39), and a RESTART command's restart is due (R178). -/
def replyDone (s : State) : State :=
  match s.cmd.answering with
  | none => s
  | some c =>
    let s := s.updCmd fun u => { u with answering := none }
    if c.code = restartCode then s.updLoader fun l => { l with restartDue := true } else s

/-! ### Clearing -/

/-- A slot is cleared, whatever its state (R25). -/
def Slot.clear (sl : Slot) : Slot :=
  { sl with state := .empty, content := noContent, abortMark := false, attempts := 0, held := none }

def Slots.clear (t : Slots) : Slots where
  alarm := t.alarm.clear
  time := t.time.clear
  credit := t.credit.clear
  pose := t.pose.clear
  audio := t.audio.clear
  power := t.power.clear
  reply := t.reply.clear
  port := t.port.clear
  refused := t.refused

/-- Every slot is cleared with outcome FAILED; the REPLY and PORT owners act on theirs (R25, R26). -/
def clearSlots (s : State) : State :=
  let portWas := s.slots.port
  let replyWas := s.slots.reply
  let s := s.updSlots Slots.clear
  let s := if replyWas.state = .empty then s else replyDone s
  if portWas.state = .empty then s else pushOutcome .failed portWas.attempts s

end Sys2Proof.Machine
end

