-- ==== Sys2Proof/Machine/Flags.lean ====
section
/-! DEFINITION. The alarm set: flags, masks, latching, conditions, clearing, the ALARM message and the alert wire (R48
to R58). -/

namespace Sys2Proof.Machine

/-- The number of a flag (R48). -/
def Flag.number : Flag → Nat
  | .profile => 0
  | .dupnode => 1
  | .strain => 2
  | .cut => 3
  | .timelost => 4
  | .timestep => 5
  | .sensor => 6
  | .map => 7
  | .audio => 8
  | .overdraw => 9
  | .battery => 10
  | .lane => 11

/-- The mask of one flag (R48, R184). -/
def Flag.mask (f : Flag) : FlagMask := 1#12 <<< f.number

/-- A flag is in a mask. -/
def has (m : FlagMask) (f : Flag) : Bool := m.getLsbD f.number

def State.isLatched (s : State) (f : Flag) : Bool := has s.alarms.latched f

/-- The ALARM body, formed now (R54). -/
def alarmBody (s : State) : List Byte :=
  beBits 2 s.alarms.latched ++ beBits 2 s.alarms.unsent ++ beBytes 1 s.spine.standing.code ++ beBytes 1 s.power.step.val

/-- The ALARM slot is loaded (R54, R55). -/
def loadAlarm (s : State) : State := loadSlot .alarm (ownContent s 0 0 (alarmBody s)) s

/-- An event, or an arising condition, is handed to the alarm set (R49, R50, R55). -/
def latch (f : Flag) (s : State) : State :=
  if s.isLatched f then s
  else
    let s := s.updAlarms fun a => { a with latched := a.latched ||| f.mask }
    if has s.alarms.message f then loadAlarm (s.updAlarms fun a => { a with unsent := a.unsent ||| f.mask }) else s

/-- A condition arises (R50); one that is present already does nothing. -/
def arise (f : Flag) (s : State) : State :=
  if has s.alarms.present f then s
  else latch f (s.updAlarms fun a => { a with present := a.present ||| f.mask })

/-- A condition ends; its flag stays latched (R50). -/
def endCondition (f : Flag) (s : State) : State := s.updAlarms fun a => { a with present := a.present &&& ~~~f.mask }

/-- A condition is handed on as it stands. -/
def setCondition (f : Flag) (present : Bool) (s : State) : State := if present then arise f s else endCondition f s

/-- What CLEAR ALARM unlatches: named flags whose condition is absent, never DUPNODE (R52). -/
def clearable (a : Alarms) (mask : FlagMask) : FlagMask := mask &&& ~~~a.present &&& ~~~Flag.dupnode.mask

/-- The alarm set after CLEAR ALARM (R52). -/
def Alarms.cleared (a : Alarms) (mask : FlagMask) : Alarms :=
  { a with latched := a.latched &&& ~~~clearable a mask, unsent := a.unsent &&& ~~~clearable a mask }

/-- The newly latched field of an ALARM body (R54, R184). -/
def carriedFlags (body : List Byte) : FlagMask := BitVec.ofNat 12 (fieldAt body 2 2)

/-- The ALARM slot handed back SENT for `body`: its carried flags lose their marks, unless the new content carries them
too (R56). -/
def alarmSent (body : List Byte) (s : State) : State :=
  let again : FlagMask := if s.slots.alarm.state = .pending then carriedFlags s.slots.alarm.content.body else 0
  s.updAlarms fun a => { a with unsent := a.unsent &&& ~~~(carriedFlags body &&& ~~~again) }

/-- The station drives the alert wire (R57). -/
def State.alertDriven (s : State) : Bool := s.alarms.latched &&& s.alarms.wire != 0

/-- The level of the alert wire as read (R57, R58). -/
def State.alertLevel (s : State) : Bool := s.alertDriven || s.pins.alertOthers

end Sys2Proof.Machine
end

