-- ==== Sys2Proof/Machine/Intake.lean ====
section
/-! DEFINITION. The intake table's choice and the intake queue's store (R29 to R34). The hand-over to the units stands
in Machine/Routing.lean. -/

namespace Sys2Proof.Machine

/-- The bytes an entry takes (R32). -/
def entrySize (bodyLength : Nat) : Nat := 4 + 4 * ((bodyLength + 3) / 4)

def QueueEntry.size (e : QueueEntry) : Nat := entrySize e.body.length

def queueBytes (q : List QueueEntry) : Nat := (q.map QueueEntry.size).sum

/-- The bytes in use; an entry in transfer still occupies its space (R32, R34). -/
def Intake.used (k : Intake) : Nat := queueBytes k.queue + (match k.inTransfer with | some e => e.size | none => 0)

/-- The time of receipt: units of 16 µs of agreed time, 14 bits (R32). -/
def receiptTime (agreed : Nat) : BitVec 14 := BitVec.ofNat 14 (agreed / 16 / 16)

/-- An entry is stored if it fits; else it overruns (R33). -/
def Intake.store (k : Intake) (e : QueueEntry) : Intake :=
  if k.used + e.size ≤ 1024 then { k with queue := k.queue ++ [e] }
  else { k with overrun := true, overruns := bump k.overruns }

/-- The entry fits in the free space (R33). -/
def Intake.fits (k : Intake) (e : QueueEntry) : Bool := decide (k.used + e.size ≤ 1024)

/-- A rank agrees with an entry (R29). -/
def IntakeEntry.agrees (e : IntakeEntry) (r : Rank) : Bool := r &&& e.care == e.matchValue &&& e.care

/-- The destination of a rank: the first entry that agrees, else DROP (R30). -/
def Intake.destination (k : Intake) (r : Rank) : Destination :=
  match k.table.toList.find? (·.agrees r) with
  | some e => e.dest
  | none => .drop

/-- The first four bytes of an entry as they are sent: rank, length, time of receipt (12_formats.md). -/
def headBytes (e : QueueEntry) : List Byte :=
  beBytes 4 (e.rank.toNat * 2 ^ 20 + e.body.length * 2 ^ 14 + e.time.toNat)

/-- A RESTART command's local reply is done: the command unit becomes FREE and the restart is due (R39, R178). -/
def restartReplyDone (s : State) : State :=
  (s.updCmd fun u => { u with answering := none }).updLoader fun l => { l with restartDue := true }

/-- An entry has been freed; if it was the local reply to a RESTART command, that reply is done (R39, log 25). -/
def entryFreed (e : QueueEntry) (s : State) : State := if e.restartReply then restartReplyDone s else s

end Sys2Proof.Machine
end

