-- ==== Sys2Proof/Machine/Store.lean ====
section
/-! DEFINITION. The slice store: band maps, buffer records, takes, openings and the map fault capture record (R114 to
R125). -/

namespace Sys2Proof.Machine

/-! ### Band maps -/

/-- The band of a slice index: s div M (R115, R116). -/
def bandIndex (g : Geometry) (s : Nat) : Fin 8 := Fin.ofNat 8 (s / g.bandSlices)

def SliceStore.band (k : SliceStore) (e : Eye) (s : Nat) : Band := (k.bands.get e)[bandIndex k.geometry s]

/-- A buffer number, if it is one of the 256. -/
def toBuffer (n : Nat) : Option (Fin 256) := if h : n < 256 then some ⟨n, h⟩ else none

/-- The buffer of offset `o` within a band of `m` slices, if it has one (R116). -/
def Band.bufferAt (b : Band) (m o : Nat) : Option (Fin 256) :=
  match b.access, b.direction with
  | .live, .up => if o < b.count then toBuffer (b.base + o) else none
  | .live, .down => if m ≤ o + b.count then toBuffer (b.base + (m - 1 - o)) else none
  | .fixed, _ => none
  | .absent, _ => none

/-- The band map of an eye: a slice index to its buffer or to none (R116). -/
def SliceStore.bufferOf (k : SliceStore) (e : Eye) (s : Nat) : Option (Fin 256) :=
  (k.band e s).bufferAt k.geometry.bandSlices (s % k.geometry.bandSlices)

def SliceStore.buffer (k : SliceStore) (b : Fin 256) : BufferRecord := k.buffers[b]

def SliceStore.updBuffer (k : SliceStore) (b : Fin 256) (f : BufferRecord → BufferRecord) : SliceStore :=
  { k with buffers := putAt k.buffers b (f k.buffers[b]) }

def SliceStore.updBand (k : SliceStore) (e : Eye) (s : Nat) (f : Band → Band) : SliceStore :=
  { k with bands := k.bands.put e (putAt (k.bands.get e) (bandIndex k.geometry s) (f (k.band e s))) }

/-- A position is open: its slice has no buffer, or an OPEN one (R110). -/
def SliceStore.isOpen (k : SliceStore) (e : Eye) (s : Nat) : Bool :=
  match k.bufferOf e s with
  | none => true
  | some b => !(k.buffer b).full

/-! ### Map faults -/

/-- The record a fault fills (R122). -/
def newFault (s : State) (kind : MapFaultKind) (e : Eye) (index : Byte) (tag : Tag) : MapFault :=
  { kind := kind, eye := e, index := index, tag := tag, time := s.agreedUs, later := 0 }

/-- A map fault is raised: counted, then captured or counted behind the frozen record (R122). -/
def mapFault (kind : MapFaultKind) (e : Eye) (index : Byte) (tag : Tag) (s : State) : State :=
  let s := s.updStore fun k => { k with mapFaults := bump k.mapFaults }
  match s.store.fault with
  | some f => s.updStore fun k => { k with fault := some { f with later := bump f.later } }
  | none =>
    latch .map (s.updStore fun k =>
      { k with fault := some (newFault s kind e index tag), captures := bump k.captures })

/-! ### Takes -/

/-- The buffer record after a void take (R118). -/
def BufferRecord.keep (r : BufferRecord) : BufferRecord :=
  { r with full := true, content := if r.content = .damaged then .damaged else .unchanged }

/-- A void is taken at a slice index (R118). -/
def voidTake (e : Eye) (index : Nat) (s : State) : State :=
  match s.store.bufferOf e index with
  | none => s
  | some b => s.updStore fun k => { k.updBuffer b .keep with voidKeeps := bump k.voidKeeps }

/-- The buffer record at the take of a pixel packet (R119). -/
def BufferRecord.begin (r : BufferRecord) (tag : Tag) : BufferRecord :=
  { r with full := true, content := .damaged, tag := tag, writing := true }

/-- A pixel packet is taken at a slice index that has no buffer (R120). -/
def unbufferedTake (e : Eye) (index : Nat) (tag : Tag) (s : State) : State :=
  match (s.store.band e index).access with
  | .fixed => s.updStore fun k => { k with fixedDiscards := bump k.fixedDiscards }
  | .absent => mapFault .absent e (BitVec.ofNat 8 index) tag s
  | .live => mapFault .length e (BitVec.ofNat 8 index) tag s

/-- A pixel packet is taken at a slice index (R119, R120, R125). -/
def pixelTake (e : Eye) (index : Nat) (tag : Tag) (s : State) : State :=
  match s.store.bufferOf e index with
  | none => unbufferedTake e index tag s
  | some b =>
    s.updStore fun k =>
      { (k.updBuffer b (·.begin tag)).updBand e index (fun d => { d with written := true }) with
        pixelWrites := bump k.pixelWrites }

/-- A pixel packet's write into a buffer ends, its check agreeing or not (R119); a write that is not in progress is
left alone (R121). -/
def SliceStore.endWrite (k : SliceStore) (b : Fin 256) (agrees : Bool) : SliceStore :=
  if (k.buffer b).writing then
    if agrees then k.updBuffer b (fun r => { r with content := .pixels, writing := false })
    else { k.updBuffer b (fun r => { r with writing := false }) with checkFailures := bump k.checkFailures }
  else k

/-! ### Openings -/

/-- The buffer of a slice is FULL. -/
def SliceStore.isFull (k : SliceStore) (e : Eye) (index : Nat) : Bool :=
  match k.bufferOf e index with
  | none => false
  | some b => (k.buffer b).full

/-- A buffer is opened; a write in progress is cut (R121). -/
def SliceStore.openBuffer (k : SliceStore) (b : Fin 256) : SliceStore :=
  if (k.buffer b).full then
    if (k.buffer b).writing then
      { k.updBuffer b (fun r => { r with full := false, writing := false }) with writesCut := bump k.writesCut }
    else k.updBuffer b (fun r => { r with full := false })
  else k

/-! ### Flags of READ BANDS -/

def bandBits (f : Band → Bool) (bands : Vector Band 8) : Byte := flagByte (bands.toList.map f)

/-- The access of each band, band b in bits 2b and 2b + 1 (12_formats.md). -/
def accessBits (bands : Vector Band 8) : Nat := bands.toList.foldr (fun b acc => acc * 4 + b.access.code) 0

end Sys2Proof.Machine
end

