-- ==== Sys2Proof/Machine/Receiver.lean ====
section
/-! DEFINITION. The lane receiver of a HEADSET: positions, gaps, the horizon and CREDIT (R106 to R111), and the meanings
of PACKET_HEADER and PACKET_END. -/

namespace Sys2Proof.Machine

/-! ### The horizon -/

/-- The slice index that position p stands for: p mod N, positions counted mod 65536 (06, introduction; log 30). -/
def indexOf (g : Geometry) (p : Nat) : Nat := p % 65536 % g.slices

/-- The length of the run of open positions from p on, at most `fuel` (R110). -/
def openRun (k : SliceStore) (e : Eye) : Nat → Nat → Nat
  | 0, _ => 0
  | fuel + 1, p => if k.isOpen e (indexOf k.geometry p) then openRun k e fuel (p + 1) + 1 else 0

/-- The horizon of an eye (R110): accepted plus the run, capped at N. -/
def horizonOf (s : State) (e : Eye) : BitVec 16 :=
  let a := (s.laneRx.eyes.get e).accepted
  a + BitVec.ofNat 16 (openRun s.store e s.store.geometry.slices a.toNat)

def State.updReceiver (s : State) (e : Eye) (f : ReceiverEye → ReceiverEye) : State :=
  s.updLaneRx fun r => { r with eyes := r.eyes.put e (f (r.eyes.get e)) }

/-- The CREDIT body, formed now (R111, R184). -/
def creditBody (s : State) : List Byte :=
  let r := s.laneRx
  beBits 1 r.epoch ++ beBits 2 r.eyes.left.horizon ++ beBits 2 r.eyes.left.accepted ++
    beBits 2 r.eyes.right.horizon ++ beBits 2 r.eyes.right.accepted

def ReceiverEye.loaded (r : ReceiverEye) : ReceiverEye := { r with lastLoaded := some r.horizon }

/-- The CREDIT slot is loaded; a refused load leaves the horizons last loaded as they were (R111). -/
def loadCredit (s : State) : State :=
  if s.loadRefused then countRefused .credit s
  else
    (loadSlot .credit (ownContent s 2 0 (creditBody s)) s).updLaneRx fun r =>
      { r with eyes := r.eyes.map .loaded, creditLoads := bump r.creditLoads }

/-- An eye's horizon differs from the horizon last loaded, or none has been loaded (R111). -/
def ReceiverEye.stale (r : ReceiverEye) : Bool := r.lastLoaded != some r.horizon

/-- The horizon of an eye is recomputed, and CREDIT loaded where it calls for it (R110, R111). -/
def recomputeHorizon (e : Eye) (s : State) : State :=
  let s := s.updReceiver e fun r => { r with horizon := horizonOf s e }
  if s.laneRx.eyes.left.stale || s.laneRx.eyes.right.stale then loadCredit s else s

/-- The slice at an index is opened, and the horizon recomputed where a FULL buffer was opened (R121). -/
def openSlice (e : Eye) (index : Nat) (s : State) : State :=
  match s.store.bufferOf e index with
  | none => s
  | some b =>
    if (s.store.buffer b).full then recomputeHorizon e (s.updStore (·.openBuffer b)) else s

/-! ### Positions -/

/-- The position accepted of an eye is filled (R108, R109). -/
def advance (e : Eye) (s : State) : State := s.updReceiver e fun r => { r with accepted := r.accepted + 1 }

/-- The expected index of an eye: accepted mod N (R106). -/
def expectedIndex (s : State) (e : Eye) : Nat := (s.laneRx.eyes.get e).accepted.toNat % s.store.geometry.slices

/-- `g` positions from accepted onward are voided one by one (R108). -/
def voidPositions (e : Eye) : Nat → State → State
  | 0, s => s
  | g + 1, s =>
    let s := advance e (voidTake e (expectedIndex s e) s)
    voidPositions e g (s.updLaneRx fun r => { r with voided := bump r.voided })

/-- A packet is taken at position accepted (R109). The pixels of a pixel packet follow. -/
def takePacket (e : Eye) (index : Nat) (void : Bool) (tag : Tag) (s : State) : State :=
  let buffer := s.store.bufferOf e index
  let s := if void then voidTake e index s else pixelTake e index tag s
  let s := (advance e s).updLaneRx fun r =>
    { r with packetsTaken := bump r.packetsTaken
             voidsTaken := if void then bump r.voidsTaken else r.voidsTaken
             packet := if void then r.packet else some { eye := e, index := index, buffer := buffer } }
  recomputeHorizon e s

/-! ### Headers -/

/-- The header bytes before the header check (12_formats.md, Slice packet header). -/
def headerBytes (h : PacketHeader) : List Byte :=
  [h.eye, h.index, h.flags] ++ beBits 4 h.target ++ beBits 2 h.pose ++ [h.lines] ++ beBits 2 h.width

def headerTag (h : PacketHeader) : Tag := { target := h.target, pose := h.pose, present := h.flags.getLsbD 1 }

def headerVoid (h : PacketHeader) : Bool := h.flags.getLsbD 0

def headerEye (h : PacketHeader) : Eye := if h.eye = 0 then .left else .right

/-- The lane receiver discards the packet (R107). -/
def headerBad (h : PacketHeader) (g : Geometry) : Bool :=
  h.check != bytesCheck (headerBytes h) || decide (1 < h.eye.toNat) || decide (g.slices ≤ h.index.toNat) ||
    h.lines.toNat != g.S || h.width.toNat != g.W

/-- The gap of a slice index against a count of positions: (s′ − count) mod N (R101, R108). -/
def gapOf (n index count : Nat) : Nat := (((index : Int) - (count : Int)) % (n : Int)).toNat

/-- (horizon − accepted) mod 65536 (R108). -/
def ReceiverEye.window (r : ReceiverEye) : Nat := (r.horizon - r.accepted).toNat

/-- A header that passes the checks is placed against the expected index (R108). -/
def placePacket (h : PacketHeader) (s : State) : State :=
  let e := headerEye h
  let g := gapOf s.store.geometry.slices h.index.toNat (expectedIndex s e)
  if g < (s.laneRx.eyes.get e).window then
    let s := if g = 0 then s else recomputeHorizon e (voidPositions e g s)
    takePacket e h.index.toNat (headerVoid h) (headerTag h) s
  else
    mapFault .overrun e h.index (headerTag h) (s.updLaneRx fun r => { r with overruns := bump r.overruns })

/-- The pixel bytes of a run that are written into a buffer: all of them, or those that came before an opening cut the
write (R119, R121; log 11). -/
def writtenBytes (r : PixelRun) (writing : Bool) : List Byte := if writing then r.bytes else r.bytes.take r.beforeCut

/-- The pixels of the packet that was arriving stand in its buffer's area, and its write ends, its check agreeing or not
(R119; log 11). A packet with no buffer writes nothing (R120); one whose write an opening has cut has no write to end
(R121). -/
def SliceStore.endPacket (k : SliceStore) (p : Arriving) (run : PixelRun) (agrees : Bool) : SliceStore :=
  match p.buffer with
  | none => k
  | some b =>
    { k with
      mem := k.mem.write (areaBase b)
        ((writtenBytes run (k.buffer b).writing).take (min k.geometry.sliceBytes areaBytes)) }.endWrite b agrees

/-- The packet that was arriving ends (R109, R119). -/
def endArriving (p : Arriving) (run : PixelRun) (agrees : Bool) (s : State) : State :=
  (s.updLaneRx fun r => { r with packet := none }).updStore (·.endPacket p run agrees)

/-- The pixel packet that is arriving, if any, ends with its check failed: it was cut short after `run` (R109, R119;
log 23). -/
def cutArriving (run : PixelRun) (s : State) : State :=
  match s.laneRx.packet with
  | none => s
  | some p => endArriving p run false s

/-- The effect of PACKET_HEADER on a HEADSET out of LOADING with a signal on the lane. -/
def packetHeader (cut : PixelRun) (h : PacketHeader) (s : State) : State :=
  let s := cutArriving cut s
  if headerBad h s.store.geometry then s.updLaneRx fun r => { r with headerDiscards := bump r.headerDiscards }
  else placePacket h s

/-- PACKET_HEADER: a slice packet header arrives, after the pixels `cut` of a packet that was cut short, if one was (R107
to R109; log 23). In LOADING nothing is taken (R106). -/
def execPacketHeader (h : PacketHeader) (s : State) (cut : PixelRun := noPixels) : Host.Outcome State Fault Refusal :=
  .next (if s.headsetActive && s.pins.laneSignal then packetHeader cut h s else s)

/-! ### The end of a pixel packet -/

/-- The pixel packet ends whole and its check agrees (R109, R119; log 24 for the number of bytes). -/
def pixelsAgree (g : Geometry) (pixels : List Byte) (check : BitVec 32) : Bool :=
  pixels.length == g.sliceBytes && check == pixelCheck pixels

/-- The arriving packet ends with its pixels and its check (R119). -/
def packetEnd (p : Arriving) (run : PixelRun) (check : BitVec 32) (s : State) : State :=
  endArriving p run (pixelsAgree s.store.geometry run.bytes check) s

/-- PACKET_END: a pixel packet ends (R119). -/
def execPacketEnd (run : PixelRun) (check : BitVec 32) (s : State) : Host.Outcome State Fault Refusal :=
  match s.laneRx.packet with
  | none => .next s
  | some p => if s.store.geometry.fits then .next (packetEnd p run check s) else .fault .sliceOverArea

end Sys2Proof.Machine
end

