-- ==== Sys2Proof/Machine/LaneLevel.lean ====
section
/-! DEFINITION. The level of the picture lane at either end, what going DOWN does, the LANE condition (R103, R106, R109),
and the meanings of LANE_DOWN and LANE_UP. -/

namespace Sys2Proof.Machine

/-- The lane is UP at this station (R103, R106; log 10). -/
def State.laneUp (s : State) : Bool :=
  match s.straps.role with
  | .console => s.power.step != 0 && s.pins.laneSignal
  | .headset => s.pins.laneSignal
  | .supply => false

/-- The lane of this station has gone from UP to DOWN: the console's packet is cut short (R103); the packet arriving at
the headset ends after `run` with its check failed (R109); the change is counted. -/
def laneGoesDown (run : PixelRun) (s : State) : State :=
  match s.straps.role with
  | .console => s.updLaneTx fun t => { t with packet := none, laneDowns := bump t.laneDowns }
  | .headset => (cutArriving run s).updLaneRx fun r => { r with laneDowns := bump r.laneDowns }
  | .supply => s

/-- The LANE condition is present: the lane is DOWN while the station is RUNNING (R103, R106). -/
def State.laneCondition (s : State) : Bool :=
  s.straps.role != .supply && !s.laneUp && s.loader.life == .running

/-- The LANE condition is handed to the alarm set as it stands (R50). -/
def refreshLane (s : State) : State := setCondition .lane s.laneCondition s

/-- The lane's level is settled after something that can move it; `wasUp` is the level before, `run` what has come of a
packet that is arriving. -/
def settleLane (wasUp : Bool) (run : PixelRun) (s : State) : State :=
  refreshLane (if wasUp && !s.laneUp then laneGoesDown run s else s)

/-- The lane's signal, or its partner, comes or goes. -/
def setLaneSignal (v : Bool) (run : PixelRun) (s : State) : State :=
  if s.straps.role = .supply then s else settleLane s.laneUp run (s.updPins fun p => { p with laneSignal := v })

/-- LANE_DOWN: the lane loses its signal at the headset, after the pixels `run` of a packet that is arriving, or its
partner at the console (R103, R106, R109). -/
def execLaneDown (s : State) (run : PixelRun := noPixels) : Host.Outcome State Fault Refusal :=
  .next (setLaneSignal false run s)

/-- LANE_UP: the lane's signal, or its partner, is back (R103, R106). -/
def execLaneUp (s : State) : Host.Outcome State Fault Refusal := .next (setLaneSignal true noPixels s)

end Sys2Proof.Machine
end

