-- ==== Sys2Proof/Machine/LaneSender.lean ====
section
/-! DEFINITION. The lane sender of a CONSOLE: the slicer, the eyes' input frame states, the lane queues, the arbiter, the
slice packet and CREDIT (R96 to R105), with the meanings of INPUT_FRAME_START, INPUT_LINE_START, INPUT_PIXEL,
LANE_PACKET_START and LANE_PACKET_END. -/

namespace Sys2Proof.Machine

def State.updSender (s : State) (e : Eye) (f : SenderEye → SenderEye) : State :=
  s.updLaneTx fun t => { t with eyes := t.eyes.put e (f (t.eyes.get e)) }

def State.sender (s : State) (e : Eye) : SenderEye := s.laneTx.eyes.get e

/-- Input that does not fit the shape is counted (R96). -/
def countShape (s : State) : State := s.updLaneTx fun t => { t with inputShape := bump t.inputShape }

/-! ### Slices handed to their eyes -/

/-- A slice that meets a full queue in SENDING: its position and all after it are owed as voids (R99). -/
def SenderEye.startVoiding (v : SenderEye) (n : Nat) (sl : Slice) : SenderEye :=
  { v with input := .voiding, voidsOwed := n - sl.index, voidTag := some sl.tag }

/-- A slice is handed to its eye (R99). -/
def handSlice (e : Eye) (sl : Slice) (s : State) : State :=
  let v := s.sender e
  match v.input with
  | .sending =>
    if v.queue.length < 8 then
      (s.updSender e fun v => { v with queue := v.queue ++ [sl] }).updLaneTx fun t =>
        { t with slicesQueued := bump t.slicesQueued }
    else
      (s.updSender e (·.startVoiding s.store.geometry.slices sl)).updLaneTx fun t =>
        { t with slicesDropped := bump t.slicesDropped }
  | .voiding => s.updLaneTx fun t => { t with slicesDropped := bump t.slicesDropped }
  | .dropping => s

/-- The half of each line that belongs to an eye, line by line (R98). -/
def sliceHalf (w : Nat) (e : Eye) (lines : List (List Pixel)) : List Pixel :=
  match e with
  | .left => lines.flatMap (·.take w)
  | .right => lines.flatMap (·.drop w)

/-- The two slices of index k are formed from their lines and handed on (R98). -/
def formSlices (k : Nat) (tag : Option FrameTag) (lines : List (List Pixel)) (s : State) : State :=
  let w := s.store.geometry.W
  let s := s.updLaneTx fun t => { t with slicesFormed := bumpBy t.slicesFormed 2 }
  let s := handSlice .left { index := k, tag := tag, pixels := sliceHalf w .left lines } s
  handSlice .right { index := k, tag := tag, pixels := sliceHalf w .right lines } s

/-! ### Lines -/

def State.updFrame (s : State) (f : InputFrame → InputFrame) : State :=
  s.updLaneTx fun t => { t with frame := t.frame.map f }

/-- A line of 2W pixels is complete (R96); with the last line of a slice the slices are formed (R98). -/
def completeLine (f : InputFrame) (pixels : List Pixel) (s : State) : State :=
  let done := f.linesDone + 1
  let lines := f.slice ++ [pixels]
  let size := s.store.geometry.S
  if done % size = 0 then
    formSlices (done / size - 1) f.tag lines
      (s.updLaneTx fun t =>
        { t with frame := some { f with linesDone := done, line := .full false, slice := [] } })
  else s.updLaneTx fun t => { t with frame := some { f with linesDone := done, line := .full false, slice := lines } }

/-- The missing pixels of a short line: the edge colour of the eye each belongs to (R96). -/
def fillLine (g : Geometry) (pixels : List Pixel) : List Pixel :=
  pixels ++ (List.range' pixels.length (2 * g.W - pixels.length)).map fun c =>
    if c < g.W then g.edge.left else g.edge.right

/-- A line begins: a line of the frame, or an extra line after the last one, counted once a frame (R96). -/
def beginLine (s : State) : State :=
  match s.laneTx.frame with
  | none => s
  | some f =>
    if f.linesDone < s.store.geometry.H then s.updFrame fun f => { f with line := .filling [] }
    else if f.extraCounted then s.updFrame fun f => { f with line := .extra }
    else countShape (s.updFrame fun f => { f with line := .extra, extraCounted := true })

/-- A line start on the picture input (R96). -/
def inputLineStart (s : State) : State :=
  match s.laneTx.frame with
  | none => s
  | some f =>
    match f.line with
    | .none => beginLine s
    | .full _ => beginLine s
    | .extra => s
    | .filling pixels => beginLine (completeLine f (fillLine s.store.geometry pixels) (countShape s))

/-- INPUT_LINE_START: a line start on the picture input (R96). -/
def execInputLineStart (s : State) : Host.Outcome State Fault Refusal :=
  .next (if s.consoleActive then inputLineStart s else s)

/-- A pixel on the picture input (R96). One between a frame start and its first line start is ignored uncounted (log 47).
-/
def inputPixel (p : Pixel) (s : State) : State :=
  match s.laneTx.frame with
  | none => s
  | some f =>
    match f.line with
    | .none => s
    | .extra => s
    | .full true => s
    | .full false => countShape (s.updFrame fun f => { f with line := .full true })
    | .filling pixels =>
      let pixels := pixels ++ [p]
      if pixels.length < 2 * s.store.geometry.W then s.updFrame fun f => { f with line := .filling pixels }
      else completeLine f pixels s

/-- INPUT_PIXEL: a pixel arrives on the picture input (R96). -/
def execInputPixel (p : Pixel) (s : State) : Host.Outcome State Fault Refusal :=
  .next (if s.consoleActive then inputPixel p s else s)

/-! ### Frames -/

/-- An eye in SENDING whose frame had missing lines owes voids for them (R99, step 1). -/
def SenderEye.oweMissing (v : SenderEye) (n formed : Nat) (tag : Option FrameTag) : SenderEye :=
  if v.input = .sending then { v with voidsOwed := n - formed, voidTag := some tag } else v

/-- A line of the frame is unfinished. -/
def InputFrame.partial (f : InputFrame) : Bool :=
  match f.line with
  | .filling _ => true
  | .none => false
  | .full _ => false
  | .extra => false

/-- The frame before is ended by a frame start (R96, R99 step 1; log 22). -/
def endInputFrame (s : State) : State :=
  match s.laneTx.frame with
  | none => s
  | some f =>
    let g := s.store.geometry
    let s := if f.partial then countShape s else s
    if f.linesDone < g.H then
      let owe := fun v : SenderEye => v.oweMissing g.slices (f.linesDone / g.S) f.tag
      ((countShape s).updSender .left owe).updSender .right owe
    else s

/-- The slicer takes the oldest tag, or the frame is untagged (R97); the new frame begins. -/
def takeTag (s : State) : State :=
  let fresh := fun tag : Option FrameTag =>
    ({ tag := tag, linesDone := 0, line := .none, slice := [], extraCounted := false } : InputFrame)
  match s.laneTx.tags with
  | t :: rest => s.updLaneTx fun x => { x with tags := rest, frame := some (fresh (some t)) }
  | [] => s.updLaneTx fun x => { x with untagged := bump x.untagged, frame := some (fresh none) }

/-- An eye takes up the new frame (R99, step 3). -/
def takeUpFrame (e : Eye) (s : State) : State :=
  if 0 < (s.sender e).voidsOwed then
    (s.updSender e fun v => { v with input := .dropping }).updLaneTx fun t =>
      { t with framesDropped := bump t.framesDropped }
  else s.updSender e fun v => { v with input := .sending }

/-- A frame start on the picture input (R96, R97, R99). -/
def inputFrameStart (s : State) : State :=
  let s := s.updLaneTx fun t => { t with inputFrames := bump t.inputFrames }
  takeUpFrame .right (takeUpFrame .left (takeTag (endInputFrame s)))

/-- INPUT_FRAME_START: a frame start on the picture input (R96). -/
def execInputFrameStart (s : State) : Host.Outcome State Fault Refusal :=
  .next (if s.consoleActive then inputFrameStart s else s)

/-! ### The next packet of an eye -/

/-- The window (R101). -/
def SenderEye.window (v : SenderEye) : Nat := (v.horizon - v.sent).toNat

/-- What an eye sends next (R101). -/
structure NextPacket where
  index : Nat
  tag : Option FrameTag
  /-- `none` for a void -/
  pixels : Option (List Pixel)
  deriving DecidableEq, Repr

/-- The next packet of an eye (R101): the head of its queue, else the next void owed. -/
def SenderEye.next (v : SenderEye) (n : Nat) : Option NextPacket :=
  match v.queue with
  | sl :: _ => some { index := sl.index, tag := sl.tag, pixels := some sl.pixels }
  | [] =>
    if 0 < v.voidsOwed then some { index := n - v.voidsOwed, tag := v.voidTag.getD none, pixels := none } else none

/-- The gap of a packet (R101). -/
def SenderEye.gap (v : SenderEye) (n : Nat) (p : NextPacket) : Nat := gapOf n p.index v.sent.toNat

/-- The packet of an eye that is ready (R101). -/
def State.readyPacket (s : State) (e : Eye) : Option NextPacket :=
  let n := s.store.geometry.slices
  match (s.sender e).next n with
  | none => none
  | some p => if (s.sender e).gap n p < (s.sender e).window then some p else none

/-- The eye whose packet is started, and whether both were ready (R102). -/
def State.laneChoice (s : State) : Option (Eye × NextPacket × Bool) :=
  match s.readyPacket .left, s.readyPacket .right with
  | none, none => none
  | some l, none => some (.left, l, false)
  | none, some r => some (.right, r, false)
  | some l, some r =>
    if s.laneTx.leftNext || s.laneTx.lastEye == .right then some (.left, l, true) else some (.right, r, true)

/-! ### The packet -/

/-- The tag fields of a packet: for an untagged frame the spec gives none, and they are free (R97, log 12). -/
def tagBytes (tag : Option FrameTag) (free : BitVec 48) : List Byte :=
  match tag with
  | some t => beBits 4 t.target ++ beBits 2 t.pose
  | none => beBits 6 free

/-- The slice packet (R105, 12_formats.md). -/
def packetBytes (g : Geometry) (e : Eye) (p : NextPacket) (free : BitVec 48) : List Byte :=
  let head := beBytes 1 (Eye.code e) ++ beBytes 1 p.index ++ [flagByte [p.pixels.isNone, p.tag.isSome]] ++
    tagBytes p.tag free ++ beBytes 1 g.S ++ beBytes 2 g.W
  let tail := match p.pixels with
    | none => []
    | some px => px.flatMap Pixel.bytes ++ beBits 4 (pixelCheck (px.flatMap Pixel.bytes))
  head ++ beBits 2 (bytesCheck head) ++ tail

/-- The eye after its packet is started (R101). -/
def SenderEye.started (v : SenderEye) (n : Nat) (p : NextPacket) : SenderEye :=
  { v with
    sent := v.sent + BitVec.ofNat 16 (v.gap n p + 1)
    queue := if p.pixels.isSome then v.queue.tail else v.queue
    voidsOwed := if p.pixels.isSome then v.voidsOwed else v.voidsOwed - 1 }

/-- The packet of an eye is started on the lane (R101, R102). -/
def startPacket (e : Eye) (p : NextPacket) (both : Bool) (s : State) : State :=
  let g := s.store.geometry
  let bytes := packetBytes g e p (Config.freeValue s.free)
  let s := if p.tag.isNone then s.useFree else s
  (s.updSender e (·.started g.slices p)).updLaneTx fun t =>
    { t with
      packet := some { eye := e, bytes := bytes }
      lastEye := e
      leftNext := if both then false else t.leftNext
      slicesSent := if p.pixels.isSome then bump t.slicesSent else t.slicesSent
      voidsSent := if p.pixels.isSome then t.voidsSent else bump t.voidsSent }

/-- The lane is free for a choice (R102, R103). -/
def State.laneFree (s : State) : Bool := s.consoleActive && s.laneUp && s.laneTx.packet.isNone

/-- LANE_PACKET_START: the lane sender starts the packet that its arbiter chooses (R101, R102). -/
def execLanePacketStart (s : State) : Host.Outcome State Fault Refusal :=
  if s.laneFree then
    match s.laneChoice with
    | none => .next s
    | some (e, p, both) => .next (startPacket e p both s)
  else .next s

/-- LANE_PACKET_END: the last byte of the packet has gone out (R102). -/
def execLanePacketEnd (s : State) : Host.Outcome State Fault Refusal :=
  .next (s.updLaneTx fun t => { t with packet := none })

/-! ### CREDIT at the console -/

/-- An eye is resynchronised (R104, steps 1 to 3). The two positions are held as they are carried, be they more than N
apart (log 51). -/
def SenderEye.resync (v : SenderEye) (horizon accepted : BitVec 16) : SenderEye :=
  { v with
    input := .dropping
    voidsOwed := 0
    voidTag := none
    queue := []
    sent := accepted
    horizon := horizon }

/-- An eye is resynchronised and the events are counted (R100, R104). -/
def resyncEye (e : Eye) (horizon accepted : BitVec 16) (s : State) : State :=
  let v := s.sender e
  (s.updSender e (·.resync horizon accepted)).updLaneTx fun t =>
    { t with
      flushed := bumpBy t.flushed v.queue.length
      framesDropped := if v.input = .dropping then t.framesDropped else bump t.framesDropped
      resyncs := bump t.resyncs }

/-- An eye takes its part of a CREDIT (R104). -/
def creditEye (e : Eye) (newEpoch : Bool) (horizon accepted : BitVec 16) (s : State) : State :=
  if newEpoch || decide (s.store.geometry.slices < (horizon - (s.sender e).sent).toNat) then
    resyncEye e horizon accepted s
  else s.updSender e fun v => { v with horizon := horizon }

/-- A CREDIT is malformed (R17). -/
def creditMalformed (rank : Rank) (body : List Byte) : Bool := body.length != 9 || rankTopic rank != 0

/-- A CREDIT message is handed to the lane sender (R104). -/
def takeCredit (rank : Rank) (body : List Byte) (s : State) : State :=
  if creditMalformed rank body then s.updLaneTx fun t => { t with malformed := bump t.malformed }
  else
    let epoch := byteAt body 0
    let newEpoch := s.laneTx.epochHeld != some epoch
    let word := fun off => BitVec.ofNat 16 (fieldAt body off 2)
    let s := s.updLaneTx fun t => { t with creditsTaken := bump t.creditsTaken }
    let s := creditEye .left newEpoch (word 1) (word 3) s
    let s := creditEye .right newEpoch (word 5) (word 7) s
    s.updLaneTx fun t => { t with epochHeld := some epoch }

end Sys2Proof.Machine
end

