-- ==== Sys2Proof/Machine/Periods.lean ====
section
/-! DEFINITION. The periods of the schedule's actions and what they measure: freshness of time records and of power
entries (R65, R73, R163). -/

namespace Sys2Proof.Machine

/-- The period, or effective period, of an entry in sixteenths of a µs (R73). -/
def entryPeriod (entries : Vector SchedEntry 8) (e : SchedEntry) : Nat :=
  match e.mode with
  | .repeating p _ _ => p
  | .counted source n _ =>
    match entries[source].mode with
    | .repeating p _ _ => p * n
    | .counted _ _ _ => 0

/-- The period of an action, if an entry holds it (R73). -/
def Schedule.periodOf (k : Schedule) (a : Action) : Option Nat :=
  (k.entries.toList.find? (·.action == a)).map (entryPeriod k.entries)

/-- 100 ms in sixteenths of a µs (R65, R163). -/
def defaultPeriod : Nat := 1600000

/-- The beacon period (R65). -/
def State.beaconPeriod (s : State) : Nat := (s.sched.periodOf .beacon).getD defaultPeriod

/-- The power period (R163). -/
def State.powerPeriod (s : State) : Nat := (s.sched.periodOf .powerReport).getD defaultPeriod

/-- A time record is fresh (R65). -/
def State.recordFresh (s : State) (r : TimeRecord) : Bool :=
  decide ((s.agreed : Int) < r.lastHeard + 4 * s.beaconPeriod)

/-- The record of an origin, if it is present and fresh (R65). -/
def State.freshRecord (s : State) (o : Node) : Option TimeRecord :=
  match s.time.table[o] with
  | none => none
  | some r => if s.recordFresh r then some r else none

/-- A power entry of another node is fresh (R163). -/
def State.powerAge (s : State) (e : PowerEntry) : Bool :=
  decide (16 * s.time.localCount < 16 * e.lastHeard + 3 * s.powerPeriod)

/-- The entry of a node, if it is present and fresh; the own entry never expires (R163). -/
def State.freshEntry (s : State) (n : Node) : Option PowerEntry :=
  match s.power.view[n] with
  | none => none
  | some e => if n = s.straps.node then some e else if s.powerAge e then some e else none

end Sys2Proof.Machine
end

