-- ==== Sys2Proof/Machine/Power.lean ====
section
/-! DEFINITION. The power unit: the view, the grant, holdover, the step, the overdraw tests and the reading (R161 to
R175), with the meanings of METER_READING_COMPLETE, METER_READING_TIMEOUT and POWER_ENTRY_EXPIRY. -/

namespace Sys2Proof.Machine

/-! ### Own figures -/

/-- The station's desire, draw[3] (R161). -/
def PowerSettings.desire (ps : PowerSettings) : Nat := ps.draw[3]

/-- The station's floor, draw[1] (R161). -/
def PowerSettings.floor (ps : PowerSettings) : Nat := ps.draw[1]

/-- The own entry is set from the own figures (R163). -/
def setOwnEntry (s : State) : State :=
  s.updPower fun p =>
    let own := ownEntryOf s.straps p.settings p.ownAvailable p.grant s.time.localCount
    { p with view := putAt p.view s.straps.node (some own) }

/-! ### Announcing -/

def batteryByte (s : State) : Nat := if s.straps.role = .supply then s.power.battery.getD 255 else 255

/-- The POWER body, formed now (R173, R184). -/
def powerBody (s : State) : List Byte :=
  let p := s.power
  let supplier := s.straps.supplyPresent
  [flagByte [supplier, decide (0 < p.settings.desire), p.holdover.isSome]] ++
    beBytes 2 (if supplier then p.ownAvailable else 0) ++ beBytes 2 p.settings.floor ++
    beBytes 2 p.settings.desire ++ beBytes 2 p.grant ++ beBytes 1 p.step.val ++ beBytes 2 p.load ++
    beBytes 1 (batteryByte s)

/-- The POWER slot is loaded; outside RUNNING nothing is loaded (R173, R76). -/
def loadPower (s : State) : State :=
  if s.loader.life = .running then loadSlot .power (ownContent s 5 0 (powerBody s)) s else s

/-! ### The step -/

/-- The step becomes `v`; a change acts at once on the console's lane (R103, R174). -/
def setStep (v : Fin 4) (s : State) : State :=
  if s.power.step = v then s else settleLane s.laneUp noPixels (s.updPower fun p => { p with step := v })

/-- The step target (R170). -/
def stepTarget (ps : PowerSettings) (grant : Nat) : Fin 4 :=
  if ps.draw[3] ≤ grant then 3 else if ps.draw[2] ≤ grant then 2 else if ps.draw[1] ≤ grant then 1 else 0

def State.target (s : State) : Fin 4 := stepTarget s.power.settings s.power.grant

/-- A target below the step lowers the step at once (R170, Falls). -/
def fallToTarget (s : State) : State :=
  if s.target < s.power.step then
    setStep s.target (s.updPower fun p => { p with rise := 0, stepFalls := bump p.stepFalls })
  else s

/-! ### The grant -/

def sumOver (es : List PowerEntry) (f : PowerEntry → Nat) : Nat := (es.map f).sum

/-- The fresh entries, the own entry included (R168). -/
def State.freshEntries (s : State) : List PowerEntry := allNodes.filterMap s.freshEntry

def ifFlag (b : Bool) (v : Nat) : Nat := if b then v else 0

/-- A of R168. -/
def offered (es : List PowerEntry) : Nat := sumOver es fun e => ifFlag e.supplier e.available

/-- F of R168. -/
def floors (es : List PowerEntry) : Nat := sumOver es fun e => ifFlag e.consumer e.floor

/-- D of R168. -/
def desires (es : List PowerEntry) : Nat := sumOver es fun e => ifFlag e.consumer e.desire

/-- The grant of a station whose own entry is `own`, from the pool and the sums (R168). Where the pool covers every
desire but not every floor the first row is taken (log 49), and whether the station is a consumer is read from its own
entry (log 50). -/
def grantOf (own : PowerEntry) (pool f d : Nat) : Nat :=
  if !own.consumer then 0
  else if d ≤ pool then own.desire
  else if f ≤ pool then
    ((own.floor : Int) + Int.tdiv (((own.desire : Int) - own.floor) * ((pool : Int) - f)) ((d : Int) - f)).toNat
  else own.floor * pool / f

/-- The power unit after a recomputation that finds a fresh supplier (R168). -/
def Power.supply (p : Power) (pool grant : Nat) : Power :=
  { p with holdover := none, supplied := true, pool := pool, grant := grant }

/-- The power unit after a recomputation that finds none (R169). -/
def Power.holdOver (p : Power) : Power :=
  if p.supplied then
    match p.holdover with
    | some _ => { p with pool := 0 }
    | none => { p with pool := 0, holdover := some 0, holdoversBegun := bump p.holdoversBegun }
  else { p with pool := 0, grant := p.settings.draw[0] }

/-- The grant is computed from the fresh entries, or settled by holdover (R168, R169). -/
def regrant (s : State) : State :=
  let es := s.freshEntries
  let pool := offered es - s.power.settings.reserve
  if es.any (·.supplier) then
    match s.power.view[s.straps.node] with
    | none => s
    | some own => s.updPower (·.supply pool (grantOf own pool (floors es) (desires es)))
  else s.updPower (·.holdOver)

/-- The grant is recomputed and the step checked against it (R168, R170). -/
def recompute (s : State) : State := fallToTarget (regrant s)

/-- A recomputation outside a reading; a change of the step is announced (R168, R173). -/
def recomputeAndAnnounce (s : State) : State :=
  let after := recompute s
  if after.power.step = s.power.step then after else loadPower after

/-! ### POWER messages -/

/-- A POWER body is malformed (R17). -/
def powerMalformed (rank : Rank) (body : List Byte) : Bool :=
  body.length != 13 || rankTopic rank != 0 || decide (3 < (byteAt body 9).toNat) ||
    (decide (100 < (byteAt body 12).toNat) && byteAt body 12 != 255)

/-- The entry a POWER message gives its origin (R164). -/
def carriedEntry (body : List Byte) (localCount : Nat) : PowerEntry where
  supplier := (byteAt body 0).getLsbD 0
  consumer := (byteAt body 0).getLsbD 1
  available := fieldAt body 1 2
  floor := fieldAt body 3 2
  desire := fieldAt body 5 2
  grant := fieldAt body 7 2
  lastHeard := localCount
  expired := false

/-- A POWER message is handed to the power unit (R164). -/
def takePower (rank : Rank) (body : List Byte) (s : State) : State :=
  if powerMalformed rank body then s.updPower fun p => { p with malformed := bump p.malformed }
  else
    recomputeAndAnnounce (s.updPower fun p =>
      { p with
        view := putAt p.view (rankOrigin rank) (some (carriedEntry body s.time.localCount))
        taken := bump p.taken })

/-! ### Expiry -/

/-- An entry has an expiry to hand on: present, of another node, out of time and not yet counted (R163). -/
def State.entryDue (s : State) (n : Node) : Bool :=
  match s.power.view[n] with
  | none => false
  | some e => n != s.straps.node && !s.powerAge e && !e.expired

/-- The entry of a node expires (R163). -/
def expireEntry (n : Node) (s : State) : State :=
  recomputeAndAnnounce (s.updPower fun p =>
    { p with
      view := putAt p.view n (p.view[n].map fun e => { e with expired := true })
      expired := bump p.expired })

/-- POWER_ENTRY_EXPIRY: an entry reaches last heard plus 3 power periods (R163). -/
def execPowerEntryExpiry (n : Node) (s : State) : Host.Outcome State Fault Refusal :=
  .next (if s.entryDue n then expireEntry n s else s)

/-! ### The reading -/

/-- The value of an answer, if it is one; another is failed (R165). -/
def meterValue {α : Type} : MeterAnswer α → Option α
  | .awaited => none
  | .notReady => none
  | .value v => some v

/-- The answer held, or the one that comes now (R165). -/
def joinAnswer {α : Type} (held new : MeterAnswer α) : MeterAnswer α := if held.answered then held else new

/-- The reading with the answers that come now (R165). -/
def MeterReading.join (r : MeterReading) (load : MeterAnswer (BitVec 16)) (battery : MeterAnswer Byte) : MeterReading :=
  { r with load := joinAnswer r.load load, battery := joinAnswer r.battery battery }

/-- Every device asked has answered: the load meter and, on SUPPLY, the battery gauge (R165). -/
def MeterReading.whole (r : MeterReading) (role : Role) : Bool :=
  r.load.answered && (role != .supply || r.battery.answered)

/-- The values that came back are kept, and the failed ones counted (R165). -/
def takeReading (load : Option (BitVec 16)) (battery : Option Byte) (s : State) : State :=
  let isSupply := s.straps.role = .supply
  s.updPower fun p =>
    { p with
      reading := none
      load := (load.map (·.toNat)).getD p.load
      battery := if isSupply then (battery.map fun b => min b.toNat 100) <|> p.battery else p.battery
      meterFailures := bumpBy p.meterFailures (bit load.isNone + bit (decide isSupply && battery.isNone)) }

/-- The own available that the battery level gives a supplying SUPPLY (R167). -/
def PowerSettings.offer (ps : PowerSettings) (battery : Option Nat) : Nat :=
  match battery with
  | none => 0
  | some b => if ps.low < b then ps.availableFull else if ps.empty < b then ps.availableLow else 0

/-- The BATTERY condition (R167). -/
def PowerSettings.isEmpty (ps : PowerSettings) (battery : Option Nat) : Bool :=
  match battery with
  | none => false
  | some b => decide (b ≤ ps.empty)

/-- The own available at a reading (R161, R167; log 19). -/
def readingAvailable (s : State) : Nat :=
  if s.straps.supplyPresent then
    if s.straps.role = .supply then s.power.settings.offer s.power.battery else s.power.settings.available
  else 0

/-- Step 1 of a reading: the battery marks (R166, R167). -/
def batteryMarks (s : State) : State :=
  let s := s.updPower fun p => { p with ownAvailable := readingAvailable s }
  if s.straps.role = .supply then setCondition .battery (s.power.settings.isEmpty s.power.battery) s else s

/-- Step 3 of a reading: the holdover count (R166, R169). -/
def Power.countHoldover (p : Power) : Power :=
  match p.holdover with
  | none => p
  | some n =>
    if n + 1 < 5 then { p with holdover := some (n + 1) }
    else
      { p with
        holdover := none
        supplied := false
        grant := p.settings.draw[0]
        holdoversEnded := bump p.holdoversEnded }

/-- The red margin acts (R172). -/
def redActs (s : State) : State :=
  let s := setStep 0 s
  latch .overdraw (s.updPower fun p => { p with rise := 0, yellow := 0, redEvents := bump p.redEvents })

/-- The step falls by one by the yellow margin, if it is above 0 (R171). -/
def yellowFall (s : State) : State :=
  if s.power.step = 0 then s
  else setStep (s.power.step - 1) (s.updPower fun p => { p with stepFalls := bump p.stepFalls })

/-- The load is above grant + Y (R171). -/
def yellowActs (s : State) : State :=
  let s := s.updPower fun p => { p with yellowEvents := bump p.yellowEvents }
  if s.power.yellow + 1 < 2 then s.updPower fun p => { p with yellow := p.yellow + 1 }
  else yellowFall (s.updPower fun p => { p with yellow := 0 })

/-- Step 5 of a reading whose load came back: the red test, then the yellow test (R166, R171, R172). -/
def overdrawTests (s : State) : State :=
  let p := s.power
  if p.grant + p.settings.red < p.load then redActs s
  else if p.grant + p.settings.yellow < p.load then yellowActs s
  else s.updPower fun p => { p with yellow := 0 }

/-- The yellow margin lowers the step in this reading (R171). -/
def yellowLowers (s : State) : Bool :=
  let p := s.power
  !decide (p.grant + p.settings.red < p.load) && decide (p.grant + p.settings.yellow < p.load) &&
    decide (2 ≤ p.yellow + 1) && p.step != 0

/-- The step may rise: the third reading in a row with a target above it raises it by one (R170). -/
def riseStep (s : State) : State :=
  if s.power.step < s.target then
    if s.power.rise + 1 < 3 then s.updPower fun p => { p with rise := p.rise + 1 }
    else setStep (s.power.step + 1) (s.updPower fun p => { p with rise := 0, stepRises := bump p.stepRises })
  else s.updPower fun p => { p with rise := 0 }

/-- Step 6 of a reading: the step is settled (R166, R170). -/
def settleStep (yellowFell : Bool) (s : State) : State :=
  let s := fallToTarget s
  if s.isLatched .overdraw then setStep 0 (s.updPower fun p => { p with rise := 0 })
  else if yellowFell then s.updPower fun p => { p with rise := 0 }
  else riseStep s

/-- The work of a reading once its values are in (R166). -/
def readingWork (loadCame : Bool) (s : State) : State :=
  let s := setOwnEntry (batteryMarks s)
  let s := recompute (s.updPower (·.countHoldover))
  let fell := loadCame && yellowLowers s
  let s := if loadCame then overdrawTests s else s
  loadPower (settleStep fell s)

/-- A reading completes with the answers it holds (R165, R166). -/
def completeReading (r : MeterReading) (s : State) : State :=
  readingWork (meterValue r.load).isSome (takeReading (meterValue r.load) (meterValue r.battery) s)

/-- 2,000 µs of local count have passed since a reading started (R165). -/
def State.meterLimit (s : State) (r : MeterReading) : Bool := decide (r.since + 2000 ≤ s.time.localCount)

/-- Answers come back to a reading in flight (R165): it completes when every device asked has answered, or without them
if its limit has run out; until then it holds them (log 26). -/
def answerReading (r : MeterReading) (load : MeterAnswer (BitVec 16)) (battery : MeterAnswer Byte) (s : State) : State :=
  if s.meterLimit r then completeReading r s
  else
    let r := r.join load battery
    if r.whole s.straps.role then completeReading r s else s.updPower fun p => { p with reading := some r }

/-- METER_READING_COMPLETE: answers of the meter port come back (R165). -/
def execMeterReadingComplete (load : MeterAnswer (BitVec 16)) (battery : MeterAnswer Byte) (s : State) :
    Host.Outcome State Fault Refusal :=
  match s.power.reading with
  | none => .next s
  | some r => .next (answerReading r load battery s)

/-- The limit of the reading in flight has run out (R165). -/
def State.meterOut (s : State) : Bool :=
  match s.power.reading with
  | none => false
  | some r => s.meterLimit r

/-- METER_READING_TIMEOUT: the limit of the reading runs out (R165). Answers that came within it and that no
METER_READING_COMPLETE has handed over come with it (log 26). -/
def execMeterReadingTimeout (load : MeterAnswer (BitVec 16)) (battery : MeterAnswer Byte) (s : State) :
    Host.Outcome State Fault Refusal :=
  match s.power.reading with
  | none => .next s
  | some r => .next (if s.meterLimit r then completeReading (r.join load battery) s else s)

/-- The effect of a POWER_REPORT firing: a reading starts, or an overlap is counted (R165). -/
def powerReport (s : State) : State :=
  s.updPower fun p =>
    if p.reading.isSome then { p with meterOverlaps := bump p.meterOverlaps }
    else { p with reading := some { since := s.time.localCount, load := .awaited, battery := .awaited } }

end Sys2Proof.Machine
end

