-- ==== Sys2Proof/Machine/Playback.lean ====
section
/-! DEFINITION. Playback of the audio unit of a HEADSET: blocks, runs, the sequence rule, the frames for the codec, slip,
underrun and the silence timer (R145 to R155), with the meanings of PLAY_STAMP_REACHED and SILENCE_TIMER_EXPIRY. -/

namespace Sys2Proof.Machine

/-- A block as it is taken (R147): its sequence, its rebuilt stamp and its 8 frames. -/
structure AudioBlock where
  sequence : Byte
  stamp : Int
  frames : List StereoFrame
  deriving DecidableEq, Repr

def zeroFrame : StereoFrame := { left := 0, right := 0 }

/-! ### State changes -/

/-- Going to IDLE (R146). -/
def Audio.goIdle (a : Audio) : Audio :=
  { a with
    state := .idle
    ring := []
    blocks := []
    origin := none
    lastSeq := none
    lastFrame := zeroFrame
    silence := none }

/-- The count at which the silence timer expires (R154). -/
def silenceLimit : Nat := 2400

/-- The effect of an expired silence timer on the stream state (R154). -/
def Audio.checkSilence (a : Audio) : Audio :=
  if a.silence = some silenceLimit then
    match a.state with
    | .playing => { a with state := .draining }
    | .underrun => a.goIdle
    | .idle => a
    | .priming => a
    | .draining => a
  else a

/-- PRIMING becomes PLAYING (R149); the silence timer is checked (R154). -/
def Audio.enterPlaying (a : Audio) : Audio := { a with state := .playing : Audio }.checkSilence

/-! ### Starting a run -/

/-- The block is early (R148). -/
def AudioBlock.early (b : AudioBlock) (agreed : Nat) : Bool := decide (((agreed / 16 : Nat) : Int) + 100000 < b.stamp)

/-- The block is late (R148). -/
def AudioBlock.late (b : AudioBlock) (agreed : Nat) : Bool := decide (48 * b.stamp + 7000 < 3 * (agreed : Int))

/-- Agreed time is at or past a stamp (R149). -/
def stampReached (stamp : Int) (agreed : Nat) : Bool := decide (16 * stamp ≤ (agreed : Int))

def AudioBlock.record (b : AudioBlock) : BlockRecord :=
  { kind := .block b.sequence b.stamp, remaining := 8, started := false }

def AudioBlock.last (b : AudioBlock) : StereoFrame := b.frames.getLastD zeroFrame

/-- A block that passes the tests starts a run (R148). -/
def Audio.runWith (a : Audio) (b : AudioBlock) (agreed : Nat) : Audio :=
  let a : Audio :=
    { a with
      state := .priming
      ring := b.frames
      blocks := [b.record]
      lastSeq := some b.sequence
      lastFrame := b.last }
  if stampReached b.stamp agreed then a.enterPlaying else a

/-- A run is started with a block (R148); `failed` is what a failed test leaves. -/
def Audio.startRun (a failed : Audio) (b : AudioBlock) (agreed : Nat) : Audio :=
  if b.early agreed then { failed with early := bump failed.early }
  else if b.late agreed then { failed with late := bump failed.late }
  else a.runWith b agreed

/-- A run is started from IDLE (R148): the block claims the stream if it passes. -/
def Audio.startFromIdle (a : Audio) (origin : Node) (b : AudioBlock) (agreed : Nat) : Audio :=
  { a with origin := some origin, silence := some 0 : Audio }.startRun a b agreed

/-- A run is started in an existing stream, ring and list empty (R148, R150, R151). -/
def Audio.restartRun (a : Audio) (b : AudioBlock) (agreed : Nat) : Audio :=
  a.startRun { a with state := .underrun } b agreed

/-! ### The sequence rule -/

/-- d of R150. -/
def Audio.distance (a : Audio) (b : AudioBlock) : Nat := (b.sequence - a.lastSeq.getD 0).toNat

/-- The frames and the records a block needs with its gap fill (R150). -/
def Audio.hasRoom (a : Audio) (d : Nat) : Bool :=
  decide (a.ring.length + (d - 1) * 8 + 8 ≤ 1024) && decide (a.blocks.length + (if d = 1 then 1 else 2) ≤ 128)

/-- A FILL record of d − 1 blocks is appended (R150). -/
def Audio.fill (a : Audio) (d : Nat) : Audio :=
  if d = 1 then a
  else
    { a with
      ring := a.ring ++ List.replicate ((d - 1) * 8) a.lastFrame
      blocks := a.blocks ++ [{ kind := .fill, remaining := (d - 1) * 8, started := false }]
      gaps := bump a.gaps }

/-- A block is appended (R150). -/
def Audio.append (a : Audio) (b : AudioBlock) : Audio :=
  { a with
    ring := a.ring ++ b.frames
    blocks := a.blocks ++ [b.record]
    lastSeq := some b.sequence
    lastFrame := b.last }

/-- DRAINING returns to PLAYING when a block is handled other than by resync (R150). -/
def Audio.resume (a : Audio) : Audio := if a.state = .draining then { a with state := .playing } else a

/-- Flushing and a resync (R146, R150). -/
def Audio.resync (a : Audio) (b : AudioBlock) (agreed : Nat) : Audio :=
  { a with ring := [], blocks := [], resyncs := bump a.resyncs : Audio }.restartRun b agreed

def Audio.countOld (a : Audio) : Audio := { a with old := bump a.old }

def Audio.countLate (a : Audio) : Audio := { a with late := bump a.late }

def State.updAudioTo (s : State) (a : Audio) : State := s.updAudio fun _ => a

/-- A block from the stream origin in PRIMING, PLAYING or DRAINING is placed (R150). -/
def placeBlock (b : AudioBlock) (s : State) : State :=
  let a := s.audio
  let d := a.distance b
  if d = 0 ∨ 129 ≤ d then s.updAudioTo a.resume.countOld
  else if 6 ≤ d then s.updAudioTo (a.resync b s.agreed)
  else if a.hasRoom d then s.updAudioTo ((a.resume.fill d).append b)
  else latch .audio (s.updAudioTo { a.resume with overflows := bump a.overflows })

/-- A block from the stream origin in UNDERRUN (R151). -/
def Audio.fromUnderrun (a : Audio) (b : AudioBlock) (agreed : Nat) : Audio :=
  if a.distance b = 0 ∨ 129 ≤ a.distance b then a.countOld else a.restartRun b agreed

/-- A block from the stream origin is handled by the rule of the state (R147). -/
def streamBlock (b : AudioBlock) (s : State) : State :=
  match s.audio.state with
  | .idle => s
  | .priming => if b.late s.agreed then s.updAudio (·.countLate) else placeBlock b s
  | .playing => placeBlock b s
  | .draining => placeBlock b s
  | .underrun => s.updAudioTo (s.audio.fromUnderrun b s.agreed)

/-- A block is taken (R147). -/
def takeBlock (origin : Node) (b : AudioBlock) (s : State) : State :=
  let s := s.updAudio fun a => { a with taken := bump a.taken }
  if s.audio.state = .idle then s.updAudioTo (s.audio.startFromIdle origin b s.agreed)
  else if s.audio.origin = some origin then streamBlock b (s.updAudio fun a => { a with silence := some 0 })
  else s.updAudio fun a => { a with foreign := bump a.foreign }

/-- The stereo frames of a playback body (12_formats.md): `n` of them from offset `off`. -/
def framesFrom (body : List Byte) : Nat → Nat → List StereoFrame
  | 0, _ => []
  | n + 1, off =>
    { left := BitVec.ofNat 16 (fieldAt body off 2), right := BitVec.ofNat 16 (fieldAt body (off + 2) 2) } ::
      framesFrom body n (off + 4)

/-- The block of a body, its stamp rebuilt against agreed time (R147, R62). The stamp is kept as the whole number that is
rebuilt, be it below 0 or 2^48 and above (log 33). -/
def blockOf (body : List Byte) (agreedUs : Nat) : AudioBlock where
  sequence := byteAt body 0
  stamp := rebuild (BitVec.ofNat 32 (fieldAt body 1 4)) agreedUs
  frames := framesFrom body 8 5

/-- A playback AUDIO message is handed to the audio unit (R147, R17). -/
def takeAudio (rank : Rank) (body : List Byte) (s : State) : State :=
  if body.length = 37 then takeBlock (rankOrigin rank) (blockOf body s.agreedUs) s
  else s.updAudio fun a => { a with malformed := bump a.malformed }

/-! ### PLAYING begins -/

/-- The first record's stamp is reached in PRIMING (R149). -/
def State.playDue (s : State) : Bool :=
  s.audio.state == .priming &&
    match s.audio.blocks with
    | { kind := .block _ stamp, .. } :: _ => stampReached stamp s.agreed
    | { kind := .fill, .. } :: _ => false
    | [] => false

/-- PLAY_STAMP_REACHED: agreed time reaches the first block's stamp in PRIMING (R149). -/
def execPlayStampReached (s : State) : Host.Outcome State Fault Refusal :=
  .next (if s.playDue then s.updAudio (·.enterPlaying) else s)

/-- SILENCE_TIMER_EXPIRY: the silence timer has reached 2,400 codec frames (R154; log 9). -/
def execSilenceTimerExpiry (s : State) : Host.Outcome State Fault Refusal := .next (s.updAudio (·.checkSilence))

/-! ### Frames for the codec -/

/-- cap[step] (R155). -/
def gainCap (step : Fin 4) : Nat := if step = 0 then 0 else if step = 1 then 128 else 256

/-- The output gain g (R155). -/
def State.outputGain (s : State) : Nat := min s.audio.gain (gainCap s.power.step)

/-- One channel scaled by the gain (R155). -/
def scaleSample (g : Nat) (v : BitVec 16) : BitVec 16 :=
  BitVec.ofInt 16 (clampInt ((v.toInt * g + 128) / 256) (-32768) 32767)

def scaleFrame (g : Nat) (f : StereoFrame) : StereoFrame := { left := scaleSample g f.left, right := scaleSample g f.right }

/-- `n` frames leave the play end of the ring and its first record (R152). -/
def Audio.leave (a : Audio) (r : BlockRecord) (rest : List BlockRecord) (n : Nat) : Audio :=
  { a with
    ring := a.ring.drop n
    blocks := if r.remaining ≤ n then rest else { r with remaining := r.remaining - n } :: rest }

/-- The slip rule's choice at the first frame of a block (R153): the frames that leave, and whether it slips. -/
def slipOf (error : Int) (limit : Nat) : Nat × Bool :=
  if (limit : Int) < error then (2, true) else if error < -(limit : Int) then (0, true) else (1, false)

/-- The frame given from a ring whose first record is `r`, and the unit after it (R152, R153). -/
def Audio.giveFrom (a : Audio) (r : BlockRecord) (rest : List BlockRecord) (agreedUs : Nat) : StereoFrame × Audio :=
  match r.kind, r.started with
  | .block _ stamp, false =>
    let (n, slips) := slipOf ((agreedUs : Int) - stamp) a.slipLimit
    (a.ring.getD (n - 1) zeroFrame,
      { a with slips := if slips then bump a.slips else a.slips : Audio }.leave { r with started := true } rest n)
  | .block _ _, true => (a.ring.headD zeroFrame, a.leave r rest 1)
  | .fill, _ => (a.ring.headD zeroFrame, a.leave { r with started := true } rest 1)

/-- The next frame of a ring that is not empty (R152). -/
def Audio.give (a : Audio) (agreedUs : Nat) : StereoFrame × Audio :=
  match a.blocks with
  | r :: rest => a.giveFrom r rest agreedUs
  | [] => (a.ring.headD zeroFrame, { a with ring := a.ring.tail })

/-- The frame of this codec frame event and the state after it (R152, R154). -/
def giveFrame (s : State) : StereoFrame × State :=
  let a := s.audio
  match a.state with
  | .idle => (zeroFrame, s)
  | .priming => (zeroFrame, s)
  | .underrun => (zeroFrame, s)
  | .playing =>
    if a.ring.isEmpty then
      (zeroFrame, latch .audio (s.updAudioTo { a with state := .underrun, underruns := bump a.underruns }))
    else ((a.give s.agreedUs).1, s.updAudioTo (a.give s.agreedUs).2)
  | .draining =>
    if a.ring.isEmpty then (zeroFrame, s.updAudioTo a.goIdle)
    else ((a.give s.agreedUs).1, s.updAudioTo (a.give s.agreedUs).2)

/-- The silence timer counts a codec frame event while the stream is not IDLE, and is checked (R154). -/
def Audio.countSilence (a : Audio) : Audio :=
  if a.state = .idle then a
  else { a with silence := a.silence.map fun n => min (n + 1) silenceLimit : Audio }.checkSilence

/-- The playback half of a codec frame event: the frame scaled by the gain goes out (R152 to R155; log 9). -/
def playFrame (s : State) : State :=
  let out := giveFrame s
  let g := s.outputGain
  (out.2.updPins fun p => { p with codecOut := scaleFrame g out.1 }).updAudio (·.countSilence)

end Sys2Proof.Machine
end

