-- ==== Sys2Proof/Machine/Capturing.lean ====
section
/-! DEFINITION. Capture of the audio unit of a HEADSET (R157 to R159) and the meaning of CODEC_FRAME. -/

namespace Sys2Proof.Machine

/-- Capture runs (R157). -/
def State.capturing (s : State) : Bool := s.straps.role == .headset && s.audio.capture.switch && s.inService

def State.updCapture (s : State) (f : Capture → Capture) : State :=
  s.updAudio fun a => { a with capture := f a.capture }

/-- A FILLING capture buffer before its first sample (R157; log 28 for its stamp). -/
def fillingBuffer : CaptureBuffer := { state := .filling, stamp := 0, samples := [] }

/-- Capture starts to run: A becomes FILLING, B stays FREE (R157). -/
def Capture.start (c : Capture) : Capture := { c with a := fillingBuffer, b := freeBuffer }

/-- A FILLING buffer is discarded and both buffers become FREE (R158, R159). -/
def Capture.discard (c : Capture) : Capture := { c with a := freeBuffer, b := freeBuffer }

/-- A sample joins a buffer; the first sets the stamp (R157). -/
def CaptureBuffer.add (k : CaptureBuffer) (sample : BitVec 16) (agreedUs : Nat) : CaptureBuffer :=
  { k with stamp := if k.samples.isEmpty then agreedUs else k.stamp, samples := k.samples ++ [sample] }

/-- The body of a capture block (R157, 12_formats.md). -/
def captureBody (sequence : Byte) (k : CaptureBuffer) : List Byte :=
  [sequence] ++ beBits 4 (low32 k.stamp) ++ k.samples.flatMap (beBits 2)

/-- A load of the AUDIO slot now loses a block (R157). -/
def State.captureLoses (s : State) : Bool :=
  s.loadRefused ||
    match s.slots.audio.state with
    | .empty => false
    | .pending => true
    | .sending => s.slots.audio.held.isSome

/-- A capture block is loaded, and a lost one counted (R157). -/
def loadCapture (body : List Byte) (s : State) : State :=
  let lost := s.captureLoses
  let s := loadSlot .audio (ownContent s 4 1 body) s
  if lost then latch .audio (s.updAudio fun a => { a with captureOverruns := bump a.captureOverruns }) else s

/-- A capture block is formed: the sequence and the counter rise (R157). -/
def Capture.formed (c : Capture) : Capture := { c with sequence := c.sequence + 1, blocks := bump c.blocks }

/-- A sample joins buffer A, which may complete (R157). -/
def sampleIntoA (sample : BitVec 16) (s : State) : State :=
  let c := s.audio.capture
  let k := c.a.add sample s.agreedUs
  if k.samples.length < 16 then s.updCapture fun c => { c with a := k }
  else
    loadCapture (captureBody c.sequence k)
      (s.updCapture fun c => { c with a := freeBuffer, b := fillingBuffer : Capture }.formed)

/-- A sample joins buffer B, which may complete (R157). -/
def sampleIntoB (sample : BitVec 16) (s : State) : State :=
  let c := s.audio.capture
  let k := c.b.add sample s.agreedUs
  if k.samples.length < 16 then s.updCapture fun c => { c with b := k }
  else
    loadCapture (captureBody c.sequence k)
      (s.updCapture fun c => { c with a := fillingBuffer, b := freeBuffer : Capture }.formed)

/-- The capture half of a codec frame event (R157). -/
def captureSample (sample : BitVec 16) (s : State) : State :=
  if s.capturing then
    if s.audio.capture.a.state = .filling then sampleIntoA sample s
    else if s.audio.capture.b.state = .filling then sampleIntoB sample s
    else s
  else s

/-- CODEC_FRAME: one frame is given to the codec and one sample is taken in (R145, R152, R157). -/
def execCodecFrame (mic : BitVec 16) (s : State) : Host.Outcome State Fault Refusal :=
  .next (if s.straps.role = .headset then captureSample mic (playFrame s) else s)

end Sys2Proof.Machine
end

