-- ==== Sys2Proof/Machine/Service.lean ====
section
/-! DEFINITION. Leaving service and return to service (R47), and entry into RUNNING (R70) up to the time unit's part. -/

namespace Sys2Proof.Machine

/-- What the other units do when the station leaves service (R47, R159): a capture that was running pauses. -/
def leaveService (s : State) : State :=
  if s.straps.role = .headset ∧ s.audio.capture.switch then s.updCapture (·.discard) else s

/-- What the units do at return to service (R47): ALARM is loaded if a mark remains (R55), and capture starts to run
with its switch on (R159). -/
def returnToService (s : State) : State :=
  let s := if s.alarms.unsent = 0 then s else loadAlarm s
  if s.capturing then s.updCapture (·.start) else s

end Sys2Proof.Machine
end

