-- ==== Sys2Proof/Machine/Time.lean ====
section
/-! DEFINITION. The time unit: corrections, the reference, leaving LISTENING, the take of a beacon, expiry and the beacon
firing (R59 to R70), with the meanings of TIME_RECORD_EXPIRY and LISTENING_TIMER_EXPIRY. -/

namespace Sys2Proof.Machine

/-! ### Held times and corrections -/

def TimeRecord.moved (r : TimeRecord) (d : Int) : TimeRecord :=
  { r with ownTime := r.ownTime + d, lastHeard := r.lastHeard + d }

/-- The held times of the time unit are moved by `d` sixteenths (R61). -/
def TimeUnit.moved (t : TimeUnit) (d : Int) : TimeUnit :=
  { t with
    table := t.table.map (·.map (·.moved d))
    prevStart := t.prevStart.map (· + d)
    timer := t.timer.map (· + d) }

def Transmission.moved (x : Transmission) (d : Int) : Transmission := { x with startMoved := x.startMoved + d }

/-- Every held time is moved by `d` sixteenths; so is the start of the own message on the spine (R61, R64). -/
def moveHeld (d : Int) (s : State) : State :=
  (s.updTime (·.moved d)).updSpine fun p => { p with tx := p.tx.map (·.moved d) }

/-- A step moves agreed time by `e` at once (R68). -/
def stepTime (e : Int) (s : State) : State :=
  (moveHeld e s).updTime fun t =>
    { t with offset := t.offset + e, slew := 0, corrected := true, steps := bump t.steps }

/-- A slew correction sets the remainder (R60, R68). -/
def slewTime (e : Int) (s : State) : State :=
  s.updTime fun t => { t with slew := e, corrected := true, slews := bump t.slews }

/-- The correction of an error of `e` sixteenths is a step (R68). -/
def isStep (s : State) (e : Int) : Bool :=
  if s.loader.life = .running then decide ((16 * s.time.stepLimit : Nat) ≤ e) else decide (0 < e)

/-- A pairing with the reference corrects agreed time (R68). -/
def correct (e : Int) (s : State) : State :=
  if isStep s e then
    if s.loader.life = .running then latch .timestep (stepTime e s) else stepTime e s
  else slewTime e s

/-! ### The reference -/

/-- The origins that may be the reference (R67). -/
def State.mayFollow (s : State) (o : Node) : Bool :=
  match s.loader.life with
  | .listening => true
  | .running => decide (o < s.straps.node)
  | .loading => false

/-- The reference choice; `none` is the station itself (R67). -/
def State.chosen (s : State) : Option Node := allNodes.find? fun o => s.mayFollow o && (s.freshRecord o).isSome

/-- The choice is taken over; a change is counted and clears the corrected mark (R67). -/
def takeReference (s : State) : State :=
  let new := s.chosen
  if new = s.time.reference then s
  else s.updTime fun t => { t with reference := new, corrected := false, refChanges := bump t.refChanges }

/-- TIMELOST arises when a RUNNING station falls back on itself, and ends with the next other origin (R69; log 16). -/
def settleTimelost (before : Option Node) (s : State) : State :=
  match s.time.reference with
  | some _ => endCondition .timelost s
  | none =>
    if s.loader.life = .running ∧ before.isSome then
      arise .timelost (s.updTime fun t => { t with refLosses := bump t.refLosses })
    else s

/-- The reference choice is made again (R67, R69). -/
def rechoose (s : State) : State := settleTimelost s.time.reference (takeReference s)

/-! ### Leaving LISTENING -/

/-- At entry into RUNNING the choice is made again, and falling back on itself raises no TIMELOST (R70). -/
def rechooseAtEntry (s : State) : State := settleTimelost none (takeReference s)

/-- The station enters RUNNING and returns to service (R70, R47); the LANE condition is handed on (R50; log 15). -/
def enterRunning (s : State) : State :=
  let s := rechooseAtEntry (s.updLoader fun l => { l with life := .running })
  refreshLane (returnToService (s.updTime fun t => { t with prevStart := none, timer := none }))

/-- The moment to leave LISTENING has come; DUPNODE holds the station (R70). -/
def leaveListening (s : State) : State := if s.isLatched .dupnode then s else enterRunning s

/-- The LISTENING timer has run out (R70). -/
def State.timerOut (s : State) : Bool :=
  s.loader.life == .listening &&
    match s.time.timer with
    | none => false
    | some t => decide (t + 3 * s.beaconPeriod ≤ (s.agreed : Int))

/-- LISTENING_TIMER_EXPIRY: 3 beacon periods have passed without a beacon (R70). -/
def execListeningTimerExpiry (s : State) : Host.Outcome State Fault Refusal :=
  .next (if s.timerOut then leaveListening (s.updTime fun t => { t with timer := none }) else s)

/-! ### The take of a beacon -/

/-- A TIME body is malformed (R17). -/
def timeMalformed (rank : Rank) (body : List Byte) : Bool :=
  body.length != 7 || rankTopic rank != 0 || decide (7 < (byteAt body 5).toNat)

/-- A beacon as its body gives it (R63). -/
structure Beacon where
  origin : Node
  number : Byte
  previous : BitVec 32
  reference : Node
  hasReference : Bool
  listening : Bool
  deriving DecidableEq, Repr

def beaconOf (rank : Rank) (body : List Byte) : Beacon where
  origin := rankOrigin rank
  number := byteAt body 0
  previous := BitVec.ofNat 32 (fieldAt body 1 4)
  reference := nodeOf (byteAt body 5).toNat
  hasReference := (byteAt body 6).getLsbD 0
  listening := (byteAt body 6).getLsbD 1

/-- The record a beacon pairs with (R66, step 1). -/
def pairedRecord (b : Beacon) (s : State) : Option TimeRecord :=
  match s.freshRecord b.origin with
  | none => none
  | some r => if r.lastNumber = b.number - 1 ∧ b.listening = false then some r else none

/-- The error of a paired beacon, in sixteenths (R66, step 2). -/
def pairingError (b : Beacon) (r : TimeRecord) (s : State) : Int := 16 * rebuild b.previous s.agreedUs - r.ownTime

/-- The error to be applied: the beacon pairs and its origin is the reference (R66, step 3). -/
def appliedError (b : Beacon) (s : State) : Option Int :=
  match pairedRecord b s with
  | none => none
  | some r => if s.time.reference = some b.origin then some (pairingError b r s) else none

/-- By how much a correction moves the start of the beacon being taken (R61, R66 step 4). -/
def movedBy (s : State) (e : Option Int) : Int :=
  match e with
  | none => 0
  | some e => if isStep s e then e else 0

/-- Steps 4 to 6 of the take: record, reference, LISTENING timer (R66). -/
def recordBeacon (b : Beacon) (start : Int) (s : State) : State :=
  let record : TimeRecord :=
    { lastNumber := b.number
      ownTime := start
      lastHeard := s.agreed
      carriedRef := b.reference
      carriedHas := b.hasReference
      expired := false }
  let s := rechoose (s.updTime fun t => { t with table := putAt t.table b.origin (some record) })
  if s.loader.life = .listening then s.updTime fun t => { t with timer := some s.agreed } else s

/-- The counters of a beacon taken (R66). -/
def countBeacon (paired : Bool) (s : State) : State :=
  s.updTime fun t =>
    { t with beaconsTaken := bump t.beaconsTaken, pairs := if paired then bump t.pairs else t.pairs }

/-- A beacon is taken; `start` is the own agreed time at its start bit, moved by every correction since (R66).
The station leaves LISTENING after the take if it was corrected (R70; log 15). -/
def takeBeacon (b : Beacon) (start : Int) (s : State) : State :=
  let s := countBeacon (pairedRecord b s).isSome s
  let e := appliedError b s
  let start := start + movedBy s e
  match e with
  | none => recordBeacon b start s
  | some e =>
    let after := recordBeacon b start (correct e s)
    if after.loader.life = .listening then leaveListening after else after

/-- A TIME message is handed to the time unit; one of the own origin is ignored (R65, R66). -/
def takeTime (rank : Rank) (body : List Byte) (start : Int) (s : State) : State :=
  if timeMalformed rank body then s.updTime fun t => { t with malformed := bump t.malformed }
  else if rankOrigin rank = s.straps.node then s
  else takeBeacon (beaconOf rank body) start s

/-! ### Expiry -/

/-- A record has an expiry to hand on (R65). -/
def State.recordDue (s : State) (o : Node) : Bool :=
  match s.time.table[o] with
  | none => false
  | some r => !s.recordFresh r && !r.expired

/-- The record of an origin expires, and the reference is chosen again (R65, R67). -/
def expireRecord (o : Node) (s : State) : State :=
  rechoose (s.updTime fun t => { t with table := putAt t.table o (t.table[o].map fun r => { r with expired := true }) })

/-- TIME_RECORD_EXPIRY: a record reaches last heard plus 4 beacon periods (R65). -/
def execTimeRecordExpiry (o : Node) (s : State) : Host.Outcome State Fault Refusal :=
  .next (if s.recordDue o then expireRecord o s else s)

/-! ### Beacons -/

/-- The reference node as the station announces it (R63, R67). -/
def State.referenceNode (s : State) : Node := s.time.reference.getD s.straps.node

/-- A beacon body, formed now (R63). -/
def beaconBody (s : State) : List Byte :=
  let t := s.time
  beBits 1 t.beaconNumber ++ beInt 4 ((t.prevStart.getD 0) / 16) ++ beBytes 1 s.referenceNode.val ++
    [flagByte [t.reference.isSome, t.prevStart.isNone]]

/-- A BEACON firing (R63). -/
def fireBeacon (s : State) : State :=
  if s.loader.life = .running then
    if s.spine.standing ≠ .cut ∧ s.slots.time.state = .sending then
      s.updTime fun t => { t with skipped := bump t.skipped }
    else loadSlot .time (ownContent s 1 0 (beaconBody s)) s
  else s

/-- The TIME slot hands back SENT (R64). -/
def beaconSent (start : Int) (s : State) : State :=
  s.updTime fun t =>
    { t with
      beaconNumber := t.beaconNumber + 1
      prevStart := some start
      beaconsSent := bump t.beaconsSent }

end Sys2Proof.Machine
end

