-- ==== Sys2Proof/Machine/Sensing.lean ====
section
/-! DEFINITION. The motion unit of a HEADSET: sensor reads, the sample ring, integration, the pose history and POSE
reports (R79 to R85), with the meanings of SENSOR_READ_COMPLETE and SENSOR_READ_TIMEOUT. -/

namespace Sys2Proof.Machine

/-! ### Firings -/

/-- A SAMPLE firing starts a read, or is an overlap (R79). -/
def fireSample (s : State) : State :=
  s.updMotion fun m =>
    if m.reading.isSome then { m with overlaps := bump m.overlaps }
    else { m with reading := some { stamp := s.agreedUs, since := s.time.localCount } }

/-- The newest pose history entry (R84). -/
def Motion.newest (m : Motion) : Option PoseEntry := m.history.getLast?

/-- The POSE body of an entry (R85; log 46 for bits 2 to 7 of its flags byte). -/
def poseBody (p : PoseEntry) (d : Dials) : List Byte :=
  beBits 2 p.sequence ++ beBits 4 (low32 p.stamp) ++
    beBits 4 p.angles.yaw ++ beBits 4 p.angles.pitch ++ beBits 4 p.angles.roll ++
    beInt 4 p.increments.yaw ++ beInt 4 p.increments.pitch ++ beInt 4 p.increments.roll ++
    beInt 2 d.e0.frameValue ++ beInt 2 d.e1.frameValue ++ [flagByte [p.held, p.saturated]]

/-- A POSE_REPORT firing (R85, R76; log 36). -/
def firePoseReport (s : State) : State :=
  match s.motion.newest with
  | none => s.updMotion fun m => { m with emptyReports := bump m.emptyReports }
  | some p => if s.loader.life = .running then loadSlot .pose (ownContent s 3 0 (poseBody p s.dials)) s else s

/-! ### What a completion gives -/

def Triple.at {α : Type} (t : Triple α) (axis : Fin 3) : α :=
  if axis = 0 then t.x else if axis = 1 then t.y else t.z

/-- A raw value with the sign of the map; −32768 negated gives 32767 (R80). -/
def applySign (negative : Bool) (v : BitVec 16) : BitVec 16 :=
  if negative then (if v = 0x8000 then 0x7FFF else -v) else v

/-- The values of the head axes (R80). -/
def mapAxes (m : Axes AxisMap) (raw : Triple (BitVec 16)) : Axes (BitVec 16) :=
  m.map fun a => applySign a.negative (Triple.at raw a.axis)

/-- A raw value is saturated: 32767, −32767 or −32768 (R80). -/
def isSaturated (v : BitVec 16) : Bool := v == 0x7FFF || v == 0x8001 || v == 0x8000

/-- The saturated marks of the head axes (R80). -/
def mapSaturated (m : Axes AxisMap) (raw : Triple (BitVec 16)) : Axes Bool :=
  m.map fun a => isSaturated (Triple.at raw a.axis)

def Axes.any (a : Axes Bool) : Bool := a.yaw || a.pitch || a.roll

/-- The increment of an axis (R82). -/
def incrementOf (g : BitVec 16) (bias : Int) (gain : Nat) : Int := clampInt (g.toInt - bias) (-32767) 32767 * gain

def goodIncrements (k : MotionSettings) (gyro : Axes (BitVec 16)) : Axes Int where
  yaw := incrementOf gyro.yaw k.bias.yaw k.gain.yaw
  pitch := incrementOf gyro.pitch k.bias.pitch k.gain.pitch
  roll := incrementOf gyro.roll k.bias.roll k.gain.roll

/-- The list with an element at the newest end, keeping the `n` newest (R81, R84). -/
def pushNewest {α : Type} (n : Nat) (xs : List α) (x : α) : List α := (xs ++ [x]).drop (xs.length + 1 - n)

/-- The sequence of the next pose entry (R84). -/
def Motion.nextSequence (m : Motion) : BitVec 16 :=
  match m.newest with
  | none => 0
  | some p => p.sequence + 1

/-- A completed read moves the accumulators and adds its record and its pose entry (R81, R82, R84). -/
def Motion.complete (m : Motion) (r : SampleRecord) (inc : Axes Int) : Motion :=
  let acc := m.acc.zip (fun a d => a + BitVec.ofInt 32 d) inc
  let entry : PoseEntry :=
    { sequence := m.nextSequence
      stamp := r.stamp
      angles := acc
      increments := inc
      held := r.held
      saturated := r.gyroSat.any }
  { m with
    reading := none
    ring := pushNewest 32 m.ring r
    acc := acc
    history := pushNewest 64 m.history entry }

/-! ### Completions -/

/-- The record of a good read (R80, R81). -/
def goodRecord (k : MotionSettings) (stamp : Nat) (rates accels : Triple (BitVec 16)) : SampleRecord where
  stamp := stamp
  gyro := mapAxes k.axisMap rates
  accel := mapAxes k.axisMap accels
  gyroSat := mapSaturated k.axisMap rates
  accelSat := mapSaturated k.axisMap accels
  held := false

/-- The motion unit after a good completion (R79 to R84). -/
def Motion.goodRead (m : Motion) (stamp : Nat) (rates accels : Triple (BitVec 16)) : Motion :=
  let r := goodRecord m.settings stamp rates accels
  let inc := goodIncrements m.settings r.gyro
  { m with
    lastGyro := r.gyro
    lastAccel := r.accel
    lastInc := inc
    failures := 0
    good := bump m.good
    saturated := if r.gyroSat.any || r.accelSat.any then bump m.saturated else m.saturated : Motion }.complete r inc

/-- A good completion (R79); the SENSOR condition ends (R83). -/
def completeGood (stamp : Nat) (rates accels : Triple (BitVec 16)) (s : State) : State :=
  endCondition .sensor (s.updMotion (·.goodRead stamp rates accels))

/-- The record of a failed read (R81). -/
def Motion.heldRecord (m : Motion) (stamp : Nat) : SampleRecord where
  stamp := stamp
  gyro := m.lastGyro
  accel := m.lastAccel
  gyroSat := .same false
  accelSat := .same false
  held := true

/-- The motion unit after a failed completion (R81 to R84). -/
def Motion.failed (m : Motion) (stamp : Nat) : Motion :=
  let count := bump m.failures
  let zero := decide (8 ≤ count.toNat)
  { m with
    failures := count
    zeroed := if zero then bump m.zeroed else m.zeroed : Motion }.complete (m.heldRecord stamp)
      (if zero then .same 0 else m.lastInc)

/-- A failed completion; the SENSOR condition is present from the 8th in a row (R83). -/
def completeFailed (stamp : Nat) (s : State) : State :=
  let s := s.updMotion (·.failed stamp)
  if 8 ≤ s.motion.failures.toNat then arise .sensor s else s

def countTimedOut (s : State) : State := s.updMotion fun m => { m with timedOut := bump m.timedOut }

/-- The limit timer of a read has run out (R79). -/
def State.readOut (s : State) (r : SensorRead) : Bool := decide (r.since + s.motion.settings.readLimit ≤ s.time.localCount)

/-- A sensor read completes (R79; log 26 for one whose limit has run out). -/
def completeRead (ready : Bool) (rates accels : Triple (BitVec 16)) (r : SensorRead) (s : State) : State :=
  if s.readOut r then completeFailed r.stamp (countTimedOut s)
  else if ready then completeGood r.stamp rates accels s
  else completeFailed r.stamp (s.updMotion fun m => { m with notReady := bump m.notReady })

/-- SENSOR_READ_COMPLETE: the transfer of a read ends (R79). -/
def execSensorReadComplete (ready : Bool) (rates accels : Triple (BitVec 16)) (s : State) :
    Host.Outcome State Fault Refusal :=
  match s.motion.reading with
  | none => .next s
  | some r => .next (completeRead ready rates accels r s)

/-- SENSOR_READ_TIMEOUT: the limit timer of a read runs out (R79). -/
def execSensorReadTimeout (s : State) : Host.Outcome State Fault Refusal :=
  match s.motion.reading with
  | none => .next s
  | some r => .next (if s.readOut r then completeFailed r.stamp (countTimedOut s) else s)

end Sys2Proof.Machine
end

