-- ==== Sys2Proof/Machine/Dialling.lean ====
section
/-! DEFINITION. The two dials of a HEADSET (R89 to R93) and the meaning of DIAL_CHANGE. -/

namespace Sys2Proof.Machine

def Dials.get (d : Dials) : Dial → DialState
  | .e0 => d.e0
  | .e1 => d.e1

def Dials.put (d : Dials) (n : Dial) (v : DialState) : Dials :=
  match n with
  | .e0 => { d with e0 := v }
  | .e1 => { d with e1 := v }

/-- A step by `k` beyond the range is ignored, sets the limit flag and is counted; another moves the count (R90). -/
def DialState.step (d : DialState) (k : Int) : DialState :=
  if d.count + k < d.range.min ∨ d.range.max < d.count + k then
    { d with limit := true, limitSteps := bump d.limitSteps }
  else { d with count := d.count + k }

/-- A change of the lines to levels a and b (R89, R91): forward is (a, b) to (b, not a). -/
def DialState.change (d : DialState) (a b : Bool) : DialState :=
  let next : DialState := { d with lineA := a, lineB := b }
  if a = d.lineA ∧ b = d.lineB then d
  else if a ≠ d.lineA ∧ b ≠ d.lineB then { next with skips := bump d.skips }
  else if a = d.lineB ∧ b = !d.lineA then next.step 1
  else next.step (-1)

/-- The dials count: on a HEADSET out of LOADING, and in the LOADING of a restart (R89, R92). -/
def State.dialsCount (s : State) : Bool :=
  s.straps.role == .headset && (s.loader.life != .loading || s.loader.fromRestart)

/-- The levels at the dial lines (R89). -/
def Pins.setDial (p : Pins) (n : Dial) (a b : Bool) : Pins :=
  match n with
  | .e0 => { p with dialLevels := ((a, b), p.dialLevels.2) }
  | .e1 => { p with dialLevels := (p.dialLevels.1, (a, b)) }

/-- The lines of a dial take new levels (R89 to R92). -/
def dialChange (n : Dial) (a b : Bool) (s : State) : State :=
  let s := s.updPins (·.setDial n a b)
  if s.dialsCount then s.updDials fun d => d.put n ((d.get n).change a b) else s

/-- DIAL_CHANGE: a dial's lines change level (R89). -/
def execDialChange (n : Dial) (a b : Bool) (s : State) : Host.Outcome State Fault Refusal := .next (dialChange n a b s)

def DialState.latch (d : DialState) : DialState := { d with frameValue := d.count }

/-- A FRAME firing latches both counts (R93). -/
def latchDials (s : State) : State := s.updDials fun d => { d with e0 := d.e0.latch, e1 := d.e1.latch }

end Sys2Proof.Machine
end

