-- ==== Sys2Proof/Machine/LateShift.lean ====
section
/-! DEFINITION. The late shift of a slice (R134 to R140). -/

namespace Sys2Proof.Machine

/-- The sample period P in µs: the SAMPLE period divided by 16 (05, Profile values). -/
def State.samplePeriod (s : State) : Nat := (s.sched.periodOf .sample).getD 0 / 16

/-- The display time of slice `k` (R134). -/
def displayTime (s : State) (k : Nat) : Nat :=
  let g := s.store.geometry
  s.scan.tickTime.getD 0 + (k * g.S + g.S / 2) * s.scan.settings.lp / 16 + s.scan.settings.glow

/-- The horizon h against the newest entry (R134). -/
def horizonTime (s : State) (k : Nat) (newest : PoseEntry) : Int :=
  clampInt ((displayTime s k : Int) - newest.stamp) 0 s.scan.settings.hmax

/-- An angle moved forward over h at the rate of its last read (R135). -/
def predict (angle : BitVec 32) (inc h : Int) (p : Nat) : BitVec 32 :=
  angle + BitVec.ofInt 32 (Int.tdiv (inc * h) p)

/-- The nearest whole sixteenth of an angle difference, a half rounded upward (R137, R139). -/
def sixteenths (delta : BitVec 32) (k : Nat) : Int := (delta.toInt * k + 2 ^ 31) / 2 ^ 32

/-- The lens term with the sign of the eye (R138). -/
def lensTerm (s : State) (e : Eye) : Int :=
  let lens := s.dials.e0.frameValue * s.scan.settings.lensStep
  match e with
  | .left => lens
  | .right => -lens

/-- The render pose of a buffered slice, if its tag names an entry of the history (R136). -/
def renderPose (s : State) (e : Eye) (k : Nat) : Option PoseEntry :=
  match s.store.bufferOf e k with
  | none => none
  | some b =>
    let t := (s.store.buffer b).tag
    if t.present then s.motion.history.find? (·.sequence == t.pose) else none

/-- The two shifts before the clamps, and whether the record is unmatched (R134 to R139). -/
def rawShift (s : State) (e : Eye) (k : Nat) : Int × Int × Bool :=
  match s.motion.newest, renderPose s e k with
  | some l, some r =>
    let h := horizonTime s k l
    let p := s.samplePeriod
    let yaw := predict l.angles.yaw l.increments.yaw h p - r.angles.yaw
    let pitch := predict l.angles.pitch l.increments.pitch h p - r.angles.pitch
    (sixteenths yaw s.scan.settings.kx + lensTerm s e, (sixteenths pitch s.scan.settings.ky + 8) / 16, false)
  | some _, none => (lensTerm s e, 0, true)
  | none, _ => (lensTerm s e, 0, true)

/-- The clamped record (R140). -/
def clampShift (g : Geometry) (maxshift : Nat) (dx dy : Int) (unmatched : Bool) : ShiftRecord :=
  let cx := clampInt dx (-(16 * maxshift : Nat)) (16 * maxshift : Nat)
  let cy := clampInt dy (-(min g.S maxshift : Nat)) (min g.S maxshift : Nat)
  { dx16 := cx, dy := cy, unmatched := unmatched, hClamp := cx != dx, vClamp := cy != dy }

/-- The shift record of slice `k` of an eye in a LIVE band (R132, R134 to R140). -/
def shiftRecord (s : State) (e : Eye) (k : Nat) : ShiftRecord :=
  let raw := rawShift s e k
  clampShift s.store.geometry s.scan.settings.maxshift raw.1 raw.2.1 raw.2.2

/-- An unmatched record is counted: the slice has a buffer, or the history is empty, be there a buffer or none (R136;
log 48). -/
def countsUnmatched (s : State) (e : Eye) (k : Nat) : Bool :=
  (s.store.bufferOf e k).isSome || s.motion.history.isEmpty

end Sys2Proof.Machine
end

