-- ==== Sys2Proof/Machine/Scanning.lean ====
section
/-! DEFINITION. The scan of a HEADSET: reaching and leaving slices, the pixel rule and the lines sent to the panels (R129
to R133, R141 to R143), with the meanings of SCAN_LINE and SCAN_END. -/

namespace Sys2Proof.Machine

def State.updScanEye (s : State) (e : Eye) (f : ScanEye → ScanEye) : State :=
  s.updScan fun c => { c with eyes := c.eyes.put e (f (c.eyes.get e)) }

def State.scanEye (s : State) (e : Eye) : ScanEye := s.scan.eyes.get e

/-! ### Reaching a slice -/

/-- The record of a band without buffers (R132). -/
def zeroShift : ShiftRecord := { dx16 := 0, dy := 0, unmatched := false, hClamp := false, vClamp := false }

/-- A target frame is older than the display frame number (R132). -/
def isOlder (target frame : BitVec 32) : Bool :=
  let d := (frame - target).toNat
  decide (1 ≤ d) && decide (d < 2 ^ 31)

/-- A late show is counted for the buffer of a slice reached (R132). -/
def countLateShow (b : Fin 256) (s : State) : State :=
  let t := (s.store.buffer b).tag
  if t.present && isOlder t.target s.scan.frameNumber then s.updScan fun c => { c with lateShows := bump c.lateShows }
  else s

/-- A slice is shown stale: the band's flag, the counter and the mark (R125, R132). -/
def showStale (e : Eye) (k : Nat) (s : State) : State :=
  ((s.updStore (·.updBand e k fun d => { d with stale := true })).updScan fun c =>
    { c with staleShows := bump c.staleShows }).updScanEye e fun v => { v with staleCurrent := true }

/-- The buffer of the slice reached is looked at (R132). -/
def showBuffer (e : Eye) (k : Nat) (s : State) : State :=
  match s.store.bufferOf e k with
  | none => s.updScanEye e fun v => { v with staleCurrent := false }
  | some b =>
    countLateShow b
      (if (s.store.buffer b).full then s.updScanEye e fun v => { v with staleCurrent := false } else showStale e k s)

/-- The shift record of the slice reached is kept, and counted if unmatched or clamped (R136, R140). -/
def keepShift (e : Eye) (k : Nat) (s : State) : State :=
  let r := shiftRecord s e k
  let counts := r.unmatched && countsUnmatched s e k
  (s.updScanEye e fun v => { v with shift := some r }).updScan fun c =>
    { c with
      unmatched := if counts then bump c.unmatched else c.unmatched
      clamped := if r.hClamp || r.vClamp then bump c.clamped else c.clamped }

/-- The scan reaches slice `k` of an eye (R132). -/
def reachSlice (e : Eye) (k : Nat) (s : State) : State :=
  match (s.store.band e k).access with
  | .live => showBuffer e k (keepShift e k s)
  | .fixed => s.updScanEye e fun v => { v with shift := some zeroShift, staleCurrent := false }
  | .absent => s.updScanEye e fun v => { v with shift := some zeroShift, staleCurrent := false }

/-! ### Leaving a slice -/

/-- The slice behind is opened; its mark tells whether it was overtaken (R133). -/
def openBehind (e : Eye) (k : Nat) (s : State) : State :=
  let overtaken := (s.scanEye e).staleBehind && s.store.isFull e k
  openSlice e k (if overtaken then s.updScan fun c => { c with overtaken := bump c.overtaken } else s)

/-- The mark for the slice behind is taken over from the current slice (R133; log 21). -/
def takeOverMark (e : Eye) (s : State) : State := s.updScanEye e fun v => { v with staleBehind := v.staleCurrent }

/-- The scan leaves slice `k` of an eye: it opens the slice before (R133). -/
def leaveSlice (e : Eye) (k : Nat) (s : State) : State :=
  takeOverMark e (if k = 0 then s else openBehind e (k - 1) s)

/-! ### The pixel rule -/

/-- A pixel of a buffer's area (07, Buffer records; log 11). -/
def areaPixel (k : SliceStore) (b : Fin 256) (line col : Nat) : Pixel :=
  let a := areaBase b + (line * k.geometry.W + col) * 3
  { r := k.mem.read a, g := k.mem.read (a + 1), b := k.mem.read (a + 2) }

/-- A source line of a LIVE output band (R141). -/
def sourceLine (k : SliceStore) (e : Eye) (y : Int) : List Pixel :=
  let g := k.geometry
  if y < 0 ∨ (g.H : Int) ≤ y then List.replicate g.W (g.edge.get e)
  else
    let s' := y.toNat / g.S
    match k.bufferOf e s' with
    | none =>
      match (k.band e s').access with
      | .fixed => List.replicate g.W (k.band e s').fill
      | .absent => List.replicate g.W black
      | .live => List.replicate g.W black
    | some b =>
      if (k.buffer b).content = .damaged then List.replicate g.W (g.edge.get e)
      else (List.range g.W).map (areaPixel k b (y.toNat % g.S))

/-- A source pixel; outside the picture it is the edge colour (R141). -/
def rowAt (row : List Pixel) (edge : Pixel) (x : Int) : Pixel := if x < 0 then edge else row.getD x.toNat edge

/-- A channel blended of two (R142). -/
def blend (a b : Byte) (f : Nat) : Byte := BitVec.ofNat 8 ((a.toNat * (16 - f) + b.toNat * f + 8) / 16)

/-- A channel scaled by the brightness (R143). -/
def scaleChannel (brightness : Nat) (c : Byte) : Byte := BitVec.ofNat 8 ((c.toNat * brightness + 128) / 256)

def mixPixel (a b : Pixel) (f : Nat) : Pixel := { r := blend a.r b.r f, g := blend a.g b.g f, b := blend a.b b.b f }

def dimPixel (brightness : Nat) (p : Pixel) : Pixel :=
  { r := scaleChannel brightness p.r, g := scaleChannel brightness p.g, b := scaleChannel brightness p.b }

/-- A source line shifted by dx16 sixteenths of a pixel and blended (R142). -/
def shiftLine (row : List Pixel) (edge : Pixel) (w : Nat) (dx16 : Int) : List Pixel :=
  let i := dx16 / 16
  let f := (dx16 % 16).toNat
  (List.range w).map fun x => mixPixel (rowAt row edge (x + i)) (rowAt row edge (x + i + 1)) f

/-- The shift record of an eye's current slice (R141). -/
def ScanEye.record (v : ScanEye) : ShiftRecord := v.shift.getD zeroShift

/-- Output line `y` of an eye before the brightness (R141, R142). -/
def outputLine (s : State) (e : Eye) (y : Nat) : List Pixel :=
  let k := s.store
  let g := k.geometry
  let band := k.band e (y / g.S)
  match band.access with
  | .fixed => shiftLine (List.replicate g.W band.fill) (g.edge.get e) g.W 0
  | .absent => shiftLine (List.replicate g.W black) (g.edge.get e) g.W 0
  | .live =>
    let r := (s.scanEye e).record
    shiftLine (sourceLine k e (y + r.dy)) (g.edge.get e) g.W r.dx16

/-- B[step] (R143). -/
def State.brightness (s : State) : Nat := s.scan.settings.brightness[s.power.step]

/-- Line `y` of an eye is formed and sent to its panel (R141 to R143). -/
def formLine (e : Eye) (y : Nat) (s : State) : State :=
  let line : PanelLine := { line := y, pixels := (outputLine s e y).map (dimPixel s.brightness) }
  s.updPins fun p => { p with panel := p.panel.put e (some line) }

/-! ### The scan -/

/-- An eye comes to the first line of slice `k` (R131, steps 1 and 2). -/
def turnSlice (e : Eye) (k : Nat) (s : State) : State := reachSlice e k (if k = 0 then s else leaveSlice e (k - 1) s)

/-- An eye's part of line `y` (R131; log 20). -/
def scanEyeLine (e : Eye) (y : Nat) (s : State) : State :=
  let size := s.store.geometry.S
  formLine e y (if y % size = 0 then turnSlice e (y / size) s else s)

/-- Line `y` of both eyes (R131; log 20). -/
def scanLine (y : Nat) (s : State) : State :=
  let size := s.store.geometry.S
  (scanEyeLine .right y (scanEyeLine .left y s)).updScan fun c =>
    { c with current := some (y / size), nextLine := y + 1 }

/-- The next line's time has come (R131). -/
def State.lineDue (s : State) : Bool :=
  s.scan.scanning && decide (s.scan.nextLine < s.store.geometry.H) &&
    decide (s.scan.nextLine * s.scan.settings.lp ≤ s.scan.lineClock)

/-- SCAN_LINE: the line clock reaches the next line's time (R131, R141). -/
def execScanLine (s : State) : Host.Outcome State Fault Refusal :=
  if s.lineDue then
    if s.store.geometry.fits then .next (scanLine s.scan.nextLine s) else .fault .sliceOverArea
  else .next s

/-- An eye's end of scan: slice N − 1 is left, and N − 2 and N − 1 are opened (R131, R133; log 21). -/
def endEye (e : Eye) (s : State) : State :=
  let n := s.store.geometry.slices
  let s := takeOverMark e (openBehind e (n - 2) s)
  (openBehind e (n - 1) s).updScanEye e fun _ => scanEyeAtPowerOn

/-- The end of a scan (R131, step 3). -/
def scanEnd (s : State) : State :=
  (endEye .right (endEye .left s)).updScan fun c => { c with scanning := false, current := none }

/-- The line clock has reached H × LP, the last line formed (R131). -/
def State.scanOver (s : State) : Bool :=
  s.scan.scanning && decide (s.store.geometry.H ≤ s.scan.nextLine) &&
    decide (s.store.geometry.H * s.scan.settings.lp ≤ s.scan.lineClock)

/-- SCAN_END: the line clock reaches H × LP (R131). -/
def execScanEnd (s : State) : Host.Outcome State Fault Refusal := .next (if s.scanOver then scanEnd s else s)

/-- A frame tick starts a scan, or overlaps the one in progress (R130). -/
def frameTick (j : Nat) (s : State) : State :=
  s.updScan fun c =>
    let c := { c with frameNumber := BitVec.ofNat 32 j }
    if c.scanning then { c with overlaps := bump c.overlaps }
    else { c with scanning := true, tickTime := some s.agreedUs, lineClock := 0, nextLine := 0 }

end Sys2Proof.Machine
end

