-- ==== Sys2Proof/Machine/Commands.lean ====
section
/-! DEFINITION. The command unit: arrival, the taking of a command, replies and their delivery (R36 to R40). -/

namespace Sys2Proof.Machine

/-! ### Arrival -/

/-- The argument lengths a command code admits (R37). -/
def admits (code : BitVec 5) (n : Nat) : Bool :=
  match code.toNat with
  | 1 => decide (n ≤ 1)
  | 2 => n == 2
  | 3 => n == 0
  | 4 => n == 1
  | 5 => n == 12
  | 6 => n == 1
  | 7 => n == 0
  | 8 => n == 1
  | 9 => n == 2
  | 10 => decide (n ≤ 2)
  | 11 => n == 0
  | 12 => n == 0
  | _ => true

/-- The command that a COMMAND message carries (R16, R36). -/
def commandOf (rank : Rank) (body : List Byte) (isLocal : Bool) : Command where
  origin := rankOrigin rank
  code := BitVec.ofNat 5 (rankTopic rank)
  tag := byteAt body 1
  args := body.drop 2
  isLocal := isLocal

def countCommandMalformed (s : State) : State := s.updCmd fun u => { u with malformed := bump u.malformed }

/-- A command with good arguments joins the queue, or is dropped (R36, steps 4 and 5). -/
def enqueueCommand (c : Command) (s : State) : State :=
  s.updCmd fun u =>
    if u.queue.length < 8 then { u with queue := u.queue ++ [c] } else { u with drops := bump u.drops }

/-- The destination names this station or every station (R36, step 2). -/
def addressed (s : State) (body : List Byte) : Bool := byteAt body 0 == 255 || (byteAt body 0).toNat == s.straps.node.val

/-- A COMMAND reaches the command unit (R36). -/
def takeCommand (rank : Rank) (body : List Byte) (isLocal : Bool) (s : State) : State :=
  if body.length < 2 ∨ 40 < body.length then countCommandMalformed s
  else if addressed s body then
    let c := commandOf rank body isLocal
    if admits c.code c.args.length then enqueueCommand c s else countCommandMalformed s
  else s

/-! ### Replies -/

/-- What carrying a command out gives: its result, its data and the state after it (R38). -/
structure Answer where
  result : Result
  data : List Byte
  state : State
  deriving DecidableEq, Repr

/-- The body of a reply (R40). -/
def replyBody (c : Command) (r : Result) (data : List Byte) : List Byte :=
  beBytes 1 c.origin.val ++ [c.tag] ++ beBytes 1 r.code ++ data

/-- The rank of a reply (R40). -/
def replyRank (s : State) (c : Command) : Rank := mkRank 7 c.code.toNat s.straps.node

/-- A spine reply: the REPLY slot is loaded, or the reply is discarded and done (R39). -/
def spineReply (c : Command) (body : List Byte) (s : State) : State :=
  if s.loadRefused then replyDone (s.updCmd fun u => { u with discarded := bump u.discarded })
  else loadSlot .reply { rank := replyRank s c, body := body, singleShot := false, loop := false } s

/-- The entry of a local reply (R39; log 25). -/
def localEntry (s : State) (c : Command) (body : List Byte) : QueueEntry where
  rank := replyRank s c
  body := body
  time := receiptTime s.agreed
  restartReply := c.code == restartCode

/-- A local reply: it is stored or overruns, and is done; the stored reply to a RESTART is done when it is freed
(R39). -/
def localReply (c : Command) (body : List Byte) (s : State) : State :=
  let e := localEntry s c body
  let stored := s.intake.fits e
  let s := s.updIntake (·.store e)
  if stored && e.restartReply then s else replyDone s

/-- The reply is delivered by the path its mark names (R39). -/
def deliver (c : Command) (a : Answer) : State :=
  let body := replyBody c a.result a.data
  if c.isLocal then localReply c body a.state else spineReply c body a.state

/-! ### Taking a command -/

/-- The oldest command leaves the queue and the unit is ANSWERING (R38). -/
def beginAnswer (c : Command) (rest : List Command) (s : State) : State :=
  s.updCmd fun u => { u with queue := rest, answering := some c }

/-- The unit is FREE and its oldest command has a code that `is` names: it is carried out and answered (R38). -/
def answerWith (is : BitVec 5 → Bool) (act : Command → State → Answer) (s : State) : State :=
  match s.cmd.answering, s.cmd.queue with
  | none, c :: rest => if is c.code then deliver c (act c (beginAnswer c rest s)) else s
  | none, [] => s
  | some _, _ => s

/-- A command that only a HEADSET carries out; elsewhere NOT HERE (R38). -/
def onHeadset (act : Command → State → Answer) (c : Command) (s : State) : Answer :=
  if s.straps.role = .headset then act c s else { result := .notHere, data := [], state := s }

/-- CLAMPED if an argument was moved, else DONE (R38). -/
def movedResult (moved : Bool) : Result := if moved then .clamped else .done

end Sys2Proof.Machine
end

