-- ==== Sys2Proof/Machine/StatusPages.lean ====
section
/-! DEFINITION. STATUS (R41): the base block and the eight pages, and its meaning. -/

namespace Sys2Proof.Machine

/-- The base block (R41, 12_formats.md). -/
def baseBlock (s : State) : List Byte :=
  beBytes 1 s.loader.life.code ++ beBytes 1 s.spine.standing.code ++ beBytes 1 s.spine.sfc ++ beBytes 1 s.spine.tfc ++
    beBits 2 s.alarms.latched ++ beBytes 1 s.power.step.val ++ beBytes 2 s.power.grant ++
    beBytes 1 s.referenceNode.val ++ [flagByte [s.intake.overrun, s.alertLevel]]

/-- Entries of a page, 2 bytes each (R41). -/
def entries (cs : List Counter) : List Byte := cs.flatMap (beBits 2)

/-- Page 0: spine and commands (R41). -/
def page0 (s : State) : List Byte :=
  let p := s.spine
  entries [p.driveErrors, p.shapeErrors, p.checkErrors, p.echoErrors, p.losses, p.duplicates, s.time.malformed,
    s.laneTx.malformed, s.audio.malformed, s.power.malformed, s.cmd.malformed, s.cmd.drops, s.cmd.discarded]

/-- Page 1: slots and intake (R41). -/
def page1 (s : State) : List Byte :=
  let t := s.slots
  let k := s.intake
  entries [t.alarm.superseded, t.time.superseded, t.credit.superseded, t.pose.superseded, t.audio.superseded,
    t.power.superseded, t.port.superseded, t.refused, k.taken, k.dropped, k.overruns] ++ beBytes 2 k.used

/-- Page 2: agreed time and schedule (R71). -/
def page2 (s : State) : List Byte :=
  let t := s.time
  entries [t.beaconsSent, t.skipped, t.beaconsTaken, t.pairs, t.steps, t.slews, t.refChanges, t.refLosses,
    s.sched.skippedDues]

/-- Page 3: motion (R88). -/
def page3 (s : State) : List Byte :=
  let m := s.motion
  let d := s.dials
  entries [m.good, m.notReady, m.timedOut, m.overlaps, m.zeroed, m.saturated, m.emptyReports, m.failures, d.e0.skips,
    d.e1.skips, d.e0.limitSteps, d.e1.limitSteps]

/-- Page 4 on CONSOLE (R112). -/
def page4Console (s : State) : List Byte :=
  let t := s.laneTx
  entries [t.inputFrames, t.inputShape, t.untagged, t.tagsRefused, t.slicesQueued, t.slicesDropped, t.framesDropped,
    t.voidsSent, t.slicesSent, t.creditsTaken, t.resyncs, t.flushed, t.laneDowns]

/-- Page 4 on HEADSET (R112). -/
def page4Headset (s : State) : List Byte :=
  let r := s.laneRx
  entries [r.packetsTaken, r.voidsTaken, r.voided, r.headerDiscards, r.overruns, r.creditLoads, r.laneDowns,
    r.eyes.left.accepted, r.eyes.left.horizon, r.eyes.right.accepted, r.eyes.right.horizon] ++ beBits 2 r.epoch

/-- Page 5: slice store and scan (R127, R144). -/
def page5 (s : State) : List Byte :=
  let k := s.store
  let c := s.scan
  entries [k.pixelWrites, k.voidKeeps, k.checkFailures, k.writesCut, k.fixedDiscards, k.mapFaults, k.captures,
    c.overlaps, c.staleShows, c.lateShows, c.unmatched, c.clamped, c.overtaken]

/-- Page 6: audio (R160). In entry 12 the stream state is the first byte and the origin or 255 the second (log 55). -/
def page6 (s : State) : List Byte :=
  let a := s.audio
  entries [a.taken, a.foreign, a.late, a.early, a.old, a.gaps, a.resyncs, a.overflows, a.slips, a.underruns,
    a.captureOverruns] ++ beBytes 1 a.state.code ++ beBytes 1 ((a.origin.map (·.val)).getD 255) ++
    beBytes 2 a.ring.length

/-- Page 7: power (R175). -/
def page7 (s : State) : List Byte :=
  let p := s.power
  entries [p.taken, p.expired, p.holdoversBegun, p.holdoversEnded, p.stepFalls, p.stepRises, p.yellowEvents,
    p.redEvents, p.meterFailures, p.meterOverlaps] ++ beBytes 2 p.load ++ beBytes 2 (min p.pool 65535) ++
    beBytes 2 (min (sumOver s.freshEntries (·.grant)) 65535)

/-- A page of the role, or none where the role lacks its job (R41). -/
def statusPage (s : State) (n : Nat) : Option (List Byte) :=
  match n with
  | 0 => some (page0 s)
  | 1 => some (page1 s)
  | 2 => some (page2 s)
  | 3 => if s.straps.role = .headset then some (page3 s) else none
  | 4 =>
    match s.straps.role with
    | .console => some (page4Console s)
    | .headset => some (page4Headset s)
    | .supply => none
  | 5 => if s.straps.role = .headset then some (page5 s) else none
  | 6 => if s.straps.role = .headset then some (page6 s) else none
  | _ => some (page7 s)

/-- STATUS is carried out (R41). -/
def answerStatus (c : Command) (s : State) : Answer :=
  let page := (byteAt c.args 0).toNat
  match statusPage s (min page 7) with
  | none => { result := .notHere, data := baseBlock s, state := s }
  | some entries => { result := movedResult (decide (7 < page)), data := baseBlock s ++ entries, state := s }

/-- STATUS: the command unit takes STATUS (R38, R41). -/
def execStatus (s : State) : Host.Outcome State Fault Refusal := .next (answerWith (· == 1) answerStatus s)

end Sys2Proof.Machine
end

