-- ==== Sys2Proof/Machine/CommandSet.lean ====
section
/-! DEFINITION. The command unit's other commands (R35, R52, R71, R86, R87, R94, R123, R126, R156, R158, R178). -/

namespace Sys2Proof.Machine

/-! ### CLEAR ALARM -/

/-- CLEAR ALARM is carried out (R52). -/
def answerClearAlarm (c : Command) (s : State) : Answer :=
  let mask := fieldAt c.args 0 2
  let after := s.updAlarms (·.cleared (BitVec.ofNat 12 mask))
  { result := movedResult (decide (4096 ≤ mask))
    data := beBits 2 s.alarms.latched ++ beBits 2 after.alarms.latched
    state := after }

/-- CLEAR_ALARM: the command unit takes CLEAR ALARM (R52). -/
def execClearAlarm (s : State) : Host.Outcome State Fault Refusal := .next (answerWith (· == 2) answerClearAlarm s)

/-! ### Motion -/

def DialState.clearLimit (d : DialState) : DialState := { d with limit := false }

/-- HOLD ENCODERS is carried out (R94; log 46 for the bits of the flags byte that the format leaves unused). -/
def answerHoldEncoders (_c : Command) (s : State) : Answer :=
  let d := s.dials
  { result := .done
    data := beInt 2 d.e0.count ++ beInt 2 d.e1.count ++ beBits 2 d.e0.skips ++ beBits 2 d.e1.skips ++
      [flagByte [d.e0.limit, d.e1.limit]]
    state := s.updDials fun d => { d with e0 := d.e0.clearLimit, e1 := d.e1.clearLimit } }

/-- HOLD_ENCODERS: the command unit takes HOLD ENCODERS (R94). -/
def execHoldEncoders (s : State) : Host.Outcome State Fault Refusal :=
  .next (answerWith (· == 3) (onHeadset answerHoldEncoders) s)

/-- A record as READ SAMPLES returns it (R87). -/
def sampleBytes (r : SampleRecord) : List Byte :=
  beBits 2 r.gyro.yaw ++ beBits 2 r.gyro.pitch ++ beBits 2 r.gyro.roll ++
    beBits 2 r.accel.yaw ++ beBits 2 r.accel.pitch ++ beBits 2 r.accel.roll

/-- The summary byte: the number of records, and their held flags newest first from bit 4 (R87, 12_formats.md). The bits
between and above, and the held bits of records not returned, are 0 (log 46). -/
def sampleSummary (rs : List SampleRecord) : Byte :=
  BitVec.ofNat 8 (rs.length + 16 * (flagByte (rs.map (·.held))).toNat)

/-- READ SAMPLES is carried out (R87). -/
def answerReadSamples (c : Command) (s : State) : Answer :=
  let asked := (byteAt c.args 0).toNat
  let count := clampNat asked 1 3
  let records := s.motion.ring.reverse.take count
  { result := if records.isEmpty then .empty else movedResult (decide (asked ≠ count))
    data := [sampleSummary records] ++ records.flatMap sampleBytes
    state := s }

/-- READ_SAMPLES: the command unit takes READ SAMPLES (R87). -/
def execReadSamples (s : State) : Host.Outcome State Fault Refusal :=
  .next (answerWith (· == 4) (onHeadset answerReadSamples) s)

/-- The corrections of ALIGN POSE (R86). -/
def corrections (args : List Byte) : Axes (BitVec 32) where
  yaw := BitVec.ofNat 32 (fieldAt args 0 4)
  pitch := BitVec.ofNat 32 (fieldAt args 4 4)
  roll := BitVec.ofNat 32 (fieldAt args 8 4)

def addAngles (a c : Axes (BitVec 32)) : Axes (BitVec 32) := a.zip (· + ·) c

/-- The accumulators and every history entry move by the corrections (R86). -/
def Motion.align (m : Motion) (c : Axes (BitVec 32)) : Motion :=
  { m with acc := addAngles m.acc c, history := m.history.map fun p => { p with angles := addAngles p.angles c } }

/-- The sequence of the newest entry, or 65535 with an empty history (R86). -/
def Motion.newestSequence (m : Motion) : BitVec 16 := (m.newest.map (·.sequence)).getD 65535

/-- ALIGN POSE is carried out (R86). -/
def answerAlignPose (c : Command) (s : State) : Answer :=
  let after := s.updMotion (·.align (corrections c.args))
  let m := after.motion
  { result := .done
    data := beBits 4 m.acc.yaw ++ beBits 4 m.acc.pitch ++ beBits 4 m.acc.roll ++ beBits 2 m.newestSequence
    state := after }

/-- ALIGN_POSE: the command unit takes ALIGN POSE (R86). -/
def execAlignPose (s : State) : Host.Outcome State Fault Refusal :=
  .next (answerWith (· == 5) (onHeadset answerAlignPose) s)

/-! ### Slice store -/

def Band.clearFlags (b : Band) : Band := { b with written := false, stale := false }

/-- READ BANDS is carried out (R126). -/
def answerReadBands (c : Command) (s : State) : Answer :=
  let arg := byteAt c.args 0
  let e : Eye := if arg = 0 then .left else .right
  let bands := s.store.bands.get e
  { result := movedResult (decide (1 < arg.toNat))
    data := [bandBits (·.written) bands, bandBits (·.stale) bands] ++ beBytes 2 (accessBits bands)
    state := s.updStore fun k => { k with bands := k.bands.put e (bands.map (·.clearFlags)) } }

/-- READ_BANDS: the command unit takes READ BANDS (R126). -/
def execReadBands (s : State) : Host.Outcome State Fault Refusal :=
  .next (answerWith (· == 6) (onHeadset answerReadBands) s)

/-- A capture record as CLEAR MAP FAULT returns it (R123, 12_formats.md). -/
def mapFaultBytes (f : MapFault) : List Byte :=
  beBytes 1 f.kind.code ++ beBytes 1 (Eye.code f.eye) ++ [f.index] ++ beBits 4 f.tag.target ++ beBits 2 f.tag.pose ++
    beBytes 1 (bit f.tag.present) ++ beBytes 6 f.time ++ beBits 2 f.later

/-- CLEAR MAP FAULT is carried out (R123). -/
def answerClearMapFault (_c : Command) (s : State) : Answer :=
  match s.store.fault with
  | none => { result := .empty, data := [], state := s }
  | some f =>
    { result := .done, data := mapFaultBytes f, state := s.updStore fun k => { k with fault := none } }

/-- CLEAR_MAP_FAULT: the command unit takes CLEAR MAP FAULT (R123). -/
def execClearMapFault (s : State) : Host.Outcome State Fault Refusal :=
  .next (answerWith (· == 7) (onHeadset answerClearMapFault) s)

/-! ### Audio -/

/-- The switch is set (R158). -/
def setCapture (on : Bool) (s : State) : State :=
  if on = s.audio.capture.switch then s
  else if on then
    let s := s.updCapture fun c => { c with switch := true }
    if s.inService then s.updCapture (·.start) else s
  else s.updCapture fun c => { c with switch := false : Capture }.discard

/-- CAPTURE is carried out (R158). -/
def answerCapture (c : Command) (s : State) : Answer :=
  let arg := byteAt c.args 0
  let after := setCapture (decide (arg ≠ 0)) s
  let k := after.audio.capture
  { result := movedResult (decide (1 < arg.toNat))
    data := beBytes 1 (bit s.audio.capture.switch) ++ beBytes 1 (bit after.capturing) ++ beBits 1 k.sequence ++
      beBits 2 k.blocks
    state := after }

/-- CAPTURE: the command unit takes CAPTURE (R158). -/
def execCapture (s : State) : Host.Outcome State Fault Refusal :=
  .next (answerWith (· == 8) (onHeadset answerCapture) s)

/-- SET GAIN is carried out (R156). -/
def answerSetGain (c : Command) (s : State) : Answer :=
  let arg := fieldAt c.args 0 2
  let after := s.updAudio fun a => { a with gain := min arg 256 }
  { result := movedResult (decide (256 < arg))
    data := beBytes 2 after.audio.gain ++ beBytes 2 after.outputGain
    state := after }

/-- SET_GAIN: the command unit takes SET GAIN (R156). -/
def execSetGain (s : State) : Host.Outcome State Fault Refusal :=
  .next (answerWith (· == 9) (onHeadset answerSetGain) s)

/-! ### READ QUEUE -/

/-- The flags byte of a READ QUEUE reply (R35, 12_formats.md). -/
def readFlags (s : State) (more : Bool) : Byte := flagByte [s.intake.overrun, more]

/-- The head entry is freed (R35). -/
def freeHead (e : QueueEntry) (rest : List QueueEntry) (s : State) : State :=
  entryFreed e (s.updIntake fun k => { k with queue := rest, split := false })

/-- Part 0 of READ QUEUE on a head entry (R35). -/
def readFirst (e : QueueEntry) (rest : List QueueEntry) (s : State) : Answer :=
  let more := decide (32 < e.body.length)
  { result := .done
    data := headBytes e ++ [readFlags s more] ++ e.body.take 32
    state := if more then s.updIntake fun k => { k with split := true } else freeHead e rest s }

/-- READ QUEUE finds nothing to return (R35; log 37). -/
def readNothing (s : State) : Answer := { result := .empty, data := [readFlags s false], state := s }

/-- Part 1 of READ QUEUE on a head entry (R35). -/
def readSecond (e : QueueEntry) (rest : List QueueEntry) (s : State) : Answer :=
  if s.intake.split then
    { result := .done, data := headBytes e ++ [readFlags s false] ++ e.body.drop 32, state := freeHead e rest s }
  else readNothing s

/-- One part of READ QUEUE (R35). -/
def readPart (part : Bool) (s : State) : Answer :=
  match s.intake.queue with
  | [] => readNothing s
  | e :: rest => if part then readSecond e rest s else readFirst e rest s

/-- CLAMPED where an argument was moved, unless EMPTY (R35). -/
def clampedUnlessEmpty (moved : Bool) (r : Result) : Result := if moved ∧ r ≠ .empty then .clamped else r

/-- READ QUEUE is carried out (R35). -/
def answerReadQueue (c : Command) (s : State) : Answer :=
  let part := byteAt c.args 0
  let clear := byteAt c.args 1
  let a := readPart (decide (part ≠ 0)) s
  { result := clampedUnlessEmpty (decide (1 < part.toNat ∨ 1 < clear.toNat)) a.result
    data := a.data
    state := if clear = 0 then a.state else a.state.updIntake fun k => { k with overrun := false } }

/-- READ_QUEUE: the command unit takes READ QUEUE (R35). -/
def execReadQueue (s : State) : Host.Outcome State Fault Refusal := .next (answerWith (· == 10) answerReadQueue s)

/-! ### RESTART, READ TIME and unknown codes -/

/-- RESTART is carried out when its reply is done (R39, R178). -/
def answerRestart (_c : Command) (s : State) : Answer := { result := .done, data := [], state := s }

/-- RESTART: the command unit takes RESTART (R38, R39). -/
def execRestart (s : State) : Host.Outcome State Fault Refusal := .next (answerWith (· == 11) answerRestart s)

/-- µs since the reference's record was last heard, the difference of the two times rounded down to whole µs, saturating;
0 on its own (R71; log 45). -/
def referenceAge (s : State) : Nat :=
  match s.time.reference with
  | none => 0
  | some o =>
    match s.time.table[o] with
    | none => 0
    | some r => min (((s.agreed : Int) - r.lastHeard) / 16).toNat (2 ^ 32 - 1)

/-- The reference node in the reference's last beacon; the own node on its own (R71). -/
def referenceOfReference (s : State) : Node :=
  match s.time.reference with
  | none => s.straps.node
  | some o =>
    match s.time.table[o] with
    | none => s.straps.node
    | some r => r.carriedRef

/-- One mark per origin whose record is fresh (R71). -/
def freshMask (s : State) : Byte := flagByte (allNodes.map fun o => (s.freshRecord o).isSome)

/-- The display frame number of the role (R71, R77). -/
def displayFrame (s : State) : BitVec 32 :=
  match s.straps.role with
  | .headset => s.scan.frameNumber
  | .console => s.laneTx.frameNumber
  | .supply => 0

/-- READ TIME is carried out (R71). -/
def answerReadTime (_c : Command) (s : State) : Answer :=
  { result := .done
    data := beBytes 6 s.agreedUs ++ beBytes 1 (s.agreed % 16) ++ beInt 5 s.time.slew ++
      beBytes 1 s.referenceNode.val ++
      [flagByte [s.time.reference.isSome, s.time.corrected, has s.alarms.present .timelost,
        s.loader.life == .listening]] ++
      beBytes 4 (referenceAge s) ++ beBytes 1 (referenceOfReference s).val ++ [freshMask s] ++
      beBits 4 (displayFrame s)
    state := s }

/-- READ_TIME: the command unit takes READ TIME (R71). -/
def execReadTime (s : State) : Host.Outcome State Fault Refusal := .next (answerWith (· == 12) answerReadTime s)

/-- The codes that no command has (R37). -/
def isUnknown (code : BitVec 5) : Bool := code == 0 || decide (13 ≤ code.toNat)

def answerUnknown (_c : Command) (s : State) : Answer := { result := .unknown, data := [], state := s }

/-- UNKNOWN_COMMAND: a command with code 0 or 13 to 31 is answered UNKNOWN (R37, R38). -/
def execUnknownCommand (s : State) : Host.Outcome State Fault Refusal := .next (answerWith isUnknown answerUnknown s)

end Sys2Proof.Machine
end

