-- ==== Sys2Proof/Machine/Routing.lean ====
section
/-! DEFINITION. The hand-over of a taken or looped message to the intake table, the queue and the units (R16, R28, R30). -/

namespace Sys2Proof.Machine

/-- A message handed to the intake (R14, R28): its agreed time at the start bit, as read then and as moved by the
corrections since, and whether it came by loop. -/
structure Arrival where
  rank : Rank
  body : List Byte
  start : Nat
  startMoved : Int
  looped : Bool
  deriving DecidableEq, Repr

/-- The units that take messages (R16). -/
inductive TakingUnit
  | time | lane | audio | power | command
  deriving DecidableEq, Repr

/-- The unit for a class, and topic, in a role (R30). -/
def unitFor (role : Role) (rank : Rank) : Option TakingUnit :=
  match rankClass rank with
  | 1 => some .time
  | 2 => if role = .console then some .lane else none
  | 4 => if role = .headset ∧ rankTopic rank = 0 then some .audio else none
  | 5 => some .power
  | 6 => some .command
  | _ => none

/-- A message is handed to a unit (R30). -/
def handTo (u : TakingUnit) (m : Arrival) (s : State) : State :=
  match u with
  | .time => takeTime m.rank m.body m.startMoved s
  | .lane => takeCredit m.rank m.body s
  | .audio => takeAudio m.rank m.body s
  | .power => takePower m.rank m.body s
  | .command => takeCommand m.rank m.body m.looped s

def arrivalEntry (m : Arrival) : QueueEntry :=
  { rank := m.rank, body := m.body, time := receiptTime m.start, restartReply := false }

/-- A message is stored in the intake queue, if it fits (R33). -/
def storeArrival (m : Arrival) (s : State) : State := s.updIntake (·.store (arrivalEntry m))

def countDropped (s : State) : State := s.updIntake fun k => { k with dropped := bump k.dropped }

/-- A message goes to a destination; where the role has no unit, UNIT acts as DROP and BOTH as QUEUE (R30). -/
def deliverTo (d : Destination) (u : Option TakingUnit) (m : Arrival) (s : State) : State :=
  match d, u with
  | .queue, _ => storeArrival m s
  | .unit, some u => handTo u m s
  | .unit, none => countDropped s
  | .both, some u => handTo u m (storeArrival m s)
  | .both, none => storeArrival m s
  | .drop, _ => countDropped s

/-- A message is handed to the intake (R30). -/
def routeMessage (m : Arrival) (s : State) : State :=
  let s := s.updIntake fun k => { k with taken := bump k.taken }
  deliverTo (s.intake.destination m.rank) (unitFor s.straps.role m.rank) m s

end Sys2Proof.Machine
end

