-- ==== Sys2Proof/Machine/SpineControl.lean ====
section
/-! DEFINITION. The spine controller: quiet runs, starts, arbitration, errors, ends, takes, the fault counts and the
standing (R2 to R19, R42 to R46), with the meanings of its eight commands. -/

namespace Sys2Proof.Machine

/-! ### Standing -/

/-- The standing that the counts give (R44). -/
def standingOf (sfc tfc level : Nat) : Standing :=
  if 128 ≤ sfc ∨ 128 ≤ tfc then .muted else if level ≤ sfc ∨ level ≤ tfc then .strained else .open

/-- The standing is taken afresh from the counts; leaving OPEN latches STRAIN (R44). -/
def settleStanding (s : State) : State :=
  let p := s.spine
  let new := standingOf p.sfc p.tfc p.strain
  match p.standing with
  | .cut => s
  | .open =>
    let s := s.updSpine fun p => { p with standing := new }
    if new = .open then s else latch .strain s
  | .strained => s.updSpine fun p => { p with standing := new }
  | .muted => s.updSpine fun p => { p with standing := new }

/-- The spoil that a standing drives (R12). -/
def spoilOf (standing : Standing) : SpineDrive :=
  match standing with
  | .open => .spoil
  | .strained => .spoil
  | .muted => .recessiveSpoil
  | .cut => .undriven

/-- The station drives its spoil (R12). -/
def driveSpoil (s : State) : State := s.updSpine fun p => { p with drive := spoilOf p.standing }

/-- A message has ended for the station; `own` if it was still the sender (R7). -/
def Spine.ended (p : Spine) (own : Bool) : Spine :=
  { p with tx := none, receiving := false, quietRuns := 0, lastOwn := own, drive := .undriven }

/-! ### Quiet runs and rejoin -/

/-- A CUT station rejoins (R46); in RUNNING that is a return to service (R47). -/
def rejoin (s : State) : State :=
  let s := s.updSpine fun p => { p with standing := .open, sfc := 0, tfc := 0 }
  if s.loader.life = .running then returnToService s else s

/-- The spine is between messages for a station out of LOADING (R2, R7). -/
def State.betweenMessages (s : State) : Bool :=
  s.loader.life != .loading && s.spine.tx.isNone && !s.spine.receiving

/-- The quiet runs since the last driven bit time once another is complete; `driven` if a driven bit time came before
its ten (R7; log 3). -/
def Spine.runsAfter (p : Spine) (driven : Bool) : Nat := if driven then 1 else min (p.quietRuns + 1) 2

/-- A quiet run is complete (R7); it lowers the rejoin countdown of a CUT station (R46). -/
def quietRun (driven : Bool) (s : State) : State :=
  let s := s.updSpine fun p => { p with synced := true, quietRuns := p.runsAfter driven, drive := .undriven }
  if s.spine.standing = .cut then
    if s.spine.sfc ≤ 1 then rejoin s else s.updSpine fun p => { p with sfc := p.sfc - 1 }
  else s

/-- QUIET_RUN: ten undriven bit times are complete (R7, R46; log 8). -/
def execQuietRun (s : State) (driven : Bool := false) : Host.Outcome State Fault Refusal :=
  .next (if s.betweenMessages then quietRun driven s else s)

/-- REJOIN: the quiet run that brings the rejoin countdown to 0 (R46; log 8). -/
def execRejoin (s : State) (driven : Bool := false) : Host.Outcome State Fault Refusal :=
  .next (if s.betweenMessages && s.spine.standing == .cut && decide (s.spine.sfc ≤ 1) then quietRun driven s else s)

/-! ### Starts -/

/-- A MUTED station whose own message was the last must see 18 undriven bit times (R7; log 3). -/
def Spine.waited (p : Spine) (further : Nat) : Bool :=
  decide (1 ≤ p.quietRuns) &&
    (!(p.standing == .muted && p.lastOwn) || decide (18 ≤ 10 * p.quietRuns + further))

/-- The station may begin a message (R7, R8). -/
def State.mayStart (s : State) (further : Nat) : Bool :=
  s.inService && s.betweenMessages && s.spine.waited further

/-- The message of a slot's content, begun now (R5, R6, R8, R14). -/
def transmissionOf (s : State) (n : SlotName) : Transmission :=
  let c := (s.slot n).content
  { slot := n
    rank := c.rank
    body := c.body
    check := spineCheck c.rank c.body
    loop := c.loop
    start := s.agreed
    startMoved := s.agreed }

/-- The selected slot becomes SENDING and its message is on the spine (R8, R23). -/
def startMessage (n : SlotName) (s : State) : State :=
  let x := transmissionOf s n
  (s.updSlot n (·.select)).updSpine fun p =>
    { p with tx := some x, quietRuns := 0, drive := .message }

/-- The station starts its PENDING slot of lowest rank, if it may begin (R8). -/
def spineStart (further : Nat) (s : State) : State :=
  if s.mayStart further then
    match s.slots.pick with
    | none => s
    | some n => startMessage n s
  else s

/-- A driven bit time between messages: the count restarts at 0, and no start follows before a quiet run (R7; log 3). -/
def drivenBit (s : State) : State := if s.betweenMessages then s.updSpine fun p => { p with quietRuns := 0 } else s

/-- SPINE_START: the station starts its PENDING slot of lowest rank (R8), unless a driven bit time has come since the
last quiet run (R7). -/
def execSpineStart (further : Nat) (s : State) (driven : Bool := false) : Host.Outcome State Fault Refusal :=
  .next (if driven then drivenBit s else spineStart further s)

/-! ### Ends without SENT -/

/-- The outcome of a slot, if it has one, goes to its owner; only the PORT slot has one here (R24, R26, R27). -/
def handOutcome (n : SlotName) (o : Option SendOutcome) (attempts : BitVec 8) (s : State) : State :=
  match n, o with
  | .port, some o => pushOutcome o attempts s
  | _, _ => s

/-- A slot's send ends without SENT (R24, R27). -/
def endUnsent (n : SlotName) (o : SendOutcome) (s : State) : State :=
  let sl := s.slot n
  handOutcome n (sl.endUnsent o).2 sl.attempts (s.updSlot n fun sl => (sl.endUnsent o).1)

/-- The station loses arbitration and receives the rest of the message (R9). -/
def loseArbitration (x : Transmission) (s : State) : State :=
  endUnsent x.slot .lost (s.updSpine fun p =>
    { p with tx := none, receiving := true, drive := .undriven, losses := bump p.losses })

/-- ARBITRATION_LOSS: a sender loses in the rank (R9). -/
def execArbitrationLoss (s : State) : Host.Outcome State Fault Refusal :=
  match s.spine.tx with
  | none => .next s
  | some x => .next (loseArbitration x s)

/-- A send error is counted by its kind (R15). -/
def Spine.countSendError (p : Spine) (k : SendErrorKind) : Spine :=
  match k with
  | .drive => { p with driveErrors := bump p.driveErrors }
  | .shape => { p with shapeErrors := bump p.shapeErrors }
  | .echo => { p with echoErrors := bump p.echoErrors }

/-- The station enters CUT (R45). -/
def enterCut (s : State) : State :=
  let s := clearSlots (s.updSpine fun p => { p.ended true with standing := .cut, tfc := 0, sfc := 64 })
  leaveService (latch .cut s)

/-- What a send error adds to the send fault count (R42). -/
def errorWeight (k : SendErrorKind) (standing : Standing) : Nat :=
  match k, standing with
  | .echo, .muted => 0
  | .echo, _ => 8
  | .drive, _ => 8
  | .shape, _ => 8

/-- A send error that does not lead to CUT (R10, R42, R44). -/
def failSend (x : Transmission) (weight : Nat) (s : State) : State :=
  let s := settleStanding (s.updSpine fun p => { p.ended true with sfc := p.sfc + weight })
  endUnsent x.slot .failed (driveSpoil s)

/-- A sender classes an error (R10, R42, R45; log 13). -/
def sendError (k : SendErrorKind) (x : Transmission) (s : State) : State :=
  let weight := errorWeight k s.spine.standing
  let s := s.updSpine (·.countSendError k)
  if 255 < s.spine.sfc + weight then enterCut s else failSend x weight s

/-- SEND_ERROR: a sender classes DRIVE, SHAPE or ECHO (R10). -/
def execSendError (k : SendErrorKind) (s : State) : Host.Outcome State Fault Refusal :=
  match s.spine.tx with
  | none => .next s
  | some x => .next (sendError k x s)

/-! ### Receiver errors -/

/-- The station receives messages and classes errors (R2). -/
def State.receives (s : State) : Bool :=
  s.loader.life != .loading && s.spine.standing != .cut && s.spine.tx.isNone && s.spine.synced

def Spine.countReceiveError (p : Spine) (k : ReceiveErrorKind) : Spine :=
  match k with
  | .shape => { p with shapeErrors := bump p.shapeErrors }
  | .check => { p with checkErrors := bump p.checkErrors }

/-- A receiver classes an error; the standing is taken afresh before the spoil is set (R11, R12, R43, R44; log 13). -/
def receiveError (k : ReceiveErrorKind) (s : State) : State :=
  driveSpoil (settleStanding (s.updSpine fun p =>
    { (p.ended false).countReceiveError k with tfc := min (p.tfc + 1) 255 }))

/-- RECEIVE_ERROR: a receiver classes SHAPE or CHECK (R11). -/
def execReceiveError (k : ReceiveErrorKind) (s : State) : Host.Outcome State Fault Refusal :=
  .next (if s.receives then receiveError k s else s)

/-! ### An own message ends well -/

/-- The owner of a slot is handed SENT (R26). -/
def slotSent (x : Transmission) (attempts : BitVec 8) (s : State) : State :=
  match x.slot with
  | .alarm => alarmSent x.body s
  | .time => beaconSent x.startMoved s
  | .credit => s
  | .pose => s
  | .audio => s
  | .power => s
  | .reply => replyDone s
  | .port => pushOutcome .sent attempts s

/-- The looped message as it reaches the intake (R28). -/
def loopArrival (x : Transmission) : Arrival :=
  { rank := x.rank, body := x.body, start := x.start, startMoved := x.startMoved, looped := true }

/-- An own message ends well (R14, R24, R42). -/
def sendEnd (x : Transmission) (s : State) : State :=
  let attempts := (s.slot x.slot).attempts
  let s := slotSent x attempts ((s.updSlot x.slot (·.finish)).updSpine (·.ended true))
  let s := settleStanding (s.updSpine fun p => { p with sfc := p.sfc - 1 })
  if x.loop then routeMessage (loopArrival x) s else s

/-- SEND_END: an own message ends well (R14). -/
def execSendEnd (s : State) : Host.Outcome State Fault Refusal :=
  match s.spine.tx with
  | none => .next s
  | some x => .next (sendEnd x s)

/-! ### A message is taken -/

/-- The take fault count after a good receipt (R43). -/
def goodReceipt (tfc : Nat) : Nat := if 128 ≤ tfc then 112 else tfc - 1

/-- The station withdraws to LISTENING (R19; log 14). -/
def withdraw (s : State) : State :=
  let s := clearSlots (s.updLoader fun l => { l with life := .listening })
  refreshLane (leaveService (s.updTime fun t => { t with timer := some s.agreed }))

/-- A message of the station's own origin is taken (R18, R19). -/
def duplicateNode (s : State) : State :=
  let running := s.loader.life = .running
  let s := arise .dupnode (s.updSpine fun p => { p with duplicates := bump p.duplicates })
  if running then withdraw s else s

/-- The bit time of a rate, in ns (01, Stations on the spine). -/
def bitTime (r : Rate) : Nat :=
  match r with
  | .mbit12 => 80
  | .mbit25 => 40

/-- How many microseconds have begun since the start bit of a message that ends now: it took 42 + 8 × L bit times from
its first bit to its last (R5), in which that many fit whole, and one more if it lay so (R14; log 4). -/
def startAge (r : Rate) (m : Received) : Nat := (42 + 8 * m.body.length) * bitTime r / 1000 + bit m.extra

/-- Agreed time as it was read `age` microseconds ago; none is held of before power-on or restart (R14; log 4). -/
def State.readingAt (s : State) (age : Nat) : TimeReading :=
  s.time.readings.getD (age - 1) { read := s.agreed, offset := s.time.offset }

/-- A received message with the station's own agreed time at its start bit, as read and as moved by the corrections
since (R14, R61). -/
def takenArrival (m : Received) (s : State) : Arrival :=
  let r := s.readingAt (startAge s.straps.rate m)
  { rank := m.rank
    body := m.body
    start := r.read
    startMoved := (r.read : Int) + (s.time.offset - r.offset)
    looped := false }

/-- The end run is over without an error: the message is taken (R13, R14, R43). -/
def messageTaken (m : Received) (s : State) : State :=
  let s := settleStanding (s.updSpine fun p =>
    { p.ended false with tfc := goodReceipt p.tfc, drive := .echo })
  if rankOrigin m.rank = s.straps.node then duplicateNode s else routeMessage (takenArrival m s) s

/-- What the receiver makes of a message that ended well shaped: a length above 40 is SHAPE, a wrong check is CHECK
(R11; log 4). -/
def receiveMessage (m : Received) (s : State) : State :=
  if 40 < m.body.length then receiveError .shape s
  else if m.check = spineCheck m.rank m.body then messageTaken m s
  else receiveError .check s

/-- MESSAGE_TAKEN: a receiver reaches the end of the end run (R14). -/
def execMessageTaken (m : Received) (s : State) : Host.Outcome State Fault Refusal :=
  .next (if s.receives then receiveMessage m s else s)

end Sys2Proof.Machine
end

