-- ==== Sys2Proof/Machine/Port.lean ====
section
/-! DEFINITION. The local port of a CONSOLE: incoming and outgoing records (R27, R34, R97, R179 to R183), with the
meanings of SEND, ABORT, TAG, ACK, PORT_ERROR, OUTGOING_RECORD_START and OUTGOING_RECORD_END. -/

namespace Sys2Proof.Machine

/-- The local port takes an incoming record (R179). -/
def State.portReady (s : State) : Bool := s.consoleActive && decide (s.port.outcomes.length < 4)

/-- A record that cannot be read whole is counted (R179). -/
def countPortError (s : State) : State := s.updPort fun p => { p with errors := bump p.errors }

/-- PORT_ERROR: an incoming record is discarded (R179). -/
def execPortError (s : State) : Host.Outcome State Fault Refusal := .next (if s.portReady then countPortError s else s)

/-- A BUSY answer (R181, R182). Its attempt count is 0 (log 52). -/
def answerBusy (c : BusyCause) (s : State) : State :=
  pushOutcome (.busy c) 0 (s.updPort fun p => { p with busy := bump p.busy })

/-! ### SEND -/

/-- The record's length field and contents do not fit (12_formats.md, Local port records). -/
def sendMalformed (r : SendRecord) : Bool := r.length.toNat != r.body.length || decide (40 < r.body.length)

/-- The rank of a record; one above 4095 is free (log 12). -/
def sendRank (r : SendRecord) (free : BitVec 48) : Rank :=
  if r.rank.toNat < 4096 then r.rank.setWidth 12 else free.setWidth 12

/-- The message is a command for the console's own node (R180). -/
def isDirect (rank : Rank) (body : List Byte) (n : Node) : Bool :=
  rankClass rank == 6 && !body.isEmpty && (byteAt body 0).toNat == n.val

/-- Direct delivery to the command unit (R180; log 38). -/
def deliverDirect (rank : Rank) (body : List Byte) (s : State) : State :=
  if 8 ≤ s.cmd.queue.length then answerBusy .queue s else pushOutcome .sent 0 (takeCommand rank body true s)

/-- The content a SEND record gives the PORT slot (R5, R180). -/
def portContent (r : SendRecord) (rank : Rank) (n : Node) : Content :=
  { rank := withOrigin rank n, body := r.body, singleShot := r.flags.getLsbD 0, loop := r.flags.getLsbD 1 }

/-- A SEND through the PORT slot (R180). -/
def sendThroughPort (r : SendRecord) (rank : Rank) (s : State) : State :=
  let sl := s.slots.port
  if s.loadRefused then answerBusy .refused (countRefused .port s)
  else if sl.state = .sending ∧ sl.held.isSome then answerBusy .held s
  else loadSlot .port (portContent r rank s.straps.node) s

/-- A well-formed SEND record (R180). -/
def sendRecord (r : SendRecord) (s : State) : State :=
  let rank := sendRank r (Config.freeValue s.free)
  let s := if r.rank.toNat < 4096 then s else s.useFree
  if isDirect rank r.body s.straps.node then deliverDirect rank r.body s else sendThroughPort r rank s

/-- SEND: a SEND record arrives (R180). -/
def execSend (r : SendRecord) (s : State) : Host.Outcome State Fault Refusal :=
  .next (if s.portReady then if sendMalformed r then countPortError s else sendRecord r s else s)

/-! ### ABORT, TAG and ACK -/

/-- An ABORT acts on the PORT slot (R27). -/
def abortPort (s : State) : State :=
  let sl := s.slots.port
  match sl.state with
  | .empty => s
  | .pending => pushOutcome .aborted sl.attempts (s.updSlot .port (·.clear))
  | .sending => s.updSlot .port fun sl => { sl with held := none, abortMark := true }

/-- ABORT: an ABORT record arrives (R27, R181). -/
def execAbort (s : State) : Host.Outcome State Fault Refusal := .next (if s.portReady then abortPort s else s)

/-- A tag joins the tag queue, or is refused (R97, R181). -/
def placeTag (t : FrameTag) (s : State) : State :=
  if s.laneTx.tags.length < 4 then s.updLaneTx fun x => { x with tags := x.tags ++ [t] }
  else answerBusy .tags (s.updLaneTx fun x => { x with tagsRefused := bump x.tagsRefused })

/-- TAG: a TAG record arrives (R97, R181). -/
def execTag (t : FrameTag) (s : State) : Host.Outcome State Fault Refusal :=
  .next (if s.portReady then placeTag t s else s)

/-- ACK: an ACK record clears the intake overrun flag (R33, R181). -/
def execAck (s : State) : Host.Outcome State Fault Refusal :=
  .next (if s.portReady then s.updIntake fun k => { k with overrun := false } else s)

/-! ### PORT STATUS -/

/-- The contents of a PORT STATUS record (R183, 12_formats.md). -/
def portStatusBytes (s : State) : List Byte :=
  beBytes 1 s.loader.life.code ++ beBytes 1 s.spine.standing.code ++ beBits 2 s.loader.epoch ++
    [flagByte [s.alertLevel, s.intake.overrun]] ++ beBytes 2 s.laneTx.eyes.left.window ++
    beBytes 2 s.laneTx.eyes.right.window ++ beBytes 1 s.laneTx.tags.length ++ beBytes 2 s.intake.used ++
    entries [s.intake.dropped, s.intake.overruns, s.laneTx.slicesFormed, s.laneTx.slicesDropped,
      s.laneTx.framesDropped, s.port.errors, s.port.busy]

/-- A PORT STATUS is formed; it replaces one that waits (R182, R183). -/
def formPortStatus (s : State) : State := s.updPort fun p => { p with status := some (portStatusBytes s) }

/-! ### The outgoing link -/

def OutKind.code : OutKind → Nat
  | .message => 8
  | .outcome => 9
  | .portStatus => 10

/-- A record with its kind, length and frame check (R184, 12_formats.md). -/
def recordBytes (k : OutKind) (contents : List Byte) : List Byte :=
  let framed := beBytes 1 k.code ++ beBytes 2 contents.length ++ contents
  framed ++ beBits 2 (bytesCheck framed)

def outcomeBytes (o : OutcomeRecord) : List Byte :=
  beBytes 1 o.outcome.code ++ beBits 1 o.attempts ++ beBytes 1 o.outcome.causeCode

def startRecord (k : OutKind) (contents : List Byte) (s : State) : State :=
  s.updPort fun p => { p with out := some { kind := k, bytes := recordBytes k contents }, abortMark := false }

/-- A MESSAGE is started from the head of the intake queue, if there is one (R34, R182). -/
def startOutMessage (s : State) : State :=
  match s.intake.queue with
  | [] => s
  | e :: rest =>
    startRecord .message (headBytes e ++ e.body)
      (s.updIntake fun k => { k with queue := rest, inTransfer := some e, split := false })

/-- The arbiter of the outgoing link starts a record (R182). -/
def startOutgoing (s : State) : State :=
  match s.port.outcomes, s.port.status with
  | o :: rest, _ => startRecord .outcome (outcomeBytes o) (s.updPort fun p => { p with outcomes := rest })
  | [], some st => startRecord .portStatus st (s.updPort fun p => { p with status := none })
  | [], none => startOutMessage s

/-- OUTGOING_RECORD_START: the computer is ready and the link is idle (R182). -/
def execOutgoingRecordStart (s : State) : Host.Outcome State Fault Refusal :=
  .next (if s.consoleActive && s.port.out.isNone then startOutgoing s else s)

/-- The entry in transfer is freed (R34). -/
def freeTransfer (s : State) : State :=
  match s.intake.inTransfer with
  | none => s
  | some e => entryFreed e (s.updIntake fun k => { k with inTransfer := none })

/-- The last byte of a record has gone out (R34, R182). -/
def endOutgoing (r : OutRecord) (s : State) : State :=
  let s := s.updPort fun p => { p with out := none }
  match r.kind with
  | .message => freeTransfer s
  | .outcome => s
  | .portStatus => s

/-- OUTGOING_RECORD_END: the last byte of an outgoing record goes out (R182). -/
def execOutgoingRecordEnd (s : State) : Host.Outcome State Fault Refusal :=
  match s.port.out with
  | none => .next s
  | some r => .next (endOutgoing r s)

end Sys2Proof.Machine
end

