-- ==== Sys2Proof/Machine/Scheduling.lean ====
section
/-! DEFINITION. The schedule: due times, firings and counted firings (R72 to R77), with the meanings of BEACON, FRAME,
SAMPLE, POWER_REPORT, PORT_STATUS and POSE_REPORT_REPEAT_FIRING. -/

namespace Sys2Proof.Machine

/-- A FRAME firing carrying `j` (R76, R77, R102, R130, R93, R111). -/
def fireFrame (j : Nat) (s : State) : State :=
  match s.straps.role with
  | .headset => loadCredit (latchDials (frameTick j s))
  | .console => s.updLaneTx fun t => { t with frameNumber := BitVec.ofNat 32 j, leftNext := true }
  | .supply => s

/-- A firing hands its action to the unit that owns it (R76). -/
def act (a : Action) (j : Nat) (s : State) : State :=
  match a with
  | .none => s
  | .beacon => fireBeacon s
  | .frame => fireFrame j s
  | .sample => fireSample s
  | .poseReport => firePoseReport s
  | .powerReport => powerReport s
  | .portStatus => formPortStatus s

def State.updEntry (s : State) (i : Fin 8) (f : SchedEntry → SchedEntry) : State :=
  s.updSched fun k => { k with entries := putAt k.entries i (f k.entries[i]) }

/-- The entry numbers in order. -/
def allEntries : List (Fin 8) := [0, 1, 2, 3, 4, 5, 6, 7]

/-! ### Counted firings -/

/-- The progress of a COUNTED entry after a firing of its source, and whether it fires (R75). -/
def countUp (n progress : Nat) : Nat × Bool := if progress + 1 < n then (progress + 1, false) else (0, true)

/-- Entry `i` counts a firing of entry `source` (R75). -/
def countEntry (source : Fin 8) (j : Nat) (s : State) (i : Fin 8) : State :=
  let e := s.sched.entries[i]
  match e.mode with
  | .repeating _ _ _ => s
  | .counted src n progress =>
    if src = source ∧ e.action ≠ .none then
      let up := countUp n progress
      let s := s.updEntry i fun e => { e with mode := .counted src n up.1 }
      if up.2 then act e.action j s else s
    else s

/-- The COUNTED entries of a source count its firing (R75; log 39). -/
def countFiring (source : Fin 8) (j : Nat) (s : State) : State := allEntries.foldl (countEntry source j) s

/-! ### Repeated firings -/

/-- j of the latest due time at or before agreed time (R74). -/
def latestDue (agreed period phase : Nat) : Nat := (agreed - phase) / period

/-- Entry `i` with REPEAT fields fires (R74). -/
def fireEntry (i : Fin 8) (period phase nextDue : Nat) (s : State) : State :=
  let e := s.sched.entries[i]
  let j := latestDue s.agreed period phase
  let skipped := j - (nextDue - phase) / period
  let s := s.updSched fun k =>
    { k with
      entries := putAt k.entries i { e with mode := .repeating period phase (phase + (j + 1) * period) }
      skippedDues := bumpBy k.skippedDues skipped }
  countFiring i j (act e.action j s)

/-- The REPEAT entry of an action. -/
def Schedule.repeatOf (k : Schedule) (a : Action) : Option (Fin 8 × Nat × Nat × Nat) :=
  allEntries.findSome? fun i =>
    if k.entries[i].action = a then
      match k.entries[i].mode with
      | .repeating period phase due => some (i, period, phase, due)
      | .counted _ _ _ => none
    else none

/-- The REPEAT entry of an action, if it is due (R72, R74). -/
def State.dueEntry (s : State) (a : Action) : Option (Fin 8 × Nat × Nat × Nat) :=
  match s.sched.repeatOf a with
  | none => none
  | some (i, period, phase, due) =>
    if s.loader.life ≠ .loading ∧ period ≠ 0 ∧ due ≤ s.agreed then some (i, period, phase, due) else none

/-- The REPEAT entry of an action fires, if it is due (R74). -/
def fire (a : Action) (s : State) : State :=
  match s.dueEntry a with
  | none => s
  | some (i, period, phase, due) => fireEntry i period phase due s

/-- BEACON: a BEACON entry fires (R63, R74). -/
def execBeacon (s : State) : Host.Outcome State Fault Refusal := .next (fire .beacon s)

/-- FRAME: a FRAME entry fires (R74, R76, R130). -/
def execFrame (s : State) : Host.Outcome State Fault Refusal := .next (fire .frame s)

/-- SAMPLE: a SAMPLE entry fires (R74, R79). -/
def execSample (s : State) : Host.Outcome State Fault Refusal := .next (fire .sample s)

/-- POWER_REPORT: a POWER_REPORT entry in REPEAT mode fires (R74, R165). -/
def execPowerReport (s : State) : Host.Outcome State Fault Refusal := .next (fire .powerReport s)

/-- PORT_STATUS: a PORT_STATUS entry in REPEAT mode fires (R74, R183). -/
def execPortStatus (s : State) : Host.Outcome State Fault Refusal := .next (fire .portStatus s)

/-- POSE_REPORT_REPEAT_FIRING: a POSE_REPORT entry in REPEAT mode fires (R74, R85). -/
def execPoseReportRepeatFiring (s : State) : Host.Outcome State Fault Refusal := .next (fire .poseReport s)

end Sys2Proof.Machine
end

