-- ==== Sys2Proof/Machine/ProfileImage.lean ====
section
/-! DEFINITION. Reading the profile image: its sum, its settings as given, and the codes that had to be moved (R177,
R184, 12_formats.md, Profile image; log 17). -/

namespace Sys2Proof.Machine

/-- The length field of an image (R177). -/
def imageLength (img : List Byte) : Nat := fieldAt img 0 2

/-- The sum of `n` words from offset `off` (R177). -/
def wordSum (img : List Byte) : Nat → Nat → Nat
  | 0, _ => 0
  | n + 1, off => fieldAt img off 2 + wordSum img n (off + 2)

/-- The image can be used (R177). Its sum runs over all the words of its length, also over bytes from 322 on, which hold no
setting (log 53). -/
def imageGood (img : List Byte) : Bool :=
  let n := imageLength img
  n % 2 == 0 && decide (4 ≤ n) && decide (n ≤ 512) && wordSum img (n / 2) 0 % 65536 == 65535

/-- A setting of `len` bytes at `off`, or its default beyond the image's length (R177; log 17). -/
def setting {α : Type} (img : List Byte) (off len : Nat) (default : α) (read : Nat → α) : α :=
  if off + len ≤ imageLength img then read (fieldAt img off len) else default

/-- A signed setting of two bytes. -/
def signed16 (v : Nat) : Int := (BitVec.ofNat 16 v).toInt

def signed8 (v : Nat) : Int := (BitVec.ofNat 8 v).toInt

/-! ### Settings with codes -/

def destinationOf (v : Nat) : Destination :=
  if v = 0 then .queue else if v = 1 then .unit else if v = 2 then .both else .drop

/-- An intake entry: 2 bytes of destination and match value, 2 bytes of care mask (12_formats.md). -/
def readIntakeEntry (v : Nat) : IntakeEntry where
  matchValue := BitVec.ofNat 12 (v / 2 ^ 16)
  care := BitVec.ofNat 12 (min (v % 2 ^ 16) 4095)
  dest := destinationOf (v / 2 ^ 28 % 4)

def actionOf (v : Nat) : Action :=
  match v with
  | 0 => .none
  | 1 => .beacon
  | 2 => .frame
  | 3 => .sample
  | 4 => .poseReport
  | 5 => .powerReport
  | _ => .portStatus

/-- A schedule entry of 10 bytes (12_formats.md). -/
def readEntry (v : Nat) : SchedEntry where
  action := actionOf (v / 2 ^ 72 % 256)
  mode :=
    if v / 2 ^ 64 % 256 = 0 then .repeating (v / 2 ^ 32 % 2 ^ 32) (v % 2 ^ 32) 0
    else .counted (Fin.ofNat 8 (min (v / 2 ^ 56 % 256) 7)) (max (v / 2 ^ 48 % 256) 1) 0

/-- A code or a value inside a schedule entry had to be moved into range (R184; log 17). -/
def entryMoved (v : Nat) : Bool :=
  decide (6 < v / 2 ^ 72 % 256) || decide (1 < v / 2 ^ 64 % 256) ||
    (v / 2 ^ 64 % 256 != 0 && (decide (7 < v / 2 ^ 56 % 256) || v / 2 ^ 48 % 256 == 0))

def readPixel (v : Nat) : Pixel :=
  { r := BitVec.ofNat 8 (v / 2 ^ 16), g := BitVec.ofNat 8 (v / 2 ^ 8), b := BitVec.ofNat 8 v }

def accessOf (v : Nat) : BandAccess := if v = 0 then .live else if v = 1 then .fixed else .absent

/-- A band descriptor of 7 bytes (12_formats.md). -/
def readBand (v : Nat) : Band where
  access := accessOf (v / 2 ^ 48 % 256)
  base := v / 2 ^ 40 % 256
  count := v / 2 ^ 32 % 256
  direction := if v / 2 ^ 24 % 256 = 0 then .up else .down
  fill := readPixel v
  written := false
  stale := false

def bandMoved (v : Nat) : Bool := decide (2 < v / 2 ^ 48 % 256) || decide (1 < v / 2 ^ 24 % 256)

/-- One row of the axis map (12_formats.md). -/
def readAxis (v : Nat) : AxisMap := { axis := Fin.ofNat 3 (min (v % 4) 2), negative := v.testBit 7 }

/-- The axis map, one setting of 3 bytes (12_formats.md; log 17). -/
def readAxes (v : Nat) : Axes AxisMap :=
  { yaw := readAxis (v / 2 ^ 16), pitch := readAxis (v / 2 ^ 8), roll := readAxis v }

/-- A row of the axis map names a sensor axis 3 (05, Profile values; R184). -/
def axesMoved (v : Nat) : Bool := v / 2 ^ 16 % 4 == 3 || v / 2 ^ 8 % 4 == 3 || v % 4 == 3

/-- A code in the image had to be moved into range (R184). -/
def codesMoved (img : List Byte) : Bool :=
  (List.range 8).any (fun i => setting img (8 + 4 * i) 4 false fun v => decide (4095 < v % 2 ^ 16)) ||
    (List.range 8).any (fun i => setting img (40 + 10 * i) 10 false entryMoved) ||
    (List.range 16).any (fun i => setting img (131 + 7 * i) 7 false bandMoved) ||
    setting img 265 3 false axesMoved ||
    setting img 296 1 false fun v => decide (1 < v)

/-! ### The settings as given -/

def readTable (img : List Byte) (d : Vector IntakeEntry 8) : Vector IntakeEntry 8 :=
  .ofFn fun i => setting img (8 + 4 * i.val) 4 d[i] readIntakeEntry

def readEntries (img : List Byte) (d : Vector SchedEntry 8) : Vector SchedEntry 8 :=
  .ofFn fun i => setting img (40 + 10 * i.val) 10 d[i] readEntry

def readGeometry (img : List Byte) (d : Geometry) : Geometry where
  S := setting img 120 1 d.S id
  H := setting img 121 2 d.H id
  W := setting img 123 2 d.W id
  edge :=
    { left := setting img 125 3 d.edge.left readPixel
      right := setting img 128 3 d.edge.right readPixel }

def readBands (img : List Byte) (d : Both (Vector Band 8)) : Both (Vector Band 8) where
  left := .ofFn fun i => setting img (131 + 7 * i.val) 7 d.left[i] readBand
  right := .ofFn fun i => setting img (187 + 7 * i.val) 7 d.right[i] readBand

def readScan (img : List Byte) (d : ScanSettings) : ScanSettings where
  lp := setting img 243 2 d.lp id
  glow := setting img 245 2 d.glow id
  hmax := setting img 247 2 d.hmax id
  kx := setting img 249 3 d.kx id
  ky := setting img 252 3 d.ky id
  lensStep := setting img 255 1 d.lensStep signed8
  maxshift := setting img 256 1 d.maxshift id
  brightness := .ofFn fun i => setting img (257 + 2 * i.val) 2 d.brightness[i] id

def readMotion (img : List Byte) (d : MotionSettings) : MotionSettings where
  axisMap := setting img 265 3 d.axisMap readAxes
  bias :=
    { yaw := setting img 268 2 d.bias.yaw signed16
      pitch := setting img 270 2 d.bias.pitch signed16
      roll := setting img 272 2 d.bias.roll signed16 }
  gain :=
    { yaw := setting img 274 2 d.gain.yaw id
      pitch := setting img 276 2 d.gain.pitch id
      roll := setting img 278 2 d.gain.roll id }
  readLimit := setting img 280 2 d.readLimit id

def readDial (img : List Byte) (off : Nat) (d : DialRange) : DialRange where
  min := setting img off 2 d.min signed16
  max := setting img (off + 2) 2 d.max signed16
  start := setting img (off + 4) 2 d.start signed16

def readPower (img : List Byte) (d : PowerSettings) : PowerSettings where
  draw := .ofFn fun i => setting img (297 + 2 * i.val) 2 d.draw[i] id
  available := setting img 305 2 d.available id
  reserve := setting img 307 2 d.reserve id
  yellow := setting img 309 2 d.yellow id
  red := setting img 311 2 d.red id
  low := setting img 313 1 d.low id
  empty := setting img 314 1 d.empty id
  availableFull := setting img 315 2 d.availableFull id
  availableLow := setting img 317 2 d.availableLow id

/-- The settings of an image as it gives them, each at its role default beyond the image's length (R177). -/
def readImage (img : List Byte) (d : Settings) : Settings where
  wire := setting img 4 2 d.wire (BitVec.ofNat 12)
  message := setting img 6 2 d.message (BitVec.ofNat 12)
  table := readTable img d.table
  entries := readEntries img d.entries
  geometry := readGeometry img d.geometry
  bands := readBands img d.bands
  scan := readScan img d.scan
  motion := readMotion img d.motion
  e0 := readDial img 282 d.e0
  e1 := readDial img 288 d.e1
  slipLimit := setting img 294 2 d.slipLimit id
  captureEnable := setting img 296 1 d.captureEnable (fun v => v != 0)
  power := readPower img d.power
  strain := setting img 319 1 d.strain id
  stepLimit := setting img 320 2 d.stepLimit id

end Sys2Proof.Machine
end

