-- ==== Sys2Proof/Machine/ProfileCheck.lean ====
section
/-! DEFINITION. The loader's ranges and checks (R73, R80, R92, R113, R117, R128, R145, R161, R177). The checks run in
every role (log 18). -/

namespace Sys2Proof.Machine

/-! ### Schedule (R73) -/

/-- Step 1: the roles that have an action. -/
def roleHas (role : Role) (a : Action) : Bool :=
  match a with
  | .none => true
  | .beacon => true
  | .frame => role != .supply
  | .sample => role == .headset
  | .poseReport => role == .headset
  | .powerReport => true
  | .portStatus => role == .console

def SchedEntry.disable (e : SchedEntry) : SchedEntry := { e with action := .none }

def checkRole (role : Role) (e : SchedEntry) : SchedEntry := if roleHas role e.action then e else e.disable

/-- Step 2: an action held by a lower-numbered entry. -/
def isDuplicate (es : Vector SchedEntry 8) (i : Fin 8) : Bool :=
  es[i].action != .none && allEntries.any fun k => decide (k < i) && es[k].action == es[i].action

def isCounted (e : SchedEntry) : Bool :=
  match e.mode with
  | .counted _ _ _ => true
  | .repeating _ _ _ => false

/-- Step 3: BEACON, FRAME and SAMPLE only repeat. -/
def checkMode (e : SchedEntry) : SchedEntry :=
  if isCounted e ∧ (e.action = .beacon ∨ e.action = .frame ∨ e.action = .sample) then e.disable else e

/-- Step 4: the source of a COUNTED entry is another entry, in REPEAT mode, with an action. -/
def checkSource (es : Vector SchedEntry 8) (i : Fin 8) : SchedEntry :=
  let e := es[i]
  match e.mode with
  | .repeating _ _ _ => e
  | .counted source _ _ =>
    if source = i ∨ isCounted es[source] ∨ es[source].action = .none then e.disable else e

/-- The period range of an action, in sixteenths (R73). -/
def periodRange (a : Action) : Nat × Nat :=
  match a with
  | .none => (0, 2 ^ 32)
  | .beacon => (160000, 16000000)
  | .frame => (100000, 250000)
  | .sample => (4000, 80000)
  | .poseReport => (16000, 1600000)
  | .powerReport => (320000, 16000000)
  | .portStatus => (16000, 16000000)

/-- Step 5: a REPEAT period in its range; a SAMPLE period a multiple of 16. An entry with action NONE keeps its period
(log 54). -/
def checkPeriod (e : SchedEntry) : SchedEntry :=
  match e.mode with
  | .counted _ _ _ => e
  | .repeating period phase due =>
    if e.action = .none then e
    else
      let p := clampNat period (periodRange e.action).1 (periodRange e.action).2
      { e with mode := .repeating (if e.action = .sample then p / 16 * 16 else p) phase due }

/-- The nearest N that brings the effective period of a source period into a range, if there is one (R73). -/
def fitN (p n lo hi : Nat) : Option Nat :=
  if p = 0 then none
  else if p * n < lo then
    let m := (lo + p - 1) / p
    if m ≤ 255 ∧ p * m ≤ hi then some m else none
  else if hi < p * n then
    let m := hi / p
    if 1 ≤ m ∧ lo ≤ p * m then some m else none
  else some n

def sourcePeriod (es : Vector SchedEntry 8) (i : Fin 8) : Nat :=
  match es[i].mode with
  | .repeating p _ _ => p
  | .counted _ _ _ => 0

/-- Step 6: the effective period of a COUNTED entry. An entry with action NONE keeps its N (log 54). -/
def checkEffective (es : Vector SchedEntry 8) (e : SchedEntry) : SchedEntry :=
  match e.mode with
  | .repeating _ _ _ => e
  | .counted source n progress =>
    if e.action = .none then e
    else
      match fitN (sourcePeriod es source) n (periodRange e.action).1 (periodRange e.action).2 with
      | some m => { e with mode := .counted source m progress }
      | none => e.disable

/-- Step 7: a phase below the period. An entry with action NONE keeps its phase, at or above the period too, and latches
no PROFILE for it (log 54). -/
def checkPhase (e : SchedEntry) : SchedEntry :=
  match e.mode with
  | .counted _ _ _ => e
  | .repeating period phase due =>
    if e.action = .none then e
    else if period ≤ phase then { e with mode := .repeating period (period - 1) due } else e

/-- The seven steps, each over all entries before the next (R73). -/
def checkEntries (role : Role) (es : Vector SchedEntry 8) : Vector SchedEntry 8 :=
  let es := es.map (checkRole role)
  let es := Vector.ofFn fun i => if isDuplicate es i then es[i].disable else es[i]
  let es := es.map checkMode
  let es := Vector.ofFn fun i => checkSource es i
  let es := es.map checkPeriod
  let es := es.map (checkEffective es)
  es.map checkPhase

/-! ### Geometry and bands (R113, R117) -/

def checkLines (s : Nat) : Nat := if s = 8 ∨ s = 16 ∨ s = 32 then s else 16

/-- The largest valid H not above the one given, or 8 × S (R113). -/
def checkHeight (s h : Nat) : Nat := clampNat (h / (8 * s) * (8 * s)) (8 * s) (min 2048 (128 * s))

def checkGeometry (g : Geometry) : Geometry :=
  let s := checkLines g.S
  { g with S := s, H := checkHeight s g.H, W := clampNat g.W 64 2048 }

def Band.off (b : Band) : Band := { b with access := .absent }

/-- Passes 1 and 2 on a band (R117). -/
def checkRun (m : Nat) (b : Band) : Band :=
  if b.access = .live then
    if 256 < b.base + b.count then b.off else { b with count := min b.count m }
  else b

/-- Two runs share a buffer. -/
def runsMeet (a b : Band) : Bool :=
  decide (0 < a.count) && decide (0 < b.count) && decide (a.base < b.base + b.count) && decide (b.base < a.base + a.count)

/-- Pass 3: a LIVE band that meets a LIVE band before it becomes ABSENT (R117). -/
def checkOverlap : List Band → List Band → List Band
  | _, [] => []
  | before, b :: rest =>
    let b := if b.access = .live ∧ before.any (fun a => a.access == .live && runsMeet a b) then b.off else b
    b :: checkOverlap (before ++ [b]) rest

/-- The band of a list, by number. -/
def bandAt (bs : List Band) (i : Nat) : Band := bs.getD i (defaultBand 0)

/-- The three passes over the sixteen descriptors (R117). -/
def checkBands (m : Nat) (bands : Both (Vector Band 8)) : Both (Vector Band 8) :=
  let bs := checkOverlap [] ((bands.left.toList ++ bands.right.toList).map (checkRun m))
  { left := .ofFn fun i => bandAt bs i.val, right := .ofFn fun i => bandAt bs (8 + i.val) }

/-! ### Scan, motion, audio and power -/

/-- The ranges of the scan values (08, Profile values). -/
def clampScan (c : ScanSettings) : ScanSettings where
  lp := clampNat c.lp 16 4000
  glow := min c.glow 5000
  hmax := min c.hmax 30000
  kx := min c.kx 1048575
  ky := min c.ky 1048575
  lensStep := clampInt c.lensStep (-64) 64
  maxshift := min c.maxshift 255
  brightness := c.brightness.map (min · 256)

/-- H × LP is not less than the frame period (R128). -/
def lineTooLong (framePeriod : Option Nat) (h : Nat) (c : ScanSettings) : Bool :=
  match framePeriod with
  | none => false
  | some fp => decide (fp ≤ h * c.lp)

/-- The line period against the frame period (R128). -/
def checkLinePeriod (framePeriod : Option Nat) (h : Nat) (c : ScanSettings) : ScanSettings :=
  if lineTooLong framePeriod h c then { c with lp := framePeriod.getD 0 / h } else c

/-- Two head axes name one sensor axis (R80). -/
def axesClash (m : Axes AxisMap) : Bool :=
  m.yaw.axis == m.pitch.axis || m.yaw.axis == m.roll.axis || m.pitch.axis == m.roll.axis

def clampMotion (k : MotionSettings) : MotionSettings where
  axisMap := if axesClash k.axisMap then defaultAxisMap else k.axisMap
  bias := k.bias.map (clampInt · (-4096) 4095)
  gain := k.gain.map (clampNat · 1 65535)
  readLimit := clampNat k.readLimit 50 5000

/-- A dial's range and start count (R92). -/
def checkDial (default d : DialRange) : DialRange :=
  let r := if d.max < d.min then { default with start := d.start } else d
  { r with start := clampInt r.start r.min r.max }

/-- The ranges and checks of the power figures (R161). -/
def checkPower (role : Role) (p : PowerSettings) : PowerSettings :=
  let d1 := max p.draw[1] p.draw[0]
  let d2 := max p.draw[2] d1
  let d3 := max p.draw[3] d2
  let low := min p.low 100
  let empty := min p.empty 100
  { p with
    draw := #v[p.draw[0], d1, d2, d3]
    red := max p.red p.yellow
    low := low
    empty := if role = .supply then min empty low else empty
    availableLow := if role = .supply then min p.availableLow p.availableFull else p.availableLow }

/-! ### All settings -/

/-- The period of the FRAME entry (R128). -/
def framePeriodOf (es : Vector SchedEntry 8) : Option Nat :=
  ({ entries := es, skippedDues := 0 } : Schedule).periodOf .frame

/-- The settings up to the geometry are checked (R177, steps 1 to 4). -/
def checkFirst (role : Role) (st : Settings) : Settings :=
  { st with entries := checkEntries role st.entries, geometry := checkGeometry st.geometry }

/-- The settings after the band maps are checked (R177, steps 5 to 9). -/
def checkLast (role : Role) (st : Settings) : Settings :=
  { st with
    scan := checkLinePeriod (framePeriodOf st.entries) st.geometry.H (clampScan st.scan)
    motion := clampMotion st.motion
    e0 := checkDial defaultE0 st.e0
    e1 := checkDial defaultE1 st.e1
    slipLimit := clampNat st.slipLimit 50 2000
    power := checkPower role st.power
    strain := clampNat st.strain 16 127
    stepLimit := clampNat st.stepLimit 10 10000 }

/-- The band maps are checked after the geometry (R117, R177). -/
def checkMaps (st : Settings) : Settings := { st with bands := checkBands st.geometry.bandSlices st.bands }

/-- What the loader installs, and the flags it hands to the alarm set (R177). -/
structure Loaded where
  settings : Settings
  profile : Bool
  map : Bool
  deriving DecidableEq, Repr

/-- The line period check acts on the settings (R128); it latches PROFILE also where it leaves LP as it was (log 44). -/
def lineCheckActs (st : Settings) : Bool := lineTooLong (framePeriodOf st.entries) st.geometry.H (clampScan st.scan)

/-- The settings of a usable image after every check; PROFILE if a check acts, MAP if a band pass does (R117, R128,
R177). -/
def loadImage (role : Role) (node : Node) (img : List Byte) : Loaded :=
  let given := readImage img (defaultSettings role node)
  let first := checkFirst role given
  let maps := checkMaps first
  let last := checkLast role maps
  { settings := last
    profile := codesMoved img || decide (last ≠ given) || lineCheckActs maps
    map := decide (maps.bands ≠ first.bands) && role == .headset }

/-- Every setting at its role default, with PROFILE latched (R177). -/
def loadDefaults (role : Role) (node : Node) : Loaded :=
  { settings := defaultSettings role node, profile := true, map := false }

/-- What the loader obtains from an image (R177). -/
def loadProfile (straps : Straps) (img : List Byte) : Loaded :=
  if straps.profilePresent && imageGood img then loadImage straps.role straps.node img
  else loadDefaults straps.role straps.node

end Sys2Proof.Machine
end

