-- ==== Sys2Proof/Machine/Life.lean ====
section
/-! DEFINITION. The life of a station: power-on, the installation of the profile, restart (R59, R74, R92, R176 to R178),
with the meanings of POWER_ON, PROFILE_MEMORY_TIMEOUT, PROFILE_INSTALLED, RESTART_BEGIN and RESTART_RECORD. -/

namespace Sys2Proof.Machine

/-- POWER_ON: the supply comes up and all state takes its power-on value (R176). -/
def execPowerOn (straps : Straps) (s : State) : Host.Outcome State Fault Refusal :=
  .next (State.powerOn straps s.pins s.pending s.free)

/-! ### Installation -/

/-- The first due of a REPEAT entry: the smallest due time not earlier than agreed time (R74). -/
def firstDue (agreed period phase : Nat) : Nat :=
  if agreed ≤ phase then phase else phase + (agreed - phase + period - 1) / period * period

/-- An entry as it is installed (R72, R74). -/
def SchedEntry.installed (e : SchedEntry) (agreed : Nat) : SchedEntry :=
  match e.mode with
  | .repeating period phase _ => { e with mode := .repeating period phase (firstDue agreed period phase) }
  | .counted source n _ => { e with mode := .counted source n 0 }

/-- A dial at the installation after power-on (R92). -/
def DialState.atPowerOn (d : DialState) (r : DialRange) (levels : Bool × Bool) : DialState :=
  { d with
    range := r
    count := r.start
    lineA := levels.1
    lineB := levels.2
    frameValue := r.start }

/-- A dial at the installation after a restart: its count is kept, or moved into the range (R92). -/
def DialState.atRestart (d : DialState) (r : DialRange) : DialState :=
  let count := clampInt d.count r.min r.max
  { d with range := r, count := count, limit := d.limit || count != d.count, frameValue := count }

/-- The dials at the installation (R92). -/
def installDials (st : Settings) (s : State) : State :=
  if s.loader.fromRestart then
    s.updDials fun d => { d with e0 := d.e0.atRestart st.e0, e1 := d.e1.atRestart st.e1 }
  else
    s.updDials fun d =>
      { d with
        e0 := d.e0.atPowerOn st.e0 s.pins.dialLevels.1
        e1 := d.e1.atPowerOn st.e1 s.pins.dialLevels.2 }

/-- The power figures are installed; the grant and the own entry follow (R161 to R163). -/
def installPower (ps : PowerSettings) (s : State) : State :=
  setOwnEntry (s.updPower fun p => { p with settings := ps, grant := ps.draw[0] })

/-- Every setting takes its place (R177, steps 1 to 9). -/
def installSettings (st : Settings) (s : State) : State :=
  let agreed := s.agreed
  let s := s.updAlarms fun a => { a with wire := st.wire, message := st.message }
  let s := s.updIntake fun k => { k with table := st.table }
  let s := s.updSched fun k => { k with entries := st.entries.map (·.installed agreed) }
  let s := s.updStore fun k => { k with geometry := st.geometry, bands := st.bands }
  let s := s.updLaneRx fun r => { r with eyes := .same (receiverEyeAtPowerOn st.geometry.slices) }
  let s := s.updScan fun c => { c with settings := st.scan }
  let s := installDials st (s.updMotion fun m => { m with settings := st.motion })
  let s := s.updAudio fun a =>
    { a with
      slipLimit := st.slipLimit
      captureEnable := st.captureEnable
      capture := captureAtPowerOn st }
  let s := installPower st.power s
  (s.updSpine fun p => { p with strain := st.strain }).updTime fun t => { t with stepLimit := st.stepLimit }

/-- The flags the loader hands to the alarm set, still in LOADING (R51, R117, R177). -/
def latchLoaded (l : Loaded) (s : State) : State :=
  let s := if l.profile then latch .profile s else s
  if l.map then latch .map s else s

/-- The state becomes LISTENING and the LISTENING timer starts; a CONSOLE forms a PORT STATUS (R70, R177, R183). -/
def enterListening (s : State) : State :=
  let s := s.updLoader fun l => { l with life := .listening, fromRestart := false }
  let s := (s.updTime fun t => { t with timer := some s.agreed }).updSpine fun p =>
    { p with synced := false, quietRuns := 0 }
  if s.straps.role = .console then formPortStatus s else s

/-- The loader installs what it obtained (R177). -/
def install (l : Loaded) (s : State) : State := enterListening (latchLoaded l (installSettings l.settings s))

/-- PROFILE_INSTALLED: the profile read completes (R177). -/
def execProfileInstalled (image : List Byte) (s : State) : Host.Outcome State Fault Refusal :=
  .next (if s.loader.life = .loading then install (loadProfile s.straps image) s else s)

/-- The serial memory has not answered within 10 ms of local count (R177). -/
def State.memoryOut (s : State) : Bool :=
  s.loader.life == .loading && s.straps.profilePresent && decide (10000 ≤ s.time.localCount)

/-- PROFILE_MEMORY_TIMEOUT: the serial memory does not answer in time (R177). -/
def execProfileMemoryTimeout (s : State) : Host.Outcome State Fault Refusal :=
  .next (if s.memoryOut then install (loadDefaults s.straps.role s.straps.node) s else s)

/-! ### Restart -/

/-- A dial at the start of a restart (R92). -/
def DialState.kept (d : DialState) : DialState :=
  { d with limit := false, frameValue := 0, skips := 0, limitSteps := 0 }

/-- What a restart keeps, put into the power-on state `fresh` (R59, R106, R178). A record in transfer on the outgoing link
ends with the abort mark (R182). -/
def keepThrough (s fresh : State) : State :=
  let epoch := s.loader.epoch + 1
  { fresh with
    loader := { fresh.loader with epoch := epoch, fromRestart := true }
    time := { fresh.time with offset := s.agreed }
    dials := { e0 := s.dials.e0.kept, e1 := s.dials.e1.kept }
    laneRx := { fresh.laneRx with epoch := epoch.setWidth 8 }
    port := { fresh.port with abortMark := s.port.out.isSome } }

/-- A restart begins (R178). -/
def restartWith (straps : Straps) (s : State) : State :=
  keepThrough s (State.powerOn straps s.pins s.pending s.free)

/-- RESTART_BEGIN: the restart that a RESTART command asked for begins (R178; log 7). -/
def execRestartBegin (straps : Straps) (s : State) : Host.Outcome State Fault Refusal :=
  .next (if s.loader.restartDue then restartWith straps s else s)

/-- RESTART_RECORD: a RESTART record restarts the station at once (R178, R181). -/
def execRestartRecord (straps : Straps) (s : State) : Host.Outcome State Fault Refusal :=
  .next (if s.portReady then restartWith straps s else s)

end Sys2Proof.Machine
end

