-- ==== Sys2Proof/Machine/Tick.lean ====
section
/-! DEFINITION. One microsecond of the station's oscillator, the alert wire as other stations drive it, and the events
that are due after it (R57 to R61, R131; logs 1 and 5). -/

namespace Sys2Proof.Machine

/-! ### A microsecond passes -/

/-- The last value of the 48-bit local count (R59). -/
def lastCount : Nat := 2 ^ 48 - 1

/-- Past its 48 bits the local count is `v`, and agreed time goes on from where it stood (R59; log 12). -/
def TimeUnit.recount (t : TimeUnit) (v : Nat) : TimeUnit :=
  { t with
    localCount := v
    offset := 16 * ((t.localCount : Int) + 1 - (v : Int)) + t.offset
    readings := t.readings.map fun r =>
      { r with offset := 16 * ((t.localCount : Int) + 1 - (v : Int)) + r.offset } }

/-- The microsecond that ends is kept for the record of a start bit that lay in it (R14; log 4). -/
def keepReading (s : State) : State :=
  s.updTime fun t => { t with readings := ({ read := t.agreed, offset := t.offset } :: t.readings).take 29 }

/-- The local count advances; past its 48 bits its value is free (R59; log 12). -/
def countMicrosecond (s : State) : State :=
  if s.time.localCount < lastCount then s.updTime fun t => { t with localCount := t.localCount + 1 }
  else (s.updTime (·.recount (Config.freeValue s.free).toNat)).useFree

/-- The direction of the slew: 1, −1 or 0 (R60). -/
def slewSign (r : Int) : Int := if 0 < r then 1 else if r < 0 then -1 else 0

/-- A microsecond of slew: the remainder shrinks by one sixteenth, agreed time and the held times move by it (R60,
R61). -/
def slewMicrosecond (s : State) : State :=
  let d := slewSign s.time.slew
  if d = 0 then s
  else (moveHeld d s).updTime fun t => { t with offset := t.offset + d, slew := t.slew - d }

/-- The line clock of a running scan advances by 16 sixteenths (R131). -/
def runLineClock (s : State) : State :=
  if s.scan.scanning then s.updScan fun c => { c with lineClock := c.lineClock + 16 } else s

/-- Whether another station drives the alert wire is free in every microsecond (R57, R58; logs 5 and 12). -/
def senseAlert (s : State) : State :=
  (s.updPins fun p => { p with alertOthers := (Config.freeValue s.free).getLsbD 0 }).useFree

/-- One microsecond passes. -/
def passMicrosecond (s : State) : State := runLineClock (slewMicrosecond (countMicrosecond (keepReading s)))

/-! ### Events that are due -/

def whenDue (b : Bool) (i : Instr) : List Instr := if b then [i] else []

/-- The row of the command unit for a code (R37, R38). -/
def commandRow (code : BitVec 5) : Instr :=
  match code.toNat with
  | 1 => .status
  | 2 => .clearAlarm
  | 3 => .holdEncoders
  | 4 => .readSamples
  | 5 => .alignPose
  | 6 => .readBands
  | 7 => .clearMapFault
  | 8 => .capture
  | 9 => .setGain
  | 10 => .readQueue
  | 11 => .restart
  | 12 => .readTime
  | _ => .unknownCommand

/-- The command unit is FREE and has a command to take (R38). -/
def dueCommand (s : State) : List Instr :=
  match s.cmd.answering, s.cmd.queue with
  | none, c :: _ => [commandRow c.code]
  | none, [] => []
  | some _, _ => []

def dueFiring (s : State) (a : Action) (i : Instr) : List Instr := whenDue (s.dueEntry a).isSome i

/-- The firings of REPEAT entries that are due (R74). -/
def dueFirings (s : State) : List Instr :=
  dueFiring s .beacon .beacon ++ dueFiring s .frame .frame ++ dueFiring s .sample .sample ++
    dueFiring s .poseReport .poseReportRepeatFiring ++ dueFiring s .powerReport .powerReport ++
    dueFiring s .portStatus .portStatus

/-- A sensor read whose limit has run out (R79). -/
def sensorOut (s : State) : Bool :=
  match s.motion.reading with
  | none => false
  | some r => s.readOut r

/-- The expiries and limit timers that are due (R65, R70, R79, R163, R165). -/
def dueTimers (s : State) : List Instr :=
  (allNodes.filter s.recordDue).map .timeRecordExpiry ++ whenDue s.timerOut .listeningTimerExpiry ++
    (allNodes.filter s.entryDue).map .powerEntryExpiry ++ whenDue (sensorOut s) .sensorReadTimeout ++
    whenDue s.meterOut (.meterReadingTimeout .awaited .awaited)

/-- The lane sender has a packet to start (R102). -/
def laneDue (s : State) : Bool := s.laneFree && s.laneChoice.isSome

/-- The loader's events that are due: nothing is fitted, or the memory has not answered (R177); a restart (R178), which
reads the straps as they are held, since the microsecond brings no others (log 7). -/
def dueLoader (s : State) : List Instr :=
  whenDue (s.loader.life == .loading && !s.straps.profilePresent) (.profileInstalled []) ++
    whenDue s.memoryOut .profileMemoryTimeout ++ whenDue s.loader.restartDue (.restartBegin s.straps)

/-- Every event that is due, in a fixed order (log 1). They are looked for at the end of a microsecond alone: what a
command makes due within one, as line 0 of the scan that a FRAME firing starts (R131), is raised at the end of the next
(log 1). -/
def dueEvents (s : State) : List Instr :=
  dueLoader s ++ dueFirings s ++ dueTimers s ++ whenDue s.lineDue .scanLine ++ whenDue s.scanOver .scanEnd ++
    whenDue s.playDue .playStampReached ++ whenDue (laneDue s) .lanePacketStart ++ dueCommand s

/-- What a step does when no command waits: a microsecond passes, the alert wire is sensed, and the events then due wait
in the queue (logs 1 and 5). A due that a forward step has passed since the last tick, or that stood at agreed time when
its entry was installed, is among them only now, agreed time having moved on by a microsecond (R74; log 1). -/
def tick (s : State) : State :=
  let after := passMicrosecond (senseAlert s)
  { after with pending := s.pending ++ dueEvents after }

end Sys2Proof.Machine
end

