-- ==== Sys2Proof/Machine/Dispatch.lean ====
section
/-! DEFINITION. One arm per command: its meaning. -/

namespace Sys2Proof.Machine

def exec (i : Instr) (s : State) : Host.Outcome State Fault Refusal :=
  match i with
  | .powerOn straps => Sys2Proof.Machine.execPowerOn straps s
  | .profileMemoryTimeout => Sys2Proof.Machine.execProfileMemoryTimeout s
  | .profileInstalled image => Sys2Proof.Machine.execProfileInstalled image s
  | .restartBegin straps => Sys2Proof.Machine.execRestartBegin straps s
  | .spineStart further driven => Sys2Proof.Machine.execSpineStart further s driven
  | .quietRun driven => Sys2Proof.Machine.execQuietRun s driven
  | .rejoin driven => Sys2Proof.Machine.execRejoin s driven
  | .arbitrationLoss => Sys2Proof.Machine.execArbitrationLoss s
  | .sendError kind => Sys2Proof.Machine.execSendError kind s
  | .receiveError kind => Sys2Proof.Machine.execReceiveError kind s
  | .sendEnd => Sys2Proof.Machine.execSendEnd s
  | .messageTaken m => Sys2Proof.Machine.execMessageTaken m s
  | .status => Sys2Proof.Machine.execStatus s
  | .clearAlarm => Sys2Proof.Machine.execClearAlarm s
  | .holdEncoders => Sys2Proof.Machine.execHoldEncoders s
  | .readSamples => Sys2Proof.Machine.execReadSamples s
  | .alignPose => Sys2Proof.Machine.execAlignPose s
  | .readBands => Sys2Proof.Machine.execReadBands s
  | .clearMapFault => Sys2Proof.Machine.execClearMapFault s
  | .capture => Sys2Proof.Machine.execCapture s
  | .setGain => Sys2Proof.Machine.execSetGain s
  | .readQueue => Sys2Proof.Machine.execReadQueue s
  | .restart => Sys2Proof.Machine.execRestart s
  | .readTime => Sys2Proof.Machine.execReadTime s
  | .unknownCommand => Sys2Proof.Machine.execUnknownCommand s
  | .beacon => Sys2Proof.Machine.execBeacon s
  | .timeRecordExpiry origin => Sys2Proof.Machine.execTimeRecordExpiry origin s
  | .listeningTimerExpiry => Sys2Proof.Machine.execListeningTimerExpiry s
  | .frame => Sys2Proof.Machine.execFrame s
  | .sample => Sys2Proof.Machine.execSample s
  | .powerReport => Sys2Proof.Machine.execPowerReport s
  | .portStatus => Sys2Proof.Machine.execPortStatus s
  | .sensorReadComplete ready rates accels => Sys2Proof.Machine.execSensorReadComplete ready rates accels s
  | .sensorReadTimeout => Sys2Proof.Machine.execSensorReadTimeout s
  | .dialChange dial a b => Sys2Proof.Machine.execDialChange dial a b s
  | .inputFrameStart => Sys2Proof.Machine.execInputFrameStart s
  | .inputLineStart => Sys2Proof.Machine.execInputLineStart s
  | .inputPixel p => Sys2Proof.Machine.execInputPixel p s
  | .tag t => Sys2Proof.Machine.execTag t s
  | .lanePacketStart => Sys2Proof.Machine.execLanePacketStart s
  | .lanePacketEnd => Sys2Proof.Machine.execLanePacketEnd s
  | .laneDown run => Sys2Proof.Machine.execLaneDown s run
  | .laneUp => Sys2Proof.Machine.execLaneUp s
  | .packetHeader h cut => Sys2Proof.Machine.execPacketHeader h s cut
  | .packetEnd run check => Sys2Proof.Machine.execPacketEnd run check s
  | .scanLine => Sys2Proof.Machine.execScanLine s
  | .scanEnd => Sys2Proof.Machine.execScanEnd s
  | .playStampReached => Sys2Proof.Machine.execPlayStampReached s
  | .codecFrame mic => Sys2Proof.Machine.execCodecFrame mic s
  | .silenceTimerExpiry => Sys2Proof.Machine.execSilenceTimerExpiry s
  | .powerEntryExpiry node => Sys2Proof.Machine.execPowerEntryExpiry node s
  | .meterReadingComplete load battery => Sys2Proof.Machine.execMeterReadingComplete load battery s
  | .meterReadingTimeout load battery => Sys2Proof.Machine.execMeterReadingTimeout load battery s
  | .send r => Sys2Proof.Machine.execSend r s
  | .abort => Sys2Proof.Machine.execAbort s
  | .ack => Sys2Proof.Machine.execAck s
  | .restartRecord straps => Sys2Proof.Machine.execRestartRecord straps s
  | .portError => Sys2Proof.Machine.execPortError s
  | .outgoingRecordStart => Sys2Proof.Machine.execOutgoingRecordStart s
  | .outgoingRecordEnd => Sys2Proof.Machine.execOutgoingRecordEnd s
  | .poseReportRepeatFiring => Sys2Proof.Machine.execPoseReportRepeatFiring s

end Sys2Proof.Machine
end

