-- ==== Sys2Proof/Machine/Step.lean ====
section
/-! DEFINITION. A step of the station: the command at the front of its queue, or a microsecond if none waits. -/

namespace Sys2Proof.Machine

/-- A step (95_what_each_step_holds.md: each step whole and indivisible). With no command waiting, a microsecond of the
oscillator passes and the events then due wait in the queue (log 1). -/
def step (s : State) : Host.Outcome State Fault Refusal :=
  match s.pending with
  | [] => .next (tick s)
  | c :: rest => exec c { s with pending := rest }

/-- The state with the command that a word spells put at the front of its queue; no word spells one. -/
def State.withFetchWord (s : State) (nbits w : Nat) : State :=
  match decodeTableWord nbits w with
  | none => s
  | some c => { s with pending := c :: s.pending }

end Sys2Proof.Machine
end

