-- ==== Sys2Proof/Safety.lean ====
section
/-! DEFINITION. What a station never leaves: the properties of a state that every step keeps, as predicates. -/

namespace Sys2Proof.Machine

/-! ### Spine controller and slots -/

/-- Both counts lie between 0 and 255; in CUT, SFC is a countdown from 64 and TFC is 0; elsewhere the standing is the
one the counts give; in LOADING both counts are 0 (R42 to R46). -/
def countsOk (s : State) : Prop :=
  let p := s.spine
  p.sfc ≤ 255 ∧ p.tfc ≤ 255 ∧ 1 ≤ p.strain ∧
    (p.standing = .cut → 1 ≤ p.sfc ∧ p.sfc ≤ 64 ∧ p.tfc = 0) ∧
    (p.standing ≠ .cut → p.standing = standingOf p.sfc p.tfc p.strain) ∧
    (s.loader.life = .loading → p.standing = .open ∧ p.sfc = 0 ∧ p.tfc = 0)

/-- A slot is SENDING exactly while its message is the own message on the spine; there is one only in RUNNING and
outside CUT (R23). -/
def sendingOk (s : State) : Prop :=
  (∀ n, (s.slot n).state = .sending ↔ ∃ x, s.spine.tx = some x ∧ x.slot = n) ∧
    (s.spine.tx.isSome → s.loader.life = .running ∧ s.spine.standing ≠ .cut)

/-- The fault counts, the standing and the slots agree with one another. -/
def spineOk (s : State) : Prop := countsOk s ∧ sendingOk s

/-! ### Bodies -/

/-- A slot's content and its held record have bodies of at most 40 bytes (R20). -/
def slotBodiesOk (sl : Slot) : Prop :=
  sl.content.body.length ≤ 40 ∧ ∀ c, sl.held = some c → c.body.length ≤ 40

/-- No body that the station holds, sends or has stored is longer than 40 bytes, and a capture buffer holds fewer
samples than a block (R5, R20, R32, R40, R157). -/
def bodiesOk (s : State) : Prop :=
  (∀ n, slotBodiesOk (s.slot n)) ∧ (∀ x, s.spine.tx = some x → x.body.length ≤ 40) ∧
    (∀ e ∈ s.intake.queue, e.body.length ≤ 40) ∧ (∀ e, s.intake.inTransfer = some e → e.body.length ≤ 40) ∧
    s.audio.capture.a.samples.length < 16 ∧ s.audio.capture.b.samples.length < 16

/-! ### Bounded stores -/

/-- No store of the station holds more than the spec gives it room for (R32, R36, R81, R84, R97, R99, R146, R182). -/
def storesOk (s : State) : Prop :=
  s.intake.used ≤ 1024 ∧ s.cmd.queue.length ≤ 8 ∧ s.port.outcomes.length ≤ 6 ∧ s.laneTx.tags.length ≤ 4 ∧
    s.laneTx.eyes.left.queue.length ≤ 8 ∧ s.laneTx.eyes.right.queue.length ≤ 8 ∧
    s.motion.ring.length ≤ 32 ∧ s.motion.history.length ≤ 64 ∧
    s.audio.ring.length ≤ 1024 ∧ s.audio.blocks.length ≤ 128

/-! ### Alarms -/

/-- An unsent mark belongs to a latched flag, and the flag of a present condition is latched (R49, R50, R52). -/
def alarmsOk (s : State) : Prop :=
  s.alarms.unsent &&& ~~~s.alarms.latched = 0 ∧ s.alarms.present &&& ~~~s.alarms.latched = 0

/-! ### Dials -/

/-- A dial's count lies in its range (R90, R92). -/
def dialOk (d : DialState) : Prop := d.range.min ≤ d.count ∧ d.count ≤ d.range.max

def dialsOk (s : State) : Prop := dialOk s.dials.e0 ∧ dialOk s.dials.e1

/-! ### Pose history -/

/-- The pose history holds at most 64 entries, and its sequences are consecutive mod 65536 (R84). -/
def historyOk (s : State) : Prop :=
  s.motion.history.length ≤ 64 ∧ s.motion.history.IsChain fun p q => q.sequence = p.sequence + 1

/-! ### Slice store -/

/-- The geometry is one that the loader can leave (R113). -/
def geometryOk (s : State) : Prop :=
  let g := s.store.geometry
  (g.S = 8 ∨ g.S = 16 ∨ g.S = 32) ∧ g.H % (8 * g.S) = 0 ∧ 8 * g.S ≤ g.H ∧ g.H ≤ 2048 ∧ g.H ≤ 128 * g.S ∧
    64 ≤ g.W ∧ g.W ≤ 2048

/-- The bytes of the slice store are in their canonical form (log 11). -/
def memoryOk (s : State) : Prop := s.store.mem.wf = true

/-- A LIVE run lies in the buffers and has at most as many of them as the band has slices (R117, passes 1 and 2). -/
def runOk (m : Nat) (b : Band) : Prop := b.access = .live → b.base + b.count ≤ 256 ∧ b.count ≤ m

/-- The sixteen descriptors, left before right (R115). -/
def allBands (s : State) : List Band := s.store.bands.left.toList ++ s.store.bands.right.toList

/-- Every LIVE run is well placed, and no two of them share a buffer (R117). -/
def bandsOk (s : State) : Prop :=
  (∀ b ∈ allBands s, runOk s.store.geometry.bandSlices b) ∧
    (allBands s).Pairwise fun a b => a.access = .live → b.access = .live → runsMeet a b = false

/-! ### Lane receiver -/

/-- Position `p` of an eye is open: its slice has no buffer, or an OPEN one (R110). -/
def openPosition (k : SliceStore) (e : Eye) (p : Nat) : Prop :=
  ∀ b, k.bufferOf e (p % 65536 % k.geometry.slices) = some b → k.buffers[b].full = false

/-- The horizon of an eye is accepted plus the run of open positions from accepted on, capped at N (R110). -/
def horizonIsRun (k : SliceStore) (e : Eye) (r : ReceiverEye) : Prop :=
  let w := (r.horizon - r.accepted).toNat
  w ≤ k.geometry.slices ∧ (∀ i, i < w → openPosition k e (r.accepted.toNat + i)) ∧
    (w = k.geometry.slices ∨ ¬ openPosition k e (r.accepted.toNat + w))

/-- Both horizons are what R110 says, and in LOADING every buffer is OPEN. -/
def horizonsOk (s : State) : Prop :=
  (∀ e, horizonIsRun s.store e (s.laneRx.eyes.get e)) ∧
    (s.loader.life = .loading → ∀ b : Fin 256, s.store.buffers[b].full = false)

/-! ### Scan unit -/

/-- A shift record lies within the clamps of R140, and in LOADING there is none. -/
def shiftsOk (s : State) : Prop :=
  let m : Int := s.scan.settings.maxshift
  let v : Int := (min s.store.geometry.S s.scan.settings.maxshift : Nat)
  (∀ e r, (s.scan.eyes.get e).shift = some r → -(16 * m) ≤ r.dx16 ∧ r.dx16 ≤ 16 * m ∧ -v ≤ r.dy ∧ r.dy ≤ v) ∧
    (s.loader.life = .loading → s.scan.scanning = false ∧ ∀ e, (s.scan.eyes.get e).shift = none)

/-! ### Audio unit -/

/-- The block list accounts for every frame of the ring, each record for at least one, and a BLOCK record that has not
started for 8; IDLE and UNDERRUN have none; only IDLE has no origin, no last sequence and no running silence timer, which
counts to 2,400 (R146, R154). -/
def audioOk (s : State) : Prop :=
  let a := s.audio
  (a.blocks.map (·.remaining)).sum = a.ring.length ∧ (∀ r ∈ a.blocks, 1 ≤ r.remaining) ∧
    (∀ r ∈ a.blocks, r.started = false → r.kind ≠ .fill → r.remaining = 8) ∧
    (a.state = .idle ∨ a.state = .underrun → a.ring = []) ∧
    (a.state = .idle ↔ a.origin = none) ∧ (a.state = .idle ↔ a.lastSeq = none) ∧
    (a.state = .idle ↔ a.silence = none) ∧ ∀ n, a.silence = some n → n ≤ 2400

/-! ### Power -/

/-- The draws do not fall from step 1 to step 3 (R161). -/
def drawsOk (ps : PowerSettings) : Prop := ps.draw[1] ≤ ps.draw[2] ∧ ps.draw[2] ≤ ps.draw[3]

/-- The station draws within its grant, and stands at step 0 in LOADING and while OVERDRAW is latched (R162, R170,
R172). -/
def powerOk (s : State) : Prop :=
  let p := s.power
  drawsOk p.settings ∧ (p.step = 0 ∨ p.settings.draw[p.step] ≤ p.grant) ∧
    (s.isLatched .overdraw → p.step = 0) ∧ (s.loader.life = .loading → p.step = 0 ∧ p.reading = none)

end Sys2Proof.Machine
end

