-- ==== Sys2Proof/Certificates/Slice0/Obligations.lean ====
section
/-! DEFINITION. The statements for the provers, from the numbered rules of the spec. A statement's parts and the terms it
is written in stand under `Stated`. -/

section Statements

open Sys2Proof Sys2Proof.Machine

/-! ### The queue of commands (log 1) -/

/-- 95_what_each_step_holds.md. A step runs the command at the front of the queue on the state with the queue's rest.
The model's choices in it: log 1: the queue. -/
def Obligations.StepRunsFrontCommand : Prop :=
  ∀ (c : Instr) (rest : List Instr) (s : State),
    step { s with pending := c :: rest } = exec c { s with pending := rest }

/-- R59, R60, R61, R131. MODEL'S CHOICE (logs 1 and 5): with no command waiting, a step is one microsecond of the
oscillator. The local count rises by 1, the slew moves agreed time and every held time by one sixteenth, the line clock
of a running scan rises by 16 sixteenths, and the events then due join the queue. What other stations do to the alert
wire is whatever it is, and the count of free values rises by 1 (log 12). The agreed time that was is kept for the start
bit of a message that ends later (log 4). Nothing else changes. -/
def Obligations.EmptyQueueLetsAMicrosecondPass : Prop :=
  ∀ (s : State), s.pending = [] → s.time.localCount < 2 ^ 48 - 1 →
    let d : Int := if 0 < s.time.slew then 1 else if s.time.slew < 0 then -1 else 0
    ∃ t, step s = .next t ∧
      t.time =
        { s.time with
          localCount := s.time.localCount + 1
          offset := s.time.offset + d
          slew := s.time.slew - d
          table := s.time.table.map (·.map fun r => { r with ownTime := r.ownTime + d, lastHeard := r.lastHeard + d })
          prevStart := s.time.prevStart.map (· + d)
          timer := s.time.timer.map (· + d)
          readings := ({ read := s.agreed, offset := s.time.offset } :: s.time.readings).take 29 } ∧
      t.spine = { s.spine with tx := s.spine.tx.map fun x => { x with startMoved := x.startMoved + d } } ∧
      t.scan = { s.scan with lineClock := if s.scan.scanning then s.scan.lineClock + 16 else s.scan.lineClock } ∧
      t = { s with
        time := t.time
        spine := t.spine
        scan := t.scan
        pins := { s.pins with alertOthers := t.pins.alertOthers }
        free := s.free + 1
        pending := dueEvents t }

/-! ### Starts (R7, R8, R23) -/

/-- What R7 and R8 ask of a station before a start. -/
def Stated.mayBegin (s : State) (further : Nat) : Prop :=
  s.loader.life = .running ∧ s.spine.standing ≠ .cut ∧ s.spine.tx = none ∧ s.spine.receiving = false ∧
    1 ≤ s.spine.quietRuns ∧
    (s.spine.standing = .muted → s.spine.lastOwn = true → 18 ≤ 10 * s.spine.quietRuns + further)

/-- R8, R23. A start takes the PENDING slot of lowest rank, the earlier in slot order among equals. It becomes SENDING,
its attempt count rises by 1, and its content at that moment is the message. Other slots and units stay as they were. -/
def Stated.StartTakesPendingSlotOfLowestRank : Prop :=
  ∀ (s : State) (n : SlotName) (further : Nat),
    Stated.mayBegin s further → (s.slot n).state = .pending →
    (∀ m, (s.slot m).state = .pending → m ≠ n →
      (s.slot n).content.rank.toNat < (s.slot m).content.rank.toNat ∨
        (s.slot n).content.rank = (s.slot m).content.rank ∧ slotOrder.idxOf n < slotOrder.idxOf m) →
    exec (.spineStart further false) s = .next
      { s with
        slots := s.slots.put n
          { s.slot n with
            state := .sending
            attempts := if (s.slot n).attempts = 255 then 255 else (s.slot n).attempts + 1 }
        spine :=
          { s.spine with
            tx := some
              { slot := n
                rank := (s.slot n).content.rank
                body := (s.slot n).content.body
                check := spineCheck (s.slot n).content.rank (s.slot n).content.body
                loop := (s.slot n).content.loop
                start := s.agreed
                startMoved := s.agreed }
            quietRuns := 0
            drive := .message } }

/-- R7, R8. A station that may not begin, or has no PENDING slot, starts nothing. -/
def Stated.NothingStartsOtherwise : Prop :=
  ∀ (s : State) (further : Nat),
    ¬ Stated.mayBegin s further ∨ (∀ n, (s.slot n).state ≠ .pending) → exec (.spineStart further false) s = .next s

/-- The spine is between messages for a station out of LOADING (R2, R7). -/
def Stated.betweenMessages (s : State) : Prop :=
  s.loader.life ≠ .loading ∧ s.spine.tx = none ∧ s.spine.receiving = false

/-- R7. A driven bit time between messages starts the count of undriven bit times again from 0, so nothing starts there
and no quiet run stands; inside a message and in LOADING it is no event. -/
def Stated.DrivenBitEndsTheQuietRuns : Prop :=
  ∀ (s : State) (further : Nat),
    (Stated.betweenMessages s →
      exec (.spineStart further true) s = .next { s with spine := { s.spine with quietRuns := 0 } }) ∧
    (¬ Stated.betweenMessages s → exec (.spineStart further true) s = .next s)

/-- R7, R8, R23. A start takes the PENDING slot of lowest rank when the station may begin, and nothing otherwise; a
driven bit time takes the quiet runs away. The model's choices in it: log 3: bit times stand below the commands, so the
further undriven bit times, and a driven one since the last quiet run, are operands. -/
def Obligations.StationStartsItsLowestRank : Prop :=
  Stated.StartTakesPendingSlotOfLowestRank ∧ Stated.NothingStartsOtherwise ∧ Stated.DrivenBitEndsTheQuietRuns

/-! ### Quiet runs and rejoin (R7, R46, R47) -/

/-- The quiet runs since the last driven bit time, once one more is complete; a driven bit time before its ten leaves it
the only one (R7). -/
def Stated.quietRuns (s : State) (driven : Bool) : Nat := if driven then 1 else min (s.spine.quietRuns + 1) 2

/-- R7. A completed quiet run outside CUT and LOADING is counted, and touches the spine controller alone. -/
def Stated.QuietRunIsCounted : Prop :=
  ∀ (s : State) (driven : Bool), Stated.betweenMessages s → s.spine.standing ≠ .cut →
    exec (.quietRun driven) s = .next
      { s with
        spine := { s.spine with synced := true, quietRuns := Stated.quietRuns s driven, drive := .undriven } }

/-- R46. A quiet run lowers the rejoin countdown of a CUT station by 1. -/
def Stated.QuietRunLowersRejoinCountdown : Prop :=
  ∀ (s : State) (driven : Bool), Stated.betweenMessages s → s.spine.standing = .cut → 2 ≤ s.spine.sfc →
    exec (.quietRun driven) s = .next
      { s with
        spine :=
          { s.spine with
            synced := true
            quietRuns := Stated.quietRuns s driven
            drive := .undriven
            sfc := s.spine.sfc - 1 } }

/-- The ALARM content formed at a moment: rank class 0, topic 0, own origin; the flags latched, the flags unsent, the
standing and the step (R54). -/
def Stated.alarmContent (s : State) (standing : Standing) : Content :=
  { rank := BitVec.ofNat 12 s.straps.node.val
    body := beBytes 2 s.alarms.latched.toNat ++ beBytes 2 s.alarms.unsent.toNat ++
      [BitVec.ofNat 8 standing.code, BitVec.ofNat 8 s.power.step.val]
    singleShot := false
    loop := false }

/-- R46, R47, R55, R159. The quiet run that brings the countdown to 0 lets a RUNNING station rejoin, by QUIET_RUN and by
REJOIN alike (which of the two the outside hands over is log 8's): OPEN, both counts 0, the ALARM slot loaded exactly if
a mark is unsent, and capture started afresh if it is switched on. -/
def Stated.CountdownAtZeroRejoins : Prop :=
  ∀ (s : State) (i : Instr) (driven : Bool), i = .quietRun driven ∨ i = .rejoin driven →
    s.loader.life = .running → s.spine.tx = none → s.spine.receiving = false → s.spine.standing = .cut →
    s.spine.sfc = 1 →
    ∃ t, exec i s = .next t ∧
      t.spine =
        { s.spine with
          synced := true
          quietRuns := Stated.quietRuns s driven
          drive := .undriven
          standing := .open
          sfc := 0
          tfc := 0 } ∧
      t.slots =
        (if s.alarms.unsent = 0 then s.slots
          else { s.slots with alarm := s.slots.alarm.load (Stated.alarmContent s .open) }) ∧
      t.audio =
        (if s.straps.role = .headset ∧ s.audio.capture.switch = true then
          { s.audio with
            capture :=
              { s.audio.capture with
                a := { state := .filling, stamp := 0, samples := [] }
                b := { state := .free, stamp := 0, samples := [] } } }
          else s.audio) ∧
      t = { s with spine := t.spine, slots := t.slots, audio := t.audio }

/-- R7, R46, R47. Quiet runs are counted, lower the rejoin countdown, and end CUT. The model's choices in it: log 3:
quiet runs are held at 2, and a driven bit time is an operand; log 8: QUIET_RUN and REJOIN do the same at the
countdown's end; log 28: the stamp of a capture buffer without samples. -/
def Obligations.QuietRunsAreCountedAndEndCut : Prop :=
  Stated.QuietRunIsCounted ∧ Stated.QuietRunLowersRejoinCountdown ∧ Stated.CountdownAtZeroRejoins

/-! ### The end of a send (R9, R10, R14, R24, R27, R42) -/

/-- A slot after a loss or an error whose content stays to be sent: PENDING with the same content or the held record,
attempts kept, no abort mark (R24). -/
def Stated.backToPending (sl : Slot) : Slot :=
  { sl with state := .pending, content := sl.held.getD sl.content, held := none, abortMark := false }

/-- A slot after an outcome: PENDING with its held record, or EMPTY, with attempt count 0 and no abort mark (R24). That
a record held since an ABORT is kept too is the model's choice (log 40), and so is the content an EMPTY slot then has
(log 28). -/
def Stated.afterOutcome (sl : Slot) : Slot :=
  match sl.held with
  | some c => { sl with state := .pending, content := c, held := none, attempts := 0, abortMark := false }
  | none =>
    { sl with
      state := .empty
      content := { rank := 0, body := [], singleShot := false, loop := false }
      held := none
      attempts := 0
      abortMark := false }

/-- The outcome queue of the local port with one more OUTCOME; it holds 6 (R182). What a seventh does is the model's
choice (log 43). -/
def Stated.withOutcome (p : LocalPort) (o : SendOutcome) (attempts : BitVec 8) : LocalPort :=
  if p.outcomes.length < 6 then { p with outcomes := p.outcomes ++ [{ outcome := o, attempts := attempts }] } else p

/-- R24, R27. A slot's send ends without SENT. Without single-shot and abort mark the slot is PENDING again and no
outcome is given; a single-shot PORT message ends with `o`, a marked one with ABORTED. -/
def Stated.slotAfterUnsent (s : State) (n : SlotName) (o : SendOutcome) (t : State) : Prop :=
  let sl := s.slot n
  (sl.content.singleShot = false → sl.abortMark = false →
    t.slots = s.slots.put n (Stated.backToPending sl) ∧ t.port = s.port) ∧
  (n = .port → sl.content.singleShot = true →
    t.slots = s.slots.put .port (Stated.afterOutcome sl) ∧ t.port = Stated.withOutcome s.port o sl.attempts) ∧
  (n = .port → sl.content.singleShot = false → sl.abortMark = true →
    t.slots = s.slots.put .port (Stated.afterOutcome sl) ∧
      t.port = Stated.withOutcome s.port .aborted sl.attempts)

/-- A station that loses arbitration is no longer the sender, receives the rest, counts the loss and nothing else; its
slot ends as R24 and R27 say. -/
def Stated.ArbitrationLossIsNoError : Prop :=
  ∀ (s : State) (x : Transmission), s.spine.tx = some x →
    ∃ t, exec .arbitrationLoss s = .next t ∧
      t.spine =
        { s.spine with tx := none, receiving := true, drive := .undriven, losses := bump s.spine.losses } ∧
      Stated.slotAfterUnsent s x.slot .lost t ∧
      t = { s with spine := t.spine, slots := t.slots, port := t.port }

/-- What R42 adds to SFC for a send error. -/
def Stated.sendFault (k : SendErrorKind) (standing : Standing) : Nat :=
  if k = .echo ∧ standing = .muted then 0 else 8

/-- A send error that SFC can take, in a station that does not leave OPEN by it: the count rises by 8 (an ECHO error in
MUTED adds nothing), the standing follows from the counts, the kind is counted, the message is over and the spoil driven
is dominant in OPEN and STRAINED, recessive in MUTED; the slot ends as R24 and R27 say. That the standing is taken afresh
before the spoil is the model's choice (log 13). -/
def Stated.SendErrorRaisesSendFaultCount : Prop :=
  ∀ (s : State) (x : Transmission) (k : SendErrorKind), s.spine.tx = some x → s.spine.standing ≠ .cut →
    s.spine.sfc + Stated.sendFault k s.spine.standing ≤ 255 →
    let sfc := s.spine.sfc + Stated.sendFault k s.spine.standing
    let standing := standingOf sfc s.spine.tfc s.spine.strain
    (s.spine.standing = .open → standing = .open) →
    ∃ t, exec (.sendError k) s = .next t ∧
      t.spine =
        { s.spine with
          sfc := sfc
          standing := standing
          tx := none
          receiving := false
          quietRuns := 0
          lastOwn := true
          drive := if standing = .muted then .recessiveSpoil else .spoil
          driveErrors := if k = .drive then bump s.spine.driveErrors else s.spine.driveErrors
          shapeErrors := if k = .shape then bump s.spine.shapeErrors else s.spine.shapeErrors
          echoErrors := if k = .echo then bump s.spine.echoErrors else s.spine.echoErrors } ∧
      Stated.slotAfterUnsent s x.slot .failed t ∧
      t = { s with spine := t.spine, slots := t.slots, port := t.port }

/-- A send error that takes an OPEN station's SFC to the strain level leaves OPEN and latches STRAIN, with its mark and
an ALARM load if its message enable is set and it was not latched (R44, R49, R55). -/
def Stated.LeavingOpenLatchesStrain : Prop :=
  ∀ (s : State) (x : Transmission) (k : SendErrorKind), s.spine.tx = some x → s.loader.life = .running →
    s.spine.standing = .open → s.spine.strain ≤ s.spine.sfc + 8 → s.spine.sfc + 8 ≤ 255 → s.spine.strain ≤ 127 →
    s.spine.tfc < s.spine.strain → s.isLatched .strain = false →
    ∃ t, exec (.sendError k) s = .next t ∧ t.spine.sfc = s.spine.sfc + 8 ∧
      t.spine.standing = (if s.spine.sfc + 8 < 128 then .strained else .muted) ∧
      t.alarms.latched = s.alarms.latched ||| 4#12 ∧
      t.alarms.unsent = (if s.alarms.message.getLsbD 2 then s.alarms.unsent ||| 4#12 else s.alarms.unsent) ∧
      (s.alarms.message.getLsbD 2 = true → x.slot ≠ .alarm → (s.slots.alarm).state = .empty →
        t.slots.alarm =
          { s.slots.alarm with
            state := .pending
            content := Stated.alarmContent
              { s with alarms := { s.alarms with latched := t.alarms.latched, unsent := t.alarms.unsent } }
              t.spine.standing
            attempts := 0 }) ∧
      t = { s with spine := t.spine, slots := t.slots, port := t.port, alarms := t.alarms }

/-- R25, R42, R45, R159. A send error that SFC cannot take makes a RUNNING station CUT: SFC 64 as the countdown, TFC 0,
nothing driven, every slot EMPTY without held record and with attempt count 0, one FAILED for the PORT slot if it was
not EMPTY, CUT latched, and the error counted by its kind. -/
def Stated.SendErrorAboveLimitEntersCut : Prop :=
  ∀ (s : State) (x : Transmission) (k : SendErrorKind), s.spine.tx = some x → s.loader.life = .running →
    (k = .echo → s.spine.standing ≠ .muted) → 255 < s.spine.sfc + 8 →
    ∃ t, exec (.sendError k) s = .next t ∧
      t.spine =
        { s.spine with
          standing := .cut
          sfc := 64
          tfc := 0
          tx := none
          receiving := false
          quietRuns := 0
          lastOwn := true
          drive := .undriven
          driveErrors := if k = .drive then bump s.spine.driveErrors else s.spine.driveErrors
          shapeErrors := if k = .shape then bump s.spine.shapeErrors else s.spine.shapeErrors
          echoErrors := if k = .echo then bump s.spine.echoErrors else s.spine.echoErrors } ∧
      (∀ n, (t.slot n).state = .empty ∧ (t.slot n).attempts = 0 ∧ (t.slot n).held = none ∧
        (t.slot n).abortMark = false ∧ (t.slot n).superseded = (s.slot n).superseded) ∧
      t.port =
        (if s.slots.port.state = .empty then s.port
          else Stated.withOutcome s.port .failed s.slots.port.attempts) ∧
      t.alarms.latched = s.alarms.latched ||| 8#12 ∧
      (s.straps.role = .headset → s.audio.capture.switch = true →
        t.audio.capture.a.state = .free ∧ t.audio.capture.b.state = .free) ∧
      t = { s with
        spine := t.spine
        slots := t.slots
        port := t.port
        alarms := t.alarms
        cmd := t.cmd
        loader := t.loader
        audio := t.audio } ∧
      t.cmd = { s.cmd with answering := if s.slots.reply.state = .empty then s.cmd.answering else none }

/-- R9, R10, R42, R44, R45. What a loss and a send error leave: the slot, the count, the standing. The model's choices
in it: log 13: the order within a send error; log 28: the content of an EMPTY slot; log 40: a record held since an ABORT
becomes the content of its slot; log 43: a seventh OUTCOME finds no place. -/
def Obligations.UnsentMessagesEndAsTheirSlotSays : Prop :=
  Stated.ArbitrationLossIsNoError ∧
    Stated.SendErrorRaisesSendFaultCount ∧
    Stated.LeavingOpenLatchesStrain ∧
    Stated.SendErrorAboveLimitEntersCut

/-- A good send lowers SFC by 1, not below 0, settles the standing from the counts, gives the slot SENT and ends the
message. Here for a message of the POSE, CREDIT, AUDIO or POWER slot, whose owners do nothing with SENT (R26). -/
def Stated.GoodSendLowersSendFaultCount : Prop :=
  ∀ (s : State) (x : Transmission), s.spine.tx = some x →
    x.slot = .pose ∨ x.slot = .credit ∨ x.slot = .audio ∨ x.slot = .power → x.loop = false →
    s.spine.standing ≠ .cut →
    let standing := standingOf (s.spine.sfc - 1) s.spine.tfc s.spine.strain
    (s.spine.standing = .open → standing = .open) →
    exec .sendEnd s = .next
      { s with
        slots := s.slots.put x.slot (Stated.afterOutcome (s.slot x.slot))
        spine :=
          { s.spine with
            sfc := s.spine.sfc - 1
            standing := standing
            tx := none
            receiving := false
            quietRuns := 0
            lastOwn := true
            drive := .undriven } }

/-- A beacon that is SENT: the beacon number rises by 1 mod 256, its start, moved by the corrections since, is the
previous start, and it is counted (R64). -/
def Stated.BeaconSentRecordsItsStart : Prop :=
  ∀ (s : State) (x : Transmission), s.spine.tx = some x → x.slot = .time → x.loop = false → s.spine.standing ≠ .cut →
    ∃ t, exec .sendEnd s = .next t ∧
      t.time =
        { s.time with
          beaconNumber := s.time.beaconNumber + 1
          prevStart := some x.startMoved
          beaconsSent := bump s.time.beaconsSent } ∧
      t.slots.time = Stated.afterOutcome s.slots.time ∧ t.spine.sfc = s.spine.sfc - 1 ∧ t.spine.tx = none ∧
      t.port = s.port ∧ t.cmd = s.cmd ∧ t.loader = s.loader ∧ t.power = s.power

/-- An ALARM message that is SENT takes the unsent marks of the flags it carried, unless the held record that becomes
the slot's content carries them too (R56). -/
def Stated.AlarmSentClearsMarksCarried : Prop :=
  ∀ (s : State) (x : Transmission) (carried : FlagMask), s.spine.tx = some x → x.slot = .alarm → x.loop = false →
    s.spine.standing ≠ .cut →
    standingOf (s.spine.sfc - 1) s.spine.tfc s.spine.strain = s.spine.standing →
    (x.body.drop 2).take 2 = beBytes 2 carried.toNat →
    ∃ t, exec .sendEnd s = .next t ∧ t.slots.alarm = Stated.afterOutcome s.slots.alarm ∧
      (s.slots.alarm.held = none → t.alarms = { s.alarms with unsent := s.alarms.unsent &&& ~~~carried }) ∧
      (∀ (c : Content) (again : FlagMask), s.slots.alarm.held = some c →
        (c.body.drop 2).take 2 = beBytes 2 again.toNat →
        t.alarms = { s.alarms with unsent := s.alarms.unsent &&& ~~~(carried &&& ~~~again) }) ∧
      t = { s with spine := t.spine, slots := t.slots, alarms := t.alarms }

/-- A PORT or REPLY message that is SENT: the local port is given SENT with the attempt count; the command unit becomes
FREE (R26). -/
def Stated.SentGoesToPortAndCommandUnit : Prop :=
  ∀ (s : State) (x : Transmission), s.spine.tx = some x → x.loop = false → s.spine.standing ≠ .cut →
    (x.slot = .port →
      ∃ t, exec .sendEnd s = .next t ∧ t.port = Stated.withOutcome s.port .sent s.slots.port.attempts ∧
        t.slots.port = Stated.afterOutcome s.slots.port ∧ t.cmd = s.cmd) ∧
    (x.slot = .reply →
      ∃ t, exec .sendEnd s = .next t ∧ t.cmd = { s.cmd with answering := none } ∧
        t.slots.reply = Stated.afterOutcome s.slots.reply ∧ t.port = s.port ∧
        t.loader =
          { s.loader with
            restartDue := s.loader.restartDue || (s.cmd.answering.map (·.code)) == some 11 })

/-- The intake table hands messages of a rank to their unit, and may queue them besides (R30). -/
def Stated.toUnit (s : State) (r : Rank) : Prop := s.intake.destination r = .unit ∨ s.intake.destination r = .both

/-- The class, with the topic, has a unit in the role: TIME, POWER and COMMAND in every role, CREDIT on CONSOLE, AUDIO
topic 0 on HEADSET (R30). -/
def Stated.hasUnit (role : Role) (rank : Rank) : Bool :=
  match rank.toNat / 256 with
  | 1 => true
  | 2 => role = .console
  | 4 => role = .headset ∧ rank.toNat / 8 % 32 = 0
  | 5 => true
  | 6 => true
  | _ => false

/-- The destination as it acts in the role: where there is no unit, UNIT acts as DROP and BOTH as QUEUE (R30). -/
def Stated.acts (s : State) (rank : Rank) : Destination :=
  if Stated.hasUnit s.straps.role rank then s.intake.destination rank
  else
    match s.intake.destination rank with
    | .unit => .drop
    | .both => .queue
    | .queue => .queue
    | .drop => .drop

/-- The intake after a message is handed to it that goes to `d` (R30, R32, R33): it is counted as taken; a dropped one is
counted; one for the queue, also one that goes to its unit as well, is stored if it fits the 1024 bytes, with agreed time
at its start bit in units of 16 µs, and overruns else; one for its unit alone is not stored. -/
def Stated.takenIn (k : Intake) (d : Destination) (rank : Rank) (body : List Byte) (start : Nat) : Intake :=
  if d = .drop then { k with taken := bump k.taken, dropped := bump k.dropped }
  else if d = .unit then { k with taken := bump k.taken }
  else if k.used + (4 + 4 * ((body.length + 3) / 4)) ≤ 1024 then
    { k with
      taken := bump k.taken
      queue := k.queue ++
        [{ rank := rank, body := body, time := BitVec.ofNat 14 (start / 256), restartReply := false }] }
  else { k with taken := bump k.taken, overrun := true, overruns := bump k.overruns }

/-- The state after a message of the PORT slot with the loop flag has ended well, but for what the loop does (R24, R26,
R42). -/
def Stated.portSent (s : State) : State :=
  { s with
    slots := { s.slots with port := Stated.afterOutcome s.slots.port }
    port := Stated.withOutcome s.port .sent s.slots.port.attempts
    spine :=
      { s.spine with
        sfc := s.spine.sfc - 1
        standing := standingOf (s.spine.sfc - 1) s.spine.tfc s.spine.strain
        tx := none
        receiving := false
        quietRuns := 0
        lastOwn := true
        drive := .undriven } }

/-- R28, R30, R36. A PORT message that carried the loop flag and ends well is also matched against the own intake table
as a taken message with its rank, its body and agreed time at its start bit: stored, dropped or neither as its
destination says. To the queue or to nowhere it goes as any message, and nothing else happens. A COMMAND for the own node
or for all that goes to its unit, or to both, with arguments its code admits, joins the command queue marked for a local
reply, or is dropped by a full one. -/
def Stated.LoopedMessageReachesTheOwnIntake : Prop :=
  ∀ (s : State) (x : Transmission), s.spine.tx = some x → x.slot = .port → x.loop = true → s.spine.standing ≠ .cut →
    (s.spine.standing = .open → standingOf (s.spine.sfc - 1) s.spine.tfc s.spine.strain = .open) →
    let intake := Stated.takenIn s.intake (Stated.acts s x.rank) x.rank x.body x.start
    (∃ t, exec .sendEnd s = .next t ∧ t.intake = intake ∧ t.slots.port = Stated.afterOutcome s.slots.port ∧
      t.port = Stated.withOutcome s.port .sent s.slots.port.attempts) ∧
    (Stated.acts s x.rank = .queue ∨ Stated.acts s x.rank = .drop →
      exec .sendEnd s = .next { Stated.portSent s with intake := intake }) ∧
    (Stated.toUnit s x.rank → x.rank.toNat / 256 = 6 → 2 ≤ x.body.length → x.body.length ≤ 40 →
      (byteAt x.body 0).toNat = s.straps.node.val ∨ byteAt x.body 0 = 255 →
      let code := BitVec.ofNat 5 (x.rank.toNat / 8 % 32)
      admits code (x.body.length - 2) = true →
      exec .sendEnd s = .next
        { Stated.portSent s with
          intake := intake
          cmd :=
            if s.cmd.queue.length < 8 then
              { s.cmd with
                queue := s.cmd.queue ++
                  [{ origin := Fin.ofNat 8 (x.rank.toNat % 8)
                     code := code
                     tag := byteAt x.body 1
                     args := x.body.drop 2
                     isLocal := true }] }
            else { s.cmd with drops := bump s.cmd.drops } })

/-- R14, R24, R26, R28, R42. A message that ends well lowers SFC, frees its slot and is handed to its owner, and to the
own intake if it is looped. The model's choices in it: log 28: the content of an EMPTY slot; log 40: a record held since
an ABORT becomes the content of the PORT slot; log 43: a seventh OUTCOME finds no place. -/
def Obligations.GoodSendIsHandedToItsOwner : Prop :=
  Stated.GoodSendLowersSendFaultCount ∧
    Stated.BeaconSentRecordsItsStart ∧
    Stated.AlarmSentClearsMarksCarried ∧
    Stated.SentGoesToPortAndCommandUnit ∧
    Stated.LoopedMessageReachesTheOwnIntake

/-! ### Receiving (R11, R13, R14, R18, R19, R43) -/

/-- R2. A receiver that is out of LOADING, has seen a quiet run, and is neither CUT nor sending. -/
def Stated.receiving (s : State) : Prop :=
  s.loader.life ≠ .loading ∧ s.spine.standing ≠ .cut ∧ s.spine.tx = none ∧ s.spine.synced = true

/-- The commands by which a receiver classes an error of this kind (R11): its own row; and a message that reaches the end
run with a length field above 40, which is SHAPE, or else with a wrong check. -/
def Stated.classes (i : Instr) (k : ReceiveErrorKind) : Prop :=
  i = .receiveError k ∨
    ∃ m, i = .messageTaken m ∧
      (k = .shape ∧ 40 < m.body.length ∨ k = .check ∧ m.body.length ≤ 40 ∧ m.check ≠ spineCheck m.rank m.body)

/-- The spine controller after a receiver error (R7, R11, R12, R15, R43): TFC rises by 1, saturating at 255, the standing
follows from the counts, the error is counted by its kind, and the spoil of that standing is driven. -/
def Stated.afterReceiveError (p : Spine) (k : ReceiveErrorKind) : Spine :=
  let standing := standingOf p.sfc (min (p.tfc + 1) 255) p.strain
  { p with
    tfc := min (p.tfc + 1) 255
    standing := standing
    receiving := false
    quietRuns := 0
    lastOwn := false
    drive := if standing = .muted then .recessiveSpoil else .spoil
    shapeErrors := if k = .shape then bump p.shapeErrors else p.shapeErrors
    checkErrors := if k = .check then bump p.checkErrors else p.checkErrors }

/-- A receiver error raises TFC and drives the spoil, and nothing else changes in a station that does not leave OPEN by
it. -/
def Stated.ReceiverErrorMovesTheSpineAlone : Prop :=
  ∀ (s : State) (i : Instr) (k : ReceiveErrorKind), Stated.receiving s → Stated.classes i k →
    (s.spine.standing = .open → standingOf s.spine.sfc (min (s.spine.tfc + 1) 255) s.spine.strain = .open) →
    exec i s = .next { s with spine := Stated.afterReceiveError s.spine k }

/-- R44, R49, R55. A receiver error that takes an OPEN station's TFC to the strain level leaves OPEN and latches STRAIN,
with its mark and, in RUNNING, an ALARM load if its message enable is set. A STRAIN latched already is left as it is. -/
def Stated.ReceiverErrorLeavingOpenLatchesStrain : Prop :=
  ∀ (s : State) (i : Instr) (k : ReceiveErrorKind), Stated.receiving s → Stated.classes i k →
    s.spine.standing = .open → s.spine.sfc < s.spine.strain → s.spine.strain ≤ s.spine.tfc + 1 →
    s.spine.tfc + 1 ≤ 255 → s.spine.strain ≤ 127 →
    ∃ t, exec i s = .next t ∧ t.spine = Stated.afterReceiveError s.spine k ∧
      t.spine.standing = (if s.spine.tfc + 1 < 128 then .strained else .muted) ∧
      (s.isLatched .strain = true → t.alarms = s.alarms ∧ t.slots = s.slots) ∧
      (s.isLatched .strain = false →
        t.alarms =
          { s.alarms with
            latched := s.alarms.latched ||| 4#12
            unsent := if s.alarms.message.getLsbD 2 then s.alarms.unsent ||| 4#12 else s.alarms.unsent } ∧
        (s.alarms.message.getLsbD 2 = false → t.slots = s.slots) ∧
        (s.alarms.message.getLsbD 2 = true → s.loader.life = .running →
          t.slots =
            { s.slots with
              alarm := s.slots.alarm.load (Stated.alarmContent { s with alarms := t.alarms } t.spine.standing) })) ∧
      t = { s with spine := t.spine, alarms := t.alarms, slots := t.slots }

/-- R11, R12, R15, R43, R44, R49. What a receiver error leaves. The model's choices in it: log 4: a message handed over
whole is judged by its length and its check; log 13: the spoil is that of the standing after the error. -/
def Obligations.ReceiverErrorRaisesTakeFaultCount : Prop :=
  Stated.ReceiverErrorMovesTheSpineAlone ∧ Stated.ReceiverErrorLeavingOpenLatchesStrain

/-- Agreed time as the station read it at the start bit of a message that ends now, with the offset it then had (R14): the
42 + 8 × L bit times of the message fit that many whole microseconds, and one more began before it where the start bit
lay so. How the station comes by that reading is the model's choice (log 4). -/
def Stated.startReading (s : State) (m : Received) : TimeReading :=
  let bitTime := match s.straps.rate with | .mbit12 => 80 | .mbit25 => 40
  let age := (42 + 8 * m.body.length) * bitTime / 1000 + (if m.extra then 1 else 0)
  s.time.readings.getD (age - 1) { read := s.agreed, offset := s.time.offset }

/-- That reading as the corrections since have moved it (R61). -/
def Stated.startMoved (s : State) (m : Received) : Int :=
  (Stated.startReading s m).read + (s.time.offset - (Stated.startReading s m).offset)

/-- TFC after a good receipt (R43). -/
def Stated.afterReceipt (tfc : Nat) : Nat := if 128 ≤ tfc then 112 else tfc - 1

/-- R14, R30, R33, R43. A message taken whose destination acts as QUEUE or DROP: it is echoed, TFC falls by 1 or from 128 and
above to 112, the standing follows from the counts, and the message is stored with its time of receipt if it fits the
1024 bytes, else overruns; a dropped one is counted. No unit is touched. -/
def Stated.TakenMessageIsStoredOrDropped : Prop :=
  ∀ (s : State) (m : Received), Stated.receiving s → m.body.length ≤ 40 → m.check = spineCheck m.rank m.body →
    m.rank.toNat % 8 ≠ s.straps.node.val →
    s.spine.standing ≠ .open ∨ standingOf s.spine.sfc (Stated.afterReceipt s.spine.tfc) s.spine.strain = .open →
    Stated.acts s m.rank = .queue ∨ Stated.acts s m.rank = .drop →
    ∃ t, exec (.messageTaken m) s = .next t ∧
      t.spine =
        { s.spine with
          tfc := Stated.afterReceipt s.spine.tfc
          standing := standingOf s.spine.sfc (Stated.afterReceipt s.spine.tfc) s.spine.strain
          receiving := false
          quietRuns := 0
          lastOwn := false
          drive := .echo } ∧
      t.intake = Stated.takenIn s.intake (Stated.acts s m.rank) m.rank m.body (Stated.startReading s m).read ∧
      t = { s with spine := t.spine, intake := t.intake }

/-- R30, R33. Whatever its destination, and whatever its unit makes of it, a message taken is counted, and one for the
queue is stored, also where it goes to its unit as well; one for its unit alone is not stored. -/
def Stated.IntakeKeepsWhatGoesToTheQueue : Prop :=
  ∀ (s : State) (m : Received), Stated.receiving s → m.body.length ≤ 40 → m.check = spineCheck m.rank m.body →
    m.rank.toNat % 8 ≠ s.straps.node.val →
    ∃ t, exec (.messageTaken m) s = .next t ∧
      t.intake = Stated.takenIn s.intake (Stated.acts s m.rank) m.rank m.body (Stated.startReading s m).read ∧
      t.pins = s.pins ∧ t.sched = s.sched ∧ t.motion = s.motion ∧ t.dials = s.dials ∧ t.scan = s.scan ∧ t.port = s.port

/-- A rank goes where the first entry that agrees with it says: every bit set in the care mask equals the match value;
where none agrees it is dropped (R29, R30). -/
def Stated.FirstAgreeingEntryDecides : Prop :=
  ∀ (k : Intake) (r : Rank),
    (∀ i : Fin 8, (∀ b : Fin 12, k.table[i].care.getLsbD b = true → r.getLsbD b = k.table[i].matchValue.getLsbD b) →
      (∀ j : Fin 8, j < i →
        ∃ b : Fin 12, k.table[j].care.getLsbD b = true ∧ r.getLsbD b ≠ k.table[j].matchValue.getLsbD b) →
      k.destination r = k.table[i].dest) ∧
    ((∀ j : Fin 8, ∃ b : Fin 12,
      k.table[j].care.getLsbD b = true ∧ r.getLsbD b ≠ k.table[j].matchValue.getLsbD b) → k.destination r = .drop)

/-- R14, R29, R30, R33, R43. A taken message goes where the first agreeing entry says. The model's choices in it: log
4: how agreed time at the start bit is held. -/
def Obligations.TakenMessageGoesWhereTheTableSays : Prop :=
  Stated.TakenMessageIsStoredOrDropped ∧ Stated.IntakeKeepsWhatGoesToTheQueue ∧ Stated.FirstAgreeingEntryDecides

/-- R13, R18, R19, R25, R43. A message of the station's own origin: it is echoed and counts as a good receipt, is not
handed to the intake, is counted, and latches DUPNODE, whose condition is present from then on. A RUNNING station
withdraws to LISTENING with every slot EMPTY; one in LISTENING stays there with its slots as they were. The model's
choices in it: log 14: the order of the counter, DUPNODE and the withdrawal. -/
def Obligations.OwnOriginWithdrawsStation : Prop :=
  ∀ (s : State) (m : Received), Stated.receiving s → m.body.length ≤ 40 → m.check = spineCheck m.rank m.body →
    m.rank.toNat % 8 = s.straps.node.val →
    ∃ t, exec (.messageTaken m) s = .next t ∧ t.spine.drive = .echo ∧
      t.spine.tfc = Stated.afterReceipt s.spine.tfc ∧ t.spine.sfc = s.spine.sfc ∧
      t.spine.duplicates = bump s.spine.duplicates ∧ t.intake = s.intake ∧
      (s.alarms.present.getLsbD 1 = false → t.alarms.latched.getLsbD 1 = true) ∧ t.alarms.present.getLsbD 1 = true ∧
      t.loader.life = .listening ∧
      (s.loader.life = .running → ∀ n, (t.slot n).state = .empty ∧ (t.slot n).held = none ∧ (t.slot n).attempts = 0) ∧
      (s.loader.life = .listening → ∀ n, (t.slot n).state = (s.slot n).state) ∧
      t.motion = s.motion ∧ t.power = s.power ∧ t.store = s.store ∧ t.scan = s.scan ∧ t.dials = s.dials ∧
      t.laneRx = s.laneRx ∧ t.laneTx = s.laneTx

/-! ### The command unit (R36 to R41) -/

/-- R38. The command unit is FREE, and `c` is the oldest command of its queue. -/
def Stated.oldest (s : State) (c : Command) (rest : List Command) : Prop :=
  s.cmd.answering = none ∧ s.cmd.queue = c :: rest

/-- The oldest command is marked for a spine reply, which a RUNNING station outside CUT can load (R22, R39). -/
def Stated.repliesBySpine (s : State) (c : Command) (rest : List Command) : Prop :=
  Stated.oldest s c rest ∧ c.isLocal = false ∧ s.loader.life = .running ∧ s.spine.standing ≠ .cut ∧
    s.slots.reply.state = .empty

/-- The oldest command is marked for a local reply (R39). -/
def Stated.repliesLocally (s : State) (c : Command) (rest : List Command) : Prop :=
  Stated.oldest s c rest ∧ c.isLocal = true

/-- A reply's rank: class 7, the command code as topic, the own node as origin (R40). -/
def Stated.replyRank (s : State) (c : Command) : Rank := BitVec.ofNat 12 (7 * 256 + c.code.toNat * 8 + s.straps.node.val)

/-- A reply's body: requester, tag, result, data (R40). -/
def Stated.replyBody (c : Command) (result : Nat) (data : List Byte) : List Byte :=
  [BitVec.ofNat 8 c.origin.val, c.tag, BitVec.ofNat 8 result] ++ data

/-- R38 to R40. The state `after` a command's own effect, once its spine reply is loaded: the command has left the
queue, the unit is ANSWERING, and the REPLY slot is PENDING with the reply. -/
def Stated.spineReplied (after : State) (c : Command) (rest : List Command) (result : Nat) (data : List Byte) : State :=
  { after with
    cmd := { after.cmd with queue := rest, answering := some c }
    slots :=
      { after.slots with
        reply :=
          { after.slots.reply with
            state := .pending
            content :=
              { rank := Stated.replyRank after c
                body := Stated.replyBody c result data
                singleShot := false
                loop := false }
            attempts := 0 } } }

/-- The flags of a byte, bit 0 first (R184). That the bits which the format does not give are 0 is the model's choice (log
46). -/
def Stated.flags (b0 b1 b2 b3 : Bool) : Byte :=
  BitVec.ofNat 8 ((if b0 then 1 else 0) + (if b1 then 2 else 0) + (if b2 then 4 else 0) + (if b3 then 8 else 0))

/-- R17, R30, R33, R36, R37. A command that reaches the command unit from the spine: one for this station or for all, with
arguments that its code admits, joins the queue if it holds fewer than 8, marked for a spine reply; a queue of 8 drops
it; one for another node changes nothing there; wrong arguments or a body below 2 bytes are malformed. Each is answered
later or never. What goes to the queue besides is stored there, or overruns it, whatever the command unit makes of it
(R30, R33). The model's choices in it: log 4: how agreed time at the start bit is held. -/
def Obligations.ArrivingCommandIsQueuedDroppedOrMalformed : Prop :=
  ∀ (s : State) (m : Received), Stated.receiving s → m.body.length ≤ 40 → m.check = spineCheck m.rank m.body →
    m.rank.toNat % 8 ≠ s.straps.node.val → m.rank.toNat / 256 = 6 → Stated.toUnit s m.rank →
    standingOf s.spine.sfc (Stated.afterReceipt s.spine.tfc) s.spine.strain = s.spine.standing →
    let code := BitVec.ofNat 5 (m.rank.toNat / 8 % 32)
    let dest := (byteAt m.body 0).toNat
    let good := dest = s.straps.node.val ∨ dest = 255
    ∃ t, exec (.messageTaken m) s = .next t ∧
      (m.body.length < 2 → t.cmd = { s.cmd with malformed := bump s.cmd.malformed }) ∧
      (2 ≤ m.body.length → ¬ good → t.cmd = s.cmd) ∧
      (2 ≤ m.body.length → good → admits code (m.body.length - 2) = false →
        t.cmd = { s.cmd with malformed := bump s.cmd.malformed }) ∧
      (2 ≤ m.body.length → good → admits code (m.body.length - 2) = true → 8 ≤ s.cmd.queue.length →
        t.cmd = { s.cmd with drops := bump s.cmd.drops }) ∧
      (2 ≤ m.body.length → good → admits code (m.body.length - 2) = true → s.cmd.queue.length < 8 →
        t.cmd =
          { s.cmd with
            queue := s.cmd.queue ++
              [{ origin := Fin.ofNat 8 (m.rank.toNat % 8)
                 code := code
                 tag := byteAt m.body 1
                 args := m.body.drop 2
                 isLocal := false }] }) ∧
      t.intake = Stated.takenIn s.intake (Stated.acts s m.rank) m.rank m.body (Stated.startReading s m).read ∧
      t = { s with spine := t.spine, intake := t.intake, cmd := t.cmd }

/-- The base block of STATUS (R41). -/
def Stated.baseBlock (s : State) : List Byte :=
  [BitVec.ofNat 8 s.loader.life.code, BitVec.ofNat 8 s.spine.standing.code, BitVec.ofNat 8 s.spine.sfc,
    BitVec.ofNat 8 s.spine.tfc] ++ beBytes 2 s.alarms.latched.toNat ++ [BitVec.ofNat 8 s.power.step.val] ++
    beBytes 2 s.power.grant ++ [BitVec.ofNat 8 (s.time.reference.getD s.straps.node).val] ++
    [Stated.flags s.intake.overrun (s.alarms.latched &&& s.alarms.wire != 0 || s.pins.alertOthers) false false]

/-- The entries of the page of STATUS that every role has for the spine and the commands, the slots and the intake, and
time and schedule (R15, R17, R30, R33, R36, R39, R41, R71). -/
def Stated.commonPage (s : State) (page : Nat) : List Nat :=
  if page = 0 then
    [s.spine.driveErrors.toNat, s.spine.shapeErrors.toNat, s.spine.checkErrors.toNat, s.spine.echoErrors.toNat,
      s.spine.losses.toNat, s.spine.duplicates.toNat, s.time.malformed.toNat, s.laneTx.malformed.toNat,
      s.audio.malformed.toNat, s.power.malformed.toNat, s.cmd.malformed.toNat, s.cmd.drops.toNat,
      s.cmd.discarded.toNat]
  else if page = 1 then
    [s.slots.alarm.superseded.toNat, s.slots.time.superseded.toNat, s.slots.credit.superseded.toNat,
      s.slots.pose.superseded.toNat, s.slots.audio.superseded.toNat, s.slots.power.superseded.toNat,
      s.slots.port.superseded.toNat, s.slots.refused.toNat, s.intake.taken.toNat, s.intake.dropped.toNat,
      s.intake.overruns.toNat, s.intake.used]
  else
    [s.time.beaconsSent.toNat, s.time.skipped.toNat, s.time.beaconsTaken.toNat, s.time.pairs.toNat,
      s.time.steps.toNat, s.time.slews.toNat, s.time.refChanges.toNat, s.time.refLosses.toNat,
      s.sched.skippedDues.toNat]

/-- The entries of the power view that are fresh; the own entry always is (R163). -/
def Stated.freshEntries (s : State) (view : Vector (Option PowerEntry) 8) : List PowerEntry :=
  allNodes.filterMap fun n =>
    match view[n] with
    | none => none
    | some e =>
      if n = s.straps.node ∨ 16 * s.time.localCount < 16 * e.lastHeard + 3 * s.powerPeriod then some e else none

/-- The entries of pages 3 to 7 of STATUS, on a HEADSET, and of page 4 on a CONSOLE, but for the audio unit's stream and
ring (R88, R112, R127, R144, R160, R175). -/
def Stated.rolePage (s : State) (page : Nat) : List Nat :=
  if page = 3 then
    [s.motion.good.toNat, s.motion.notReady.toNat, s.motion.timedOut.toNat, s.motion.overlaps.toNat,
      s.motion.zeroed.toNat, s.motion.saturated.toNat, s.motion.emptyReports.toNat, s.motion.failures.toNat,
      s.dials.e0.skips.toNat, s.dials.e1.skips.toNat, s.dials.e0.limitSteps.toNat, s.dials.e1.limitSteps.toNat]
  else if page = 4 then
    if s.straps.role = .console then
      [s.laneTx.inputFrames.toNat, s.laneTx.inputShape.toNat, s.laneTx.untagged.toNat, s.laneTx.tagsRefused.toNat,
        s.laneTx.slicesQueued.toNat, s.laneTx.slicesDropped.toNat, s.laneTx.framesDropped.toNat,
        s.laneTx.voidsSent.toNat, s.laneTx.slicesSent.toNat, s.laneTx.creditsTaken.toNat, s.laneTx.resyncs.toNat,
        s.laneTx.flushed.toNat, s.laneTx.laneDowns.toNat]
    else
      [s.laneRx.packetsTaken.toNat, s.laneRx.voidsTaken.toNat, s.laneRx.voided.toNat, s.laneRx.headerDiscards.toNat,
        s.laneRx.overruns.toNat, s.laneRx.creditLoads.toNat, s.laneRx.laneDowns.toNat,
        s.laneRx.eyes.left.accepted.toNat, s.laneRx.eyes.left.horizon.toNat, s.laneRx.eyes.right.accepted.toNat,
        s.laneRx.eyes.right.horizon.toNat, s.laneRx.epoch.toNat]
  else if page = 5 then
    [s.store.pixelWrites.toNat, s.store.voidKeeps.toNat, s.store.checkFailures.toNat, s.store.writesCut.toNat,
      s.store.fixedDiscards.toNat, s.store.mapFaults.toNat, s.store.captures.toNat, s.scan.overlaps.toNat,
      s.scan.staleShows.toNat, s.scan.lateShows.toNat, s.scan.unmatched.toNat, s.scan.clamped.toNat,
      s.scan.overtaken.toNat]
  else if page = 6 then
    [s.audio.taken.toNat, s.audio.foreign.toNat, s.audio.late.toNat, s.audio.early.toNat, s.audio.old.toNat,
      s.audio.gaps.toNat, s.audio.resyncs.toNat, s.audio.overflows.toNat, s.audio.slips.toNat,
      s.audio.underruns.toNat, s.audio.captureOverruns.toNat]
  else
    [s.power.taken.toNat, s.power.expired.toNat, s.power.holdoversBegun.toNat, s.power.holdoversEnded.toNat,
      s.power.stepFalls.toNat, s.power.stepRises.toNat, s.power.yellowEvents.toNat, s.power.redEvents.toNat,
      s.power.meterFailures.toNat, s.power.meterOverlaps.toNat, s.power.load, min s.power.pool 65535,
      min ((Stated.freshEntries s s.power.view).map (·.grant)).sum 65535]

/-- What page 6 holds after its counters: the stream's state, its origin or 255, and the frames in the ring (R160; the
order in the entry of state and origin is log 55's). -/
def Stated.streamEntries (s : State) : List Byte :=
  let state : Byte :=
    match s.audio.state with | .idle => 0 | .priming => 1 | .playing => 2 | .underrun => 3 | .draining => 4
  let origin : Byte := match s.audio.origin with | none => 255 | some o => BitVec.ofNat 8 o.val
  [state, origin] ++ beBytes 2 s.audio.ring.length

/-- R41. STATUS for pages 3 to 7 that the station's role has: DONE, the base block and the page's entries. -/
def Stated.StatusReportsPagesOfTheRole : Prop :=
  ∀ (s : State) (c : Command) (rest : List Command) (page : Nat), Stated.repliesBySpine s c rest → c.code = 1 →
    c.args = [BitVec.ofNat 8 page] →
    s.straps.role = .headset ∧ 3 ≤ page ∧ page ≤ 7 ∨ s.straps.role = .console ∧ page = 4 ∨ page = 7 →
    exec .status s = .next
      (Stated.spineReplied s c rest 0
        (Stated.baseBlock s ++ (Stated.rolePage s page).flatMap (beBytes 2) ++
          (if page = 6 then Stated.streamEntries s else [])))

/-- R41. STATUS for page 0, 1 or 2, or without an argument (page 0): DONE, the base block and the page's entries of 2
bytes. No state changes but the reply's. -/
def Stated.StatusReportsPagesOfEveryRole : Prop :=
  ∀ (s : State) (c : Command) (rest : List Command) (page : Nat), Stated.repliesBySpine s c rest → c.code = 1 →
    c.args = [BitVec.ofNat 8 page] ∨ c.args = [] ∧ page = 0 → page ≤ 2 →
    exec .status s = .next
      (Stated.spineReplied s c rest 0
        (Stated.baseBlock s ++ (Stated.commonPage s page).flatMap (beBytes 2)))

/-- R41. A STATUS page whose job the role lacks is NOT HERE with the base block alone; an argument above 7 is page 7 and
CLAMPED. -/
def Stated.StatusPageAbsentOrClamped : Prop :=
  ∀ (s : State) (c : Command) (rest : List Command) (arg : Byte), Stated.repliesBySpine s c rest → c.code = 1 →
    c.args = [arg] →
    (s.straps.role ≠ .headset ∧ (arg = 3 ∨ arg = 5 ∨ arg = 6) ∨ s.straps.role = .supply ∧ arg = 4 →
      exec .status s = .next (Stated.spineReplied s c rest 1 (Stated.baseBlock s))) ∧
    (7 < arg.toNat →
      ∃ data, exec .status s = .next (Stated.spineReplied s c rest 4 (Stated.baseBlock s ++ data)) ∧
        exec .status { s with cmd := { s.cmd with queue := { c with args := [7] } :: rest } } = .next
          (Stated.spineReplied s { c with args := [7] } rest 0 (Stated.baseBlock s ++ data)))

/-- R41, R88, R112, R127, R144, R160, R175. What STATUS answers. The model's choices in it: log 46: unused bits of its
flags; log 55: the order of stream state and stream origin in their entry of page 6. -/
def Obligations.StatusReportsItsPages : Prop :=
  Stated.StatusReportsPagesOfEveryRole ∧ Stated.StatusReportsPagesOfTheRole ∧ Stated.StatusPageAbsentOrClamped

/-- R38. An unknown code, 0 or 13 to 31, is answered UNKNOWN without data, and changes nothing else. -/
def Stated.UnknownCodeIsAnsweredUnknown : Prop :=
  ∀ (s : State) (c : Command) (rest : List Command), Stated.repliesBySpine s c rest →
    c.code.toNat = 0 ∨ 13 ≤ c.code.toNat →
    exec .unknownCommand s = .next (Stated.spineReplied s c rest 2 [])

/-- The rows of the commands that only a HEADSET carries out, with their codes (R37, R38). -/
def Stated.headsetRows : List (Instr × BitVec 5) :=
  [(.holdEncoders, 3), (.readSamples, 4), (.alignPose, 5), (.readBands, 6), (.clearMapFault, 7), (.capture, 8),
    (.setGain, 9)]

/-- R38. On CONSOLE and SUPPLY those commands are answered NOT HERE without data, and change nothing else. -/
def Stated.HeadsetCommandsAreNotHereElsewhere : Prop :=
  ∀ (s : State) (c : Command) (rest : List Command) (row : Instr × BitVec 5), Stated.repliesBySpine s c rest →
    row ∈ Stated.headsetRows → c.code = row.2 → s.straps.role ≠ .headset →
    exec row.1 s = .next (Stated.spineReplied s c rest 1 [])

/-- R38. A row of the command unit acts only when the unit is FREE and its oldest command has the row's code; else
nothing changes (the last is the model's own, log 2). -/
def Stated.CommandRowsWaitForTheirCommand : Prop :=
  ∀ (s : State) (row : Instr × BitVec 5),
    row ∈ Stated.headsetRows ++ [(.status, 1), (.clearAlarm, 2), (.readQueue, 10), (.restart, 11), (.readTime, 12)] →
    s.cmd.answering ≠ none ∨ s.cmd.queue = [] ∨ (∃ c rest, s.cmd.queue = c :: rest ∧ c.code ≠ row.2) →
    exec row.1 s = .next s

/-- R37, R38. Unknown codes, commands of another role, and rows whose command is not the oldest (log 2). The model's
choices in it: log 2: the last part, a row whose command is not the oldest, is the model's. -/
def Obligations.CommandsOutOfPlaceAreAnsweredSo : Prop :=
  Stated.UnknownCodeIsAnsweredUnknown ∧
    Stated.HeadsetCommandsAreNotHereElsewhere ∧
    Stated.CommandRowsWaitForTheirCommand

/-- R39. A spine reply that cannot be loaded, outside RUNNING or in CUT, is discarded: the unit is FREE at once and the
discard is counted. Here for READ TIME, UNKNOWN and STATUS, whose own effect is nothing. -/
def Stated.RefusedReplyIsDiscarded : Prop :=
  ∀ (s : State) (i : Instr) (c : Command) (rest : List Command), Stated.oldest s c rest → c.isLocal = false →
    s.loader.life ≠ .running ∨ s.spine.standing = .cut →
    i = .status ∧ c.code = 1 ∨ i = .readTime ∧ c.code = 12 ∨ i = .unknownCommand ∧ 13 ≤ c.code.toNat →
    exec i s = .next
      { s with cmd := { s.cmd with queue := rest, answering := none, discarded := bump s.cmd.discarded } }

/-- R39. A local reply goes to the intake queue with agreed time as its time of receipt, whatever the intake table says,
and is done at once; without room it overruns and is done. Here for an UNKNOWN reply. -/
def Stated.LocalReplyGoesToIntakeQueue : Prop :=
  ∀ (s : State) (c : Command) (rest : List Command), Stated.repliesLocally s c rest → 13 ≤ c.code.toNat →
    exec .unknownCommand s = .next
      { s with
        cmd := { s.cmd with queue := rest, answering := none }
        intake :=
          if s.intake.used + 8 ≤ 1024 then
            { s.intake with
              queue := s.intake.queue ++
                [{ rank := Stated.replyRank s c
                   body := Stated.replyBody c 2 []
                   time := BitVec.ofNat 14 (s.agreed / 256)
                   restartReply := false }] }
          else { s.intake with overrun := true, overruns := bump s.intake.overruns } }

/-- R39, R178. RESTART is answered DONE without data and restarts nothing yet: a spine reply is loaded; a local reply is
stored and the unit stays ANSWERING until its entry is freed; one that overruns makes the restart due at once. -/
def Stated.RestartWaitsForItsReply : Prop :=
  ∀ (s : State) (c : Command) (rest : List Command), Stated.oldest s c rest → c.code = 11 →
    (Stated.repliesBySpine s c rest → exec .restart s = .next (Stated.spineReplied s c rest 0 [])) ∧
    (c.isLocal = true → s.intake.used + 8 ≤ 1024 →
      exec .restart s = .next
        { s with
          cmd := { s.cmd with queue := rest, answering := some c }
          intake :=
            { s.intake with
              queue := s.intake.queue ++
                [{ rank := Stated.replyRank s c
                   body := Stated.replyBody c 0 []
                   time := BitVec.ofNat 14 (s.agreed / 256)
                   restartReply := true }] } }) ∧
    (c.isLocal = true → 1024 < s.intake.used + 8 →
      exec .restart s = .next
        { s with
          cmd := { s.cmd with queue := rest, answering := none }
          loader := { s.loader with restartDue := true }
          intake := { s.intake with overrun := true, overruns := bump s.intake.overruns } })

/-- R39, R178. The path of a reply, and of the reply to RESTART. The model's choices in it: logs 7 and 25: the restart
is marked due and its local reply carries a mark. -/
def Obligations.RepliesTakeTheirPath : Prop :=
  Stated.RefusedReplyIsDiscarded ∧ Stated.LocalReplyGoesToIntakeQueue ∧ Stated.RestartWaitsForItsReply

/-- The 4-byte head of an intake entry (R32). -/
def Stated.head (e : QueueEntry) : List Byte :=
  beBytes 4 (e.rank.toNat * 1048576 + e.body.length * 16384 + e.time.toNat)

/-- R32, R35. READ QUEUE part 0 on a body of at most 32 bytes, or part 1 on a half read entry, returns the body or the
rest of it and frees the entry; part 0 on a longer body returns 32 bytes and sets the split mark; otherwise EMPTY. The
overrun flag returned is the one before the command, and clear 1 clears it whatever the result. The model's choices in
it: log 37: an EMPTY reply carries the flags byte alone; log 46: unused bits of that byte. -/
def Obligations.ReadQueueReturnsHeadEntry : Prop :=
  ∀ (s : State) (c : Command) (rest : List Command) (part clear : Bool), Stated.repliesBySpine s c rest → c.code = 10 →
    c.args = [if part then 1 else 0, if clear then 1 else 0] →
    let k := { s.intake with overrun := if clear then false else s.intake.overrun }
    (∀ e q, s.intake.queue = e :: q → e.restartReply = false → part = false → e.body.length ≤ 32 →
      exec .readQueue s = .next
        (Stated.spineReplied { s with intake := { k with queue := q, split := false } } c rest 0
          (Stated.head e ++ [Stated.flags s.intake.overrun false false false] ++ e.body))) ∧
    (∀ e q, s.intake.queue = e :: q → part = false → 32 < e.body.length →
      exec .readQueue s = .next
        (Stated.spineReplied { s with intake := { k with split := true } } c rest 0
          (Stated.head e ++ [Stated.flags s.intake.overrun true false false] ++ e.body.take 32))) ∧
    (∀ e q, s.intake.queue = e :: q → e.restartReply = false → part = true → s.intake.split = true →
      exec .readQueue s = .next
        (Stated.spineReplied { s with intake := { k with queue := q, split := false } } c rest 0
          (Stated.head e ++ [Stated.flags s.intake.overrun false false false] ++ e.body.drop 32))) ∧
    (s.intake.queue = [] ∨ part = true ∧ s.intake.split = false →
      exec .readQueue s = .next
        (Stated.spineReplied { s with intake := k } c rest 3 [Stated.flags s.intake.overrun false false false]))

/-! ### Alarms (R48 to R57) -/

/-- R49, R54, R55. An event that finds its flag latched changes nothing. One that finds it unlatched latches it; if its
message enable is set its unsent mark is set and the ALARM slot is loaded, or the load is refused and counted. -/
def Obligations.EventLatchesItsFlagOnce : Prop :=
  ∀ (s : State) (f : Flag),
    (s.alarms.latched.getLsbD f.number = true → latch f s = s) ∧
    (s.alarms.latched.getLsbD f.number = false → s.alarms.message.getLsbD f.number = false →
      latch f s = { s with alarms := { s.alarms with latched := s.alarms.latched ||| 1#12 <<< f.number } }) ∧
    (s.alarms.latched.getLsbD f.number = false → s.alarms.message.getLsbD f.number = true →
      let marked : State :=
        { s with
          alarms :=
            { s.alarms with
              latched := s.alarms.latched ||| 1#12 <<< f.number
              unsent := s.alarms.unsent ||| 1#12 <<< f.number } }
      latch f s =
        if s.loader.life = .running ∧ s.spine.standing ≠ .cut then
          { marked with
            slots := { s.slots with alarm := s.slots.alarm.load (Stated.alarmContent marked s.spine.standing) } }
        else { marked with slots := { s.slots with refused := bump s.slots.refused } })

/-- R52. CLEAR ALARM: a named flag is unlatched and unmarked unless its condition is present or it is DUPNODE; flags not
named are unchanged. The reply gives the alarm set before and after; a mask with any of its four highest bits set is
CLAMPED. The ALARM slot is not touched. -/
def Obligations.ClearAlarmClearsNamedFlags : Prop :=
  ∀ (s : State) (c : Command) (rest : List Command) (hi lo : Byte) (after : Alarms), Stated.repliesBySpine s c rest →
    c.code = 2 → c.args = [hi, lo] → after.wire = s.alarms.wire → after.message = s.alarms.message →
    after.present = s.alarms.present →
    (∀ n : Fin 12,
      let named := (hi.toNat * 256 + lo.toNat).testBit n
      let clears := named = true ∧ s.alarms.present.getLsbD n = false ∧ n ≠ 1
      after.latched.getLsbD n = (if clears then false else s.alarms.latched.getLsbD n) ∧
        after.unsent.getLsbD n = (if clears then false else s.alarms.unsent.getLsbD n)) →
    exec .clearAlarm s = .next
      (Stated.spineReplied { s with alarms := after } c rest (if 16 ≤ hi.toNat then 4 else 0)
        (beBytes 2 s.alarms.latched.toNat ++ beBytes 2 after.latched.toNat))

/-! ### The schedule (R72 to R78) -/

/-- Entry `i` is the one REPEAT entry with action `a`, in a station out of LOADING; its next due is due time `j0`, and
agreed time has reached due time `j` and not the one after (R74). -/
def Stated.due (s : State) (a : Action) (i : Fin 8) (period phase j0 j : Nat) : Prop :=
  s.loader.life ≠ .loading ∧ 0 < period ∧
    s.sched.entries[i] = { action := a, mode := .repeating period phase (phase + j0 * period) } ∧
    (∀ k : Fin 8, k ≠ i → s.sched.entries[k].action ≠ a) ∧
    j0 ≤ j ∧ phase + j * period ≤ s.agreed ∧ s.agreed < phase + (j + 1) * period

/-- R75. No COUNTED entry with an action counts the firings of entry `i`. -/
def Stated.noFollower (s : State) (i : Fin 8) : Prop :=
  ∀ (k src : Fin 8) (n progress : Nat), s.sched.entries[k].mode = .counted src n progress → src = i →
    s.sched.entries[k].action = .none

/-- The schedule after a firing: next due is due time j + 1, and the dues passed without firing are counted (R74). -/
def Stated.fired (k : Schedule) (a : Action) (i : Fin 8) (period phase j0 j : Nat) : Schedule where
  entries := k.entries.set i { action := a, mode := .repeating period phase (phase + (j + 1) * period) }
  skippedDues := BitVec.ofNat 16 (min (k.skippedDues.toNat + (j - j0)) 65535)

/-- R76. The firing rows with their actions. -/
def Stated.firingRows : List (Instr × Action) :=
  [(.beacon, .beacon), (.frame, .frame), (.sample, .sample), (.poseReportRepeatFiring, .poseReport),
    (.powerReport, .powerReport), (.portStatus, .portStatus)]

/-- R74. A due REPEAT entry fires once for all the dues agreed time has passed: its next due is the first due time later
than agreed time, and the others passed are counted as skipped. A row whose entry is not due does nothing (log 2). -/
def Stated.FiringTakesDueToFirstAfterNow : Prop :=
  (∀ (s : State) (row : Instr × Action) (i : Fin 8) (period phase j0 j : Nat), row ∈ Stated.firingRows →
    Stated.due s row.2 i period phase j0 j → Stated.noFollower s i →
    ∃ t, exec row.1 s = .next t ∧ t.sched = Stated.fired s.sched row.2 i period phase j0 j) ∧
  ∀ (s : State) (row : Instr × Action), row ∈ Stated.firingRows →
    s.loader.life = .loading ∨ (∀ k : Fin 8, s.sched.entries[k].action ≠ row.2) ∨
      (∀ (k : Fin 8) (period phase due : Nat),
        s.sched.entries[k] = { action := row.2, mode := .repeating period phase due } → s.agreed < due) →
    exec row.1 s = .next s

/-- R75, R85. A COUNTED entry counts each firing of its source, whatever dues it stood for, and fires on the Nth, when
its progress returns to 0. Here a POSE_REPORT entry that counts SAMPLE firings, the only one to do so: its action loads
the POSE slot in a RUNNING station that has a pose entry. -/
def Stated.CountedEntryFiresOnEveryNth : Prop :=
  ∀ (s : State) (i k : Fin 8) (period phase j0 j n progress : Nat), Stated.due s .sample i period phase j0 j →
    s.sched.entries[k] = { action := .poseReport, mode := .counted i n progress } → progress < n →
    (∀ k' src n' p', k' ≠ k → s.sched.entries[k'].mode = .counted src n' p' → src = i →
      s.sched.entries[k'].action = .none) →
    s.loader.life = .running → s.spine.standing ≠ .cut → s.motion.history ≠ [] →
    ∃ t, exec .sample s = .next t ∧
      t.sched.entries[k] =
        { action := .poseReport, mode := .counted i n (if progress + 1 = n then 0 else progress + 1) } ∧
      (progress + 1 ≠ n → t.slots = s.slots) ∧
      (progress + 1 = n → s.slots.pose.state = .empty → t.slots.pose.state = .pending) ∧
      t.slots = { s.slots with pose := t.slots.pose } ∧
      t = { s with sched := t.sched, motion := t.motion, slots := t.slots }

/-- The contents of a PORT STATUS record formed at a moment (R183, 12_formats.md). -/
def Stated.portStatus (s : State) : List Byte :=
  [BitVec.ofNat 8 s.loader.life.code, BitVec.ofNat 8 s.spine.standing.code] ++ beBytes 2 s.loader.epoch.toNat ++
    [Stated.flags (s.alarms.latched &&& s.alarms.wire != 0 || s.pins.alertOthers) s.intake.overrun false false] ++
    beBytes 2 (s.laneTx.eyes.left.horizon - s.laneTx.eyes.left.sent).toNat ++
    beBytes 2 (s.laneTx.eyes.right.horizon - s.laneTx.eyes.right.sent).toNat ++
    [BitVec.ofNat 8 s.laneTx.tags.length] ++ beBytes 2 s.intake.used ++
    [s.intake.dropped.toNat, s.intake.overruns.toNat, s.laneTx.slicesFormed.toNat, s.laneTx.slicesDropped.toNat,
      s.laneTx.framesDropped.toNat, s.port.errors.toNat, s.port.busy.toNat].flatMap (beBytes 2)

/-- R75, R77, R102, R182, R183. A FRAME firing of a CONSOLE whose PORT_STATUS entry alone counts it, as the default
schedule has it (R78): the lane takes the frame number and turns to the left eye, the progress rises, and on the Nth
firing it returns to 0 and a PORT STATUS record is formed, in place of one that waits. Nothing else changes. -/
def Stated.CountedPortStatusFollowsFrame : Prop :=
  ∀ (s : State) (i k : Fin 8) (period phase j0 j n progress : Nat), Stated.due s .frame i period phase j0 j →
    s.sched.entries[k] = { action := .portStatus, mode := .counted i n progress } → progress < n →
    (∀ k' src n' p', k' ≠ k → s.sched.entries[k'].mode = .counted src n' p' → src = i →
      s.sched.entries[k'].action = .none) →
    s.straps.role = .console →
    let fired := Stated.fired s.sched .frame i period phase j0 j
    exec .frame s = .next
      { s with
        sched :=
          { fired with
            entries := fired.entries.set k
              { action := .portStatus, mode := .counted i n (if progress + 1 = n then 0 else progress + 1) } }
        laneTx := { s.laneTx with frameNumber := BitVec.ofNat 32 j, leftNext := true }
        port := if progress + 1 = n then { s.port with status := some (Stated.portStatus s) } else s.port }

/-- R74, R75. REPEAT entries fire when due, COUNTED entries on every Nth firing of their source. The model's choices
in it: log 2: a row whose entry is not due does nothing; log 39: counted firings happen inside their source's; log 46:
unused bits of the flags in a PORT STATUS. -/
def Obligations.EntriesFireWhenDueOrCounted : Prop :=
  Stated.FiringTakesDueToFirstAfterNow ∧ Stated.CountedEntryFiresOnEveryNth ∧ Stated.CountedPortStatusFollowsFrame

/-! ### Firings -/

/-- The beacon content at a firing (R63). -/
def Stated.beaconContent (s : State) : Content :=
  { rank := BitVec.ofNat 12 (256 + s.straps.node.val)
    body := [s.time.beaconNumber] ++
      beBytes 4 (match s.time.prevStart with | none => 0 | some p => (p / 16 % 2 ^ 32).toNat) ++
      [BitVec.ofNat 8 (s.time.reference.getD s.straps.node).val,
        Stated.flags s.time.reference.isSome s.time.prevStart.isNone false false]
    singleShot := false
    loop := false }

/-- R21, R22, R63. A BEACON firing: nothing is loaded in LISTENING; in CUT the load is refused and counted; a SENDING
slot skips the beacon and counts it; else a body formed now is loaded. The model's choices in it: log 46: unused bits of
the beacon's flags. -/
def Obligations.BeaconFiringLoadsTimeSlot : Prop :=
  ∀ (s : State) (i : Fin 8) (period phase j0 j : Nat), Stated.due s .beacon i period phase j0 j →
    Stated.noFollower s i →
    exec .beacon s = .next
      (let after : State := { s with sched := Stated.fired s.sched .beacon i period phase j0 j }
      if s.loader.life = .listening then after
      else if s.spine.standing = .cut then
        { after with slots := { s.slots with refused := bump s.slots.refused } }
      else
        match s.slots.time.state with
        | .sending => { after with time := { s.time with skipped := bump s.time.skipped } }
        | .pending =>
          { after with
            slots :=
              { s.slots with
                time :=
                  { s.slots.time with
                    content := Stated.beaconContent s
                    superseded := bump s.slots.time.superseded } } }
        | .empty =>
          { after with
            slots :=
              { s.slots with
                time := { s.slots.time with state := .pending, content := Stated.beaconContent s, attempts := 0 } } })

/-- The CREDIT content formed at a moment (R111). -/
def Stated.creditContent (s : State) : Content :=
  { rank := BitVec.ofNat 12 (2 * 256 + s.straps.node.val)
    body := [s.laneRx.epoch] ++ beBytes 2 s.laneRx.eyes.left.horizon.toNat ++
      beBytes 2 s.laneRx.eyes.left.accepted.toNat ++ beBytes 2 s.laneRx.eyes.right.horizon.toNat ++
      beBytes 2 s.laneRx.eyes.right.accepted.toNat
    singleShot := false
    loop := false }

/-- R77, R93, R102, R111, R130. A FRAME firing carries j as the display frame number. On a HEADSET in service it starts
a scan, or counts an overlap if one runs, latches both dials, and loads CREDIT. On a CONSOLE the lane alternation starts
again with left. -/
def Obligations.FrameFiringTicksEveryUnit : Prop :=
  ∀ (s : State) (i : Fin 8) (period phase j0 j : Nat), Stated.due s .frame i period phase j0 j →
    Stated.noFollower s i →
    (s.straps.role = .headset → s.loader.life = .running → s.spine.standing ≠ .cut →
      exec .frame s = .next
        { s with
          sched := Stated.fired s.sched .frame i period phase j0 j
          scan :=
            if s.scan.scanning then
              { s.scan with frameNumber := BitVec.ofNat 32 j, overlaps := bump s.scan.overlaps }
            else
              { s.scan with
                frameNumber := BitVec.ofNat 32 j
                scanning := true
                tickTime := some s.agreedUs
                lineClock := 0
                nextLine := 0 }
          dials :=
            { e0 := { s.dials.e0 with frameValue := s.dials.e0.count }
              e1 := { s.dials.e1 with frameValue := s.dials.e1.count } }
          slots := { s.slots with credit := s.slots.credit.load (Stated.creditContent s) }
          laneRx :=
            { s.laneRx with
              eyes :=
                { left := { s.laneRx.eyes.left with lastLoaded := some s.laneRx.eyes.left.horizon }
                  right := { s.laneRx.eyes.right with lastLoaded := some s.laneRx.eyes.right.horizon } }
              creditLoads := bump s.laneRx.creditLoads } }) ∧
    (s.straps.role = .console →
      exec .frame s = .next
        { s with
          sched := Stated.fired s.sched .frame i period phase j0 j
          laneTx := { s.laneTx with frameNumber := BitVec.ofNat 32 j, leftNext := true } })

/-- R79, R85. A SAMPLE firing starts a sensor read stamped with agreed time, or counts an overlap if one is in flight. A
POSE_REPORT firing loads the POSE slot with the newest history entry in RUNNING outside CUT, loads nothing in LISTENING,
and counts an empty report if the history is empty. -/
def Stated.SampleAndPoseReportFirings : Prop :=
  ∀ (s : State) (i : Fin 8) (period phase j0 j : Nat), Stated.noFollower s i →
    (Stated.due s .sample i period phase j0 j →
      exec .sample s = .next
        { s with
          sched := Stated.fired s.sched .sample i period phase j0 j
          motion :=
            if s.motion.reading.isSome then { s.motion with overlaps := bump s.motion.overlaps }
            else { s.motion with reading := some { stamp := s.agreedUs, since := s.time.localCount } } }) ∧
    (Stated.due s .poseReport i period phase j0 j →
      (s.motion.history = [] →
        exec .poseReportRepeatFiring s = .next
          { s with
            sched := Stated.fired s.sched .poseReport i period phase j0 j
            motion := { s.motion with emptyReports := bump s.motion.emptyReports } }) ∧
      (s.motion.history ≠ [] → s.loader.life = .listening →
        exec .poseReportRepeatFiring s = .next
          { s with sched := Stated.fired s.sched .poseReport i period phase j0 j }) ∧
      (∀ older p, s.motion.history = older ++ [p] → s.loader.life = .running → s.spine.standing ≠ .cut →
        exec .poseReportRepeatFiring s = .next
          { s with
            sched := Stated.fired s.sched .poseReport i period phase j0 j
            slots :=
              { s.slots with
                pose := s.slots.pose.load
                  { rank := BitVec.ofNat 12 (3 * 256 + s.straps.node.val)
                    body := beBytes 2 p.sequence.toNat ++ beBytes 4 (p.stamp % 2 ^ 32) ++
                      beBytes 4 p.angles.yaw.toNat ++ beBytes 4 p.angles.pitch.toNat ++
                      beBytes 4 p.angles.roll.toNat ++ beInt 4 p.increments.yaw ++ beInt 4 p.increments.pitch ++
                      beInt 4 p.increments.roll ++ beInt 2 s.dials.e0.frameValue ++ beInt 2 s.dials.e1.frameValue ++
                      [Stated.flags p.held p.saturated false false]
                    singleShot := false
                    loop := false } } }))

/-- R165, R182, R183. A POWER_REPORT firing starts a reading of the meters, or counts an overlap while one is in flight.
A PORT_STATUS firing forms a PORT STATUS record that waits for the outgoing link, in place of one that waits already. -/
def Stated.PowerReportAndPortStatusFirings : Prop :=
  ∀ (s : State) (i : Fin 8) (period phase j0 j : Nat), Stated.noFollower s i →
    (Stated.due s .powerReport i period phase j0 j →
      exec .powerReport s = .next
        { s with
          sched := Stated.fired s.sched .powerReport i period phase j0 j
          power :=
            if s.power.reading.isSome then { s.power with meterOverlaps := bump s.power.meterOverlaps }
            else
              { s.power with
                reading := some { since := s.time.localCount, load := .awaited, battery := .awaited } } }) ∧
    (Stated.due s .portStatus i period phase j0 j →
      exec .portStatus s = .next
        { s with
          sched := Stated.fired s.sched .portStatus i period phase j0 j
          port := { s.port with status := some (Stated.portStatus s) } })

/-- R76, R79, R85, R165, R183. The firings that start a read or form a report. The model's choices in it: log 36: an
empty history counts in LISTENING too; log 46: unused bits of the flags in a POSE body and a PORT STATUS. -/
def Obligations.ReadsAndReportsFire : Prop :=
  Stated.SampleAndPoseReportFirings ∧ Stated.PowerReportAndPortStatusFirings

/-! ### Agreed time (R59 to R71) -/

/-- The record of origin `o` is present and fresh (R65). -/
def Stated.fresh (s : State) (o : Node) : Prop :=
  ∃ r, s.time.table[o] = some r ∧ (s.agreed : Int) < r.lastHeard + 4 * s.beaconPeriod

/-- A well-formed beacon of another origin `o`, received well by a station whose intake hands TIME to its unit and whose
standing stays (R14, R17, R30). -/
def Stated.beacon (s : State) (m : Received) (o : Node) : Prop :=
  Stated.receiving s ∧ m.check = spineCheck m.rank m.body ∧ m.rank = BitVec.ofNat 12 (256 + o.val) ∧
    o ≠ s.straps.node ∧ m.body.length = 7 ∧ (byteAt m.body 5).toNat ≤ 7 ∧ Stated.toUnit s m.rank ∧
    standingOf s.spine.sfc (Stated.afterReceipt s.spine.tfc) s.spine.strain = s.spine.standing

/-- The beacon pairs with the record held for its origin (R66, step 1). -/
def Stated.pairs (s : State) (m : Received) (o : Node) : Prop :=
  Stated.fresh s o ∧ (∀ r, s.time.table[o] = some r → r.lastNumber + 1 = byteAt m.body 0) ∧
    (byteAt m.body 6).getLsbD 1 = false

/-- R65, R66, R67, R70. A beacon that does not pair corrects nothing. It is counted and recorded: its number, own agreed
time at its start bit moved by the corrections since, agreed time now, and the reference fields it carried. The
reference is then the lowest-numbered fresh origin, in RUNNING only below the own node. In LISTENING the timer starts
again. The model's choices in it: log 4: how agreed time at the start bit is held; log 16: freshness by time; log 31:
reserved bits of its flags. -/
def Obligations.UnpairedBeaconIsRecorded : Prop :=
  ∀ (s : State) (m : Received) (o : Node), Stated.beacon s m o → ¬ Stated.pairs s m o →
    ∃ t, exec (.messageTaken m) s = .next t ∧
      t.time.table[o] = some
        { lastNumber := byteAt m.body 0
          ownTime := Stated.startMoved s m
          lastHeard := s.agreed
          carriedRef := Fin.ofNat 8 (byteAt m.body 5).toNat
          carriedHas := (byteAt m.body 6).getLsbD 0
          expired := false } ∧
      (∀ k : Node, k ≠ o → t.time.table[k] = s.time.table[k]) ∧
      (∀ r, t.time.reference = some r ↔
        Stated.fresh t r ∧ (s.loader.life = .running → r < s.straps.node) ∧
          ∀ r', Stated.fresh t r' → (s.loader.life = .running → r' < s.straps.node) → r ≤ r') ∧
      t.time.refChanges =
        (if t.time.reference = s.time.reference then s.time.refChanges else bump s.time.refChanges) ∧
      t.time.corrected = (if t.time.reference = s.time.reference then s.time.corrected else false) ∧
      t.time.beaconsTaken = bump s.time.beaconsTaken ∧ t.time.pairs = s.time.pairs ∧
      t.time.offset = s.time.offset ∧ t.time.slew = s.time.slew ∧
      t.time.timer = (if s.loader.life = .listening then some (s.agreed : Int) else s.time.timer) ∧
      t.loader = s.loader ∧ t.motion = s.motion ∧ t.power = s.power ∧ t.port = s.port ∧ t.cmd = s.cmd

/-- R61, R62, R66, R68. A pairing with the reference, which no lower origin takes over, corrects a RUNNING station by
its error e, 16 times the previous start rebuilt against agreed time less the own time held. From 16 times the step
limit on it is a step: the offset rises by e, r is 0, every held time moves by e, and TIMESTEP is latched. Below that it
is a slew: r is e. -/
def Stated.PairingCorrectsRunningStation : Prop :=
  ∀ (s : State) (m : Received) (o : Node) (r : TimeRecord) (v e : Int), Stated.beacon s m o → Stated.pairs s m o →
    s.loader.life = .running → s.time.reference = some o → s.time.table[o] = some r → o < s.straps.node →
    (∀ o' : Node, o' < o → ¬ Stated.fresh s o') →
    v % 2 ^ 32 = fieldAt m.body 1 4 → (s.agreedUs : Int) - 2 ^ 31 ≤ v → v < (s.agreedUs : Int) + 2 ^ 31 →
    e = 16 * v - r.ownTime → s.agreed + e < agreedCap → 0 ≤ 16 * (s.time.localCount : Int) + s.time.offset →
    0 < s.beaconPeriod →
    let step := 16 * (s.time.stepLimit : Int) ≤ e
    ∃ t, exec (.messageTaken m) s = .next t ∧
      t.time.offset = s.time.offset + (if step then e else 0) ∧ t.time.slew = (if step then 0 else e) ∧
      t.time.corrected = true ∧ t.time.reference = some o ∧ t.time.pairs = bump s.time.pairs ∧
      t.time.beaconsTaken = bump s.time.beaconsTaken ∧
      t.time.steps = (if step then bump s.time.steps else s.time.steps) ∧
      t.time.slews = (if step then s.time.slews else bump s.time.slews) ∧
      (t.time.table[o].map fun x => (x.lastNumber, x.ownTime, x.lastHeard)) =
        some (byteAt m.body 0, Stated.startMoved s m + (if step then e else 0), (t.agreed : Int)) ∧
      (∀ k : Node, k ≠ o → t.time.table[k] = s.time.table[k].map fun x =>
        { x with
          ownTime := x.ownTime + (if step then e else 0)
          lastHeard := x.lastHeard + (if step then e else 0) }) ∧
      t.time.prevStart = s.time.prevStart.map (· + (if step then e else 0)) ∧
      t.alarms.latched = (if step then s.alarms.latched ||| 32#12 else s.alarms.latched) ∧
      t.loader = s.loader ∧ t.motion = s.motion ∧ t.power = s.power ∧ t.cmd = s.cmd

/-- R66 to R68, R70. A LISTENING station is corrected by a pairing with its reference whatever e is: forward by a step
that latches nothing, else by a slew. It then enters RUNNING, unless DUPNODE is latched: the previous start is absent,
the timer stopped, and the reference is the origin only if it is below the own node. -/
def Stated.PairingTakesListeningStationToRunning : Prop :=
  ∀ (s : State) (m : Received) (o : Node) (r : TimeRecord) (v e : Int), Stated.beacon s m o → Stated.pairs s m o →
    s.loader.life = .listening → s.time.reference = some o → s.time.table[o] = some r →
    (∀ o' : Node, o' < o → ¬ Stated.fresh s o') →
    v % 2 ^ 32 = fieldAt m.body 1 4 → (s.agreedUs : Int) - 2 ^ 31 ≤ v → v < (s.agreedUs : Int) + 2 ^ 31 →
    e = 16 * v - r.ownTime → s.agreed + e < agreedCap → 0 ≤ 16 * (s.time.localCount : Int) + s.time.offset →
    0 < s.beaconPeriod → s.isLatched .timestep = false →
    ∃ t, exec (.messageTaken m) s = .next t ∧
      t.time.offset = s.time.offset + (if 0 < e then e else 0) ∧ t.time.slew = (if 0 < e then 0 else e) ∧
      t.isLatched .timestep = false ∧
      (s.isLatched .dupnode = true → t.loader = s.loader) ∧
      (s.isLatched .dupnode = false →
        t.loader = { s.loader with life := .running } ∧ t.time.prevStart = none ∧ t.time.timer = none ∧
          (o < s.straps.node → t.time.reference = some o) ∧
          (s.straps.node < o → (∀ o' : Node, o' < s.straps.node → ¬ Stated.fresh s o') → t.time.reference = none))

/-- R61, R66, R68, R70. What a pairing with the reference does. The model's choices in it: log 4: how agreed time at the
start bit is held; log 15: the order at the entry into RUNNING; log 16: freshness by time; log 31: reserved bits of its
flags. -/
def Obligations.PairingCorrectsAgreedTime : Prop :=
  Stated.PairingCorrectsRunningStation ∧ Stated.PairingTakesListeningStationToRunning

/-- R65, R67, R69. A record that reaches last heard plus 4 beacon periods expires and keeps its fields. If it was the
reference of a RUNNING station and no lower origin is fresh, the station is its own reference, the change and the loss
are counted, and TIMELOST arises. -/
def Stated.RecordExpiryCanLoseTheReference : Prop :=
  ∀ (s : State) (o : Node) (r : TimeRecord), s.time.table[o] = some r → r.expired = false →
    r.lastHeard + 4 * s.beaconPeriod ≤ s.agreed →
    ∃ t, exec (.timeRecordExpiry o) s = .next t ∧ t.time.table[o] = some { r with expired := true } ∧
      (∀ k : Node, k ≠ o → t.time.table[k] = s.time.table[k]) ∧ ¬ Stated.fresh t o ∧
      (s.loader.life = .running → s.time.reference = some o →
        (∀ o' : Node, o' < s.straps.node → ¬ Stated.fresh s o') →
        t.time.reference = none ∧ t.time.refChanges = bump s.time.refChanges ∧ t.time.corrected = false ∧
          (s.alarms.present.getLsbD 4 = false → t.time.refLosses = bump s.time.refLosses) ∧
          t.alarms.present.getLsbD 4 = true) ∧
      t = { s with time := t.time, alarms := t.alarms, slots := t.slots } ∧ t.time.offset = s.time.offset ∧
      t.time.slew = s.time.slew

/-- R47, R55, R70. When the LISTENING timer reaches 3 beacon periods without a beacon the station enters RUNNING and
announces its unsent flags; with DUPNODE latched it stays in LISTENING. -/
def Stated.ListeningTimerTakesStationToRunning : Prop :=
  ∀ (s : State) (start : Int), s.loader.life = .listening → s.time.timer = some start →
    start + 3 * s.beaconPeriod ≤ s.agreed →
    ∃ t, exec .listeningTimerExpiry s = .next t ∧ t.time.timer = none ∧
      (s.isLatched .dupnode = true → t = { s with time := t.time }) ∧
      (s.isLatched .dupnode = false → t.loader = { s.loader with life := .running } ∧ t.time.prevStart = none) ∧
      (s.isLatched .dupnode = false → s.spine.standing ≠ .cut → s.alarms.unsent ≠ 0 → s.straps.role = .supply →
        s.slots.alarm.state = .empty →
        t.slots.alarm.state = .pending ∧
          t.slots.alarm.content = Stated.alarmContent { s with alarms := t.alarms } s.spine.standing) ∧
      t.spine = s.spine ∧ t.intake = s.intake ∧ t.cmd = s.cmd ∧ t.motion = s.motion ∧ t.power = s.power ∧
      t.port = s.port ∧ t.store = s.store ∧ t.scan = s.scan

/-- R65, R67, R69, R70. What an expiry of a record and of the LISTENING timer does. The model's choices in it: log 16:
the expiry mark; log 15: the order at the entry into RUNNING. -/
def Obligations.TimeLimitsRunOut : Prop :=
  Stated.RecordExpiryCanLoseTheReference ∧ Stated.ListeningTimerTakesStationToRunning

/-- R71. READ TIME: agreed time in whole microseconds and its sixteenths, r, the reference and its flags, how long ago
the reference was heard, its own reference, the fresh origins, and the display frame number. Here for a station that is
its own reference, and for one that follows an origin. The model's choices in it: log 45: how the age is rounded; log 46:
unused bits of the flags. -/
def Obligations.ReadTimeReportsAgreedTime : Prop :=
  ∀ (s : State) (c : Command) (rest : List Command) (fresh : Node → Bool), Stated.repliesBySpine s c rest → c.code = 12 →
    (∀ o, fresh o = true ↔ Stated.fresh s o) →
    let frame : BitVec 32 :=
      match s.straps.role with
      | .headset => s.scan.frameNumber
      | .console => s.laneTx.frameNumber
      | .supply => 0
    let mask := BitVec.ofNat 8 ((allNodes.map fun o => if fresh o then 2 ^ o.val else 0).sum)
    let reply := fun (reference : Node) (has : Bool) (age : Nat) (carried : Node) =>
      Stated.spineReplied s c rest 0
        (beBytes 6 (s.agreed / 16) ++ [BitVec.ofNat 8 (s.agreed % 16)] ++ beInt 5 s.time.slew ++
          [BitVec.ofNat 8 reference.val,
            Stated.flags has s.time.corrected (s.alarms.present.getLsbD 4) false] ++
          beBytes 4 age ++ [BitVec.ofNat 8 carried.val, mask] ++ beBytes 4 frame.toNat)
    (s.time.reference = none → exec .readTime s = .next (reply s.straps.node false 0 s.straps.node)) ∧
    (∀ o r, s.time.reference = some o → s.time.table[o] = some r →
      exec .readTime s = .next
        (reply o true (min (((s.agreed : Int) - r.lastHeard) / 16).toNat (2 ^ 32 - 1)) r.carriedRef))

/-! ### Motion and dials (R79 to R94) -/

/-- The list with one element more at the newest end, of which the `n` newest are kept (R81, R84). -/
def Stated.kept {α : Type} (n : Nat) (xs : List α) (x : α) : List α := ((xs ++ [x]).reverse.take n).reverse

/-- The motion unit after a completion with stamp, record and increments: the accumulators move by the increments, and
one record and one pose entry, with the next sequence, are added (R81, R82, R84). -/
def Stated.completed (m : Motion) (r : SampleRecord) (inc : Axes Int) : Motion :=
  let acc : Axes (BitVec 32) :=
    { yaw := m.acc.yaw + BitVec.ofInt 32 inc.yaw
      pitch := m.acc.pitch + BitVec.ofInt 32 inc.pitch
      roll := m.acc.roll + BitVec.ofInt 32 inc.roll }
  { m with
    reading := none
    ring := Stated.kept 32 m.ring r
    acc := acc
    history := Stated.kept 64 m.history
      { sequence := match m.history.getLast? with | none => 0 | some p => p.sequence + 1
        stamp := r.stamp
        angles := acc
        increments := inc
        held := r.held
        saturated := r.gyroSat.yaw || r.gyroSat.pitch || r.gyroSat.roll } }

/-- A sensor value with the sign of the map; −32768 negated is 32767 (R80). -/
def Stated.signed (negative : Bool) (v : BitVec 16) : BitVec 16 :=
  if negative then (if v = 0x8000 then 0x7FFF else 0 - v) else v

def Stated.axis (t : Triple (BitVec 16)) (a : AxisMap) : BitVec 16 :=
  match a.axis with
  | 0 => t.x
  | 1 => t.y
  | 2 => t.z

def Stated.mapped (k : Axes AxisMap) (t : Triple (BitVec 16)) : Axes (BitVec 16) where
  yaw := Stated.signed k.yaw.negative (Stated.axis t k.yaw)
  pitch := Stated.signed k.pitch.negative (Stated.axis t k.pitch)
  roll := Stated.signed k.roll.negative (Stated.axis t k.roll)

/-- A raw value at 32767, −32767 or −32768 is saturated (R80). -/
def Stated.saturated (v : BitVec 16) : Bool := v.toInt == 32767 || v.toInt == -32767 || v.toInt == -32768

def Stated.marks (k : Axes AxisMap) (t : Triple (BitVec 16)) : Axes Bool where
  yaw := Stated.saturated (Stated.axis t k.yaw)
  pitch := Stated.saturated (Stated.axis t k.pitch)
  roll := Stated.saturated (Stated.axis t k.roll)

/-- inc = d × S, d the rate less its bias, clamped to −32767 to 32767 (R82). -/
def Stated.increment (g : BitVec 16) (bias : Int) (gain : Nat) : Int := max (-32767) (min 32767 (g.toInt - bias)) * gain

/-- R80 to R84. A good read: the mapped values are recorded and become the last good ones, each axis moves by its
increment, the failure count is 0 and the SENSOR condition ends. -/
def Stated.GoodReadMovesThePose : Prop :=
  ∀ (s : State) (x : SensorRead) (rates accels : Triple (BitVec 16)), s.motion.reading = some x →
    s.time.localCount < x.since + s.motion.settings.readLimit →
    let k := s.motion.settings
    let r : SampleRecord :=
      { stamp := x.stamp
        gyro := Stated.mapped k.axisMap rates
        accel := Stated.mapped k.axisMap accels
        gyroSat := Stated.marks k.axisMap rates
        accelSat := Stated.marks k.axisMap accels
        held := false }
    let inc : Axes Int :=
      { yaw := Stated.increment r.gyro.yaw k.bias.yaw k.gain.yaw
        pitch := Stated.increment r.gyro.pitch k.bias.pitch k.gain.pitch
        roll := Stated.increment r.gyro.roll k.bias.roll k.gain.roll }
    let marked := r.gyroSat.yaw || r.gyroSat.pitch || r.gyroSat.roll ||
      (r.accelSat.yaw || r.accelSat.pitch || r.accelSat.roll)
    exec (.sensorReadComplete true rates accels) s = .next
      { s with
        motion :=
          Stated.completed
            { s.motion with
              lastGyro := r.gyro
              lastAccel := r.accel
              lastInc := inc
              failures := 0
              good := bump s.motion.good
              saturated := if marked then bump s.motion.saturated else s.motion.saturated }
            r inc
        alarms := { s.alarms with present := s.alarms.present &&& ~~~64#12 } }

/-- R79, R81 to R84. A failed read, by a clear ready mark or by its limit running out, counts, repeats the last good
values with held set, and turns the pose by the last good increments up to the 7th failure in a row; from the 8th the
increments are 0, counted as zeroed. A read whose limit has run out counts as timed out however it ends. -/
def Stated.FailedReadHoldsTheRates : Prop :=
  ∀ (s : State) (x : SensorRead) (i : Instr) (ready : Bool) (rates accels : Triple (BitVec 16)),
    s.motion.reading = some x →
    (i = .sensorReadComplete false rates accels ∧ s.time.localCount < x.since + s.motion.settings.readLimit ∨
      (i = .sensorReadTimeout ∨ i = .sensorReadComplete ready rates accels) ∧
        x.since + s.motion.settings.readLimit ≤ s.time.localCount) →
    let timedOut := x.since + s.motion.settings.readLimit ≤ s.time.localCount
    let count := bump s.motion.failures
    let r : SampleRecord :=
      { stamp := x.stamp
        gyro := s.motion.lastGyro
        accel := s.motion.lastAccel
        gyroSat := { yaw := false, pitch := false, roll := false }
        accelSat := { yaw := false, pitch := false, roll := false }
        held := true }
    ∃ t, exec i s = .next t ∧
      t.motion =
        Stated.completed
          { s.motion with
            failures := count
            notReady := if timedOut then s.motion.notReady else bump s.motion.notReady
            timedOut := if timedOut then bump s.motion.timedOut else s.motion.timedOut
            zeroed := if count.toNat < 8 then s.motion.zeroed else bump s.motion.zeroed }
          r (if count.toNat < 8 then s.motion.lastInc else { yaw := 0, pitch := 0, roll := 0 }) ∧
      (count.toNat < 8 → t = { s with motion := t.motion }) ∧
      (8 ≤ count.toNat → t.alarms.present.getLsbD 6 = true ∧
        (s.alarms.present.getLsbD 6 = false → t.alarms.latched.getLsbD 6 = true)) ∧
      t = { s with motion := t.motion, alarms := t.alarms, slots := t.slots }

/-- R79 to R84. What a good and a failed read do. The model's choices in it: log 26: a completion after the limit
counts as timed out. -/
def Obligations.SensorReadsMoveThePose : Prop :=
  Stated.GoodReadMovesThePose ∧ Stated.FailedReadHoldsTheRates

/-- R89, R90, R91. A dial line change on a counting HEADSET, in the order low low, low high, high high, high low:
forward adds 1 to the count, backward takes 1, unless that leaves the range, which sets the limit flag and counts a
limit step; both lines at once count a skip. The new levels are the line state. -/
def Obligations.DialChangeCountsWithinRange : Prop :=
  ∀ (s : State) (a b : Bool), s.straps.role = .headset → s.loader.life ≠ .loading ∨ s.loader.fromRestart = true →
    let d := s.dials.e0
    let pins := { s.pins with dialLevels := ((a, b), s.pins.dialLevels.2) }
    let moved := { d with lineA := a, lineB := b }
    let forward := a = d.lineB ∧ b = !d.lineA
    let backward := a = !d.lineB ∧ b = d.lineA
    let d' :=
      if a = d.lineA ∧ b = d.lineB then d
      else if a = !d.lineA ∧ b = !d.lineB then { moved with skips := bump d.skips }
      else if forward then
        if d.count + 1 < d.range.min ∨ d.range.max < d.count + 1 then
          { moved with limit := true, limitSteps := bump d.limitSteps }
        else { moved with count := d.count + 1 }
      else
        if d.count - 1 < d.range.min ∨ d.range.max < d.count - 1 then
          { moved with limit := true, limitSteps := bump d.limitSteps }
        else { moved with count := d.count - 1 }
    (forward ∨ backward ∨ a = d.lineA ∧ b = d.lineB ∨ a = !d.lineA ∧ b = !d.lineB) ∧
      exec (.dialChange .e0 a b) s = .next { s with pins := pins, dials := { s.dials with e0 := d' } } ∧
      exec (.dialChange .e1 a b) { s with dials := { s.dials with e1 := d, e0 := s.dials.e1 } } = .next
        { s with
          pins := { s.pins with dialLevels := (s.pins.dialLevels.1, (a, b)) }
          dials := { e0 := s.dials.e1, e1 := d' } }

/-- R86, R87, R94. The commands of the motion unit on a HEADSET: HOLD ENCODERS gives both counts, skips and limit flags,
then clears the flags; READ SAMPLES gives up to 3 records newest first, CLAMPED outside 1 to 3, EMPTY with an empty
ring; ALIGN POSE adds its corrections to the accumulators and to every angle of the history. The model's choices in it:
log 46: unused bits of the limit flags and of the summary. -/
def Obligations.MotionCommandsOnHeadset : Prop :=
  ∀ (s : State) (c : Command) (rest : List Command), Stated.repliesBySpine s c rest → s.straps.role = .headset →
    (c.code = 3 →
      exec .holdEncoders s = .next
        (Stated.spineReplied
          { s with
            dials := { e0 := { s.dials.e0 with limit := false }, e1 := { s.dials.e1 with limit := false } } } c rest 0
          (beInt 2 s.dials.e0.count ++ beInt 2 s.dials.e1.count ++ beBytes 2 s.dials.e0.skips.toNat ++
            beBytes 2 s.dials.e1.skips.toNat ++ [Stated.flags s.dials.e0.limit s.dials.e1.limit false false]))) ∧
    (∀ asked : Byte, c.code = 4 → c.args = [asked] →
      let count := if asked = 0 then 1 else if 3 < asked.toNat then 3 else asked.toNat
      let records := s.motion.ring.reverse.take count
      let held := fun k => (records[k]?.map (·.held)).getD false
      exec .readSamples s = .next
        (Stated.spineReplied s c rest (if s.motion.ring = [] then 3 else if count = asked.toNat then 0 else 4)
          ([BitVec.ofNat 8 (records.length + 16 * (Stated.flags (held 0) (held 1) (held 2) false).toNat)] ++
            records.flatMap fun r =>
              beBytes 2 r.gyro.yaw.toNat ++ beBytes 2 r.gyro.pitch.toNat ++ beBytes 2 r.gyro.roll.toNat ++
                beBytes 2 r.accel.yaw.toNat ++ beBytes 2 r.accel.pitch.toNat ++ beBytes 2 r.accel.roll.toNat))) ∧
    (∀ yaw pitch roll : BitVec 32, c.code = 5 →
      c.args = beBytes 4 yaw.toNat ++ beBytes 4 pitch.toNat ++ beBytes 4 roll.toNat →
      let add := fun a : Axes (BitVec 32) =>
        ({ yaw := a.yaw + yaw, pitch := a.pitch + pitch, roll := a.roll + roll } : Axes (BitVec 32))
      let acc := add s.motion.acc
      exec .alignPose s = .next
        (Stated.spineReplied
          { s with
            motion :=
              { s.motion with
                acc := acc
                history := s.motion.history.map fun p => { p with angles := add p.angles } } } c rest 0
          (beBytes 4 acc.yaw.toNat ++ beBytes 4 acc.pitch.toNat ++ beBytes 4 acc.roll.toNat ++
            beBytes 2 (match s.motion.history.getLast? with | none => 65535 | some p => p.sequence.toNat))))

/-! ### The picture input (R96 to R100) -/

/-- A CONSOLE out of LOADING. -/
def Stated.console (s : State) : Prop := s.straps.role = .console ∧ s.loader.life ≠ .loading

/-- An eye that is handed a slice (R99): SENDING with room queues it; SENDING with a full queue owes its position and
all after it as voids; VOIDING and DROPPING discard it. -/
def Stated.handed (v : SenderEye) (n : Nat) (sl : Slice) : SenderEye :=
  if v.input = .sending ∧ v.queue.length < 8 then { v with queue := v.queue ++ [sl] }
  else if v.input = .sending then { v with input := .voiding, voidsOwed := n - sl.index, voidTag := some sl.tag }
  else v

/-- The lane sender after line `f.linesDone` completes with its pixels (R98): the line joins the slice in progress; with
the last line of slice k a left and a right slice are formed from the halves of its lines and handed to their eyes. -/
def Stated.lineDone (g : Geometry) (x : LaneSender) (f : InputFrame) (pixels : List Pixel) : LaneSender :=
  let k := (f.linesDone + 1) / g.S - 1
  let lines := f.slice ++ [pixels]
  let left : Slice := { index := k, tag := f.tag, pixels := lines.flatMap (·.take g.W) }
  let right : Slice := { index := k, tag := f.tag, pixels := lines.flatMap (·.drop g.W) }
  let queues := fun v : SenderEye => v.input = .sending ∧ v.queue.length < 8
  let drops := fun v : SenderEye => v.input = .voiding ∨ v.input = .sending ∧ 8 ≤ v.queue.length
  let once := fun (p : Prop) [Decidable p] (c : Counter) => if p then bump c else c
  if (f.linesDone + 1) % g.S = 0 then
    { x with
      frame := some { f with linesDone := f.linesDone + 1, line := .full false, slice := [] }
      eyes := { left := Stated.handed x.eyes.left g.slices left, right := Stated.handed x.eyes.right g.slices right }
      slicesFormed := BitVec.ofNat 16 (min (x.slicesFormed.toNat + 2) 65535)
      slicesQueued := once (queues x.eyes.right) (once (queues x.eyes.left) x.slicesQueued)
      slicesDropped := once (drops x.eyes.right) (once (drops x.eyes.left) x.slicesDropped) }
  else
    { x with frame := some { f with linesDone := f.linesDone + 1, line := .full false, slice := lines } }

/-- R96, R98, R99. A pixel of an unfinished line joins it; the 2W-th completes the line. The first pixel after a
complete line counts an input-shape event and is discarded; further ones, pixels of extra lines and pixels before a line
start are discarded. -/
def Stated.PixelsBuildLinesAndSlices : Prop :=
  ∀ (s : State) (f : InputFrame) (p : Pixel), Stated.console s → s.laneTx.frame = some f →
    (∀ px, f.line = .filling px → px.length + 1 < 2 * s.store.geometry.W →
      exec (.inputPixel p) s = .next
        { s with laneTx := { s.laneTx with frame := some { f with line := .filling (px ++ [p]) } } }) ∧
    (∀ px, f.line = .filling px → px.length + 1 = 2 * s.store.geometry.W →
      exec (.inputPixel p) s = .next
        { s with laneTx := Stated.lineDone s.store.geometry s.laneTx f (px ++ [p]) }) ∧
    (f.line = .full false →
      exec (.inputPixel p) s = .next
        { s with
          laneTx :=
            { s.laneTx with
              frame := some { f with line := .full true }
              inputShape := bump s.laneTx.inputShape } }) ∧
    (f.line = .full true ∨ f.line = .extra ∨ f.line = .none → exec (.inputPixel p) s = .next s)

/-- R96. A line start begins a line. One that finds an unfinished line counts an input-shape event and completes that
line with the edge colours of the eyes its missing pixels belong to. After line H − 1, also where it has just completed
that line so, it begins an extra line, which counts once a frame; inside an extra line it has no effect. Before the first
frame start nothing happens. -/
def Stated.LineStartBeginsALine : Prop :=
  ∀ (s : State) (f : InputFrame), Stated.console s →
    (s.laneTx.frame = none → exec .inputLineStart s = .next s) ∧
    (s.laneTx.frame = some f → f.line = .none ∨ f.line = .full true ∨ f.line = .full false →
      f.linesDone < s.store.geometry.H →
      exec .inputLineStart s = .next
        { s with laneTx := { s.laneTx with frame := some { f with line := .filling [] } } }) ∧
    (s.laneTx.frame = some f → f.line = .full true ∨ f.line = .full false → s.store.geometry.H ≤ f.linesDone →
      exec .inputLineStart s = .next
        { s with
          laneTx :=
            { s.laneTx with
              frame := some { f with line := .extra, extraCounted := true }
              inputShape := if f.extraCounted then s.laneTx.inputShape else bump s.laneTx.inputShape } }) ∧
    (∀ px : List Pixel, s.laneTx.frame = some f → f.line = .filling px → px.length ≤ 2 * s.store.geometry.W →
      let g := s.store.geometry
      let filled := px ++ List.replicate (g.W - px.length) g.edge.left ++
        List.replicate (min g.W (2 * g.W - px.length)) g.edge.right
      let done := Stated.lineDone g { s.laneTx with inputShape := bump s.laneTx.inputShape } f filled
      exec .inputLineStart s = .next
        { s with
          laneTx :=
            if f.linesDone + 1 < g.H then
              { done with frame := done.frame.map fun x => { x with line := .filling [] } }
            else
              { done with
                frame := done.frame.map fun x => { x with line := .extra, extraCounted := true }
                inputShape := if f.extraCounted then done.inputShape else bump done.inputShape } }) ∧
    (s.laneTx.frame = some f → f.line = .extra → exec .inputLineStart s = .next s)

/-- The eye at a frame start: a SENDING eye of a short frame owes its missing positions; then an eye that owes voids
drops the new frame, and another sends it (R99). -/
def Stated.judged (v : SenderEye) (n : Nat) (before : Option InputFrame) (g : Geometry) : SenderEye :=
  let owed : SenderEye :=
    match before with
    | none => v
    | some f =>
      if f.linesDone < g.H ∧ v.input = .sending then
        { v with voidsOwed := n - f.linesDone / g.S, voidTag := some f.tag }
      else v
  { owed with input := if 0 < owed.voidsOwed then .dropping else .sending }

/-- R96, R97, R99. A frame start ends the frame before it, whose partial line and missing lines each count an
input-shape event; the new frame takes the oldest tag, or is untagged and counted; each eye is judged, and a dropped
frame counted. -/
def Stated.FrameStartTakesTagAndJudgesEyes : Prop :=
  ∀ (s : State), Stated.console s →
    let g := s.store.geometry
    let x := s.laneTx
    let left := Stated.judged x.eyes.left g.slices x.frame g
    let right := Stated.judged x.eyes.right g.slices x.frame g
    let missing := match x.frame with | none => false | some f => decide (f.linesDone < g.H)
    let short := match x.frame with | some { line := .filling _, .. } => true | _ => false
    let once := fun (b : Bool) (c : Counter) => if b then bump c else c
    exec .inputFrameStart s = .next
      { s with
        laneTx :=
          { x with
            frame := some { tag := x.tags.head?, linesDone := 0, line := .none, slice := [], extraCounted := false }
            tags := x.tags.tail
            eyes := { left := left, right := right }
            inputFrames := bump x.inputFrames
            inputShape := once missing (once short x.inputShape)
            untagged := once x.tags.isEmpty x.untagged
            framesDropped :=
              once (decide (0 < right.voidsOwed)) (once (decide (0 < left.voidsOwed)) x.framesDropped) } }

/-- R96 to R99. What pixels, line starts and frame starts do. The model's choices in it: log 22: a partial line at a
frame start counts both as short and as missing; log 47: pixels between a frame start and its first line start are
discarded uncounted. -/
def Obligations.PictureInputIsSliced : Prop :=
  Stated.PixelsBuildLinesAndSlices ∧ Stated.LineStartBeginsALine ∧ Stated.FrameStartTakesTagAndJudgesEyes

/-! ### The lane sender (R101 to R105) -/

/-- The gap of index `k` against a count of positions: (k − count) mod n (R101, R108). -/
def Stated.gap (n k count : Nat) : Nat := (((k : Int) - (count : Int)) % (n : Int)).toNat

/-- What an eye sends next (R101): the slice at the head of its queue, else the next void it owes. -/
def Stated.nextPacket (v : SenderEye) (n : Nat) : Option (Nat × Option FrameTag × Option (List Pixel)) :=
  match v.queue with
  | sl :: _ => some (sl.index, sl.tag, some sl.pixels)
  | [] => if v.voidsOwed = 0 then none else some (n - v.voidsOwed, v.voidTag.getD none, none)

/-- The eye has a next packet, and its gap is below its window (R101). -/
def Stated.ready (s : State) (e : Eye) : Prop :=
  ∃ p, Stated.nextPacket (s.laneTx.eyes.get e) s.store.geometry.slices = some p ∧
    Stated.gap s.store.geometry.slices p.1 (s.laneTx.eyes.get e).sent.toNat <
      ((s.laneTx.eyes.get e).horizon - (s.laneTx.eyes.get e).sent).toNat

/-- The bytes of a slice packet (R105, 12_formats.md), its tag fields as given. -/
def Stated.packet (g : Geometry) (e : Eye) (index : Nat) (tagFields : List Byte) (present : Bool)
    (pixels : Option (List Pixel)) : List Byte :=
  let head := [(match e with | .left => 0 | .right => 1), BitVec.ofNat 8 index,
    Stated.flags pixels.isNone present false false] ++ tagFields ++ [BitVec.ofNat 8 g.S] ++ beBytes 2 g.W
  let bytes := (pixels.getD []).flatMap fun p => [p.r, p.g, p.b]
  head ++ beBytes 2 (bytesCheck head).toNat ++ (if pixels.isSome then bytes ++ beBytes 4 (pixelCheck bytes).toNat else [])

/-- The lane of a CONSOLE is UP and carries no packet (R103). -/
def Stated.laneIdle (s : State) : Prop :=
  Stated.console s ∧ s.power.step ≠ 0 ∧ s.pins.laneSignal = true ∧ s.laneTx.packet = none

/-- R101, R102, R105. With the lane idle, a ready eye's packet is started: the only ready eye's, or of two the one that
did not send last, left after a FRAME firing. Its position count rises by its gap and 1; a slice leaves its queue or a
void is paid. The tag fields of a tagged packet are its tag's; those of an untagged one are whatever they are (log 12).
-/
def Stated.LaneStartsTheReadyEyesPacket : Prop :=
  ∀ (s : State) (e : Eye) (index : Nat) (tag : Option FrameTag) (pixels : Option (List Pixel)), Stated.laneIdle s →
    Stated.nextPacket (s.laneTx.eyes.get e) s.store.geometry.slices = some (index, tag, pixels) →
    Stated.ready s e →
    ¬ Stated.ready s (Eye.other e) ∨ s.laneTx.leftNext = true ∧ e = .left ∨
      s.laneTx.leftNext = false ∧ s.laneTx.lastEye ≠ e →
    ∃ (t : State) (tagFields : List Byte), exec .lanePacketStart s = .next t ∧ tagFields.length = 6 ∧
      (∀ x, tag = some x → tagFields = beBytes 4 x.target.toNat ++ beBytes 2 x.pose.toNat) ∧
      t.laneTx.packet = some
        { eye := e, bytes := Stated.packet s.store.geometry e index tagFields tag.isSome pixels } ∧
      t.laneTx.eyes.get (Eye.other e) = s.laneTx.eyes.get (Eye.other e) ∧
      (t.laneTx.eyes.get e).sent = (s.laneTx.eyes.get e).sent +
        BitVec.ofNat 16 (Stated.gap s.store.geometry.slices index (s.laneTx.eyes.get e).sent.toNat + 1) ∧
      (t.laneTx.eyes.get e).queue = (s.laneTx.eyes.get e).queue.tail ∧
      (t.laneTx.eyes.get e).voidsOwed = (s.laneTx.eyes.get e).voidsOwed - (if pixels.isNone then 1 else 0) ∧
      t.laneTx.slicesSent = (if pixels.isSome then bump s.laneTx.slicesSent else s.laneTx.slicesSent) ∧
      t.laneTx.voidsSent = (if pixels.isNone then bump s.laneTx.voidsSent else s.laneTx.voidsSent) ∧
      t.laneTx.lastEye = e ∧ (Stated.ready s (Eye.other e) → t.laneTx.leftNext = false) ∧
      t.laneTx.frame = s.laneTx.frame ∧ t.laneTx.tags = s.laneTx.tags ∧
      t = { s with laneTx := t.laneTx, free := if tag.isNone then s.free + 1 else s.free }

/-- R101, R102. While the lane is DOWN or carries a packet, or neither eye is ready, nothing is started. The end of a
packet frees the lane and changes nothing else. -/
def Stated.LaneWaitsAndIsFreed : Prop :=
  (∀ s : State, ¬ Stated.laneIdle s ∨ ¬ Stated.ready s .left ∧ ¬ Stated.ready s .right →
    exec .lanePacketStart s = .next s) ∧
  ∀ s : State, exec .lanePacketEnd s = .next { s with laneTx := { s.laneTx with packet := none } }

/-- R101, R102, R105. What the lane starts, and when it waits. The model's choices in it: log 12: the tag bytes of an
untagged packet are free; log 10: when the lane is UP; log 30: the slice of a position is the position mod 65536 mod N;
log 46: unused bits of the packet's flags. -/
def Obligations.LaneSendsTheReadyEye : Prop :=
  Stated.LaneStartsTheReadyEyesPacket ∧ Stated.LaneWaitsAndIsFreed

/-- Buffer b's area begins with the bytes given, and every byte outside them reads as before (the layout is log 11's). -/
def Stated.areaWritten (before after : Memory) (b : Fin 256) (bytes : List Byte) : Prop :=
  (∀ i (hi : i < bytes.length), after.read (b.val * 196608 + i) = bytes[i]) ∧
    ∀ a, a < b.val * 196608 ∨ b.val * 196608 + bytes.length ≤ a → after.read a = before.read a

/-- The pixel bytes of a run that reach buffer b's area: all, or those that came before an opening cut the write, and no
more than a slice or an area has (R119, R121; log 11). -/
def Stated.bytesWritten (s : State) (b : Fin 256) (run : PixelRun) : List Byte :=
  (if s.store.buffers[b].writing then run.bytes else run.bytes.take run.beforeCut).take
    (min (s.store.geometry.S * s.store.geometry.W * 3) 196608)

/-- R109, R119, R120, R121. The slice store `k` after the packet that was arriving ends, its check agreeing or not, once
the pixels `run` have come: they stand in its buffer's area, and a write that is in progress ends; nothing else of the
store changes. A packet that has no buffer changes nothing. -/
def Stated.packetEnded (s : State) (x : Arriving) (run : PixelRun) (agrees : Prop) (k : SliceStore) : Prop :=
  (x.buffer = none → k = s.store) ∧
  ∀ b, x.buffer = some b →
    Stated.areaWritten s.store.mem k.mem b (Stated.bytesWritten s b run) ∧
    (s.store.buffers[b].writing = false → k = { s.store with mem := k.mem }) ∧
    (s.store.buffers[b].writing = true → agrees →
      k = { s.store with
        mem := k.mem
        buffers := s.store.buffers.set b { s.store.buffers[b] with writing := false, content := .pixels } }) ∧
    (s.store.buffers[b].writing = true → ¬ agrees →
      k = { s.store with
        mem := k.mem
        buffers := s.store.buffers.set b { s.store.buffers[b] with writing := false }
        checkFailures := bump s.store.checkFailures })

/-- R103, R106, R109. The lane going DOWN at the console or the headset is counted and cuts the packet short, one that is
arriving with its check failed after the pixels that have come; while RUNNING the LANE condition is present. Coming UP
ends the condition and starts nothing. The model's choices in it: log 10: lane level and signal; log 11: the pixels that
have come of a packet are written when it ends. -/
def Obligations.LaneDownAndUp : Prop :=
  (∀ (s : State) (run : PixelRun), s.straps.role = .headset → s.pins.laneSignal = true →
    ∃ t, exec (.laneDown run) s = .next t ∧ t.pins = { s.pins with laneSignal := false } ∧
      t.laneRx = { s.laneRx with packet := none, laneDowns := bump s.laneRx.laneDowns } ∧
      (s.laneRx.packet = none → t.store = s.store) ∧
      (∀ x, s.laneRx.packet = some x → Stated.packetEnded s x run False t.store) ∧
      t.alarms.present.getLsbD 11 = decide (s.loader.life = .running) ∧
      t = { s with pins := t.pins, laneRx := t.laneRx, store := t.store, alarms := t.alarms, slots := t.slots }) ∧
  (∀ (s : State) (run : PixelRun), s.straps.role = .console → s.pins.laneSignal = true → s.power.step ≠ 0 →
    ∃ t, exec (.laneDown run) s = .next t ∧ t.pins = { s.pins with laneSignal := false } ∧
      t.laneTx = { s.laneTx with packet := none, laneDowns := bump s.laneTx.laneDowns } ∧
      t.alarms.present.getLsbD 11 = decide (s.loader.life = .running) ∧
      t = { s with pins := t.pins, laneTx := t.laneTx, alarms := t.alarms, slots := t.slots }) ∧
  ∀ s : State, s.straps.role = .headset ∨ s.straps.role = .console ∧ s.power.step ≠ 0 →
    exec .laneUp s = .next
      { s with
        pins := { s.pins with laneSignal := true }
        alarms := { s.alarms with present := s.alarms.present &&& ~~~2048#12 } }

/-- R104. A well-formed CREDIT at a CONSOLE: an eye whose epoch is new, or whose carried horizon lies more than N beyond
sent, is resynchronised; another takes the carried horizon. The model's choices in it: log 51: positions of a
resynchronised eye that are carried more than N apart. -/
def Obligations.CreditMovesHorizonOrResynchronises : Prop :=
  ∀ (s : State) (m : Received) (epoch : Byte) (lh la rh ra : BitVec 16), Stated.receiving s →
    s.straps.role = .console → m.check = spineCheck m.rank m.body → m.rank.toNat / 8 = 2 * 32 →
    m.rank.toNat % 8 ≠ s.straps.node.val → Stated.toUnit s m.rank →
    standingOf s.spine.sfc (Stated.afterReceipt s.spine.tfc) s.spine.strain = s.spine.standing →
    m.body = [epoch] ++ beBytes 2 lh.toNat ++ beBytes 2 la.toNat ++ beBytes 2 rh.toNat ++ beBytes 2 ra.toNat →
    let resyncs := fun (v : SenderEye) (h : BitVec 16) =>
      s.laneTx.epochHeld ≠ some epoch ∨ s.store.geometry.slices < (h - v.sent).toNat
    let after := fun (v : SenderEye) (h a : BitVec 16) =>
      if s.laneTx.epochHeld ≠ some epoch ∨ s.store.geometry.slices < (h - v.sent).toNat then
        { v with input := .dropping, voidsOwed := 0, voidTag := none, queue := [], sent := a, horizon := h }
      else { v with horizon := h }
    ∃ t, exec (.messageTaken m) s = .next t ∧
      t.laneTx.eyes = { left := after s.laneTx.eyes.left lh la, right := after s.laneTx.eyes.right rh ra } ∧
      t.laneTx.epochHeld = some epoch ∧ t.laneTx.creditsTaken = bump s.laneTx.creditsTaken ∧
      (¬ resyncs s.laneTx.eyes.left lh → ¬ resyncs s.laneTx.eyes.right rh →
        t.laneTx.resyncs = s.laneTx.resyncs ∧ t.laneTx.flushed = s.laneTx.flushed ∧
          t.laneTx.framesDropped = s.laneTx.framesDropped) ∧
      (resyncs s.laneTx.eyes.left lh → resyncs s.laneTx.eyes.right rh →
        t.laneTx.resyncs = bump (bump s.laneTx.resyncs)) ∧
      t.laneTx.packet = s.laneTx.packet ∧ t.laneTx.frame = s.laneTx.frame ∧ t.laneTx.tags = s.laneTx.tags ∧
      t = { s with laneTx := t.laneTx, spine := t.spine, intake := t.intake }

/-! ### The lane receiver (R106 to R111) and takes (R118 to R120) -/

/-- A HEADSET out of LOADING with a signal on its lane. -/
def Stated.laneSignalled (s : State) : Prop :=
  s.straps.role = .headset ∧ s.loader.life ≠ .loading ∧ s.pins.laneSignal = true

/-- A HEADSET out of LOADING with a signal on its lane and no pixel packet arriving. -/
def Stated.lanePresent (s : State) : Prop := Stated.laneSignalled s ∧ s.laneRx.packet = none

/-- The header passes every check of R107. -/
def Stated.headerGood (s : State) (h : PacketHeader) : Prop :=
  h.check = bytesCheck ([h.eye, h.index, h.flags] ++ beBytes 4 h.target.toNat ++ beBytes 2 h.pose.toNat ++ [h.lines] ++
    beBytes 2 h.width.toNat) ∧
  h.eye.toNat ≤ 1 ∧ h.index.toNat < s.store.geometry.slices ∧ h.lines.toNat = s.store.geometry.S ∧
    h.width.toNat = s.store.geometry.W

/-- R107, R108, R122. A header that fails a check is discarded and counted. One whose gap is not below the window is
refused: an OVERRUN map fault is raised, and positions, horizon and buffers stay. The model's choices in it: log 30: the
index that is expected is the position mod 65536 mod N. -/
def Obligations.BadOrFarHeadersAreNotTaken : Prop :=
  ∀ (s : State) (cut : PixelRun) (h : PacketHeader) (e : Eye), Stated.lanePresent s →
    (¬ Stated.headerGood s h →
      exec (.packetHeader h cut) s = .next
        { s with laneRx := { s.laneRx with headerDiscards := bump s.laneRx.headerDiscards } }) ∧
    (Stated.headerGood s h → e = (if h.eye = 0 then .left else .right) →
      ((s.laneRx.eyes.get e).horizon - (s.laneRx.eyes.get e).accepted).toNat ≤
        Stated.gap s.store.geometry.slices h.index.toNat
          ((s.laneRx.eyes.get e).accepted.toNat % s.store.geometry.slices) →
      ∃ t, exec (.packetHeader h cut) s = .next t ∧
        t.laneRx = { s.laneRx with overruns := bump s.laneRx.overruns } ∧
        t.store.mapFaults = bump s.store.mapFaults ∧
        (s.store.fault = none →
          t.store.captures = bump s.store.captures ∧ t.alarms.latched.getLsbD 7 = true ∧
            t.store.fault = some
              { kind := .overrun
                eye := e
                index := h.index
                tag := { target := h.target, pose := h.pose, present := h.flags.getLsbD 1 }
                time := s.agreedUs
                later := 0 }) ∧
        (∀ f, s.store.fault = some f →
          t.store.captures = s.store.captures ∧ t.store.fault = some { f with later := bump f.later } ∧
            t.alarms = s.alarms) ∧
        t.store.buffers = s.store.buffers ∧ t.store.mem = s.store.mem ∧ t.store.bands = s.store.bands ∧
        t = { s with laneRx := t.laneRx, store := t.store, alarms := t.alarms, slots := t.slots })

/-- R111. A horizon of `t` differs from the one last loaded in `s`, or none had been loaded there. -/
def Stated.creditCalled (s t : State) : Prop :=
  ∃ e : Eye, (s.laneRx.eyes.get e).lastLoaded ≠ some (t.laneRx.eyes.get e).horizon

/-- R21, R22, R111. What one recomputation of the horizons, which leaves `t`, makes of the CREDIT slot of `s`: it loads a
CREDIT formed then where a horizon calls for it and the station is in RUNNING and not CUT; a load refused leaves the
horizons last loaded as they were. -/
def Stated.creditFollows (s t : State) : Prop :=
  let loads := Stated.creditCalled s t ∧ s.loader.life = .running ∧ s.spine.standing ≠ .cut
  (loads →
    t.slots.credit = s.slots.credit.load (Stated.creditContent t) ∧
      t.laneRx.creditLoads = bump s.laneRx.creditLoads ∧
      ∀ e, (t.laneRx.eyes.get e).lastLoaded = some (t.laneRx.eyes.get e).horizon) ∧
  (¬ loads →
    t.slots.credit = s.slots.credit ∧ t.laneRx.creditLoads = s.laneRx.creditLoads ∧
      ∀ e, (t.laneRx.eyes.get e).lastLoaded = (s.laneRx.eyes.get e).lastLoaded)

/-- A buffer record after a void take (R118). -/
def Stated.voided (r : BufferRecord) : BufferRecord :=
  { r with full := true, content := if r.content = .damaged then .damaged else .unchanged }

/-- R108 to R111, R118 to R120. A packet at its eye's expected index, with the window above 0, is taken: accepted rises
by 1, CREDIT is loaded where the horizon calls for it, and the horizon follows the open positions. A pixel packet makes
its buffer FULL, DAMAGED, tagged and being written; a void makes it FULL and UNCHANGED, or leaves it DAMAGED; a FIXED
band discards pixels and counts them. -/
def Stated.ExpectedPacketIsTaken : Prop :=
  ∀ (s : State) (cut : PixelRun) (h : PacketHeader) (e : Eye), Stated.lanePresent s → Stated.headerGood s h →
    e = (if h.eye = 0 then .left else .right) →
    h.index.toNat = (s.laneRx.eyes.get e).accepted.toNat % s.store.geometry.slices →
    (s.laneRx.eyes.get e).horizon ≠ (s.laneRx.eyes.get e).accepted → s.store.geometry.slices ≤ 256 →
    let void := h.flags.getLsbD 0
    let tag : Tag := { target := h.target, pose := h.pose, present := h.flags.getLsbD 1 }
    let buffer := s.store.bufferOf e h.index.toNat
    ∃ t, exec (.packetHeader h cut) s = .next t ∧
      (t.laneRx.eyes.get e).accepted = (s.laneRx.eyes.get e).accepted + 1 ∧
      horizonIsRun t.store e (t.laneRx.eyes.get e) ∧
      (t.laneRx.eyes.get (Eye.other e)).accepted = (s.laneRx.eyes.get (Eye.other e)).accepted ∧
      (t.laneRx.eyes.get (Eye.other e)).horizon = (s.laneRx.eyes.get (Eye.other e)).horizon ∧
      t.laneRx.packetsTaken = bump s.laneRx.packetsTaken ∧
      t.laneRx.voidsTaken = (if void then bump s.laneRx.voidsTaken else s.laneRx.voidsTaken) ∧
      Stated.creditFollows s t ∧
      (∀ b, buffer = some b → void = false →
        t.store.buffers = s.store.buffers.set b { full := true, content := .damaged, tag := tag, writing := true } ∧
          t.store.pixelWrites = bump s.store.pixelWrites ∧
          (t.store.band e h.index.toNat).written = true ∧
          t.laneRx.packet = some { eye := e, index := h.index.toNat, buffer := some b }) ∧
      (∀ b, buffer = some b → void = true →
        t.store.buffers = s.store.buffers.set b (Stated.voided s.store.buffers[b]) ∧
          t.store.voidKeeps = bump s.store.voidKeeps ∧ t.laneRx.packet = none) ∧
      (buffer = none → t.store.buffers = s.store.buffers) ∧
      (buffer = none → void = false → (s.store.band e h.index.toNat).access = .fixed →
        t.store = { s.store with fixedDiscards := bump s.store.fixedDiscards }) ∧
      (buffer = none → void = false → (s.store.band e h.index.toNat).access ≠ .fixed → s.store.fault = none →
        ∃ f, t.store.fault = some f ∧ f.eye = e ∧ f.index = h.index ∧ f.tag = tag ∧
          f.kind = (if (s.store.band e h.index.toNat).access = .absent then .absent else .length)) ∧
      t.store.mem = s.store.mem ∧ t.scan = s.scan ∧ t.spine = s.spine ∧ t.intake = s.intake ∧ t.laneTx = s.laneTx

/-- R108, R110, R111, R118. A packet beyond the expected index but within the window: the positions of the gap are voided
one by one and counted, and the packet is taken at the position after them. Each buffer of a gap position becomes FULL
and UNCHANGED, or stays DAMAGED; the packet's own is as its take leaves it; every other stays. In RUNNING and outside CUT
the horizons that it leaves are the ones last loaded into CREDIT. -/
def Stated.GapIsVoidedBeforeTheTake : Prop :=
  ∀ (s : State) (cut : PixelRun) (h : PacketHeader) (e : Eye) (g : Nat), Stated.lanePresent s → Stated.headerGood s h →
    e = (if h.eye = 0 then .left else .right) →
    g = Stated.gap s.store.geometry.slices h.index.toNat
      ((s.laneRx.eyes.get e).accepted.toNat % s.store.geometry.slices) →
    g < ((s.laneRx.eyes.get e).horizon - (s.laneRx.eyes.get e).accepted).toNat → s.store.geometry.slices ≤ 256 →
    s.laneRx.voided.toNat + g ≤ 65535 →
    let void := h.flags.getLsbD 0
    let bufferAt := fun i : Nat =>
      s.store.bufferOf e (((s.laneRx.eyes.get e).accepted.toNat + i) % 65536 % s.store.geometry.slices)
    let own := s.store.bufferOf e h.index.toNat
    let keeps := ((List.range g).filter fun i => (bufferAt i).isSome).length + (if void ∧ own.isSome then 1 else 0)
    ∃ t, exec (.packetHeader h cut) s = .next t ∧
      (t.laneRx.eyes.get e).accepted = (s.laneRx.eyes.get e).accepted + BitVec.ofNat 16 (g + 1) ∧
      t.laneRx.voided = s.laneRx.voided + BitVec.ofNat 16 g ∧
      t.laneRx.packetsTaken = bump s.laneRx.packetsTaken ∧
      horizonIsRun t.store e (t.laneRx.eyes.get e) ∧ t.store.mem = s.store.mem ∧
      (t.laneRx.eyes.get (Eye.other e)).accepted = (s.laneRx.eyes.get (Eye.other e)).accepted ∧
      (t.laneRx.eyes.get (Eye.other e)).horizon = (s.laneRx.eyes.get (Eye.other e)).horizon ∧
      (∀ b : Fin 256,
        (own = some b → void = false →
          t.store.buffers[b] =
            { full := true
              content := .damaged
              tag := { target := h.target, pose := h.pose, present := h.flags.getLsbD 1 }
              writing := true }) ∧
        (own ≠ some b ∨ void = true → own = some b ∨ (∃ i, i < g ∧ bufferAt i = some b) →
          t.store.buffers[b] = Stated.voided s.store.buffers[b]) ∧
        (own ≠ some b → (∀ i, i < g → bufferAt i ≠ some b) → t.store.buffers[b] = s.store.buffers[b])) ∧
      t.store.voidKeeps = BitVec.ofNat 16 (min (s.store.voidKeeps.toNat + keeps) 65535) ∧
      (s.loader.life = .running → s.spine.standing ≠ .cut →
        ∀ e', (t.laneRx.eyes.get e').lastLoaded = some (t.laneRx.eyes.get e').horizon)

/-- R109, R119. A header that comes while a pixel packet is still arriving ends that packet with its check failed, after
the pixels that have come of it, and is then judged as any header is. That it can come so is the model's choice (log
23). -/
def Stated.HeaderEndsThePacketBeforeIt : Prop :=
  ∀ (s : State) (cut : PixelRun) (h : PacketHeader) (x : Arriving), Stated.laneSignalled s →
    s.laneRx.packet = some x →
    ∃ store, Stated.packetEnded s x cut False store ∧
      exec (.packetHeader h cut) s =
        exec (.packetHeader h cut) { s with laneRx := { s.laneRx with packet := none }, store := store }

/-- R108 to R111, R118 to R120. What a packet within the window does. The model's choices in it: log 11: the pixels of a
packet cut short are written when it ends; log 20: the horizon is recomputed once after the voids and once after the
take; log 23: a header ends the packet before it; log 30: the slice of a position is the position mod 65536 mod N. -/
def Obligations.PacketWithinTheWindowIsTaken : Prop :=
  Stated.ExpectedPacketIsTaken ∧ Stated.GapIsVoidedBeforeTheTake ∧ Stated.HeaderEndsThePacketBeforeIt

/-- R119 to R121. The end of a pixel packet: its pixel bytes stand in its buffer's area; a packet of whole length whose
pixel check agrees leaves PIXELS, another leaves DAMAGED and counts. Where an opening has cut the write, only the pixels
before it stand, and its check is not applied; without a buffer nothing is written. Every byte outside those written
reads as before. -/
def Stated.PacketEndWritesTheBufferArea : Prop :=
  ∀ (s : State) (x : Arriving) (run : PixelRun) (check : BitVec 32), s.laneRx.packet = some x →
    s.store.geometry.S * s.store.geometry.W * 3 ≤ 196608 →
    ∃ store, exec (.packetEnd run check) s = .next { s with laneRx := { s.laneRx with packet := none }, store := store } ∧
      Stated.packetEnded s x run
        (run.bytes.length = s.store.geometry.S * s.store.geometry.W * 3 ∧ check = pixelCheck run.bytes) store

/-- The end of a packet while none is arriving does nothing (log 2); one in a geometry whose slices exceed a buffer's area
stops (log 29), which no loaded geometry does. -/
def Stated.PacketEndElsewhereWritesNothing : Prop :=
  ∀ (s : State) (run : PixelRun) (check : BitVec 32),
    (s.laneRx.packet = none → exec (.packetEnd run check) s = .next s) ∧
    (s.laneRx.packet ≠ none → 196608 < s.store.geometry.S * s.store.geometry.W * 3 →
      exec (.packetEnd run check) s = .fault .sliceOverArea)

/-- R119, R120, R121. What the end of a pixel packet writes. The model's choices in it: log 2: an end without a packet
does nothing; log 11: the bytes are written at the packet's end; log 24: a wrong length fails the check; log 29: the
stop. -/
def Obligations.PacketEndWritesItsBufferAlone : Prop :=
  Stated.PacketEndWritesTheBufferArea ∧ Stated.PacketEndElsewhereWritesNothing

/-! ### The slice store's commands (R123, R126) -/

/-- R123, R126. On a HEADSET, READ BANDS gives the written and stale flags and the access of the eye's bands, then
clears the flags of that eye alone; an eye above 1 is the right one and CLAMPED. CLEAR MAP FAULT gives a frozen record
and releases it; a released one is EMPTY. -/
def Obligations.StoreCommandsOnHeadset : Prop :=
  ∀ (s : State) (c : Command) (rest : List Command), Stated.repliesBySpine s c rest → s.straps.role = .headset →
    (∀ arg : Byte, c.code = 6 → c.args = [arg] →
      let e : Eye := if arg = 0 then .left else .right
      let bands := s.store.bands.get e
      let bitsOf := fun f : Band → Nat → Nat => ((List.finRange 8).map fun i => f bands[i] i.val).sum
      exec .readBands s = .next
        (Stated.spineReplied
          { s with
            store :=
              { s.store with
                bands := s.store.bands.put e (bands.map fun b => { b with written := false, stale := false }) } }
          c rest (if 1 < arg.toNat then 4 else 0)
          ([BitVec.ofNat 8 (bitsOf fun b i => if b.written then 2 ^ i else 0),
            BitVec.ofNat 8 (bitsOf fun b i => if b.stale then 2 ^ i else 0)] ++
            beBytes 2 (bitsOf fun b i => (match b.access with | .live => 0 | .fixed => 1 | .absent => 2) * 4 ^ i)))) ∧
    (c.code = 7 → s.store.fault = none → exec .clearMapFault s = .next (Stated.spineReplied s c rest 3 [])) ∧
    (∀ f, c.code = 7 → s.store.fault = some f →
      exec .clearMapFault s = .next
        (Stated.spineReplied { s with store := { s.store with fault := none } } c rest 0
          ([(match f.kind with | .overrun => 0 | .absent => 1 | .length => 2),
            (match f.eye with | .left => 0 | .right => 1), f.index] ++ beBytes 4 f.tag.target.toNat ++
            beBytes 2 f.tag.pose.toNat ++ [if f.tag.present then 1 else 0] ++ beBytes 6 f.time ++
            beBytes 2 f.later.toNat)))

/-! ### The scan (R131 to R143) -/

/-- Line `y` is the next to be formed, its time has come, and its slices fit the buffers' areas (R131). -/
def Stated.lineDue (s : State) (y : Nat) : Prop :=
  s.scan.scanning = true ∧ s.scan.nextLine = y ∧ y < s.store.geometry.H ∧ y * s.scan.settings.lp ≤ s.scan.lineClock ∧
    s.store.geometry.S * s.store.geometry.W * 3 ≤ 196608 ∧ 0 < s.store.geometry.S

/-- Pixel `col` of source line `y` of an eye (R141); outside the picture it is the eye's edge colour. -/
def Stated.source (s : State) (e : Eye) (y col : Int) : Pixel :=
  let g := s.store.geometry
  let edge := g.edge.get e
  if y < 0 ∨ (g.H : Int) ≤ y ∨ col < 0 ∨ (g.W : Int) ≤ col then edge
  else
    match s.store.bufferOf e (y.toNat / g.S) with
    | none =>
      let band := s.store.band e (y.toNat / g.S)
      if band.access = .fixed then band.fill else { r := 0, g := 0, b := 0 }
    | some b =>
      if s.store.buffers[b].content = .damaged then edge
      else
        let a := b.val * 196608 + (y.toNat % g.S * g.W + col.toNat) * 3
        { r := s.store.mem.read a, g := s.store.mem.read (a + 1), b := s.store.mem.read (a + 2) }

/-- A channel blended of two source pixels and scaled by the brightness (R142, R143). -/
def Stated.channel (p q : Byte) (f brightness : Nat) : Byte :=
  BitVec.ofNat 8 (((p.toNat * (16 - f) + q.toNat * f + 8) / 16 * brightness + 128) / 256)

/-- A panel shows line `y` of an eye, whose band is LIVE and whose shift record is `r` (R141 to R143). -/
def Stated.shows (s : State) (e : Eye) (y : Nat) (r : ShiftRecord) (panel : Option PanelLine) : Prop :=
  let i := r.dx16 / 16
  let f := (r.dx16 - 16 * i).toNat
  let brightness := s.scan.settings.brightness[s.power.step]
  ∃ px, panel = some { line := y, pixels := px } ∧ px.length = s.store.geometry.W ∧
    ∀ x (hx : x < px.length),
      let p := Stated.source s e (y + r.dy) (x + i)
      let q := Stated.source s e (y + r.dy) (x + i + 1)
      px[x] =
        { r := Stated.channel p.r q.r f brightness
          g := Stated.channel p.g q.g f brightness
          b := Stated.channel p.b q.b f brightness }

/-- A panel shows line `y` of an eye whose band is not LIVE: the fill colour of a FIXED band, black of an ABSENT one, at
every column, scaled by the brightness (R141 to R143). -/
def Stated.showsFill (s : State) (e : Eye) (y : Nat) (panel : Option PanelLine) : Prop :=
  let band := s.store.band e (y / s.store.geometry.S)
  let fill : Pixel := if band.access = .fixed then band.fill else { r := 0, g := 0, b := 0 }
  let brightness := s.scan.settings.brightness[s.power.step]
  ∃ px, panel = some { line := y, pixels := px } ∧ px.length = s.store.geometry.W ∧
    ∀ x (hx : x < px.length),
      px[x] =
        { r := Stated.channel fill.r fill.r 0 brightness
          g := Stated.channel fill.g fill.g 0 brightness
          b := Stated.channel fill.b fill.b 0 brightness }

/-- The state `s` after line `y`, within a slice: nothing but the panels and the scan's place changes. -/
def Stated.lineFormed (s : State) (y : Nat) (t : State) : Prop :=
  t = { s with
    pins := { s.pins with panel := t.pins.panel }
    scan := { s.scan with current := some (y / s.store.geometry.S), nextLine := y + 1 } }

/-- R141 to R143. A line within a slice, in an eye whose band is LIVE, whatever the other eye's is: its panel gets the
source line `y` + dy shifted by dx16 sixteenths, blended, and scaled by the brightness of the power step. -/
def Stated.LinesAreShiftedBlendedAndScaled : Prop :=
  ∀ (s : State) (y : Nat) (e : Eye) (r : ShiftRecord), Stated.lineDue s y → y % s.store.geometry.S ≠ 0 →
    (s.scan.eyes.get e).shift = some r → (s.store.band e (y / s.store.geometry.S)).access = .live →
    ∃ t, exec .scanLine s = .next t ∧ Stated.shows s e y r (t.pins.panel.get e) ∧ Stated.lineFormed s y t

/-- R141 to R143. A line within a slice, in an eye whose band is FIXED or ABSENT, whatever the other eye's is: its panel
gets the fill colour of a FIXED band and black of an ABSENT one at every column, scaled by the brightness. -/
def Stated.BandsWithoutBuffersShowTheirFill : Prop :=
  ∀ (s : State) (y : Nat) (e : Eye), Stated.lineDue s y → y % s.store.geometry.S ≠ 0 →
    (s.store.band e (y / s.store.geometry.S)).access ≠ .live →
    ∃ t, exec .scanLine s = .next t ∧ Stated.showsFill s e y (t.pins.panel.get e) ∧ Stated.lineFormed s y t

/-- R131, R132, R141 to R143. The first line of slice k goes to the panels in the same way, with the shift record that
the slice has from then on. -/
def Stated.FirstLineOfASliceIsFormed : Prop :=
  ∀ (s : State) (k : Nat) (e : Eye), Stated.lineDue s (k * s.store.geometry.S) →
    let y := k * s.store.geometry.S
    ∃ t r, exec .scanLine s = .next t ∧ (t.scan.eyes.get e).shift = some r ∧
      ((s.store.band e k).access = .live → Stated.shows s e y r (t.pins.panel.get e)) ∧
      ((s.store.band e k).access ≠ .live →
        r = { dx16 := 0, dy := 0, unmatched := false, hClamp := false, vClamp := false } ∧
          Stated.showsFill s e y (t.pins.panel.get e))

/-- R131, R132, R141 to R143. The lines sent to the panels. The model's choices in it: log 11: where the pixels of a
slice lie in its buffer's area. -/
def Obligations.LinesAreFormedForThePanels : Prop :=
  Stated.LinesAreShiftedBlendedAndScaled ∧
    Stated.BandsWithoutBuffersShowTheirFill ∧
    Stated.FirstLineOfASliceIsFormed

/-- What R134 to R140 read for a slice, besides the two pose entries. -/
structure Stated.ShiftInput where
  /-- the sample period P in µs -/
  period : Nat
  latest : PoseEntry
  render : PoseEntry

/-- R134 to R136. The entries that a slice's late shift reads: the newest of the history, and the one its buffer's tag
names. -/
def Stated.shiftReads (s : State) (e : Eye) (k : Nat) (x : Stated.ShiftInput) : Prop :=
  s.motion.history.getLast? = some x.latest ∧
    (∃ b, s.store.bufferOf e k = some b ∧ s.store.buffers[b].tag.present = true ∧
      s.motion.history.find? (·.sequence == s.store.buffers[b].tag.pose) = some x.render) ∧
    ∃ (i : Fin 8) (phase due : Nat),
      s.sched.entries[i] = { action := .sample, mode := .repeating (16 * x.period) phase due } ∧
        ∀ j : Fin 8, j ≠ i → s.sched.entries[j].action ≠ .sample

/-- A value held in a range. -/
def Stated.within (lo hi v : Int) : Int := max lo (min hi v)

/-- The shift record of a matched slice (R134 to R140). -/
def Stated.lateShift (s : State) (e : Eye) (k tick : Nat) (x : Stated.ShiftInput) : ShiftRecord :=
  let g := s.store.geometry
  let v := s.scan.settings
  let display : Int := ((tick + (k * g.S + g.S / 2) * v.lp / 16 + v.glow : Nat) : Int)
  let h := Stated.within 0 v.hmax (display - x.latest.stamp)
  let yaw := x.latest.angles.yaw + BitVec.ofInt 32 (Int.tdiv (x.latest.increments.yaw * h) x.period)
  let pitch := x.latest.angles.pitch + BitVec.ofInt 32 (Int.tdiv (x.latest.increments.pitch * h) x.period)
  let lens := s.dials.e0.frameValue * v.lensStep
  let dx := ((yaw - x.render.angles.yaw).toInt * v.kx + 2 ^ 31) / 2 ^ 32 + (if e = .left then lens else -lens)
  let dy := (((pitch - x.render.angles.pitch).toInt * v.ky + 2 ^ 31) / 2 ^ 32 + 8) / 16
  let dx' := Stated.within (-(16 * v.maxshift)) (16 * v.maxshift) dx
  let dy' := Stated.within (-(min g.S v.maxshift)) (min g.S v.maxshift) dy
  { dx16 := dx', dy := dy', unmatched := false, hClamp := decide (dx' ≠ dx), vClamp := decide (dy' ≠ dy) }

/-- R134 to R140. At the first line of slice k of a scan the slice's late shift is computed from the newest pose,
predicted to the moment the slice is shown, against the pose its tag names. Here for a slice of a LIVE band whose tag
matches. -/
def Stated.MatchedSliceTakesItsLateShift : Prop :=
  ∀ (s : State) (k tick : Nat) (e : Eye) (x : Stated.ShiftInput), Stated.lineDue s (k * s.store.geometry.S) →
    s.scan.tickTime = some tick → (s.store.band e k).access = .live → Stated.shiftReads s e k x →
    ∃ t, exec .scanLine s = .next t ∧ (t.scan.eyes.get e).shift = some (Stated.lateShift s e k tick x) ∧
      t.scan.current = some k ∧ t.motion = s.motion ∧ t.dials = s.dials ∧ t.power = s.power ∧
      t.store.mem = s.store.mem

/-- The shift record of slice k of an eye is unmatched (R134, R136): it has no buffer, its buffer's tag is absent or names
no entry of the history, or the history is empty. -/
def Stated.unmatchedAt (s : State) (e : Eye) (k : Nat) : Bool :=
  match s.store.bufferOf e k with
  | none => true
  | some b =>
    !s.store.buffers[b].tag.present || s.motion.history.all fun p => p.sequence != s.store.buffers[b].tag.pose

/-- R136, R138, R140. An unmatched slice k of a LIVE band, whatever the other eye's is, is shifted by the lens term alone,
within the horizontal clamp. -/
def Stated.UnmatchedSliceTakesTheLensTermAlone : Prop :=
  ∀ (s : State) (k : Nat) (e : Eye), Stated.lineDue s (k * s.store.geometry.S) → (s.store.band e k).access = .live →
    Stated.unmatchedAt s e k = true →
    let lens := s.dials.e0.frameValue * s.scan.settings.lensStep
    let dx := if e = .left then lens else -lens
    let dx' := Stated.within (-(16 * s.scan.settings.maxshift)) (16 * s.scan.settings.maxshift) dx
    ∃ t, exec .scanLine s = .next t ∧
      (t.scan.eyes.get e).shift = some
        { dx16 := dx', dy := 0, unmatched := true, hClamp := decide (dx' ≠ dx), vClamp := false }

/-- A counter raised by 1 for each eye that `counts` names (R144). -/
def Stated.raised (c : Counter) (counts : Eye → Bool) : Counter :=
  BitVec.ofNat 16 (min (c.toNat + (counts .left).toNat + (counts .right).toNat) 65535)

/-- R132, R136, R140, R144. Reaching slice k in both eyes: each unmatched record of a slice in a LIVE band that has a
buffer, and each while the history is empty, is counted, and so is each record with a clamp flag; a band without buffers
has the zero record and counts nothing. -/
def Stated.RecordsAreCountedInBothEyes : Prop :=
  ∀ (s : State) (k : Nat), Stated.lineDue s (k * s.store.geometry.S) →
    let live := fun e => (s.store.band e k).access == .live
    ∃ t, exec .scanLine s = .next t ∧
      t.scan.unmatched =
        Stated.raised s.scan.unmatched (fun e =>
          live e && Stated.unmatchedAt s e k && ((s.store.bufferOf e k).isSome || s.motion.history.isEmpty)) ∧
      t.scan.clamped =
        Stated.raised s.scan.clamped (fun e =>
          match (t.scan.eyes.get e).shift with
          | some r => r.hClamp || r.vClamp
          | none => false) ∧
      ∀ e, live e = false →
        (t.scan.eyes.get e).shift = some
          { dx16 := 0, dy := 0, unmatched := false, hClamp := false, vClamp := false }

/-- Slice k of an eye has a buffer that is OPEN, so that reaching it is a stale show (R132). -/
def Stated.staleAt (s : State) (e : Eye) (k : Nat) : Bool :=
  match s.store.bufferOf e k with
  | none => false
  | some b => !s.store.buffers[b].full

/-- Slice k of an eye has a buffer with a tag older than the display frame number, so that reaching it is a late show
(R132). -/
def Stated.lateAt (s : State) (e : Eye) (k : Nat) : Bool :=
  match s.store.bufferOf e k with
  | none => false
  | some b =>
    let tag := s.store.buffers[b].tag
    let behind := (s.scan.frameNumber - tag.target).toNat
    tag.present && decide (1 ≤ behind) && decide (behind < 2 ^ 31)

/-- R125, R132, R144. The slice k reached in both eyes is shown from its buffer as it stands: an OPEN one is a stale show,
which sets the band's stale flag and the slice's mark; any other slice clears the mark; a present tag older than the
display frame number is a late show. The bands keep their buffers apart, as they do in every state a run reaches, so that
the openings behind the scan leave the slice reached as it is. -/
def Stated.ReachedSliceCountsStaleAndLateShows : Prop :=
  ∀ (s : State) (k : Nat), Stated.lineDue s (k * s.store.geometry.S) →
    ∃ t, exec .scanLine s = .next t ∧
      (geometryOk s → bandsOk s →
        t.scan.staleShows = Stated.raised s.scan.staleShows (Stated.staleAt s · k) ∧
        ∀ e, (t.scan.eyes.get e).staleCurrent = Stated.staleAt s e k ∧
          t.store.band e k =
            { s.store.band e k with stale := Stated.staleAt s e k || (s.store.band e k).stale }) ∧
      t.scan.lateShows = Stated.raised s.scan.lateShows (Stated.lateAt s · k) ∧
      (k = 0 → t.store.buffers = s.store.buffers ∧ t.laneRx = s.laneRx ∧ t.slots = s.slots) ∧
      t.store.mem = s.store.mem

/-- R125, R132, R134 to R140, R144. What reaching a slice computes and counts. The model's choices in it: log 48: a
record without a buffer is counted while the history is empty. -/
def Obligations.ReachedSliceTakesItsLateShift : Prop :=
  Stated.MatchedSliceTakesItsLateShift ∧
    Stated.UnmatchedSliceTakesTheLensTermAlone ∧
    Stated.RecordsAreCountedInBothEyes ∧
    Stated.ReachedSliceCountsStaleAndLateShows

/-- The slice has a buffer that is FULL. -/
def Stated.fullAt (s : State) (e : Eye) (k : Nat) : Bool :=
  match s.store.bufferOf e k with
  | none => false
  | some b => s.store.buffers[b].full

/-- R110, R111, R121. What openings leave, of slices of both eyes given by `opened` in the state `s` before them: with
none there is no CREDIT and no horizon moves; else each eye that had one has its horizon at its run of open positions,
and in RUNNING and outside CUT the horizons are the ones last loaded into CREDIT. A single opening loads CREDIT once or
not at all, as its recomputation calls for. The bands keep their buffers apart, as they do in every state a run
reaches. -/
def Stated.openingsFollow (s : State) (opened : Eye → Bool) (t : State) : Prop :=
  (opened .left = false → opened .right = false → t.slots = s.slots ∧ t.laneRx = s.laneRx) ∧
  (geometryOk s → bandsOk s → ∀ e,
    (opened e = true → horizonIsRun t.store e (t.laneRx.eyes.get e)) ∧
    (opened e = false → (t.laneRx.eyes.get e).horizon = (s.laneRx.eyes.get e).horizon)) ∧
  (opened .left = true ∨ opened .right = true → s.loader.life = .running → s.spine.standing ≠ .cut →
    ∀ e, (t.laneRx.eyes.get e).lastLoaded = some (t.laneRx.eyes.get e).horizon) ∧
  ∀ e, (t.laneRx.eyes.get e).accepted = (s.laneRx.eyes.get e).accepted

/-- R121, R133. At the first line of slice k, from 2 on, the scan leaves slice k − 1 and opens the buffer of slice k − 2
of both eyes, cutting a write in progress; every other buffer stays, and content, tag and bytes stay everywhere. An
opening of a FULL buffer whose slice was marked stale counts as overtaken, and the mark behind is taken over from the
current slice. -/
def Stated.LeavingASliceOpensTheOneBehind : Prop :=
  ∀ (s : State) (k : Nat), 2 ≤ k → Stated.lineDue s (k * s.store.geometry.S) →
    let opened := fun e => Stated.fullAt s e (k - 2)
    let overtaken := fun e => if (s.scan.eyes.get e).staleBehind && opened e then 1 else 0
    ∃ t, exec .scanLine s = .next t ∧
      (∀ b : Fin 256,
        (s.store.bufferOf .left (k - 2) = some b ∨ s.store.bufferOf .right (k - 2) = some b →
          t.store.buffers[b] =
            { s.store.buffers[b] with
              full := false
              writing := if s.store.buffers[b].full then false else s.store.buffers[b].writing }) ∧
        (s.store.bufferOf .left (k - 2) ≠ some b → s.store.bufferOf .right (k - 2) ≠ some b →
          t.store.buffers[b] = s.store.buffers[b])) ∧
      Stated.openingsFollow s opened t ∧
      (opened .left ≠ opened .right → Stated.creditFollows s t) ∧
      (geometryOk s → bandsOk s →
        t.scan.overtaken =
          BitVec.ofNat 16 (min (s.scan.overtaken.toNat + overtaken .left + overtaken .right) 65535)) ∧
      (∀ e, (t.scan.eyes.get e).staleBehind = (s.scan.eyes.get e).staleCurrent) ∧
      t.store.mem = s.store.mem ∧ t.scan.current = some k ∧ t.scan.scanning = true ∧
      t.motion = s.motion ∧ t.dials = s.dials ∧ t.power = s.power ∧ t.spine = s.spine ∧ t.intake = s.intake

/-- R133. At the first line of slice 1 the scan leaves slice 0, which has none behind it: no buffer opens, and the mark
behind is taken over. -/
def Stated.LeavingSliceZeroOpensNothing : Prop :=
  ∀ (s : State), Stated.lineDue s s.store.geometry.S →
    ∃ t, exec .scanLine s = .next t ∧ t.store.buffers = s.store.buffers ∧ t.laneRx = s.laneRx ∧ t.slots = s.slots ∧
      t.scan.overtaken = s.scan.overtaken ∧ t.scan.current = some 1 ∧
      ∀ e, (t.scan.eyes.get e).staleBehind = (s.scan.eyes.get e).staleCurrent

/-- R131, R133. When the line clock reaches H × LP with the last line formed, the scan ends: the buffers of slices N − 2
and N − 1 of both eyes are OPEN, those that were FULL behind a stale mark counting as overtaken; both eyes are IDLE with
no current slice, shift record or mark. -/
def Stated.ScanEndOpensTheLastTwoSlices : Prop :=
  ∀ (s : State), s.scan.scanning = true → s.store.geometry.H ≤ s.scan.nextLine →
    s.store.geometry.H * s.scan.settings.lp ≤ s.scan.lineClock →
    let n := s.store.geometry.slices
    let overtaken := fun e =>
      (if (s.scan.eyes.get e).staleBehind && Stated.fullAt s e (n - 2) then 1 else 0) +
        (if (s.scan.eyes.get e).staleCurrent && Stated.fullAt s e (n - 1) then 1 else 0)
    ∃ t, exec .scanEnd s = .next t ∧ t.scan.scanning = false ∧ t.scan.current = none ∧
      (∀ e : Eye, t.scan.eyes.get e = { shift := none, staleCurrent := false, staleBehind := false }) ∧
      (∀ (e : Eye) (b : Fin 256), s.store.bufferOf e (n - 2) = some b ∨ s.store.bufferOf e (n - 1) = some b →
        t.store.buffers[b].full = false) ∧
      Stated.openingsFollow s (fun e => Stated.fullAt s e (n - 2) || Stated.fullAt s e (n - 1)) t ∧
      (geometryOk s → bandsOk s →
        t.scan.overtaken =
          BitVec.ofNat 16 (min (s.scan.overtaken.toNat + overtaken .left + overtaken .right) 65535)) ∧
      t.scan.tickTime = s.scan.tickTime ∧ t.scan.lineClock = s.scan.lineClock ∧
      t.scan.frameNumber = s.scan.frameNumber ∧ t.pins = s.pins ∧ t.store.mem = s.store.mem ∧
      t.motion = s.motion ∧ t.power = s.power

/-- With no scan in progress, a line still to be formed, or the line clock short of H × LP, the scan does not end, and
nothing changes. That the row can be handed over then is the model's choice (log 2). -/
def Stated.ScanEndWaitsForItsTime : Prop :=
  ∀ (s : State),
    s.scan.scanning = false ∨ s.scan.nextLine < s.store.geometry.H ∨
      s.scan.lineClock < s.store.geometry.H * s.scan.settings.lp →
    exec .scanEnd s = .next s

/-- R110, R111, R121, R131, R133. What the scan opens. The model's choices in it: log 2: SCAN_END before its time does
nothing; log 21: the order at the end; log 30: the slice of a position is the position mod 65536 mod N. -/
def Obligations.ScanOpensTheSlicesBehindIt : Prop :=
  Stated.LeavingASliceOpensTheOneBehind ∧
    Stated.LeavingSliceZeroOpensNothing ∧
    Stated.ScanEndOpensTheLastTwoSlices ∧
    Stated.ScanEndWaitsForItsTime

/-! ### Audio (R145 to R159) -/

/-- R147. A playback block received by a HEADSET whose intake hands playback AUDIO to its unit and whose standing stays.
-/
def Stated.playback (s : State) (m : Received) (origin : Node) : Prop :=
  Stated.receiving s ∧ s.straps.role = .headset ∧ m.check = spineCheck m.rank m.body ∧
    m.rank = BitVec.ofNat 12 (4 * 256 + origin.val) ∧ origin ≠ s.straps.node ∧ m.body.length = 37 ∧
    Stated.toUnit s m.rank ∧
    standingOf s.spine.sfc (Stated.afterReceipt s.spine.tfc) s.spine.strain = s.spine.standing

/-- The frames of a playback body: 8 of them, left then right, from byte 5 on (12_formats.md). -/
def Stated.frames (body : List Byte) : List StereoFrame :=
  (List.range 8).map fun k =>
    { left := BitVec.ofNat 16 (fieldAt body (5 + 4 * k) 2), right := BitVec.ofNat 16 (fieldAt body (7 + 4 * k) 2) }

/-- A play stamp as a body carries it, rebuilt against agreed time (R62, R147). -/
def Stated.rebuilt (s : State) (m : Received) (stamp : Int) : Prop :=
  stamp % 2 ^ 32 = fieldAt m.body 1 4 ∧ (s.agreedUs : Int) - 2 ^ 31 ≤ stamp ∧ stamp < (s.agreedUs : Int) + 2 ^ 31

/-- The stream after a run is started with a block (R148). -/
def Stated.run (a : Audio) (state : StreamState) (seq : Byte) (stamp : Int) (frames : List StereoFrame) : Audio :=
  { a with
    state := state
    ring := frames
    blocks := [{ kind := .block seq stamp, remaining := 8, started := false }]
    lastSeq := some seq
    lastFrame := frames.getLastD { left := 0, right := 0 } }

/-- R147, R148. A block taken in IDLE: more than 100,000 µs early or past the play time of its frame 7 it is discarded
and counted, and claims nothing; else it claims the stream and starts a run, PLAYING at once if its stamp is reached. -/
def Stated.BlockInIdleStartsARunOrIsDiscarded : Prop :=
  ∀ (s : State) (m : Received) (origin : Node) (stamp : Int), Stated.playback s m origin → Stated.rebuilt s m stamp →
    s.audio.state = .idle →
    let a := { s.audio with taken := bump s.audio.taken }
    let early := (s.agreedUs : Int) + 100000 < stamp
    let late := 48 * stamp + 7000 < 3 * (s.agreed : Int)
    ∃ t, exec (.messageTaken m) s = .next t ∧
      (early → t.audio = { a with early := bump a.early }) ∧
      (¬ early → late → t.audio = { a with late := bump a.late }) ∧
      (¬ early → ¬ late →
        t.audio =
          Stated.run { a with origin := some origin, silence := some 0 }
            (if 16 * stamp ≤ (s.agreed : Int) then .playing else .priming) (byteAt m.body 0) stamp
            (Stated.frames m.body)) ∧
      t = { s with spine := t.spine, intake := t.intake, audio := t.audio }

/-- The stream after a run is started in it with a block, by a resync or from UNDERRUN (R148): a block that is early or
late is counted and leaves UNDERRUN; another starts PRIMING, or PLAYING at once if its stamp is reached. -/
def Stated.rerun (a : Audio) (agreed : Nat) (seq : Byte) (stamp : Int) (frames : List StereoFrame) : Audio :=
  if ((agreed / 16 : Nat) : Int) + 100000 < stamp then { a with state := .underrun, early := bump a.early }
  else if 48 * stamp + 7000 < 3 * (agreed : Int) then { a with state := .underrun, late := bump a.late }
  else Stated.run a (if 16 * stamp ≤ (agreed : Int) then .playing else .priming) seq stamp frames

/-- R147 to R150. A block of the stream's origin in PRIMING, if it is not late, in PLAYING and in DRAINING, by its
distance d from the last sequence: 1 is appended; 2 to 5 with room fill the gap with copies of the last frame first;
without room it overflows and latches AUDIO; 0 and 129 to 255 are old; all of these return DRAINING to PLAYING; 6 to 128
flush the ring and start a run with the block. A late block in PRIMING is counted. A block of another origin is foreign.
Each of the stream's blocks restarts the silence timer. -/
def Stated.SequenceRulePlacesBlocks : Prop :=
  ∀ (s : State) (m : Received) (origin : Node) (stamp : Int) (last : Byte), Stated.playback s m origin →
    Stated.rebuilt s m stamp → s.audio.state = .priming ∨ s.audio.state = .playing ∨ s.audio.state = .draining →
    s.audio.lastSeq = some last →
    let a : Audio := { s.audio with taken := bump s.audio.taken, silence := some 0 }
    let resumed : Audio := { a with state := if a.state = .draining then .playing else a.state }
    let late := s.audio.state = .priming ∧ 48 * stamp + 7000 < 3 * (s.agreed : Int)
    let placed := s.audio.origin = some origin ∧ ¬ late
    let d := (byteAt m.body 0 - last).toNat
    let frames := Stated.frames m.body
    let fill := if d = 1 then 0 else (d - 1) * 8
    let room := a.ring.length + fill + 8 ≤ 1024 ∧ a.blocks.length + (if d = 1 then 1 else 2) ≤ 128
    ∃ t, exec (.messageTaken m) s = .next t ∧
      (s.audio.origin ≠ some origin →
        t.audio = { s.audio with taken := bump s.audio.taken, foreign := bump s.audio.foreign }) ∧
      (s.audio.origin = some origin → late → t.audio = { a with late := bump a.late }) ∧
      (placed → 1 ≤ d → d ≤ 5 → room →
        t.audio =
          { resumed with
            ring := a.ring ++ List.replicate fill a.lastFrame ++ frames
            blocks := a.blocks ++ (if d = 1 then [] else [{ kind := .fill, remaining := fill, started := false }]) ++
              [{ kind := .block (byteAt m.body 0) stamp, remaining := 8, started := false }]
            gaps := if d = 1 then a.gaps else bump a.gaps
            lastSeq := some (byteAt m.body 0)
            lastFrame := frames.getLastD { left := 0, right := 0 } }) ∧
      (placed → 1 ≤ d → d ≤ 5 → ¬ room →
        t.audio = { resumed with overflows := bump a.overflows } ∧ t.alarms.latched.getLsbD 8 = true) ∧
      (placed → d = 0 ∨ 129 ≤ d → t.audio = { resumed with old := bump a.old }) ∧
      (placed → 6 ≤ d → d ≤ 128 →
        t.audio =
          Stated.rerun { a with ring := [], blocks := [], resyncs := bump a.resyncs } s.agreed (byteAt m.body 0) stamp
            frames) ∧
      t.pins = s.pins ∧ t.power = s.power ∧ t.motion = s.motion ∧ t.store = s.store ∧ t.scan = s.scan ∧
      t.time = s.time ∧ t.port = s.port ∧ t.cmd = s.cmd

/-- R147, R148, R151. A block of the stream's origin in UNDERRUN: at distance 0 or 129 to 255 it is old; at any other it
starts a run, and no gap is filled; one that is early or late is counted and leaves UNDERRUN. -/
def Stated.BlockInUnderrunStartsARunOrIsOld : Prop :=
  ∀ (s : State) (m : Received) (origin : Node) (stamp : Int) (last : Byte), Stated.playback s m origin →
    Stated.rebuilt s m stamp → s.audio.state = .underrun → s.audio.origin = some origin →
    s.audio.lastSeq = some last →
    let a : Audio := { s.audio with taken := bump s.audio.taken, silence := some 0 }
    let d := (byteAt m.body 0 - last).toNat
    ∃ t, exec (.messageTaken m) s = .next t ∧
      t.audio =
        (if d = 0 ∨ 129 ≤ d then { a with old := bump a.old }
          else Stated.rerun a s.agreed (byteAt m.body 0) stamp (Stated.frames m.body)) ∧
      t = { s with spine := t.spine, intake := t.intake, audio := t.audio }

/-- R147 to R151. Where a playback block goes. The model's choices in it: log 33: a stamp is the whole number that is
rebuilt. -/
def Obligations.PlaybackBlocksArePlaced : Prop :=
  Stated.BlockInIdleStartsARunOrIsDiscarded ∧ Stated.SequenceRulePlacesBlocks ∧ Stated.BlockInUnderrunStartsARunOrIsOld

/-- The stream in IDLE: no ring, no records, no origin, no last sequence, a zero last frame, no silence timer (R146). -/
def Stated.idle (a : Audio) : Audio :=
  { a with
    state := .idle
    origin := none
    lastSeq := none
    lastFrame := { left := 0, right := 0 }
    ring := []
    blocks := []
    silence := none }

/-- R149, R154. PRIMING becomes PLAYING when agreed time reaches the first block's stamp, DRAINING at once if the
silence timer has expired. An expired timer turns PLAYING into DRAINING and UNDERRUN into IDLE, and leaves PRIMING and
DRAINING. -/
def Stated.StampAndSilenceMoveTheStream : Prop :=
  (∀ (s : State) (r : BlockRecord) (rest : List BlockRecord) (seq : Byte) (stamp : Int), s.audio.state = .priming →
    s.audio.blocks = r :: rest → r.kind = .block seq stamp →
    exec .playStampReached s = .next
      (if 16 * stamp ≤ (s.agreed : Int) then
        { s with audio := { s.audio with state := if s.audio.silence = some 2400 then .draining else .playing } }
      else s)) ∧
  ∀ s : State,
    (s.audio.silence = some 2400 → s.audio.state = .playing →
      exec .silenceTimerExpiry s = .next { s with audio := { s.audio with state := .draining } }) ∧
    (s.audio.silence = some 2400 → s.audio.state = .underrun →
      exec .silenceTimerExpiry s = .next { s with audio := Stated.idle s.audio }) ∧
    (s.audio.state = .priming ∨ s.audio.state = .draining ∨ s.audio.silence ≠ some 2400 →
      exec .silenceTimerExpiry s = .next s)

/-- A sample scaled by the output gain (R155). -/
def Stated.scaled (g : Nat) (v : BitVec 16) : BitVec 16 :=
  BitVec.ofInt 16 (Stated.within (-32768) 32767 ((v.toInt * g + 128) / 256))

/-- The output gain: the gain value, at most 0, 128, 256 and 256 at steps 0 to 3 (R155). -/
def Stated.gain (s : State) : Nat :=
  min s.audio.gain (match s.power.step with | 0 => 0 | 1 => 128 | 2 => 256 | 3 => 256)

/-- The stream once its silence timer, at `n`, has counted one more codec frame (R154): it stops at 2,400, and from there
on PLAYING is DRAINING and UNDERRUN is IDLE, while PRIMING and DRAINING stay. -/
def Stated.silenceCounted (n : Nat) (a : Audio) : Audio :=
  let b := { a with silence := some (min (n + 1) 2400) }
  if n + 1 < 2400 then b
  else
    match a.state with
    | .playing => { b with state := .draining }
    | .underrun => Stated.idle b
    | .idle => b
    | .priming => b
    | .draining => b

/-- R152 to R155. A codec frame in IDLE, PRIMING and UNDERRUN is silent and takes nothing from the ring. In PLAYING and
DRAINING the next frame of the ring goes out scaled: at a block's first frame one too late loses frame 0, one too early
plays it twice, each counted as a slip. An empty ring gives silence: PLAYING falls to UNDERRUN with AUDIO latched,
DRAINING ends in IDLE. The silence timer, which may expire by this very frame or stand at its limit, is then counted.
Here with capture off. -/
def Stated.CodecFrameGivesTheNextFrame : Prop :=
  ∀ (s : State) (mic : BitVec 16) (n : Nat), s.straps.role = .headset → s.audio.capture.switch = false →
    (s.audio.state = .idle → s.audio.silence = none) → (s.audio.state ≠ .idle → s.audio.silence = some n) →
    let out := fun f : StereoFrame =>
      { s.pins with
        codecOut := { left := Stated.scaled (Stated.gain s) f.left, right := Stated.scaled (Stated.gain s) f.right } }
    let silent := { s.pins with codecOut := { left := 0, right := 0 } }
    (s.audio.state = .idle → exec (.codecFrame mic) s = .next { s with pins := silent }) ∧
    (s.audio.state = .priming ∨ s.audio.state = .underrun →
      exec (.codecFrame mic) s = .next { s with pins := silent, audio := Stated.silenceCounted n s.audio }) ∧
    (s.audio.state = .playing → s.audio.ring = [] →
      ∃ t, exec (.codecFrame mic) s = .next t ∧ t.pins = silent ∧
        t.audio =
          Stated.silenceCounted n { s.audio with state := .underrun, underruns := bump s.audio.underruns } ∧
        t.alarms.latched.getLsbD 8 = true ∧
        t = { s with pins := t.pins, audio := t.audio, alarms := t.alarms, slots := t.slots }) ∧
    (s.audio.state = .draining → s.audio.ring = [] →
      exec (.codecFrame mic) s = .next { s with pins := silent, audio := Stated.idle s.audio }) ∧
    (∀ f0 f1 ring r rest, s.audio.state = .playing ∨ s.audio.state = .draining → s.audio.ring = f0 :: f1 :: ring →
      s.audio.blocks = r :: rest →
      (∀ seq stamp, r.kind = .block seq stamp → r.started = false → 3 ≤ r.remaining →
        let error := (s.agreedUs : Int) - stamp
        exec (.codecFrame mic) s = .next
          (if (s.audio.slipLimit : Int) < error then
            { s with
              pins := out f1
              audio := Stated.silenceCounted n
                { s.audio with
                  ring := ring
                  blocks := { r with started := true, remaining := r.remaining - 2 } :: rest
                  slips := bump s.audio.slips } }
          else if error < -(s.audio.slipLimit : Int) then
            { s with
              pins := out f0
              audio := Stated.silenceCounted n
                { s.audio with
                  blocks := { r with started := true } :: rest
                  slips := bump s.audio.slips } }
          else
            { s with
              pins := out f0
              audio := Stated.silenceCounted n
                { s.audio with
                  ring := f1 :: ring
                  blocks := { r with started := true, remaining := r.remaining - 1 } :: rest } }))) ∧
    ∀ f0 ring r rest, s.audio.state = .playing ∨ s.audio.state = .draining → s.audio.ring = f0 :: ring →
      s.audio.blocks = r :: rest → r.kind = .fill ∨ r.started = true →
      exec (.codecFrame mic) s = .next
        { s with
          pins := out f0
          audio := Stated.silenceCounted n
            { s.audio with
              ring := ring
              blocks := if r.remaining ≤ 1 then rest
                else { r with started := true, remaining := r.remaining - 1 } :: rest } }

/-- R149, R152 to R155. How the stream plays and ends. The model's choices in it: log 9: the frame comes before the
silence count, and an expiry acts within the command that counts it. -/
def Obligations.StreamPlaysFrameByFrame : Prop :=
  Stated.StampAndSilenceMoveTheStream ∧ Stated.CodecFrameGivesTheNextFrame

/-- R145, R157. While capture runs, each sample joins the FILLING buffer, A or B, whose first sets its stamp. The
sixteenth forms a block with the capture sequence, which rises, loads the AUDIO slot, and passes the filling to the other
buffer. A load into a PENDING slot, or into a SENDING one with a held record, loses a block: it counts an overrun and
latches AUDIO. Here with the stream in IDLE. The model's choices in it: log 28: the stamp of a capture buffer without
samples. -/
def Obligations.CaptureFormsABlockOfSixteen : Prop :=
  ∀ (s : State) (mic : BitVec 16) (inA : Bool), s.straps.role = .headset → s.audio.capture.switch = true →
    s.loader.life = .running → s.spine.standing ≠ .cut → s.audio.state = .idle →
    (inA = true → s.audio.capture.a.state = .filling) →
    (inA = false → s.audio.capture.a.state ≠ .filling ∧ s.audio.capture.b.state = .filling) →
    let c := s.audio.capture
    let filling := if inA then c.a else c.b
    let stamp := if filling.samples = [] then s.agreedUs else filling.stamp
    let samples := filling.samples ++ [mic]
    let joined : CaptureBuffer := { state := .filling, stamp := stamp, samples := samples }
    let free : CaptureBuffer := { state := .free, stamp := 0, samples := [] }
    let fresh : CaptureBuffer := { state := .filling, stamp := 0, samples := [] }
    let pins := { s.pins with codecOut := { left := 0, right := 0 } }
    let formed : Audio :=
      { s.audio with
        capture :=
          { c with
            a := if inA then free else fresh
            b := if inA then fresh else free
            sequence := c.sequence + 1
            blocks := bump c.blocks } }
    let slot := s.slots.audio.load
      { rank := BitVec.ofNat 12 (4 * 256 + 8 + s.straps.node.val)
        body := [c.sequence] ++ beBytes 4 (stamp % 2 ^ 32) ++ samples.flatMap fun v => beBytes 2 v.toNat
        singleShot := false
        loop := false }
    let loses := s.slots.audio.state = .pending ∨ s.slots.audio.state = .sending ∧ s.slots.audio.held.isSome = true
    (samples.length < 16 →
      exec (.codecFrame mic) s = .next
        { s with
          pins := pins
          audio := { s.audio with capture := if inA then { c with a := joined } else { c with b := joined } } }) ∧
    (samples.length = 16 → ¬ loses →
      exec (.codecFrame mic) s = .next
        { s with pins := pins, audio := formed, slots := { s.slots with audio := slot } }) ∧
    (samples.length = 16 → loses →
      ∃ t, exec (.codecFrame mic) s = .next t ∧
        t.audio = { formed with captureOverruns := bump s.audio.captureOverruns } ∧
        t.alarms.latched.getLsbD 8 = true ∧ t.slots.audio = slot ∧
        t = { s with
          pins := pins
          audio := t.audio
          alarms := t.alarms
          slots := { s.slots with audio := slot, alarm := t.slots.alarm } })

/-- R156, R158. On a HEADSET in RUNNING and outside CUT, SET GAIN sets the gain value, at most 256, and gives it with
the output gain; CAPTURE sets the switch: on starts capture with buffer A FILLING, off frees both buffers; no change
changes nothing. The model's choices in it: log 28: the stamp of a capture buffer without samples. -/
def Obligations.AudioCommandsOnHeadset : Prop :=
  ∀ (s : State) (c : Command) (rest : List Command), Stated.repliesBySpine s c rest → s.straps.role = .headset →
    (∀ gain : BitVec 16, c.code = 9 → c.args = beBytes 2 gain.toNat →
      let set := min gain.toNat 256
      let after : State := { s with audio := { s.audio with gain := set } }
      exec .setGain s = .next
        (Stated.spineReplied after c rest (if 256 < gain.toNat then 4 else 0)
          (beBytes 2 set ++ beBytes 2 (Stated.gain after)))) ∧
    (∀ arg : Byte, c.code = 8 → c.args = [arg] →
      let k := s.audio.capture
      let on := decide (arg ≠ 0)
      let k' : Capture :=
        if on = k.switch then k
        else if on then
          { k with
            switch := true
            a := { state := .filling, stamp := 0, samples := [] }
            b := { state := .free, stamp := 0, samples := [] } }
        else
          { k with
            switch := false
            a := { state := .free, stamp := 0, samples := [] }
            b := { state := .free, stamp := 0, samples := [] } }
      exec .capture s = .next
        (Stated.spineReplied { s with audio := { s.audio with capture := k' } } c rest (if 1 < arg.toNat then 4 else 0)
          ([if k.switch then 1 else 0, if on then 1 else 0, k.sequence] ++ beBytes 2 k.blocks.toNat)))

/-! ### Power (R161 to R173) -/

/-- The sum of a figure over the entries with a flag (R168). -/
def Stated.total (es : List PowerEntry) (flag : PowerEntry → Bool) (figure : PowerEntry → Nat) : Nat :=
  ((es.filter flag).map figure).sum

/-- The grant of the own entry from the fresh entries, one of them a supplier's (R168). -/
def Stated.share (es : List PowerEntry) (own : PowerEntry) (reserve : Nat) : Nat :=
  let pool := Stated.total es (·.supplier) (·.available) - reserve
  let f := Stated.total es (·.consumer) (·.floor)
  let d := Stated.total es (·.consumer) (·.desire)
  if own.consumer = false then 0
  else if d ≤ pool then own.desire
  else if f ≤ pool then own.floor + (own.desire - own.floor) * (pool - f) / (d - f)
  else own.floor * pool / f

/-- The step target: the highest step whose draw is at or below the grant, else 0 (R170). -/
def Stated.target (ps : PowerSettings) (grant : Nat) : Fin 4 :=
  if ps.draw[3] ≤ grant then 3 else if ps.draw[2] ≤ grant then 2 else if ps.draw[1] ≤ grant then 1 else 0

/-- What a recomputation of the grant from the fresh entries `es` leaves (R168 to R170): with a supplier among them the
share of the pool, without one holdover with the grant kept if a supplier was known, else draw[0]; and the step lowered
to the target at once. -/
def Stated.regranted (s : State) (es : List PowerEntry) (own : PowerEntry) (t : State) : Prop :=
  let p := s.power
  (es.any (·.supplier) = true →
    t.power.grant = Stated.share es own p.settings.reserve ∧ t.power.holdover = none ∧ t.power.supplied = true) ∧
  (es.any (·.supplier) = false → p.supplied = true →
    t.power.grant = p.grant ∧ t.power.supplied = true ∧ t.power.holdover = some (p.holdover.getD 0) ∧
      t.power.holdoversBegun = (if p.holdover.isSome then p.holdoversBegun else bump p.holdoversBegun)) ∧
  (es.any (·.supplier) = false → p.supplied = false → t.power.grant = p.settings.draw[0] ∧ t.power.supplied = false) ∧
  t.power.step = (if Stated.target p.settings t.power.grant < p.step then Stated.target p.settings t.power.grant
    else p.step) ∧
  t.power.rise = (if Stated.target p.settings t.power.grant < p.step then 0 else p.rise) ∧
  t.power.stepFalls = (if Stated.target p.settings t.power.grant < p.step then bump p.stepFalls else p.stepFalls)

/-- The POWER content formed at a moment (R173). -/
def Stated.powerContent (s : State) : Content :=
  { rank := BitVec.ofNat 12 (5 * 256 + s.straps.node.val)
    body := [Stated.flags s.straps.supplyPresent (decide (0 < s.power.settings.draw[3])) s.power.holdover.isSome false] ++
      beBytes 2 (if s.straps.supplyPresent then s.power.ownAvailable else 0) ++
      beBytes 2 s.power.settings.draw[1] ++ beBytes 2 s.power.settings.draw[3] ++ beBytes 2 s.power.grant ++
      [BitVec.ofNat 8 s.power.step.val] ++ beBytes 2 s.power.load ++
      beBytes 1 (if s.straps.role = .supply then s.power.battery.getD 255 else 255)
    singleShot := false
    loop := false }

/-- R103, R174. What the step that `t` has makes of the lane of `s`: on a CONSOLE with a partner on its lane, the step
that reaches 0 takes the lane DOWN, which cuts a packet short and is counted; while RUNNING the LANE condition is present
after a change of the step exactly if the lane is DOWN. Nothing else of the lane sender changes. -/
def Stated.laneFollowsStep (s t : State) : Prop :=
  let falls := s.straps.role = .console ∧ s.pins.laneSignal = true ∧ s.power.step ≠ 0 ∧ t.power.step = 0
  (falls → t.laneTx = { s.laneTx with packet := none, laneDowns := bump s.laneTx.laneDowns }) ∧
  (¬ falls → t.laneTx = s.laneTx) ∧
  (s.straps.role = .console → t.power.step ≠ s.power.step →
    (t.alarms.present.getLsbD 11 = true ↔
      s.loader.life = .running ∧ (t.power.step = 0 ∨ s.pins.laneSignal = false)))

/-- R103, R163, R164, R168, R169, R170, R173, R174. A POWER message sets its origin's entry and an entry that reaches 3
power periods expires; either way the grant is recomputed from the entries then fresh, the step falls at once to its
target and acts on a CONSOLE's lane, and only a change of the step loads the POWER slot, in RUNNING and outside CUT. The
model's choices in it: log 10: when the lane is UP; log 16: the expiry mark; log 46: unused bits of the POWER flags; log
49: a pool that covers every desire but not every floor; log 50: the own entry says whether the station is a consumer;
log 31: reserved bits of a received one's flags. -/
def Obligations.PowerViewChangesRegrant : Prop :=
  (∀ (s : State) (m : Received) (o : Node) (own : PowerEntry), Stated.receiving s →
    m.check = spineCheck m.rank m.body → m.rank = BitVec.ofNat 12 (5 * 256 + o.val) → o ≠ s.straps.node →
    m.body.length = 13 → (byteAt m.body 9).toNat ≤ 3 → (byteAt m.body 12).toNat ≤ 100 ∨ byteAt m.body 12 = 255 →
    Stated.toUnit s m.rank →
    standingOf s.spine.sfc (Stated.afterReceipt s.spine.tfc) s.spine.strain = s.spine.standing →
    s.power.view[s.straps.node] = some own → own.floor ≤ own.desire →
    let entry : PowerEntry :=
      { supplier := (byteAt m.body 0).getLsbD 0
        consumer := (byteAt m.body 0).getLsbD 1
        available := fieldAt m.body 1 2
        floor := fieldAt m.body 3 2
        desire := fieldAt m.body 5 2
        grant := fieldAt m.body 7 2
        lastHeard := s.time.localCount
        expired := false }
    ∃ t, exec (.messageTaken m) s = .next t ∧ t.power.view = s.power.view.set o (some entry) ∧
      t.power.taken = bump s.power.taken ∧
      Stated.regranted s (Stated.freshEntries s (s.power.view.set o (some entry))) own t ∧
      Stated.laneFollowsStep s t ∧
      (t.power.step = s.power.step → t.slots = s.slots ∧ t.alarms = s.alarms) ∧
      (t.power.step ≠ s.power.step → s.loader.life = .running → s.spine.standing ≠ .cut →
        t.slots.power = s.slots.power.load (Stated.powerContent t)) ∧
      t = { s with
        spine := t.spine
        intake := t.intake
        power := t.power
        slots := t.slots
        alarms := t.alarms
        laneTx := t.laneTx }) ∧
  ∀ (s : State) (o : Node) (e own : PowerEntry), o ≠ s.straps.node →
    s.power.view[o] = some e → e.expired = false →
    16 * e.lastHeard + 3 * s.powerPeriod ≤ 16 * s.time.localCount →
    s.power.view[s.straps.node] = some own → own.floor ≤ own.desire →
    ∃ t, exec (.powerEntryExpiry o) s = .next t ∧
      t.power.view = s.power.view.set o (some { e with expired := true }) ∧
      t.power.expired = bump s.power.expired ∧ Stated.regranted s (Stated.freshEntries s s.power.view) own t ∧
      Stated.laneFollowsStep s t ∧
      (t.power.step = s.power.step → t.slots = s.slots ∧ t.alarms = s.alarms) ∧
      (t.power.step ≠ s.power.step → s.loader.life = .running → s.spine.standing ≠ .cut →
        t.slots.power = s.slots.power.load (Stated.powerContent t)) ∧
      t = { s with power := t.power, slots := t.slots, alarms := t.alarms, laneTx := t.laneTx }

/-- The own entry from the own figures (R161, R163). -/
def Stated.ownEntry (s : State) (available : Nat) : PowerEntry where
  supplier := s.straps.supplyPresent
  consumer := decide (0 < s.power.settings.draw[3])
  available := if s.straps.supplyPresent then available else 0
  floor := s.power.settings.draw[1]
  desire := s.power.settings.draw[3]
  grant := s.power.grant
  lastHeard := s.time.localCount
  expired := false

/-- An answer of the meter port that is a value, or none (R165). -/
def Stated.value {α : Type} : MeterAnswer α → Option α
  | .awaited => none
  | .notReady => none
  | .value v => some v

/-- R165. `i` completes the reading in flight with these answers, of which one that is no value is failed. Within 2,000 µs
every device asked has answered, now or before; from then on it completes with the answers that had come by then, held or
handed over with the limit. An answer that comes late completes it too and is not taken, which is the model's choice
(log 26). -/
def Stated.completes (s : State) (i : Instr) (load : MeterAnswer (BitVec 16)) (battery : MeterAnswer Byte) : Prop :=
  ∃ (r : MeterReading) (l : MeterAnswer (BitVec 16)) (b : MeterAnswer Byte), s.power.reading = some r ∧
    (s.time.localCount < r.since + 2000 ∧ i = .meterReadingComplete l b ∧
        load = (if r.load = .awaited then l else r.load) ∧ load ≠ .awaited ∧
        battery = (if r.battery = .awaited then b else r.battery) ∧
        (s.straps.role = .supply → battery ≠ .awaited) ∨
      r.since + 2000 ≤ s.time.localCount ∧
        (i = .meterReadingTimeout l b ∧ load = (if r.load = .awaited then l else r.load) ∧
            battery = (if r.battery = .awaited then b else r.battery) ∨
          i = .meterReadingComplete l b ∧ load = r.load ∧ battery = r.battery))

/-- R165. Before its limit a reading that still waits for a device holds the answers that come and does nothing else; an
answer without a reading in flight, and a limit that has not run out, do nothing (log 2). -/
def Stated.ReadingHoldsItsAnswers : Prop :=
  (∀ (s : State) (r : MeterReading) (l : MeterAnswer (BitVec 16)) (b : MeterAnswer Byte), s.power.reading = some r →
    s.time.localCount < r.since + 2000 →
    let load := if r.load = .awaited then l else r.load
    let battery := if r.battery = .awaited then b else r.battery
    (load = .awaited ∨ s.straps.role = .supply ∧ battery = .awaited →
      exec (.meterReadingComplete l b) s = .next
        { s with power := { s.power with reading := some { r with load := load, battery := battery } } }) ∧
    exec (.meterReadingTimeout l b) s = .next s) ∧
  ∀ (s : State) (l : MeterAnswer (BitVec 16)) (b : MeterAnswer Byte), s.power.reading = none →
    exec (.meterReadingComplete l b) s = .next s ∧ exec (.meterReadingTimeout l b) s = .next s

/-- The battery level after a reading: on a SUPPLY the one that came back, at most 100 (R165). -/
def Stated.level (s : State) (battery : MeterAnswer Byte) : Option Nat :=
  if s.straps.role = .supply then
    match Stated.value battery with
    | some b => some (min b.toNat 100)
    | none => s.power.battery
  else s.power.battery

/-- What the station offers at a reading: the profile's figure on CONSOLE and HEADSET, by the battery marks on SUPPLY,
nothing where it is no supplier (R161, R167). -/
def Stated.offers (s : State) (battery : MeterAnswer Byte) : Nat :=
  let ps := s.power.settings
  if s.straps.supplyPresent = false then 0
  else if s.straps.role = .supply then
    match Stated.level s battery with
    | none => 0
    | some b => if ps.low < b then ps.availableFull else if ps.empty < b then ps.availableLow else 0
  else ps.available

/-- The fresh entries at step 4 of a reading, the own entry set anew (R163, R166). -/
def Stated.readingEntries (s : State) (battery : MeterAnswer Byte) : List PowerEntry :=
  Stated.freshEntries s (s.power.view.set s.straps.node (some (Stated.ownEntry s (Stated.offers s battery))))

/-- R165, R166, R168, R170 to R174. A reading that completes where a supplier is fresh, in any role: the own entry is set
anew and the grant recomputed, which ends holdover. A load that came back is tested against grant + Rd, which takes the
step to 0 and latches OVERDRAW, then against grant + Y, whose second event in a row lowers the step by one; a failed load
is not tested and counts. The step falls to its target at once and rises by one at the third reading in a row below it;
it is 0 while OVERDRAW is latched. The lane of a CONSOLE follows it, and the POWER slot is loaded once. -/
def Stated.ReadingTestsTheLoadAndSettlesTheStep : Prop :=
  ∀ (s : State) (i : Instr) (load : MeterAnswer (BitVec 16)) (battery : MeterAnswer Byte),
    Stated.completes s i load battery → drawsOk s.power.settings →
    let own := Stated.ownEntry s (Stated.offers s battery)
    let es := Stated.readingEntries s battery
    es.any (·.supplier) = true →
    let p := s.power
    let came := Stated.value load
    let g := Stated.share es own p.settings.reserve
    let target := Stated.target p.settings g
    let step := if target < p.step then target else p.step
    let rise := if target < p.step then 0 else p.rise
    let red := ∃ l, came = some l ∧ g + p.settings.red < l.toNat
    let yellow := ∃ l, came = some l ∧ g + p.settings.yellow < l.toNat
    let failed := (if came.isNone then 1 else 0) +
      (if s.straps.role = .supply ∧ (Stated.value battery).isNone then 1 else 0)
    ∃ t, exec i s = .next t ∧ t.power.grant = g ∧ t.power.holdover = none ∧ t.power.supplied = true ∧
      t.power.load = (match came with | none => p.load | some l => l.toNat) ∧ t.power.reading = none ∧
      t.power.battery = Stated.level s battery ∧ t.power.ownAvailable = Stated.offers s battery ∧
      t.power.meterFailures = BitVec.ofNat 16 (min (p.meterFailures.toNat + failed) 65535) ∧
      (red → t.power.step = 0 ∧ t.power.rise = 0 ∧ t.power.yellow = 0 ∧ t.power.redEvents = bump p.redEvents ∧
        t.power.yellowEvents = p.yellowEvents ∧ t.isLatched .overdraw = true) ∧
      (¬ red → t.power.redEvents = p.redEvents ∧ t.isLatched .overdraw = s.isLatched .overdraw) ∧
      (¬ red → ¬ yellow → t.power.yellow = (if came.isSome then 0 else p.yellow) ∧
        t.power.yellowEvents = p.yellowEvents) ∧
      (¬ red → yellow → t.power.yellow = (if p.yellow = 0 then 1 else 0) ∧
        t.power.yellowEvents = bump p.yellowEvents) ∧
      (¬ red → s.isLatched .overdraw = true → t.power.step = 0 ∧ t.power.rise = 0) ∧
      (¬ red → s.isLatched .overdraw = false →
        (yellow → 1 ≤ p.yellow → step ≠ 0 → t.power.step = step - 1 ∧ t.power.rise = 0) ∧
        (¬ yellow ∨ p.yellow = 0 ∨ step = 0 →
          (target ≤ step → t.power.step = step ∧ t.power.rise = 0) ∧
          (step < target → rise < 2 → t.power.step = step ∧ t.power.rise = rise + 1) ∧
          (step < target → 2 ≤ rise → t.power.step = step + 1 ∧ t.power.rise = 0 ∧
            t.power.stepRises = bump p.stepRises))) ∧
      Stated.laneFollowsStep s t ∧
      (s.loader.life = .running → s.spine.standing ≠ .cut →
        t.slots.power = s.slots.power.load (Stated.powerContent t)) ∧
      t = { s with power := t.power, slots := t.slots, alarms := t.alarms, laneTx := t.laneTx }

/-- R166, R169. A reading that completes where no supplier is fresh. With a supplier known before, holdover turns on with
count 0 and the grant is kept; at each further reading its count rises by 1; at 5 holdover turns off, the supplied mark
is cleared and the grant is draw[0], where it stays. -/
def Stated.HoldoverCountsReadings : Prop :=
  ∀ (s : State) (i : Instr) (load : MeterAnswer (BitVec 16)) (battery : MeterAnswer Byte),
    Stated.completes s i load battery → (Stated.readingEntries s battery).any (·.supplier) = false →
    let p := s.power
    ∃ t, exec i s = .next t ∧
      (p.supplied = true → p.holdover = none →
        t.power.grant = p.grant ∧ t.power.supplied = true ∧ t.power.holdover = some 0 ∧
          t.power.holdoversBegun = bump p.holdoversBegun ∧ t.power.holdoversEnded = p.holdoversEnded) ∧
      (∀ n, p.supplied = true → p.holdover = some n → n < 4 →
        t.power.grant = p.grant ∧ t.power.supplied = true ∧ t.power.holdover = some (n + 1) ∧
          t.power.holdoversBegun = p.holdoversBegun ∧ t.power.holdoversEnded = p.holdoversEnded) ∧
      (∀ n, p.holdover = some n → 4 ≤ n →
        t.power.grant = p.settings.draw[0] ∧ t.power.supplied = false ∧ t.power.holdover = none ∧
          t.power.holdoversBegun = p.holdoversBegun ∧ t.power.holdoversEnded = bump p.holdoversEnded) ∧
      (p.supplied = false → p.holdover = none →
        t.power.grant = p.settings.draw[0] ∧ t.power.supplied = false ∧ t.power.holdover = none) ∧
      t = { s with power := t.power, slots := t.slots, alarms := t.alarms, laneTx := t.laneTx }

/-- R166, R167. On a SUPPLY a reading's battery level sets what it offers if it is a supplier, and, supplier or not,
hands on the BATTERY condition, present at or below the empty mark. A failed level keeps the one before and counts. -/
def Stated.BatteryMarksSetTheOffer : Prop :=
  ∀ (s : State) (i : Instr) (load : MeterAnswer (BitVec 16)) (battery : MeterAnswer Byte),
    Stated.completes s i load battery → s.straps.role = .supply →
    let p := s.power
    let level := Stated.level s battery
    ∃ t, exec i s = .next t ∧ t.power.battery = level ∧ t.power.ownAvailable = Stated.offers s battery ∧
      t.power.load = (match Stated.value load with | none => p.load | some l => l.toNat) ∧
      t.power.meterFailures = BitVec.ofNat 16
        (min
          (p.meterFailures.toNat + (if (Stated.value load).isNone then 1 else 0) +
            (if (Stated.value battery).isNone then 1 else 0)) 65535) ∧
      (level = none → t.alarms.present.getLsbD 10 = false) ∧
      (∀ b, level = some b → p.settings.empty ≤ p.settings.low →
        t.alarms.present.getLsbD 10 = decide (b ≤ p.settings.empty) ∧
        (b ≤ p.settings.empty → s.alarms.present.getLsbD 10 = false → t.alarms.latched.getLsbD 10 = true)) ∧
      t.power.view[s.straps.node] = some (Stated.ownEntry s (Stated.offers s battery)) ∧
      t = { s with power := t.power, slots := t.slots, alarms := t.alarms }

/-- R165 to R174. What a reading waits for and what it settles. The model's choices in it: log 2: answers without a
reading do nothing; log 10: when a CONSOLE's lane is UP; log 19: own available from the first reading on; log 26: an
answer that comes after the limit; log 46: unused bits of the POWER flags; log 49: a pool that covers every desire but
not every floor. -/
def Obligations.ReadingSettlesStepAndOffer : Prop :=
  Stated.ReadingHoldsItsAnswers ∧
    Stated.ReadingTestsTheLoadAndSettlesTheStep ∧
    Stated.HoldoverCountsReadings ∧
    Stated.BatteryMarksSetTheOffer

/-! ### The local port (R27, R97, R179 to R183) -/

/-- The local port of a CONSOLE is ready (R179). -/
def Stated.portReady (s : State) : Prop := Stated.console s ∧ s.port.outcomes.length < 4

/-- R17, R36, R37, R180. A SEND for the console's own node, of class COMMAND, is delivered to the command unit with a
local reply and answered SENT, also where the unit then finds its length or its arguments malformed; into a full command
queue it is answered BUSY, cause QUEUE. Here with a rank below 4096. -/
def Stated.SendToOwnNodeIsDeliveredDirectly : Prop :=
  ∀ (s : State) (r : SendRecord), Stated.portReady s → r.length.toNat = r.body.length → r.body.length ≤ 40 →
    r.body ≠ [] → r.rank.toNat / 256 = 6 → (byteAt r.body 0).toNat = s.straps.node.val →
    let code := BitVec.ofNat 5 (r.rank.toNat / 8 % 32)
    let good := 2 ≤ r.body.length ∧ admits code (r.body.length - 2) = true
    exec (.send r) s = .next
      (if s.cmd.queue.length < 8 then
        { s with
          cmd :=
            if good then
              { s.cmd with
                queue := s.cmd.queue ++
                  [{ origin := Fin.ofNat 8 (r.rank.toNat % 8)
                     code := code
                     tag := byteAt r.body 1
                     args := r.body.drop 2
                     isLocal := true }] }
            else { s.cmd with malformed := bump s.cmd.malformed }
          port := { s.port with outcomes := s.port.outcomes ++ [{ outcome := .sent, attempts := 0 }] } }
      else
        { s with
          port :=
            { s.port with
              busy := bump s.port.busy
              outcomes := s.port.outcomes ++ [{ outcome := .busy .queue, attempts := 0 }] } })

/-- R21, R22, R180. Any other SEND loads the PORT slot with the console's node as origin: by the slot rules into EMPTY,
PENDING and SENDING, BUSY with cause HELD where a held record stands, and BUSY with cause REFUSED outside RUNNING or in
CUT. A COMMAND for another node, or for all, is such a SEND. Here with a rank below 4096. -/
def Stated.SendLoadsThePortSlot : Prop :=
  ∀ (s : State) (r : SendRecord), Stated.portReady s → r.length.toNat = r.body.length → r.body.length ≤ 40 →
    r.rank.toNat < 4096 →
    r.rank.toNat / 256 ≠ 6 ∨ r.body = [] ∨ (byteAt r.body 0).toNat ≠ s.straps.node.val →
    let content : Content :=
      { rank := BitVec.ofNat 12 (r.rank.toNat / 8 * 8 + s.straps.node.val)
        body := r.body
        singleShot := r.flags.getLsbD 0
        loop := r.flags.getLsbD 1 }
    let sl := s.slots.port
    let busy := fun cause =>
      { s.port with
        busy := bump s.port.busy
        outcomes := s.port.outcomes ++ [{ outcome := .busy cause, attempts := 0 }] }
    exec (.send r) s = .next
      (if s.loader.life ≠ .running ∨ s.spine.standing = .cut then
        { s with slots := { s.slots with refused := bump s.slots.refused }, port := busy .refused }
      else
        match sl.state with
        | .empty =>
          { s with slots := { s.slots with port := { sl with state := .pending, content := content, attempts := 0 } } }
        | .pending =>
          { s with slots := { s.slots with port := { sl with content := content, superseded := bump sl.superseded } } }
        | .sending =>
          if sl.held.isSome then { s with port := busy .held }
          else { s with slots := { s.slots with port := { sl with held := some content } } })

/-- R27, R97, R179, R181. ABORT empties a PENDING PORT slot with outcome ABORTED, marks a SENDING one and discards its
held record, and does nothing to an EMPTY one. TAG joins the tag queue, or is counted and answered BUSY, cause TAGS,
where 4 stand. ACK clears the overrun flag. A record that cannot be read, or a SEND whose length disagrees, counts a
port error. What an EMPTY slot holds as its content is the model's choice (log 28). -/
def Stated.OtherRecordsAtThePort : Prop :=
  ∀ (s : State), Stated.portReady s →
    let sl := s.slots.port
    exec .abort s = .next
      (match sl.state with
      | .empty => s
      | .pending =>
        { s with
          slots :=
            { s.slots with
              port :=
                { sl with
                  state := .empty
                  content := { rank := 0, body := [], singleShot := false, loop := false }
                  held := none
                  abortMark := false
                  attempts := 0 } }
          port :=
            { s.port with outcomes := s.port.outcomes ++ [{ outcome := .aborted, attempts := sl.attempts }] } }
      | .sending => { s with slots := { s.slots with port := { sl with held := none, abortMark := true } } }) ∧
    (∀ x : FrameTag, exec (.tag x) s = .next
      (if s.laneTx.tags.length < 4 then { s with laneTx := { s.laneTx with tags := s.laneTx.tags ++ [x] } }
      else
        { s with
          laneTx := { s.laneTx with tagsRefused := bump s.laneTx.tagsRefused }
          port :=
            { s.port with
              busy := bump s.port.busy
              outcomes := s.port.outcomes ++ [{ outcome := .busy .tags, attempts := 0 }] } })) ∧
    exec .ack s = .next { s with intake := { s.intake with overrun := false } } ∧
    exec .portError s = .next { s with port := { s.port with errors := bump s.port.errors } } ∧
    (∀ r : SendRecord, r.length.toNat ≠ r.body.length →
      exec (.send r) s = .next { s with port := { s.port with errors := bump s.port.errors } })

/-- R179. While the port is not ready, in LOADING or while 4 OUTCOMEs wait, it takes no record: none changes anything. So
it is in another role, which has no port; that a record can be handed over then is the model's choice (log 2). -/
def Stated.PortNotReadyTakesNoRecord : Prop :=
  ∀ (s : State), ¬ Stated.portReady s →
    (∀ r, exec (.send r) s = .next s) ∧ exec .abort s = .next s ∧ (∀ x, exec (.tag x) s = .next s) ∧
      exec .ack s = .next s ∧ exec .portError s = .next s ∧ ∀ straps, exec (.restartRecord straps) s = .next s

/-- R27, R97, R179 to R182. What the records of the computer do. The model's choices in it: log 2: records at a port
that is not ready; log 28: the content of an EMPTY slot; log 38: the origin of a directly delivered command; log 12:
ranks above 4095 are left to a free value and not stated here; log 31: reserved bits of the flags of a SEND; log 52: the
attempt count of a BUSY answer. -/
def Obligations.PortRecordsAreHandled : Prop :=
  Stated.SendToOwnNodeIsDeliveredDirectly ∧
    Stated.SendLoadsThePortSlot ∧
    Stated.OtherRecordsAtThePort ∧
    Stated.PortNotReadyTakesNoRecord

/-- An outgoing record with its kind, length and frame check (R184, 12_formats.md). -/
def Stated.record (kind : Byte) (contents : List Byte) : List Byte :=
  let framed := [kind] ++ beBytes 2 contents.length ++ contents
  framed ++ beBytes 2 (bytesCheck framed).toNat

/-- R34, R178, R182. With the outgoing link idle the oldest OUTCOME goes first, then a waiting PORT STATUS, then the
head of the intake queue, whole and with the split mark cleared; its entry keeps its space while in transfer. The end of
a record frees the link and an entry in transfer; the entry that held the local reply to a RESTART then makes the
restart due. The model's choices in it: logs 7 and 25: the entry of a RESTART's local reply makes the restart due; log 27:
how the abort mark is shown, which a record that starts clears. -/
def Obligations.OutgoingLinkServesInOrder : Prop :=
  (∀ (s : State), Stated.console s → s.port.out = none →
    (∀ o rest, s.port.outcomes = o :: rest →
      exec .outgoingRecordStart s = .next
        { s with
          port :=
            { s.port with
              outcomes := rest
              abortMark := false
              out := some
                { kind := .outcome
                  bytes := Stated.record 9
                    [BitVec.ofNat 8 o.outcome.code, o.attempts, BitVec.ofNat 8 o.outcome.causeCode] } } }) ∧
    (∀ x, s.port.outcomes = [] → s.port.status = some x →
      exec .outgoingRecordStart s = .next
        { s with
          port :=
            { s.port with
              status := none
              abortMark := false
              out := some { kind := .portStatus, bytes := Stated.record 10 x } } }) ∧
    (∀ e rest, s.port.outcomes = [] → s.port.status = none → s.intake.queue = e :: rest →
      exec .outgoingRecordStart s = .next
        { s with
          intake := { s.intake with queue := rest, inTransfer := some e, split := false }
          port :=
            { s.port with
              abortMark := false
              out := some { kind := .message, bytes := Stated.record 8 (Stated.head e ++ e.body) } } }) ∧
    (s.port.outcomes = [] → s.port.status = none → s.intake.queue = [] → exec .outgoingRecordStart s = .next s)) ∧
  ∀ (s : State) (r : OutRecord), s.port.out = some r →
    exec .outgoingRecordEnd s = .next
      (let after : State := { s with port := { s.port with out := none } }
      if r.kind ≠ .message then after
      else
        match s.intake.inTransfer with
        | none => after
        | some e =>
          if e.restartReply then
            { after with
              intake := { s.intake with inTransfer := none }
              cmd := { s.cmd with answering := none }
              loader := { s.loader with restartDue := true } }
          else { after with intake := { s.intake with inTransfer := none } })

/-! ### Life (R59, R92, R176 to R178) -/

/-- R176. POWER_ON: LOADING, agreed time 0, counts 0 and OPEN, every slot, queue, ring, history and table empty, no flag
latched or marked and every enable clear, every buffer OPEN and DAMAGED, the stream IDLE with gain 256, the grant at
draw[0] and the step at 0. -/
def Stated.PowerOnTakesPowerOnValues : Prop :=
  ∀ (s : State) (straps : Straps), ∃ t, exec (.powerOn straps) s = .next t ∧ t.straps = straps ∧
    t.loader = { life := .loading, epoch := 0, restartDue := false, fromRestart := false } ∧
    t.agreed = 0 ∧ t.time.localCount = 0 ∧ t.time.slew = 0 ∧ t.time.beaconNumber = 0 ∧ t.time.prevStart = none ∧
    t.time.reference = none ∧ (∀ o : Node, t.time.table[o] = none) ∧
    t.spine.sfc = 0 ∧ t.spine.tfc = 0 ∧ t.spine.standing = .open ∧ t.spine.tx = none ∧
    (∀ n, t.slot n =
      { state := .empty
        content := { rank := 0, body := [], singleShot := false, loop := false }
        abortMark := false
        attempts := 0
        held := none
        superseded := 0 }) ∧
    t.intake.queue = [] ∧ t.intake.overrun = false ∧ t.intake.split = false ∧ t.cmd.queue = [] ∧
    t.cmd.answering = none ∧ t.alarms = { latched := 0, unsent := 0, wire := 0, message := 0, present := 0 } ∧
    (∀ i : Fin 8, t.sched.entries[i].action = .none) ∧
    t.motion.ring = [] ∧ t.motion.history = [] ∧ t.motion.acc = { yaw := 0, pitch := 0, roll := 0 } ∧
    t.laneTx.tags = [] ∧ t.laneTx.lastEye = .right ∧ t.laneTx.epochHeld = none ∧ t.laneRx.epoch = 0 ∧
    (∀ e : Eye, (t.laneRx.eyes.get e).accepted = 0 ∧ (t.laneRx.eyes.get e).lastLoaded = none) ∧
    (∀ b : Fin 256, t.store.buffers[b].full = false ∧ t.store.buffers[b].content = .damaged ∧
      t.store.buffers[b].writing = false ∧ t.store.buffers[b].tag.present = false) ∧
    t.store.fault = none ∧ t.scan.scanning = false ∧ t.scan.current = none ∧ t.audio.state = .idle ∧
    t.audio.ring = [] ∧ t.audio.blocks = [] ∧ t.audio.gain = 256 ∧ t.power.step = 0 ∧ t.power.supplied = false ∧
    t.power.holdover = none ∧ t.power.battery = none ∧ t.power.grant = t.power.settings.draw[0] ∧
    t.port.outcomes = [] ∧ t.port.status = none ∧ t.port.out = none ∧ t.port.abortMark = false ∧
    t.time.readings = [] ∧ t.pending = s.pending

/-- R59, R92, R106, R178, R182. A restart, by the record or when the reply to the command is done, takes every unit to
its power-on state with the straps then read, but for these: agreed time goes on while the local count starts from 0; the
restart epoch rises by 1 and gives the lane receiver its epoch; each dial keeps its count, line state and range; a record
that the outgoing link was sending ends with the abort mark. -/
def Stated.RestartKeepsAgreedTimeDialsAndEpoch : Prop :=
  ∀ (s : State) (i : Instr) (straps : Straps),
    i = .restartRecord straps ∧ Stated.portReady s ∨ i = .restartBegin straps ∧ s.loader.restartDue = true →
    ∃ t on, exec i s = .next t ∧ exec (.powerOn straps) s = .next on ∧
      t.agreed = s.agreed ∧
      t.loader = { life := .loading, epoch := s.loader.epoch + 1, restartDue := false, fromRestart := true } ∧
      t.laneRx = { on.laneRx with epoch := BitVec.ofNat 8 ((s.loader.epoch.toNat + 1) % 256) } ∧
      t.time = { on.time with offset := t.time.offset } ∧
      t.dials.e0 = { s.dials.e0 with limit := false, frameValue := 0, skips := 0, limitSteps := 0 } ∧
      t.dials.e1 = { s.dials.e1 with limit := false, frameValue := 0, skips := 0, limitSteps := 0 } ∧
      t.port = { on.port with abortMark := s.port.out.isSome } ∧
      t = { on with loader := t.loader, laneRx := t.laneRx, time := t.time, dials := t.dials, port := t.port }

/-- R59, R92, R176, R178, R182. What power-on and restart leave. The model's choices in it: log 4: no reading of agreed
time is held of before them; log 27: how the abort mark is shown; log 28: the content of an EMPTY slot; log 7: when a
RESTART command's restart begins; log 6: settings before installation. -/
def Obligations.PowerOnAndRestartBeginAnew : Prop :=
  Stated.PowerOnTakesPowerOnValues ∧ Stated.RestartKeepsAgreedTimeDialsAndEpoch

/-- The default schedule of a role and node (R78), with no next due. -/
def Stated.defaultSchedule (role : Role) (node : Nat) : Vector SchedEntry 8 :=
  let every (a : Action) (period phase : Nat) : SchedEntry := { action := a, mode := .repeating period phase 0 }
  let counted (a : Action) (src : Fin 8) (n : Nat) : SchedEntry := { action := a, mode := .counted src n 0 }
  let beacon := every .beacon 1600000 (node * 200000)
  let power := every .powerReport 1600000 (node * 200000 + 100000)
  let idle := every .none 0 0
  match role with
  | .headset =>
    #v[beacon, every .frame 177778 0, every .sample 16000 0, counted .poseReport 2 2, power, idle, idle, idle]
  | .console => #v[beacon, every .frame 177778 0, power, counted .portStatus 1 1, idle, idle, idle, idle]
  | .supply => #v[beacon, power, idle, idle, idle, idle, idle, idle]

/-- The default draws of a role (R161). -/
def Stated.defaultDraw (role : Role) : Vector Nat 4 :=
  match role with
  | .headset => #v[300, 900, 1250, 1600]
  | .console => #v[60, 250, 250, 250]
  | .supply => #v[40, 40, 40, 40]

/-- The default of a LIVE band: 12 buffers from `base` on, UP, black, with clear flags (R115). -/
def Stated.defaultBand (base : Nat) : Band where
  access := .live
  base := base
  count := 12
  direction := .up
  fill := { r := 0, g := 0, b := 0 }
  written := false
  stale := false

/-- R70, R74, R78, R92, R113, R115, R145, R161, R177, R183. Without a usable image every setting takes its role default
and PROFILE is latched; the station becomes LISTENING and its timer starts. PROFILE_INSTALLED does so where none is fitted
or the image is bad, PROFILE_MEMORY_TIMEOUT where the memory has not answered within 10 ms. -/
def Stated.MissingProfileInstallsDefaults : Prop :=
  ∀ (s : State) (i : Instr), s.loader.life = .loading →
    (∃ image, i = .profileInstalled image ∧ (s.straps.profilePresent = false ∨ imageGood image = false)) ∨
      i = .profileMemoryTimeout ∧ s.straps.profilePresent = true ∧ 10000 ≤ s.time.localCount →
    ∃ t, exec i s = .next t ∧ t.loader = { s.loader with life := .listening, fromRestart := false } ∧
      t.time.timer = some (s.agreed : Int) ∧ t.time.offset = s.time.offset ∧ t.time.stepLimit = 100 ∧
      t.spine.strain = 80 ∧ t.spine.synced = false ∧
      t.alarms.wire = 0xE4B#12 ∧ t.alarms.message = 0xFFF#12 ∧ t.isLatched .profile = true ∧
      (s.alarms.latched = 0 → s.alarms.unsent = 0 → t.alarms.latched = 1 ∧ t.alarms.unsent = 1 ∧ t.alertDriven = true) ∧
      t.store.geometry =
        { S := 16
          H := 1536
          W := 1600
          edge := { left := { r := 0, g := 0, b := 0 }, right := { r := 0, g := 0, b := 0 } } } ∧
      (∀ b : Fin 8, t.store.bands.left[b] = Stated.defaultBand (12 * b.val) ∧
        t.store.bands.right[b] = Stated.defaultBand (96 + 12 * b.val)) ∧
      t.scan.settings =
        { lp := 104
          glow := 2000
          hmax := 20000
          kx := 100531
          ky := 100531
          lensStep := 3
          maxshift := 96
          brightness := #v[0, 128, 192, 256] } ∧
      t.motion.settings =
        { axisMap :=
            { yaw := { axis := 2, negative := false }
              pitch := { axis := 0, negative := false }
              roll := { axis := 1, negative := false } }
          bias := { yaw := 0, pitch := 0, roll := 0 }
          gain := { yaw := 728, pitch := 728, roll := 728 }
          readLimit := 400 } ∧
      t.dials.e0.range = { min := -40, max := 40, start := 0 } ∧
      t.dials.e1.range = { min := 0, max := 30, start := 0 } ∧
      t.intake.table = defaultTable s.straps.role ∧
      (∀ e : Eye, (t.laneRx.eyes.get e).accepted = 0 ∧ (t.laneRx.eyes.get e).horizon = 96) ∧
      t.audio.slipLimit = 250 ∧ t.audio.capture.switch = false ∧
      t.power.settings =
        { draw := Stated.defaultDraw s.straps.role
          available := 0
          reserve := 100
          yellow := 100
          red := 400
          low := if s.straps.role = .supply then 20 else 0
          empty := if s.straps.role = .supply then 5 else 0
          availableFull := if s.straps.role = .supply then 1700 else 0
          availableLow := if s.straps.role = .supply then 1300 else 0 } ∧
      t.power.grant = (Stated.defaultDraw s.straps.role)[0] ∧
      (∀ k : Fin 8,
        let e := (Stated.defaultSchedule s.straps.role s.straps.node.val)[k]
        t.sched.entries[k].action = e.action ∧
          (∀ period phase due, e.mode = .repeating period phase due → e.action ≠ .none →
            ∃ due', t.sched.entries[k].mode = .repeating period phase due') ∧
          ∀ src n progress, e.mode = .counted src n progress → t.sched.entries[k].mode = .counted src n 0) ∧
      (∀ (k : Fin 8) (period phase due : Nat), t.sched.entries[k].mode = .repeating period phase due →
        t.sched.entries[k].action ≠ .none →
        ∃ j, due = phase + j * period ∧ s.agreed ≤ due ∧ ∀ j', s.agreed ≤ phase + j' * period → j ≤ j') ∧
      (s.loader.fromRestart = false → s.straps.role = .headset →
        t.dials.e0.count = 0 ∧ t.dials.e0.frameValue = 0 ∧ t.dials.e0.lineA = s.pins.dialLevels.1.1 ∧
          t.dials.e0.lineB = s.pins.dialLevels.1.2 ∧ t.dials.e1.count = 0 ∧ t.dials.e1.frameValue = 0 ∧
          t.dials.e1.lineA = s.pins.dialLevels.2.1 ∧ t.dials.e1.lineB = s.pins.dialLevels.2.2) ∧
      (s.loader.fromRestart = true →
        t.dials.e0.count = Stated.within (-40) 40 s.dials.e0.count ∧ t.dials.e0.frameValue = t.dials.e0.count ∧
          (t.dials.e0.count ≠ s.dials.e0.count → t.dials.e0.limit = true) ∧
          t.dials.e1.count = Stated.within 0 30 s.dials.e1.count ∧ t.dials.e1.frameValue = t.dials.e1.count ∧
          (t.dials.e1.count ≠ s.dials.e1.count → t.dials.e1.limit = true)) ∧
      (s.straps.role = .console → t.port.status.isSome = true) ∧ t.slots.port = s.slots.port ∧
      t.cmd = s.cmd ∧ t.intake.queue = s.intake.queue

/-- The roles that have an action (R73). -/
def Stated.roleAllows (role : Role) (a : Action) : Prop :=
  match a with
  | .none => True
  | .beacon => True
  | .powerReport => True
  | .frame => role ≠ .supply
  | .sample => role = .headset
  | .poseReport => role = .headset
  | .portStatus => role = .console

/-- A period, or an effective period, in sixteenths, lies in the range of its action (R73). -/
def Stated.periodGood (a : Action) (period : Nat) : Prop :=
  match a with
  | .none => True
  | .beacon => 160000 ≤ period ∧ period ≤ 16000000
  | .frame => 100000 ≤ period ∧ period ≤ 250000
  | .sample => 4000 ≤ period ∧ period ≤ 80000 ∧ period % 16 = 0
  | .poseReport => 16000 ≤ period ∧ period ≤ 1600000
  | .powerReport => 320000 ≤ period ∧ period ≤ 16000000
  | .portStatus => 16000 ≤ period ∧ period ≤ 16000000

/-- The schedule entries break no rule of R73, which asks nothing of one with action NONE (log 54). -/
def Stated.entriesGood (role : Role) (es : Vector SchedEntry 8) : Prop :=
  ∀ i : Fin 8, es[i].action ≠ .none →
    Stated.roleAllows role es[i].action ∧ (∀ k : Fin 8, k < i → es[k].action ≠ es[i].action) ∧
    (∀ period phase due, es[i].mode = .repeating period phase due →
      Stated.periodGood es[i].action period ∧ phase < period) ∧
    ∀ src n progress, es[i].mode = .counted src n progress →
      es[i].action ≠ .beacon ∧ es[i].action ≠ .frame ∧ es[i].action ≠ .sample ∧ src ≠ i ∧
        es[src].action ≠ .none ∧
        ∃ period phase due, es[src].mode = .repeating period phase due ∧ Stated.periodGood es[i].action (period * n)

/-- The geometry breaks no rule of R113. -/
def Stated.geometryGood (g : Geometry) : Prop :=
  (g.S = 8 ∨ g.S = 16 ∨ g.S = 32) ∧ g.H % (8 * g.S) = 0 ∧ 8 * g.S ≤ g.H ∧ g.H ≤ 2048 ∧ g.H ≤ 128 * g.S ∧
    64 ≤ g.W ∧ g.W ≤ 2048

/-- No pass of R117 finds fault with the descriptors, in bands of `m` slices. -/
def Stated.mapsGood (m : Nat) (bands : Both (Vector Band 8)) : Prop :=
  let all := bands.left.toList ++ bands.right.toList
  (∀ b ∈ all, b.access = .live → b.base + b.count ≤ 256 ∧ b.count ≤ m) ∧
    all.Pairwise fun a b => a.access = .live → b.access = .live →
      a.count = 0 ∨ b.count = 0 ∨ a.base + a.count ≤ b.base ∨ b.base + b.count ≤ a.base

/-- The scan's values lie in the ranges of 08, and H × LP is below the period of a FRAME entry (R128). -/
def Stated.scanGood (es : Vector SchedEntry 8) (h : Nat) (v : ScanSettings) : Prop :=
  16 ≤ v.lp ∧ v.lp ≤ 4000 ∧ v.glow ≤ 5000 ∧ v.hmax ≤ 30000 ∧ v.kx ≤ 1048575 ∧ v.ky ≤ 1048575 ∧ -64 ≤ v.lensStep ∧
    v.lensStep ≤ 64 ∧ v.maxshift ≤ 255 ∧ (∀ k : Fin 4, v.brightness[k] ≤ 256) ∧
    ∀ (k : Fin 8) (period phase due : Nat), es[k] = { action := .frame, mode := .repeating period phase due } →
      h * v.lp < period

/-- The values of the motion unit lie in their ranges, its axes differ, and the dials' ranges hold their start counts
(R80, R92). -/
def Stated.motionGood (k : MotionSettings) : Prop :=
  50 ≤ k.readLimit ∧ k.readLimit ≤ 5000 ∧
    (∀ b, b = k.bias.yaw ∨ b = k.bias.pitch ∨ b = k.bias.roll → -4096 ≤ b ∧ b ≤ 4095) ∧
    (∀ g, g = k.gain.yaw ∨ g = k.gain.pitch ∨ g = k.gain.roll → 1 ≤ g ∧ g ≤ 65535) ∧
    k.axisMap.yaw.axis ≠ k.axisMap.pitch.axis ∧ k.axisMap.yaw.axis ≠ k.axisMap.roll.axis ∧
    k.axisMap.pitch.axis ≠ k.axisMap.roll.axis

/-- The power figures break no check of R161. -/
def Stated.figuresGood (role : Role) (p : PowerSettings) : Prop :=
  p.draw[0] ≤ p.draw[1] ∧ p.draw[1] ≤ p.draw[2] ∧ p.draw[2] ≤ p.draw[3] ∧ p.yellow ≤ p.red ∧ p.low ≤ 100 ∧
    p.empty ≤ 100 ∧ (role = .supply → p.empty ≤ p.low ∧ p.availableLow ≤ p.availableFull)

/-- No range and no check of the loader finds fault with the settings (R73, R80, R92, R113, R117, R128, R145, R161). -/
def Stated.settingsGood (role : Role) (v : Settings) : Prop :=
  Stated.entriesGood role v.entries ∧ Stated.geometryGood v.geometry ∧
    Stated.mapsGood v.geometry.bandSlices v.bands ∧ Stated.scanGood v.entries v.geometry.H v.scan ∧
    Stated.motionGood v.motion ∧ v.e0.min ≤ v.e0.start ∧ v.e0.start ≤ v.e0.max ∧ v.e1.min ≤ v.e1.start ∧
    v.e1.start ≤ v.e1.max ∧ 50 ≤ v.slipLimit ∧ v.slipLimit ≤ 2000 ∧ Stated.figuresGood role v.power ∧
    16 ≤ v.strain ∧ v.strain ≤ 127 ∧ 10 ≤ v.stepLimit ∧ v.stepLimit ≤ 10000

/-- R73, R80, R92, R113, R117, R128, R145, R161, R177. Whatever image is installed, and where none is, every setting lies
in its range: strain level, step limit, the periods, effective periods and phases of the schedule, the geometry, the band
maps, the line period and the other scan values, gains, biases and read limit, the dials, the slip limit, the draws and
the battery marks. H × LP is at most the frame period. -/
def Stated.InstalledSettingsLieInTheirRanges : Prop :=
  ∀ (s : State) (image : List Byte), s.loader.life = .loading →
    ∃ t, exec (.profileInstalled image) s = .next t ∧ t.loader.life = .listening ∧
      16 ≤ t.spine.strain ∧ t.spine.strain ≤ 127 ∧ 10 ≤ t.time.stepLimit ∧ t.time.stepLimit ≤ 10000 ∧
      50 ≤ t.audio.slipLimit ∧ t.audio.slipLimit ≤ 2000 ∧ Stated.motionGood t.motion.settings ∧
      Stated.entriesGood s.straps.role t.sched.entries ∧
      (∀ (k src : Fin 8) (n progress : Nat), t.sched.entries[k].mode = .counted src n progress →
        t.sched.entries[k].action ≠ .none → progress = 0) ∧
      16 ≤ t.scan.settings.lp ∧ t.scan.settings.lp ≤ 4000 ∧ t.scan.settings.glow ≤ 5000 ∧
      t.scan.settings.hmax ≤ 30000 ∧ t.scan.settings.kx ≤ 1048575 ∧ t.scan.settings.ky ≤ 1048575 ∧
      -64 ≤ t.scan.settings.lensStep ∧ t.scan.settings.lensStep ≤ 64 ∧ t.scan.settings.maxshift ≤ 255 ∧
      (∀ k : Fin 4, t.scan.settings.brightness[k] ≤ 256) ∧
      (∀ (k : Fin 8) (period phase due : Nat),
        t.sched.entries[k] = { action := .frame, mode := .repeating period phase due } →
        t.store.geometry.H * t.scan.settings.lp ≤ period) ∧
      Stated.geometryGood t.store.geometry ∧ Stated.mapsGood t.store.geometry.bandSlices t.store.bands ∧
      dialsOk t ∧ Stated.figuresGood s.straps.role t.power.settings

/-- A field of `len` bytes at `off` of an image as it gives it, or `default` where it lies beyond the image's length
(R177, 12_formats.md). -/
def Stated.given (image : List Byte) (off len default : Nat) : Nat :=
  if off + len ≤ fieldAt image 0 2 then fieldAt image off len else default

/-- A number held in a range. -/
def Stated.clamped (lo hi v : Nat) : Nat := max lo (min hi v)

/-- R51, R113, R128, R145, R161, R177. Of a usable image each of these settings is installed as it is given, or at its
role default beyond the image's length; one outside its range at the nearer limit: the enables, the width, the scan
values but for LP, the gains, read limit, slip limit and capture enable, the power figures that no check compares, the
strain level and the step limit. The axis map is one setting: an image that ends within it leaves it at its default. -/
def Stated.UsableImageInstallsItsValues : Prop :=
  ∀ (s : State) (image : List Byte), s.loader.life = .loading → s.straps.profilePresent = true →
    imageGood image = true →
    let d := defaultSettings s.straps.role s.straps.node
    let at' := Stated.given image
    ∃ t, exec (.profileInstalled image) s = .next t ∧
      t.alarms.wire = BitVec.ofNat 12 (at' 4 2 d.wire.toNat) ∧
      t.alarms.message = BitVec.ofNat 12 (at' 6 2 d.message.toNat) ∧
      t.store.geometry.W = Stated.clamped 64 2048 (at' 123 2 d.geometry.W) ∧
      t.scan.settings.glow = min 5000 (at' 245 2 d.scan.glow) ∧
      t.scan.settings.hmax = min 30000 (at' 247 2 d.scan.hmax) ∧
      t.scan.settings.kx = min 1048575 (at' 249 3 d.scan.kx) ∧
      t.scan.settings.ky = min 1048575 (at' 252 3 d.scan.ky) ∧
      t.scan.settings.maxshift = min 255 (at' 256 1 d.scan.maxshift) ∧
      (∀ k : Fin 4, t.scan.settings.brightness[k] = min 256 (at' (257 + 2 * k.val) 2 d.scan.brightness[k])) ∧
      t.motion.settings.gain =
        { yaw := Stated.clamped 1 65535 (at' 274 2 d.motion.gain.yaw)
          pitch := Stated.clamped 1 65535 (at' 276 2 d.motion.gain.pitch)
          roll := Stated.clamped 1 65535 (at' 278 2 d.motion.gain.roll) } ∧
      (fieldAt image 0 2 < 268 → t.motion.settings.axisMap = d.motion.axisMap) ∧
      t.motion.settings.readLimit = Stated.clamped 50 5000 (at' 280 2 d.motion.readLimit) ∧
      t.audio.slipLimit = Stated.clamped 50 2000 (at' 294 2 d.slipLimit) ∧
      t.audio.capture.switch = decide (at' 296 1 0 ≠ 0) ∧
      t.power.settings.draw[0] = at' 297 2 d.power.draw[0] ∧
      t.power.settings.available = at' 305 2 d.power.available ∧
      t.power.settings.reserve = at' 307 2 d.power.reserve ∧
      t.power.settings.yellow = at' 309 2 d.power.yellow ∧
      t.power.settings.availableFull = at' 315 2 d.power.availableFull ∧
      t.spine.strain = Stated.clamped 16 127 (at' 319 1 d.strain) ∧
      t.time.stepLimit = Stated.clamped 10 10000 (at' 320 2 d.stepLimit)

/-- R73, R74, R117, R128, R177. A usable image whose settings no range and no check finds fault with is installed as it is
given, each entry with its first due, and no flag is latched. One that a check finds fault with latches PROFILE; on a
HEADSET, one whose descriptors fail a pass in the geometry installed latches MAP. -/
def Stated.ChecksLatchProfileAndMap : Prop :=
  ∀ (s : State) (image : List Byte), s.loader.life = .loading → s.straps.profilePresent = true →
    imageGood image = true → s.isLatched .profile = false → s.isLatched .map = false →
    let v := readImage image (defaultSettings s.straps.role s.straps.node)
    ∃ t, exec (.profileInstalled image) s = .next t ∧
      (t.isLatched .profile = true ↔ codesMoved image = true ∨ ¬ Stated.settingsGood s.straps.role v) ∧
      (t.isLatched .map = true ↔
        s.straps.role = .headset ∧ ¬ Stated.mapsGood t.store.geometry.bandSlices v.bands) ∧
      (codesMoved image = false → Stated.settingsGood s.straps.role v →
        t.alarms = { s.alarms with wire := v.wire, message := v.message } ∧ t.intake.table = v.table ∧
        (∀ k : Fin 8, t.sched.entries[k].action = v.entries[k].action ∧
          (∀ period phase due, v.entries[k].mode = .repeating period phase due → v.entries[k].action ≠ .none →
            ∃ j, t.sched.entries[k].mode = .repeating period phase (phase + j * period) ∧
              s.agreed ≤ phase + j * period ∧ ∀ j', s.agreed ≤ phase + j' * period → j ≤ j') ∧
          (∀ src n progress, v.entries[k].mode = .counted src n progress →
            t.sched.entries[k].mode = .counted src n 0)) ∧
        t.store.geometry = v.geometry ∧ t.store.bands = v.bands ∧ t.scan.settings = v.scan ∧
        t.motion.settings = v.motion ∧ t.dials.e0.range = v.e0 ∧ t.dials.e1.range = v.e1 ∧
        t.audio.slipLimit = v.slipLimit ∧ t.audio.capture.switch = v.captureEnable ∧ t.power.settings = v.power ∧
        t.power.grant = v.power.draw[0] ∧ t.spine.strain = v.strain ∧ t.time.stepLimit = v.stepLimit)

/-- R70, R73, R74, R92, R113, R117, R128, R161, R177. What the loader installs. The model's choices in it: logs 17 and
18: how a bad setting is judged, and in which roles; log 26: an image handed over after the 10 ms is installed; log 44:
H × LP at the frame period latches PROFILE; log 6: figures a role does not use; log 41: the PORT STATUS at the end of
LOADING; log 53: the sum of an image longer than 322 bytes; log 54: the period and
the phase of an entry with action NONE. -/
def Obligations.ProfileInstallationLeavesGoodSettings : Prop :=
  Stated.MissingProfileInstallsDefaults ∧
    Stated.InstalledSettingsLieInTheirRanges ∧
    Stated.UsableImageInstallsItsValues ∧
    Stated.ChecksLatchProfileAndMap

/-! ### What every step keeps -/

/-- R44, R106, R114, R162, R176. The machine right after power-on has every property that a step keeps. The model's
choices in it: logs 5, 6 and 28: straps, settings and values the spec leaves open. -/
def Obligations.ResetHasEveryKeptProperty : Prop :=
  spineOk State.reset ∧ storesOk State.reset ∧ bodiesOk State.reset ∧ alarmsOk State.reset ∧ dialsOk State.reset ∧
    geometryOk State.reset ∧ memoryOk State.reset ∧ bandsOk State.reset ∧ horizonsOk State.reset ∧
    shiftsOk State.reset ∧ historyOk State.reset ∧ audioOk State.reset ∧ powerOk State.reset

/-- R113, R114. A station with a geometry that the loader can leave never stops: every step answers a next state, whose
geometry is again such a one, and the bytes of the slice store keep their canonical form. The model's choices in it:
logs 11 and 29: the canonical form and the one stop are the model's. -/
def Obligations.StepNeverStops : Prop :=
  ∀ (s : State), geometryOk s → memoryOk s → ∃ t, step s = .next t ∧ geometryOk t ∧ memoryOk t

/-- R23, R42 to R46. Every step keeps the fault counts in 0 to 255, the standing what they give, the rejoin countdown in
1 to 64, and a slot SENDING exactly while its message is on the spine. -/
def Obligations.StepKeepsCountsAndStanding : Prop := ∀ s t : State, spineOk s → step s = .next t → spineOk t

/-- R32, R36, R81, R84, R97, R99, R146, R182. Every step keeps every queue, ring, history and list within the room that
the spec gives it. -/
def Stated.StepKeepsStoresInTheirRoom : Prop := ∀ s t : State, storesOk s → step s = .next t → storesOk t

/-- R5, R20, R32, R40, R157. Every step keeps every message body within 40 bytes. -/
def Stated.StepKeepsBodiesShort : Prop := ∀ s t : State, bodiesOk s → step s = .next t → bodiesOk t

/-- R5, R20, R32, R36, R81, R84, R97, R99, R146, R157, R182. Every step keeps the stores within their room and the
bodies short. -/
def Obligations.StepKeepsStoresAndBodiesBounded : Prop :=
  Stated.StepKeepsStoresInTheirRoom ∧ Stated.StepKeepsBodiesShort

/-- R49, R50, R52. Every step keeps unsent marks on latched flags alone, and the flag of every present condition
latched. -/
def Obligations.StepKeepsMarksOnLatchedFlags : Prop := ∀ s t : State, alarmsOk s → step s = .next t → alarmsOk t

/-- R90, R92. Every step keeps each dial's count in its range. -/
def Obligations.StepKeepsDialsInRange : Prop := ∀ s t : State, dialsOk s → step s = .next t → dialsOk t

/-- R116, R117. Every step keeps the LIVE runs of the band maps apart, so no two slices of a picture share a buffer. -/
def Obligations.StepKeepsBandsApart : Prop :=
  (∀ s t : State, bandsOk s → step s = .next t → bandsOk t) ∧
    ∀ (s : State) (e e' : Eye) (k k' : Nat) (b : Fin 256), geometryOk s → bandsOk s → k < s.store.geometry.slices →
      k' < s.store.geometry.slices → s.store.bufferOf e k = some b → s.store.bufferOf e' k' = some b →
      e = e' ∧ k = k'

/-- R106, R110. Every step keeps each eye's horizon at accepted plus the run of open positions, so that the credit
announced never exceeds the buffers that are OPEN. The model's choices in it: logs 20 and 30: the moments of
recomputation, and positions mod 65536. -/
def Obligations.StepKeepsHorizonsAtOpenRuns : Prop :=
  ∀ s t : State, geometryOk s → bandsOk s → horizonsOk s → step s = .next t → horizonsOk t

/-- R84, R140. Every step keeps the late shifts within their clamps, and the sequences of the pose history consecutive.
-/
def Obligations.StepKeepsShiftsAndHistory : Prop :=
  (∀ s t : State, shiftsOk s → step s = .next t → shiftsOk t) ∧
    ∀ s t : State, historyOk s → step s = .next t → historyOk t

/-- R146, R154. Every step keeps the block list of the stream accounting for the frames of its ring. -/
def Obligations.StepKeepsAudioAccounts : Prop := ∀ s t : State, audioOk s → step s = .next t → audioOk t

/-- R162, R170, R172. Every step keeps the power step at one whose draw the grant covers, and at 0 while OVERDRAW is
latched. -/
def Obligations.StepKeepsDrawWithinGrant : Prop := ∀ s t : State, powerOk s → step s = .next t → powerOk t

/-- R59, R68. Agreed time never falls: no correction moves it back, and a restart takes it along. Only a power-on begins
it anew. The model's choices in it: log 12: it goes on too where the 48 bits of the local count are used up. -/
def Obligations.AgreedTimeNeverFalls : Prop :=
  ∀ s t : State, (∀ straps, s.pending.head? ≠ some (.powerOn straps)) → step s = .next t →
    s.agreed ≤ t.agreed

end Statements
end

