-- ==== Sys2Proof/Laws/State.lean ====
section
/-! SUPPORT. What each update of one block does to each field of the state, true by definition. -/

namespace Sys2Proof.Machine

/-! ### updPins -/

@[simp] theorem updPins_pending (s : State) (f : Pins → Pins) : (s.updPins f).pending = s.pending := rfl
@[simp] theorem updPins_free (s : State) (f : Pins → Pins) : (s.updPins f).free = s.free := rfl
@[simp] theorem updPins_pins (s : State) (f : Pins → Pins) : (s.updPins f).pins = f s.pins := rfl
@[simp] theorem updPins_straps (s : State) (f : Pins → Pins) : (s.updPins f).straps = s.straps := rfl
@[simp] theorem updPins_loader (s : State) (f : Pins → Pins) : (s.updPins f).loader = s.loader := rfl
@[simp] theorem updPins_spine (s : State) (f : Pins → Pins) : (s.updPins f).spine = s.spine := rfl
@[simp] theorem updPins_slots (s : State) (f : Pins → Pins) : (s.updPins f).slots = s.slots := rfl
@[simp] theorem updPins_intake (s : State) (f : Pins → Pins) : (s.updPins f).intake = s.intake := rfl
@[simp] theorem updPins_cmd (s : State) (f : Pins → Pins) : (s.updPins f).cmd = s.cmd := rfl
@[simp] theorem updPins_alarms (s : State) (f : Pins → Pins) : (s.updPins f).alarms = s.alarms := rfl
@[simp] theorem updPins_time (s : State) (f : Pins → Pins) : (s.updPins f).time = s.time := rfl
@[simp] theorem updPins_sched (s : State) (f : Pins → Pins) : (s.updPins f).sched = s.sched := rfl
@[simp] theorem updPins_motion (s : State) (f : Pins → Pins) : (s.updPins f).motion = s.motion := rfl
@[simp] theorem updPins_dials (s : State) (f : Pins → Pins) : (s.updPins f).dials = s.dials := rfl
@[simp] theorem updPins_laneTx (s : State) (f : Pins → Pins) : (s.updPins f).laneTx = s.laneTx := rfl
@[simp] theorem updPins_laneRx (s : State) (f : Pins → Pins) : (s.updPins f).laneRx = s.laneRx := rfl
@[simp] theorem updPins_store (s : State) (f : Pins → Pins) : (s.updPins f).store = s.store := rfl
@[simp] theorem updPins_scan (s : State) (f : Pins → Pins) : (s.updPins f).scan = s.scan := rfl
@[simp] theorem updPins_audio (s : State) (f : Pins → Pins) : (s.updPins f).audio = s.audio := rfl
@[simp] theorem updPins_power (s : State) (f : Pins → Pins) : (s.updPins f).power = s.power := rfl
@[simp] theorem updPins_port (s : State) (f : Pins → Pins) : (s.updPins f).port = s.port := rfl

/-! ### updLoader -/

@[simp] theorem updLoader_pending (s : State) (f : Loader → Loader) : (s.updLoader f).pending = s.pending := rfl
@[simp] theorem updLoader_free (s : State) (f : Loader → Loader) : (s.updLoader f).free = s.free := rfl
@[simp] theorem updLoader_pins (s : State) (f : Loader → Loader) : (s.updLoader f).pins = s.pins := rfl
@[simp] theorem updLoader_straps (s : State) (f : Loader → Loader) : (s.updLoader f).straps = s.straps := rfl
@[simp] theorem updLoader_loader (s : State) (f : Loader → Loader) : (s.updLoader f).loader = f s.loader := rfl
@[simp] theorem updLoader_spine (s : State) (f : Loader → Loader) : (s.updLoader f).spine = s.spine := rfl
@[simp] theorem updLoader_slots (s : State) (f : Loader → Loader) : (s.updLoader f).slots = s.slots := rfl
@[simp] theorem updLoader_intake (s : State) (f : Loader → Loader) : (s.updLoader f).intake = s.intake := rfl
@[simp] theorem updLoader_cmd (s : State) (f : Loader → Loader) : (s.updLoader f).cmd = s.cmd := rfl
@[simp] theorem updLoader_alarms (s : State) (f : Loader → Loader) : (s.updLoader f).alarms = s.alarms := rfl
@[simp] theorem updLoader_time (s : State) (f : Loader → Loader) : (s.updLoader f).time = s.time := rfl
@[simp] theorem updLoader_sched (s : State) (f : Loader → Loader) : (s.updLoader f).sched = s.sched := rfl
@[simp] theorem updLoader_motion (s : State) (f : Loader → Loader) : (s.updLoader f).motion = s.motion := rfl
@[simp] theorem updLoader_dials (s : State) (f : Loader → Loader) : (s.updLoader f).dials = s.dials := rfl
@[simp] theorem updLoader_laneTx (s : State) (f : Loader → Loader) : (s.updLoader f).laneTx = s.laneTx := rfl
@[simp] theorem updLoader_laneRx (s : State) (f : Loader → Loader) : (s.updLoader f).laneRx = s.laneRx := rfl
@[simp] theorem updLoader_store (s : State) (f : Loader → Loader) : (s.updLoader f).store = s.store := rfl
@[simp] theorem updLoader_scan (s : State) (f : Loader → Loader) : (s.updLoader f).scan = s.scan := rfl
@[simp] theorem updLoader_audio (s : State) (f : Loader → Loader) : (s.updLoader f).audio = s.audio := rfl
@[simp] theorem updLoader_power (s : State) (f : Loader → Loader) : (s.updLoader f).power = s.power := rfl
@[simp] theorem updLoader_port (s : State) (f : Loader → Loader) : (s.updLoader f).port = s.port := rfl

/-! ### updSpine -/

@[simp] theorem updSpine_pending (s : State) (f : Spine → Spine) : (s.updSpine f).pending = s.pending := rfl
@[simp] theorem updSpine_free (s : State) (f : Spine → Spine) : (s.updSpine f).free = s.free := rfl
@[simp] theorem updSpine_pins (s : State) (f : Spine → Spine) : (s.updSpine f).pins = s.pins := rfl
@[simp] theorem updSpine_straps (s : State) (f : Spine → Spine) : (s.updSpine f).straps = s.straps := rfl
@[simp] theorem updSpine_loader (s : State) (f : Spine → Spine) : (s.updSpine f).loader = s.loader := rfl
@[simp] theorem updSpine_spine (s : State) (f : Spine → Spine) : (s.updSpine f).spine = f s.spine := rfl
@[simp] theorem updSpine_slots (s : State) (f : Spine → Spine) : (s.updSpine f).slots = s.slots := rfl
@[simp] theorem updSpine_intake (s : State) (f : Spine → Spine) : (s.updSpine f).intake = s.intake := rfl
@[simp] theorem updSpine_cmd (s : State) (f : Spine → Spine) : (s.updSpine f).cmd = s.cmd := rfl
@[simp] theorem updSpine_alarms (s : State) (f : Spine → Spine) : (s.updSpine f).alarms = s.alarms := rfl
@[simp] theorem updSpine_time (s : State) (f : Spine → Spine) : (s.updSpine f).time = s.time := rfl
@[simp] theorem updSpine_sched (s : State) (f : Spine → Spine) : (s.updSpine f).sched = s.sched := rfl
@[simp] theorem updSpine_motion (s : State) (f : Spine → Spine) : (s.updSpine f).motion = s.motion := rfl
@[simp] theorem updSpine_dials (s : State) (f : Spine → Spine) : (s.updSpine f).dials = s.dials := rfl
@[simp] theorem updSpine_laneTx (s : State) (f : Spine → Spine) : (s.updSpine f).laneTx = s.laneTx := rfl
@[simp] theorem updSpine_laneRx (s : State) (f : Spine → Spine) : (s.updSpine f).laneRx = s.laneRx := rfl
@[simp] theorem updSpine_store (s : State) (f : Spine → Spine) : (s.updSpine f).store = s.store := rfl
@[simp] theorem updSpine_scan (s : State) (f : Spine → Spine) : (s.updSpine f).scan = s.scan := rfl
@[simp] theorem updSpine_audio (s : State) (f : Spine → Spine) : (s.updSpine f).audio = s.audio := rfl
@[simp] theorem updSpine_power (s : State) (f : Spine → Spine) : (s.updSpine f).power = s.power := rfl
@[simp] theorem updSpine_port (s : State) (f : Spine → Spine) : (s.updSpine f).port = s.port := rfl

/-! ### updSlots -/

@[simp] theorem updSlots_pending (s : State) (f : Slots → Slots) : (s.updSlots f).pending = s.pending := rfl
@[simp] theorem updSlots_free (s : State) (f : Slots → Slots) : (s.updSlots f).free = s.free := rfl
@[simp] theorem updSlots_pins (s : State) (f : Slots → Slots) : (s.updSlots f).pins = s.pins := rfl
@[simp] theorem updSlots_straps (s : State) (f : Slots → Slots) : (s.updSlots f).straps = s.straps := rfl
@[simp] theorem updSlots_loader (s : State) (f : Slots → Slots) : (s.updSlots f).loader = s.loader := rfl
@[simp] theorem updSlots_spine (s : State) (f : Slots → Slots) : (s.updSlots f).spine = s.spine := rfl
@[simp] theorem updSlots_slots (s : State) (f : Slots → Slots) : (s.updSlots f).slots = f s.slots := rfl
@[simp] theorem updSlots_intake (s : State) (f : Slots → Slots) : (s.updSlots f).intake = s.intake := rfl
@[simp] theorem updSlots_cmd (s : State) (f : Slots → Slots) : (s.updSlots f).cmd = s.cmd := rfl
@[simp] theorem updSlots_alarms (s : State) (f : Slots → Slots) : (s.updSlots f).alarms = s.alarms := rfl
@[simp] theorem updSlots_time (s : State) (f : Slots → Slots) : (s.updSlots f).time = s.time := rfl
@[simp] theorem updSlots_sched (s : State) (f : Slots → Slots) : (s.updSlots f).sched = s.sched := rfl
@[simp] theorem updSlots_motion (s : State) (f : Slots → Slots) : (s.updSlots f).motion = s.motion := rfl
@[simp] theorem updSlots_dials (s : State) (f : Slots → Slots) : (s.updSlots f).dials = s.dials := rfl
@[simp] theorem updSlots_laneTx (s : State) (f : Slots → Slots) : (s.updSlots f).laneTx = s.laneTx := rfl
@[simp] theorem updSlots_laneRx (s : State) (f : Slots → Slots) : (s.updSlots f).laneRx = s.laneRx := rfl
@[simp] theorem updSlots_store (s : State) (f : Slots → Slots) : (s.updSlots f).store = s.store := rfl
@[simp] theorem updSlots_scan (s : State) (f : Slots → Slots) : (s.updSlots f).scan = s.scan := rfl
@[simp] theorem updSlots_audio (s : State) (f : Slots → Slots) : (s.updSlots f).audio = s.audio := rfl
@[simp] theorem updSlots_power (s : State) (f : Slots → Slots) : (s.updSlots f).power = s.power := rfl
@[simp] theorem updSlots_port (s : State) (f : Slots → Slots) : (s.updSlots f).port = s.port := rfl

/-! ### updIntake -/

@[simp] theorem updIntake_pending (s : State) (f : Intake → Intake) : (s.updIntake f).pending = s.pending := rfl
@[simp] theorem updIntake_free (s : State) (f : Intake → Intake) : (s.updIntake f).free = s.free := rfl
@[simp] theorem updIntake_pins (s : State) (f : Intake → Intake) : (s.updIntake f).pins = s.pins := rfl
@[simp] theorem updIntake_straps (s : State) (f : Intake → Intake) : (s.updIntake f).straps = s.straps := rfl
@[simp] theorem updIntake_loader (s : State) (f : Intake → Intake) : (s.updIntake f).loader = s.loader := rfl
@[simp] theorem updIntake_spine (s : State) (f : Intake → Intake) : (s.updIntake f).spine = s.spine := rfl
@[simp] theorem updIntake_slots (s : State) (f : Intake → Intake) : (s.updIntake f).slots = s.slots := rfl
@[simp] theorem updIntake_intake (s : State) (f : Intake → Intake) : (s.updIntake f).intake = f s.intake := rfl
@[simp] theorem updIntake_cmd (s : State) (f : Intake → Intake) : (s.updIntake f).cmd = s.cmd := rfl
@[simp] theorem updIntake_alarms (s : State) (f : Intake → Intake) : (s.updIntake f).alarms = s.alarms := rfl
@[simp] theorem updIntake_time (s : State) (f : Intake → Intake) : (s.updIntake f).time = s.time := rfl
@[simp] theorem updIntake_sched (s : State) (f : Intake → Intake) : (s.updIntake f).sched = s.sched := rfl
@[simp] theorem updIntake_motion (s : State) (f : Intake → Intake) : (s.updIntake f).motion = s.motion := rfl
@[simp] theorem updIntake_dials (s : State) (f : Intake → Intake) : (s.updIntake f).dials = s.dials := rfl
@[simp] theorem updIntake_laneTx (s : State) (f : Intake → Intake) : (s.updIntake f).laneTx = s.laneTx := rfl
@[simp] theorem updIntake_laneRx (s : State) (f : Intake → Intake) : (s.updIntake f).laneRx = s.laneRx := rfl
@[simp] theorem updIntake_store (s : State) (f : Intake → Intake) : (s.updIntake f).store = s.store := rfl
@[simp] theorem updIntake_scan (s : State) (f : Intake → Intake) : (s.updIntake f).scan = s.scan := rfl
@[simp] theorem updIntake_audio (s : State) (f : Intake → Intake) : (s.updIntake f).audio = s.audio := rfl
@[simp] theorem updIntake_power (s : State) (f : Intake → Intake) : (s.updIntake f).power = s.power := rfl
@[simp] theorem updIntake_port (s : State) (f : Intake → Intake) : (s.updIntake f).port = s.port := rfl

/-! ### updCmd -/

@[simp] theorem updCmd_pending (s : State) (f : CommandUnit → CommandUnit) : (s.updCmd f).pending = s.pending := rfl
@[simp] theorem updCmd_free (s : State) (f : CommandUnit → CommandUnit) : (s.updCmd f).free = s.free := rfl
@[simp] theorem updCmd_pins (s : State) (f : CommandUnit → CommandUnit) : (s.updCmd f).pins = s.pins := rfl
@[simp] theorem updCmd_straps (s : State) (f : CommandUnit → CommandUnit) : (s.updCmd f).straps = s.straps := rfl
@[simp] theorem updCmd_loader (s : State) (f : CommandUnit → CommandUnit) : (s.updCmd f).loader = s.loader := rfl
@[simp] theorem updCmd_spine (s : State) (f : CommandUnit → CommandUnit) : (s.updCmd f).spine = s.spine := rfl
@[simp] theorem updCmd_slots (s : State) (f : CommandUnit → CommandUnit) : (s.updCmd f).slots = s.slots := rfl
@[simp] theorem updCmd_intake (s : State) (f : CommandUnit → CommandUnit) : (s.updCmd f).intake = s.intake := rfl
@[simp] theorem updCmd_cmd (s : State) (f : CommandUnit → CommandUnit) : (s.updCmd f).cmd = f s.cmd := rfl
@[simp] theorem updCmd_alarms (s : State) (f : CommandUnit → CommandUnit) : (s.updCmd f).alarms = s.alarms := rfl
@[simp] theorem updCmd_time (s : State) (f : CommandUnit → CommandUnit) : (s.updCmd f).time = s.time := rfl
@[simp] theorem updCmd_sched (s : State) (f : CommandUnit → CommandUnit) : (s.updCmd f).sched = s.sched := rfl
@[simp] theorem updCmd_motion (s : State) (f : CommandUnit → CommandUnit) : (s.updCmd f).motion = s.motion := rfl
@[simp] theorem updCmd_dials (s : State) (f : CommandUnit → CommandUnit) : (s.updCmd f).dials = s.dials := rfl
@[simp] theorem updCmd_laneTx (s : State) (f : CommandUnit → CommandUnit) : (s.updCmd f).laneTx = s.laneTx := rfl
@[simp] theorem updCmd_laneRx (s : State) (f : CommandUnit → CommandUnit) : (s.updCmd f).laneRx = s.laneRx := rfl
@[simp] theorem updCmd_store (s : State) (f : CommandUnit → CommandUnit) : (s.updCmd f).store = s.store := rfl
@[simp] theorem updCmd_scan (s : State) (f : CommandUnit → CommandUnit) : (s.updCmd f).scan = s.scan := rfl
@[simp] theorem updCmd_audio (s : State) (f : CommandUnit → CommandUnit) : (s.updCmd f).audio = s.audio := rfl
@[simp] theorem updCmd_power (s : State) (f : CommandUnit → CommandUnit) : (s.updCmd f).power = s.power := rfl
@[simp] theorem updCmd_port (s : State) (f : CommandUnit → CommandUnit) : (s.updCmd f).port = s.port := rfl

/-! ### updAlarms -/

@[simp] theorem updAlarms_pending (s : State) (f : Alarms → Alarms) : (s.updAlarms f).pending = s.pending := rfl
@[simp] theorem updAlarms_free (s : State) (f : Alarms → Alarms) : (s.updAlarms f).free = s.free := rfl
@[simp] theorem updAlarms_pins (s : State) (f : Alarms → Alarms) : (s.updAlarms f).pins = s.pins := rfl
@[simp] theorem updAlarms_straps (s : State) (f : Alarms → Alarms) : (s.updAlarms f).straps = s.straps := rfl
@[simp] theorem updAlarms_loader (s : State) (f : Alarms → Alarms) : (s.updAlarms f).loader = s.loader := rfl
@[simp] theorem updAlarms_spine (s : State) (f : Alarms → Alarms) : (s.updAlarms f).spine = s.spine := rfl
@[simp] theorem updAlarms_slots (s : State) (f : Alarms → Alarms) : (s.updAlarms f).slots = s.slots := rfl
@[simp] theorem updAlarms_intake (s : State) (f : Alarms → Alarms) : (s.updAlarms f).intake = s.intake := rfl
@[simp] theorem updAlarms_cmd (s : State) (f : Alarms → Alarms) : (s.updAlarms f).cmd = s.cmd := rfl
@[simp] theorem updAlarms_alarms (s : State) (f : Alarms → Alarms) : (s.updAlarms f).alarms = f s.alarms := rfl
@[simp] theorem updAlarms_time (s : State) (f : Alarms → Alarms) : (s.updAlarms f).time = s.time := rfl
@[simp] theorem updAlarms_sched (s : State) (f : Alarms → Alarms) : (s.updAlarms f).sched = s.sched := rfl
@[simp] theorem updAlarms_motion (s : State) (f : Alarms → Alarms) : (s.updAlarms f).motion = s.motion := rfl
@[simp] theorem updAlarms_dials (s : State) (f : Alarms → Alarms) : (s.updAlarms f).dials = s.dials := rfl
@[simp] theorem updAlarms_laneTx (s : State) (f : Alarms → Alarms) : (s.updAlarms f).laneTx = s.laneTx := rfl
@[simp] theorem updAlarms_laneRx (s : State) (f : Alarms → Alarms) : (s.updAlarms f).laneRx = s.laneRx := rfl
@[simp] theorem updAlarms_store (s : State) (f : Alarms → Alarms) : (s.updAlarms f).store = s.store := rfl
@[simp] theorem updAlarms_scan (s : State) (f : Alarms → Alarms) : (s.updAlarms f).scan = s.scan := rfl
@[simp] theorem updAlarms_audio (s : State) (f : Alarms → Alarms) : (s.updAlarms f).audio = s.audio := rfl
@[simp] theorem updAlarms_power (s : State) (f : Alarms → Alarms) : (s.updAlarms f).power = s.power := rfl
@[simp] theorem updAlarms_port (s : State) (f : Alarms → Alarms) : (s.updAlarms f).port = s.port := rfl

/-! ### updTime -/

@[simp] theorem updTime_pending (s : State) (f : TimeUnit → TimeUnit) : (s.updTime f).pending = s.pending := rfl
@[simp] theorem updTime_free (s : State) (f : TimeUnit → TimeUnit) : (s.updTime f).free = s.free := rfl
@[simp] theorem updTime_pins (s : State) (f : TimeUnit → TimeUnit) : (s.updTime f).pins = s.pins := rfl
@[simp] theorem updTime_straps (s : State) (f : TimeUnit → TimeUnit) : (s.updTime f).straps = s.straps := rfl
@[simp] theorem updTime_loader (s : State) (f : TimeUnit → TimeUnit) : (s.updTime f).loader = s.loader := rfl
@[simp] theorem updTime_spine (s : State) (f : TimeUnit → TimeUnit) : (s.updTime f).spine = s.spine := rfl
@[simp] theorem updTime_slots (s : State) (f : TimeUnit → TimeUnit) : (s.updTime f).slots = s.slots := rfl
@[simp] theorem updTime_intake (s : State) (f : TimeUnit → TimeUnit) : (s.updTime f).intake = s.intake := rfl
@[simp] theorem updTime_cmd (s : State) (f : TimeUnit → TimeUnit) : (s.updTime f).cmd = s.cmd := rfl
@[simp] theorem updTime_alarms (s : State) (f : TimeUnit → TimeUnit) : (s.updTime f).alarms = s.alarms := rfl
@[simp] theorem updTime_time (s : State) (f : TimeUnit → TimeUnit) : (s.updTime f).time = f s.time := rfl
@[simp] theorem updTime_sched (s : State) (f : TimeUnit → TimeUnit) : (s.updTime f).sched = s.sched := rfl
@[simp] theorem updTime_motion (s : State) (f : TimeUnit → TimeUnit) : (s.updTime f).motion = s.motion := rfl
@[simp] theorem updTime_dials (s : State) (f : TimeUnit → TimeUnit) : (s.updTime f).dials = s.dials := rfl
@[simp] theorem updTime_laneTx (s : State) (f : TimeUnit → TimeUnit) : (s.updTime f).laneTx = s.laneTx := rfl
@[simp] theorem updTime_laneRx (s : State) (f : TimeUnit → TimeUnit) : (s.updTime f).laneRx = s.laneRx := rfl
@[simp] theorem updTime_store (s : State) (f : TimeUnit → TimeUnit) : (s.updTime f).store = s.store := rfl
@[simp] theorem updTime_scan (s : State) (f : TimeUnit → TimeUnit) : (s.updTime f).scan = s.scan := rfl
@[simp] theorem updTime_audio (s : State) (f : TimeUnit → TimeUnit) : (s.updTime f).audio = s.audio := rfl
@[simp] theorem updTime_power (s : State) (f : TimeUnit → TimeUnit) : (s.updTime f).power = s.power := rfl
@[simp] theorem updTime_port (s : State) (f : TimeUnit → TimeUnit) : (s.updTime f).port = s.port := rfl

/-! ### updSched -/

@[simp] theorem updSched_pending (s : State) (f : Schedule → Schedule) : (s.updSched f).pending = s.pending := rfl
@[simp] theorem updSched_free (s : State) (f : Schedule → Schedule) : (s.updSched f).free = s.free := rfl
@[simp] theorem updSched_pins (s : State) (f : Schedule → Schedule) : (s.updSched f).pins = s.pins := rfl
@[simp] theorem updSched_straps (s : State) (f : Schedule → Schedule) : (s.updSched f).straps = s.straps := rfl
@[simp] theorem updSched_loader (s : State) (f : Schedule → Schedule) : (s.updSched f).loader = s.loader := rfl
@[simp] theorem updSched_spine (s : State) (f : Schedule → Schedule) : (s.updSched f).spine = s.spine := rfl
@[simp] theorem updSched_slots (s : State) (f : Schedule → Schedule) : (s.updSched f).slots = s.slots := rfl
@[simp] theorem updSched_intake (s : State) (f : Schedule → Schedule) : (s.updSched f).intake = s.intake := rfl
@[simp] theorem updSched_cmd (s : State) (f : Schedule → Schedule) : (s.updSched f).cmd = s.cmd := rfl
@[simp] theorem updSched_alarms (s : State) (f : Schedule → Schedule) : (s.updSched f).alarms = s.alarms := rfl
@[simp] theorem updSched_time (s : State) (f : Schedule → Schedule) : (s.updSched f).time = s.time := rfl
@[simp] theorem updSched_sched (s : State) (f : Schedule → Schedule) : (s.updSched f).sched = f s.sched := rfl
@[simp] theorem updSched_motion (s : State) (f : Schedule → Schedule) : (s.updSched f).motion = s.motion := rfl
@[simp] theorem updSched_dials (s : State) (f : Schedule → Schedule) : (s.updSched f).dials = s.dials := rfl
@[simp] theorem updSched_laneTx (s : State) (f : Schedule → Schedule) : (s.updSched f).laneTx = s.laneTx := rfl
@[simp] theorem updSched_laneRx (s : State) (f : Schedule → Schedule) : (s.updSched f).laneRx = s.laneRx := rfl
@[simp] theorem updSched_store (s : State) (f : Schedule → Schedule) : (s.updSched f).store = s.store := rfl
@[simp] theorem updSched_scan (s : State) (f : Schedule → Schedule) : (s.updSched f).scan = s.scan := rfl
@[simp] theorem updSched_audio (s : State) (f : Schedule → Schedule) : (s.updSched f).audio = s.audio := rfl
@[simp] theorem updSched_power (s : State) (f : Schedule → Schedule) : (s.updSched f).power = s.power := rfl
@[simp] theorem updSched_port (s : State) (f : Schedule → Schedule) : (s.updSched f).port = s.port := rfl

/-! ### updMotion -/

@[simp] theorem updMotion_pending (s : State) (f : Motion → Motion) : (s.updMotion f).pending = s.pending := rfl
@[simp] theorem updMotion_free (s : State) (f : Motion → Motion) : (s.updMotion f).free = s.free := rfl
@[simp] theorem updMotion_pins (s : State) (f : Motion → Motion) : (s.updMotion f).pins = s.pins := rfl
@[simp] theorem updMotion_straps (s : State) (f : Motion → Motion) : (s.updMotion f).straps = s.straps := rfl
@[simp] theorem updMotion_loader (s : State) (f : Motion → Motion) : (s.updMotion f).loader = s.loader := rfl
@[simp] theorem updMotion_spine (s : State) (f : Motion → Motion) : (s.updMotion f).spine = s.spine := rfl
@[simp] theorem updMotion_slots (s : State) (f : Motion → Motion) : (s.updMotion f).slots = s.slots := rfl
@[simp] theorem updMotion_intake (s : State) (f : Motion → Motion) : (s.updMotion f).intake = s.intake := rfl
@[simp] theorem updMotion_cmd (s : State) (f : Motion → Motion) : (s.updMotion f).cmd = s.cmd := rfl
@[simp] theorem updMotion_alarms (s : State) (f : Motion → Motion) : (s.updMotion f).alarms = s.alarms := rfl
@[simp] theorem updMotion_time (s : State) (f : Motion → Motion) : (s.updMotion f).time = s.time := rfl
@[simp] theorem updMotion_sched (s : State) (f : Motion → Motion) : (s.updMotion f).sched = s.sched := rfl
@[simp] theorem updMotion_motion (s : State) (f : Motion → Motion) : (s.updMotion f).motion = f s.motion := rfl
@[simp] theorem updMotion_dials (s : State) (f : Motion → Motion) : (s.updMotion f).dials = s.dials := rfl
@[simp] theorem updMotion_laneTx (s : State) (f : Motion → Motion) : (s.updMotion f).laneTx = s.laneTx := rfl
@[simp] theorem updMotion_laneRx (s : State) (f : Motion → Motion) : (s.updMotion f).laneRx = s.laneRx := rfl
@[simp] theorem updMotion_store (s : State) (f : Motion → Motion) : (s.updMotion f).store = s.store := rfl
@[simp] theorem updMotion_scan (s : State) (f : Motion → Motion) : (s.updMotion f).scan = s.scan := rfl
@[simp] theorem updMotion_audio (s : State) (f : Motion → Motion) : (s.updMotion f).audio = s.audio := rfl
@[simp] theorem updMotion_power (s : State) (f : Motion → Motion) : (s.updMotion f).power = s.power := rfl
@[simp] theorem updMotion_port (s : State) (f : Motion → Motion) : (s.updMotion f).port = s.port := rfl

/-! ### updDials -/

@[simp] theorem updDials_pending (s : State) (f : Dials → Dials) : (s.updDials f).pending = s.pending := rfl
@[simp] theorem updDials_free (s : State) (f : Dials → Dials) : (s.updDials f).free = s.free := rfl
@[simp] theorem updDials_pins (s : State) (f : Dials → Dials) : (s.updDials f).pins = s.pins := rfl
@[simp] theorem updDials_straps (s : State) (f : Dials → Dials) : (s.updDials f).straps = s.straps := rfl
@[simp] theorem updDials_loader (s : State) (f : Dials → Dials) : (s.updDials f).loader = s.loader := rfl
@[simp] theorem updDials_spine (s : State) (f : Dials → Dials) : (s.updDials f).spine = s.spine := rfl
@[simp] theorem updDials_slots (s : State) (f : Dials → Dials) : (s.updDials f).slots = s.slots := rfl
@[simp] theorem updDials_intake (s : State) (f : Dials → Dials) : (s.updDials f).intake = s.intake := rfl
@[simp] theorem updDials_cmd (s : State) (f : Dials → Dials) : (s.updDials f).cmd = s.cmd := rfl
@[simp] theorem updDials_alarms (s : State) (f : Dials → Dials) : (s.updDials f).alarms = s.alarms := rfl
@[simp] theorem updDials_time (s : State) (f : Dials → Dials) : (s.updDials f).time = s.time := rfl
@[simp] theorem updDials_sched (s : State) (f : Dials → Dials) : (s.updDials f).sched = s.sched := rfl
@[simp] theorem updDials_motion (s : State) (f : Dials → Dials) : (s.updDials f).motion = s.motion := rfl
@[simp] theorem updDials_dials (s : State) (f : Dials → Dials) : (s.updDials f).dials = f s.dials := rfl
@[simp] theorem updDials_laneTx (s : State) (f : Dials → Dials) : (s.updDials f).laneTx = s.laneTx := rfl
@[simp] theorem updDials_laneRx (s : State) (f : Dials → Dials) : (s.updDials f).laneRx = s.laneRx := rfl
@[simp] theorem updDials_store (s : State) (f : Dials → Dials) : (s.updDials f).store = s.store := rfl
@[simp] theorem updDials_scan (s : State) (f : Dials → Dials) : (s.updDials f).scan = s.scan := rfl
@[simp] theorem updDials_audio (s : State) (f : Dials → Dials) : (s.updDials f).audio = s.audio := rfl
@[simp] theorem updDials_power (s : State) (f : Dials → Dials) : (s.updDials f).power = s.power := rfl
@[simp] theorem updDials_port (s : State) (f : Dials → Dials) : (s.updDials f).port = s.port := rfl

/-! ### updLaneTx -/

@[simp] theorem updLaneTx_pending (s : State) (f : LaneSender → LaneSender) : (s.updLaneTx f).pending = s.pending := rfl
@[simp] theorem updLaneTx_free (s : State) (f : LaneSender → LaneSender) : (s.updLaneTx f).free = s.free := rfl
@[simp] theorem updLaneTx_pins (s : State) (f : LaneSender → LaneSender) : (s.updLaneTx f).pins = s.pins := rfl
@[simp] theorem updLaneTx_straps (s : State) (f : LaneSender → LaneSender) : (s.updLaneTx f).straps = s.straps := rfl
@[simp] theorem updLaneTx_loader (s : State) (f : LaneSender → LaneSender) : (s.updLaneTx f).loader = s.loader := rfl
@[simp] theorem updLaneTx_spine (s : State) (f : LaneSender → LaneSender) : (s.updLaneTx f).spine = s.spine := rfl
@[simp] theorem updLaneTx_slots (s : State) (f : LaneSender → LaneSender) : (s.updLaneTx f).slots = s.slots := rfl
@[simp] theorem updLaneTx_intake (s : State) (f : LaneSender → LaneSender) : (s.updLaneTx f).intake = s.intake := rfl
@[simp] theorem updLaneTx_cmd (s : State) (f : LaneSender → LaneSender) : (s.updLaneTx f).cmd = s.cmd := rfl
@[simp] theorem updLaneTx_alarms (s : State) (f : LaneSender → LaneSender) : (s.updLaneTx f).alarms = s.alarms := rfl
@[simp] theorem updLaneTx_time (s : State) (f : LaneSender → LaneSender) : (s.updLaneTx f).time = s.time := rfl
@[simp] theorem updLaneTx_sched (s : State) (f : LaneSender → LaneSender) : (s.updLaneTx f).sched = s.sched := rfl
@[simp] theorem updLaneTx_motion (s : State) (f : LaneSender → LaneSender) : (s.updLaneTx f).motion = s.motion := rfl
@[simp] theorem updLaneTx_dials (s : State) (f : LaneSender → LaneSender) : (s.updLaneTx f).dials = s.dials := rfl
@[simp] theorem updLaneTx_laneTx (s : State) (f : LaneSender → LaneSender) : (s.updLaneTx f).laneTx = f s.laneTx := rfl
@[simp] theorem updLaneTx_laneRx (s : State) (f : LaneSender → LaneSender) : (s.updLaneTx f).laneRx = s.laneRx := rfl
@[simp] theorem updLaneTx_store (s : State) (f : LaneSender → LaneSender) : (s.updLaneTx f).store = s.store := rfl
@[simp] theorem updLaneTx_scan (s : State) (f : LaneSender → LaneSender) : (s.updLaneTx f).scan = s.scan := rfl
@[simp] theorem updLaneTx_audio (s : State) (f : LaneSender → LaneSender) : (s.updLaneTx f).audio = s.audio := rfl
@[simp] theorem updLaneTx_power (s : State) (f : LaneSender → LaneSender) : (s.updLaneTx f).power = s.power := rfl
@[simp] theorem updLaneTx_port (s : State) (f : LaneSender → LaneSender) : (s.updLaneTx f).port = s.port := rfl

/-! ### updLaneRx -/

@[simp] theorem updLaneRx_pending (s : State) (f : LaneReceiver → LaneReceiver) : (s.updLaneRx f).pending = s.pending := rfl
@[simp] theorem updLaneRx_free (s : State) (f : LaneReceiver → LaneReceiver) : (s.updLaneRx f).free = s.free := rfl
@[simp] theorem updLaneRx_pins (s : State) (f : LaneReceiver → LaneReceiver) : (s.updLaneRx f).pins = s.pins := rfl
@[simp] theorem updLaneRx_straps (s : State) (f : LaneReceiver → LaneReceiver) : (s.updLaneRx f).straps = s.straps := rfl
@[simp] theorem updLaneRx_loader (s : State) (f : LaneReceiver → LaneReceiver) : (s.updLaneRx f).loader = s.loader := rfl
@[simp] theorem updLaneRx_spine (s : State) (f : LaneReceiver → LaneReceiver) : (s.updLaneRx f).spine = s.spine := rfl
@[simp] theorem updLaneRx_slots (s : State) (f : LaneReceiver → LaneReceiver) : (s.updLaneRx f).slots = s.slots := rfl
@[simp] theorem updLaneRx_intake (s : State) (f : LaneReceiver → LaneReceiver) : (s.updLaneRx f).intake = s.intake := rfl
@[simp] theorem updLaneRx_cmd (s : State) (f : LaneReceiver → LaneReceiver) : (s.updLaneRx f).cmd = s.cmd := rfl
@[simp] theorem updLaneRx_alarms (s : State) (f : LaneReceiver → LaneReceiver) : (s.updLaneRx f).alarms = s.alarms := rfl
@[simp] theorem updLaneRx_time (s : State) (f : LaneReceiver → LaneReceiver) : (s.updLaneRx f).time = s.time := rfl
@[simp] theorem updLaneRx_sched (s : State) (f : LaneReceiver → LaneReceiver) : (s.updLaneRx f).sched = s.sched := rfl
@[simp] theorem updLaneRx_motion (s : State) (f : LaneReceiver → LaneReceiver) : (s.updLaneRx f).motion = s.motion := rfl
@[simp] theorem updLaneRx_dials (s : State) (f : LaneReceiver → LaneReceiver) : (s.updLaneRx f).dials = s.dials := rfl
@[simp] theorem updLaneRx_laneTx (s : State) (f : LaneReceiver → LaneReceiver) : (s.updLaneRx f).laneTx = s.laneTx := rfl
@[simp] theorem updLaneRx_laneRx (s : State) (f : LaneReceiver → LaneReceiver) : (s.updLaneRx f).laneRx = f s.laneRx := rfl
@[simp] theorem updLaneRx_store (s : State) (f : LaneReceiver → LaneReceiver) : (s.updLaneRx f).store = s.store := rfl
@[simp] theorem updLaneRx_scan (s : State) (f : LaneReceiver → LaneReceiver) : (s.updLaneRx f).scan = s.scan := rfl
@[simp] theorem updLaneRx_audio (s : State) (f : LaneReceiver → LaneReceiver) : (s.updLaneRx f).audio = s.audio := rfl
@[simp] theorem updLaneRx_power (s : State) (f : LaneReceiver → LaneReceiver) : (s.updLaneRx f).power = s.power := rfl
@[simp] theorem updLaneRx_port (s : State) (f : LaneReceiver → LaneReceiver) : (s.updLaneRx f).port = s.port := rfl

/-! ### updStore -/

@[simp] theorem updStore_pending (s : State) (f : SliceStore → SliceStore) : (s.updStore f).pending = s.pending := rfl
@[simp] theorem updStore_free (s : State) (f : SliceStore → SliceStore) : (s.updStore f).free = s.free := rfl
@[simp] theorem updStore_pins (s : State) (f : SliceStore → SliceStore) : (s.updStore f).pins = s.pins := rfl
@[simp] theorem updStore_straps (s : State) (f : SliceStore → SliceStore) : (s.updStore f).straps = s.straps := rfl
@[simp] theorem updStore_loader (s : State) (f : SliceStore → SliceStore) : (s.updStore f).loader = s.loader := rfl
@[simp] theorem updStore_spine (s : State) (f : SliceStore → SliceStore) : (s.updStore f).spine = s.spine := rfl
@[simp] theorem updStore_slots (s : State) (f : SliceStore → SliceStore) : (s.updStore f).slots = s.slots := rfl
@[simp] theorem updStore_intake (s : State) (f : SliceStore → SliceStore) : (s.updStore f).intake = s.intake := rfl
@[simp] theorem updStore_cmd (s : State) (f : SliceStore → SliceStore) : (s.updStore f).cmd = s.cmd := rfl
@[simp] theorem updStore_alarms (s : State) (f : SliceStore → SliceStore) : (s.updStore f).alarms = s.alarms := rfl
@[simp] theorem updStore_time (s : State) (f : SliceStore → SliceStore) : (s.updStore f).time = s.time := rfl
@[simp] theorem updStore_sched (s : State) (f : SliceStore → SliceStore) : (s.updStore f).sched = s.sched := rfl
@[simp] theorem updStore_motion (s : State) (f : SliceStore → SliceStore) : (s.updStore f).motion = s.motion := rfl
@[simp] theorem updStore_dials (s : State) (f : SliceStore → SliceStore) : (s.updStore f).dials = s.dials := rfl
@[simp] theorem updStore_laneTx (s : State) (f : SliceStore → SliceStore) : (s.updStore f).laneTx = s.laneTx := rfl
@[simp] theorem updStore_laneRx (s : State) (f : SliceStore → SliceStore) : (s.updStore f).laneRx = s.laneRx := rfl
@[simp] theorem updStore_store (s : State) (f : SliceStore → SliceStore) : (s.updStore f).store = f s.store := rfl
@[simp] theorem updStore_scan (s : State) (f : SliceStore → SliceStore) : (s.updStore f).scan = s.scan := rfl
@[simp] theorem updStore_audio (s : State) (f : SliceStore → SliceStore) : (s.updStore f).audio = s.audio := rfl
@[simp] theorem updStore_power (s : State) (f : SliceStore → SliceStore) : (s.updStore f).power = s.power := rfl
@[simp] theorem updStore_port (s : State) (f : SliceStore → SliceStore) : (s.updStore f).port = s.port := rfl

/-! ### updScan -/

@[simp] theorem updScan_pending (s : State) (f : Scan → Scan) : (s.updScan f).pending = s.pending := rfl
@[simp] theorem updScan_free (s : State) (f : Scan → Scan) : (s.updScan f).free = s.free := rfl
@[simp] theorem updScan_pins (s : State) (f : Scan → Scan) : (s.updScan f).pins = s.pins := rfl
@[simp] theorem updScan_straps (s : State) (f : Scan → Scan) : (s.updScan f).straps = s.straps := rfl
@[simp] theorem updScan_loader (s : State) (f : Scan → Scan) : (s.updScan f).loader = s.loader := rfl
@[simp] theorem updScan_spine (s : State) (f : Scan → Scan) : (s.updScan f).spine = s.spine := rfl
@[simp] theorem updScan_slots (s : State) (f : Scan → Scan) : (s.updScan f).slots = s.slots := rfl
@[simp] theorem updScan_intake (s : State) (f : Scan → Scan) : (s.updScan f).intake = s.intake := rfl
@[simp] theorem updScan_cmd (s : State) (f : Scan → Scan) : (s.updScan f).cmd = s.cmd := rfl
@[simp] theorem updScan_alarms (s : State) (f : Scan → Scan) : (s.updScan f).alarms = s.alarms := rfl
@[simp] theorem updScan_time (s : State) (f : Scan → Scan) : (s.updScan f).time = s.time := rfl
@[simp] theorem updScan_sched (s : State) (f : Scan → Scan) : (s.updScan f).sched = s.sched := rfl
@[simp] theorem updScan_motion (s : State) (f : Scan → Scan) : (s.updScan f).motion = s.motion := rfl
@[simp] theorem updScan_dials (s : State) (f : Scan → Scan) : (s.updScan f).dials = s.dials := rfl
@[simp] theorem updScan_laneTx (s : State) (f : Scan → Scan) : (s.updScan f).laneTx = s.laneTx := rfl
@[simp] theorem updScan_laneRx (s : State) (f : Scan → Scan) : (s.updScan f).laneRx = s.laneRx := rfl
@[simp] theorem updScan_store (s : State) (f : Scan → Scan) : (s.updScan f).store = s.store := rfl
@[simp] theorem updScan_scan (s : State) (f : Scan → Scan) : (s.updScan f).scan = f s.scan := rfl
@[simp] theorem updScan_audio (s : State) (f : Scan → Scan) : (s.updScan f).audio = s.audio := rfl
@[simp] theorem updScan_power (s : State) (f : Scan → Scan) : (s.updScan f).power = s.power := rfl
@[simp] theorem updScan_port (s : State) (f : Scan → Scan) : (s.updScan f).port = s.port := rfl

/-! ### updAudio -/

@[simp] theorem updAudio_pending (s : State) (f : Audio → Audio) : (s.updAudio f).pending = s.pending := rfl
@[simp] theorem updAudio_free (s : State) (f : Audio → Audio) : (s.updAudio f).free = s.free := rfl
@[simp] theorem updAudio_pins (s : State) (f : Audio → Audio) : (s.updAudio f).pins = s.pins := rfl
@[simp] theorem updAudio_straps (s : State) (f : Audio → Audio) : (s.updAudio f).straps = s.straps := rfl
@[simp] theorem updAudio_loader (s : State) (f : Audio → Audio) : (s.updAudio f).loader = s.loader := rfl
@[simp] theorem updAudio_spine (s : State) (f : Audio → Audio) : (s.updAudio f).spine = s.spine := rfl
@[simp] theorem updAudio_slots (s : State) (f : Audio → Audio) : (s.updAudio f).slots = s.slots := rfl
@[simp] theorem updAudio_intake (s : State) (f : Audio → Audio) : (s.updAudio f).intake = s.intake := rfl
@[simp] theorem updAudio_cmd (s : State) (f : Audio → Audio) : (s.updAudio f).cmd = s.cmd := rfl
@[simp] theorem updAudio_alarms (s : State) (f : Audio → Audio) : (s.updAudio f).alarms = s.alarms := rfl
@[simp] theorem updAudio_time (s : State) (f : Audio → Audio) : (s.updAudio f).time = s.time := rfl
@[simp] theorem updAudio_sched (s : State) (f : Audio → Audio) : (s.updAudio f).sched = s.sched := rfl
@[simp] theorem updAudio_motion (s : State) (f : Audio → Audio) : (s.updAudio f).motion = s.motion := rfl
@[simp] theorem updAudio_dials (s : State) (f : Audio → Audio) : (s.updAudio f).dials = s.dials := rfl
@[simp] theorem updAudio_laneTx (s : State) (f : Audio → Audio) : (s.updAudio f).laneTx = s.laneTx := rfl
@[simp] theorem updAudio_laneRx (s : State) (f : Audio → Audio) : (s.updAudio f).laneRx = s.laneRx := rfl
@[simp] theorem updAudio_store (s : State) (f : Audio → Audio) : (s.updAudio f).store = s.store := rfl
@[simp] theorem updAudio_scan (s : State) (f : Audio → Audio) : (s.updAudio f).scan = s.scan := rfl
@[simp] theorem updAudio_audio (s : State) (f : Audio → Audio) : (s.updAudio f).audio = f s.audio := rfl
@[simp] theorem updAudio_power (s : State) (f : Audio → Audio) : (s.updAudio f).power = s.power := rfl
@[simp] theorem updAudio_port (s : State) (f : Audio → Audio) : (s.updAudio f).port = s.port := rfl

/-! ### updPower -/

@[simp] theorem updPower_pending (s : State) (f : Power → Power) : (s.updPower f).pending = s.pending := rfl
@[simp] theorem updPower_free (s : State) (f : Power → Power) : (s.updPower f).free = s.free := rfl
@[simp] theorem updPower_pins (s : State) (f : Power → Power) : (s.updPower f).pins = s.pins := rfl
@[simp] theorem updPower_straps (s : State) (f : Power → Power) : (s.updPower f).straps = s.straps := rfl
@[simp] theorem updPower_loader (s : State) (f : Power → Power) : (s.updPower f).loader = s.loader := rfl
@[simp] theorem updPower_spine (s : State) (f : Power → Power) : (s.updPower f).spine = s.spine := rfl
@[simp] theorem updPower_slots (s : State) (f : Power → Power) : (s.updPower f).slots = s.slots := rfl
@[simp] theorem updPower_intake (s : State) (f : Power → Power) : (s.updPower f).intake = s.intake := rfl
@[simp] theorem updPower_cmd (s : State) (f : Power → Power) : (s.updPower f).cmd = s.cmd := rfl
@[simp] theorem updPower_alarms (s : State) (f : Power → Power) : (s.updPower f).alarms = s.alarms := rfl
@[simp] theorem updPower_time (s : State) (f : Power → Power) : (s.updPower f).time = s.time := rfl
@[simp] theorem updPower_sched (s : State) (f : Power → Power) : (s.updPower f).sched = s.sched := rfl
@[simp] theorem updPower_motion (s : State) (f : Power → Power) : (s.updPower f).motion = s.motion := rfl
@[simp] theorem updPower_dials (s : State) (f : Power → Power) : (s.updPower f).dials = s.dials := rfl
@[simp] theorem updPower_laneTx (s : State) (f : Power → Power) : (s.updPower f).laneTx = s.laneTx := rfl
@[simp] theorem updPower_laneRx (s : State) (f : Power → Power) : (s.updPower f).laneRx = s.laneRx := rfl
@[simp] theorem updPower_store (s : State) (f : Power → Power) : (s.updPower f).store = s.store := rfl
@[simp] theorem updPower_scan (s : State) (f : Power → Power) : (s.updPower f).scan = s.scan := rfl
@[simp] theorem updPower_audio (s : State) (f : Power → Power) : (s.updPower f).audio = s.audio := rfl
@[simp] theorem updPower_power (s : State) (f : Power → Power) : (s.updPower f).power = f s.power := rfl
@[simp] theorem updPower_port (s : State) (f : Power → Power) : (s.updPower f).port = s.port := rfl

/-! ### updPort -/

@[simp] theorem updPort_pending (s : State) (f : LocalPort → LocalPort) : (s.updPort f).pending = s.pending := rfl
@[simp] theorem updPort_free (s : State) (f : LocalPort → LocalPort) : (s.updPort f).free = s.free := rfl
@[simp] theorem updPort_pins (s : State) (f : LocalPort → LocalPort) : (s.updPort f).pins = s.pins := rfl
@[simp] theorem updPort_straps (s : State) (f : LocalPort → LocalPort) : (s.updPort f).straps = s.straps := rfl
@[simp] theorem updPort_loader (s : State) (f : LocalPort → LocalPort) : (s.updPort f).loader = s.loader := rfl
@[simp] theorem updPort_spine (s : State) (f : LocalPort → LocalPort) : (s.updPort f).spine = s.spine := rfl
@[simp] theorem updPort_slots (s : State) (f : LocalPort → LocalPort) : (s.updPort f).slots = s.slots := rfl
@[simp] theorem updPort_intake (s : State) (f : LocalPort → LocalPort) : (s.updPort f).intake = s.intake := rfl
@[simp] theorem updPort_cmd (s : State) (f : LocalPort → LocalPort) : (s.updPort f).cmd = s.cmd := rfl
@[simp] theorem updPort_alarms (s : State) (f : LocalPort → LocalPort) : (s.updPort f).alarms = s.alarms := rfl
@[simp] theorem updPort_time (s : State) (f : LocalPort → LocalPort) : (s.updPort f).time = s.time := rfl
@[simp] theorem updPort_sched (s : State) (f : LocalPort → LocalPort) : (s.updPort f).sched = s.sched := rfl
@[simp] theorem updPort_motion (s : State) (f : LocalPort → LocalPort) : (s.updPort f).motion = s.motion := rfl
@[simp] theorem updPort_dials (s : State) (f : LocalPort → LocalPort) : (s.updPort f).dials = s.dials := rfl
@[simp] theorem updPort_laneTx (s : State) (f : LocalPort → LocalPort) : (s.updPort f).laneTx = s.laneTx := rfl
@[simp] theorem updPort_laneRx (s : State) (f : LocalPort → LocalPort) : (s.updPort f).laneRx = s.laneRx := rfl
@[simp] theorem updPort_store (s : State) (f : LocalPort → LocalPort) : (s.updPort f).store = s.store := rfl
@[simp] theorem updPort_scan (s : State) (f : LocalPort → LocalPort) : (s.updPort f).scan = s.scan := rfl
@[simp] theorem updPort_audio (s : State) (f : LocalPort → LocalPort) : (s.updPort f).audio = s.audio := rfl
@[simp] theorem updPort_power (s : State) (f : LocalPort → LocalPort) : (s.updPort f).power = s.power := rfl
@[simp] theorem updPort_port (s : State) (f : LocalPort → LocalPort) : (s.updPort f).port = f s.port := rfl

/-! ### useFree -/

@[simp] theorem useFree_pending (s : State) : s.useFree.pending = s.pending := rfl
@[simp] theorem useFree_free (s : State) : s.useFree.free = s.free + 1 := rfl
@[simp] theorem useFree_pins (s : State) : s.useFree.pins = s.pins := rfl
@[simp] theorem useFree_straps (s : State) : s.useFree.straps = s.straps := rfl
@[simp] theorem useFree_loader (s : State) : s.useFree.loader = s.loader := rfl
@[simp] theorem useFree_spine (s : State) : s.useFree.spine = s.spine := rfl
@[simp] theorem useFree_slots (s : State) : s.useFree.slots = s.slots := rfl
@[simp] theorem useFree_intake (s : State) : s.useFree.intake = s.intake := rfl
@[simp] theorem useFree_cmd (s : State) : s.useFree.cmd = s.cmd := rfl
@[simp] theorem useFree_alarms (s : State) : s.useFree.alarms = s.alarms := rfl
@[simp] theorem useFree_time (s : State) : s.useFree.time = s.time := rfl
@[simp] theorem useFree_sched (s : State) : s.useFree.sched = s.sched := rfl
@[simp] theorem useFree_motion (s : State) : s.useFree.motion = s.motion := rfl
@[simp] theorem useFree_dials (s : State) : s.useFree.dials = s.dials := rfl
@[simp] theorem useFree_laneTx (s : State) : s.useFree.laneTx = s.laneTx := rfl
@[simp] theorem useFree_laneRx (s : State) : s.useFree.laneRx = s.laneRx := rfl
@[simp] theorem useFree_store (s : State) : s.useFree.store = s.store := rfl
@[simp] theorem useFree_scan (s : State) : s.useFree.scan = s.scan := rfl
@[simp] theorem useFree_audio (s : State) : s.useFree.audio = s.audio := rfl
@[simp] theorem useFree_power (s : State) : s.useFree.power = s.power := rfl
@[simp] theorem useFree_port (s : State) : s.useFree.port = s.port := rfl

end Sys2Proof.Machine
end

