-- ==== Sys2Proof/Laws/Frames.lean ====
section
/-! SUPPORT. The frame of each shared operation: the blocks it leaves as they were. A block not named in a lemma is one
the operation may change. -/

set_option linter.unusedTactic false
set_option linter.unnecessarySeqFocus false
set_option linter.unreachableTactic false

namespace Sys2Proof.Machine

/-! ### Slots, outcomes and alarms -/

@[simp] theorem updSlot_frame (n : SlotName) (f : Slot → Slot) (s : State) :
    (s.updSlot n f).pending = s.pending ∧ (s.updSlot n f).free = s.free ∧ (s.updSlot n f).pins = s.pins ∧
    (s.updSlot n f).straps = s.straps ∧ (s.updSlot n f).loader = s.loader ∧ (s.updSlot n f).spine = s.spine ∧
    (s.updSlot n f).intake = s.intake ∧ (s.updSlot n f).cmd = s.cmd ∧ (s.updSlot n f).alarms = s.alarms ∧
    (s.updSlot n f).time = s.time ∧ (s.updSlot n f).sched = s.sched ∧ (s.updSlot n f).motion = s.motion ∧
    (s.updSlot n f).dials = s.dials ∧ (s.updSlot n f).laneTx = s.laneTx ∧ (s.updSlot n f).laneRx = s.laneRx ∧
    (s.updSlot n f).store = s.store ∧ (s.updSlot n f).scan = s.scan ∧ (s.updSlot n f).audio = s.audio ∧
    (s.updSlot n f).power = s.power ∧ (s.updSlot n f).port = s.port := by
  unfold State.updSlot; (try dsimp only); (repeat' split) <;> simp

@[simp] theorem countRefused_frame (n : SlotName) (s : State) :
    (countRefused n s).pending = s.pending ∧ (countRefused n s).free = s.free ∧ (countRefused n s).pins = s.pins ∧
    (countRefused n s).straps = s.straps ∧ (countRefused n s).loader = s.loader ∧
    (countRefused n s).spine = s.spine ∧ (countRefused n s).intake = s.intake ∧ (countRefused n s).cmd = s.cmd ∧
    (countRefused n s).alarms = s.alarms ∧ (countRefused n s).time = s.time ∧ (countRefused n s).sched = s.sched ∧
    (countRefused n s).motion = s.motion ∧ (countRefused n s).dials = s.dials ∧
    (countRefused n s).laneTx = s.laneTx ∧ (countRefused n s).laneRx = s.laneRx ∧
    (countRefused n s).store = s.store ∧ (countRefused n s).scan = s.scan ∧ (countRefused n s).audio = s.audio ∧
    (countRefused n s).power = s.power ∧ (countRefused n s).port = s.port := by
  unfold countRefused; (try dsimp only); (repeat' split) <;> simp

@[simp] theorem loadSlot_frame (n : SlotName) (c : Content) (s : State) :
    (loadSlot n c s).pending = s.pending ∧ (loadSlot n c s).free = s.free ∧ (loadSlot n c s).pins = s.pins ∧
    (loadSlot n c s).straps = s.straps ∧ (loadSlot n c s).loader = s.loader ∧ (loadSlot n c s).spine = s.spine ∧
    (loadSlot n c s).intake = s.intake ∧ (loadSlot n c s).cmd = s.cmd ∧ (loadSlot n c s).alarms = s.alarms ∧
    (loadSlot n c s).time = s.time ∧ (loadSlot n c s).sched = s.sched ∧ (loadSlot n c s).motion = s.motion ∧
    (loadSlot n c s).dials = s.dials ∧ (loadSlot n c s).laneTx = s.laneTx ∧ (loadSlot n c s).laneRx = s.laneRx ∧
    (loadSlot n c s).store = s.store ∧ (loadSlot n c s).scan = s.scan ∧ (loadSlot n c s).audio = s.audio ∧
    (loadSlot n c s).power = s.power ∧ (loadSlot n c s).port = s.port := by
  unfold loadSlot; (try dsimp only); (repeat' split) <;> simp

@[simp] theorem pushOutcome_frame (o : SendOutcome) (a : BitVec 8) (s : State) :
    (pushOutcome o a s).pending = s.pending ∧ (pushOutcome o a s).free = s.free ∧
    (pushOutcome o a s).pins = s.pins ∧ (pushOutcome o a s).straps = s.straps ∧
    (pushOutcome o a s).loader = s.loader ∧ (pushOutcome o a s).spine = s.spine ∧
    (pushOutcome o a s).slots = s.slots ∧ (pushOutcome o a s).intake = s.intake ∧
    (pushOutcome o a s).cmd = s.cmd ∧ (pushOutcome o a s).alarms = s.alarms ∧ (pushOutcome o a s).time = s.time ∧
    (pushOutcome o a s).sched = s.sched ∧ (pushOutcome o a s).motion = s.motion ∧
    (pushOutcome o a s).dials = s.dials ∧ (pushOutcome o a s).laneTx = s.laneTx ∧
    (pushOutcome o a s).laneRx = s.laneRx ∧ (pushOutcome o a s).store = s.store ∧
    (pushOutcome o a s).scan = s.scan ∧ (pushOutcome o a s).audio = s.audio ∧
    (pushOutcome o a s).power = s.power := by
  unfold pushOutcome; (try dsimp only); (repeat' split) <;> simp

@[simp] theorem replyDone_frame (s : State) :
    (replyDone s).pending = s.pending ∧ (replyDone s).free = s.free ∧ (replyDone s).pins = s.pins ∧
    (replyDone s).straps = s.straps ∧ (replyDone s).spine = s.spine ∧ (replyDone s).slots = s.slots ∧
    (replyDone s).intake = s.intake ∧ (replyDone s).alarms = s.alarms ∧ (replyDone s).time = s.time ∧
    (replyDone s).sched = s.sched ∧ (replyDone s).motion = s.motion ∧ (replyDone s).dials = s.dials ∧
    (replyDone s).laneTx = s.laneTx ∧ (replyDone s).laneRx = s.laneRx ∧ (replyDone s).store = s.store ∧
    (replyDone s).scan = s.scan ∧ (replyDone s).audio = s.audio ∧ (replyDone s).power = s.power ∧
    (replyDone s).port = s.port := by
  unfold replyDone; (try dsimp only); (repeat' split) <;> simp

@[simp] theorem clearSlots_frame (s : State) :
    (clearSlots s).pending = s.pending ∧ (clearSlots s).free = s.free ∧ (clearSlots s).pins = s.pins ∧
    (clearSlots s).straps = s.straps ∧ (clearSlots s).spine = s.spine ∧ (clearSlots s).intake = s.intake ∧
    (clearSlots s).alarms = s.alarms ∧ (clearSlots s).time = s.time ∧ (clearSlots s).sched = s.sched ∧
    (clearSlots s).motion = s.motion ∧ (clearSlots s).dials = s.dials ∧ (clearSlots s).laneTx = s.laneTx ∧
    (clearSlots s).laneRx = s.laneRx ∧ (clearSlots s).store = s.store ∧ (clearSlots s).scan = s.scan ∧
    (clearSlots s).audio = s.audio ∧ (clearSlots s).power = s.power := by
  unfold clearSlots; (try dsimp only); (repeat' split) <;> simp

@[simp] theorem loadAlarm_frame (s : State) :
    (loadAlarm s).pending = s.pending ∧ (loadAlarm s).free = s.free ∧ (loadAlarm s).pins = s.pins ∧
    (loadAlarm s).straps = s.straps ∧ (loadAlarm s).loader = s.loader ∧ (loadAlarm s).spine = s.spine ∧
    (loadAlarm s).intake = s.intake ∧ (loadAlarm s).cmd = s.cmd ∧ (loadAlarm s).alarms = s.alarms ∧
    (loadAlarm s).time = s.time ∧ (loadAlarm s).sched = s.sched ∧ (loadAlarm s).motion = s.motion ∧
    (loadAlarm s).dials = s.dials ∧ (loadAlarm s).laneTx = s.laneTx ∧ (loadAlarm s).laneRx = s.laneRx ∧
    (loadAlarm s).store = s.store ∧ (loadAlarm s).scan = s.scan ∧ (loadAlarm s).audio = s.audio ∧
    (loadAlarm s).power = s.power ∧ (loadAlarm s).port = s.port := by
  unfold loadAlarm; (try dsimp only); (repeat' split) <;> simp

@[simp] theorem latch_frame (f : Flag) (s : State) :
    (latch f s).pending = s.pending ∧ (latch f s).free = s.free ∧ (latch f s).pins = s.pins ∧
    (latch f s).straps = s.straps ∧ (latch f s).loader = s.loader ∧ (latch f s).spine = s.spine ∧
    (latch f s).intake = s.intake ∧ (latch f s).cmd = s.cmd ∧ (latch f s).time = s.time ∧
    (latch f s).sched = s.sched ∧ (latch f s).motion = s.motion ∧ (latch f s).dials = s.dials ∧
    (latch f s).laneTx = s.laneTx ∧ (latch f s).laneRx = s.laneRx ∧ (latch f s).store = s.store ∧
    (latch f s).scan = s.scan ∧ (latch f s).audio = s.audio ∧ (latch f s).power = s.power ∧
    (latch f s).port = s.port := by
  unfold latch; (try dsimp only); (repeat' split) <;> simp

@[simp] theorem arise_frame (f : Flag) (s : State) :
    (arise f s).pending = s.pending ∧ (arise f s).free = s.free ∧ (arise f s).pins = s.pins ∧
    (arise f s).straps = s.straps ∧ (arise f s).loader = s.loader ∧ (arise f s).spine = s.spine ∧
    (arise f s).intake = s.intake ∧ (arise f s).cmd = s.cmd ∧ (arise f s).time = s.time ∧
    (arise f s).sched = s.sched ∧ (arise f s).motion = s.motion ∧ (arise f s).dials = s.dials ∧
    (arise f s).laneTx = s.laneTx ∧ (arise f s).laneRx = s.laneRx ∧ (arise f s).store = s.store ∧
    (arise f s).scan = s.scan ∧ (arise f s).audio = s.audio ∧ (arise f s).power = s.power ∧
    (arise f s).port = s.port := by
  unfold arise; (try dsimp only); (repeat' split) <;> simp

@[simp] theorem endCondition_frame (f : Flag) (s : State) :
    (endCondition f s).pending = s.pending ∧ (endCondition f s).free = s.free ∧ (endCondition f s).pins = s.pins ∧
    (endCondition f s).straps = s.straps ∧ (endCondition f s).loader = s.loader ∧
    (endCondition f s).spine = s.spine ∧ (endCondition f s).slots = s.slots ∧
    (endCondition f s).intake = s.intake ∧ (endCondition f s).cmd = s.cmd ∧ (endCondition f s).time = s.time ∧
    (endCondition f s).sched = s.sched ∧ (endCondition f s).motion = s.motion ∧
    (endCondition f s).dials = s.dials ∧ (endCondition f s).laneTx = s.laneTx ∧
    (endCondition f s).laneRx = s.laneRx ∧ (endCondition f s).store = s.store ∧ (endCondition f s).scan = s.scan ∧
    (endCondition f s).audio = s.audio ∧ (endCondition f s).power = s.power ∧ (endCondition f s).port = s.port := by
  unfold endCondition; (try dsimp only); (repeat' split) <;> simp

@[simp] theorem setCondition_frame (f : Flag) (p : Bool) (s : State) :
    (setCondition f p s).pending = s.pending ∧ (setCondition f p s).free = s.free ∧
    (setCondition f p s).pins = s.pins ∧ (setCondition f p s).straps = s.straps ∧
    (setCondition f p s).loader = s.loader ∧ (setCondition f p s).spine = s.spine ∧
    (setCondition f p s).intake = s.intake ∧ (setCondition f p s).cmd = s.cmd ∧
    (setCondition f p s).time = s.time ∧ (setCondition f p s).sched = s.sched ∧
    (setCondition f p s).motion = s.motion ∧ (setCondition f p s).dials = s.dials ∧
    (setCondition f p s).laneTx = s.laneTx ∧ (setCondition f p s).laneRx = s.laneRx ∧
    (setCondition f p s).store = s.store ∧ (setCondition f p s).scan = s.scan ∧
    (setCondition f p s).audio = s.audio ∧ (setCondition f p s).power = s.power ∧
    (setCondition f p s).port = s.port := by
  unfold setCondition; (try dsimp only); (repeat' split) <;> simp

@[simp] theorem alarmSent_frame (b : List Byte) (s : State) :
    (alarmSent b s).pending = s.pending ∧ (alarmSent b s).free = s.free ∧ (alarmSent b s).pins = s.pins ∧
    (alarmSent b s).straps = s.straps ∧ (alarmSent b s).loader = s.loader ∧ (alarmSent b s).spine = s.spine ∧
    (alarmSent b s).slots = s.slots ∧ (alarmSent b s).intake = s.intake ∧ (alarmSent b s).cmd = s.cmd ∧
    (alarmSent b s).time = s.time ∧ (alarmSent b s).sched = s.sched ∧ (alarmSent b s).motion = s.motion ∧
    (alarmSent b s).dials = s.dials ∧ (alarmSent b s).laneTx = s.laneTx ∧ (alarmSent b s).laneRx = s.laneRx ∧
    (alarmSent b s).store = s.store ∧ (alarmSent b s).scan = s.scan ∧ (alarmSent b s).audio = s.audio ∧
    (alarmSent b s).power = s.power ∧ (alarmSent b s).port = s.port := by
  unfold alarmSent; (try dsimp only); (repeat' split) <;> simp

@[simp] theorem restartReplyDone_frame (s : State) :
    (restartReplyDone s).pending = s.pending ∧ (restartReplyDone s).free = s.free ∧
    (restartReplyDone s).pins = s.pins ∧ (restartReplyDone s).straps = s.straps ∧
    (restartReplyDone s).spine = s.spine ∧ (restartReplyDone s).slots = s.slots ∧
    (restartReplyDone s).intake = s.intake ∧ (restartReplyDone s).alarms = s.alarms ∧
    (restartReplyDone s).time = s.time ∧ (restartReplyDone s).sched = s.sched ∧
    (restartReplyDone s).motion = s.motion ∧ (restartReplyDone s).dials = s.dials ∧
    (restartReplyDone s).laneTx = s.laneTx ∧ (restartReplyDone s).laneRx = s.laneRx ∧
    (restartReplyDone s).store = s.store ∧ (restartReplyDone s).scan = s.scan ∧
    (restartReplyDone s).audio = s.audio ∧ (restartReplyDone s).power = s.power ∧
    (restartReplyDone s).port = s.port := by
  unfold restartReplyDone; (try dsimp only); (repeat' split) <;> simp

@[simp] theorem entryFreed_frame (e : QueueEntry) (s : State) :
    (entryFreed e s).pending = s.pending ∧ (entryFreed e s).free = s.free ∧ (entryFreed e s).pins = s.pins ∧
    (entryFreed e s).straps = s.straps ∧ (entryFreed e s).spine = s.spine ∧ (entryFreed e s).slots = s.slots ∧
    (entryFreed e s).intake = s.intake ∧ (entryFreed e s).alarms = s.alarms ∧ (entryFreed e s).time = s.time ∧
    (entryFreed e s).sched = s.sched ∧ (entryFreed e s).motion = s.motion ∧ (entryFreed e s).dials = s.dials ∧
    (entryFreed e s).laneTx = s.laneTx ∧ (entryFreed e s).laneRx = s.laneRx ∧ (entryFreed e s).store = s.store ∧
    (entryFreed e s).scan = s.scan ∧ (entryFreed e s).audio = s.audio ∧ (entryFreed e s).power = s.power ∧
    (entryFreed e s).port = s.port := by
  unfold entryFreed; (try dsimp only); (repeat' split) <;> simp

/-! ### Slice store and lane receiver -/

@[simp] theorem mapFault_frame (k : MapFaultKind) (e : Eye) (i : Byte) (t : Tag) (s : State) :
    (mapFault k e i t s).pending = s.pending ∧ (mapFault k e i t s).free = s.free ∧
    (mapFault k e i t s).pins = s.pins ∧ (mapFault k e i t s).straps = s.straps ∧
    (mapFault k e i t s).loader = s.loader ∧ (mapFault k e i t s).spine = s.spine ∧
    (mapFault k e i t s).intake = s.intake ∧ (mapFault k e i t s).cmd = s.cmd ∧
    (mapFault k e i t s).time = s.time ∧ (mapFault k e i t s).sched = s.sched ∧
    (mapFault k e i t s).motion = s.motion ∧ (mapFault k e i t s).dials = s.dials ∧
    (mapFault k e i t s).laneTx = s.laneTx ∧ (mapFault k e i t s).laneRx = s.laneRx ∧
    (mapFault k e i t s).scan = s.scan ∧ (mapFault k e i t s).audio = s.audio ∧
    (mapFault k e i t s).power = s.power ∧ (mapFault k e i t s).port = s.port := by
  unfold mapFault; (try dsimp only); (repeat' split) <;> simp

@[simp] theorem voidTake_frame (e : Eye) (i : Nat) (s : State) :
    (voidTake e i s).pending = s.pending ∧ (voidTake e i s).free = s.free ∧ (voidTake e i s).pins = s.pins ∧
    (voidTake e i s).straps = s.straps ∧ (voidTake e i s).loader = s.loader ∧ (voidTake e i s).spine = s.spine ∧
    (voidTake e i s).slots = s.slots ∧ (voidTake e i s).intake = s.intake ∧ (voidTake e i s).cmd = s.cmd ∧
    (voidTake e i s).alarms = s.alarms ∧ (voidTake e i s).time = s.time ∧ (voidTake e i s).sched = s.sched ∧
    (voidTake e i s).motion = s.motion ∧ (voidTake e i s).dials = s.dials ∧ (voidTake e i s).laneTx = s.laneTx ∧
    (voidTake e i s).laneRx = s.laneRx ∧ (voidTake e i s).scan = s.scan ∧ (voidTake e i s).audio = s.audio ∧
    (voidTake e i s).power = s.power ∧ (voidTake e i s).port = s.port := by
  unfold voidTake; (try dsimp only); (repeat' split) <;> simp

@[simp] theorem unbufferedTake_frame (e : Eye) (i : Nat) (t : Tag) (s : State) :
    (unbufferedTake e i t s).pending = s.pending ∧ (unbufferedTake e i t s).free = s.free ∧
    (unbufferedTake e i t s).pins = s.pins ∧ (unbufferedTake e i t s).straps = s.straps ∧
    (unbufferedTake e i t s).loader = s.loader ∧ (unbufferedTake e i t s).spine = s.spine ∧
    (unbufferedTake e i t s).intake = s.intake ∧ (unbufferedTake e i t s).cmd = s.cmd ∧
    (unbufferedTake e i t s).time = s.time ∧ (unbufferedTake e i t s).sched = s.sched ∧
    (unbufferedTake e i t s).motion = s.motion ∧ (unbufferedTake e i t s).dials = s.dials ∧
    (unbufferedTake e i t s).laneTx = s.laneTx ∧ (unbufferedTake e i t s).laneRx = s.laneRx ∧
    (unbufferedTake e i t s).scan = s.scan ∧ (unbufferedTake e i t s).audio = s.audio ∧
    (unbufferedTake e i t s).power = s.power ∧ (unbufferedTake e i t s).port = s.port := by
  unfold unbufferedTake; (try dsimp only); (repeat' split) <;> simp

@[simp] theorem pixelTake_frame (e : Eye) (i : Nat) (t : Tag) (s : State) :
    (pixelTake e i t s).pending = s.pending ∧ (pixelTake e i t s).free = s.free ∧
    (pixelTake e i t s).pins = s.pins ∧ (pixelTake e i t s).straps = s.straps ∧
    (pixelTake e i t s).loader = s.loader ∧ (pixelTake e i t s).spine = s.spine ∧
    (pixelTake e i t s).intake = s.intake ∧ (pixelTake e i t s).cmd = s.cmd ∧ (pixelTake e i t s).time = s.time ∧
    (pixelTake e i t s).sched = s.sched ∧ (pixelTake e i t s).motion = s.motion ∧
    (pixelTake e i t s).dials = s.dials ∧ (pixelTake e i t s).laneTx = s.laneTx ∧
    (pixelTake e i t s).laneRx = s.laneRx ∧ (pixelTake e i t s).scan = s.scan ∧
    (pixelTake e i t s).audio = s.audio ∧ (pixelTake e i t s).power = s.power ∧
    (pixelTake e i t s).port = s.port := by
  unfold pixelTake; (try dsimp only); (repeat' split) <;> simp

@[simp] theorem updReceiver_frame (e : Eye) (f : ReceiverEye → ReceiverEye) (s : State) :
    (s.updReceiver e f).pending = s.pending ∧ (s.updReceiver e f).free = s.free ∧
    (s.updReceiver e f).pins = s.pins ∧ (s.updReceiver e f).straps = s.straps ∧
    (s.updReceiver e f).loader = s.loader ∧ (s.updReceiver e f).spine = s.spine ∧
    (s.updReceiver e f).slots = s.slots ∧ (s.updReceiver e f).intake = s.intake ∧
    (s.updReceiver e f).cmd = s.cmd ∧ (s.updReceiver e f).alarms = s.alarms ∧ (s.updReceiver e f).time = s.time ∧
    (s.updReceiver e f).sched = s.sched ∧ (s.updReceiver e f).motion = s.motion ∧
    (s.updReceiver e f).dials = s.dials ∧ (s.updReceiver e f).laneTx = s.laneTx ∧
    (s.updReceiver e f).store = s.store ∧ (s.updReceiver e f).scan = s.scan ∧
    (s.updReceiver e f).audio = s.audio ∧ (s.updReceiver e f).power = s.power ∧
    (s.updReceiver e f).port = s.port := by
  unfold State.updReceiver; (try dsimp only); (repeat' split) <;> simp

@[simp] theorem loadCredit_frame (s : State) :
    (loadCredit s).pending = s.pending ∧ (loadCredit s).free = s.free ∧ (loadCredit s).pins = s.pins ∧
    (loadCredit s).straps = s.straps ∧ (loadCredit s).loader = s.loader ∧ (loadCredit s).spine = s.spine ∧
    (loadCredit s).intake = s.intake ∧ (loadCredit s).cmd = s.cmd ∧ (loadCredit s).alarms = s.alarms ∧
    (loadCredit s).time = s.time ∧ (loadCredit s).sched = s.sched ∧ (loadCredit s).motion = s.motion ∧
    (loadCredit s).dials = s.dials ∧ (loadCredit s).laneTx = s.laneTx ∧ (loadCredit s).store = s.store ∧
    (loadCredit s).scan = s.scan ∧ (loadCredit s).audio = s.audio ∧ (loadCredit s).power = s.power ∧
    (loadCredit s).port = s.port := by
  unfold loadCredit; (try dsimp only); (repeat' split) <;> simp

@[simp] theorem recomputeHorizon_frame (e : Eye) (s : State) :
    (recomputeHorizon e s).pending = s.pending ∧ (recomputeHorizon e s).free = s.free ∧
    (recomputeHorizon e s).pins = s.pins ∧ (recomputeHorizon e s).straps = s.straps ∧
    (recomputeHorizon e s).loader = s.loader ∧ (recomputeHorizon e s).spine = s.spine ∧
    (recomputeHorizon e s).intake = s.intake ∧ (recomputeHorizon e s).cmd = s.cmd ∧
    (recomputeHorizon e s).alarms = s.alarms ∧ (recomputeHorizon e s).time = s.time ∧
    (recomputeHorizon e s).sched = s.sched ∧ (recomputeHorizon e s).motion = s.motion ∧
    (recomputeHorizon e s).dials = s.dials ∧ (recomputeHorizon e s).laneTx = s.laneTx ∧
    (recomputeHorizon e s).store = s.store ∧ (recomputeHorizon e s).scan = s.scan ∧
    (recomputeHorizon e s).audio = s.audio ∧ (recomputeHorizon e s).power = s.power ∧
    (recomputeHorizon e s).port = s.port := by
  unfold recomputeHorizon; (try dsimp only); (repeat' split) <;> simp

@[simp] theorem openSlice_frame (e : Eye) (i : Nat) (s : State) :
    (openSlice e i s).pending = s.pending ∧ (openSlice e i s).free = s.free ∧ (openSlice e i s).pins = s.pins ∧
    (openSlice e i s).straps = s.straps ∧ (openSlice e i s).loader = s.loader ∧
    (openSlice e i s).spine = s.spine ∧ (openSlice e i s).intake = s.intake ∧ (openSlice e i s).cmd = s.cmd ∧
    (openSlice e i s).alarms = s.alarms ∧ (openSlice e i s).time = s.time ∧ (openSlice e i s).sched = s.sched ∧
    (openSlice e i s).motion = s.motion ∧ (openSlice e i s).dials = s.dials ∧
    (openSlice e i s).laneTx = s.laneTx ∧ (openSlice e i s).scan = s.scan ∧ (openSlice e i s).audio = s.audio ∧
    (openSlice e i s).power = s.power ∧ (openSlice e i s).port = s.port := by
  unfold openSlice; (try dsimp only); (repeat' split) <;> simp

@[simp] theorem advance_frame (e : Eye) (s : State) :
    (advance e s).pending = s.pending ∧ (advance e s).free = s.free ∧ (advance e s).pins = s.pins ∧
    (advance e s).straps = s.straps ∧ (advance e s).loader = s.loader ∧ (advance e s).spine = s.spine ∧
    (advance e s).slots = s.slots ∧ (advance e s).intake = s.intake ∧ (advance e s).cmd = s.cmd ∧
    (advance e s).alarms = s.alarms ∧ (advance e s).time = s.time ∧ (advance e s).sched = s.sched ∧
    (advance e s).motion = s.motion ∧ (advance e s).dials = s.dials ∧ (advance e s).laneTx = s.laneTx ∧
    (advance e s).store = s.store ∧ (advance e s).scan = s.scan ∧ (advance e s).audio = s.audio ∧
    (advance e s).power = s.power ∧ (advance e s).port = s.port := by
  unfold advance; (try dsimp only); (repeat' split) <;> simp

@[simp] theorem voidPositions_frame (e : Eye) (n : Nat) (s : State) :
    (voidPositions e n s).pending = s.pending ∧ (voidPositions e n s).free = s.free ∧
    (voidPositions e n s).pins = s.pins ∧ (voidPositions e n s).straps = s.straps ∧
    (voidPositions e n s).loader = s.loader ∧ (voidPositions e n s).spine = s.spine ∧
    (voidPositions e n s).slots = s.slots ∧ (voidPositions e n s).intake = s.intake ∧
    (voidPositions e n s).cmd = s.cmd ∧ (voidPositions e n s).alarms = s.alarms ∧
    (voidPositions e n s).time = s.time ∧ (voidPositions e n s).sched = s.sched ∧
    (voidPositions e n s).motion = s.motion ∧ (voidPositions e n s).dials = s.dials ∧
    (voidPositions e n s).laneTx = s.laneTx ∧ (voidPositions e n s).scan = s.scan ∧
    (voidPositions e n s).audio = s.audio ∧ (voidPositions e n s).power = s.power ∧
    (voidPositions e n s).port = s.port := by
  induction n generalizing s with
  | zero => simp [voidPositions]
  | succ n ih => simp [voidPositions, ih]

@[simp] theorem takePacket_frame (e : Eye) (i : Nat) (v : Bool) (t : Tag) (s : State) :
    (takePacket e i v t s).pending = s.pending ∧ (takePacket e i v t s).free = s.free ∧
    (takePacket e i v t s).pins = s.pins ∧ (takePacket e i v t s).straps = s.straps ∧
    (takePacket e i v t s).loader = s.loader ∧ (takePacket e i v t s).spine = s.spine ∧
    (takePacket e i v t s).intake = s.intake ∧ (takePacket e i v t s).cmd = s.cmd ∧
    (takePacket e i v t s).time = s.time ∧ (takePacket e i v t s).sched = s.sched ∧
    (takePacket e i v t s).motion = s.motion ∧ (takePacket e i v t s).dials = s.dials ∧
    (takePacket e i v t s).laneTx = s.laneTx ∧ (takePacket e i v t s).scan = s.scan ∧
    (takePacket e i v t s).audio = s.audio ∧ (takePacket e i v t s).power = s.power ∧
    (takePacket e i v t s).port = s.port := by
  unfold takePacket; (try dsimp only); (repeat' split) <;> simp

@[simp] theorem endArriving_frame (p : Arriving) (r : PixelRun) (b : Bool) (s : State) :
    (endArriving p r b s).pending = s.pending ∧ (endArriving p r b s).free = s.free ∧
    (endArriving p r b s).pins = s.pins ∧ (endArriving p r b s).straps = s.straps ∧
    (endArriving p r b s).loader = s.loader ∧ (endArriving p r b s).spine = s.spine ∧
    (endArriving p r b s).slots = s.slots ∧ (endArriving p r b s).intake = s.intake ∧
    (endArriving p r b s).cmd = s.cmd ∧ (endArriving p r b s).alarms = s.alarms ∧
    (endArriving p r b s).time = s.time ∧ (endArriving p r b s).sched = s.sched ∧
    (endArriving p r b s).motion = s.motion ∧ (endArriving p r b s).dials = s.dials ∧
    (endArriving p r b s).laneTx = s.laneTx ∧ (endArriving p r b s).scan = s.scan ∧
    (endArriving p r b s).audio = s.audio ∧ (endArriving p r b s).power = s.power ∧
    (endArriving p r b s).port = s.port := by
  unfold endArriving; (try dsimp only); (repeat' split) <;> simp

@[simp] theorem cutArriving_frame (r : PixelRun) (s : State) :
    (cutArriving r s).pending = s.pending ∧ (cutArriving r s).free = s.free ∧ (cutArriving r s).pins = s.pins ∧
    (cutArriving r s).straps = s.straps ∧ (cutArriving r s).loader = s.loader ∧
    (cutArriving r s).spine = s.spine ∧ (cutArriving r s).slots = s.slots ∧ (cutArriving r s).intake = s.intake ∧
    (cutArriving r s).cmd = s.cmd ∧ (cutArriving r s).alarms = s.alarms ∧ (cutArriving r s).time = s.time ∧
    (cutArriving r s).sched = s.sched ∧ (cutArriving r s).motion = s.motion ∧ (cutArriving r s).dials = s.dials ∧
    (cutArriving r s).laneTx = s.laneTx ∧ (cutArriving r s).scan = s.scan ∧ (cutArriving r s).audio = s.audio ∧
    (cutArriving r s).power = s.power ∧ (cutArriving r s).port = s.port := by
  unfold cutArriving; (try dsimp only); (repeat' split) <;> simp

@[simp] theorem placePacket_frame (h : PacketHeader) (s : State) :
    (placePacket h s).pending = s.pending ∧ (placePacket h s).free = s.free ∧ (placePacket h s).pins = s.pins ∧
    (placePacket h s).straps = s.straps ∧ (placePacket h s).loader = s.loader ∧
    (placePacket h s).spine = s.spine ∧ (placePacket h s).intake = s.intake ∧ (placePacket h s).cmd = s.cmd ∧
    (placePacket h s).time = s.time ∧ (placePacket h s).sched = s.sched ∧ (placePacket h s).motion = s.motion ∧
    (placePacket h s).dials = s.dials ∧ (placePacket h s).laneTx = s.laneTx ∧ (placePacket h s).scan = s.scan ∧
    (placePacket h s).audio = s.audio ∧ (placePacket h s).power = s.power ∧ (placePacket h s).port = s.port := by
  unfold placePacket; (try dsimp only); (repeat' split) <;> simp

@[simp] theorem packetHeader_frame (r : PixelRun) (h : PacketHeader) (s : State) :
    (packetHeader r h s).pending = s.pending ∧ (packetHeader r h s).free = s.free ∧
    (packetHeader r h s).pins = s.pins ∧ (packetHeader r h s).straps = s.straps ∧
    (packetHeader r h s).loader = s.loader ∧ (packetHeader r h s).spine = s.spine ∧
    (packetHeader r h s).intake = s.intake ∧ (packetHeader r h s).cmd = s.cmd ∧
    (packetHeader r h s).time = s.time ∧ (packetHeader r h s).sched = s.sched ∧
    (packetHeader r h s).motion = s.motion ∧ (packetHeader r h s).dials = s.dials ∧
    (packetHeader r h s).laneTx = s.laneTx ∧ (packetHeader r h s).scan = s.scan ∧
    (packetHeader r h s).audio = s.audio ∧ (packetHeader r h s).power = s.power ∧
    (packetHeader r h s).port = s.port := by
  unfold packetHeader; (try dsimp only); (repeat' split) <;> simp

@[simp] theorem packetEnd_frame (p : Arriving) (r : PixelRun) (c : BitVec 32) (s : State) :
    (packetEnd p r c s).pending = s.pending ∧ (packetEnd p r c s).free = s.free ∧
    (packetEnd p r c s).pins = s.pins ∧ (packetEnd p r c s).straps = s.straps ∧
    (packetEnd p r c s).loader = s.loader ∧ (packetEnd p r c s).spine = s.spine ∧
    (packetEnd p r c s).slots = s.slots ∧ (packetEnd p r c s).intake = s.intake ∧
    (packetEnd p r c s).cmd = s.cmd ∧ (packetEnd p r c s).alarms = s.alarms ∧ (packetEnd p r c s).time = s.time ∧
    (packetEnd p r c s).sched = s.sched ∧ (packetEnd p r c s).motion = s.motion ∧
    (packetEnd p r c s).dials = s.dials ∧ (packetEnd p r c s).laneTx = s.laneTx ∧
    (packetEnd p r c s).scan = s.scan ∧ (packetEnd p r c s).audio = s.audio ∧
    (packetEnd p r c s).power = s.power ∧ (packetEnd p r c s).port = s.port := by
  unfold packetEnd; (try dsimp only); (repeat' split) <;> simp

/-! ### Lane -/

@[simp] theorem laneGoesDown_frame (r : PixelRun) (s : State) :
    (laneGoesDown r s).pending = s.pending ∧ (laneGoesDown r s).free = s.free ∧ (laneGoesDown r s).pins = s.pins ∧
    (laneGoesDown r s).straps = s.straps ∧ (laneGoesDown r s).loader = s.loader ∧
    (laneGoesDown r s).spine = s.spine ∧ (laneGoesDown r s).slots = s.slots ∧
    (laneGoesDown r s).intake = s.intake ∧ (laneGoesDown r s).cmd = s.cmd ∧ (laneGoesDown r s).alarms = s.alarms ∧
    (laneGoesDown r s).time = s.time ∧ (laneGoesDown r s).sched = s.sched ∧ (laneGoesDown r s).motion = s.motion ∧
    (laneGoesDown r s).dials = s.dials ∧ (laneGoesDown r s).scan = s.scan ∧ (laneGoesDown r s).audio = s.audio ∧
    (laneGoesDown r s).power = s.power ∧ (laneGoesDown r s).port = s.port := by
  unfold laneGoesDown; (try dsimp only); (repeat' split) <;> simp

@[simp] theorem refreshLane_frame (s : State) :
    (refreshLane s).pending = s.pending ∧ (refreshLane s).free = s.free ∧ (refreshLane s).pins = s.pins ∧
    (refreshLane s).straps = s.straps ∧ (refreshLane s).loader = s.loader ∧ (refreshLane s).spine = s.spine ∧
    (refreshLane s).intake = s.intake ∧ (refreshLane s).cmd = s.cmd ∧ (refreshLane s).time = s.time ∧
    (refreshLane s).sched = s.sched ∧ (refreshLane s).motion = s.motion ∧ (refreshLane s).dials = s.dials ∧
    (refreshLane s).laneTx = s.laneTx ∧ (refreshLane s).laneRx = s.laneRx ∧ (refreshLane s).store = s.store ∧
    (refreshLane s).scan = s.scan ∧ (refreshLane s).audio = s.audio ∧ (refreshLane s).power = s.power ∧
    (refreshLane s).port = s.port := by
  unfold refreshLane; (try dsimp only); (repeat' split) <;> simp

@[simp] theorem settleLane_frame (w : Bool) (r : PixelRun) (s : State) :
    (settleLane w r s).pending = s.pending ∧ (settleLane w r s).free = s.free ∧ (settleLane w r s).pins = s.pins ∧
    (settleLane w r s).straps = s.straps ∧ (settleLane w r s).loader = s.loader ∧
    (settleLane w r s).spine = s.spine ∧ (settleLane w r s).intake = s.intake ∧ (settleLane w r s).cmd = s.cmd ∧
    (settleLane w r s).time = s.time ∧ (settleLane w r s).sched = s.sched ∧ (settleLane w r s).motion = s.motion ∧
    (settleLane w r s).dials = s.dials ∧ (settleLane w r s).scan = s.scan ∧ (settleLane w r s).audio = s.audio ∧
    (settleLane w r s).power = s.power ∧ (settleLane w r s).port = s.port := by
  unfold settleLane; (try dsimp only); (repeat' split) <;> simp

@[simp] theorem setLaneSignal_frame (v : Bool) (r : PixelRun) (s : State) :
    (setLaneSignal v r s).pending = s.pending ∧ (setLaneSignal v r s).free = s.free ∧
    (setLaneSignal v r s).straps = s.straps ∧ (setLaneSignal v r s).loader = s.loader ∧
    (setLaneSignal v r s).spine = s.spine ∧ (setLaneSignal v r s).intake = s.intake ∧
    (setLaneSignal v r s).cmd = s.cmd ∧ (setLaneSignal v r s).time = s.time ∧
    (setLaneSignal v r s).sched = s.sched ∧ (setLaneSignal v r s).motion = s.motion ∧
    (setLaneSignal v r s).dials = s.dials ∧ (setLaneSignal v r s).scan = s.scan ∧
    (setLaneSignal v r s).audio = s.audio ∧ (setLaneSignal v r s).power = s.power ∧
    (setLaneSignal v r s).port = s.port := by
  unfold setLaneSignal; (try dsimp only); (repeat' split) <;> simp

@[simp] theorem updSender_frame (e : Eye) (f : SenderEye → SenderEye) (s : State) :
    (s.updSender e f).pending = s.pending ∧ (s.updSender e f).free = s.free ∧ (s.updSender e f).pins = s.pins ∧
    (s.updSender e f).straps = s.straps ∧ (s.updSender e f).loader = s.loader ∧
    (s.updSender e f).spine = s.spine ∧ (s.updSender e f).slots = s.slots ∧ (s.updSender e f).intake = s.intake ∧
    (s.updSender e f).cmd = s.cmd ∧ (s.updSender e f).alarms = s.alarms ∧ (s.updSender e f).time = s.time ∧
    (s.updSender e f).sched = s.sched ∧ (s.updSender e f).motion = s.motion ∧ (s.updSender e f).dials = s.dials ∧
    (s.updSender e f).laneRx = s.laneRx ∧ (s.updSender e f).store = s.store ∧ (s.updSender e f).scan = s.scan ∧
    (s.updSender e f).audio = s.audio ∧ (s.updSender e f).power = s.power ∧ (s.updSender e f).port = s.port := by
  unfold State.updSender; (try dsimp only); (repeat' split) <;> simp

@[simp] theorem countShape_frame (s : State) :
    (countShape s).pending = s.pending ∧ (countShape s).free = s.free ∧ (countShape s).pins = s.pins ∧
    (countShape s).straps = s.straps ∧ (countShape s).loader = s.loader ∧ (countShape s).spine = s.spine ∧
    (countShape s).slots = s.slots ∧ (countShape s).intake = s.intake ∧ (countShape s).cmd = s.cmd ∧
    (countShape s).alarms = s.alarms ∧ (countShape s).time = s.time ∧ (countShape s).sched = s.sched ∧
    (countShape s).motion = s.motion ∧ (countShape s).dials = s.dials ∧ (countShape s).laneRx = s.laneRx ∧
    (countShape s).store = s.store ∧ (countShape s).scan = s.scan ∧ (countShape s).audio = s.audio ∧
    (countShape s).power = s.power ∧ (countShape s).port = s.port := by
  unfold countShape; (try dsimp only); (repeat' split) <;> simp

@[simp] theorem handSlice_frame (e : Eye) (l : Slice) (s : State) :
    (handSlice e l s).pending = s.pending ∧ (handSlice e l s).free = s.free ∧ (handSlice e l s).pins = s.pins ∧
    (handSlice e l s).straps = s.straps ∧ (handSlice e l s).loader = s.loader ∧
    (handSlice e l s).spine = s.spine ∧ (handSlice e l s).slots = s.slots ∧ (handSlice e l s).intake = s.intake ∧
    (handSlice e l s).cmd = s.cmd ∧ (handSlice e l s).alarms = s.alarms ∧ (handSlice e l s).time = s.time ∧
    (handSlice e l s).sched = s.sched ∧ (handSlice e l s).motion = s.motion ∧ (handSlice e l s).dials = s.dials ∧
    (handSlice e l s).laneRx = s.laneRx ∧ (handSlice e l s).store = s.store ∧ (handSlice e l s).scan = s.scan ∧
    (handSlice e l s).audio = s.audio ∧ (handSlice e l s).power = s.power ∧ (handSlice e l s).port = s.port := by
  unfold handSlice; (try dsimp only); (repeat' split) <;> simp

@[simp] theorem formSlices_frame (k : Nat) (t : Option FrameTag) (l : List (List Pixel)) (s : State) :
    (formSlices k t l s).pending = s.pending ∧ (formSlices k t l s).free = s.free ∧
    (formSlices k t l s).pins = s.pins ∧ (formSlices k t l s).straps = s.straps ∧
    (formSlices k t l s).loader = s.loader ∧ (formSlices k t l s).spine = s.spine ∧
    (formSlices k t l s).slots = s.slots ∧ (formSlices k t l s).intake = s.intake ∧
    (formSlices k t l s).cmd = s.cmd ∧ (formSlices k t l s).alarms = s.alarms ∧
    (formSlices k t l s).time = s.time ∧ (formSlices k t l s).sched = s.sched ∧
    (formSlices k t l s).motion = s.motion ∧ (formSlices k t l s).dials = s.dials ∧
    (formSlices k t l s).laneRx = s.laneRx ∧ (formSlices k t l s).store = s.store ∧
    (formSlices k t l s).scan = s.scan ∧ (formSlices k t l s).audio = s.audio ∧
    (formSlices k t l s).power = s.power ∧ (formSlices k t l s).port = s.port := by
  unfold formSlices; (try dsimp only); (repeat' split) <;> simp

@[simp] theorem updFrame_frame (f : InputFrame → InputFrame) (s : State) :
    (s.updFrame f).pending = s.pending ∧ (s.updFrame f).free = s.free ∧ (s.updFrame f).pins = s.pins ∧
    (s.updFrame f).straps = s.straps ∧ (s.updFrame f).loader = s.loader ∧ (s.updFrame f).spine = s.spine ∧
    (s.updFrame f).slots = s.slots ∧ (s.updFrame f).intake = s.intake ∧ (s.updFrame f).cmd = s.cmd ∧
    (s.updFrame f).alarms = s.alarms ∧ (s.updFrame f).time = s.time ∧ (s.updFrame f).sched = s.sched ∧
    (s.updFrame f).motion = s.motion ∧ (s.updFrame f).dials = s.dials ∧ (s.updFrame f).laneRx = s.laneRx ∧
    (s.updFrame f).store = s.store ∧ (s.updFrame f).scan = s.scan ∧ (s.updFrame f).audio = s.audio ∧
    (s.updFrame f).power = s.power ∧ (s.updFrame f).port = s.port := by
  unfold State.updFrame; (try dsimp only); (repeat' split) <;> simp

@[simp] theorem completeLine_frame (f : InputFrame) (p : List Pixel) (s : State) :
    (completeLine f p s).pending = s.pending ∧ (completeLine f p s).free = s.free ∧
    (completeLine f p s).pins = s.pins ∧ (completeLine f p s).straps = s.straps ∧
    (completeLine f p s).loader = s.loader ∧ (completeLine f p s).spine = s.spine ∧
    (completeLine f p s).slots = s.slots ∧ (completeLine f p s).intake = s.intake ∧
    (completeLine f p s).cmd = s.cmd ∧ (completeLine f p s).alarms = s.alarms ∧
    (completeLine f p s).time = s.time ∧ (completeLine f p s).sched = s.sched ∧
    (completeLine f p s).motion = s.motion ∧ (completeLine f p s).dials = s.dials ∧
    (completeLine f p s).laneRx = s.laneRx ∧ (completeLine f p s).store = s.store ∧
    (completeLine f p s).scan = s.scan ∧ (completeLine f p s).audio = s.audio ∧
    (completeLine f p s).power = s.power ∧ (completeLine f p s).port = s.port := by
  unfold completeLine; (try dsimp only); (repeat' split) <;> simp

@[simp] theorem beginLine_frame (s : State) :
    (beginLine s).pending = s.pending ∧ (beginLine s).free = s.free ∧ (beginLine s).pins = s.pins ∧
    (beginLine s).straps = s.straps ∧ (beginLine s).loader = s.loader ∧ (beginLine s).spine = s.spine ∧
    (beginLine s).slots = s.slots ∧ (beginLine s).intake = s.intake ∧ (beginLine s).cmd = s.cmd ∧
    (beginLine s).alarms = s.alarms ∧ (beginLine s).time = s.time ∧ (beginLine s).sched = s.sched ∧
    (beginLine s).motion = s.motion ∧ (beginLine s).dials = s.dials ∧ (beginLine s).laneRx = s.laneRx ∧
    (beginLine s).store = s.store ∧ (beginLine s).scan = s.scan ∧ (beginLine s).audio = s.audio ∧
    (beginLine s).power = s.power ∧ (beginLine s).port = s.port := by
  unfold beginLine; (try dsimp only); (repeat' split) <;> simp

@[simp] theorem inputLineStart_frame (s : State) :
    (inputLineStart s).pending = s.pending ∧ (inputLineStart s).free = s.free ∧ (inputLineStart s).pins = s.pins ∧
    (inputLineStart s).straps = s.straps ∧ (inputLineStart s).loader = s.loader ∧
    (inputLineStart s).spine = s.spine ∧ (inputLineStart s).slots = s.slots ∧
    (inputLineStart s).intake = s.intake ∧ (inputLineStart s).cmd = s.cmd ∧ (inputLineStart s).alarms = s.alarms ∧
    (inputLineStart s).time = s.time ∧ (inputLineStart s).sched = s.sched ∧ (inputLineStart s).motion = s.motion ∧
    (inputLineStart s).dials = s.dials ∧ (inputLineStart s).laneRx = s.laneRx ∧
    (inputLineStart s).store = s.store ∧ (inputLineStart s).scan = s.scan ∧ (inputLineStart s).audio = s.audio ∧
    (inputLineStart s).power = s.power ∧ (inputLineStart s).port = s.port := by
  unfold inputLineStart; (try dsimp only); (repeat' split) <;> simp

@[simp] theorem inputPixel_frame (p : Pixel) (s : State) :
    (inputPixel p s).pending = s.pending ∧ (inputPixel p s).free = s.free ∧ (inputPixel p s).pins = s.pins ∧
    (inputPixel p s).straps = s.straps ∧ (inputPixel p s).loader = s.loader ∧ (inputPixel p s).spine = s.spine ∧
    (inputPixel p s).slots = s.slots ∧ (inputPixel p s).intake = s.intake ∧ (inputPixel p s).cmd = s.cmd ∧
    (inputPixel p s).alarms = s.alarms ∧ (inputPixel p s).time = s.time ∧ (inputPixel p s).sched = s.sched ∧
    (inputPixel p s).motion = s.motion ∧ (inputPixel p s).dials = s.dials ∧ (inputPixel p s).laneRx = s.laneRx ∧
    (inputPixel p s).store = s.store ∧ (inputPixel p s).scan = s.scan ∧ (inputPixel p s).audio = s.audio ∧
    (inputPixel p s).power = s.power ∧ (inputPixel p s).port = s.port := by
  unfold inputPixel; (try dsimp only); (repeat' split) <;> simp

@[simp] theorem endInputFrame_frame (s : State) :
    (endInputFrame s).pending = s.pending ∧ (endInputFrame s).free = s.free ∧ (endInputFrame s).pins = s.pins ∧
    (endInputFrame s).straps = s.straps ∧ (endInputFrame s).loader = s.loader ∧
    (endInputFrame s).spine = s.spine ∧ (endInputFrame s).slots = s.slots ∧ (endInputFrame s).intake = s.intake ∧
    (endInputFrame s).cmd = s.cmd ∧ (endInputFrame s).alarms = s.alarms ∧ (endInputFrame s).time = s.time ∧
    (endInputFrame s).sched = s.sched ∧ (endInputFrame s).motion = s.motion ∧ (endInputFrame s).dials = s.dials ∧
    (endInputFrame s).laneRx = s.laneRx ∧ (endInputFrame s).store = s.store ∧ (endInputFrame s).scan = s.scan ∧
    (endInputFrame s).audio = s.audio ∧ (endInputFrame s).power = s.power ∧ (endInputFrame s).port = s.port := by
  unfold endInputFrame; (try dsimp only); (repeat' split) <;> simp

@[simp] theorem takeTag_frame (s : State) :
    (takeTag s).pending = s.pending ∧ (takeTag s).free = s.free ∧ (takeTag s).pins = s.pins ∧
    (takeTag s).straps = s.straps ∧ (takeTag s).loader = s.loader ∧ (takeTag s).spine = s.spine ∧
    (takeTag s).slots = s.slots ∧ (takeTag s).intake = s.intake ∧ (takeTag s).cmd = s.cmd ∧
    (takeTag s).alarms = s.alarms ∧ (takeTag s).time = s.time ∧ (takeTag s).sched = s.sched ∧
    (takeTag s).motion = s.motion ∧ (takeTag s).dials = s.dials ∧ (takeTag s).laneRx = s.laneRx ∧
    (takeTag s).store = s.store ∧ (takeTag s).scan = s.scan ∧ (takeTag s).audio = s.audio ∧
    (takeTag s).power = s.power ∧ (takeTag s).port = s.port := by
  unfold takeTag; (try dsimp only); (repeat' split) <;> simp

@[simp] theorem takeUpFrame_frame (e : Eye) (s : State) :
    (takeUpFrame e s).pending = s.pending ∧ (takeUpFrame e s).free = s.free ∧ (takeUpFrame e s).pins = s.pins ∧
    (takeUpFrame e s).straps = s.straps ∧ (takeUpFrame e s).loader = s.loader ∧
    (takeUpFrame e s).spine = s.spine ∧ (takeUpFrame e s).slots = s.slots ∧ (takeUpFrame e s).intake = s.intake ∧
    (takeUpFrame e s).cmd = s.cmd ∧ (takeUpFrame e s).alarms = s.alarms ∧ (takeUpFrame e s).time = s.time ∧
    (takeUpFrame e s).sched = s.sched ∧ (takeUpFrame e s).motion = s.motion ∧ (takeUpFrame e s).dials = s.dials ∧
    (takeUpFrame e s).laneRx = s.laneRx ∧ (takeUpFrame e s).store = s.store ∧ (takeUpFrame e s).scan = s.scan ∧
    (takeUpFrame e s).audio = s.audio ∧ (takeUpFrame e s).power = s.power ∧ (takeUpFrame e s).port = s.port := by
  unfold takeUpFrame; (try dsimp only); (repeat' split) <;> simp

@[simp] theorem inputFrameStart_frame (s : State) :
    (inputFrameStart s).pending = s.pending ∧ (inputFrameStart s).free = s.free ∧
    (inputFrameStart s).pins = s.pins ∧ (inputFrameStart s).straps = s.straps ∧
    (inputFrameStart s).loader = s.loader ∧ (inputFrameStart s).spine = s.spine ∧
    (inputFrameStart s).slots = s.slots ∧ (inputFrameStart s).intake = s.intake ∧
    (inputFrameStart s).cmd = s.cmd ∧ (inputFrameStart s).alarms = s.alarms ∧ (inputFrameStart s).time = s.time ∧
    (inputFrameStart s).sched = s.sched ∧ (inputFrameStart s).motion = s.motion ∧
    (inputFrameStart s).dials = s.dials ∧ (inputFrameStart s).laneRx = s.laneRx ∧
    (inputFrameStart s).store = s.store ∧ (inputFrameStart s).scan = s.scan ∧
    (inputFrameStart s).audio = s.audio ∧ (inputFrameStart s).power = s.power ∧
    (inputFrameStart s).port = s.port := by
  unfold inputFrameStart; (try dsimp only); (repeat' split) <;> simp

@[simp] theorem resyncEye_frame (e : Eye) (h a : BitVec 16) (s : State) :
    (resyncEye e h a s).pending = s.pending ∧ (resyncEye e h a s).free = s.free ∧
    (resyncEye e h a s).pins = s.pins ∧ (resyncEye e h a s).straps = s.straps ∧
    (resyncEye e h a s).loader = s.loader ∧ (resyncEye e h a s).spine = s.spine ∧
    (resyncEye e h a s).slots = s.slots ∧ (resyncEye e h a s).intake = s.intake ∧
    (resyncEye e h a s).cmd = s.cmd ∧ (resyncEye e h a s).alarms = s.alarms ∧ (resyncEye e h a s).time = s.time ∧
    (resyncEye e h a s).sched = s.sched ∧ (resyncEye e h a s).motion = s.motion ∧
    (resyncEye e h a s).dials = s.dials ∧ (resyncEye e h a s).laneRx = s.laneRx ∧
    (resyncEye e h a s).store = s.store ∧ (resyncEye e h a s).scan = s.scan ∧
    (resyncEye e h a s).audio = s.audio ∧ (resyncEye e h a s).power = s.power ∧
    (resyncEye e h a s).port = s.port := by
  unfold resyncEye; (try dsimp only); (repeat' split) <;> simp

@[simp] theorem creditEye_frame (e : Eye) (n : Bool) (h a : BitVec 16) (s : State) :
    (creditEye e n h a s).pending = s.pending ∧ (creditEye e n h a s).free = s.free ∧
    (creditEye e n h a s).pins = s.pins ∧ (creditEye e n h a s).straps = s.straps ∧
    (creditEye e n h a s).loader = s.loader ∧ (creditEye e n h a s).spine = s.spine ∧
    (creditEye e n h a s).slots = s.slots ∧ (creditEye e n h a s).intake = s.intake ∧
    (creditEye e n h a s).cmd = s.cmd ∧ (creditEye e n h a s).alarms = s.alarms ∧
    (creditEye e n h a s).time = s.time ∧ (creditEye e n h a s).sched = s.sched ∧
    (creditEye e n h a s).motion = s.motion ∧ (creditEye e n h a s).dials = s.dials ∧
    (creditEye e n h a s).laneRx = s.laneRx ∧ (creditEye e n h a s).store = s.store ∧
    (creditEye e n h a s).scan = s.scan ∧ (creditEye e n h a s).audio = s.audio ∧
    (creditEye e n h a s).power = s.power ∧ (creditEye e n h a s).port = s.port := by
  unfold creditEye; (try dsimp only); (repeat' split) <;> simp

@[simp] theorem takeCredit_frame (r : Rank) (b : List Byte) (s : State) :
    (takeCredit r b s).pending = s.pending ∧ (takeCredit r b s).free = s.free ∧ (takeCredit r b s).pins = s.pins ∧
    (takeCredit r b s).straps = s.straps ∧ (takeCredit r b s).loader = s.loader ∧
    (takeCredit r b s).spine = s.spine ∧ (takeCredit r b s).slots = s.slots ∧
    (takeCredit r b s).intake = s.intake ∧ (takeCredit r b s).cmd = s.cmd ∧ (takeCredit r b s).alarms = s.alarms ∧
    (takeCredit r b s).time = s.time ∧ (takeCredit r b s).sched = s.sched ∧ (takeCredit r b s).motion = s.motion ∧
    (takeCredit r b s).dials = s.dials ∧ (takeCredit r b s).laneRx = s.laneRx ∧
    (takeCredit r b s).store = s.store ∧ (takeCredit r b s).scan = s.scan ∧ (takeCredit r b s).audio = s.audio ∧
    (takeCredit r b s).power = s.power ∧ (takeCredit r b s).port = s.port := by
  unfold takeCredit; (try dsimp only); (repeat' split) <;> simp

@[simp] theorem startPacket_frame (e : Eye) (p : NextPacket) (b : Bool) (s : State) :
    (startPacket e p b s).pending = s.pending ∧ (startPacket e p b s).pins = s.pins ∧
    (startPacket e p b s).straps = s.straps ∧ (startPacket e p b s).loader = s.loader ∧
    (startPacket e p b s).spine = s.spine ∧ (startPacket e p b s).slots = s.slots ∧
    (startPacket e p b s).intake = s.intake ∧ (startPacket e p b s).cmd = s.cmd ∧
    (startPacket e p b s).alarms = s.alarms ∧ (startPacket e p b s).time = s.time ∧
    (startPacket e p b s).sched = s.sched ∧ (startPacket e p b s).motion = s.motion ∧
    (startPacket e p b s).dials = s.dials ∧ (startPacket e p b s).laneRx = s.laneRx ∧
    (startPacket e p b s).store = s.store ∧ (startPacket e p b s).scan = s.scan ∧
    (startPacket e p b s).audio = s.audio ∧ (startPacket e p b s).power = s.power ∧
    (startPacket e p b s).port = s.port := by
  unfold startPacket; (try dsimp only); (repeat' split) <;> simp

/-! ### Power -/

@[simp] theorem setOwnEntry_frame (s : State) :
    (setOwnEntry s).pending = s.pending ∧ (setOwnEntry s).free = s.free ∧ (setOwnEntry s).pins = s.pins ∧
    (setOwnEntry s).straps = s.straps ∧ (setOwnEntry s).loader = s.loader ∧ (setOwnEntry s).spine = s.spine ∧
    (setOwnEntry s).slots = s.slots ∧ (setOwnEntry s).intake = s.intake ∧ (setOwnEntry s).cmd = s.cmd ∧
    (setOwnEntry s).alarms = s.alarms ∧ (setOwnEntry s).time = s.time ∧ (setOwnEntry s).sched = s.sched ∧
    (setOwnEntry s).motion = s.motion ∧ (setOwnEntry s).dials = s.dials ∧ (setOwnEntry s).laneTx = s.laneTx ∧
    (setOwnEntry s).laneRx = s.laneRx ∧ (setOwnEntry s).store = s.store ∧ (setOwnEntry s).scan = s.scan ∧
    (setOwnEntry s).audio = s.audio ∧ (setOwnEntry s).port = s.port := by
  unfold setOwnEntry; (try dsimp only); (repeat' split) <;> simp

@[simp] theorem loadPower_frame (s : State) :
    (loadPower s).pending = s.pending ∧ (loadPower s).free = s.free ∧ (loadPower s).pins = s.pins ∧
    (loadPower s).straps = s.straps ∧ (loadPower s).loader = s.loader ∧ (loadPower s).spine = s.spine ∧
    (loadPower s).intake = s.intake ∧ (loadPower s).cmd = s.cmd ∧ (loadPower s).alarms = s.alarms ∧
    (loadPower s).time = s.time ∧ (loadPower s).sched = s.sched ∧ (loadPower s).motion = s.motion ∧
    (loadPower s).dials = s.dials ∧ (loadPower s).laneTx = s.laneTx ∧ (loadPower s).laneRx = s.laneRx ∧
    (loadPower s).store = s.store ∧ (loadPower s).scan = s.scan ∧ (loadPower s).audio = s.audio ∧
    (loadPower s).power = s.power ∧ (loadPower s).port = s.port := by
  unfold loadPower; (try dsimp only); (repeat' split) <;> simp

@[simp] theorem setStep_frame (v : Fin 4) (s : State) :
    (setStep v s).pending = s.pending ∧ (setStep v s).free = s.free ∧ (setStep v s).pins = s.pins ∧
    (setStep v s).straps = s.straps ∧ (setStep v s).loader = s.loader ∧ (setStep v s).spine = s.spine ∧
    (setStep v s).intake = s.intake ∧ (setStep v s).cmd = s.cmd ∧ (setStep v s).time = s.time ∧
    (setStep v s).sched = s.sched ∧ (setStep v s).motion = s.motion ∧ (setStep v s).dials = s.dials ∧
    (setStep v s).scan = s.scan ∧ (setStep v s).audio = s.audio ∧ (setStep v s).port = s.port := by
  unfold setStep; (try dsimp only); (repeat' split) <;> simp

@[simp] theorem fallToTarget_frame (s : State) :
    (fallToTarget s).pending = s.pending ∧ (fallToTarget s).free = s.free ∧ (fallToTarget s).pins = s.pins ∧
    (fallToTarget s).straps = s.straps ∧ (fallToTarget s).loader = s.loader ∧ (fallToTarget s).spine = s.spine ∧
    (fallToTarget s).intake = s.intake ∧ (fallToTarget s).cmd = s.cmd ∧ (fallToTarget s).time = s.time ∧
    (fallToTarget s).sched = s.sched ∧ (fallToTarget s).motion = s.motion ∧ (fallToTarget s).dials = s.dials ∧
    (fallToTarget s).scan = s.scan ∧ (fallToTarget s).audio = s.audio ∧ (fallToTarget s).port = s.port := by
  unfold fallToTarget; (try dsimp only); (repeat' split) <;> simp

@[simp] theorem regrant_frame (s : State) :
    (regrant s).pending = s.pending ∧ (regrant s).free = s.free ∧ (regrant s).pins = s.pins ∧
    (regrant s).straps = s.straps ∧ (regrant s).loader = s.loader ∧ (regrant s).spine = s.spine ∧
    (regrant s).slots = s.slots ∧ (regrant s).intake = s.intake ∧ (regrant s).cmd = s.cmd ∧
    (regrant s).alarms = s.alarms ∧ (regrant s).time = s.time ∧ (regrant s).sched = s.sched ∧
    (regrant s).motion = s.motion ∧ (regrant s).dials = s.dials ∧ (regrant s).laneTx = s.laneTx ∧
    (regrant s).laneRx = s.laneRx ∧ (regrant s).store = s.store ∧ (regrant s).scan = s.scan ∧
    (regrant s).audio = s.audio ∧ (regrant s).port = s.port := by
  unfold regrant; (try dsimp only); (repeat' split) <;> simp

@[simp] theorem recompute_frame (s : State) :
    (recompute s).pending = s.pending ∧ (recompute s).free = s.free ∧ (recompute s).pins = s.pins ∧
    (recompute s).straps = s.straps ∧ (recompute s).loader = s.loader ∧ (recompute s).spine = s.spine ∧
    (recompute s).intake = s.intake ∧ (recompute s).cmd = s.cmd ∧ (recompute s).time = s.time ∧
    (recompute s).sched = s.sched ∧ (recompute s).motion = s.motion ∧ (recompute s).dials = s.dials ∧
    (recompute s).scan = s.scan ∧ (recompute s).audio = s.audio ∧ (recompute s).port = s.port := by
  unfold recompute; (try dsimp only); (repeat' split) <;> simp

@[simp] theorem recomputeAndAnnounce_frame (s : State) :
    (recomputeAndAnnounce s).pending = s.pending ∧ (recomputeAndAnnounce s).free = s.free ∧
    (recomputeAndAnnounce s).pins = s.pins ∧ (recomputeAndAnnounce s).straps = s.straps ∧
    (recomputeAndAnnounce s).loader = s.loader ∧ (recomputeAndAnnounce s).spine = s.spine ∧
    (recomputeAndAnnounce s).intake = s.intake ∧ (recomputeAndAnnounce s).cmd = s.cmd ∧
    (recomputeAndAnnounce s).time = s.time ∧ (recomputeAndAnnounce s).sched = s.sched ∧
    (recomputeAndAnnounce s).motion = s.motion ∧ (recomputeAndAnnounce s).dials = s.dials ∧
    (recomputeAndAnnounce s).scan = s.scan ∧ (recomputeAndAnnounce s).audio = s.audio ∧
    (recomputeAndAnnounce s).port = s.port := by
  unfold recomputeAndAnnounce; (try dsimp only); (repeat' split) <;> simp

@[simp] theorem takePower_frame (r : Rank) (b : List Byte) (s : State) :
    (takePower r b s).pending = s.pending ∧ (takePower r b s).free = s.free ∧ (takePower r b s).pins = s.pins ∧
    (takePower r b s).straps = s.straps ∧ (takePower r b s).loader = s.loader ∧
    (takePower r b s).spine = s.spine ∧ (takePower r b s).intake = s.intake ∧ (takePower r b s).cmd = s.cmd ∧
    (takePower r b s).time = s.time ∧ (takePower r b s).sched = s.sched ∧ (takePower r b s).motion = s.motion ∧
    (takePower r b s).dials = s.dials ∧ (takePower r b s).scan = s.scan ∧ (takePower r b s).audio = s.audio ∧
    (takePower r b s).port = s.port := by
  unfold takePower; (try dsimp only); (repeat' split) <;> simp

@[simp] theorem expireEntry_frame (n : Node) (s : State) :
    (expireEntry n s).pending = s.pending ∧ (expireEntry n s).free = s.free ∧ (expireEntry n s).pins = s.pins ∧
    (expireEntry n s).straps = s.straps ∧ (expireEntry n s).loader = s.loader ∧
    (expireEntry n s).spine = s.spine ∧ (expireEntry n s).intake = s.intake ∧ (expireEntry n s).cmd = s.cmd ∧
    (expireEntry n s).time = s.time ∧ (expireEntry n s).sched = s.sched ∧ (expireEntry n s).motion = s.motion ∧
    (expireEntry n s).dials = s.dials ∧ (expireEntry n s).scan = s.scan ∧ (expireEntry n s).audio = s.audio ∧
    (expireEntry n s).port = s.port := by
  unfold expireEntry; (try dsimp only); (repeat' split) <;> simp

@[simp] theorem takeReading_frame (l : Option (BitVec 16)) (b : Option Byte) (s : State) :
    (takeReading l b s).pending = s.pending ∧ (takeReading l b s).free = s.free ∧
    (takeReading l b s).pins = s.pins ∧ (takeReading l b s).straps = s.straps ∧
    (takeReading l b s).loader = s.loader ∧ (takeReading l b s).spine = s.spine ∧
    (takeReading l b s).slots = s.slots ∧ (takeReading l b s).intake = s.intake ∧
    (takeReading l b s).cmd = s.cmd ∧ (takeReading l b s).alarms = s.alarms ∧ (takeReading l b s).time = s.time ∧
    (takeReading l b s).sched = s.sched ∧ (takeReading l b s).motion = s.motion ∧
    (takeReading l b s).dials = s.dials ∧ (takeReading l b s).laneTx = s.laneTx ∧
    (takeReading l b s).laneRx = s.laneRx ∧ (takeReading l b s).store = s.store ∧
    (takeReading l b s).scan = s.scan ∧ (takeReading l b s).audio = s.audio ∧ (takeReading l b s).port = s.port := by
  unfold takeReading; (try dsimp only); (repeat' split) <;> simp

@[simp] theorem batteryMarks_frame (s : State) :
    (batteryMarks s).pending = s.pending ∧ (batteryMarks s).free = s.free ∧ (batteryMarks s).pins = s.pins ∧
    (batteryMarks s).straps = s.straps ∧ (batteryMarks s).loader = s.loader ∧ (batteryMarks s).spine = s.spine ∧
    (batteryMarks s).intake = s.intake ∧ (batteryMarks s).cmd = s.cmd ∧ (batteryMarks s).time = s.time ∧
    (batteryMarks s).sched = s.sched ∧ (batteryMarks s).motion = s.motion ∧ (batteryMarks s).dials = s.dials ∧
    (batteryMarks s).laneTx = s.laneTx ∧ (batteryMarks s).laneRx = s.laneRx ∧ (batteryMarks s).store = s.store ∧
    (batteryMarks s).scan = s.scan ∧ (batteryMarks s).audio = s.audio ∧ (batteryMarks s).port = s.port := by
  unfold batteryMarks; (try dsimp only); (repeat' split) <;> simp

@[simp] theorem redActs_frame (s : State) :
    (redActs s).pending = s.pending ∧ (redActs s).free = s.free ∧ (redActs s).pins = s.pins ∧
    (redActs s).straps = s.straps ∧ (redActs s).loader = s.loader ∧ (redActs s).spine = s.spine ∧
    (redActs s).intake = s.intake ∧ (redActs s).cmd = s.cmd ∧ (redActs s).time = s.time ∧
    (redActs s).sched = s.sched ∧ (redActs s).motion = s.motion ∧ (redActs s).dials = s.dials ∧
    (redActs s).scan = s.scan ∧ (redActs s).audio = s.audio ∧ (redActs s).port = s.port := by
  unfold redActs; (try dsimp only); (repeat' split) <;> simp

@[simp] theorem yellowFall_frame (s : State) :
    (yellowFall s).pending = s.pending ∧ (yellowFall s).free = s.free ∧ (yellowFall s).pins = s.pins ∧
    (yellowFall s).straps = s.straps ∧ (yellowFall s).loader = s.loader ∧ (yellowFall s).spine = s.spine ∧
    (yellowFall s).intake = s.intake ∧ (yellowFall s).cmd = s.cmd ∧ (yellowFall s).time = s.time ∧
    (yellowFall s).sched = s.sched ∧ (yellowFall s).motion = s.motion ∧ (yellowFall s).dials = s.dials ∧
    (yellowFall s).scan = s.scan ∧ (yellowFall s).audio = s.audio ∧ (yellowFall s).port = s.port := by
  unfold yellowFall; (try dsimp only); (repeat' split) <;> simp

@[simp] theorem yellowActs_frame (s : State) :
    (yellowActs s).pending = s.pending ∧ (yellowActs s).free = s.free ∧ (yellowActs s).pins = s.pins ∧
    (yellowActs s).straps = s.straps ∧ (yellowActs s).loader = s.loader ∧ (yellowActs s).spine = s.spine ∧
    (yellowActs s).intake = s.intake ∧ (yellowActs s).cmd = s.cmd ∧ (yellowActs s).time = s.time ∧
    (yellowActs s).sched = s.sched ∧ (yellowActs s).motion = s.motion ∧ (yellowActs s).dials = s.dials ∧
    (yellowActs s).scan = s.scan ∧ (yellowActs s).audio = s.audio ∧ (yellowActs s).port = s.port := by
  unfold yellowActs; (try dsimp only); (repeat' split) <;> simp

@[simp] theorem overdrawTests_frame (s : State) :
    (overdrawTests s).pending = s.pending ∧ (overdrawTests s).free = s.free ∧ (overdrawTests s).pins = s.pins ∧
    (overdrawTests s).straps = s.straps ∧ (overdrawTests s).loader = s.loader ∧
    (overdrawTests s).spine = s.spine ∧ (overdrawTests s).intake = s.intake ∧ (overdrawTests s).cmd = s.cmd ∧
    (overdrawTests s).time = s.time ∧ (overdrawTests s).sched = s.sched ∧ (overdrawTests s).motion = s.motion ∧
    (overdrawTests s).dials = s.dials ∧ (overdrawTests s).scan = s.scan ∧ (overdrawTests s).audio = s.audio ∧
    (overdrawTests s).port = s.port := by
  unfold overdrawTests; (try dsimp only); (repeat' split) <;> simp

@[simp] theorem riseStep_frame (s : State) :
    (riseStep s).pending = s.pending ∧ (riseStep s).free = s.free ∧ (riseStep s).pins = s.pins ∧
    (riseStep s).straps = s.straps ∧ (riseStep s).loader = s.loader ∧ (riseStep s).spine = s.spine ∧
    (riseStep s).intake = s.intake ∧ (riseStep s).cmd = s.cmd ∧ (riseStep s).time = s.time ∧
    (riseStep s).sched = s.sched ∧ (riseStep s).motion = s.motion ∧ (riseStep s).dials = s.dials ∧
    (riseStep s).scan = s.scan ∧ (riseStep s).audio = s.audio ∧ (riseStep s).port = s.port := by
  unfold riseStep; (try dsimp only); (repeat' split) <;> simp

@[simp] theorem settleStep_frame (y : Bool) (s : State) :
    (settleStep y s).pending = s.pending ∧ (settleStep y s).free = s.free ∧ (settleStep y s).pins = s.pins ∧
    (settleStep y s).straps = s.straps ∧ (settleStep y s).loader = s.loader ∧ (settleStep y s).spine = s.spine ∧
    (settleStep y s).intake = s.intake ∧ (settleStep y s).cmd = s.cmd ∧ (settleStep y s).time = s.time ∧
    (settleStep y s).sched = s.sched ∧ (settleStep y s).motion = s.motion ∧ (settleStep y s).dials = s.dials ∧
    (settleStep y s).scan = s.scan ∧ (settleStep y s).audio = s.audio ∧ (settleStep y s).port = s.port := by
  unfold settleStep; (try dsimp only); (repeat' split) <;> simp

@[simp] theorem readingWork_frame (c : Bool) (s : State) :
    (readingWork c s).pending = s.pending ∧ (readingWork c s).free = s.free ∧ (readingWork c s).pins = s.pins ∧
    (readingWork c s).straps = s.straps ∧ (readingWork c s).loader = s.loader ∧
    (readingWork c s).spine = s.spine ∧ (readingWork c s).intake = s.intake ∧ (readingWork c s).cmd = s.cmd ∧
    (readingWork c s).time = s.time ∧ (readingWork c s).sched = s.sched ∧ (readingWork c s).motion = s.motion ∧
    (readingWork c s).dials = s.dials ∧ (readingWork c s).scan = s.scan ∧ (readingWork c s).audio = s.audio ∧
    (readingWork c s).port = s.port := by
  unfold readingWork; (try dsimp only); (repeat' split) <;> simp

@[simp] theorem completeReading_frame (r : MeterReading) (s : State) :
    (completeReading r s).pending = s.pending ∧ (completeReading r s).free = s.free ∧
    (completeReading r s).pins = s.pins ∧ (completeReading r s).straps = s.straps ∧
    (completeReading r s).loader = s.loader ∧ (completeReading r s).spine = s.spine ∧
    (completeReading r s).intake = s.intake ∧ (completeReading r s).cmd = s.cmd ∧
    (completeReading r s).time = s.time ∧ (completeReading r s).sched = s.sched ∧
    (completeReading r s).motion = s.motion ∧ (completeReading r s).dials = s.dials ∧
    (completeReading r s).scan = s.scan ∧ (completeReading r s).audio = s.audio ∧
    (completeReading r s).port = s.port := by
  unfold completeReading; (try dsimp only); (repeat' split) <;> simp

@[simp] theorem answerReading_frame (r : MeterReading) (l : MeterAnswer (BitVec 16)) (b : MeterAnswer Byte) (s : State) :
    (answerReading r l b s).pending = s.pending ∧ (answerReading r l b s).free = s.free ∧
    (answerReading r l b s).pins = s.pins ∧ (answerReading r l b s).straps = s.straps ∧
    (answerReading r l b s).loader = s.loader ∧ (answerReading r l b s).spine = s.spine ∧
    (answerReading r l b s).intake = s.intake ∧ (answerReading r l b s).cmd = s.cmd ∧
    (answerReading r l b s).time = s.time ∧ (answerReading r l b s).sched = s.sched ∧
    (answerReading r l b s).motion = s.motion ∧ (answerReading r l b s).dials = s.dials ∧
    (answerReading r l b s).scan = s.scan ∧ (answerReading r l b s).audio = s.audio ∧
    (answerReading r l b s).port = s.port := by
  unfold answerReading; (try dsimp only); (repeat' split) <;> simp

@[simp] theorem powerReport_frame (s : State) :
    (powerReport s).pending = s.pending ∧ (powerReport s).free = s.free ∧ (powerReport s).pins = s.pins ∧
    (powerReport s).straps = s.straps ∧ (powerReport s).loader = s.loader ∧ (powerReport s).spine = s.spine ∧
    (powerReport s).slots = s.slots ∧ (powerReport s).intake = s.intake ∧ (powerReport s).cmd = s.cmd ∧
    (powerReport s).alarms = s.alarms ∧ (powerReport s).time = s.time ∧ (powerReport s).sched = s.sched ∧
    (powerReport s).motion = s.motion ∧ (powerReport s).dials = s.dials ∧ (powerReport s).laneTx = s.laneTx ∧
    (powerReport s).laneRx = s.laneRx ∧ (powerReport s).store = s.store ∧ (powerReport s).scan = s.scan ∧
    (powerReport s).audio = s.audio ∧ (powerReport s).port = s.port := by
  unfold powerReport; (try dsimp only); (repeat' split) <;> simp

/-! ### Audio and service -/

@[simp] theorem updAudioTo_frame (a : Audio) (s : State) :
    (s.updAudioTo a).pending = s.pending ∧ (s.updAudioTo a).free = s.free ∧ (s.updAudioTo a).pins = s.pins ∧
    (s.updAudioTo a).straps = s.straps ∧ (s.updAudioTo a).loader = s.loader ∧ (s.updAudioTo a).spine = s.spine ∧
    (s.updAudioTo a).slots = s.slots ∧ (s.updAudioTo a).intake = s.intake ∧ (s.updAudioTo a).cmd = s.cmd ∧
    (s.updAudioTo a).alarms = s.alarms ∧ (s.updAudioTo a).time = s.time ∧ (s.updAudioTo a).sched = s.sched ∧
    (s.updAudioTo a).motion = s.motion ∧ (s.updAudioTo a).dials = s.dials ∧ (s.updAudioTo a).laneTx = s.laneTx ∧
    (s.updAudioTo a).laneRx = s.laneRx ∧ (s.updAudioTo a).store = s.store ∧ (s.updAudioTo a).scan = s.scan ∧
    (s.updAudioTo a).power = s.power ∧ (s.updAudioTo a).port = s.port := by
  unfold State.updAudioTo; (try dsimp only); (repeat' split) <;> simp

@[simp] theorem placeBlock_frame (b : AudioBlock) (s : State) :
    (placeBlock b s).pending = s.pending ∧ (placeBlock b s).free = s.free ∧ (placeBlock b s).pins = s.pins ∧
    (placeBlock b s).straps = s.straps ∧ (placeBlock b s).loader = s.loader ∧ (placeBlock b s).spine = s.spine ∧
    (placeBlock b s).intake = s.intake ∧ (placeBlock b s).cmd = s.cmd ∧ (placeBlock b s).time = s.time ∧
    (placeBlock b s).sched = s.sched ∧ (placeBlock b s).motion = s.motion ∧ (placeBlock b s).dials = s.dials ∧
    (placeBlock b s).laneTx = s.laneTx ∧ (placeBlock b s).laneRx = s.laneRx ∧ (placeBlock b s).store = s.store ∧
    (placeBlock b s).scan = s.scan ∧ (placeBlock b s).power = s.power ∧ (placeBlock b s).port = s.port := by
  unfold placeBlock; (try dsimp only); (repeat' split) <;> simp

@[simp] theorem streamBlock_frame (b : AudioBlock) (s : State) :
    (streamBlock b s).pending = s.pending ∧ (streamBlock b s).free = s.free ∧ (streamBlock b s).pins = s.pins ∧
    (streamBlock b s).straps = s.straps ∧ (streamBlock b s).loader = s.loader ∧
    (streamBlock b s).spine = s.spine ∧ (streamBlock b s).intake = s.intake ∧ (streamBlock b s).cmd = s.cmd ∧
    (streamBlock b s).time = s.time ∧ (streamBlock b s).sched = s.sched ∧ (streamBlock b s).motion = s.motion ∧
    (streamBlock b s).dials = s.dials ∧ (streamBlock b s).laneTx = s.laneTx ∧
    (streamBlock b s).laneRx = s.laneRx ∧ (streamBlock b s).store = s.store ∧ (streamBlock b s).scan = s.scan ∧
    (streamBlock b s).power = s.power ∧ (streamBlock b s).port = s.port := by
  unfold streamBlock; (try dsimp only); (repeat' split) <;> simp

@[simp] theorem takeBlock_frame (o : Node) (b : AudioBlock) (s : State) :
    (takeBlock o b s).pending = s.pending ∧ (takeBlock o b s).free = s.free ∧ (takeBlock o b s).pins = s.pins ∧
    (takeBlock o b s).straps = s.straps ∧ (takeBlock o b s).loader = s.loader ∧
    (takeBlock o b s).spine = s.spine ∧ (takeBlock o b s).intake = s.intake ∧ (takeBlock o b s).cmd = s.cmd ∧
    (takeBlock o b s).time = s.time ∧ (takeBlock o b s).sched = s.sched ∧ (takeBlock o b s).motion = s.motion ∧
    (takeBlock o b s).dials = s.dials ∧ (takeBlock o b s).laneTx = s.laneTx ∧
    (takeBlock o b s).laneRx = s.laneRx ∧ (takeBlock o b s).store = s.store ∧ (takeBlock o b s).scan = s.scan ∧
    (takeBlock o b s).power = s.power ∧ (takeBlock o b s).port = s.port := by
  unfold takeBlock; (try dsimp only); (repeat' split) <;> simp

@[simp] theorem takeAudio_frame (r : Rank) (b : List Byte) (s : State) :
    (takeAudio r b s).pending = s.pending ∧ (takeAudio r b s).free = s.free ∧ (takeAudio r b s).pins = s.pins ∧
    (takeAudio r b s).straps = s.straps ∧ (takeAudio r b s).loader = s.loader ∧
    (takeAudio r b s).spine = s.spine ∧ (takeAudio r b s).intake = s.intake ∧ (takeAudio r b s).cmd = s.cmd ∧
    (takeAudio r b s).time = s.time ∧ (takeAudio r b s).sched = s.sched ∧ (takeAudio r b s).motion = s.motion ∧
    (takeAudio r b s).dials = s.dials ∧ (takeAudio r b s).laneTx = s.laneTx ∧
    (takeAudio r b s).laneRx = s.laneRx ∧ (takeAudio r b s).store = s.store ∧ (takeAudio r b s).scan = s.scan ∧
    (takeAudio r b s).power = s.power ∧ (takeAudio r b s).port = s.port := by
  unfold takeAudio; (try dsimp only); (repeat' split) <;> simp

@[simp] theorem giveFrame_frame (s : State) :
    (giveFrame s).2.pending = s.pending ∧ (giveFrame s).2.free = s.free ∧ (giveFrame s).2.pins = s.pins ∧
    (giveFrame s).2.straps = s.straps ∧ (giveFrame s).2.loader = s.loader ∧ (giveFrame s).2.spine = s.spine ∧
    (giveFrame s).2.intake = s.intake ∧ (giveFrame s).2.cmd = s.cmd ∧ (giveFrame s).2.time = s.time ∧
    (giveFrame s).2.sched = s.sched ∧ (giveFrame s).2.motion = s.motion ∧ (giveFrame s).2.dials = s.dials ∧
    (giveFrame s).2.laneTx = s.laneTx ∧ (giveFrame s).2.laneRx = s.laneRx ∧ (giveFrame s).2.store = s.store ∧
    (giveFrame s).2.scan = s.scan ∧ (giveFrame s).2.power = s.power ∧ (giveFrame s).2.port = s.port := by
  unfold giveFrame; (try dsimp only); (repeat' split) <;> simp

@[simp] theorem playFrame_frame (s : State) :
    (playFrame s).pending = s.pending ∧ (playFrame s).free = s.free ∧ (playFrame s).straps = s.straps ∧
    (playFrame s).loader = s.loader ∧ (playFrame s).spine = s.spine ∧ (playFrame s).intake = s.intake ∧
    (playFrame s).cmd = s.cmd ∧ (playFrame s).time = s.time ∧ (playFrame s).sched = s.sched ∧
    (playFrame s).motion = s.motion ∧ (playFrame s).dials = s.dials ∧ (playFrame s).laneTx = s.laneTx ∧
    (playFrame s).laneRx = s.laneRx ∧ (playFrame s).store = s.store ∧ (playFrame s).scan = s.scan ∧
    (playFrame s).power = s.power ∧ (playFrame s).port = s.port := by
  unfold playFrame; (try dsimp only); (repeat' split) <;> simp

@[simp] theorem updCapture_frame (f : Capture → Capture) (s : State) :
    (s.updCapture f).pending = s.pending ∧ (s.updCapture f).free = s.free ∧ (s.updCapture f).pins = s.pins ∧
    (s.updCapture f).straps = s.straps ∧ (s.updCapture f).loader = s.loader ∧ (s.updCapture f).spine = s.spine ∧
    (s.updCapture f).slots = s.slots ∧ (s.updCapture f).intake = s.intake ∧ (s.updCapture f).cmd = s.cmd ∧
    (s.updCapture f).alarms = s.alarms ∧ (s.updCapture f).time = s.time ∧ (s.updCapture f).sched = s.sched ∧
    (s.updCapture f).motion = s.motion ∧ (s.updCapture f).dials = s.dials ∧ (s.updCapture f).laneTx = s.laneTx ∧
    (s.updCapture f).laneRx = s.laneRx ∧ (s.updCapture f).store = s.store ∧ (s.updCapture f).scan = s.scan ∧
    (s.updCapture f).power = s.power ∧ (s.updCapture f).port = s.port := by
  unfold State.updCapture; (try dsimp only); (repeat' split) <;> simp

@[simp] theorem loadCapture_frame (b : List Byte) (s : State) :
    (loadCapture b s).pending = s.pending ∧ (loadCapture b s).free = s.free ∧ (loadCapture b s).pins = s.pins ∧
    (loadCapture b s).straps = s.straps ∧ (loadCapture b s).loader = s.loader ∧
    (loadCapture b s).spine = s.spine ∧ (loadCapture b s).intake = s.intake ∧ (loadCapture b s).cmd = s.cmd ∧
    (loadCapture b s).time = s.time ∧ (loadCapture b s).sched = s.sched ∧ (loadCapture b s).motion = s.motion ∧
    (loadCapture b s).dials = s.dials ∧ (loadCapture b s).laneTx = s.laneTx ∧
    (loadCapture b s).laneRx = s.laneRx ∧ (loadCapture b s).store = s.store ∧ (loadCapture b s).scan = s.scan ∧
    (loadCapture b s).power = s.power ∧ (loadCapture b s).port = s.port := by
  unfold loadCapture; (try dsimp only); (repeat' split) <;> simp

@[simp] theorem sampleIntoA_frame (v : BitVec 16) (s : State) :
    (sampleIntoA v s).pending = s.pending ∧ (sampleIntoA v s).free = s.free ∧ (sampleIntoA v s).pins = s.pins ∧
    (sampleIntoA v s).straps = s.straps ∧ (sampleIntoA v s).loader = s.loader ∧
    (sampleIntoA v s).spine = s.spine ∧ (sampleIntoA v s).intake = s.intake ∧ (sampleIntoA v s).cmd = s.cmd ∧
    (sampleIntoA v s).time = s.time ∧ (sampleIntoA v s).sched = s.sched ∧ (sampleIntoA v s).motion = s.motion ∧
    (sampleIntoA v s).dials = s.dials ∧ (sampleIntoA v s).laneTx = s.laneTx ∧
    (sampleIntoA v s).laneRx = s.laneRx ∧ (sampleIntoA v s).store = s.store ∧ (sampleIntoA v s).scan = s.scan ∧
    (sampleIntoA v s).power = s.power ∧ (sampleIntoA v s).port = s.port := by
  unfold sampleIntoA; (try dsimp only); (repeat' split) <;> simp

@[simp] theorem sampleIntoB_frame (v : BitVec 16) (s : State) :
    (sampleIntoB v s).pending = s.pending ∧ (sampleIntoB v s).free = s.free ∧ (sampleIntoB v s).pins = s.pins ∧
    (sampleIntoB v s).straps = s.straps ∧ (sampleIntoB v s).loader = s.loader ∧
    (sampleIntoB v s).spine = s.spine ∧ (sampleIntoB v s).intake = s.intake ∧ (sampleIntoB v s).cmd = s.cmd ∧
    (sampleIntoB v s).time = s.time ∧ (sampleIntoB v s).sched = s.sched ∧ (sampleIntoB v s).motion = s.motion ∧
    (sampleIntoB v s).dials = s.dials ∧ (sampleIntoB v s).laneTx = s.laneTx ∧
    (sampleIntoB v s).laneRx = s.laneRx ∧ (sampleIntoB v s).store = s.store ∧ (sampleIntoB v s).scan = s.scan ∧
    (sampleIntoB v s).power = s.power ∧ (sampleIntoB v s).port = s.port := by
  unfold sampleIntoB; (try dsimp only); (repeat' split) <;> simp

@[simp] theorem captureSample_frame (v : BitVec 16) (s : State) :
    (captureSample v s).pending = s.pending ∧ (captureSample v s).free = s.free ∧
    (captureSample v s).pins = s.pins ∧ (captureSample v s).straps = s.straps ∧
    (captureSample v s).loader = s.loader ∧ (captureSample v s).spine = s.spine ∧
    (captureSample v s).intake = s.intake ∧ (captureSample v s).cmd = s.cmd ∧ (captureSample v s).time = s.time ∧
    (captureSample v s).sched = s.sched ∧ (captureSample v s).motion = s.motion ∧
    (captureSample v s).dials = s.dials ∧ (captureSample v s).laneTx = s.laneTx ∧
    (captureSample v s).laneRx = s.laneRx ∧ (captureSample v s).store = s.store ∧
    (captureSample v s).scan = s.scan ∧ (captureSample v s).power = s.power ∧ (captureSample v s).port = s.port := by
  unfold captureSample; (try dsimp only); (repeat' split) <;> simp

@[simp] theorem leaveService_frame (s : State) :
    (leaveService s).pending = s.pending ∧ (leaveService s).free = s.free ∧ (leaveService s).pins = s.pins ∧
    (leaveService s).straps = s.straps ∧ (leaveService s).loader = s.loader ∧ (leaveService s).spine = s.spine ∧
    (leaveService s).slots = s.slots ∧ (leaveService s).intake = s.intake ∧ (leaveService s).cmd = s.cmd ∧
    (leaveService s).alarms = s.alarms ∧ (leaveService s).time = s.time ∧ (leaveService s).sched = s.sched ∧
    (leaveService s).motion = s.motion ∧ (leaveService s).dials = s.dials ∧ (leaveService s).laneTx = s.laneTx ∧
    (leaveService s).laneRx = s.laneRx ∧ (leaveService s).store = s.store ∧ (leaveService s).scan = s.scan ∧
    (leaveService s).power = s.power ∧ (leaveService s).port = s.port := by
  unfold leaveService; (try dsimp only); (repeat' split) <;> simp

@[simp] theorem returnToService_frame (s : State) :
    (returnToService s).pending = s.pending ∧ (returnToService s).free = s.free ∧
    (returnToService s).pins = s.pins ∧ (returnToService s).straps = s.straps ∧
    (returnToService s).loader = s.loader ∧ (returnToService s).spine = s.spine ∧
    (returnToService s).intake = s.intake ∧ (returnToService s).cmd = s.cmd ∧
    (returnToService s).alarms = s.alarms ∧ (returnToService s).time = s.time ∧
    (returnToService s).sched = s.sched ∧ (returnToService s).motion = s.motion ∧
    (returnToService s).dials = s.dials ∧ (returnToService s).laneTx = s.laneTx ∧
    (returnToService s).laneRx = s.laneRx ∧ (returnToService s).store = s.store ∧
    (returnToService s).scan = s.scan ∧ (returnToService s).power = s.power ∧ (returnToService s).port = s.port := by
  unfold returnToService; (try dsimp only); (repeat' split) <;> simp

/-! ### Time -/

@[simp] theorem moveHeld_frame (d : Int) (s : State) :
    (moveHeld d s).pending = s.pending ∧ (moveHeld d s).free = s.free ∧ (moveHeld d s).pins = s.pins ∧
    (moveHeld d s).straps = s.straps ∧ (moveHeld d s).loader = s.loader ∧ (moveHeld d s).slots = s.slots ∧
    (moveHeld d s).intake = s.intake ∧ (moveHeld d s).cmd = s.cmd ∧ (moveHeld d s).alarms = s.alarms ∧
    (moveHeld d s).sched = s.sched ∧ (moveHeld d s).motion = s.motion ∧ (moveHeld d s).dials = s.dials ∧
    (moveHeld d s).laneTx = s.laneTx ∧ (moveHeld d s).laneRx = s.laneRx ∧ (moveHeld d s).store = s.store ∧
    (moveHeld d s).scan = s.scan ∧ (moveHeld d s).audio = s.audio ∧ (moveHeld d s).power = s.power ∧
    (moveHeld d s).port = s.port := by
  unfold moveHeld; (try dsimp only); (repeat' split) <;> simp

@[simp] theorem stepTime_frame (e : Int) (s : State) :
    (stepTime e s).pending = s.pending ∧ (stepTime e s).free = s.free ∧ (stepTime e s).pins = s.pins ∧
    (stepTime e s).straps = s.straps ∧ (stepTime e s).loader = s.loader ∧ (stepTime e s).slots = s.slots ∧
    (stepTime e s).intake = s.intake ∧ (stepTime e s).cmd = s.cmd ∧ (stepTime e s).alarms = s.alarms ∧
    (stepTime e s).sched = s.sched ∧ (stepTime e s).motion = s.motion ∧ (stepTime e s).dials = s.dials ∧
    (stepTime e s).laneTx = s.laneTx ∧ (stepTime e s).laneRx = s.laneRx ∧ (stepTime e s).store = s.store ∧
    (stepTime e s).scan = s.scan ∧ (stepTime e s).audio = s.audio ∧ (stepTime e s).power = s.power ∧
    (stepTime e s).port = s.port := by
  unfold stepTime; (try dsimp only); (repeat' split) <;> simp

@[simp] theorem slewTime_frame (e : Int) (s : State) :
    (slewTime e s).pending = s.pending ∧ (slewTime e s).free = s.free ∧ (slewTime e s).pins = s.pins ∧
    (slewTime e s).straps = s.straps ∧ (slewTime e s).loader = s.loader ∧ (slewTime e s).spine = s.spine ∧
    (slewTime e s).slots = s.slots ∧ (slewTime e s).intake = s.intake ∧ (slewTime e s).cmd = s.cmd ∧
    (slewTime e s).alarms = s.alarms ∧ (slewTime e s).sched = s.sched ∧ (slewTime e s).motion = s.motion ∧
    (slewTime e s).dials = s.dials ∧ (slewTime e s).laneTx = s.laneTx ∧ (slewTime e s).laneRx = s.laneRx ∧
    (slewTime e s).store = s.store ∧ (slewTime e s).scan = s.scan ∧ (slewTime e s).audio = s.audio ∧
    (slewTime e s).power = s.power ∧ (slewTime e s).port = s.port := by
  unfold slewTime; (try dsimp only); (repeat' split) <;> simp

@[simp] theorem correct_frame (e : Int) (s : State) :
    (correct e s).pending = s.pending ∧ (correct e s).free = s.free ∧ (correct e s).pins = s.pins ∧
    (correct e s).straps = s.straps ∧ (correct e s).loader = s.loader ∧ (correct e s).intake = s.intake ∧
    (correct e s).cmd = s.cmd ∧ (correct e s).sched = s.sched ∧ (correct e s).motion = s.motion ∧
    (correct e s).dials = s.dials ∧ (correct e s).laneTx = s.laneTx ∧ (correct e s).laneRx = s.laneRx ∧
    (correct e s).store = s.store ∧ (correct e s).scan = s.scan ∧ (correct e s).audio = s.audio ∧
    (correct e s).power = s.power ∧ (correct e s).port = s.port := by
  unfold correct; (try dsimp only); (repeat' split) <;> simp

@[simp] theorem takeReference_frame (s : State) :
    (takeReference s).pending = s.pending ∧ (takeReference s).free = s.free ∧ (takeReference s).pins = s.pins ∧
    (takeReference s).straps = s.straps ∧ (takeReference s).loader = s.loader ∧
    (takeReference s).spine = s.spine ∧ (takeReference s).slots = s.slots ∧ (takeReference s).intake = s.intake ∧
    (takeReference s).cmd = s.cmd ∧ (takeReference s).alarms = s.alarms ∧ (takeReference s).sched = s.sched ∧
    (takeReference s).motion = s.motion ∧ (takeReference s).dials = s.dials ∧
    (takeReference s).laneTx = s.laneTx ∧ (takeReference s).laneRx = s.laneRx ∧
    (takeReference s).store = s.store ∧ (takeReference s).scan = s.scan ∧ (takeReference s).audio = s.audio ∧
    (takeReference s).power = s.power ∧ (takeReference s).port = s.port := by
  unfold takeReference; (try dsimp only); (repeat' split) <;> simp

@[simp] theorem settleTimelost_frame (b : Option Node) (s : State) :
    (settleTimelost b s).pending = s.pending ∧ (settleTimelost b s).free = s.free ∧
    (settleTimelost b s).pins = s.pins ∧ (settleTimelost b s).straps = s.straps ∧
    (settleTimelost b s).loader = s.loader ∧ (settleTimelost b s).spine = s.spine ∧
    (settleTimelost b s).intake = s.intake ∧ (settleTimelost b s).cmd = s.cmd ∧
    (settleTimelost b s).sched = s.sched ∧ (settleTimelost b s).motion = s.motion ∧
    (settleTimelost b s).dials = s.dials ∧ (settleTimelost b s).laneTx = s.laneTx ∧
    (settleTimelost b s).laneRx = s.laneRx ∧ (settleTimelost b s).store = s.store ∧
    (settleTimelost b s).scan = s.scan ∧ (settleTimelost b s).audio = s.audio ∧
    (settleTimelost b s).power = s.power ∧ (settleTimelost b s).port = s.port := by
  unfold settleTimelost; (try dsimp only); (repeat' split) <;> simp

@[simp] theorem rechoose_frame (s : State) :
    (rechoose s).pending = s.pending ∧ (rechoose s).free = s.free ∧ (rechoose s).pins = s.pins ∧
    (rechoose s).straps = s.straps ∧ (rechoose s).loader = s.loader ∧ (rechoose s).spine = s.spine ∧
    (rechoose s).intake = s.intake ∧ (rechoose s).cmd = s.cmd ∧ (rechoose s).sched = s.sched ∧
    (rechoose s).motion = s.motion ∧ (rechoose s).dials = s.dials ∧ (rechoose s).laneTx = s.laneTx ∧
    (rechoose s).laneRx = s.laneRx ∧ (rechoose s).store = s.store ∧ (rechoose s).scan = s.scan ∧
    (rechoose s).audio = s.audio ∧ (rechoose s).power = s.power ∧ (rechoose s).port = s.port := by
  unfold rechoose; (try dsimp only); (repeat' split) <;> simp

@[simp] theorem rechooseAtEntry_frame (s : State) :
    (rechooseAtEntry s).pending = s.pending ∧ (rechooseAtEntry s).free = s.free ∧
    (rechooseAtEntry s).pins = s.pins ∧ (rechooseAtEntry s).straps = s.straps ∧
    (rechooseAtEntry s).loader = s.loader ∧ (rechooseAtEntry s).spine = s.spine ∧
    (rechooseAtEntry s).intake = s.intake ∧ (rechooseAtEntry s).cmd = s.cmd ∧
    (rechooseAtEntry s).sched = s.sched ∧ (rechooseAtEntry s).motion = s.motion ∧
    (rechooseAtEntry s).dials = s.dials ∧ (rechooseAtEntry s).laneTx = s.laneTx ∧
    (rechooseAtEntry s).laneRx = s.laneRx ∧ (rechooseAtEntry s).store = s.store ∧
    (rechooseAtEntry s).scan = s.scan ∧ (rechooseAtEntry s).audio = s.audio ∧
    (rechooseAtEntry s).power = s.power ∧ (rechooseAtEntry s).port = s.port := by
  unfold rechooseAtEntry; (try dsimp only); (repeat' split) <;> simp

@[simp] theorem enterRunning_frame (s : State) :
    (enterRunning s).pending = s.pending ∧ (enterRunning s).free = s.free ∧ (enterRunning s).pins = s.pins ∧
    (enterRunning s).straps = s.straps ∧ (enterRunning s).spine = s.spine ∧ (enterRunning s).intake = s.intake ∧
    (enterRunning s).cmd = s.cmd ∧ (enterRunning s).sched = s.sched ∧ (enterRunning s).motion = s.motion ∧
    (enterRunning s).dials = s.dials ∧ (enterRunning s).laneTx = s.laneTx ∧ (enterRunning s).laneRx = s.laneRx ∧
    (enterRunning s).store = s.store ∧ (enterRunning s).scan = s.scan ∧ (enterRunning s).power = s.power ∧
    (enterRunning s).port = s.port := by
  unfold enterRunning; (try dsimp only); (repeat' split) <;> simp

@[simp] theorem leaveListening_frame (s : State) :
    (leaveListening s).pending = s.pending ∧ (leaveListening s).free = s.free ∧ (leaveListening s).pins = s.pins ∧
    (leaveListening s).straps = s.straps ∧ (leaveListening s).spine = s.spine ∧
    (leaveListening s).intake = s.intake ∧ (leaveListening s).cmd = s.cmd ∧ (leaveListening s).sched = s.sched ∧
    (leaveListening s).motion = s.motion ∧ (leaveListening s).dials = s.dials ∧
    (leaveListening s).laneTx = s.laneTx ∧ (leaveListening s).laneRx = s.laneRx ∧
    (leaveListening s).store = s.store ∧ (leaveListening s).scan = s.scan ∧ (leaveListening s).power = s.power ∧
    (leaveListening s).port = s.port := by
  unfold leaveListening; (try dsimp only); (repeat' split) <;> simp

@[simp] theorem countBeacon_frame (p : Bool) (s : State) :
    (countBeacon p s).pending = s.pending ∧ (countBeacon p s).free = s.free ∧ (countBeacon p s).pins = s.pins ∧
    (countBeacon p s).straps = s.straps ∧ (countBeacon p s).loader = s.loader ∧
    (countBeacon p s).spine = s.spine ∧ (countBeacon p s).slots = s.slots ∧ (countBeacon p s).intake = s.intake ∧
    (countBeacon p s).cmd = s.cmd ∧ (countBeacon p s).alarms = s.alarms ∧ (countBeacon p s).sched = s.sched ∧
    (countBeacon p s).motion = s.motion ∧ (countBeacon p s).dials = s.dials ∧
    (countBeacon p s).laneTx = s.laneTx ∧ (countBeacon p s).laneRx = s.laneRx ∧
    (countBeacon p s).store = s.store ∧ (countBeacon p s).scan = s.scan ∧ (countBeacon p s).audio = s.audio ∧
    (countBeacon p s).power = s.power ∧ (countBeacon p s).port = s.port := by
  unfold countBeacon; (try dsimp only); (repeat' split) <;> simp

@[simp] theorem recordBeacon_frame (b : Beacon) (t : Int) (s : State) :
    (recordBeacon b t s).pending = s.pending ∧ (recordBeacon b t s).free = s.free ∧
    (recordBeacon b t s).pins = s.pins ∧ (recordBeacon b t s).straps = s.straps ∧
    (recordBeacon b t s).loader = s.loader ∧ (recordBeacon b t s).spine = s.spine ∧
    (recordBeacon b t s).intake = s.intake ∧ (recordBeacon b t s).cmd = s.cmd ∧
    (recordBeacon b t s).sched = s.sched ∧ (recordBeacon b t s).motion = s.motion ∧
    (recordBeacon b t s).dials = s.dials ∧ (recordBeacon b t s).laneTx = s.laneTx ∧
    (recordBeacon b t s).laneRx = s.laneRx ∧ (recordBeacon b t s).store = s.store ∧
    (recordBeacon b t s).scan = s.scan ∧ (recordBeacon b t s).audio = s.audio ∧
    (recordBeacon b t s).power = s.power ∧ (recordBeacon b t s).port = s.port := by
  unfold recordBeacon; (try dsimp only); (repeat' split) <;> simp

@[simp] theorem takeBeacon_frame (b : Beacon) (t : Int) (s : State) :
    (takeBeacon b t s).pending = s.pending ∧ (takeBeacon b t s).free = s.free ∧ (takeBeacon b t s).pins = s.pins ∧
    (takeBeacon b t s).straps = s.straps ∧ (takeBeacon b t s).intake = s.intake ∧ (takeBeacon b t s).cmd = s.cmd ∧
    (takeBeacon b t s).sched = s.sched ∧ (takeBeacon b t s).motion = s.motion ∧
    (takeBeacon b t s).dials = s.dials ∧ (takeBeacon b t s).laneTx = s.laneTx ∧
    (takeBeacon b t s).laneRx = s.laneRx ∧ (takeBeacon b t s).store = s.store ∧ (takeBeacon b t s).scan = s.scan ∧
    (takeBeacon b t s).power = s.power ∧ (takeBeacon b t s).port = s.port := by
  unfold takeBeacon; (try dsimp only); (repeat' split) <;> simp

@[simp] theorem takeTime_frame (r : Rank) (b : List Byte) (t : Int) (s : State) :
    (takeTime r b t s).pending = s.pending ∧ (takeTime r b t s).free = s.free ∧ (takeTime r b t s).pins = s.pins ∧
    (takeTime r b t s).straps = s.straps ∧ (takeTime r b t s).intake = s.intake ∧ (takeTime r b t s).cmd = s.cmd ∧
    (takeTime r b t s).sched = s.sched ∧ (takeTime r b t s).motion = s.motion ∧
    (takeTime r b t s).dials = s.dials ∧ (takeTime r b t s).laneTx = s.laneTx ∧
    (takeTime r b t s).laneRx = s.laneRx ∧ (takeTime r b t s).store = s.store ∧ (takeTime r b t s).scan = s.scan ∧
    (takeTime r b t s).power = s.power ∧ (takeTime r b t s).port = s.port := by
  unfold takeTime; (try dsimp only); (repeat' split) <;> simp

@[simp] theorem expireRecord_frame (o : Node) (s : State) :
    (expireRecord o s).pending = s.pending ∧ (expireRecord o s).free = s.free ∧ (expireRecord o s).pins = s.pins ∧
    (expireRecord o s).straps = s.straps ∧ (expireRecord o s).loader = s.loader ∧
    (expireRecord o s).spine = s.spine ∧ (expireRecord o s).intake = s.intake ∧ (expireRecord o s).cmd = s.cmd ∧
    (expireRecord o s).sched = s.sched ∧ (expireRecord o s).motion = s.motion ∧
    (expireRecord o s).dials = s.dials ∧ (expireRecord o s).laneTx = s.laneTx ∧
    (expireRecord o s).laneRx = s.laneRx ∧ (expireRecord o s).store = s.store ∧ (expireRecord o s).scan = s.scan ∧
    (expireRecord o s).audio = s.audio ∧ (expireRecord o s).power = s.power ∧ (expireRecord o s).port = s.port := by
  unfold expireRecord; (try dsimp only); (repeat' split) <;> simp

@[simp] theorem fireBeacon_frame (s : State) :
    (fireBeacon s).pending = s.pending ∧ (fireBeacon s).free = s.free ∧ (fireBeacon s).pins = s.pins ∧
    (fireBeacon s).straps = s.straps ∧ (fireBeacon s).loader = s.loader ∧ (fireBeacon s).spine = s.spine ∧
    (fireBeacon s).intake = s.intake ∧ (fireBeacon s).cmd = s.cmd ∧ (fireBeacon s).alarms = s.alarms ∧
    (fireBeacon s).sched = s.sched ∧ (fireBeacon s).motion = s.motion ∧ (fireBeacon s).dials = s.dials ∧
    (fireBeacon s).laneTx = s.laneTx ∧ (fireBeacon s).laneRx = s.laneRx ∧ (fireBeacon s).store = s.store ∧
    (fireBeacon s).scan = s.scan ∧ (fireBeacon s).audio = s.audio ∧ (fireBeacon s).power = s.power ∧
    (fireBeacon s).port = s.port := by
  unfold fireBeacon; (try dsimp only); (repeat' split) <;> simp

@[simp] theorem beaconSent_frame (t : Int) (s : State) :
    (beaconSent t s).pending = s.pending ∧ (beaconSent t s).free = s.free ∧ (beaconSent t s).pins = s.pins ∧
    (beaconSent t s).straps = s.straps ∧ (beaconSent t s).loader = s.loader ∧ (beaconSent t s).spine = s.spine ∧
    (beaconSent t s).slots = s.slots ∧ (beaconSent t s).intake = s.intake ∧ (beaconSent t s).cmd = s.cmd ∧
    (beaconSent t s).alarms = s.alarms ∧ (beaconSent t s).sched = s.sched ∧ (beaconSent t s).motion = s.motion ∧
    (beaconSent t s).dials = s.dials ∧ (beaconSent t s).laneTx = s.laneTx ∧ (beaconSent t s).laneRx = s.laneRx ∧
    (beaconSent t s).store = s.store ∧ (beaconSent t s).scan = s.scan ∧ (beaconSent t s).audio = s.audio ∧
    (beaconSent t s).power = s.power ∧ (beaconSent t s).port = s.port := by
  unfold beaconSent; (try dsimp only); (repeat' split) <;> simp

/-! ### Motion and dials -/

@[simp] theorem fireSample_frame (s : State) :
    (fireSample s).pending = s.pending ∧ (fireSample s).free = s.free ∧ (fireSample s).pins = s.pins ∧
    (fireSample s).straps = s.straps ∧ (fireSample s).loader = s.loader ∧ (fireSample s).spine = s.spine ∧
    (fireSample s).slots = s.slots ∧ (fireSample s).intake = s.intake ∧ (fireSample s).cmd = s.cmd ∧
    (fireSample s).alarms = s.alarms ∧ (fireSample s).time = s.time ∧ (fireSample s).sched = s.sched ∧
    (fireSample s).dials = s.dials ∧ (fireSample s).laneTx = s.laneTx ∧ (fireSample s).laneRx = s.laneRx ∧
    (fireSample s).store = s.store ∧ (fireSample s).scan = s.scan ∧ (fireSample s).audio = s.audio ∧
    (fireSample s).power = s.power ∧ (fireSample s).port = s.port := by
  unfold fireSample; (try dsimp only); (repeat' split) <;> simp

@[simp] theorem firePoseReport_frame (s : State) :
    (firePoseReport s).pending = s.pending ∧ (firePoseReport s).free = s.free ∧ (firePoseReport s).pins = s.pins ∧
    (firePoseReport s).straps = s.straps ∧ (firePoseReport s).loader = s.loader ∧
    (firePoseReport s).spine = s.spine ∧ (firePoseReport s).intake = s.intake ∧ (firePoseReport s).cmd = s.cmd ∧
    (firePoseReport s).alarms = s.alarms ∧ (firePoseReport s).time = s.time ∧ (firePoseReport s).sched = s.sched ∧
    (firePoseReport s).dials = s.dials ∧ (firePoseReport s).laneTx = s.laneTx ∧
    (firePoseReport s).laneRx = s.laneRx ∧ (firePoseReport s).store = s.store ∧ (firePoseReport s).scan = s.scan ∧
    (firePoseReport s).audio = s.audio ∧ (firePoseReport s).power = s.power ∧ (firePoseReport s).port = s.port := by
  unfold firePoseReport; (try dsimp only); (repeat' split) <;> simp

@[simp] theorem completeGood_frame (t : Nat) (r a : Triple (BitVec 16)) (s : State) :
    (completeGood t r a s).pending = s.pending ∧ (completeGood t r a s).free = s.free ∧
    (completeGood t r a s).pins = s.pins ∧ (completeGood t r a s).straps = s.straps ∧
    (completeGood t r a s).loader = s.loader ∧ (completeGood t r a s).spine = s.spine ∧
    (completeGood t r a s).slots = s.slots ∧ (completeGood t r a s).intake = s.intake ∧
    (completeGood t r a s).cmd = s.cmd ∧ (completeGood t r a s).time = s.time ∧
    (completeGood t r a s).sched = s.sched ∧ (completeGood t r a s).dials = s.dials ∧
    (completeGood t r a s).laneTx = s.laneTx ∧ (completeGood t r a s).laneRx = s.laneRx ∧
    (completeGood t r a s).store = s.store ∧ (completeGood t r a s).scan = s.scan ∧
    (completeGood t r a s).audio = s.audio ∧ (completeGood t r a s).power = s.power ∧
    (completeGood t r a s).port = s.port := by
  unfold completeGood; (try dsimp only); (repeat' split) <;> simp

@[simp] theorem countTimedOut_frame (s : State) :
    (countTimedOut s).pending = s.pending ∧ (countTimedOut s).free = s.free ∧ (countTimedOut s).pins = s.pins ∧
    (countTimedOut s).straps = s.straps ∧ (countTimedOut s).loader = s.loader ∧
    (countTimedOut s).spine = s.spine ∧ (countTimedOut s).slots = s.slots ∧ (countTimedOut s).intake = s.intake ∧
    (countTimedOut s).cmd = s.cmd ∧ (countTimedOut s).alarms = s.alarms ∧ (countTimedOut s).time = s.time ∧
    (countTimedOut s).sched = s.sched ∧ (countTimedOut s).dials = s.dials ∧ (countTimedOut s).laneTx = s.laneTx ∧
    (countTimedOut s).laneRx = s.laneRx ∧ (countTimedOut s).store = s.store ∧ (countTimedOut s).scan = s.scan ∧
    (countTimedOut s).audio = s.audio ∧ (countTimedOut s).power = s.power ∧ (countTimedOut s).port = s.port := by
  unfold countTimedOut; (try dsimp only); (repeat' split) <;> simp

@[simp] theorem completeFailed_frame (t : Nat) (s : State) :
    (completeFailed t s).pending = s.pending ∧ (completeFailed t s).free = s.free ∧
    (completeFailed t s).pins = s.pins ∧ (completeFailed t s).straps = s.straps ∧
    (completeFailed t s).loader = s.loader ∧ (completeFailed t s).spine = s.spine ∧
    (completeFailed t s).intake = s.intake ∧ (completeFailed t s).cmd = s.cmd ∧
    (completeFailed t s).time = s.time ∧ (completeFailed t s).sched = s.sched ∧
    (completeFailed t s).dials = s.dials ∧ (completeFailed t s).laneTx = s.laneTx ∧
    (completeFailed t s).laneRx = s.laneRx ∧ (completeFailed t s).store = s.store ∧
    (completeFailed t s).scan = s.scan ∧ (completeFailed t s).audio = s.audio ∧
    (completeFailed t s).power = s.power ∧ (completeFailed t s).port = s.port := by
  unfold completeFailed; (try dsimp only); (repeat' split) <;> simp

@[simp] theorem completeRead_frame (y : Bool) (r a : Triple (BitVec 16)) (k : SensorRead) (s : State) :
    (completeRead y r a k s).pending = s.pending ∧ (completeRead y r a k s).free = s.free ∧
    (completeRead y r a k s).pins = s.pins ∧ (completeRead y r a k s).straps = s.straps ∧
    (completeRead y r a k s).loader = s.loader ∧ (completeRead y r a k s).spine = s.spine ∧
    (completeRead y r a k s).intake = s.intake ∧ (completeRead y r a k s).cmd = s.cmd ∧
    (completeRead y r a k s).time = s.time ∧ (completeRead y r a k s).sched = s.sched ∧
    (completeRead y r a k s).dials = s.dials ∧ (completeRead y r a k s).laneTx = s.laneTx ∧
    (completeRead y r a k s).laneRx = s.laneRx ∧ (completeRead y r a k s).store = s.store ∧
    (completeRead y r a k s).scan = s.scan ∧ (completeRead y r a k s).audio = s.audio ∧
    (completeRead y r a k s).power = s.power ∧ (completeRead y r a k s).port = s.port := by
  unfold completeRead; (try dsimp only); (repeat' split) <;> simp

@[simp] theorem latchDials_frame (s : State) :
    (latchDials s).pending = s.pending ∧ (latchDials s).free = s.free ∧ (latchDials s).pins = s.pins ∧
    (latchDials s).straps = s.straps ∧ (latchDials s).loader = s.loader ∧ (latchDials s).spine = s.spine ∧
    (latchDials s).slots = s.slots ∧ (latchDials s).intake = s.intake ∧ (latchDials s).cmd = s.cmd ∧
    (latchDials s).alarms = s.alarms ∧ (latchDials s).time = s.time ∧ (latchDials s).sched = s.sched ∧
    (latchDials s).motion = s.motion ∧ (latchDials s).laneTx = s.laneTx ∧ (latchDials s).laneRx = s.laneRx ∧
    (latchDials s).store = s.store ∧ (latchDials s).scan = s.scan ∧ (latchDials s).audio = s.audio ∧
    (latchDials s).power = s.power ∧ (latchDials s).port = s.port := by
  unfold latchDials; (try dsimp only); (repeat' split) <;> simp

@[simp] theorem dialChange_frame (n : Dial) (a b : Bool) (s : State) :
    (dialChange n a b s).pending = s.pending ∧ (dialChange n a b s).free = s.free ∧
    (dialChange n a b s).straps = s.straps ∧ (dialChange n a b s).loader = s.loader ∧
    (dialChange n a b s).spine = s.spine ∧ (dialChange n a b s).slots = s.slots ∧
    (dialChange n a b s).intake = s.intake ∧ (dialChange n a b s).cmd = s.cmd ∧
    (dialChange n a b s).alarms = s.alarms ∧ (dialChange n a b s).time = s.time ∧
    (dialChange n a b s).sched = s.sched ∧ (dialChange n a b s).motion = s.motion ∧
    (dialChange n a b s).laneTx = s.laneTx ∧ (dialChange n a b s).laneRx = s.laneRx ∧
    (dialChange n a b s).store = s.store ∧ (dialChange n a b s).scan = s.scan ∧
    (dialChange n a b s).audio = s.audio ∧ (dialChange n a b s).power = s.power ∧
    (dialChange n a b s).port = s.port := by
  unfold dialChange; (try dsimp only); (repeat' split) <;> simp

/-! ### Scan -/

@[simp] theorem updScanEye_frame (e : Eye) (f : ScanEye → ScanEye) (s : State) :
    (s.updScanEye e f).pending = s.pending ∧ (s.updScanEye e f).free = s.free ∧ (s.updScanEye e f).pins = s.pins ∧
    (s.updScanEye e f).straps = s.straps ∧ (s.updScanEye e f).loader = s.loader ∧
    (s.updScanEye e f).spine = s.spine ∧ (s.updScanEye e f).slots = s.slots ∧
    (s.updScanEye e f).intake = s.intake ∧ (s.updScanEye e f).cmd = s.cmd ∧ (s.updScanEye e f).alarms = s.alarms ∧
    (s.updScanEye e f).time = s.time ∧ (s.updScanEye e f).sched = s.sched ∧ (s.updScanEye e f).motion = s.motion ∧
    (s.updScanEye e f).dials = s.dials ∧ (s.updScanEye e f).laneTx = s.laneTx ∧
    (s.updScanEye e f).laneRx = s.laneRx ∧ (s.updScanEye e f).store = s.store ∧
    (s.updScanEye e f).audio = s.audio ∧ (s.updScanEye e f).power = s.power ∧ (s.updScanEye e f).port = s.port := by
  unfold State.updScanEye; (try dsimp only); (repeat' split) <;> simp

@[simp] theorem countLateShow_frame (b : Fin 256) (s : State) :
    (countLateShow b s).pending = s.pending ∧ (countLateShow b s).free = s.free ∧
    (countLateShow b s).pins = s.pins ∧ (countLateShow b s).straps = s.straps ∧
    (countLateShow b s).loader = s.loader ∧ (countLateShow b s).spine = s.spine ∧
    (countLateShow b s).slots = s.slots ∧ (countLateShow b s).intake = s.intake ∧
    (countLateShow b s).cmd = s.cmd ∧ (countLateShow b s).alarms = s.alarms ∧ (countLateShow b s).time = s.time ∧
    (countLateShow b s).sched = s.sched ∧ (countLateShow b s).motion = s.motion ∧
    (countLateShow b s).dials = s.dials ∧ (countLateShow b s).laneTx = s.laneTx ∧
    (countLateShow b s).laneRx = s.laneRx ∧ (countLateShow b s).store = s.store ∧
    (countLateShow b s).audio = s.audio ∧ (countLateShow b s).power = s.power ∧
    (countLateShow b s).port = s.port := by
  unfold countLateShow; (try dsimp only); (repeat' split) <;> simp

@[simp] theorem showStale_frame (e : Eye) (k : Nat) (s : State) :
    (showStale e k s).pending = s.pending ∧ (showStale e k s).free = s.free ∧ (showStale e k s).pins = s.pins ∧
    (showStale e k s).straps = s.straps ∧ (showStale e k s).loader = s.loader ∧
    (showStale e k s).spine = s.spine ∧ (showStale e k s).slots = s.slots ∧ (showStale e k s).intake = s.intake ∧
    (showStale e k s).cmd = s.cmd ∧ (showStale e k s).alarms = s.alarms ∧ (showStale e k s).time = s.time ∧
    (showStale e k s).sched = s.sched ∧ (showStale e k s).motion = s.motion ∧ (showStale e k s).dials = s.dials ∧
    (showStale e k s).laneTx = s.laneTx ∧ (showStale e k s).laneRx = s.laneRx ∧
    (showStale e k s).audio = s.audio ∧ (showStale e k s).power = s.power ∧ (showStale e k s).port = s.port := by
  unfold showStale; (try dsimp only); (repeat' split) <;> simp

@[simp] theorem showBuffer_frame (e : Eye) (k : Nat) (s : State) :
    (showBuffer e k s).pending = s.pending ∧ (showBuffer e k s).free = s.free ∧ (showBuffer e k s).pins = s.pins ∧
    (showBuffer e k s).straps = s.straps ∧ (showBuffer e k s).loader = s.loader ∧
    (showBuffer e k s).spine = s.spine ∧ (showBuffer e k s).slots = s.slots ∧
    (showBuffer e k s).intake = s.intake ∧ (showBuffer e k s).cmd = s.cmd ∧ (showBuffer e k s).alarms = s.alarms ∧
    (showBuffer e k s).time = s.time ∧ (showBuffer e k s).sched = s.sched ∧ (showBuffer e k s).motion = s.motion ∧
    (showBuffer e k s).dials = s.dials ∧ (showBuffer e k s).laneTx = s.laneTx ∧
    (showBuffer e k s).laneRx = s.laneRx ∧ (showBuffer e k s).audio = s.audio ∧
    (showBuffer e k s).power = s.power ∧ (showBuffer e k s).port = s.port := by
  unfold showBuffer; (try dsimp only); (repeat' split) <;> simp

@[simp] theorem keepShift_frame (e : Eye) (k : Nat) (s : State) :
    (keepShift e k s).pending = s.pending ∧ (keepShift e k s).free = s.free ∧ (keepShift e k s).pins = s.pins ∧
    (keepShift e k s).straps = s.straps ∧ (keepShift e k s).loader = s.loader ∧
    (keepShift e k s).spine = s.spine ∧ (keepShift e k s).slots = s.slots ∧ (keepShift e k s).intake = s.intake ∧
    (keepShift e k s).cmd = s.cmd ∧ (keepShift e k s).alarms = s.alarms ∧ (keepShift e k s).time = s.time ∧
    (keepShift e k s).sched = s.sched ∧ (keepShift e k s).motion = s.motion ∧ (keepShift e k s).dials = s.dials ∧
    (keepShift e k s).laneTx = s.laneTx ∧ (keepShift e k s).laneRx = s.laneRx ∧
    (keepShift e k s).store = s.store ∧ (keepShift e k s).audio = s.audio ∧ (keepShift e k s).power = s.power ∧
    (keepShift e k s).port = s.port := by
  unfold keepShift; (try dsimp only); (repeat' split) <;> simp

@[simp] theorem reachSlice_frame (e : Eye) (k : Nat) (s : State) :
    (reachSlice e k s).pending = s.pending ∧ (reachSlice e k s).free = s.free ∧ (reachSlice e k s).pins = s.pins ∧
    (reachSlice e k s).straps = s.straps ∧ (reachSlice e k s).loader = s.loader ∧
    (reachSlice e k s).spine = s.spine ∧ (reachSlice e k s).slots = s.slots ∧
    (reachSlice e k s).intake = s.intake ∧ (reachSlice e k s).cmd = s.cmd ∧ (reachSlice e k s).alarms = s.alarms ∧
    (reachSlice e k s).time = s.time ∧ (reachSlice e k s).sched = s.sched ∧ (reachSlice e k s).motion = s.motion ∧
    (reachSlice e k s).dials = s.dials ∧ (reachSlice e k s).laneTx = s.laneTx ∧
    (reachSlice e k s).laneRx = s.laneRx ∧ (reachSlice e k s).audio = s.audio ∧
    (reachSlice e k s).power = s.power ∧ (reachSlice e k s).port = s.port := by
  unfold reachSlice; (try dsimp only); (repeat' split) <;> simp

@[simp] theorem openBehind_frame (e : Eye) (k : Nat) (s : State) :
    (openBehind e k s).pending = s.pending ∧ (openBehind e k s).free = s.free ∧ (openBehind e k s).pins = s.pins ∧
    (openBehind e k s).straps = s.straps ∧ (openBehind e k s).loader = s.loader ∧
    (openBehind e k s).spine = s.spine ∧ (openBehind e k s).intake = s.intake ∧ (openBehind e k s).cmd = s.cmd ∧
    (openBehind e k s).alarms = s.alarms ∧ (openBehind e k s).time = s.time ∧ (openBehind e k s).sched = s.sched ∧
    (openBehind e k s).motion = s.motion ∧ (openBehind e k s).dials = s.dials ∧
    (openBehind e k s).laneTx = s.laneTx ∧ (openBehind e k s).audio = s.audio ∧
    (openBehind e k s).power = s.power ∧ (openBehind e k s).port = s.port := by
  unfold openBehind; (try dsimp only); (repeat' split) <;> simp

@[simp] theorem takeOverMark_frame (e : Eye) (s : State) :
    (takeOverMark e s).pending = s.pending ∧ (takeOverMark e s).free = s.free ∧ (takeOverMark e s).pins = s.pins ∧
    (takeOverMark e s).straps = s.straps ∧ (takeOverMark e s).loader = s.loader ∧
    (takeOverMark e s).spine = s.spine ∧ (takeOverMark e s).slots = s.slots ∧
    (takeOverMark e s).intake = s.intake ∧ (takeOverMark e s).cmd = s.cmd ∧ (takeOverMark e s).alarms = s.alarms ∧
    (takeOverMark e s).time = s.time ∧ (takeOverMark e s).sched = s.sched ∧ (takeOverMark e s).motion = s.motion ∧
    (takeOverMark e s).dials = s.dials ∧ (takeOverMark e s).laneTx = s.laneTx ∧
    (takeOverMark e s).laneRx = s.laneRx ∧ (takeOverMark e s).store = s.store ∧
    (takeOverMark e s).audio = s.audio ∧ (takeOverMark e s).power = s.power ∧ (takeOverMark e s).port = s.port := by
  unfold takeOverMark; (try dsimp only); (repeat' split) <;> simp

@[simp] theorem leaveSlice_frame (e : Eye) (k : Nat) (s : State) :
    (leaveSlice e k s).pending = s.pending ∧ (leaveSlice e k s).free = s.free ∧ (leaveSlice e k s).pins = s.pins ∧
    (leaveSlice e k s).straps = s.straps ∧ (leaveSlice e k s).loader = s.loader ∧
    (leaveSlice e k s).spine = s.spine ∧ (leaveSlice e k s).intake = s.intake ∧ (leaveSlice e k s).cmd = s.cmd ∧
    (leaveSlice e k s).alarms = s.alarms ∧ (leaveSlice e k s).time = s.time ∧ (leaveSlice e k s).sched = s.sched ∧
    (leaveSlice e k s).motion = s.motion ∧ (leaveSlice e k s).dials = s.dials ∧
    (leaveSlice e k s).laneTx = s.laneTx ∧ (leaveSlice e k s).audio = s.audio ∧
    (leaveSlice e k s).power = s.power ∧ (leaveSlice e k s).port = s.port := by
  unfold leaveSlice; (try dsimp only); (repeat' split) <;> simp

@[simp] theorem formLine_frame (e : Eye) (y : Nat) (s : State) :
    (formLine e y s).pending = s.pending ∧ (formLine e y s).free = s.free ∧ (formLine e y s).straps = s.straps ∧
    (formLine e y s).loader = s.loader ∧ (formLine e y s).spine = s.spine ∧ (formLine e y s).slots = s.slots ∧
    (formLine e y s).intake = s.intake ∧ (formLine e y s).cmd = s.cmd ∧ (formLine e y s).alarms = s.alarms ∧
    (formLine e y s).time = s.time ∧ (formLine e y s).sched = s.sched ∧ (formLine e y s).motion = s.motion ∧
    (formLine e y s).dials = s.dials ∧ (formLine e y s).laneTx = s.laneTx ∧ (formLine e y s).laneRx = s.laneRx ∧
    (formLine e y s).store = s.store ∧ (formLine e y s).scan = s.scan ∧ (formLine e y s).audio = s.audio ∧
    (formLine e y s).power = s.power ∧ (formLine e y s).port = s.port := by
  unfold formLine; (try dsimp only); (repeat' split) <;> simp

@[simp] theorem turnSlice_frame (e : Eye) (k : Nat) (s : State) :
    (turnSlice e k s).pending = s.pending ∧ (turnSlice e k s).free = s.free ∧ (turnSlice e k s).pins = s.pins ∧
    (turnSlice e k s).straps = s.straps ∧ (turnSlice e k s).loader = s.loader ∧
    (turnSlice e k s).spine = s.spine ∧ (turnSlice e k s).intake = s.intake ∧ (turnSlice e k s).cmd = s.cmd ∧
    (turnSlice e k s).alarms = s.alarms ∧ (turnSlice e k s).time = s.time ∧ (turnSlice e k s).sched = s.sched ∧
    (turnSlice e k s).motion = s.motion ∧ (turnSlice e k s).dials = s.dials ∧
    (turnSlice e k s).laneTx = s.laneTx ∧ (turnSlice e k s).audio = s.audio ∧ (turnSlice e k s).power = s.power ∧
    (turnSlice e k s).port = s.port := by
  unfold turnSlice; (try dsimp only); (repeat' split) <;> simp

@[simp] theorem scanEyeLine_frame (e : Eye) (y : Nat) (s : State) :
    (scanEyeLine e y s).pending = s.pending ∧ (scanEyeLine e y s).free = s.free ∧
    (scanEyeLine e y s).straps = s.straps ∧ (scanEyeLine e y s).loader = s.loader ∧
    (scanEyeLine e y s).spine = s.spine ∧ (scanEyeLine e y s).intake = s.intake ∧
    (scanEyeLine e y s).cmd = s.cmd ∧ (scanEyeLine e y s).alarms = s.alarms ∧ (scanEyeLine e y s).time = s.time ∧
    (scanEyeLine e y s).sched = s.sched ∧ (scanEyeLine e y s).motion = s.motion ∧
    (scanEyeLine e y s).dials = s.dials ∧ (scanEyeLine e y s).laneTx = s.laneTx ∧
    (scanEyeLine e y s).audio = s.audio ∧ (scanEyeLine e y s).power = s.power ∧
    (scanEyeLine e y s).port = s.port := by
  unfold scanEyeLine; (try dsimp only); (repeat' split) <;> simp

@[simp] theorem scanLine_frame (y : Nat) (s : State) :
    (scanLine y s).pending = s.pending ∧ (scanLine y s).free = s.free ∧ (scanLine y s).straps = s.straps ∧
    (scanLine y s).loader = s.loader ∧ (scanLine y s).spine = s.spine ∧ (scanLine y s).intake = s.intake ∧
    (scanLine y s).cmd = s.cmd ∧ (scanLine y s).alarms = s.alarms ∧ (scanLine y s).time = s.time ∧
    (scanLine y s).sched = s.sched ∧ (scanLine y s).motion = s.motion ∧ (scanLine y s).dials = s.dials ∧
    (scanLine y s).laneTx = s.laneTx ∧ (scanLine y s).audio = s.audio ∧ (scanLine y s).power = s.power ∧
    (scanLine y s).port = s.port := by
  unfold scanLine; (try dsimp only); (repeat' split) <;> simp

@[simp] theorem endEye_frame (e : Eye) (s : State) :
    (endEye e s).pending = s.pending ∧ (endEye e s).free = s.free ∧ (endEye e s).pins = s.pins ∧
    (endEye e s).straps = s.straps ∧ (endEye e s).loader = s.loader ∧ (endEye e s).spine = s.spine ∧
    (endEye e s).intake = s.intake ∧ (endEye e s).cmd = s.cmd ∧ (endEye e s).alarms = s.alarms ∧
    (endEye e s).time = s.time ∧ (endEye e s).sched = s.sched ∧ (endEye e s).motion = s.motion ∧
    (endEye e s).dials = s.dials ∧ (endEye e s).laneTx = s.laneTx ∧ (endEye e s).audio = s.audio ∧
    (endEye e s).power = s.power ∧ (endEye e s).port = s.port := by
  unfold endEye; (try dsimp only); (repeat' split) <;> simp

@[simp] theorem scanEnd_frame (s : State) :
    (scanEnd s).pending = s.pending ∧ (scanEnd s).free = s.free ∧ (scanEnd s).pins = s.pins ∧
    (scanEnd s).straps = s.straps ∧ (scanEnd s).loader = s.loader ∧ (scanEnd s).spine = s.spine ∧
    (scanEnd s).intake = s.intake ∧ (scanEnd s).cmd = s.cmd ∧ (scanEnd s).alarms = s.alarms ∧
    (scanEnd s).time = s.time ∧ (scanEnd s).sched = s.sched ∧ (scanEnd s).motion = s.motion ∧
    (scanEnd s).dials = s.dials ∧ (scanEnd s).laneTx = s.laneTx ∧ (scanEnd s).audio = s.audio ∧
    (scanEnd s).power = s.power ∧ (scanEnd s).port = s.port := by
  unfold scanEnd; (try dsimp only); (repeat' split) <;> simp

@[simp] theorem frameTick_frame (j : Nat) (s : State) :
    (frameTick j s).pending = s.pending ∧ (frameTick j s).free = s.free ∧ (frameTick j s).pins = s.pins ∧
    (frameTick j s).straps = s.straps ∧ (frameTick j s).loader = s.loader ∧ (frameTick j s).spine = s.spine ∧
    (frameTick j s).slots = s.slots ∧ (frameTick j s).intake = s.intake ∧ (frameTick j s).cmd = s.cmd ∧
    (frameTick j s).alarms = s.alarms ∧ (frameTick j s).time = s.time ∧ (frameTick j s).sched = s.sched ∧
    (frameTick j s).motion = s.motion ∧ (frameTick j s).dials = s.dials ∧ (frameTick j s).laneTx = s.laneTx ∧
    (frameTick j s).laneRx = s.laneRx ∧ (frameTick j s).store = s.store ∧ (frameTick j s).audio = s.audio ∧
    (frameTick j s).power = s.power ∧ (frameTick j s).port = s.port := by
  unfold frameTick; (try dsimp only); (repeat' split) <;> simp

/-! ### Command unit -/

@[simp] theorem countCommandMalformed_frame (s : State) :
    (countCommandMalformed s).pending = s.pending ∧ (countCommandMalformed s).free = s.free ∧
    (countCommandMalformed s).pins = s.pins ∧ (countCommandMalformed s).straps = s.straps ∧
    (countCommandMalformed s).loader = s.loader ∧ (countCommandMalformed s).spine = s.spine ∧
    (countCommandMalformed s).slots = s.slots ∧ (countCommandMalformed s).intake = s.intake ∧
    (countCommandMalformed s).alarms = s.alarms ∧ (countCommandMalformed s).time = s.time ∧
    (countCommandMalformed s).sched = s.sched ∧ (countCommandMalformed s).motion = s.motion ∧
    (countCommandMalformed s).dials = s.dials ∧ (countCommandMalformed s).laneTx = s.laneTx ∧
    (countCommandMalformed s).laneRx = s.laneRx ∧ (countCommandMalformed s).store = s.store ∧
    (countCommandMalformed s).scan = s.scan ∧ (countCommandMalformed s).audio = s.audio ∧
    (countCommandMalformed s).power = s.power ∧ (countCommandMalformed s).port = s.port := by
  unfold countCommandMalformed; (try dsimp only); (repeat' split) <;> simp

@[simp] theorem enqueueCommand_frame (c : Command) (s : State) :
    (enqueueCommand c s).pending = s.pending ∧ (enqueueCommand c s).free = s.free ∧
    (enqueueCommand c s).pins = s.pins ∧ (enqueueCommand c s).straps = s.straps ∧
    (enqueueCommand c s).loader = s.loader ∧ (enqueueCommand c s).spine = s.spine ∧
    (enqueueCommand c s).slots = s.slots ∧ (enqueueCommand c s).intake = s.intake ∧
    (enqueueCommand c s).alarms = s.alarms ∧ (enqueueCommand c s).time = s.time ∧
    (enqueueCommand c s).sched = s.sched ∧ (enqueueCommand c s).motion = s.motion ∧
    (enqueueCommand c s).dials = s.dials ∧ (enqueueCommand c s).laneTx = s.laneTx ∧
    (enqueueCommand c s).laneRx = s.laneRx ∧ (enqueueCommand c s).store = s.store ∧
    (enqueueCommand c s).scan = s.scan ∧ (enqueueCommand c s).audio = s.audio ∧
    (enqueueCommand c s).power = s.power ∧ (enqueueCommand c s).port = s.port := by
  unfold enqueueCommand; (try dsimp only); (repeat' split) <;> simp

@[simp] theorem takeCommand_frame (r : Rank) (b : List Byte) (l : Bool) (s : State) :
    (takeCommand r b l s).pending = s.pending ∧ (takeCommand r b l s).free = s.free ∧
    (takeCommand r b l s).pins = s.pins ∧ (takeCommand r b l s).straps = s.straps ∧
    (takeCommand r b l s).loader = s.loader ∧ (takeCommand r b l s).spine = s.spine ∧
    (takeCommand r b l s).slots = s.slots ∧ (takeCommand r b l s).intake = s.intake ∧
    (takeCommand r b l s).alarms = s.alarms ∧ (takeCommand r b l s).time = s.time ∧
    (takeCommand r b l s).sched = s.sched ∧ (takeCommand r b l s).motion = s.motion ∧
    (takeCommand r b l s).dials = s.dials ∧ (takeCommand r b l s).laneTx = s.laneTx ∧
    (takeCommand r b l s).laneRx = s.laneRx ∧ (takeCommand r b l s).store = s.store ∧
    (takeCommand r b l s).scan = s.scan ∧ (takeCommand r b l s).audio = s.audio ∧
    (takeCommand r b l s).power = s.power ∧ (takeCommand r b l s).port = s.port := by
  unfold takeCommand; (try dsimp only); (repeat' split) <;> simp

@[simp] theorem spineReply_frame (c : Command) (b : List Byte) (s : State) :
    (spineReply c b s).pending = s.pending ∧ (spineReply c b s).free = s.free ∧ (spineReply c b s).pins = s.pins ∧
    (spineReply c b s).straps = s.straps ∧ (spineReply c b s).spine = s.spine ∧
    (spineReply c b s).intake = s.intake ∧ (spineReply c b s).alarms = s.alarms ∧
    (spineReply c b s).time = s.time ∧ (spineReply c b s).sched = s.sched ∧ (spineReply c b s).motion = s.motion ∧
    (spineReply c b s).dials = s.dials ∧ (spineReply c b s).laneTx = s.laneTx ∧
    (spineReply c b s).laneRx = s.laneRx ∧ (spineReply c b s).store = s.store ∧ (spineReply c b s).scan = s.scan ∧
    (spineReply c b s).audio = s.audio ∧ (spineReply c b s).power = s.power ∧ (spineReply c b s).port = s.port := by
  unfold spineReply; (try dsimp only); (repeat' split) <;> simp

@[simp] theorem localReply_frame (c : Command) (b : List Byte) (s : State) :
    (localReply c b s).pending = s.pending ∧ (localReply c b s).free = s.free ∧ (localReply c b s).pins = s.pins ∧
    (localReply c b s).straps = s.straps ∧ (localReply c b s).spine = s.spine ∧
    (localReply c b s).slots = s.slots ∧ (localReply c b s).alarms = s.alarms ∧ (localReply c b s).time = s.time ∧
    (localReply c b s).sched = s.sched ∧ (localReply c b s).motion = s.motion ∧
    (localReply c b s).dials = s.dials ∧ (localReply c b s).laneTx = s.laneTx ∧
    (localReply c b s).laneRx = s.laneRx ∧ (localReply c b s).store = s.store ∧ (localReply c b s).scan = s.scan ∧
    (localReply c b s).audio = s.audio ∧ (localReply c b s).power = s.power ∧ (localReply c b s).port = s.port := by
  unfold localReply; (try dsimp only); (repeat' split) <;> simp

@[simp] theorem beginAnswer_frame (c : Command) (q : List Command) (s : State) :
    (beginAnswer c q s).pending = s.pending ∧ (beginAnswer c q s).free = s.free ∧
    (beginAnswer c q s).pins = s.pins ∧ (beginAnswer c q s).straps = s.straps ∧
    (beginAnswer c q s).loader = s.loader ∧ (beginAnswer c q s).spine = s.spine ∧
    (beginAnswer c q s).slots = s.slots ∧ (beginAnswer c q s).intake = s.intake ∧
    (beginAnswer c q s).alarms = s.alarms ∧ (beginAnswer c q s).time = s.time ∧
    (beginAnswer c q s).sched = s.sched ∧ (beginAnswer c q s).motion = s.motion ∧
    (beginAnswer c q s).dials = s.dials ∧ (beginAnswer c q s).laneTx = s.laneTx ∧
    (beginAnswer c q s).laneRx = s.laneRx ∧ (beginAnswer c q s).store = s.store ∧
    (beginAnswer c q s).scan = s.scan ∧ (beginAnswer c q s).audio = s.audio ∧
    (beginAnswer c q s).power = s.power ∧ (beginAnswer c q s).port = s.port := by
  unfold beginAnswer; (try dsimp only); (repeat' split) <;> simp

@[simp] theorem setCapture_frame (v : Bool) (s : State) :
    (setCapture v s).pending = s.pending ∧ (setCapture v s).free = s.free ∧ (setCapture v s).pins = s.pins ∧
    (setCapture v s).straps = s.straps ∧ (setCapture v s).loader = s.loader ∧ (setCapture v s).spine = s.spine ∧
    (setCapture v s).slots = s.slots ∧ (setCapture v s).intake = s.intake ∧ (setCapture v s).cmd = s.cmd ∧
    (setCapture v s).alarms = s.alarms ∧ (setCapture v s).time = s.time ∧ (setCapture v s).sched = s.sched ∧
    (setCapture v s).motion = s.motion ∧ (setCapture v s).dials = s.dials ∧ (setCapture v s).laneTx = s.laneTx ∧
    (setCapture v s).laneRx = s.laneRx ∧ (setCapture v s).store = s.store ∧ (setCapture v s).scan = s.scan ∧
    (setCapture v s).power = s.power ∧ (setCapture v s).port = s.port := by
  unfold setCapture; (try dsimp only); (repeat' split) <;> simp

@[simp] theorem freeHead_frame (e : QueueEntry) (q : List QueueEntry) (s : State) :
    (freeHead e q s).pending = s.pending ∧ (freeHead e q s).free = s.free ∧ (freeHead e q s).pins = s.pins ∧
    (freeHead e q s).straps = s.straps ∧ (freeHead e q s).spine = s.spine ∧ (freeHead e q s).slots = s.slots ∧
    (freeHead e q s).alarms = s.alarms ∧ (freeHead e q s).time = s.time ∧ (freeHead e q s).sched = s.sched ∧
    (freeHead e q s).motion = s.motion ∧ (freeHead e q s).dials = s.dials ∧ (freeHead e q s).laneTx = s.laneTx ∧
    (freeHead e q s).laneRx = s.laneRx ∧ (freeHead e q s).store = s.store ∧ (freeHead e q s).scan = s.scan ∧
    (freeHead e q s).audio = s.audio ∧ (freeHead e q s).power = s.power ∧ (freeHead e q s).port = s.port := by
  unfold freeHead; (try dsimp only); (repeat' split) <;> simp

/-! ### Intake routing -/

@[simp] theorem storeArrival_frame (m : Arrival) (s : State) :
    (storeArrival m s).pending = s.pending ∧ (storeArrival m s).free = s.free ∧ (storeArrival m s).pins = s.pins ∧
    (storeArrival m s).straps = s.straps ∧ (storeArrival m s).loader = s.loader ∧
    (storeArrival m s).spine = s.spine ∧ (storeArrival m s).slots = s.slots ∧ (storeArrival m s).cmd = s.cmd ∧
    (storeArrival m s).alarms = s.alarms ∧ (storeArrival m s).time = s.time ∧ (storeArrival m s).sched = s.sched ∧
    (storeArrival m s).motion = s.motion ∧ (storeArrival m s).dials = s.dials ∧
    (storeArrival m s).laneTx = s.laneTx ∧ (storeArrival m s).laneRx = s.laneRx ∧
    (storeArrival m s).store = s.store ∧ (storeArrival m s).scan = s.scan ∧ (storeArrival m s).audio = s.audio ∧
    (storeArrival m s).power = s.power ∧ (storeArrival m s).port = s.port := by
  unfold storeArrival; (try dsimp only); (repeat' split) <;> simp

@[simp] theorem countDropped_frame (s : State) :
    (countDropped s).pending = s.pending ∧ (countDropped s).free = s.free ∧ (countDropped s).pins = s.pins ∧
    (countDropped s).straps = s.straps ∧ (countDropped s).loader = s.loader ∧ (countDropped s).spine = s.spine ∧
    (countDropped s).slots = s.slots ∧ (countDropped s).cmd = s.cmd ∧ (countDropped s).alarms = s.alarms ∧
    (countDropped s).time = s.time ∧ (countDropped s).sched = s.sched ∧ (countDropped s).motion = s.motion ∧
    (countDropped s).dials = s.dials ∧ (countDropped s).laneTx = s.laneTx ∧ (countDropped s).laneRx = s.laneRx ∧
    (countDropped s).store = s.store ∧ (countDropped s).scan = s.scan ∧ (countDropped s).audio = s.audio ∧
    (countDropped s).power = s.power ∧ (countDropped s).port = s.port := by
  unfold countDropped; (try dsimp only); (repeat' split) <;> simp

@[simp] theorem handTo_frame (u : TakingUnit) (m : Arrival) (s : State) :
    (handTo u m s).pending = s.pending ∧ (handTo u m s).free = s.free ∧ (handTo u m s).pins = s.pins ∧
    (handTo u m s).straps = s.straps ∧ (handTo u m s).intake = s.intake ∧ (handTo u m s).sched = s.sched ∧
    (handTo u m s).motion = s.motion ∧ (handTo u m s).dials = s.dials ∧ (handTo u m s).scan = s.scan ∧
    (handTo u m s).port = s.port := by
  unfold handTo; (try dsimp only); (repeat' split) <;> simp

@[simp] theorem deliverTo_frame (d : Destination) (u : Option TakingUnit) (m : Arrival) (s : State) :
    (deliverTo d u m s).pending = s.pending ∧ (deliverTo d u m s).free = s.free ∧
    (deliverTo d u m s).pins = s.pins ∧ (deliverTo d u m s).straps = s.straps ∧
    (deliverTo d u m s).sched = s.sched ∧ (deliverTo d u m s).motion = s.motion ∧
    (deliverTo d u m s).dials = s.dials ∧ (deliverTo d u m s).scan = s.scan ∧ (deliverTo d u m s).port = s.port := by
  unfold deliverTo; (try dsimp only); (repeat' split) <;> simp

@[simp] theorem routeMessage_frame (m : Arrival) (s : State) :
    (routeMessage m s).pending = s.pending ∧ (routeMessage m s).free = s.free ∧ (routeMessage m s).pins = s.pins ∧
    (routeMessage m s).straps = s.straps ∧ (routeMessage m s).sched = s.sched ∧
    (routeMessage m s).motion = s.motion ∧ (routeMessage m s).dials = s.dials ∧ (routeMessage m s).scan = s.scan ∧
    (routeMessage m s).port = s.port := by
  unfold routeMessage; (try dsimp only); (repeat' split) <;> simp

/-! ### Spine -/

@[simp] theorem settleStanding_frame (s : State) :
    (settleStanding s).pending = s.pending ∧ (settleStanding s).free = s.free ∧ (settleStanding s).pins = s.pins ∧
    (settleStanding s).straps = s.straps ∧ (settleStanding s).loader = s.loader ∧
    (settleStanding s).intake = s.intake ∧ (settleStanding s).cmd = s.cmd ∧ (settleStanding s).time = s.time ∧
    (settleStanding s).sched = s.sched ∧ (settleStanding s).motion = s.motion ∧
    (settleStanding s).dials = s.dials ∧ (settleStanding s).laneTx = s.laneTx ∧
    (settleStanding s).laneRx = s.laneRx ∧ (settleStanding s).store = s.store ∧ (settleStanding s).scan = s.scan ∧
    (settleStanding s).audio = s.audio ∧ (settleStanding s).power = s.power ∧ (settleStanding s).port = s.port := by
  unfold settleStanding; (try dsimp only); (repeat' split) <;> simp

@[simp] theorem driveSpoil_frame (s : State) :
    (driveSpoil s).pending = s.pending ∧ (driveSpoil s).free = s.free ∧ (driveSpoil s).pins = s.pins ∧
    (driveSpoil s).straps = s.straps ∧ (driveSpoil s).loader = s.loader ∧ (driveSpoil s).slots = s.slots ∧
    (driveSpoil s).intake = s.intake ∧ (driveSpoil s).cmd = s.cmd ∧ (driveSpoil s).alarms = s.alarms ∧
    (driveSpoil s).time = s.time ∧ (driveSpoil s).sched = s.sched ∧ (driveSpoil s).motion = s.motion ∧
    (driveSpoil s).dials = s.dials ∧ (driveSpoil s).laneTx = s.laneTx ∧ (driveSpoil s).laneRx = s.laneRx ∧
    (driveSpoil s).store = s.store ∧ (driveSpoil s).scan = s.scan ∧ (driveSpoil s).audio = s.audio ∧
    (driveSpoil s).power = s.power ∧ (driveSpoil s).port = s.port := by
  unfold driveSpoil; (try dsimp only); (repeat' split) <;> simp

@[simp] theorem rejoin_frame (s : State) :
    (rejoin s).pending = s.pending ∧ (rejoin s).free = s.free ∧ (rejoin s).pins = s.pins ∧
    (rejoin s).straps = s.straps ∧ (rejoin s).loader = s.loader ∧ (rejoin s).intake = s.intake ∧
    (rejoin s).cmd = s.cmd ∧ (rejoin s).alarms = s.alarms ∧ (rejoin s).time = s.time ∧
    (rejoin s).sched = s.sched ∧ (rejoin s).motion = s.motion ∧ (rejoin s).dials = s.dials ∧
    (rejoin s).laneTx = s.laneTx ∧ (rejoin s).laneRx = s.laneRx ∧ (rejoin s).store = s.store ∧
    (rejoin s).scan = s.scan ∧ (rejoin s).power = s.power ∧ (rejoin s).port = s.port := by
  unfold rejoin; (try dsimp only); (repeat' split) <;> simp

@[simp] theorem quietRun_frame (d : Bool) (s : State) :
    (quietRun d s).pending = s.pending ∧ (quietRun d s).free = s.free ∧ (quietRun d s).pins = s.pins ∧
    (quietRun d s).straps = s.straps ∧ (quietRun d s).loader = s.loader ∧ (quietRun d s).intake = s.intake ∧
    (quietRun d s).cmd = s.cmd ∧ (quietRun d s).alarms = s.alarms ∧ (quietRun d s).time = s.time ∧
    (quietRun d s).sched = s.sched ∧ (quietRun d s).motion = s.motion ∧ (quietRun d s).dials = s.dials ∧
    (quietRun d s).laneTx = s.laneTx ∧ (quietRun d s).laneRx = s.laneRx ∧ (quietRun d s).store = s.store ∧
    (quietRun d s).scan = s.scan ∧ (quietRun d s).power = s.power ∧ (quietRun d s).port = s.port := by
  unfold quietRun; (try dsimp only); (repeat' split) <;> simp

@[simp] theorem startMessage_frame (n : SlotName) (s : State) :
    (startMessage n s).pending = s.pending ∧ (startMessage n s).free = s.free ∧ (startMessage n s).pins = s.pins ∧
    (startMessage n s).straps = s.straps ∧ (startMessage n s).loader = s.loader ∧
    (startMessage n s).intake = s.intake ∧ (startMessage n s).cmd = s.cmd ∧ (startMessage n s).alarms = s.alarms ∧
    (startMessage n s).time = s.time ∧ (startMessage n s).sched = s.sched ∧ (startMessage n s).motion = s.motion ∧
    (startMessage n s).dials = s.dials ∧ (startMessage n s).laneTx = s.laneTx ∧
    (startMessage n s).laneRx = s.laneRx ∧ (startMessage n s).store = s.store ∧ (startMessage n s).scan = s.scan ∧
    (startMessage n s).audio = s.audio ∧ (startMessage n s).power = s.power ∧ (startMessage n s).port = s.port := by
  unfold startMessage; (try dsimp only); (repeat' split) <;> simp

@[simp] theorem spineStart_frame (n : Nat) (s : State) :
    (spineStart n s).pending = s.pending ∧ (spineStart n s).free = s.free ∧ (spineStart n s).pins = s.pins ∧
    (spineStart n s).straps = s.straps ∧ (spineStart n s).loader = s.loader ∧ (spineStart n s).intake = s.intake ∧
    (spineStart n s).cmd = s.cmd ∧ (spineStart n s).alarms = s.alarms ∧ (spineStart n s).time = s.time ∧
    (spineStart n s).sched = s.sched ∧ (spineStart n s).motion = s.motion ∧ (spineStart n s).dials = s.dials ∧
    (spineStart n s).laneTx = s.laneTx ∧ (spineStart n s).laneRx = s.laneRx ∧ (spineStart n s).store = s.store ∧
    (spineStart n s).scan = s.scan ∧ (spineStart n s).audio = s.audio ∧ (spineStart n s).power = s.power ∧
    (spineStart n s).port = s.port := by
  unfold spineStart; (try dsimp only); (repeat' split) <;> simp

@[simp] theorem drivenBit_frame (s : State) :
    (drivenBit s).pending = s.pending ∧ (drivenBit s).free = s.free ∧ (drivenBit s).pins = s.pins ∧
    (drivenBit s).straps = s.straps ∧ (drivenBit s).loader = s.loader ∧ (drivenBit s).slots = s.slots ∧
    (drivenBit s).intake = s.intake ∧ (drivenBit s).cmd = s.cmd ∧ (drivenBit s).alarms = s.alarms ∧
    (drivenBit s).time = s.time ∧ (drivenBit s).sched = s.sched ∧ (drivenBit s).motion = s.motion ∧
    (drivenBit s).dials = s.dials ∧ (drivenBit s).laneTx = s.laneTx ∧ (drivenBit s).laneRx = s.laneRx ∧
    (drivenBit s).store = s.store ∧ (drivenBit s).scan = s.scan ∧ (drivenBit s).audio = s.audio ∧
    (drivenBit s).power = s.power ∧ (drivenBit s).port = s.port := by
  unfold drivenBit; (try dsimp only); (repeat' split) <;> simp

@[simp] theorem handOutcome_frame (n : SlotName) (o : Option SendOutcome) (a : BitVec 8) (s : State) :
    (handOutcome n o a s).pending = s.pending ∧ (handOutcome n o a s).free = s.free ∧
    (handOutcome n o a s).pins = s.pins ∧ (handOutcome n o a s).straps = s.straps ∧
    (handOutcome n o a s).loader = s.loader ∧ (handOutcome n o a s).spine = s.spine ∧
    (handOutcome n o a s).slots = s.slots ∧ (handOutcome n o a s).intake = s.intake ∧
    (handOutcome n o a s).cmd = s.cmd ∧ (handOutcome n o a s).alarms = s.alarms ∧
    (handOutcome n o a s).time = s.time ∧ (handOutcome n o a s).sched = s.sched ∧
    (handOutcome n o a s).motion = s.motion ∧ (handOutcome n o a s).dials = s.dials ∧
    (handOutcome n o a s).laneTx = s.laneTx ∧ (handOutcome n o a s).laneRx = s.laneRx ∧
    (handOutcome n o a s).store = s.store ∧ (handOutcome n o a s).scan = s.scan ∧
    (handOutcome n o a s).audio = s.audio ∧ (handOutcome n o a s).power = s.power := by
  unfold handOutcome; (try dsimp only); (repeat' split) <;> simp

@[simp] theorem endUnsent_frame (n : SlotName) (o : SendOutcome) (s : State) :
    (endUnsent n o s).pending = s.pending ∧ (endUnsent n o s).free = s.free ∧ (endUnsent n o s).pins = s.pins ∧
    (endUnsent n o s).straps = s.straps ∧ (endUnsent n o s).loader = s.loader ∧
    (endUnsent n o s).spine = s.spine ∧ (endUnsent n o s).intake = s.intake ∧ (endUnsent n o s).cmd = s.cmd ∧
    (endUnsent n o s).alarms = s.alarms ∧ (endUnsent n o s).time = s.time ∧ (endUnsent n o s).sched = s.sched ∧
    (endUnsent n o s).motion = s.motion ∧ (endUnsent n o s).dials = s.dials ∧
    (endUnsent n o s).laneTx = s.laneTx ∧ (endUnsent n o s).laneRx = s.laneRx ∧
    (endUnsent n o s).store = s.store ∧ (endUnsent n o s).scan = s.scan ∧ (endUnsent n o s).audio = s.audio ∧
    (endUnsent n o s).power = s.power := by
  unfold endUnsent; (try dsimp only); (repeat' split) <;> simp

@[simp] theorem loseArbitration_frame (x : Transmission) (s : State) :
    (loseArbitration x s).pending = s.pending ∧ (loseArbitration x s).free = s.free ∧
    (loseArbitration x s).pins = s.pins ∧ (loseArbitration x s).straps = s.straps ∧
    (loseArbitration x s).loader = s.loader ∧ (loseArbitration x s).intake = s.intake ∧
    (loseArbitration x s).cmd = s.cmd ∧ (loseArbitration x s).alarms = s.alarms ∧
    (loseArbitration x s).time = s.time ∧ (loseArbitration x s).sched = s.sched ∧
    (loseArbitration x s).motion = s.motion ∧ (loseArbitration x s).dials = s.dials ∧
    (loseArbitration x s).laneTx = s.laneTx ∧ (loseArbitration x s).laneRx = s.laneRx ∧
    (loseArbitration x s).store = s.store ∧ (loseArbitration x s).scan = s.scan ∧
    (loseArbitration x s).audio = s.audio ∧ (loseArbitration x s).power = s.power := by
  unfold loseArbitration; (try dsimp only); (repeat' split) <;> simp

@[simp] theorem enterCut_frame (s : State) :
    (enterCut s).pending = s.pending ∧ (enterCut s).free = s.free ∧ (enterCut s).pins = s.pins ∧
    (enterCut s).straps = s.straps ∧ (enterCut s).intake = s.intake ∧ (enterCut s).time = s.time ∧
    (enterCut s).sched = s.sched ∧ (enterCut s).motion = s.motion ∧ (enterCut s).dials = s.dials ∧
    (enterCut s).laneTx = s.laneTx ∧ (enterCut s).laneRx = s.laneRx ∧ (enterCut s).store = s.store ∧
    (enterCut s).scan = s.scan ∧ (enterCut s).power = s.power := by
  unfold enterCut; (try dsimp only); (repeat' split) <;> simp

@[simp] theorem failSend_frame (x : Transmission) (w : Nat) (s : State) :
    (failSend x w s).pending = s.pending ∧ (failSend x w s).free = s.free ∧ (failSend x w s).pins = s.pins ∧
    (failSend x w s).straps = s.straps ∧ (failSend x w s).loader = s.loader ∧ (failSend x w s).intake = s.intake ∧
    (failSend x w s).cmd = s.cmd ∧ (failSend x w s).time = s.time ∧ (failSend x w s).sched = s.sched ∧
    (failSend x w s).motion = s.motion ∧ (failSend x w s).dials = s.dials ∧ (failSend x w s).laneTx = s.laneTx ∧
    (failSend x w s).laneRx = s.laneRx ∧ (failSend x w s).store = s.store ∧ (failSend x w s).scan = s.scan ∧
    (failSend x w s).audio = s.audio ∧ (failSend x w s).power = s.power := by
  unfold failSend; (try dsimp only); (repeat' split) <;> simp

@[simp] theorem sendError_frame (k : SendErrorKind) (x : Transmission) (s : State) :
    (sendError k x s).pending = s.pending ∧ (sendError k x s).free = s.free ∧ (sendError k x s).pins = s.pins ∧
    (sendError k x s).straps = s.straps ∧ (sendError k x s).intake = s.intake ∧ (sendError k x s).time = s.time ∧
    (sendError k x s).sched = s.sched ∧ (sendError k x s).motion = s.motion ∧ (sendError k x s).dials = s.dials ∧
    (sendError k x s).laneTx = s.laneTx ∧ (sendError k x s).laneRx = s.laneRx ∧
    (sendError k x s).store = s.store ∧ (sendError k x s).scan = s.scan ∧ (sendError k x s).power = s.power := by
  unfold sendError; (try dsimp only); (repeat' split) <;> simp

@[simp] theorem receiveError_frame (k : ReceiveErrorKind) (s : State) :
    (receiveError k s).pending = s.pending ∧ (receiveError k s).free = s.free ∧ (receiveError k s).pins = s.pins ∧
    (receiveError k s).straps = s.straps ∧ (receiveError k s).loader = s.loader ∧
    (receiveError k s).intake = s.intake ∧ (receiveError k s).cmd = s.cmd ∧ (receiveError k s).time = s.time ∧
    (receiveError k s).sched = s.sched ∧ (receiveError k s).motion = s.motion ∧
    (receiveError k s).dials = s.dials ∧ (receiveError k s).laneTx = s.laneTx ∧
    (receiveError k s).laneRx = s.laneRx ∧ (receiveError k s).store = s.store ∧ (receiveError k s).scan = s.scan ∧
    (receiveError k s).audio = s.audio ∧ (receiveError k s).power = s.power ∧ (receiveError k s).port = s.port := by
  unfold receiveError; (try dsimp only); (repeat' split) <;> simp

@[simp] theorem slotSent_frame (x : Transmission) (a : BitVec 8) (s : State) :
    (slotSent x a s).pending = s.pending ∧ (slotSent x a s).free = s.free ∧ (slotSent x a s).pins = s.pins ∧
    (slotSent x a s).straps = s.straps ∧ (slotSent x a s).spine = s.spine ∧ (slotSent x a s).slots = s.slots ∧
    (slotSent x a s).intake = s.intake ∧ (slotSent x a s).sched = s.sched ∧ (slotSent x a s).motion = s.motion ∧
    (slotSent x a s).dials = s.dials ∧ (slotSent x a s).laneTx = s.laneTx ∧ (slotSent x a s).laneRx = s.laneRx ∧
    (slotSent x a s).store = s.store ∧ (slotSent x a s).scan = s.scan ∧ (slotSent x a s).audio = s.audio ∧
    (slotSent x a s).power = s.power := by
  unfold slotSent; (try dsimp only); (repeat' split) <;> simp

@[simp] theorem sendEnd_frame (x : Transmission) (s : State) :
    (sendEnd x s).pending = s.pending ∧ (sendEnd x s).free = s.free ∧ (sendEnd x s).pins = s.pins ∧
    (sendEnd x s).straps = s.straps ∧ (sendEnd x s).sched = s.sched ∧ (sendEnd x s).motion = s.motion ∧
    (sendEnd x s).dials = s.dials ∧ (sendEnd x s).scan = s.scan := by
  unfold sendEnd; (try dsimp only); (repeat' split) <;> simp

@[simp] theorem withdraw_frame (s : State) :
    (withdraw s).pending = s.pending ∧ (withdraw s).free = s.free ∧ (withdraw s).pins = s.pins ∧
    (withdraw s).straps = s.straps ∧ (withdraw s).spine = s.spine ∧ (withdraw s).intake = s.intake ∧
    (withdraw s).sched = s.sched ∧ (withdraw s).motion = s.motion ∧ (withdraw s).dials = s.dials ∧
    (withdraw s).laneTx = s.laneTx ∧ (withdraw s).laneRx = s.laneRx ∧ (withdraw s).store = s.store ∧
    (withdraw s).scan = s.scan ∧ (withdraw s).power = s.power := by
  unfold withdraw; (try dsimp only); (repeat' split) <;> simp

@[simp] theorem duplicateNode_frame (s : State) :
    (duplicateNode s).pending = s.pending ∧ (duplicateNode s).free = s.free ∧ (duplicateNode s).pins = s.pins ∧
    (duplicateNode s).straps = s.straps ∧ (duplicateNode s).intake = s.intake ∧
    (duplicateNode s).sched = s.sched ∧ (duplicateNode s).motion = s.motion ∧ (duplicateNode s).dials = s.dials ∧
    (duplicateNode s).laneTx = s.laneTx ∧ (duplicateNode s).laneRx = s.laneRx ∧
    (duplicateNode s).store = s.store ∧ (duplicateNode s).scan = s.scan ∧ (duplicateNode s).power = s.power := by
  unfold duplicateNode; (try dsimp only); (repeat' split) <;> simp

@[simp] theorem messageTaken_frame (m : Received) (s : State) :
    (messageTaken m s).pending = s.pending ∧ (messageTaken m s).free = s.free ∧ (messageTaken m s).pins = s.pins ∧
    (messageTaken m s).straps = s.straps ∧ (messageTaken m s).sched = s.sched ∧
    (messageTaken m s).motion = s.motion ∧ (messageTaken m s).dials = s.dials ∧ (messageTaken m s).scan = s.scan := by
  unfold messageTaken; (try dsimp only); (repeat' split) <;> simp

@[simp] theorem receiveMessage_frame (m : Received) (s : State) :
    (receiveMessage m s).pending = s.pending ∧ (receiveMessage m s).free = s.free ∧
    (receiveMessage m s).pins = s.pins ∧ (receiveMessage m s).straps = s.straps ∧
    (receiveMessage m s).sched = s.sched ∧ (receiveMessage m s).motion = s.motion ∧
    (receiveMessage m s).dials = s.dials ∧ (receiveMessage m s).scan = s.scan := by
  unfold receiveMessage; (try dsimp only); (repeat' split) <;> simp

/-! ### Local port -/

@[simp] theorem countPortError_frame (s : State) :
    (countPortError s).pending = s.pending ∧ (countPortError s).free = s.free ∧ (countPortError s).pins = s.pins ∧
    (countPortError s).straps = s.straps ∧ (countPortError s).loader = s.loader ∧
    (countPortError s).spine = s.spine ∧ (countPortError s).slots = s.slots ∧
    (countPortError s).intake = s.intake ∧ (countPortError s).cmd = s.cmd ∧ (countPortError s).alarms = s.alarms ∧
    (countPortError s).time = s.time ∧ (countPortError s).sched = s.sched ∧ (countPortError s).motion = s.motion ∧
    (countPortError s).dials = s.dials ∧ (countPortError s).laneTx = s.laneTx ∧
    (countPortError s).laneRx = s.laneRx ∧ (countPortError s).store = s.store ∧ (countPortError s).scan = s.scan ∧
    (countPortError s).audio = s.audio ∧ (countPortError s).power = s.power := by
  unfold countPortError; (try dsimp only); (repeat' split) <;> simp

@[simp] theorem answerBusy_frame (c : BusyCause) (s : State) :
    (answerBusy c s).pending = s.pending ∧ (answerBusy c s).free = s.free ∧ (answerBusy c s).pins = s.pins ∧
    (answerBusy c s).straps = s.straps ∧ (answerBusy c s).loader = s.loader ∧ (answerBusy c s).spine = s.spine ∧
    (answerBusy c s).slots = s.slots ∧ (answerBusy c s).intake = s.intake ∧ (answerBusy c s).cmd = s.cmd ∧
    (answerBusy c s).alarms = s.alarms ∧ (answerBusy c s).time = s.time ∧ (answerBusy c s).sched = s.sched ∧
    (answerBusy c s).motion = s.motion ∧ (answerBusy c s).dials = s.dials ∧ (answerBusy c s).laneTx = s.laneTx ∧
    (answerBusy c s).laneRx = s.laneRx ∧ (answerBusy c s).store = s.store ∧ (answerBusy c s).scan = s.scan ∧
    (answerBusy c s).audio = s.audio ∧ (answerBusy c s).power = s.power := by
  unfold answerBusy; (try dsimp only); (repeat' split) <;> simp

@[simp] theorem deliverDirect_frame (r : Rank) (b : List Byte) (s : State) :
    (deliverDirect r b s).pending = s.pending ∧ (deliverDirect r b s).free = s.free ∧
    (deliverDirect r b s).pins = s.pins ∧ (deliverDirect r b s).straps = s.straps ∧
    (deliverDirect r b s).loader = s.loader ∧ (deliverDirect r b s).spine = s.spine ∧
    (deliverDirect r b s).slots = s.slots ∧ (deliverDirect r b s).intake = s.intake ∧
    (deliverDirect r b s).alarms = s.alarms ∧ (deliverDirect r b s).time = s.time ∧
    (deliverDirect r b s).sched = s.sched ∧ (deliverDirect r b s).motion = s.motion ∧
    (deliverDirect r b s).dials = s.dials ∧ (deliverDirect r b s).laneTx = s.laneTx ∧
    (deliverDirect r b s).laneRx = s.laneRx ∧ (deliverDirect r b s).store = s.store ∧
    (deliverDirect r b s).scan = s.scan ∧ (deliverDirect r b s).audio = s.audio ∧
    (deliverDirect r b s).power = s.power := by
  unfold deliverDirect; (try dsimp only); (repeat' split) <;> simp

@[simp] theorem sendThroughPort_frame (r : SendRecord) (k : Rank) (s : State) :
    (sendThroughPort r k s).pending = s.pending ∧ (sendThroughPort r k s).free = s.free ∧
    (sendThroughPort r k s).pins = s.pins ∧ (sendThroughPort r k s).straps = s.straps ∧
    (sendThroughPort r k s).loader = s.loader ∧ (sendThroughPort r k s).spine = s.spine ∧
    (sendThroughPort r k s).intake = s.intake ∧ (sendThroughPort r k s).cmd = s.cmd ∧
    (sendThroughPort r k s).alarms = s.alarms ∧ (sendThroughPort r k s).time = s.time ∧
    (sendThroughPort r k s).sched = s.sched ∧ (sendThroughPort r k s).motion = s.motion ∧
    (sendThroughPort r k s).dials = s.dials ∧ (sendThroughPort r k s).laneTx = s.laneTx ∧
    (sendThroughPort r k s).laneRx = s.laneRx ∧ (sendThroughPort r k s).store = s.store ∧
    (sendThroughPort r k s).scan = s.scan ∧ (sendThroughPort r k s).audio = s.audio ∧
    (sendThroughPort r k s).power = s.power := by
  unfold sendThroughPort; (try dsimp only); (repeat' split) <;> simp

@[simp] theorem sendRecord_frame (r : SendRecord) (s : State) :
    (sendRecord r s).pending = s.pending ∧ (sendRecord r s).pins = s.pins ∧ (sendRecord r s).straps = s.straps ∧
    (sendRecord r s).loader = s.loader ∧ (sendRecord r s).spine = s.spine ∧ (sendRecord r s).intake = s.intake ∧
    (sendRecord r s).alarms = s.alarms ∧ (sendRecord r s).time = s.time ∧ (sendRecord r s).sched = s.sched ∧
    (sendRecord r s).motion = s.motion ∧ (sendRecord r s).dials = s.dials ∧ (sendRecord r s).laneTx = s.laneTx ∧
    (sendRecord r s).laneRx = s.laneRx ∧ (sendRecord r s).store = s.store ∧ (sendRecord r s).scan = s.scan ∧
    (sendRecord r s).audio = s.audio ∧ (sendRecord r s).power = s.power := by
  unfold sendRecord; (try dsimp only); (repeat' split) <;> simp

@[simp] theorem abortPort_frame (s : State) :
    (abortPort s).pending = s.pending ∧ (abortPort s).free = s.free ∧ (abortPort s).pins = s.pins ∧
    (abortPort s).straps = s.straps ∧ (abortPort s).loader = s.loader ∧ (abortPort s).spine = s.spine ∧
    (abortPort s).intake = s.intake ∧ (abortPort s).cmd = s.cmd ∧ (abortPort s).alarms = s.alarms ∧
    (abortPort s).time = s.time ∧ (abortPort s).sched = s.sched ∧ (abortPort s).motion = s.motion ∧
    (abortPort s).dials = s.dials ∧ (abortPort s).laneTx = s.laneTx ∧ (abortPort s).laneRx = s.laneRx ∧
    (abortPort s).store = s.store ∧ (abortPort s).scan = s.scan ∧ (abortPort s).audio = s.audio ∧
    (abortPort s).power = s.power := by
  unfold abortPort; (try dsimp only); (repeat' split) <;> simp

@[simp] theorem placeTag_frame (t : FrameTag) (s : State) :
    (placeTag t s).pending = s.pending ∧ (placeTag t s).free = s.free ∧ (placeTag t s).pins = s.pins ∧
    (placeTag t s).straps = s.straps ∧ (placeTag t s).loader = s.loader ∧ (placeTag t s).spine = s.spine ∧
    (placeTag t s).slots = s.slots ∧ (placeTag t s).intake = s.intake ∧ (placeTag t s).cmd = s.cmd ∧
    (placeTag t s).alarms = s.alarms ∧ (placeTag t s).time = s.time ∧ (placeTag t s).sched = s.sched ∧
    (placeTag t s).motion = s.motion ∧ (placeTag t s).dials = s.dials ∧ (placeTag t s).laneRx = s.laneRx ∧
    (placeTag t s).store = s.store ∧ (placeTag t s).scan = s.scan ∧ (placeTag t s).audio = s.audio ∧
    (placeTag t s).power = s.power := by
  unfold placeTag; (try dsimp only); (repeat' split) <;> simp

@[simp] theorem formPortStatus_frame (s : State) :
    (formPortStatus s).pending = s.pending ∧ (formPortStatus s).free = s.free ∧ (formPortStatus s).pins = s.pins ∧
    (formPortStatus s).straps = s.straps ∧ (formPortStatus s).loader = s.loader ∧
    (formPortStatus s).spine = s.spine ∧ (formPortStatus s).slots = s.slots ∧
    (formPortStatus s).intake = s.intake ∧ (formPortStatus s).cmd = s.cmd ∧ (formPortStatus s).alarms = s.alarms ∧
    (formPortStatus s).time = s.time ∧ (formPortStatus s).sched = s.sched ∧ (formPortStatus s).motion = s.motion ∧
    (formPortStatus s).dials = s.dials ∧ (formPortStatus s).laneTx = s.laneTx ∧
    (formPortStatus s).laneRx = s.laneRx ∧ (formPortStatus s).store = s.store ∧ (formPortStatus s).scan = s.scan ∧
    (formPortStatus s).audio = s.audio ∧ (formPortStatus s).power = s.power := by
  unfold formPortStatus; (try dsimp only); (repeat' split) <;> simp

@[simp] theorem startRecord_frame (k : OutKind) (b : List Byte) (s : State) :
    (startRecord k b s).pending = s.pending ∧ (startRecord k b s).free = s.free ∧
    (startRecord k b s).pins = s.pins ∧ (startRecord k b s).straps = s.straps ∧
    (startRecord k b s).loader = s.loader ∧ (startRecord k b s).spine = s.spine ∧
    (startRecord k b s).slots = s.slots ∧ (startRecord k b s).intake = s.intake ∧
    (startRecord k b s).cmd = s.cmd ∧ (startRecord k b s).alarms = s.alarms ∧ (startRecord k b s).time = s.time ∧
    (startRecord k b s).sched = s.sched ∧ (startRecord k b s).motion = s.motion ∧
    (startRecord k b s).dials = s.dials ∧ (startRecord k b s).laneTx = s.laneTx ∧
    (startRecord k b s).laneRx = s.laneRx ∧ (startRecord k b s).store = s.store ∧
    (startRecord k b s).scan = s.scan ∧ (startRecord k b s).audio = s.audio ∧
    (startRecord k b s).power = s.power := by
  unfold startRecord; (try dsimp only); (repeat' split) <;> simp

@[simp] theorem startOutMessage_frame (s : State) :
    (startOutMessage s).pending = s.pending ∧ (startOutMessage s).free = s.free ∧
    (startOutMessage s).pins = s.pins ∧ (startOutMessage s).straps = s.straps ∧
    (startOutMessage s).loader = s.loader ∧ (startOutMessage s).spine = s.spine ∧
    (startOutMessage s).slots = s.slots ∧ (startOutMessage s).cmd = s.cmd ∧
    (startOutMessage s).alarms = s.alarms ∧ (startOutMessage s).time = s.time ∧
    (startOutMessage s).sched = s.sched ∧ (startOutMessage s).motion = s.motion ∧
    (startOutMessage s).dials = s.dials ∧ (startOutMessage s).laneTx = s.laneTx ∧
    (startOutMessage s).laneRx = s.laneRx ∧ (startOutMessage s).store = s.store ∧
    (startOutMessage s).scan = s.scan ∧ (startOutMessage s).audio = s.audio ∧
    (startOutMessage s).power = s.power := by
  unfold startOutMessage; (try dsimp only); (repeat' split) <;> simp

@[simp] theorem startOutgoing_frame (s : State) :
    (startOutgoing s).pending = s.pending ∧ (startOutgoing s).free = s.free ∧ (startOutgoing s).pins = s.pins ∧
    (startOutgoing s).straps = s.straps ∧ (startOutgoing s).loader = s.loader ∧
    (startOutgoing s).spine = s.spine ∧ (startOutgoing s).slots = s.slots ∧ (startOutgoing s).cmd = s.cmd ∧
    (startOutgoing s).alarms = s.alarms ∧ (startOutgoing s).time = s.time ∧ (startOutgoing s).sched = s.sched ∧
    (startOutgoing s).motion = s.motion ∧ (startOutgoing s).dials = s.dials ∧
    (startOutgoing s).laneTx = s.laneTx ∧ (startOutgoing s).laneRx = s.laneRx ∧
    (startOutgoing s).store = s.store ∧ (startOutgoing s).scan = s.scan ∧ (startOutgoing s).audio = s.audio ∧
    (startOutgoing s).power = s.power := by
  unfold startOutgoing; (try dsimp only); (repeat' split) <;> simp

@[simp] theorem freeTransfer_frame (s : State) :
    (freeTransfer s).pending = s.pending ∧ (freeTransfer s).free = s.free ∧ (freeTransfer s).pins = s.pins ∧
    (freeTransfer s).straps = s.straps ∧ (freeTransfer s).spine = s.spine ∧ (freeTransfer s).slots = s.slots ∧
    (freeTransfer s).alarms = s.alarms ∧ (freeTransfer s).time = s.time ∧ (freeTransfer s).sched = s.sched ∧
    (freeTransfer s).motion = s.motion ∧ (freeTransfer s).dials = s.dials ∧ (freeTransfer s).laneTx = s.laneTx ∧
    (freeTransfer s).laneRx = s.laneRx ∧ (freeTransfer s).store = s.store ∧ (freeTransfer s).scan = s.scan ∧
    (freeTransfer s).audio = s.audio ∧ (freeTransfer s).power = s.power ∧ (freeTransfer s).port = s.port := by
  unfold freeTransfer; (try dsimp only); (repeat' split) <;> simp

@[simp] theorem endOutgoing_frame (r : OutRecord) (s : State) :
    (endOutgoing r s).pending = s.pending ∧ (endOutgoing r s).free = s.free ∧ (endOutgoing r s).pins = s.pins ∧
    (endOutgoing r s).straps = s.straps ∧ (endOutgoing r s).spine = s.spine ∧ (endOutgoing r s).slots = s.slots ∧
    (endOutgoing r s).alarms = s.alarms ∧ (endOutgoing r s).time = s.time ∧ (endOutgoing r s).sched = s.sched ∧
    (endOutgoing r s).motion = s.motion ∧ (endOutgoing r s).dials = s.dials ∧
    (endOutgoing r s).laneTx = s.laneTx ∧ (endOutgoing r s).laneRx = s.laneRx ∧
    (endOutgoing r s).store = s.store ∧ (endOutgoing r s).scan = s.scan ∧ (endOutgoing r s).audio = s.audio ∧
    (endOutgoing r s).power = s.power := by
  unfold endOutgoing; (try dsimp only); (repeat' split) <;> simp

/-! ### Schedule -/

@[simp] theorem fireFrame_frame (j : Nat) (s : State) :
    (fireFrame j s).pending = s.pending ∧ (fireFrame j s).free = s.free ∧ (fireFrame j s).pins = s.pins ∧
    (fireFrame j s).straps = s.straps ∧ (fireFrame j s).loader = s.loader ∧ (fireFrame j s).spine = s.spine ∧
    (fireFrame j s).intake = s.intake ∧ (fireFrame j s).cmd = s.cmd ∧ (fireFrame j s).alarms = s.alarms ∧
    (fireFrame j s).time = s.time ∧ (fireFrame j s).sched = s.sched ∧ (fireFrame j s).motion = s.motion ∧
    (fireFrame j s).store = s.store ∧ (fireFrame j s).audio = s.audio ∧ (fireFrame j s).power = s.power ∧
    (fireFrame j s).port = s.port := by
  unfold fireFrame; (try dsimp only); (repeat' split) <;> simp

@[simp] theorem act_frame (a : Action) (j : Nat) (s : State) :
    (act a j s).pending = s.pending ∧ (act a j s).free = s.free ∧ (act a j s).pins = s.pins ∧
    (act a j s).straps = s.straps ∧ (act a j s).loader = s.loader ∧ (act a j s).spine = s.spine ∧
    (act a j s).intake = s.intake ∧ (act a j s).cmd = s.cmd ∧ (act a j s).alarms = s.alarms ∧
    (act a j s).sched = s.sched ∧ (act a j s).store = s.store ∧ (act a j s).audio = s.audio := by
  unfold act; (try dsimp only); (repeat' split) <;> simp

@[simp] theorem updEntry_frame (i : Fin 8) (f : SchedEntry → SchedEntry) (s : State) :
    (s.updEntry i f).pending = s.pending ∧ (s.updEntry i f).free = s.free ∧ (s.updEntry i f).pins = s.pins ∧
    (s.updEntry i f).straps = s.straps ∧ (s.updEntry i f).loader = s.loader ∧ (s.updEntry i f).spine = s.spine ∧
    (s.updEntry i f).slots = s.slots ∧ (s.updEntry i f).intake = s.intake ∧ (s.updEntry i f).cmd = s.cmd ∧
    (s.updEntry i f).alarms = s.alarms ∧ (s.updEntry i f).time = s.time ∧ (s.updEntry i f).motion = s.motion ∧
    (s.updEntry i f).dials = s.dials ∧ (s.updEntry i f).laneTx = s.laneTx ∧ (s.updEntry i f).laneRx = s.laneRx ∧
    (s.updEntry i f).store = s.store ∧ (s.updEntry i f).scan = s.scan ∧ (s.updEntry i f).audio = s.audio ∧
    (s.updEntry i f).power = s.power ∧ (s.updEntry i f).port = s.port := by
  unfold State.updEntry; (try dsimp only); (repeat' split) <;> simp

@[simp] theorem countEntry_frame (k : Fin 8) (j : Nat) (s : State) (i : Fin 8) :
    (countEntry k j s i).pending = s.pending ∧ (countEntry k j s i).free = s.free ∧
    (countEntry k j s i).pins = s.pins ∧ (countEntry k j s i).straps = s.straps ∧
    (countEntry k j s i).loader = s.loader ∧ (countEntry k j s i).spine = s.spine ∧
    (countEntry k j s i).intake = s.intake ∧ (countEntry k j s i).cmd = s.cmd ∧
    (countEntry k j s i).alarms = s.alarms ∧ (countEntry k j s i).store = s.store ∧
    (countEntry k j s i).audio = s.audio := by
  unfold countEntry; (try dsimp only); (repeat' split) <;> simp

@[simp] theorem countFiring_frame (k : Fin 8) (j : Nat) (s : State) :
    (countFiring k j s).pending = s.pending ∧ (countFiring k j s).free = s.free ∧
    (countFiring k j s).pins = s.pins ∧ (countFiring k j s).straps = s.straps ∧
    (countFiring k j s).loader = s.loader ∧ (countFiring k j s).spine = s.spine ∧
    (countFiring k j s).intake = s.intake ∧ (countFiring k j s).cmd = s.cmd ∧
    (countFiring k j s).alarms = s.alarms ∧ (countFiring k j s).store = s.store ∧
    (countFiring k j s).audio = s.audio := by
  simp [countFiring, allEntries, List.foldl]

@[simp] theorem fireEntry_frame (i : Fin 8) (p h d : Nat) (s : State) :
    (fireEntry i p h d s).pending = s.pending ∧ (fireEntry i p h d s).free = s.free ∧
    (fireEntry i p h d s).pins = s.pins ∧ (fireEntry i p h d s).straps = s.straps ∧
    (fireEntry i p h d s).loader = s.loader ∧ (fireEntry i p h d s).spine = s.spine ∧
    (fireEntry i p h d s).intake = s.intake ∧ (fireEntry i p h d s).cmd = s.cmd ∧
    (fireEntry i p h d s).alarms = s.alarms ∧ (fireEntry i p h d s).store = s.store ∧
    (fireEntry i p h d s).audio = s.audio := by
  unfold fireEntry; (try dsimp only); (repeat' split) <;> simp

@[simp] theorem fire_frame (a : Action) (s : State) :
    (fire a s).pending = s.pending ∧ (fire a s).free = s.free ∧ (fire a s).pins = s.pins ∧
    (fire a s).straps = s.straps ∧ (fire a s).loader = s.loader ∧ (fire a s).spine = s.spine ∧
    (fire a s).intake = s.intake ∧ (fire a s).cmd = s.cmd ∧ (fire a s).alarms = s.alarms ∧
    (fire a s).store = s.store ∧ (fire a s).audio = s.audio := by
  unfold fire; (try dsimp only); (repeat' split) <;> simp

/-! ### Life and the microsecond -/

@[simp] theorem installDials_frame (k : Settings) (s : State) :
    (installDials k s).pending = s.pending ∧ (installDials k s).free = s.free ∧ (installDials k s).pins = s.pins ∧
    (installDials k s).straps = s.straps ∧ (installDials k s).loader = s.loader ∧
    (installDials k s).spine = s.spine ∧ (installDials k s).slots = s.slots ∧
    (installDials k s).intake = s.intake ∧ (installDials k s).cmd = s.cmd ∧ (installDials k s).alarms = s.alarms ∧
    (installDials k s).time = s.time ∧ (installDials k s).sched = s.sched ∧ (installDials k s).motion = s.motion ∧
    (installDials k s).laneTx = s.laneTx ∧ (installDials k s).laneRx = s.laneRx ∧
    (installDials k s).store = s.store ∧ (installDials k s).scan = s.scan ∧ (installDials k s).audio = s.audio ∧
    (installDials k s).power = s.power ∧ (installDials k s).port = s.port := by
  unfold installDials; (try dsimp only); (repeat' split) <;> simp

@[simp] theorem installPower_frame (p : PowerSettings) (s : State) :
    (installPower p s).pending = s.pending ∧ (installPower p s).free = s.free ∧ (installPower p s).pins = s.pins ∧
    (installPower p s).straps = s.straps ∧ (installPower p s).loader = s.loader ∧
    (installPower p s).spine = s.spine ∧ (installPower p s).slots = s.slots ∧
    (installPower p s).intake = s.intake ∧ (installPower p s).cmd = s.cmd ∧ (installPower p s).alarms = s.alarms ∧
    (installPower p s).time = s.time ∧ (installPower p s).sched = s.sched ∧ (installPower p s).motion = s.motion ∧
    (installPower p s).dials = s.dials ∧ (installPower p s).laneTx = s.laneTx ∧
    (installPower p s).laneRx = s.laneRx ∧ (installPower p s).store = s.store ∧ (installPower p s).scan = s.scan ∧
    (installPower p s).audio = s.audio ∧ (installPower p s).port = s.port := by
  unfold installPower; (try dsimp only); (repeat' split) <;> simp

@[simp] theorem installSettings_frame (k : Settings) (s : State) :
    (installSettings k s).pending = s.pending ∧ (installSettings k s).free = s.free ∧
    (installSettings k s).pins = s.pins ∧ (installSettings k s).straps = s.straps ∧
    (installSettings k s).loader = s.loader ∧ (installSettings k s).slots = s.slots ∧
    (installSettings k s).cmd = s.cmd ∧ (installSettings k s).laneTx = s.laneTx ∧
    (installSettings k s).port = s.port := by
  unfold installSettings; (try dsimp only); (repeat' split) <;> simp

@[simp] theorem latchLoaded_frame (l : Loaded) (s : State) :
    (latchLoaded l s).pending = s.pending ∧ (latchLoaded l s).free = s.free ∧ (latchLoaded l s).pins = s.pins ∧
    (latchLoaded l s).straps = s.straps ∧ (latchLoaded l s).loader = s.loader ∧
    (latchLoaded l s).spine = s.spine ∧ (latchLoaded l s).intake = s.intake ∧ (latchLoaded l s).cmd = s.cmd ∧
    (latchLoaded l s).time = s.time ∧ (latchLoaded l s).sched = s.sched ∧ (latchLoaded l s).motion = s.motion ∧
    (latchLoaded l s).dials = s.dials ∧ (latchLoaded l s).laneTx = s.laneTx ∧
    (latchLoaded l s).laneRx = s.laneRx ∧ (latchLoaded l s).store = s.store ∧ (latchLoaded l s).scan = s.scan ∧
    (latchLoaded l s).audio = s.audio ∧ (latchLoaded l s).power = s.power ∧ (latchLoaded l s).port = s.port := by
  unfold latchLoaded; (try dsimp only); (repeat' split) <;> simp

@[simp] theorem enterListening_frame (s : State) :
    (enterListening s).pending = s.pending ∧ (enterListening s).free = s.free ∧ (enterListening s).pins = s.pins ∧
    (enterListening s).straps = s.straps ∧ (enterListening s).slots = s.slots ∧
    (enterListening s).intake = s.intake ∧ (enterListening s).cmd = s.cmd ∧ (enterListening s).alarms = s.alarms ∧
    (enterListening s).sched = s.sched ∧ (enterListening s).motion = s.motion ∧
    (enterListening s).dials = s.dials ∧ (enterListening s).laneTx = s.laneTx ∧
    (enterListening s).laneRx = s.laneRx ∧ (enterListening s).store = s.store ∧ (enterListening s).scan = s.scan ∧
    (enterListening s).audio = s.audio ∧ (enterListening s).power = s.power := by
  unfold enterListening; (try dsimp only); (repeat' split) <;> simp

@[simp] theorem install_frame (l : Loaded) (s : State) :
    (install l s).pending = s.pending ∧ (install l s).free = s.free ∧ (install l s).pins = s.pins ∧
    (install l s).straps = s.straps ∧ (install l s).cmd = s.cmd ∧ (install l s).laneTx = s.laneTx := by
  unfold install; (try dsimp only); (repeat' split) <;> simp

@[simp] theorem keepReading_frame (s : State) :
    (keepReading s).pending = s.pending ∧ (keepReading s).free = s.free ∧ (keepReading s).pins = s.pins ∧
    (keepReading s).straps = s.straps ∧ (keepReading s).loader = s.loader ∧ (keepReading s).spine = s.spine ∧
    (keepReading s).slots = s.slots ∧ (keepReading s).intake = s.intake ∧ (keepReading s).cmd = s.cmd ∧
    (keepReading s).alarms = s.alarms ∧ (keepReading s).sched = s.sched ∧ (keepReading s).motion = s.motion ∧
    (keepReading s).dials = s.dials ∧ (keepReading s).laneTx = s.laneTx ∧ (keepReading s).laneRx = s.laneRx ∧
    (keepReading s).store = s.store ∧ (keepReading s).scan = s.scan ∧ (keepReading s).audio = s.audio ∧
    (keepReading s).power = s.power ∧ (keepReading s).port = s.port := by
  unfold keepReading; (try dsimp only); (repeat' split) <;> simp

@[simp] theorem countMicrosecond_frame (s : State) :
    (countMicrosecond s).pending = s.pending ∧ (countMicrosecond s).pins = s.pins ∧
    (countMicrosecond s).straps = s.straps ∧ (countMicrosecond s).loader = s.loader ∧
    (countMicrosecond s).spine = s.spine ∧ (countMicrosecond s).slots = s.slots ∧
    (countMicrosecond s).intake = s.intake ∧ (countMicrosecond s).cmd = s.cmd ∧
    (countMicrosecond s).alarms = s.alarms ∧ (countMicrosecond s).sched = s.sched ∧
    (countMicrosecond s).motion = s.motion ∧ (countMicrosecond s).dials = s.dials ∧
    (countMicrosecond s).laneTx = s.laneTx ∧ (countMicrosecond s).laneRx = s.laneRx ∧
    (countMicrosecond s).store = s.store ∧ (countMicrosecond s).scan = s.scan ∧
    (countMicrosecond s).audio = s.audio ∧ (countMicrosecond s).power = s.power ∧
    (countMicrosecond s).port = s.port := by
  unfold countMicrosecond; (try dsimp only); (repeat' split) <;> simp

@[simp] theorem slewMicrosecond_frame (s : State) :
    (slewMicrosecond s).pending = s.pending ∧ (slewMicrosecond s).free = s.free ∧
    (slewMicrosecond s).pins = s.pins ∧ (slewMicrosecond s).straps = s.straps ∧
    (slewMicrosecond s).loader = s.loader ∧ (slewMicrosecond s).slots = s.slots ∧
    (slewMicrosecond s).intake = s.intake ∧ (slewMicrosecond s).cmd = s.cmd ∧
    (slewMicrosecond s).alarms = s.alarms ∧ (slewMicrosecond s).sched = s.sched ∧
    (slewMicrosecond s).motion = s.motion ∧ (slewMicrosecond s).dials = s.dials ∧
    (slewMicrosecond s).laneTx = s.laneTx ∧ (slewMicrosecond s).laneRx = s.laneRx ∧
    (slewMicrosecond s).store = s.store ∧ (slewMicrosecond s).scan = s.scan ∧
    (slewMicrosecond s).audio = s.audio ∧ (slewMicrosecond s).power = s.power ∧
    (slewMicrosecond s).port = s.port := by
  unfold slewMicrosecond; (try dsimp only); (repeat' split) <;> simp

@[simp] theorem runLineClock_frame (s : State) :
    (runLineClock s).pending = s.pending ∧ (runLineClock s).free = s.free ∧ (runLineClock s).pins = s.pins ∧
    (runLineClock s).straps = s.straps ∧ (runLineClock s).loader = s.loader ∧ (runLineClock s).spine = s.spine ∧
    (runLineClock s).slots = s.slots ∧ (runLineClock s).intake = s.intake ∧ (runLineClock s).cmd = s.cmd ∧
    (runLineClock s).alarms = s.alarms ∧ (runLineClock s).time = s.time ∧ (runLineClock s).sched = s.sched ∧
    (runLineClock s).motion = s.motion ∧ (runLineClock s).dials = s.dials ∧ (runLineClock s).laneTx = s.laneTx ∧
    (runLineClock s).laneRx = s.laneRx ∧ (runLineClock s).store = s.store ∧ (runLineClock s).audio = s.audio ∧
    (runLineClock s).power = s.power ∧ (runLineClock s).port = s.port := by
  unfold runLineClock; (try dsimp only); (repeat' split) <;> simp

@[simp] theorem passMicrosecond_frame (s : State) :
    (passMicrosecond s).pending = s.pending ∧ (passMicrosecond s).pins = s.pins ∧
    (passMicrosecond s).straps = s.straps ∧ (passMicrosecond s).loader = s.loader ∧
    (passMicrosecond s).slots = s.slots ∧ (passMicrosecond s).intake = s.intake ∧
    (passMicrosecond s).cmd = s.cmd ∧ (passMicrosecond s).alarms = s.alarms ∧
    (passMicrosecond s).sched = s.sched ∧ (passMicrosecond s).motion = s.motion ∧
    (passMicrosecond s).dials = s.dials ∧ (passMicrosecond s).laneTx = s.laneTx ∧
    (passMicrosecond s).laneRx = s.laneRx ∧ (passMicrosecond s).store = s.store ∧
    (passMicrosecond s).audio = s.audio ∧ (passMicrosecond s).power = s.power ∧
    (passMicrosecond s).port = s.port := by
  unfold passMicrosecond; (try dsimp only); (repeat' split) <;> simp

/-- The local count and the offset together rise by 16 sixteenths, also where the 48 bits of the count are used up. -/
theorem countMicrosecond_rises (s : State) :
    16 * ((countMicrosecond s).time.localCount : Int) + (countMicrosecond s).time.offset =
      16 * (s.time.localCount : Int) + s.time.offset + 16 := by
  unfold countMicrosecond TimeUnit.recount
  split <;> simp only [updTime_time, useFree_time] <;> push_cast <;> ring

@[simp] theorem senseAlert_frame (s : State) :
    (senseAlert s).pending = s.pending ∧ (senseAlert s).free = s.free + 1 ∧
    (senseAlert s).pins = { s.pins with alertOthers := (senseAlert s).pins.alertOthers } ∧
    (senseAlert s).straps = s.straps ∧ (senseAlert s).loader = s.loader ∧ (senseAlert s).spine = s.spine ∧
    (senseAlert s).slots = s.slots ∧ (senseAlert s).intake = s.intake ∧ (senseAlert s).cmd = s.cmd ∧
    (senseAlert s).alarms = s.alarms ∧ (senseAlert s).time = s.time ∧ (senseAlert s).sched = s.sched ∧
    (senseAlert s).motion = s.motion ∧ (senseAlert s).dials = s.dials ∧ (senseAlert s).laneTx = s.laneTx ∧
    (senseAlert s).laneRx = s.laneRx ∧ (senseAlert s).store = s.store ∧ (senseAlert s).scan = s.scan ∧
    (senseAlert s).audio = s.audio ∧ (senseAlert s).power = s.power ∧ (senseAlert s).port = s.port := by
  exact ⟨rfl, rfl, rfl, rfl, rfl, rfl, rfl, rfl, rfl, rfl, rfl, rfl, rfl, rfl, rfl, rfl, rfl, rfl, rfl, rfl, rfl⟩

end Sys2Proof.Machine
end

