-- ==== Sys2Proof/Laws/Memory.lean ====
section
/-! SUPPORT. The bytes of the slice store: a write keeps the canonical form, reads back what it wrote, and leaves every
other byte as it was. -/

namespace Sys2Proof.Machine

theorem Memory.wfFrom_mono {lo lo' : Nat} (h : lo ≤ lo') : ∀ {m : Memory}, Memory.wfFrom lo' m → Memory.wfFrom lo m
  | [], _ => rfl
  | (k, v) :: rest, hw => by
    simp only [Memory.wfFrom, Bool.and_eq_true, decide_eq_true_eq] at hw ⊢
    exact ⟨⟨by omega, hw.1.2⟩, hw.2⟩

theorem Memory.wfFrom_filter (p : Host.Cell → Bool) : ∀ {m : Memory} {lo : Nat},
    Memory.wfFrom lo m → Memory.wfFrom lo (m.filter p)
  | [], _, _ => rfl
  | (k, v) :: rest, lo, hw => by
    simp only [Memory.wfFrom, Bool.and_eq_true, decide_eq_true_eq] at hw
    have ih := Memory.wfFrom_filter p hw.2
    by_cases hp : p (k, v)
    · simp only [List.filter_cons_of_pos hp, Memory.wfFrom, Bool.and_eq_true, decide_eq_true_eq]
      exact ⟨hw.1, ih⟩
    · rw [List.filter_cons_of_neg hp]
      exact Memory.wfFrom_mono (by omega) ih

theorem Memory.wfFrom_append {b : Nat} {m₂ : Memory} (h₂ : Memory.wfFrom b m₂) : ∀ {m₁ : Memory} {lo : Nat},
    lo ≤ b → (∀ c ∈ m₁, c.1 < b) → Memory.wfFrom lo m₁ → Memory.wfFrom lo (m₁ ++ m₂)
  | [], _, hb, _, _ => Memory.wfFrom_mono hb h₂
  | (k, v) :: rest, lo, _, hlt, hw => by
    simp only [Memory.wfFrom, Bool.and_eq_true, decide_eq_true_eq] at hw
    have hk := hlt (k, v) List.mem_cons_self
    simp only [List.cons_append, Memory.wfFrom, Bool.and_eq_true, decide_eq_true_eq]
    exact ⟨hw.1, Memory.wfFrom_append h₂ (by omega) (fun c hc => hlt c (List.mem_cons_of_mem _ hc)) hw.2⟩

theorem Memory.wfFrom_above {b : Nat} : ∀ {m : Memory} {lo : Nat},
    Memory.wfFrom lo m → (∀ c ∈ m, b ≤ c.1) → Memory.wfFrom b m
  | [], _, _, _ => rfl
  | (k, v) :: rest, lo, hw, hb => by
    simp only [Memory.wfFrom, Bool.and_eq_true, decide_eq_true_eq] at hw ⊢
    exact ⟨⟨hb (k, v) List.mem_cons_self, hw.1.2⟩, hw.2⟩

theorem Memory.cells_wf : ∀ (vs : List Byte) (a : Nat), Memory.wfFrom a (Memory.cells a vs)
  | [], _ => rfl
  | v :: vs, a => by
    have ih := Memory.cells_wf vs (a + 1)
    unfold Memory.cells
    split
    · exact Memory.wfFrom_mono (by omega) ih
    · simp only [Memory.wfFrom, Bool.and_eq_true, decide_eq_true_eq, bne_iff_ne]
      exact ⟨⟨Nat.le_refl a, by assumption⟩, ih⟩

theorem Memory.cells_range : ∀ (vs : List Byte) (a : Nat), ∀ c ∈ Memory.cells a vs, a ≤ c.1 ∧ c.1 < a + vs.length
  | [], _, c, hc => by simp [Memory.cells] at hc
  | v :: vs, a, c, hc => by
    have ih := Memory.cells_range vs (a + 1)
    unfold Memory.cells at hc
    simp only [List.length_cons]
    split at hc
    · have := ih c hc; omega
    · rcases List.mem_cons.mp hc with rfl | hc
      · simp
      · have := ih c hc; omega

/-- A write keeps the canonical form. -/
theorem Memory.write_wf (m : Memory) (a : Nat) (vs : List Byte) (h : m.wf) : (m.write a vs).wf := by
  unfold Memory.wf Memory.write at *
  have hhigh : Memory.wfFrom (a + vs.length) (m.filter fun c => decide (a + vs.length ≤ c.1)) :=
    Memory.wfFrom_above (Memory.wfFrom_filter _ h) (fun c hc => by simpa using (List.mem_filter.mp hc).2)
  have hmid : Memory.wfFrom a (Memory.cells a vs ++ m.filter fun c => decide (a + vs.length ≤ c.1)) :=
    Memory.wfFrom_append hhigh (by omega) (fun c hc => (Memory.cells_range vs a c hc).2) (Memory.cells_wf vs a)
  rw [List.append_assoc]
  exact Memory.wfFrom_append hmid (by omega) (fun c hc => by simpa using (List.mem_filter.mp hc).2)
    (Memory.wfFrom_filter _ h)

/-- The memory after power-on has the canonical form. -/
theorem Memory.reset_wf : State.reset.store.mem.wf = true := rfl

/-! ### Reads -/

theorem Memory.read_append_left (x : Nat) : ∀ (m₁ m₂ : Memory), (∀ c ∈ m₁, c.1 ≠ x) →
    Memory.read (m₁ ++ m₂) x = m₂.read x
  | [], _, _ => rfl
  | (k, v) :: rest, m₂, h => by
    have hk : k ≠ x := h (k, v) List.mem_cons_self
    simp only [List.cons_append, Memory.read, if_neg hk]
    exact Memory.read_append_left x rest m₂ fun c hc => h c (List.mem_cons_of_mem _ hc)

theorem Memory.read_append_right (x : Nat) : ∀ (m₁ m₂ : Memory), (∀ c ∈ m₂, c.1 ≠ x) →
    Memory.read (m₁ ++ m₂) x = m₁.read x
  | [], m₂, h => by
    have := Memory.read_append_left x m₂ [] h
    rw [List.append_nil] at this
    simpa using this
  | (k, v) :: rest, m₂, h => by
    simp only [List.cons_append, Memory.read]
    split
    · rfl
    · exact Memory.read_append_right x rest m₂ h

theorem Memory.read_filter (x : Nat) (p : Host.Cell → Bool) (hp : ∀ v, p (x, v) = true) : ∀ m : Memory,
    Memory.read (m.filter p) x = m.read x
  | [] => rfl
  | (k, v) :: rest => by
    by_cases hk : k = x
    · subst hk
      rw [List.filter_cons_of_pos (hp v)]
      simp [Memory.read]
    · by_cases hkeep : p (k, v)
      · rw [List.filter_cons_of_pos hkeep]
        simp only [Memory.read, if_neg hk]
        exact Memory.read_filter x p hp rest
      · rw [List.filter_cons_of_neg hkeep]
        simp only [Memory.read, if_neg hk]
        exact Memory.read_filter x p hp rest

theorem Memory.read_cells (x : Nat) : ∀ (vs : List Byte) (a : Nat), a ≤ x → x < a + vs.length →
    Memory.read (Memory.cells a vs) x = vs.getD (x - a) 0
  | [], a, h, h' => by simp at h'; omega
  | v :: vs, a, h, h' => by
    simp only [List.length_cons] at h'
    unfold Memory.cells
    by_cases hx : a = x
    · subst hx
      split
      · rename_i hv
        have hnil : Memory.read (Memory.cells (a + 1) vs ++ []) a = Memory.read [] a :=
          Memory.read_append_left a _ _ fun c hc => by have := (Memory.cells_range vs (a + 1) c hc).1; omega
        rw [List.append_nil] at hnil
        simp [hnil, Memory.read, hv]
      · simp [Memory.read]
    · have ih := Memory.read_cells x vs (a + 1) (by omega) (by omega)
      have hget : (v :: vs).getD (x - a) 0 = vs.getD (x - (a + 1)) 0 := by
        have : x - a = x - (a + 1) + 1 := by omega
        rw [this, List.getD_cons_succ]
      rw [hget]
      split
      · exact ih
      · simp only [Memory.read, if_neg hx]
        exact ih

/-- A byte that was written reads back. -/
theorem Memory.read_write_inside (m : Memory) (a : Nat) (vs : List Byte) (x : Nat) (h : a ≤ x)
    (h' : x < a + vs.length) : (m.write a vs).read x = vs.getD (x - a) 0 := by
  unfold Memory.write
  rw [Memory.read_append_right, Memory.read_append_left, Memory.read_cells x vs a h h']
  · intro c hc
    have := (List.mem_filter.mp hc).2
    simp only [decide_eq_true_eq] at this
    omega
  · intro c hc
    have := (List.mem_filter.mp hc).2
    simp only [decide_eq_true_eq] at this
    omega

/-- A byte outside a write reads as before. -/
theorem Memory.read_write_outside (m : Memory) (a : Nat) (vs : List Byte) (x : Nat) (h : x < a ∨ a + vs.length ≤ x) :
    (m.write a vs).read x = m.read x := by
  unfold Memory.write
  rcases h with h | h
  · rw [Memory.read_append_right, Memory.read_append_right, Memory.read_filter x _ fun v => by simpa using h]
    · intro c hc
      have := (Memory.cells_range vs a c hc).1
      omega
    · intro c hc
      have := (List.mem_filter.mp hc).2
      simp only [decide_eq_true_eq] at this
      omega
  · rw [Memory.read_append_left, Memory.read_filter x _ fun v => by simpa using h]
    intro c hc
    rcases List.mem_append.mp hc with hc | hc
    · have := (List.mem_filter.mp hc).2
      simp only [decide_eq_true_eq] at this
      omega
    · have := (Memory.cells_range vs a c hc).2
      omega

end Sys2Proof.Machine
end

