-- ==== Sys2Proof/Tests/Slice0.lean ====
section
/-! SUPPORT. Tests: ill-formed commands, one step of each kind on a small state, and for every statement with hypotheses
states and operands that meet them, clause by clause. -/

-- One test at a time: tests that wait for the kernel would each hold a thread.
set_option Elab.async false
set_option maxRecDepth 8000

namespace Sys2Proof.Machine.Tests

open Sys2Proof Sys2Proof.Machine

/-! ### Ill-formed commands -/

theorem test_wf_image_of_513_bytes : (Instr.profileInstalled (List.replicate 513 0)).wf = false := by decide

theorem test_wf_ten_further_bit_times : (Instr.spineStart 10).wf = false := by decide

theorem test_wf_body_of_64_bytes :
    (Instr.messageTaken { rank := 0, body := List.replicate 64 0, check := 0, extra := false }).wf = false := by
  decide

theorem test_wf_pixels_of_196609_bytes :
    (Instr.packetEnd { bytes := List.replicate 196609 0, beforeCut := 0 } 0).wf = false := by
  simp only [Instr.wf, PixelRun.wf, List.length_replicate]; decide

theorem test_wf_cut_beyond_its_pixels :
    (Instr.laneDown { bytes := [1], beforeCut := 2 }).wf = false ∧
      (Instr.packetHeader
        { eye := 0, index := 0, flags := 0, target := 0, pose := 0, lines := 0, width := 0, check := 0 }
        { bytes := [1], beforeCut := 2 }).wf = false := by
  decide

theorem test_wf_reading_without_an_answer : (Instr.meterReadingComplete .awaited .awaited).wf = false := by decide

theorem test_wf_send_of_65532_bytes :
    (Instr.send { flags := 0, rank := 0, length := 0, body := List.replicate 65532 0 }).wf = false := by
  simp only [Instr.wf, List.length_replicate]; decide

theorem test_wf_largest_operands :
    (Instr.profileInstalled (List.replicate 512 0)).wf ∧ (Instr.spineStart 9).wf ∧
      (Instr.meterReadingComplete .notReady .awaited).wf ∧ (Instr.packetEnd { bytes := [1], beforeCut := 1 } 0).wf := by
  decide

/-! ### Stations to test on -/

def strapsOf (role : Role) : Straps :=
  { node := 3, role := role, rate := .mbit25, supplyPresent := false, profilePresent := false }

/-- A station of a role at node 3 in RUNNING, with default settings and schedule, at local count 1000. -/
def up (role : Role) : State :=
  let s := State.powerOn (strapsOf role) pinsAtPowerOn [] 0
  { s with
    loader := { s.loader with life := .running }
    spine := { s.spine with synced := true, quietRuns := 1 }
    sched := { s.sched with entries := (defaultEntries role 3).map (·.installed 16000) }
    time := { s.time with localCount := 1000 }
    alarms := { s.alarms with wire := defaultWire, message := defaultMessage } }

def headset : State := up .headset

def console : State := up .console

def supply : State := up .supply

/-- A small picture: slices of 8 lines of 64 pixels, 64 lines, with a buffer for every slice. -/
def smallPicture (s : State) : State :=
  { s with store := { s.store with geometry := { s.store.geometry with S := 8, H := 64, W := 64 } } }

/-- The state after one command, or the state itself if it stops. -/
def after (c : Instr) (s : State) : State :=
  match step { s with pending := [c] } with
  | .next t => t
  | .fault _ => s
  | .refused _ => s

def slotOf (rank : Nat) (body : List Byte) (state : SlotState) : Slot :=
  { emptySlot with
    state := state
    content := { rank := BitVec.ofNat 12 rank, body := body, singleShot := false, loop := false } }

/-- The own message of a slot is on the spine. -/
def sending (n : SlotName) (s : State) : State :=
  { s with
    slots := s.slots.put n { s.slot n with state := .sending }
    spine :=
      { s.spine with
        tx := some
          { slot := n
            rank := (s.slot n).content.rank
            body := (s.slot n).content.body
            check := 0
            loop := false
            start := 0
            startMoved := 0 } } }

/-- A message with its check bits. -/
def message (rank : Nat) (body : List Byte) : Received :=
  { rank := BitVec.ofNat 12 rank
    body := body
    check := spineCheck (BitVec.ofNat 12 rank) body
    extra := false }

/-- The pixel bytes of a packet that no opening has cut. -/
def uncut (bytes : List Byte) : PixelRun := { bytes := bytes, beforeCut := 0 }

/-- The oldest command of the command unit. -/
def commanded (code : Nat) (args : List Byte) (isLocal : Bool) (s : State) : State :=
  { s with
    cmd := { s.cmd with queue := [{ origin := 0, code := BitVec.ofNat 5 code, tag := 9, args := args, isLocal := isLocal }] } }

def commandOf (code : Nat) (args : List Byte) (isLocal : Bool) : Command :=
  { origin := 0, code := BitVec.ofNat 5 code, tag := 9, args := args, isLocal := isLocal }

/-- A stretch of agreed time beyond the local count. -/
def later (us : Nat) (s : State) : State := { s with time := { s.time with offset := 16 * us } }

/-! ### One step each -/

/-- R59, R60 (log 1): with no command waiting, a microsecond passes. -/
theorem test_microsecond_slews :
    (match step { supply with time := { supply.time with slew := -3 } } with
      | .next t => (t.time.localCount, t.time.slew, t.time.offset) == (1001, -2, -1)
      | .fault _ => false
      | .refused _ => false) = true := by decide

theorem test_powerOn : (after (.powerOn (strapsOf .headset)) console).straps.role = .headset := by decide

theorem test_profileInstalled_without_memory :
    (after (.profileInstalled []) State.reset).loader.life = .listening ∧
      (after (.profileInstalled []) State.reset).alarms.latched = 1 := by decide

theorem test_profileMemoryTimeout :
    (after .profileMemoryTimeout
      { State.reset with
        straps := { State.reset.straps with profilePresent := true }
        time := { State.reset.time with localCount := 10000 } }).loader.life = .listening := by decide

theorem test_restartBegin_keeps_agreed_time :
    (after (.restartBegin (strapsOf .headset))
      { headset with loader := { headset.loader with restartDue := true } }).agreed = 16000 := by decide

theorem test_restartRecord_raises_epoch :
    (after (.restartRecord (strapsOf .console)) console).loader.epoch = 1 := by decide

/-- R23: rank 0x103 goes before rank 0x603. -/
theorem test_spineStart_takes_lowest_rank :
    ((after (.spineStart 0)
      { supply with
        slots :=
          { supply.slots with time := slotOf 259 [1] .pending, port := slotOf 1539 [2] .pending } }).spine.tx.map
      (·.slot)) = some .time := by decide

theorem test_quietRun_counts : (after (.quietRun) supply).spine.quietRuns = 2 := by decide

/-- R7 (log 3): a driven bit time between messages takes the quiet runs away; a run after it stands alone. -/
theorem test_driven_bit_ends_quiet_runs :
    (after (.spineStart 0 true) supply).spine.quietRuns = 0 ∧ (after (.quietRun true) supply).spine.quietRuns = 1 := by
  decide

theorem test_rejoin :
    (after (.rejoin) { supply with spine := { supply.spine with standing := .cut, sfc := 1 } }).spine.standing = .open := by
  decide

theorem test_arbitrationLoss : (after .arbitrationLoss (sending .pose headset)).slots.pose.state = .pending := by
  decide

theorem test_sendError_adds_8 : (after (.sendError .drive) (sending .pose headset)).spine.sfc = 8 := by decide

theorem test_receiveError_adds_1 : (after (.receiveError .check) supply).spine.tfc = 1 := by decide

theorem test_sendEnd_empties_slot : (after .sendEnd (sending .pose headset)).slots.pose.state = .empty := by
  decide

/-- R31: on a CONSOLE an ALARM message falls to the entry that queues. -/
theorem test_messageTaken_queues :
    (after (.messageTaken (message 1 [0, 1, 0, 1, 0, 0])) console).intake.used = 12 := by decide

theorem test_status_replies :
    (after .status (commanded 1 [0] false supply)).slots.reply.content.body.length = 40 := by decide

theorem test_clearAlarm :
    (after .clearAlarm
      (commanded 2 [0, 1] false { supply with alarms := { supply.alarms with latched := 3 } })).alarms.latched = 2 := by
  decide

theorem test_holdEncoders_clears_limit :
    (after .holdEncoders
      (commanded 3 [] false
        { headset with dials := { headset.dials with e0 := { headset.dials.e0 with limit := true } } })).dials.e0.limit =
      false := by decide

theorem test_readSamples_of_empty_ring :
    (after .readSamples (commanded 4 [1] false headset)).slots.reply.content.body = [0, 9, 3, 0] := by decide

theorem test_alignPose :
    (after .alignPose (commanded 5 [0, 0, 0, 1, 0, 0, 0, 2, 0, 0, 0, 3] false headset)).motion.acc =
      { yaw := 1, pitch := 2, roll := 3 } := by decide

theorem test_readBands : (after .readBands (commanded 6 [0] false headset)).slots.reply.content.body =
    [0, 9, 0, 0, 0, 0, 0] := by decide

theorem test_clearMapFault_of_released_record :
    (after .clearMapFault (commanded 7 [] false headset)).slots.reply.content.body = [0, 9, 3] := by decide

theorem test_capture_on :
    (after .capture (commanded 8 [1] false headset)).audio.capture.a.state = .filling := by decide

theorem test_setGain_clamps : (after .setGain (commanded 9 [2, 0] false headset)).audio.gain = 256 := by decide

theorem test_readQueue_of_empty_queue :
    (after .readQueue (commanded 10 [0, 0] false supply)).slots.reply.content.body = [0, 9, 3, 0] := by decide

theorem test_restart_local_reply_waits :
    (after .restart (commanded 11 [] true console)).loader.restartDue = false ∧
      (after .restart (commanded 11 [] true console)).intake.used = 8 := by decide

theorem test_readTime_gives_agreed_time :
    ((after .readTime (commanded 12 [] false supply)).slots.reply.content.body.drop 3).take 7 =
      [0, 0, 0, 0, 3, 232, 0] := by decide

theorem test_unknownCommand :
    (after .unknownCommand (commanded 13 [] false supply)).slots.reply.content.body = [0, 9, 2] := by decide

theorem test_firings :
    (after .beacon (later 40000 supply)).slots.time.state = .pending ∧
      ((after .frame (later 12000 headset)).scan.scanning = true ∧
      (after .frame (later 12000 headset)).scan.frameNumber = 1) ∧
      (after .sample headset).motion.reading = some { stamp := 1000, since := 1000 } ∧
      (after .powerReport (later 50000 supply)).power.reading =
        some { since := 1000, load := .awaited, battery := .awaited } := by decide +kernel

theorem test_portStatus_waits :
    (after .portStatus
      { console with
        sched :=
          { console.sched with
            entries := #v[repeatEntry .portStatus 160 0, noneEntry, noneEntry, noneEntry, noneEntry, noneEntry,
              noneEntry, noneEntry] } }).port.status.isSome = true := by decide

theorem test_poseReportRepeatFiring_of_empty_history :
    (after .poseReportRepeatFiring
      { headset with
        sched :=
          { headset.sched with
            entries := #v[repeatEntry .poseReport 160 0, noneEntry, noneEntry, noneEntry, noneEntry, noneEntry,
              noneEntry, noneEntry] } }).motion.emptyReports = 1 := by decide

/-- A record of origin 1 heard at agreed time 0. -/
def oldRecord : TimeRecord :=
  { lastNumber := 6, ownTime := 0, lastHeard := 0, carriedRef := 1, carriedHas := false, expired := false }

def reading (s : State) : State := { s with motion := { s.motion with reading := some { stamp := 1000, since := 900 } } }

theorem test_sensorReadComplete_moves_pose :
    (after (.sensorReadComplete true { x := 1, y := 2, z := 3 } { x := 0, y := 0, z := 0 }) (reading headset)).motion.acc =
      { yaw := 2184, pitch := 728, roll := 1456 } := by decide

theorem test_sensorReadTimeout_holds :
    (after .sensorReadTimeout
      { reading headset with time := { headset.time with localCount := 1300 } }).motion.timedOut = 1 := by decide

theorem test_dialChange_forward : (after (.dialChange .e0 false true) headset).dials.e0.count = 1 := by decide

theorem test_inputFrameStart_untagged : (after .inputFrameStart console).laneTx.untagged = 1 := by decide

def inputFrame (line : InputLine) : InputFrame :=
  { tag := none, linesDone := 0, line := line, slice := [], extraCounted := false }

def inputting (line : InputLine) (s : State) : State :=
  { s with laneTx := { s.laneTx with frame := some (inputFrame line) } }

theorem test_inputLineStart :
    (after .inputLineStart (inputting .none console)).laneTx.frame = some (inputFrame (.filling [])) := by decide

theorem test_inputPixel_after_line :
    (after (.inputPixel black) (inputting (.full false) console)).laneTx.inputShape = 1 := by decide

theorem test_tag_queues : (after (.tag { target := 1, pose := 2 }) console).laneTx.tags.length = 1 := by decide

/-- A CONSOLE whose left eye owes the voids of slices 6 and 7, with credit for 8 positions. -/
def owing : State :=
  let s := smallPicture console
  { s with
    pins := { s.pins with laneSignal := true }
    power := { s.power with step := 1 }
    laneTx :=
      { s.laneTx with
        eyes :=
          { s.laneTx.eyes with
            left :=
              { s.laneTx.eyes.left with
                voidsOwed := 2
                sent := 6
                horizon := 14
                voidTag := some (some { target := 1, pose := 2 }) } } } }

theorem test_lanePacketStart_sends_void :
    (after .lanePacketStart owing).laneTx.packet.map (·.bytes.take 3) = some [0, 6, 3] := by decide

theorem test_lanePacketEnd :
    (after .lanePacketEnd { owing with laneTx := { owing.laneTx with packet := some { eye := .left, bytes := [] } } }).laneTx.packet =
      none := by decide

theorem test_laneDown_latches : (after (.laneDown) { headset with pins := { headset.pins with laneSignal := true } }).isLatched .lane =
    true := by decide

theorem test_laneUp : (after .laneUp headset).pins.laneSignal = true := by decide

/-- A header of the left eye for the small picture, with its header check. -/
def headerOf (index : Nat) (flags : Byte) : PacketHeader :=
  let h : PacketHeader :=
    { eye := 0
      index := BitVec.ofNat 8 index
      flags := flags
      target := 5
      pose := 7
      lines := 8
      width := 64
      check := 0 }
  { h with check := bytesCheck (headerBytes h) }

/-- A HEADSET with the small picture and one buffer for each slice, its lane up, both horizons at 8. -/
def receiver : State :=
  let s := smallPicture headset
  let band (i : Nat) : Band := { defaultBand i with count := 1 }
  { s with
    pins := { s.pins with laneSignal := true }
    store :=
      { s.store with
        bands :=
          { left := .ofFn fun i => band i.val
            right := .ofFn fun i => band (8 + i.val) } }
    laneRx := { s.laneRx with eyes := .same (receiverEyeAtPowerOn 8) } }

theorem test_packetHeader_taken :
    (after (.packetHeader (headerOf 0 2)) receiver).laneRx.eyes.left.accepted = 1 ∧
      (after (.packetHeader (headerOf 0 2)) receiver).store.buffers[(0 : Fin 256)].writing = true := by decide

/-- A packet of slice 0 is being written into buffer 0. -/
def writing : State :=
  { receiver with
    laneRx := { receiver.laneRx with packet := some { eye := .left, index := 0, buffer := some 0 } }
    store :=
      { receiver.store with
        buffers := receiver.store.buffers.set 0 { bufferAtPowerOn with full := true, writing := true } } }

/-- The packet of `writing` after an opening has cut its write, and one that has no buffer. -/
def writeCut : State :=
  { writing with store := { writing.store with buffers := writing.store.buffers.set 0 bufferAtPowerOn } }

def writeLess : State :=
  { writing with laneRx := { writing.laneRx with packet := some { eye := .left, index := 0, buffer := none } } }

theorem test_packetEnd_of_short_packet :
    (after (.packetEnd (uncut [7, 8]) 0) writing).store.mem = [(0, 7), (1, 8)] ∧
      (after (.packetEnd (uncut [7, 8]) 0) writing).store.checkFailures = 1 := by decide

/-- R119, R121 (log 11): the pixels that came before the lane went DOWN, or before an opening, stand in the area. -/
theorem test_pixels_before_a_cut_are_written :
    (after (.laneDown (uncut [7, 8])) writing).store.mem = [(0, 7), (1, 8)] ∧
      (after (.packetEnd { bytes := [7, 8], beforeCut := 1 } 0) writeCut).store.mem = [(0, 7)] := by decide

/-- A scan of the small picture at line `y`. -/
def scanning (y : Nat) : State :=
  { receiver with
    scan := { receiver.scan with scanning := true, tickTime := some 900, nextLine := y, lineClock := 104 * y } }

theorem test_scanLine : (after .scanLine (scanning 0)).scan.nextLine = 1 := by decide

theorem test_scanEnd : (after .scanEnd (scanning 64)).scan.scanning = false := by decide

/-- A stream with one block of 8 frames whose stamp is `stamp`. -/
def stream (state : StreamState) (stamp : Int) : State :=
  { headset with
    audio :=
      { headset.audio with
        state := state
        origin := some 0
        lastSeq := some 4
        ring := List.replicate 8 { left := 256, right := 512 }
        blocks := [{ kind := .block 4 stamp, remaining := 8, started := false }]
        silence := some 0 } }

theorem test_playStampReached : (after .playStampReached (stream .priming 1000)).audio.state = .playing := by
  decide

theorem test_codecFrame_takes_frame : (after (.codecFrame 0) (stream .playing 1000)).audio.ring.length = 7 := by
  decide

theorem test_silenceTimerExpiry :
    (after .silenceTimerExpiry
      { stream .playing 1000 with audio := { (stream .playing 1000).audio with silence := some 2400 } }).audio.state =
      .draining := by decide

def supplierEntry : PowerEntry :=
  { supplier := true
    consumer := false
    available := 2000
    floor := 0
    desire := 0
    grant := 0
    lastHeard := 1000
    expired := false }

/-- Node 0 is a fresh supplier of 2000. -/
def supplied (s : State) : State := { s with power := { s.power with view := s.power.view.set 0 (some supplierEntry) } }

def metering (s : State) : State :=
  { s with power := { s.power with reading := some { since := 900, load := .awaited, battery := .awaited } } }

theorem test_limits_run_out :
    (after (.timeRecordExpiry 1)
      (later 400000
        { supply with
          time :=
            { supply.time with
              table := #v[none, some oldRecord, none, none, none, none, none, none]
              reference := some 1 } })).isLatched .timelost = true ∧
      (after .listeningTimerExpiry
      (later 300000
        { supply with
          loader := { supply.loader with life := .listening }
          time := { supply.time with timer := some 16000 } })).loader.life = .running ∧
      (after (.powerEntryExpiry 0)
      (supplied { supply with time := { supply.time with localCount := 400000 } })).power.expired = 1 ∧
      (after (.meterReadingComplete (.value 50) .awaited) (metering (supplied headset))).power.grant = 1600 := by
  decide +kernel

theorem test_meterReadingTimeout :
    (after (.meterReadingTimeout .awaited .awaited)
      { metering supply with time := { supply.time with localCount := 2900 } }).power.meterFailures = 2 := by decide

/-- R165: on a SUPPLY a load that has come back, handed over then or with the limit, counts; the gauge's silence alone is
failed. -/
theorem test_load_in_time_counts_without_the_gauge :
    let held := after (.meterReadingComplete (.value 50) .awaited) (metering supply)
    held.power.meterFailures = 0 ∧
      ∀ t ∈ [after (.meterReadingTimeout .awaited .awaited) { held with time := { supply.time with localCount := 2900 } },
          after (.meterReadingTimeout (.value 50) .awaited)
            { metering supply with time := { supply.time with localCount := 2900 } }],
        t.power.load = 50 ∧ t.power.meterFailures = 1 := by decide

theorem test_send_loads_port_slot :
    (after (.send { flags := 0, rank := 1792, length := 1, body := [5] }) console).slots.port.content.rank = 1795 := by
  decide

theorem test_abort :
    ((after .abort { console with slots := { console.slots with port := slotOf 1795 [5] .pending } }).port.outcomes.map
      (·.outcome)) = [.aborted] := by decide

theorem test_ack :
    (after .ack { console with intake := { console.intake with overrun := true } }).intake.overrun = false := by
  decide

theorem test_portError : (after .portError console).port.errors = 1 := by decide

theorem test_outgoingRecordStart :
    ((after .outgoingRecordStart
      { console with port := { console.port with outcomes := [{ outcome := .sent, attempts := 1 }] } }).port.out.map
      fun r => r.bytes.take 6) = some [9, 0, 3, 0, 1, 0] := by decide

theorem test_outgoingRecordEnd :
    (after .outgoingRecordEnd
      { console with port := { console.port with out := some { kind := .outcome, bytes := [] } } }).port.out = none := by
  decide

/-- R182 (log 27): a restart ends the record on the outgoing link with the abort mark, until another starts. -/
theorem test_restart_marks_the_record_it_cuts :
    (after (.restartRecord (strapsOf .console))
      { console with port := { console.port with out := some { kind := .outcome, bytes := [] } } }).port.abortMark =
      true := by decide

/-! ### The spec's worked cases -/

/-- R62, the example: agreed time 5,000,150,000 µs and the field 705,132,704. -/
theorem test_case_rebuild : rebuild 705132704 5000150000 = 5000100000 := by decide

/-- 07, Worked example: a DOWN band: M = 12, base 40, count 5. -/
theorem test_case_down_band :
    [6, 7, 8, 11].map (({ defaultBand 40 with direction := .down, count := 5 } : Band).bufferAt 12) =
      [none, some 44, some 43, some 40] := by decide

/-- 07, Worked example: a profile with three bad bands: right bands 0, 5 and 7. -/
theorem test_case_three_bad_bands :
    let given : Vector Band 8 := #v[{ defaultBand 90 with count := 12 }, defaultBand 108, defaultBand 120, defaultBand 132,
      defaultBand 144, { defaultBand 156 with count := 14 }, defaultBand 168, { defaultBand 250 with count := 12 }]
    (checkBands 12 { left := defaultBands.left, right := given }).right.toList.map (fun b => (b.access, b.count)) =
      [(.absent, 12), (.live, 12), (.live, 12), (.live, 12), (.live, 12), (.live, 12), (.live, 12), (.absent, 12)] := by
  decide

/-- 04, Worked sequence: a step passes several dues: agreed time 9,603,680,000 sixteenths, the FRAME entry next due at
9,603,212,004. -/
theorem test_case_step_passes_dues :
    let s := { headset with
      sched :=
        { headset.sched with
          entries := #v[{ action := .frame, mode := .repeating 177778 0 9603212004 }, noneEntry, noneEntry, noneEntry,
            noneEntry, noneEntry, noneEntry, noneEntry] }
      time := { headset.time with offset := 9603680000 - 16000 } }
    (after .frame s).sched.entries[(0 : Fin 8)].mode = .repeating 177778 0 9603745338 ∧
      (after .frame s).sched.skippedDues = 2 ∧ (after .frame s).scan.frameNumber = 54020 := by decide +kernel

/-- The HEADSET of 08, Worked case: the shift of one slice: L is the newest entry and R the one that the tag of slice 40
names in both eyes. -/
def shiftCase : State :=
  let entry (sequence : BitVec 16) (stamp yaw pitch : Nat) (inc : Int) : PoseEntry :=
    { sequence := sequence
      stamp := stamp
      angles := { yaw := BitVec.ofNat 32 yaw, pitch := BitVec.ofNat 32 pitch, roll := 0 }
      increments := { yaw := inc, pitch := 0, roll := 0 }
      held := true
      saturated := false }
  let shown : BufferRecord := { bufferAtPowerOn with full := true, tag := { target := 0, pose := 7, present := true } }
  { headset with
    scan := { headset.scan with scanning := true, tickTime := some 60000000 }
    dials := { headset.dials with e0 := { headset.dials.e0 with frameValue := -12 } }
    store := { headset.store with buffers := (headset.store.buffers.set 40 shown).set 136 shown }
    motion :=
      { headset.motion with
        history := [entry 7 59000000 990000000 503000000 0, entry 8 59998812 1000000000 500000000 3261440] } }

/-- 08, Worked case: the shift of one slice: dx16 763 and 835, dy −4, no flag. -/
theorem test_case_shift :
    [Eye.left, .right].map (fun e => shiftRecord shiftCase e 40) =
      [{ dx16 := 763, dy := -4, unmatched := false, hClamp := false, vClamp := false },
        { dx16 := 835, dy := -4, unmatched := false, hClamp := false, vClamp := false }] := by decide +kernel

/-- 08, Worked case: two pixels of slice 40: 200 and 120 blended with f = 11, then B = 192. -/
theorem test_case_blend : blend 200 120 11 = 145 ∧ scaleChannel 192 145 = 109 := by decide

/-- 10, Worked case: one pack, three consumers: the HEADSET's grant at pools 1600, 1200 and 0, with F = 1190 and
D = 1890. -/
theorem test_case_grant :
    let own : PowerEntry :=
      { supplier := false
        consumer := true
        available := 0
        floor := 900
        desire := 1600
        grant := 300
        lastHeard := 0
        expired := false }
    [1600, 1200, 0].map (fun pool => grantOf own pool 1190 1890) = [1310, 910, 0] ∧
      [1310, 910, 0].map (stepTarget (defaultPower .headset)) = [2, 1, 0] := by decide

/-- 05, Worked sequence: a sensor that stops answering: g = 4500 with bias 20 and gain 728 on yaw (sensor axis z) takes
acc_yaw from 1,000,000,000 to 1,003,261,440. -/
theorem test_case_integration :
    let s := reading headset
    let k := s.motion.settings
    let s := { s with
      motion :=
        { s.motion with
          acc := { yaw := 1000000000, pitch := 0, roll := 0 }
          settings := { k with bias := { k.bias with yaw := 20 } } } }
    (after (.sensorReadComplete true { x := 0, y := 0, z := 4500 } { x := 0, y := 0, z := 0 }) s).motion.acc.yaw =
      1003261440 := by decide

/-! ### What meets the statements' hypotheses: the queue, starts and quiet runs -/

theorem test_EmptyQueueLetsAMicrosecondPass_met :
    ∃ s : State, s.pending = [] ∧ s.time.localCount < 2 ^ 48 - 1 ∧ s.time.localCount + 1 = 2 ^ 48 - 1 :=
  ⟨{ supply with time := { supply.time with localCount := 2 ^ 48 - 2 } }, by decide⟩

/-- A SUPPLY with a PENDING TIME and PORT slot, MUTED after an own message. -/
def waiting : State :=
  { supply with
    slots := { supply.slots with time := slotOf 259 [1] .pending, port := slotOf 1539 [2] .pending }
    spine := { supply.spine with standing := .muted, lastOwn := true } }

theorem test_StartTakesPendingSlotOfLowestRank_met :
    ∃ (s : State) (n : SlotName) (further : Nat), Stated.mayBegin s further ∧ (s.slot n).state = .pending ∧
      (∀ m, (s.slot m).state = .pending → m ≠ n →
        (s.slot n).content.rank.toNat < (s.slot m).content.rank.toNat ∨
          (s.slot n).content.rank = (s.slot m).content.rank ∧ slotOrder.idxOf n < slotOrder.idxOf m) :=
  ⟨waiting, .time, 8, by unfold Stated.mayBegin; decide, by decide, fun m => by cases m <;> decide⟩

/-- Of two slots with one rank the earlier in slot order goes first. -/
theorem test_StartTakesPendingSlotOfLowestRank_met_by_order :
    ∃ (s : State) (n m : SlotName), Stated.mayBegin s 0 ∧ (s.slot n).state = .pending ∧ (s.slot m).state = .pending ∧
      (s.slot n).content.rank = (s.slot m).content.rank ∧ slotOrder.idxOf n < slotOrder.idxOf m :=
  ⟨{ supply with slots := { supply.slots with time := slotOf 259 [1] .pending, port := slotOf 259 [2] .pending } },
    .time, .port, by unfold Stated.mayBegin; decide, by decide⟩

theorem test_NothingStartsOtherwise_met :
    ¬ Stated.mayBegin waiting 7 ∧ ∀ n, (supply.slot n).state ≠ .pending :=
  ⟨by unfold Stated.mayBegin; decide, fun n => by cases n <;> decide⟩

/-- Between messages; inside a message, and in LOADING. -/
theorem test_DrivenBitEndsTheQuietRuns_met :
    Stated.betweenMessages supply ∧ ¬ Stated.betweenMessages (sending .pose headset) ∧
      ¬ Stated.betweenMessages State.reset := by
  unfold Stated.betweenMessages
  decide

def captureOn (s : State) : State :=
  { s with audio := { s.audio with capture := { s.audio.capture with switch := true } } }

def isCut (sfc : Nat) (s : State) : State :=
  { s with spine := { s.spine with standing := .cut, sfc := sfc, tfc := 0 } }

theorem test_QuietRunIsCounted_met :
    ∀ runs ∈ [0, 1, 2],
      let s := { supply with spine := { supply.spine with quietRuns := runs } }
      Stated.betweenMessages s ∧ s.spine.standing ≠ .cut := by
  unfold Stated.betweenMessages
  decide

theorem test_QuietRunLowersRejoinCountdown_met :
    ∃ s : State, Stated.betweenMessages s ∧ s.spine.standing = .cut ∧ s.spine.sfc = 2 :=
  ⟨isCut 2 supply, by unfold Stated.betweenMessages; decide⟩

theorem test_CountdownAtZeroRejoins_met :
    ∃ s : State, s.loader.life = .running ∧ s.spine.tx = none ∧ s.spine.receiving = false ∧ s.spine.standing = .cut ∧
      s.spine.sfc = 1 ∧ s.alarms.unsent ≠ 0 ∧ s.straps.role = .headset ∧ s.audio.capture.switch = true :=
  ⟨captureOn { isCut 1 headset with alarms := { headset.alarms with latched := 8, unsent := 8 } }, by decide⟩

/-! ### The end of a send -/

def theMessage (n : SlotName) (s : State) : Transmission :=
  { slot := n
    rank := (s.slot n).content.rank
    body := (s.slot n).content.body
    check := 0
    loop := false
    start := 0
    startMoved := 0 }

/-- A PORT message on the spine, with its marks. -/
def portSending (singleShot abortMark : Bool) : State :=
  let s := sending .port console
  { s with
    slots :=
      { s.slots with
        port :=
          { s.slots.port with
            content := { s.slots.port.content with singleShot := singleShot }
            abortMark := abortMark } } }

/-- The three ends of a slot: without marks, single-shot, and marked to abort. -/
theorem test_ArbitrationLossIsNoError_met :
    (sending .pose headset).spine.tx = some (theMessage .pose headset) ∧
      ((sending .pose headset).slot .pose).content.singleShot = false ∧
      ((sending .pose headset).slot .pose).abortMark = false ∧
      (portSending true false).spine.tx = some (theMessage .port console) ∧
      ((portSending true false).slot .port).content.singleShot = true ∧
      (portSending false true).spine.tx = some (theMessage .port console) ∧
      ((portSending false true).slot .port).content.singleShot = false ∧
      ((portSending false true).slot .port).abortMark = true := by decide

/-- A station that sends, with its fault counts. -/
def sendingWith (sfc tfc : Nat) (n : SlotName) (s : State) : State :=
  let s := sending n s
  { s with spine := { s.spine with sfc := sfc, tfc := tfc, standing := standingOf sfc tfc s.spine.strain } }

theorem test_SendErrorRaisesSendFaultCount_met :
    (∃ (s : State) (x : Transmission) (k : SendErrorKind), s.spine.tx = some x ∧ s.spine.standing ≠ .cut ∧
      s.spine.sfc + Stated.sendFault k s.spine.standing = 255 ∧
      standingOf (s.spine.sfc + Stated.sendFault k s.spine.standing) s.spine.tfc s.spine.strain = s.spine.standing) ∧
    (∃ (s : State) (x : Transmission), s.spine.tx = some x ∧ s.spine.standing = .muted ∧
      s.spine.sfc + Stated.sendFault .echo s.spine.standing = 255 ∧
      standingOf (s.spine.sfc + Stated.sendFault .echo s.spine.standing) s.spine.tfc s.spine.strain =
        s.spine.standing) ∧
    ∃ (s : State) (x : Transmission), s.spine.tx = some x ∧ s.spine.standing = .strained ∧
      standingOf (s.spine.sfc + Stated.sendFault .drive s.spine.standing) s.spine.tfc s.spine.strain = .muted :=
  ⟨⟨sendingWith 247 0 .pose headset, theMessage .pose headset, .drive, by decide⟩,
    ⟨sendingWith 255 0 .pose headset, theMessage .pose headset, by decide⟩,
    ⟨sendingWith 120 0 .pose headset, theMessage .pose headset, by decide⟩⟩

theorem test_LeavingOpenLatchesStrain_met :
    ∃ (s : State) (x : Transmission), s.spine.tx = some x ∧ s.loader.life = .running ∧ s.spine.standing = .open ∧
      s.spine.strain ≤ s.spine.sfc + 8 ∧ s.spine.sfc + 8 ≤ 255 ∧ s.spine.strain ≤ 127 ∧ s.spine.tfc < s.spine.strain ∧
      s.isLatched .strain = false ∧ s.alarms.message.getLsbD 2 = true ∧ x.slot ≠ .alarm ∧
      (s.slots.alarm).state = .empty :=
  ⟨sendingWith 72 0 .pose headset, theMessage .pose headset, by decide⟩

theorem test_SendErrorAboveLimitEntersCut_met :
    ∃ (s : State) (x : Transmission) (k : SendErrorKind), s.spine.tx = some x ∧ s.loader.life = .running ∧
      (k = .echo → s.spine.standing ≠ .muted) ∧ s.spine.sfc + 8 = 256 ∧ s.straps.role = .headset ∧
      s.audio.capture.switch = true :=
  ⟨captureOn (sendingWith 248 0 .pose headset), theMessage .pose headset, .shape, by decide⟩

theorem test_GoodSendLowersSendFaultCount_met :
    ∃ (s : State) (x : Transmission), s.spine.tx = some x ∧
      (x.slot = .pose ∨ x.slot = .credit ∨ x.slot = .audio ∨ x.slot = .power) ∧ x.loop = false ∧
      s.spine.standing ≠ .cut ∧ standingOf (s.spine.sfc - 1) s.spine.tfc s.spine.strain = s.spine.standing ∧
      s.spine.sfc = 0 :=
  ⟨sending .pose headset, theMessage .pose headset, by decide⟩

theorem test_GoodSendLowersSendFaultCount_met_out_of_muted :
    ∃ (s : State) (x : Transmission), s.spine.tx = some x ∧ x.slot = .pose ∧ x.loop = false ∧
      s.spine.standing = .muted ∧ standingOf (s.spine.sfc - 1) s.spine.tfc s.spine.strain = .strained :=
  ⟨sendingWith 128 0 .pose headset, theMessage .pose headset, by decide⟩

theorem test_BeaconSentRecordsItsStart_met :
    ∃ (s : State) (x : Transmission), s.spine.tx = some x ∧ x.slot = .time ∧ x.loop = false ∧
      s.spine.standing ≠ .cut :=
  ⟨sending .time supply, theMessage .time supply, by decide⟩

/-- An ALARM message that carries the unsent flags 0 and 2 is on the spine. -/
def alarmSending (held : Option Content) : State :=
  let s : State := { supply with slots := { supply.slots with alarm := slotOf 3 [0, 5, 0, 5, 0, 0] .pending } }
  let s := sending .alarm s
  { s with
    slots := { s.slots with alarm := { s.slots.alarm with held := held } }
    alarms := { s.alarms with latched := 13, unsent := 13 } }

theorem test_AlarmSentClearsMarksCarried_met :
    (∃ (s : State) (x : Transmission) (carried : FlagMask), s.spine.tx = some x ∧ x.slot = .alarm ∧ x.loop = false ∧
      s.spine.standing ≠ .cut ∧ standingOf (s.spine.sfc - 1) s.spine.tfc s.spine.strain = s.spine.standing ∧
      (x.body.drop 2).take 2 = beBytes 2 carried.toNat ∧ s.slots.alarm.held = none) ∧
    ∃ (s : State) (x : Transmission) (carried again : FlagMask) (c : Content), s.spine.tx = some x ∧ x.slot = .alarm ∧
      x.loop = false ∧ s.spine.standing ≠ .cut ∧
      standingOf (s.spine.sfc - 1) s.spine.tfc s.spine.strain = s.spine.standing ∧
      (x.body.drop 2).take 2 = beBytes 2 carried.toNat ∧ s.slots.alarm.held = some c ∧
      (c.body.drop 2).take 2 = beBytes 2 again.toNat := by
  let c : Content := { rank := 3, body := [0, 13, 0, 13, 0, 0], singleShot := false, loop := false }
  exact ⟨⟨alarmSending none, theMessage .alarm (alarmSending none), 5, by decide⟩,
    ⟨alarmSending (some c), theMessage .alarm (alarmSending none), 5, 13, c, by decide⟩⟩

theorem test_SentGoesToPortAndCommandUnit_met :
    (∃ (s : State) (x : Transmission), s.spine.tx = some x ∧ x.loop = false ∧ s.spine.standing ≠ .cut ∧
      x.slot = .port) ∧
    ∃ (s : State) (x : Transmission), s.spine.tx = some x ∧ x.loop = false ∧ s.spine.standing ≠ .cut ∧
      x.slot = .reply :=
  ⟨⟨sending .port console, theMessage .port console, by decide⟩,
    ⟨sending .reply supply, theMessage .reply supply, by decide⟩⟩

/-- A looped message of the PORT slot is on the spine. -/
def looping (rank : Nat) (body : List Byte) (s : State) : State :=
  let loops : Content := { rank := BitVec.ofNat 12 rank, body := body, singleShot := false, loop := true }
  let message : Transmission :=
    { slot := .port
      rank := BitVec.ofNat 12 rank
      body := body
      check := 0
      loop := true
      start := 15840
      startMoved := 15840 }
  { s with
    slots := { s.slots with port := { emptySlot with state := .sending, content := loops } }
    spine := { s.spine with tx := some message } }

/-- R28: a looped STATUS command for the own node joins the own command queue. -/
theorem test_sendEnd_loops :
    ((after .sendEnd (looping 1547 [3, 9] console)).cmd.queue.map fun c => (c.code, c.isLocal)) = [(1, true)] := by
  decide

/-- The whole intake queue but for `free` bytes, at 8 and 4 bytes an entry. -/
def filled (used : Nat) (s : State) : State :=
  { s with
    intake :=
      { s.intake with
        queue := List.replicate (used / 4) { rank := 1, body := [], time := 0, restartReply := false } } }

/-- A message to a table with one destination for all, that just fits, that does not fit, and that is dropped; a count
of 128 falls to 112. -/
def toAll (d : Destination) (s : State) : State :=
  { s with intake := { s.intake with table := Vector.replicate 8 (entryAny d) } }

/-- To the queue with and without room, and dropped, also as UNIT and BOTH of a class without a unit; a command for the
own node and for all, to its unit alone and to both, into a queue of 7 and 8. -/
theorem test_LoopedMessageReachesTheOwnIntake_met :
    (∀ x ∈ [(Destination.queue, 1012, Destination.queue), (.queue, 1016, .queue), (.drop, 0, .drop), (.unit, 0, .drop),
        (.both, 1012, .queue)],
      let s := toAll x.1 (filled x.2.1 (looping 1795 [1, 2, 3, 4, 5] console))
      (s.spine.tx.map fun x => (x.slot, x.loop)) = some (.port, true) ∧ s.spine.standing ≠ .cut ∧
        standingOf (s.spine.sfc - 1) s.spine.tfc s.spine.strain = .open ∧ Stated.acts s 1795 = x.2.2) ∧
    ∀ n ∈ [7, 8], ∀ dest ∈ [(3 : Byte), 255], ∀ d ∈ [Destination.unit, .both],
      let s := toAll d (looping 1547 [dest, 9] console)
      let s := { s with cmd := { s.cmd with queue := List.replicate n (commandOf 12 [] false) } }
      s.spine.tx.isSome = true ∧ Stated.toUnit s 1547 ∧ Stated.acts s 1547 = d ∧
        (dest.toNat = s.straps.node.val ∨ dest = 255) ∧ admits (BitVec.ofNat 5 (1547 / 8 % 32)) 0 = true := by
  unfold Stated.toUnit
  decide

/-- R28, R30: a looped command that goes to both is queued for the computer and for the command unit. -/
theorem test_looped_command_to_both :
    let t := after .sendEnd (toAll .both (looping 1547 [3, 9] console))
    t.cmd.queue.length = 1 ∧ (t.intake.queue.map (·.body)) = [[3, 9]] := by decide

/-! ### Receiving -/

/-- TFC at its cap, and one that takes a STRAINED station to MUTED. -/
theorem test_ReceiverErrorMovesTheSpineAlone_met :
    ∀ x ∈ [(255, Standing.muted), (127, .strained)],
      let s := { supply with spine := { supply.spine with tfc := x.1, standing := x.2 } }
      Stated.receiving s ∧ s.spine.standing ≠ .open ∧
        standingOf s.spine.sfc (min (s.spine.tfc + 1) 255) s.spine.strain = .muted := by
  unfold Stated.receiving
  decide

/-- The row itself, a length field of 41, and one of 40 with a wrong check. -/
theorem test_classes_met :
    let zeros (n : Nat) : Received := { rank := 1, body := List.replicate n 0, check := 0, extra := false }
    Stated.classes (.receiveError .shape) .shape ∧ Stated.classes (.messageTaken (zeros 41)) .shape ∧
      Stated.classes (.messageTaken (zeros 40)) .check :=
  ⟨.inl rfl, .inr ⟨_, rfl, .inl ⟨rfl, by simp⟩⟩, .inr ⟨_, rfl, .inr ⟨rfl, by simp, by decide +kernel⟩⟩⟩

/-- A station one receiver error short of its strain level. -/
def nearStrain (tfc : Nat) (latched message : FlagMask) : State :=
  { supply with
    spine := { supply.spine with strain := tfc + 1, tfc := tfc }
    alarms := { supply.alarms with latched := latched, message := message } }

/-- At every strain level up to 127, with STRAIN latched or not, its message enable set or clear. -/
theorem test_ReceiverErrorLeavingOpenLatchesStrain_met (tfc : Nat) (h : tfc + 1 ≤ 127) (latched message : FlagMask) :
    let s := nearStrain tfc latched message
    Stated.receiving s ∧ s.spine.standing = .open ∧ s.spine.sfc < s.spine.strain ∧
      s.spine.strain ≤ s.spine.tfc + 1 ∧ s.spine.tfc + 1 ≤ 255 ∧ s.spine.strain ≤ 127 ∧
      s.isLatched .strain = latched.getLsbD 2 ∧ s.alarms.message = message ∧ s.loader.life = .running :=
  ⟨⟨(by decide : supply.loader.life ≠ .loading), (by decide : supply.spine.standing ≠ .cut), rfl, rfl⟩, rfl,
    Nat.succ_pos tfc, Nat.le_refl _, Nat.le_trans h (by decide), h, rfl, rfl, rfl⟩

/-- R44, R49: the receiver error that takes TFC to the strain level. -/
theorem test_receiveError_latches_strain :
    let t := after (.receiveError .check) { supply with spine := { supply.spine with tfc := 79 } }
    t.spine.standing = .strained ∧ t.isLatched .strain = true ∧ t.slots.alarm.state = .pending := by decide

theorem test_TakenMessageIsStoredOrDropped_met :
    let m := message 1 [1, 2, 3, 4, 5]
    (∀ s ∈ [toAll .queue (filled 1012 supply), toAll .queue (filled 1016 supply), toAll .drop supply, toAll .unit supply,
        toAll .both supply],
      Stated.receiving s ∧ m.body.length ≤ 40 ∧ m.check = spineCheck m.rank m.body ∧
        m.rank.toNat % 8 ≠ s.straps.node.val ∧
        (s.spine.standing ≠ .open ∨
          standingOf s.spine.sfc (Stated.afterReceipt s.spine.tfc) s.spine.strain = .open) ∧
        (Stated.acts s m.rank = .queue ∨ Stated.acts s m.rank = .drop)) ∧
      (filled 1012 supply).intake.used + (4 + 4 * ((m.body.length + 3) / 4)) = 1024 ∧
      (filled 1016 supply).intake.used + (4 + 4 * ((m.body.length + 3) / 4)) = 1028 := by
  unfold Stated.receiving
  decide

theorem test_TakenMessageIsStoredOrDropped_met_in_muted :
    ∃ s : State, Stated.receiving s ∧ s.spine.standing = .muted ∧ s.spine.tfc = 128 ∧
      Stated.acts s (message 1 []).rank = .queue :=
  ⟨toAll .queue { supply with spine := { supply.spine with tfc := 128, standing := .muted } },
    by unfold Stated.receiving; decide⟩

/-- The default destinations of POWER at a CONSOLE, of TIME at a SUPPLY, and of CREDIT at a HEADSET that names its unit. -/
theorem test_IntakeKeepsWhatGoesToTheQueue_met :
    ∀ x ∈ [(console, 1281, Destination.both), (supply, 257, .unit), (toAll .unit headset, 513, .drop),
        (toAll .both headset, 513, .queue)],
      let m := message x.2.1 []
      Stated.receiving x.1 ∧ m.body.length ≤ 40 ∧ m.check = spineCheck m.rank m.body ∧
        m.rank.toNat % 8 ≠ x.1.straps.node.val ∧ Stated.acts x.1 m.rank = x.2.2 := by
  unfold Stated.receiving
  decide

/-- R30, R31: a POWER message at a CONSOLE is stored and taken by the power unit, by the default table. -/
theorem test_power_at_a_console_goes_to_both :
    let t := after (.messageTaken (message 1281 (List.replicate 13 0))) console
    t.intake.queue.length = 1 ∧ t.power.taken = 1 := by decide +kernel

/-- R14 (log 4): the start bit of a message without a body lay 1 whole microsecond before its end, or 2 where one more
began before it. -/
theorem test_time_of_receipt_is_the_reading_at_the_start_bit :
    let s := toAll .queue { supply with
      time :=
        { supply.time with
          readings := [{ read := 256, offset := 0 }, { read := 512, offset := 0 }, { read := 768, offset := 0 }] } }
    ∀ x ∈ [(false, 1), (true, 2)],
      ((after (.messageTaken { message 1 [] with extra := x.1 }) s).intake.queue.map (·.time)) =
        [BitVec.ofNat 14 x.2] := by decide

theorem test_FirstAgreeingEntryDecides_met :
    (∀ j : Fin 8, j < 1 → ∃ b : Fin 12, (supply.intake.table[j]).care.getLsbD b = true ∧
      (513#12).getLsbD b ≠ (supply.intake.table[j]).matchValue.getLsbD b) ∧
    ∀ b : Fin 12, (supply.intake.table[(1 : Fin 8)]).care.getLsbD b = true →
      (1281#12).getLsbD b = (supply.intake.table[(1 : Fin 8)]).matchValue.getLsbD b := by decide

/-- No entry of a table agrees with rank 1. -/
theorem test_FirstAgreeingEntryDecides_met_by_none :
    ∃ k : Intake, ∀ j : Fin 8, ∃ b : Fin 12, k.table[j].care.getLsbD b = true ∧
      (1#12).getLsbD b ≠ k.table[j].matchValue.getLsbD b :=
  ⟨{ supply.intake with table := Vector.replicate 8 (entryClass 256 .unit) }, by decide⟩

theorem test_OwnOriginWithdrawsStation_met :
    let m := message 3 [0]
    (∀ s ∈ [supply, { supply with loader := { supply.loader with life := .listening } }],
      Stated.receiving s ∧ m.body.length ≤ 40 ∧ m.check = spineCheck m.rank m.body ∧
        m.rank.toNat % 8 = s.straps.node.val ∧ s.alarms.present.getLsbD 1 = false) := by
  unfold Stated.receiving
  decide

/-! ### The command unit -/

/-- A command for all (destination 255) that the intake hands to the command unit: of 2 bytes more than its arguments. -/
theorem test_ArrivingCommandIsQueuedDroppedOrMalformed_met :
    (∀ m ∈ [message 1632 [255], message 1632 [255, 1], message 1632 [4, 1], message 1632 [255, 1, 0],
        message 1632 [3, 1]],
      ∀ s ∈ [supply, { supply with cmd := { supply.cmd with queue := List.replicate 8 (commandOf 12 [] false) } },
        toAll .both supply],
      Stated.receiving s ∧ m.body.length ≤ 40 ∧ m.check = spineCheck m.rank m.body ∧
        m.rank.toNat % 8 ≠ s.straps.node.val ∧ m.rank.toNat / 256 = 6 ∧ Stated.toUnit s m.rank ∧
        standingOf s.spine.sfc (Stated.afterReceipt s.spine.tfc) s.spine.strain = s.spine.standing) ∧
      admits 12 0 = true ∧ admits 12 1 = false := by
  unfold Stated.receiving Stated.toUnit
  decide

/-- A COMMAND to both that the queue has room for to the last byte, and one that overruns it. -/
theorem test_ArrivingCommand_met_to_both :
    let m := message 1632 [255, 1]
    ∀ used ∈ [1016, 1020],
      let s := toAll .both (filled used supply)
      Stated.toUnit s m.rank ∧ Stated.acts s m.rank = .both ∧
        (s.intake.used + (4 + 4 * ((m.body.length + 3) / 4)) ≤ 1024 ↔ used = 1016) := by
  unfold Stated.toUnit
  decide

/-- R30, R33: it reaches the command unit either way. -/
theorem test_command_to_both :
    ∀ x ∈ [(1016, 255, 0), (1020, 255, 1)],
      let t := after (.messageTaken (message 1632 [255, 1])) (toAll .both (filled x.1 supply))
      t.cmd.queue.length = 1 ∧ t.intake.queue.length = x.2.1 ∧ t.intake.overruns.toNat = x.2.2 := by decide +kernel

theorem test_StatusReportsPagesOfEveryRole_met :
    (∀ s ∈ [supply, console, headset], ∀ page ∈ [0, 1, 2],
      Stated.repliesBySpine (commanded 1 [BitVec.ofNat 8 page] false s) (commandOf 1 [BitVec.ofNat 8 page] false) []) ∧
      Stated.repliesBySpine (commanded 1 [] false supply) (commandOf 1 [] false) [] := by
  unfold Stated.repliesBySpine Stated.oldest
  decide

theorem test_StatusReportsPagesOfTheRole_met :
    ∀ x ∈ [(headset, 3), (headset, 4), (headset, 5), (headset, 6), (headset, 7), (console, 4), (console, 7), (supply, 7)],
      Stated.repliesBySpine (commanded 1 [BitVec.ofNat 8 x.2] false x.1) (commandOf 1 [BitVec.ofNat 8 x.2] false) [] ∧
        (x.1.straps.role = .headset ∧ 3 ≤ x.2 ∧ x.2 ≤ 7 ∨ x.1.straps.role = .console ∧ x.2 = 4 ∨ x.2 = 7) := by
  unfold Stated.repliesBySpine Stated.oldest
  decide

theorem test_StatusPageAbsentOrClamped_met :
    (∀ arg ∈ [3, 4, 5, 6, 8, 255],
      Stated.repliesBySpine (commanded 1 [BitVec.ofNat 8 arg] false supply) (commandOf 1 [BitVec.ofNat 8 arg] false) []) ∧
      ∀ arg ∈ [3, 5, 6, 8],
        Stated.repliesBySpine (commanded 1 [BitVec.ofNat 8 arg] false console) (commandOf 1 [BitVec.ofNat 8 arg] false) [] := by
  unfold Stated.repliesBySpine Stated.oldest
  decide

theorem test_UnknownCodeIsAnsweredUnknown_met :
    ∀ code ∈ [0, 13, 31],
      Stated.repliesBySpine (commanded code [] false supply) (commandOf code [] false) [] ∧
        ((commandOf code [] false).code.toNat = 0 ∨ 13 ≤ (commandOf code [] false).code.toNat) := by
  unfold Stated.repliesBySpine Stated.oldest
  decide

theorem test_HeadsetCommandsAreNotHereElsewhere_met :
    ∀ s ∈ [supply, console], ∀ row ∈ Stated.headsetRows,
      Stated.repliesBySpine (commanded row.2.toNat [] false s) (commandOf row.2.toNat [] false) [] ∧
        (commandOf row.2.toNat [] false).code = row.2 ∧ s.straps.role ≠ .headset := by
  unfold Stated.repliesBySpine Stated.oldest
  decide

/-- The unit is ANSWERING, has no command, or its oldest has another code. -/
theorem test_CommandRowsWaitForTheirCommand_met :
    (∃ s : State, s.cmd.answering ≠ none) ∧ (∃ s : State, s.cmd.queue = []) ∧
      ∃ (s : State) (c : Command) (rest : List Command), s.cmd.queue = c :: rest ∧ c.code ≠ 1 :=
  ⟨⟨{ supply with cmd := { supply.cmd with answering := some (commandOf 1 [] false) } }, by decide⟩, ⟨supply, by decide⟩,
    ⟨commanded 2 [0, 0] false supply, commandOf 2 [0, 0] false, [], by decide⟩⟩

theorem test_RefusedReplyIsDiscarded_met :
    ∀ code ∈ [1, 12, 13],
      Stated.oldest (commanded code [] false (isCut 3 supply)) (commandOf code [] false) [] ∧
        (isCut 3 supply).spine.standing = .cut ∧
        Stated.oldest (commanded code [] false { supply with loader := { supply.loader with life := .listening } })
          (commandOf code [] false) [] := by
  unfold Stated.oldest
  decide

/-- Space for a local reply that just suffices, and that does not. -/
theorem test_LocalReplyGoesToIntakeQueue_met :
    ∀ used ∈ [1016, 1020],
      Stated.repliesLocally (commanded 13 [] true (filled used console)) (commandOf 13 [] true) [] ∧
        (filled used console).intake.used = used := by
  unfold Stated.repliesLocally Stated.oldest
  decide

theorem test_RestartWaitsForItsReply_met :
    Stated.repliesBySpine (commanded 11 [] false console) (commandOf 11 [] false) [] ∧
      ∀ used ∈ [1016, 1020], Stated.oldest (commanded 11 [] true (filled used console)) (commandOf 11 [] true) [] ∧
        (filled used console).intake.used = used := by
  unfold Stated.repliesBySpine Stated.oldest
  decide

/-- An intake queue whose head has a body of `n` bytes. -/
def queued (n : Nat) (split : Bool) : State :=
  { supply with
    intake :=
      { supply.intake with
        queue := [{ rank := 1, body := List.replicate n 5, time := 7, restartReply := false }]
        split := split } }

/-- Part 0 of bodies of 32 and 33 bytes, part 1 of a half read body, part 1 without the mark, and no entry. -/
theorem test_ReadQueueReturnsHeadEntry_met :
    (∀ s ∈ [queued 32 false, queued 33 false, queued 33 true, supply],
      ∀ args ∈ ([[0, 0], [0, 1], [1, 0], [1, 1]] : List (List Byte)),
        Stated.repliesBySpine (commanded 10 args false s) (commandOf 10 args false) []) ∧
      ((queued 32 false).intake.queue.map (·.body.length)) = [32] ∧
      ((queued 33 true).intake.queue.map (·.body.length)) = [33] ∧ (queued 33 true).intake.split = true ∧
      (queued 33 false).intake.split = false ∧ supply.intake.queue = [] := by
  unfold Stated.repliesBySpine Stated.oldest
  decide

/-! ### Alarms -/

theorem test_EventLatchesItsFlagOnce_met :
    supply.alarms.latched.getLsbD Flag.lane.number = false ∧ supply.alarms.message.getLsbD Flag.lane.number = true ∧
      (∃ s : State, s.alarms.latched.getLsbD Flag.lane.number = true) ∧
      ∃ s : State, s.alarms.latched.getLsbD Flag.lane.number = false ∧
        s.alarms.message.getLsbD Flag.lane.number = false :=
  ⟨by decide, by decide, ⟨{ supply with alarms := { supply.alarms with latched := 2048 } }, by decide⟩,
    ⟨{ supply with alarms := { supply.alarms with message := 0x7FF } }, by decide⟩⟩

/-- Flags 0, 1, 4 and 11 are latched, 4 with its condition present; the mask names all of them but 11 and one that is
not a flag. -/
theorem test_ClearAlarmClearsNamedFlags_met :
    ∃ (s : State) (c : Command) (hi lo : Byte) (after : Alarms), Stated.repliesBySpine s c [] ∧ c.code = 2 ∧
      c.args = [hi, lo] ∧ after.wire = s.alarms.wire ∧ after.message = s.alarms.message ∧
      after.present = s.alarms.present ∧
      (∀ n : Fin 12,
        let named := (hi.toNat * 256 + lo.toNat).testBit n
        let clears := named = true ∧ s.alarms.present.getLsbD n = false ∧ n ≠ 1
        after.latched.getLsbD n = (if clears then false else s.alarms.latched.getLsbD n) ∧
          after.unsent.getLsbD n = (if clears then false else s.alarms.unsent.getLsbD n)) ∧ 16 ≤ hi.toNat :=
  let s := commanded 2 [16, 19] false
    { supply with alarms := { supply.alarms with latched := 0x813, unsent := 0x811, present := 16 } }
  ⟨s, commandOf 2 [16, 19] false, 16, 19, { s.alarms with latched := 0x812, unsent := 0x810 },
    by unfold Stated.repliesBySpine Stated.oldest; decide⟩

/-! ### The schedule -/

/-- A station with one REPEAT entry of an action, due times 160, 1160, … in sixteenths, at agreed time `now` after `j0`
firings. -/
def scheduled (a : Action) (j0 now : Nat) (s : State) : State :=
  { s with
    sched :=
      { s.sched with
        entries := #v[{ action := a, mode := .repeating 1000 160 (160 + j0 * 1000) }, noneEntry, noneEntry, noneEntry,
          noneEntry, noneEntry, noneEntry, noneEntry] }
    time := { s.time with offset := (now : Int) - 16000 } }

/-- At due time 3 itself, and in the last sixteenth before due time 4, after 1 firing. -/
theorem test_FiringTakesDueToFirstAfterNow_met :
    (∀ row ∈ Stated.firingRows, ∀ now ∈ [3160, 4159],
      Stated.due (scheduled row.2 1 now headset) row.2 0 1000 160 1 3) ∧
      ∀ row ∈ Stated.firingRows, Stated.noFollower (scheduled row.2 1 3160 headset) 0 := by
  refine ⟨by unfold Stated.due; decide, fun row _ k src n progress h => ?_⟩
  fin_cases k <;> simp [scheduled, noneEntry] at h

/-- One sixteenth before the next due. -/
theorem test_FiringTakesDueToFirstAfterNow_met_before :
    ∀ (k : Fin 8) (period phase due : Nat), (scheduled .sample 1 1159 headset).sched.entries[k] =
      { action := .sample, mode := .repeating period phase due } → (scheduled .sample 1 1159 headset).agreed < due := by
  intro k period phase due h
  fin_cases k <;> simp [scheduled, noneEntry] at h
  have hd : due = 1160 := h.2.2.symm
  subst hd
  decide

def aPose (sequence : BitVec 16) : PoseEntry :=
  { sequence := sequence
    stamp := 900
    angles := .same 0
    increments := .same 0
    held := false
    saturated := false }

def withHistory (s : State) : State := { s with motion := { s.motion with history := [aPose 6, aPose 7] } }

/-- A SAMPLE entry at due time 3 whose firings a POSE_REPORT entry counts to 2. -/
def counting (progress : Nat) : State :=
  let s := withHistory (scheduled .sample 1 3160 headset)
  { s with
    sched :=
      { s.sched with entries := s.sched.entries.set 1 { action := .poseReport, mode := .counted 0 2 progress } } }

theorem test_CountedEntryFiresOnEveryNth_met :
    ∀ progress ∈ [0, 1],
      Stated.due (counting progress) .sample 0 1000 160 1 3 ∧
        (counting progress).sched.entries[(1 : Fin 8)] =
          { action := .poseReport, mode := .counted 0 2 progress } ∧
        progress < 2 ∧ (counting progress).loader.life = .running ∧ (counting progress).spine.standing ≠ .cut ∧
        (counting progress).motion.history ≠ [] ∧ (counting progress).slots.pose.state = .empty := by
  unfold Stated.due
  decide

theorem test_CountedEntryFiresOnEveryNth_met_alone :
    ∀ progress ∈ [0, 1], ∀ (k' src : Fin 8) (n' p' : Nat), k' ≠ 1 →
      (counting progress).sched.entries[k'].mode = .counted src n' p' → src = 0 →
      (counting progress).sched.entries[k'].action = .none := by
  intro progress _ k' src n' p' hk h _
  fin_cases k' <;> simp_all [counting, withHistory, scheduled, noneEntry]

/-- A CONSOLE whose FRAME entry, at due time 3, a PORT_STATUS entry counts to `n`; by default to 1 (R78). -/
def framing (n progress : Nat) : State :=
  let s := scheduled .frame 1 3160 console
  { s with
    sched :=
      { s.sched with entries := s.sched.entries.set 1 { action := .portStatus, mode := .counted 0 n progress } } }

theorem test_CountedPortStatusFollowsFrame_met :
    ∀ x ∈ [(1, 0), (2, 0), (2, 1)],
      Stated.due (framing x.1 x.2) .frame 0 1000 160 1 3 ∧
        (framing x.1 x.2).sched.entries[(1 : Fin 8)] = { action := .portStatus, mode := .counted 0 x.1 x.2 } ∧
        x.2 < x.1 ∧ (framing x.1 x.2).straps.role = .console := by
  unfold Stated.due
  decide

theorem test_CountedPortStatusFollowsFrame_met_alone (n progress : Nat) :
    ∀ (k' src : Fin 8) (n' p' : Nat), k' ≠ 1 → (framing n progress).sched.entries[k'].mode = .counted src n' p' →
      src = 0 → (framing n progress).sched.entries[k'].action = .none := by
  intro k' src n' p' hk h _
  fin_cases k' <;> simp_all [framing, scheduled, noneEntry]

/-- R75, R183: each FRAME firing of the default schedule forms a PORT STATUS. -/
theorem test_frame_firing_forms_port_status :
    (after .frame (framing 1 0)).port.status.isSome = true ∧ (after .frame (framing 2 0)).port.status = none := by
  decide

theorem noFollower_scheduled (a : Action) (j0 now : Nat) (s : State) : Stated.noFollower (scheduled a j0 now s) 0 := by
  intro k src n progress h
  fin_cases k <;> simp [scheduled, noneEntry] at h

/-- In LISTENING, in CUT, and with the TIME slot in each of its states. -/
theorem test_BeaconFiringLoadsTimeSlot_met :
    (∀ s ∈ [{ supply with loader := { supply.loader with life := .listening } }, isCut 5 supply, supply,
        { supply with slots := { supply.slots with time := slotOf 259 [] .pending } }, sending .time supply],
      Stated.due (scheduled .beacon 0 160 s) .beacon 0 1000 160 0 0) ∧
      Stated.noFollower (scheduled .beacon 0 160 supply) 0 :=
  ⟨by unfold Stated.due; decide, noFollower_scheduled _ _ _ _⟩

theorem test_FrameFiringTicksEveryUnit_met :
    (∀ s ∈ [headset, scanning 3, console], Stated.due (scheduled .frame 0 1159 s) .frame 0 1000 160 0 0 ∧
      s.loader.life = .running ∧ s.spine.standing ≠ .cut) ∧
      Stated.noFollower (scheduled .frame 0 1159 headset) 0 ∧ headset.straps.role = .headset ∧
      console.straps.role = .console :=
  ⟨by unfold Stated.due; decide, noFollower_scheduled _ _ _ _, by decide⟩

theorem test_SampleAndPoseReportFirings_met :
    (∀ s ∈ [headset, reading headset], Stated.due (scheduled .sample 0 160 s) .sample 0 1000 160 0 0) ∧
      (∀ s ∈ [headset, withHistory headset,
          withHistory { headset with loader := { headset.loader with life := .listening } }],
        Stated.due (scheduled .poseReport 0 160 s) .poseReport 0 1000 160 0 0) ∧
      Stated.noFollower (scheduled .poseReport 0 160 headset) 0 ∧ headset.motion.history = [] ∧
      (withHistory headset).motion.history = [aPose 6] ++ [aPose 7] :=
  ⟨by unfold Stated.due; decide, by unfold Stated.due; decide, noFollower_scheduled _ _ _ _, by decide⟩

theorem test_PowerReportAndPortStatusFirings_met :
    (∀ s ∈ [supply, metering supply], Stated.due (scheduled .powerReport 0 160 s) .powerReport 0 1000 160 0 0) ∧
      Stated.due (scheduled .portStatus 0 160 console) .portStatus 0 1000 160 0 0 ∧
      Stated.noFollower (scheduled .portStatus 0 160 console) 0 :=
  ⟨by unfold Stated.due; decide, by unfold Stated.due; decide, noFollower_scheduled _ _ _ _⟩

/-! ### Agreed time -/

/-- A station that holds the record of origin 1, last heard at agreed time `heard` in sixteenths, with `carried` its own
time at that beacon's start. -/
def heardOne (heard : Int) (s : State) : State :=
  { s with
    time :=
      { s.time with
        table := (Vector.replicate 8 none).set 1 (some { oldRecord with lastHeard := heard, ownTime := heard })
        reference := some 1 } }

/-- Beacon `number` of origin 1: its previous start, in µs, and its flags. -/
def beaconOf (number : Byte) (prev : Nat) (flags : Byte) : Received :=
  message 257 ([number] ++ beBytes 4 prev ++ [1, flags])

theorem test_UnpairedBeaconIsRecorded_met :
    (∀ x ∈ [(heardOne 8000 supply, beaconOf 8 600 0), (heardOne 8000 supply, beaconOf 7 600 2),
        (supply, beaconOf 7 600 0)],
      Stated.beacon x.1 x.2 1 ∧ Stated.receiving x.1) ∧ ¬ Stated.pairs (heardOne 8000 supply) (beaconOf 8 600 0) 1 ∧
      ¬ Stated.pairs (heardOne 8000 supply) (beaconOf 7 600 2) 1 ∧ ¬ Stated.pairs supply (beaconOf 7 600 0) 1 := by
  refine ⟨by unfold Stated.beacon Stated.toUnit Stated.receiving; decide, ?_, ?_, ?_⟩
  · rintro ⟨_, h, _⟩
    exact absurd (h _ rfl) (by decide)
  · rintro ⟨_, _, h⟩
    exact absurd h (by decide)
  · rintro ⟨⟨r, h, _⟩, _⟩
    exact nomatch (show (none : Option TimeRecord) = some r from h)

/-- A record that has reached last heard plus 4 beacon periods pairs with nothing. -/
theorem test_UnpairedBeaconIsRecorded_met_stale :
    Stated.beacon (later 400000 (heardOne 16000 supply)) (beaconOf 7 600 0) 1 ∧
      ¬ Stated.pairs (later 400000 (heardOne 16000 supply)) (beaconOf 7 600 0) 1 := by
  refine ⟨by unfold Stated.beacon Stated.toUnit Stated.receiving; decide, ?_⟩
  rintro ⟨⟨r, h, hf⟩, _⟩
  have hr : r = { oldRecord with lastHeard := 16000, ownTime := 16000 } := (Option.some.inj h).symm
  subst hr
  exact absurd hf (by decide +kernel)

def listening (s : State) : State := { s with loader := { s.loader with life := .listening } }

theorem fresh_heardOne :
    Stated.fresh (heardOne 8000 supply) 1 ∧ (∀ o' : Node, o' < 1 → ¬ Stated.fresh (heardOne 8000 supply) o') := by
  refine ⟨⟨_, rfl, by decide +kernel⟩, fun o' ho => ?_⟩
  rintro ⟨r, h, _⟩
  have h0 : o' = 0 := (by decide : ∀ x : Node, x < 1 → x = 0) o' ho
  subst h0
  exact nomatch (show (none : Option TimeRecord) = some r from h)

theorem pairs_heardOne (prev : Nat) (h : (byteAt (beaconOf 7 prev 0).body 6).getLsbD 1 = false) :
    Stated.pairs (heardOne 8000 supply) (beaconOf 7 prev 0) 1 := by
  refine ⟨fresh_heardOne.1, fun r hr => ?_, h⟩
  have hr' : r = { oldRecord with lastHeard := 8000, ownTime := 8000 } := (Option.some.inj hr).symm
  subst hr'
  rfl

/-- A pairing with error e from the own time 500 µs: a step of just 100 µs, and a slew of one µs less. -/
theorem test_PairingCorrectsRunningStation_met :
    (∀ prev ∈ [600, 599],
      let s := heardOne 8000 supply
      let m := beaconOf 7 prev 0
      let v : Int := prev
      let e : Int := 16 * v - 8000
      Stated.beacon s m 1 ∧ s.loader.life = .running ∧ s.time.reference = some 1 ∧
        s.time.table[(1 : Node)] = some { oldRecord with lastHeard := 8000, ownTime := 8000 } ∧
        (1 : Node) < s.straps.node ∧ v % 2 ^ 32 = fieldAt m.body 1 4 ∧ (s.agreedUs : Int) - 2 ^ 31 ≤ v ∧
        v < (s.agreedUs : Int) + 2 ^ 31 ∧ s.agreed + e < agreedCap ∧
        0 ≤ 16 * (s.time.localCount : Int) + s.time.offset ∧ 0 < s.beaconPeriod ∧
        (prev = 600 → e = 16 * (s.time.stepLimit : Int))) ∧
      Stated.pairs (heardOne 8000 supply) (beaconOf 7 600 0) 1 ∧
      Stated.pairs (heardOne 8000 supply) (beaconOf 7 599 0) 1 ∧
      ∀ o' : Node, o' < 1 → ¬ Stated.fresh (heardOne 8000 supply) o' :=
  ⟨by unfold Stated.beacon Stated.toUnit Stated.receiving; decide +kernel, pairs_heardOne 600 (by decide),
    pairs_heardOne 599 (by decide), fresh_heardOne.2⟩

/-- A station in LISTENING that has heard origin 1, with alarm flags latched. -/
def listeningOne (latched : Nat) : State :=
  { listening (heardOne 8000 supply) with alarms := { supply.alarms with latched := BitVec.ofNat 12 latched } }

/-- Forward by a step, and back by a slew with DUPNODE latched. -/
theorem test_PairingTakesListeningStationToRunning_met :
    (∀ x ∈ [(600, 0), (400, 2)],
      let s := listeningOne x.2
      let m := beaconOf 7 x.1 0
      let v : Int := x.1
      Stated.beacon s m 1 ∧ s.loader.life = .listening ∧ s.time.reference = some 1 ∧ (1 : Node) < s.straps.node ∧
        v % 2 ^ 32 = fieldAt m.body 1 4 ∧ (s.agreedUs : Int) - 2 ^ 31 ≤ v ∧ v < (s.agreedUs : Int) + 2 ^ 31 ∧
        s.agreed + (16 * v - 8000) < agreedCap ∧ 0 ≤ 16 * (s.time.localCount : Int) + s.time.offset ∧
        0 < s.beaconPeriod ∧ s.isLatched .timestep = false ∧ s.isLatched .dupnode = (x.2 = 2)) ∧
      (∀ latched, Stated.pairs (listeningOne latched) (beaconOf 7 600 0) 1) ∧
      (∀ latched, Stated.pairs (listeningOne latched) (beaconOf 7 400 0) 1) ∧
      ∀ (latched : Nat) (o' : Node), o' < 1 → ¬ Stated.fresh (listeningOne latched) o' :=
  ⟨by unfold Stated.beacon Stated.toUnit Stated.receiving; decide +kernel, fun _ => pairs_heardOne 600 (by decide),
    fun _ => pairs_heardOne 400 (by decide), fun _ => fresh_heardOne.2⟩

/-- An origin above the own node, heard alone: the station that follows it is its own reference in RUNNING. -/
theorem test_PairingTakesListeningStationToRunning_met_above :
    let s := { listeningOne 0 with
      straps := { supply.straps with node := 0 } }
    Stated.beacon s (beaconOf 7 600 0) 1 ∧ s.loader.life = .listening ∧ s.time.reference = some 1 ∧
      s.straps.node < 1 ∧ ∀ o' : Node, o' < s.straps.node → ¬ Stated.fresh s o' :=
  ⟨by unfold Stated.beacon Stated.toUnit Stated.receiving; decide, by decide, by decide, by decide,
    fun o' h => absurd h (Nat.not_lt_zero o'.val)⟩

/-- A record of the reference that has reached its expiry. -/
theorem test_RecordExpiryCanLoseTheReference_met :
    let s := later 400000 (heardOne 16000 supply)
    let r := { oldRecord with lastHeard := 16000, ownTime := 16000 }
    s.time.table[(1 : Node)] = some r ∧ r.expired = false ∧ r.lastHeard + 4 * s.beaconPeriod = s.agreed ∧
      s.loader.life = .running ∧ s.time.reference = some 1 ∧ s.alarms.present.getLsbD 4 = false := by decide +kernel

theorem test_ListeningTimerTakesStationToRunning_met :
    ∀ latched ∈ [1, 3],
      let s := later 300000 { listening supply with
        time := { supply.time with timer := some 16000 }
        alarms := { supply.alarms with latched := BitVec.ofNat 12 latched, unsent := 1 } }
      s.loader.life = .listening ∧ s.time.timer = some 16000 ∧ 16000 + 3 * s.beaconPeriod = s.agreed ∧
        s.isLatched .dupnode = (latched = 3) ∧ s.spine.standing ≠ .cut ∧ s.alarms.unsent ≠ 0 ∧
        s.straps.role = .supply ∧ s.slots.alarm.state = .empty := by decide +kernel

theorem test_ReadTimeReportsAgreedTime_met :
    (∀ s ∈ [supply, heardOne 8000 supply, console, headset],
      Stated.repliesBySpine (commanded 12 [] false s) (commandOf 12 [] false) []) ∧ supply.time.reference = none ∧
      (heardOne 8000 supply).time.reference = some 1 ∧
      (heardOne 8000 supply).time.table[(1 : Node)] =
        some { oldRecord with lastHeard := 8000, ownTime := 8000 } := by
  unfold Stated.repliesBySpine Stated.oldest
  decide

/-! ### Motion and dials -/

/-- A read that ends in the last microsecond of its limit, and one whose limit has run out. -/
theorem test_SensorReadsMoveThePose_met :
    ∀ now ∈ [1299, 1300],
      let s := { reading headset with time := { headset.time with localCount := now } }
      s.motion.reading = some { stamp := 1000, since := 900 } ∧
        (now = 1299 → s.time.localCount < 900 + s.motion.settings.readLimit) ∧
        (now = 1300 → 900 + s.motion.settings.readLimit = s.time.localCount) := by decide

/-- The seventh failure in a row holds the rates, the eighth does not. -/
theorem test_FailedReadHoldsTheRates_met :
    ∀ failures ∈ [6, 7],
      let s := { reading headset with motion := { (reading headset).motion with failures := BitVec.ofNat 16 failures } }
      s.motion.reading = some { stamp := 1000, since := 900 } ∧
        s.time.localCount < 900 + s.motion.settings.readLimit ∧
        ((bump s.motion.failures).toNat < 8 ↔ failures = 6) ∧ s.alarms.present.getLsbD 6 = false := by decide

/-- A read at its limit, where the clear ready mark counts as timed out too (R79; log 26). -/
theorem test_FailedReadHoldsTheRates_met_at_the_limit :
    let s := reading headset
    let s := { s with time := { s.time with localCount := 900 + s.motion.settings.readLimit } }
    s.motion.reading = some { stamp := 1000, since := 900 } ∧
      ∀ ready, (after (.sensorReadComplete ready ⟨0, 0, 0⟩ ⟨0, 0, 0⟩) s).motion.timedOut = 1 := by decide

/-- A dial at its upper limit, at its lower limit, and within its range, on a counting HEADSET. -/
theorem test_DialChangeCountsWithinRange_met :
    ∀ count ∈ [40, -40, 0],
      let s := { headset with dials := { headset.dials with e0 := { headset.dials.e0 with count := count } } }
      s.straps.role = .headset ∧ (s.loader.life ≠ .loading ∨ s.loader.fromRestart = true) ∧ dialOk s.dials.e0 := by
  unfold dialOk
  decide

theorem test_DialChangeCountsWithinRange_met_in_restart :
    ∃ s : State, s.straps.role = .headset ∧ s.loader.life = .loading ∧ s.loader.fromRestart = true :=
  ⟨{ headset with loader := { headset.loader with life := .loading, fromRestart := true } }, by decide⟩

theorem test_MotionCommandsOnHeadset_met :
    Stated.repliesBySpine (commanded 3 [] false headset) (commandOf 3 [] false) [] ∧
      (∀ asked ∈ [0, 1, 3, 4, 255],
        Stated.repliesBySpine (commanded 4 [BitVec.ofNat 8 asked] false headset) (commandOf 4 [BitVec.ofNat 8 asked] false) []) ∧
      Stated.repliesBySpine
        (commanded 5 (beBytes 4 (1#32).toNat ++ beBytes 4 (2#32).toNat ++ beBytes 4 (3#32).toNat) false headset)
        (commandOf 5 (beBytes 4 (1#32).toNat ++ beBytes 4 (2#32).toNat ++ beBytes 4 (3#32).toNat) false) [] ∧
      headset.straps.role = .headset := by
  unfold Stated.repliesBySpine Stated.oldest
  decide

/-! ### The picture input and the lane -/

def somePixels (n : Nat) : List Pixel := List.replicate n black

/-- A line at its last pixel but one, at its last, complete, with pixels beyond it, beyond the picture, and none. -/
theorem test_PixelsBuildLinesAndSlices_met :
    (∀ line ∈ [.filling (somePixels 126), .filling (somePixels 127), .full false, .full true, .extra, .none],
      Stated.console (inputting line (smallPicture console)) ∧
        (inputting line (smallPicture console)).laneTx.frame = some (inputFrame line)) ∧
      (somePixels 127).length + 1 = 2 * (smallPicture console).store.geometry.W ∧
      (somePixels 126).length + 1 < 2 * (smallPicture console).store.geometry.W := by
  unfold Stated.console
  decide

/-- Before a frame; after the last line but one; after the last line; with a line of no and of all but one pixel, the
last line among them; in an extra line. -/
theorem test_LineStartBeginsALine_met :
    Stated.console (smallPicture console) ∧ (smallPicture console).laneTx.frame = none ∧
      (∀ lines ∈ [0, 63], ({ inputFrame (.full true) with linesDone := lines } : InputFrame).linesDone <
        (smallPicture console).store.geometry.H) ∧
      (smallPicture console).store.geometry.H ≤ ({ inputFrame (.full true) with linesDone := 64 } : InputFrame).linesDone ∧
      ∀ n ∈ [0, 127],
        Stated.console (inputting (.filling (somePixels n)) (smallPicture console)) ∧
          (somePixels n).length ≤ 2 * (smallPicture console).store.geometry.W ∧
          (inputFrame (.filling (somePixels n))).linesDone + 1 < (smallPicture console).store.geometry.H ∧
          ¬ ({ inputFrame (.filling (somePixels n)) with linesDone := 63 } : InputFrame).linesDone + 1 <
            (smallPicture console).store.geometry.H ∧
          (inputting .extra (smallPicture console)).laneTx.frame = some (inputFrame .extra) := by
  unfold Stated.console
  decide

/-- R96: a short last line is completed and counted, and the line start that ends it begins an extra line, counted once
a frame. -/
theorem test_short_last_line :
    let f := { inputFrame (.filling [black]) with linesDone := 63 }
    let s := { smallPicture console with laneTx := { console.laneTx with frame := some f } }
    (after .inputLineStart s).laneTx.inputShape = 2 ∧
      ((after .inputLineStart s).laneTx.frame.map fun f => (f.linesDone, f.line)) = some (64, .extra) := by decide

theorem test_FrameStartTakesTagAndJudgesEyes_met :
    ∀ s ∈ [console, inputting (.filling []) console, owing], Stated.console s := by
  unfold Stated.console
  decide

/-- The left eye's void of slice 6 fits the window exactly at a gap of 7; the right eye has nothing to send. -/
theorem test_LaneStartsTheReadyEyesPacket_met :
    Stated.laneIdle owing ∧
      Stated.nextPacket (owing.laneTx.eyes.get .left) owing.store.geometry.slices =
        some (6, some { target := 1, pose := 2 }, none) ∧
      Stated.ready owing .left ∧ ¬ Stated.ready owing (Eye.other .left) := by
  refine ⟨by unfold Stated.laneIdle Stated.console; decide, by decide, ⟨_, rfl, by decide⟩, ?_⟩
  rintro ⟨p, h, _⟩
  exact nomatch (show (none : Option (Nat × Option FrameTag × Option (List Pixel))) = some p from h)

/-- Both eyes have a slice to send, the right one having sent last or after a FRAME firing. -/
def bothReady (leftNext : Bool) : State :=
  let eye := { owing.laneTx.eyes.left with queue := [{ index := 6, tag := none, pixels := somePixels 512 }] }
  { owing with laneTx := { owing.laneTx with eyes := .same eye, leftNext := leftNext, lastEye := .right } }

theorem test_LaneStartsTheReadyEyesPacket_met_by_both :
    (∀ leftNext, Stated.laneIdle (bothReady leftNext)) ∧ (∀ leftNext e, Stated.ready (bothReady leftNext) e) ∧
      (bothReady true).laneTx.leftNext = true ∧ (bothReady false).laneTx.leftNext = false ∧
      (bothReady false).laneTx.lastEye ≠ .left := by
  refine ⟨fun b => by cases b <;> (unfold Stated.laneIdle Stated.console; decide), fun b e => ?_, by decide, by decide,
    by decide⟩
  cases b <;> cases e <;> exact ⟨_, rfl, by decide⟩

/-- The lane DOWN, carrying a packet, and with a gap that reaches the window. -/
theorem test_LaneWaitsAndIsFreed_met :
    ¬ Stated.laneIdle console ∧
      ¬ Stated.laneIdle { owing with laneTx := { owing.laneTx with packet := some { eye := .left, bytes := [] } } } ∧
      ¬ Stated.ready console .left ∧ ¬ Stated.ready console .right := by
  refine ⟨by unfold Stated.laneIdle Stated.console; decide, by unfold Stated.laneIdle Stated.console; decide, ?_, ?_⟩ <;>
  · rintro ⟨p, h, _⟩
    exact nomatch (show (none : Option (Nat × Option FrameTag × Option (List Pixel))) = some p from h)

theorem test_LaneDownAndUp_met :
    (receiver.straps.role = .headset ∧ receiver.pins.laneSignal = true ∧ receiver.laneRx.packet = none) ∧
      (writing.straps.role = .headset ∧ writing.pins.laneSignal = true ∧
        writing.laneRx.packet = some { eye := .left, index := 0, buffer := some 0 } ∧
        writing.store.buffers[(0 : Fin 256)].writing = true) ∧
      (writeCut.straps.role = .headset ∧ writeCut.pins.laneSignal = true ∧
        writeCut.laneRx.packet = some { eye := .left, index := 0, buffer := some 0 } ∧
        writeCut.store.buffers[(0 : Fin 256)].writing = false) ∧
      (writeLess.pins.laneSignal = true ∧
        writeLess.laneRx.packet = some { eye := .left, index := 0, buffer := none }) ∧
      owing.straps.role = .console ∧ owing.pins.laneSignal = true ∧ owing.power.step ≠ 0 := by decide

/-- A CREDIT of epoch 0: horizons 8, the number of slices, beyond sent, and 9. -/
theorem test_CreditMovesHorizonOrResynchronises_met :
    ∀ h ∈ [14, 15],
      let s := { owing with laneTx := { owing.laneTx with epochHeld := some 0 } }
      let m := message 513 ([0] ++ beBytes 2 h ++ beBytes 2 6 ++ beBytes 2 8 ++ beBytes 2 0)
      Stated.receiving s ∧ s.straps.role = .console ∧ m.check = spineCheck m.rank m.body ∧
        m.rank.toNat / 8 = 2 * 32 ∧ m.rank.toNat % 8 ≠ s.straps.node.val ∧ s.intake.destination m.rank = .unit ∧
        standingOf s.spine.sfc (Stated.afterReceipt s.spine.tfc) s.spine.strain = s.spine.standing ∧
        (h = 14 → ¬ s.store.geometry.slices < (BitVec.ofNat 16 h - s.laneTx.eyes.left.sent).toNat) ∧
        (h = 15 → s.store.geometry.slices < (BitVec.ofNat 16 h - s.laneTx.eyes.left.sent).toNat) := by
  unfold Stated.receiving
  decide

theorem test_CreditMovesHorizonOrResynchronises_met_new_epoch : owing.laneTx.epochHeld ≠ some 0 := by decide

/-- A good header of the last slice, one with a bad check, and one of a slice that does not exist. -/
theorem test_BadOrFarHeadersAreNotTaken_met :
    Stated.lanePresent receiver ∧ Stated.headerGood receiver (headerOf 7 0) ∧ ¬ Stated.headerGood receiver (headerOf 8 0) ∧
      ¬ Stated.headerGood receiver { headerOf 0 0 with check := 0 } := by
  unfold Stated.lanePresent Stated.laneSignalled Stated.headerGood
  decide

/-- The receiver with a window of `w` positions on the left. -/
def windowed (w : Nat) : State :=
  { receiver with
    laneRx :=
      { receiver.laneRx with
        eyes := { receiver.laneRx.eyes with left := receiverEyeAtPowerOn w } } }

/-- With a window of 2, a gap of 2 is too far and a gap of 1 is not; a gap of 0 needs a window of 1. -/
theorem test_PacketWithinTheWindowIsTaken_met :
    (Stated.lanePresent (windowed 2) ∧ Stated.headerGood (windowed 2) (headerOf 2 0) ∧
      ((windowed 2).laneRx.eyes.left.horizon - (windowed 2).laneRx.eyes.left.accepted).toNat ≤
        Stated.gap 8 2 ((windowed 2).laneRx.eyes.left.accepted.toNat % 8)) ∧
      (Stated.headerGood (windowed 2) (headerOf 1 0) ∧
        Stated.gap 8 1 ((windowed 2).laneRx.eyes.left.accepted.toNat % 8) <
          ((windowed 2).laneRx.eyes.left.horizon - (windowed 2).laneRx.eyes.left.accepted).toNat ∧
        (windowed 2).laneRx.voided.toNat + 1 ≤ 65535) ∧
      Stated.headerGood (windowed 1) (headerOf 0 0) ∧ Stated.headerGood (windowed 1) (headerOf 0 1) ∧
      Stated.lanePresent (windowed 1) ∧
      (headerOf 0 0).index.toNat = (windowed 1).laneRx.eyes.left.accepted.toNat % 8 ∧
      (windowed 1).laneRx.eyes.left.horizon ≠ (windowed 1).laneRx.eyes.left.accepted ∧
      (windowed 1).store.geometry.slices = 8 ∧ (windowed 1).store.bufferOf .left 0 = some 0 := by
  unfold Stated.lanePresent Stated.laneSignalled Stated.headerGood
  decide

/-- A gap of one position with its own buffer, before a packet with its own. -/
theorem test_GapIsVoidedBeforeTheTake_met :
    (windowed 2).store.bufferOf .left (((windowed 2).laneRx.eyes.left.accepted.toNat + 0) % 65536 % 8) = some 0 ∧
      (windowed 2).store.bufferOf .left (headerOf 1 0).index.toNat = some 1 ∧ (headerOf 1 0).flags.getLsbD 0 = false ∧
      (headerOf 1 1).flags.getLsbD 0 = true ∧ (windowed 2).loader.life = .running ∧
      (windowed 2).spine.standing ≠ .cut := by decide

/-- The receiver with both horizons, at 8, loaded into CREDIT. -/
def announced : State :=
  let eye := { receiverEyeAtPowerOn 8 with lastLoaded := some 8 }
  { receiver with laneRx := { receiver.laneRx with eyes := .same eye } }

/-- A take that leaves the horizon as it was loaded, and one before which nothing had been loaded. -/
theorem test_creditFollows_met :
    ¬ Stated.creditCalled announced (after (.packetHeader (headerOf 0 0)) announced) ∧
      Stated.creditCalled receiver (after (.packetHeader (headerOf 0 0)) receiver) := by
  refine ⟨?_, .left, by decide⟩
  rintro ⟨e, h⟩
  cases e <;> exact h (by decide)

/-- A header comes while a packet arrives, whose write goes on or was cut. -/
theorem test_HeaderEndsThePacketBeforeIt_met :
    ∀ s ∈ [writing, writeCut, writeLess], Stated.laneSignalled s ∧ s.laneRx.packet.isSome = true := by
  unfold Stated.laneSignalled
  decide

/-- The receiver with its first band of both eyes without buffers. -/
def bandless (access : BandAccess) : State :=
  let band := { defaultBand 0 with access := access, count := 0 }
  { receiver with
    store :=
      { receiver.store with
        bands := { left := receiver.store.bands.left.set 0 band, right := receiver.store.bands.right.set 0 band } } }

theorem test_PacketWithinTheWindowIsTaken_met_without_buffer :
    ∀ access ∈ [BandAccess.fixed, .absent, .live],
      Stated.lanePresent (bandless access) ∧ Stated.headerGood (bandless access) (headerOf 0 0) ∧
        (bandless access).store.bufferOf .left 0 = none ∧ (bandless access).store.fault = none ∧
        ((bandless access).store.band .left 0).access = access := by
  unfold Stated.lanePresent Stated.laneSignalled Stated.headerGood
  decide

/-- A packet of the slice's length, and an empty one. -/
theorem test_PacketEndWritesItsBufferAlone_met :
    writing.laneRx.packet = some { eye := .left, index := 0, buffer := some 0 } ∧
      writing.store.buffers[(0 : Fin 256)].writing = true ∧
      writing.store.geometry.S * writing.store.geometry.W * 3 = 1536 ∧
      (List.replicate 1536 (7 : Byte)).length ≤ 1536 ∧ ([] : List Byte).length ≤ 1536 := by
  refine ⟨by decide, by decide, by decide, by simp, by simp⟩

theorem test_PacketEndElsewhereWritesNothing_met :
    (∃ (s : State) (x : Arriving), s.laneRx.packet = some x ∧ x.buffer = none ∧
      s.store.geometry.S * s.store.geometry.W * 3 ≤ 196608) ∧
    (∃ (s : State) (x : Arriving) (b : Fin 256), s.laneRx.packet = some x ∧ x.buffer = some b ∧
      s.store.buffers[b].writing = false ∧ s.store.geometry.S * s.store.geometry.W * 3 ≤ 196608) ∧
    ∃ (s : State) (x : Arriving), s.laneRx.packet = some x ∧ 196608 < s.store.geometry.S * s.store.geometry.W * 3 :=
  ⟨⟨{ writing with laneRx := { writing.laneRx with packet := some { eye := .left, index := 0, buffer := none } } },
      { eye := .left, index := 0, buffer := none }, by decide⟩,
    ⟨{ writing with store := receiver.store }, { eye := .left, index := 0, buffer := some 0 }, 0, by decide⟩,
    ⟨{ writing with store := { writing.store with geometry := { writing.store.geometry with S := 33, W := 2048 } } },
      { eye := .left, index := 0, buffer := some 0 }, by decide⟩⟩

def frozen (s : State) : State :=
  { s with
    store :=
      { s.store with
        fault := some
          { kind := .length
            eye := .right
            index := 4
            tag := { target := 1, pose := 2, present := true }
            time := 1000
            later := 3 } } }

theorem test_StoreCommandsOnHeadset_met :
    (∀ arg ∈ [0, 1, 2],
      Stated.repliesBySpine (commanded 6 [BitVec.ofNat 8 arg] false headset) (commandOf 6 [BitVec.ofNat 8 arg] false)
        []) ∧
      Stated.repliesBySpine (commanded 7 [] false headset) (commandOf 7 [] false) [] ∧ headset.store.fault = none ∧
      Stated.repliesBySpine (commanded 7 [] false (frozen headset)) (commandOf 7 [] false) [] ∧
      (frozen headset).store.fault.isSome = true := by
  unfold Stated.repliesBySpine Stated.oldest
  decide

/-! ### The scan -/

def aShift : ShiftRecord := { dx16 := -5, dy := 1, unmatched := false, hClamp := false, vClamp := false }

def shifted (y : Nat) : State :=
  { scanning y with
    scan :=
      { (scanning y).scan with eyes := .same { shift := some aShift, staleCurrent := false, staleBehind := false } } }

/-- The second line of the picture and its last. -/
theorem test_LinesAreShiftedBlendedAndScaled_met :
    ∀ y ∈ [1, 63], Stated.lineDue (shifted y) y ∧ y % (shifted y).store.geometry.S ≠ 0 ∧
      (shifted y).scan.eyes.left.shift = some aShift ∧ (shifted y).scan.eyes.right.shift = some aShift ∧
      ((shifted y).store.band .left (y / 8)).access = .live ∧
      ((shifted y).store.band .right (y / 8)).access = .live := by
  unfold Stated.lineDue
  decide

/-- One eye alone has buffers for its first band. -/
def oneEyed (s : State) : State :=
  { s with
    store :=
      { s.store with
        bands := { s.store.bands with right := s.store.bands.right.set 0 { defaultBand 8 with access := .fixed } } } }

def bandlessScan (access : BandAccess) (y : Nat) : State :=
  { bandless access with scan := (scanning y).scan }

theorem test_BandsWithoutBuffersShowTheirFill_met :
    ∀ access ∈ [BandAccess.fixed, .absent], Stated.lineDue (bandlessScan access 7) 7 ∧
      7 % (bandlessScan access 7).store.geometry.S ≠ 0 ∧
      ((bandlessScan access 7).store.band .left (7 / 8)).access ≠ .live ∧
      ((bandlessScan access 7).store.band .right (7 / 8)).access ≠ .live := by
  unfold Stated.lineDue
  decide

/-- The first line of slice 0 where the left eye's band is LIVE and the right eye's is FIXED, a line within it, and the
first line of slice 1. -/
theorem test_FirstLineOfASliceIsFormed_met :
    ∀ y ∈ [0, 3, 8],
      let s := oneEyed (scanning y)
      Stated.lineDue s y ∧ (s.store.band .left (y / 8)).access = .live ∧
        ((s.store.band .right (y / 8)).access = .live ↔ y = 8) := by
  unfold Stated.lineDue
  decide

/-- A scan at the first line of slice 0 whose buffer's tag names pose entry `pose`, if it is present. -/
def tagged (pose : BitVec 16) (present full : Bool) (s : State) : State :=
  { s with
    scan := (scanning 0).scan
    store :=
      { s.store with
        buffers := s.store.buffers.set 0
          { bufferAtPowerOn with full := full, tag := { target := 0xFFFFFFFF, pose := pose, present := present } } } }

def sampling (s : State) : State :=
  { s with
    sched :=
      { s.sched with
        entries := #v[repeatEntry .sample 16000 0, noneEntry, noneEntry, noneEntry, noneEntry, noneEntry, noneEntry,
          noneEntry] } }

theorem test_MatchedSliceTakesItsLateShift_met :
    let s := tagged 6 true true (sampling (withHistory receiver))
    let x : Stated.ShiftInput := { period := 1000, latest := aPose 7, render := aPose 6 }
    Stated.lineDue s (0 * s.store.geometry.S) ∧ s.scan.tickTime = some 900 ∧ (s.store.band .left 0).access = .live ∧
      Stated.shiftReads s .left 0 x := by
  refine ⟨by unfold Stated.lineDue; decide, by decide, by decide, by decide, ⟨0, by decide, by decide, by decide⟩,
    0, 0, 0, by decide, by decide⟩

/-- A scan at the first line of slice `k`, the buffers of both eyes' slices `k` with the same tag. -/
def reaching (k : Fin 8) (pose : BitVec 16) (present full : Bool) (s : State) : State :=
  let record := { bufferAtPowerOn with full := full, tag := { target := 0xFFFFFFFF, pose := pose, present := present } }
  { s with
    scan := (scanning (8 * k.val)).scan
    store :=
      { s.store with
        buffers := (s.store.buffers.set k.val record).set (8 + k.val) record } }

/-- Every LIVE band without a buffer. -/
def unbuffered (s : State) : State :=
  let bands := s.store.bands.left.map fun b => { b with count := 0 }
  { s with store := { s.store with bands := { left := bands, right := bands } } }

/-- Slices 0, 1 and 7 in both eyes: no tag, no history, a tag that names no entry, and no buffer; and one with an entry. -/
theorem test_UnmatchedSliceTakesTheLensTermAlone_met :
    (∀ k ∈ [(0 : Fin 8), 1, 7], ∀ e ∈ [Eye.left, .right],
      ∀ s ∈ [reaching k 6 false true (withHistory receiver), reaching k 6 true true receiver,
          reaching k 8 true true (withHistory receiver), unbuffered (reaching k 6 true true receiver)],
        Stated.lineDue s (k.val * s.store.geometry.S) ∧ (s.store.band e k.val).access = .live ∧
          Stated.unmatchedAt s e k.val = true) ∧
      Stated.unmatchedAt (reaching 2 6 true true (withHistory receiver)) .left 2 = false := by
  unfold Stated.lineDue
  decide +kernel

/-- R136, R144: a slice unmatched in both eyes counts 2; without buffers it counts where the history is empty (log 48). -/
theorem test_unmatched_in_both_eyes_counts_twice :
    (after .scanLine (reaching 1 8 true true (withHistory receiver))).scan.unmatched = 2 ∧
      (after .scanLine (unbuffered (reaching 1 8 true true (withHistory receiver)))).scan.unmatched = 0 ∧
      (after .scanLine (unbuffered (reaching 1 8 true true receiver))).scan.unmatched = 2 := by decide +kernel

/-- OPEN and FULL buffers of slices 0 and 2, the tag's target one frame behind the display frame number. -/
theorem test_ReachedSliceCountsStaleAndLateShows_met :
    ∀ k ∈ [(0 : Fin 8), 2], ∀ full, let s := reaching k 6 true full receiver
      Stated.lineDue s (k.val * s.store.geometry.S) ∧ Stated.staleAt s .left k.val = !full ∧
        Stated.staleAt s .right k.val = !full ∧ Stated.lateAt s .left k.val = true ∧
        Stated.lateAt (reaching k 6 false full receiver) .left k.val = false := by
  unfold Stated.lineDue
  decide

theorem test_reaching_keeps_bands_apart :
    geometryOk (reaching 2 6 true true receiver) ∧ bandsOk (reaching 2 6 true true receiver) := by
  unfold geometryOk bandsOk runOk allBands
  decide

theorem test_stale_and_late_in_both_eyes_count_twice :
    let t := after .scanLine (reaching 2 6 true false receiver)
    t.scan.staleShows = 2 ∧ t.scan.lateShows = 2 ∧ (t.store.band .right 2).stale = true := by decide +kernel

/-- A scan at line `y` with the buffers of slice 0 FULL in the eyes named, behind stale marks. -/
def leaving (left right : Bool) (y : Nat) : State :=
  let s := scanning y
  { s with
    scan := { s.scan with eyes := .same { shift := none, staleCurrent := true, staleBehind := true } }
    store :=
      { s.store with
        buffers := (s.store.buffers.set 0 { bufferAtPowerOn with full := left }).set 8
          { bufferAtPowerOn with full := right } } }

theorem test_leaving_keeps_bands_apart :
    ∀ left right, geometryOk (leaving left right 16) ∧ bandsOk (leaving left right 16) := by
  unfold geometryOk bandsOk runOk allBands
  decide

/-- R133: the buffer that the scan opens behind a stale mark counts as overtaken, and CREDIT is loaded. -/
theorem test_leaving_a_stale_slice :
    (after .scanLine (leaving true true 16)).scan.overtaken = 2 ∧
      (after .scanLine (leaving true false 16)).laneRx.creditLoads = 1 := by decide

/-- Slices 2 and 7 of the small picture, the first and the last that open another; with both, one and none of the buffers
behind FULL. -/
theorem test_ScanOpensTheSlicesBehindIt_met :
    (∀ k ∈ [2, 7], Stated.lineDue (scanning (k * 8)) (k * (scanning (k * 8)).store.geometry.S)) ∧
      (∀ left right,
        Stated.fullAt (leaving left right 16) .left 0 = left ∧ Stated.fullAt (leaving left right 16) .right 0 = right ∧
          Stated.lineDue (leaving left right 16) (2 * (leaving left right 16).store.geometry.S) ∧
          (leaving left right 16).scan.eyes.left.staleBehind = true ∧
          (leaving left right 16).loader.life = .running ∧ (leaving left right 16).spine.standing ≠ .cut) ∧
      Stated.lineDue (leaving true true 8) (leaving true true 8).store.geometry.S := by
  unfold Stated.lineDue
  decide

/-- The end with the buffers of the last two slices OPEN, and with the left eye's FULL behind stale marks. -/
theorem test_ScanEndOpensTheLastTwoSlices_met :
    (scanning 64).scan.scanning = true ∧ (scanning 64).store.geometry.H ≤ (scanning 64).scan.nextLine ∧
      (scanning 64).store.geometry.H * (scanning 64).scan.settings.lp = (scanning 64).scan.lineClock ∧
      (scanning 64).store.bufferOf .left 6 = some 6 ∧ (scanning 64).store.bufferOf .left 7 = some 7 ∧
      (let s := leaving true true 64
      let s := { s with
        store := { s.store with buffers := (s.store.buffers.set 6 s.store.buffers[0]).set 7 s.store.buffers[0] } }
      Stated.fullAt s .left 6 = true ∧ Stated.fullAt s .left 7 = true ∧ s.scan.scanning = true) := by decide

/-- No scan, a line to be formed, and the line clock one sixteenth short. -/
theorem test_ScanEndWaitsForItsTime_met :
    receiver.scan.scanning = false ∧ (scanning 63).scan.nextLine < (scanning 63).store.geometry.H ∧
      (let s := { scanning 64 with scan := { (scanning 64).scan with lineClock := 104 * 64 - 1 } }
      s.scan.scanning = true ∧ s.store.geometry.H ≤ s.scan.nextLine ∧
        s.scan.lineClock + 1 = s.store.geometry.H * s.scan.settings.lp) := by decide

/-! ### Audio -/

/-- A playback block of origin 0: its sequence and its stamp in µs. -/
def blockOf (sequence : Byte) (stamp : Nat) : Received :=
  message 1024 ([sequence] ++ beBytes 4 stamp ++ List.replicate 32 1)

/-- Blocks in IDLE at 16,000 sixteenths: 100,001 and 100,000 µs early, at its stamp, and about the play time of frame
7, 145 and 5/6 µs after the stamp. -/
theorem test_BlockInIdleStartsARunOrIsDiscarded_met :
    ∀ stamp ∈ [101001, 101000, 1000, 855, 854],
      Stated.playback headset (blockOf 5 stamp) 0 ∧ Stated.rebuilt headset (blockOf 5 stamp) stamp ∧
        headset.audio.state = .idle ∧ (stamp = 101001 ↔ (headset.agreedUs : Int) + 100000 < stamp) ∧
        (stamp = 854 ↔ 48 * (stamp : Int) + 7000 < 3 * (headset.agreed : Int)) := by
  unfold Stated.playback Stated.toUnit Stated.rebuilt Stated.receiving
  decide +kernel

/-- A stream with a full ring but for `free` frames. -/
def nearlyFull (free : Nat) : State :=
  { stream .playing 1000 with
    audio :=
      { (stream .playing 1000).audio with ring := List.replicate (1024 - free) { left := 1, right := 1 } } }

/-- Distances 0, 1, 2, 5, 6, 128, 129 and 255 from sequence 4; room that just suffices for distance 2 and that does
not; a late stamp; another origin. -/
theorem test_SequenceRulePlacesBlocks_met :
    (∀ d ∈ [0, 1, 2, 5, 6, 128, 129, 255],
      Stated.playback (stream .playing 1000) (blockOf (BitVec.ofNat 8 (4 + d)) 854) 0 ∧
        Stated.rebuilt (stream .playing 1000) (blockOf (BitVec.ofNat 8 (4 + d)) 854) 854 ∧
        (byteAt (blockOf (BitVec.ofNat 8 (4 + d)) 854).body 0 - 4).toNat = d) ∧
      (stream .playing 1000).audio.state = .playing ∧ (stream .playing 1000).audio.lastSeq = some 4 ∧
      (stream .playing 1000).audio.origin = some 0 ∧
      48 * 854 + 7000 < 3 * ((stream .playing 1000).agreed : Int) := by
  unfold Stated.playback Stated.toUnit Stated.rebuilt Stated.receiving
  decide +kernel

theorem test_SequenceRulePlacesBlocks_met_without_room :
    (∀ free, (nearlyFull free).audio.state = .playing ∧ (nearlyFull free).audio.lastSeq = some 4 ∧
      (nearlyFull free).audio.origin = some 0) ∧
      (nearlyFull 16).audio.ring.length + 8 + 8 = 1024 ∧ (nearlyFull 15).audio.ring.length + 8 + 8 = 1025 ∧
      (∃ s : State, s.audio.state = .playing ∧ s.audio.lastSeq = some 4 ∧ s.audio.origin ≠ some 0) := by
  refine ⟨fun _ => ⟨rfl, rfl, rfl⟩, by simp [nearlyFull], by simp [nearlyFull],
    ⟨{ stream .playing 1000 with audio := { (stream .playing 1000).audio with origin := some 1 } }, by decide⟩⟩

/-- In PRIMING a stamp that is late and one that is not; in DRAINING; a resync in PLAYING that passes, one too early. -/
theorem test_SequenceRulePlacesBlocks_met_elsewhere :
    (∀ x ∈ [(StreamState.priming, 854), (.priming, 855), (.draining, 855), (.playing, 1000), (.playing, 101001)],
      let s := stream x.1 1000
      Stated.playback s (blockOf 10 x.2) 0 ∧ Stated.rebuilt s (blockOf 10 x.2) x.2 ∧ s.audio.state = x.1 ∧
        (byteAt (blockOf 10 x.2).body 0 - 4).toNat = 6) ∧
      ∀ stamp ∈ [854, 855], (48 * (stamp : Int) + 7000 < 3 * (headset.agreed : Int) ↔ stamp = 854) := by
  unfold Stated.playback Stated.toUnit Stated.rebuilt Stated.receiving
  decide +kernel

/-- In UNDERRUN, distances 0, 1 and 129; a stamp to come, one reached, one late and one too early. -/
theorem test_BlockInUnderrunStartsARunOrIsOld_met :
    ∀ d ∈ [0, 1, 129], ∀ stamp ∈ [1001, 1000, 854, 101001],
      let s := { stream .underrun 0 with
        audio := { (stream .underrun 0).audio with ring := [], blocks := [] } }
      Stated.playback s (blockOf (BitVec.ofNat 8 (4 + d)) stamp) 0 ∧
        Stated.rebuilt s (blockOf (BitVec.ofNat 8 (4 + d)) stamp) stamp ∧ s.audio.state = .underrun ∧
        s.audio.origin = some 0 ∧ s.audio.lastSeq = some 4 := by
  unfold Stated.playback Stated.toUnit Stated.rebuilt Stated.receiving
  decide +kernel

/-- R148, R151: a block to come in UNDERRUN starts PRIMING; one too early leaves UNDERRUN. -/
theorem test_block_in_underrun :
    (after (.messageTaken (blockOf 5 1001)) (stream .underrun 0)).audio.state = .priming ∧
      (after (.messageTaken (blockOf 5 101001)) (stream .underrun 0)).audio.state = .underrun := by decide +kernel

/-- A stamp just reached and one a microsecond ahead, with the silence timer expired or not. -/
theorem test_StampAndSilenceMoveTheStream_met :
    (∀ stamp, (stream .priming stamp).audio.state = .priming ∧ (stream .priming stamp).audio.blocks =
      { kind := .block 4 stamp, remaining := 8, started := false } :: []) ∧
      16 * 1000 = ((stream .priming 1000).agreed : Int) ∧ ¬ 16 * 1001 ≤ ((stream .priming 1001).agreed : Int) ∧
      ∀ state ∈ [StreamState.playing, .underrun],
        ∃ s : State, s.audio.silence = some 2400 ∧ s.audio.state = state := by
  refine ⟨fun _ => ⟨rfl, rfl⟩, by decide, by decide, fun state _ =>
    ⟨{ stream state 0 with audio := { (stream state 0).audio with silence := some 2400 } }, rfl, rfl⟩⟩

/-- At stamps 250 and 251 µs before and after agreed time; with the silence timer two frames and one frame short of its
limit, and at it. -/
theorem test_CodecFrameGivesTheNextFrame_met :
    (∀ stamp ∈ [750, 749, 1250, 1251],
      let s := stream .playing stamp
      s.straps.role = .headset ∧ s.audio.capture.switch = false ∧ s.audio.silence = some 0 ∧
        s.audio.slipLimit = 250 ∧ (s.agreedUs : Int) = 1000 ∧
        (s.audio.ring.head?.isSome ∧ s.audio.blocks.head? =
          some { kind := .block 4 stamp, remaining := 8, started := false })) ∧
      (∀ state ∈ [StreamState.priming, .playing, .underrun, .draining], ∀ n ∈ [2398, 2399, 2400],
        ∃ s : State, s.straps.role = .headset ∧ s.audio.capture.switch = false ∧ s.audio.state = state ∧
          s.audio.ring = [] ∧ s.audio.silence = some n) ∧
      headset.audio.state = .idle ∧ headset.audio.silence = none ∧ headset.audio.capture.switch = false := by
  refine ⟨by decide, fun state _ n _ =>
    ⟨{ stream state 0 with audio := { (stream state 0).audio with ring := [], blocks := [], silence := some n } },
      rfl, rfl, rfl, rfl, rfl⟩, by decide⟩

/-- A stream that drains, its timer at its limit, with one record and as many frames. -/
def draining (r : BlockRecord) : State :=
  let s := stream .draining 1000
  { s with
    audio :=
      { s.audio with
        silence := some 2400
        ring := List.replicate r.remaining { left := 1, right := 1 }
        blocks := [r] } }

/-- A fill record at its last frame, and a started block with two. -/
theorem test_CodecFrameGivesTheNextFrame_met_in_a_record :
    ∀ r ∈ [({ kind := .fill, remaining := 1, started := false } : BlockRecord),
        { kind := .block 4 1000, remaining := 2, started := true }],
      (draining r).straps.role = .headset ∧ (draining r).audio.capture.switch = false ∧
        (draining r).audio.state = .draining ∧ (draining r).audio.ring.length = r.remaining ∧
        (draining r).audio.blocks = [r] ∧ (r.kind = .fill ∨ r.started = true) := by decide

/-- R152, R154: a drain gives its last frame and then ends in IDLE, with its timer at 2,400 all the while; the 2,400th
frame makes PLAYING DRAINING and UNDERRUN IDLE. -/
theorem test_silence_limit_at_a_codec_frame :
    let last := after (.codecFrame 0) (draining { kind := .fill, remaining := 1, started := false })
    last.audio.state = .draining ∧ last.audio.silence = some 2400 ∧ last.audio.ring = [] ∧
      (after (.codecFrame 0) last).audio.state = .idle ∧
      ∀ x ∈ [(StreamState.playing, StreamState.draining), (.underrun, .idle)],
        let s := stream x.1 1000
        (after (.codecFrame 0) { s with audio := { s.audio with silence := some 2399 } }).audio.state = x.2 := by
  decide

/-- Capture with `n` samples in buffer A. -/
def capturing (n : Nat) : State :=
  let s := captureOn headset
  { s with
    audio :=
      { s.audio with
        capture :=
          { s.audio.capture with a := { state := .filling, stamp := 500, samples := List.replicate n 7 } } } }

/-- The first sample, the fifteenth and the sixteenth. -/
theorem test_CaptureFormsABlockOfSixteen_met :
    ∀ n ∈ [0, 14, 15],
      (capturing n).straps.role = .headset ∧ (capturing n).audio.capture.switch = true ∧
        (capturing n).loader.life = .running ∧ (capturing n).spine.standing ≠ .cut ∧
        (capturing n).audio.state = .idle ∧ (capturing n).audio.capture.a.state = .filling ∧
        (capturing n).audio.capture.a.samples.length = n ∧ (capturing n).slots.audio.state = .empty := by decide

/-- Capture in buffer B with 15 samples; the AUDIO slot EMPTY, PENDING, SENDING, and SENDING with a held record. -/
theorem test_CaptureFormsABlockOfSixteen_met_in_buffer_b :
    ∀ slot ∈ [emptySlot, slotOf 1059 [] .pending, slotOf 1059 [] .sending,
        { slotOf 1059 [] .sending with held := some noContent }],
      let c := (capturing 15).audio.capture
      let s := { capturing 15 with
        slots := { headset.slots with audio := slot }
        audio := { (capturing 15).audio with capture := { c with a := c.b, b := c.a } } }
      s.straps.role = .headset ∧ s.audio.capture.switch = true ∧ s.loader.life = .running ∧
        s.spine.standing ≠ .cut ∧ s.audio.state = .idle ∧ s.audio.capture.a.state ≠ .filling ∧
        s.audio.capture.b.state = .filling ∧ s.audio.capture.b.samples.length + 1 = 16 := by decide

/-- R157: a block loaded over a PENDING one is an overrun. -/
theorem test_capture_overrun :
    (after (.codecFrame 7)
      { capturing 15 with
        slots := { headset.slots with audio := slotOf 1059 [] .pending } }).audio.captureOverruns = 1 := by decide

theorem test_AudioCommandsOnHeadset_met :
    (∀ gain ∈ [0, 256, 257],
      Stated.repliesBySpine (commanded 9 (beBytes 2 (BitVec.ofNat 16 gain).toNat) false headset)
        (commandOf 9 (beBytes 2 (BitVec.ofNat 16 gain).toNat) false) []) ∧
      ∀ s ∈ [headset, captureOn headset], ∀ arg ∈ [0, 1, 2],
        Stated.repliesBySpine (commanded 8 [BitVec.ofNat 8 arg] false s) (commandOf 8 [BitVec.ofNat 8 arg] false) [] ∧
          s.straps.role = .headset := by
  unfold Stated.repliesBySpine Stated.oldest
  decide

/-! ### Power -/

/-- A POWER message of node 0 with the highest step and the highest and the unknown battery level. -/
theorem test_PowerViewChangesRegrant_met :
    ∀ battery ∈ [100, 255],
      let m := message 1280 [3, 7, 208, 0, 40, 0, 80, 0, 40, 3, 0, 50, BitVec.ofNat 8 battery]
      Stated.receiving supply ∧ supply.straps.role = .supply ∧ m.check = spineCheck m.rank m.body ∧
        m.rank = BitVec.ofNat 12 (5 * 256 + 0) ∧ (0 : Node) ≠ supply.straps.node ∧ m.body.length = 13 ∧
        (byteAt m.body 9).toNat ≤ 3 ∧ ((byteAt m.body 12).toNat ≤ 100 ∨ byteAt m.body 12 = 255) ∧
        supply.intake.destination m.rank = .unit ∧
        standingOf supply.spine.sfc (Stated.afterReceipt supply.spine.tfc) supply.spine.strain =
          supply.spine.standing ∧
        ∃ own, supply.power.view[supply.straps.node] = some own ∧ own.floor ≤ own.desire := by
  intro battery h
  fin_cases h <;>
    exact ⟨by unfold Stated.receiving; decide, by decide, by decide, by decide, by decide, by decide, by decide,
      by decide, by decide, by decide, ownEntryOf supply.straps supply.power.settings 0 40 0, by decide, by decide⟩

/-- An entry heard 3 power periods ago. -/
theorem test_PowerViewChangesRegrant_met_by_expiry :
    let s := supplied { supply with time := { supply.time with localCount := 301000 } }
    s.straps.role = .supply ∧ (0 : Node) ≠ s.straps.node ∧ s.power.view[(0 : Node)] = some supplierEntry ∧
      supplierEntry.expired = false ∧ 16 * supplierEntry.lastHeard + 3 * s.powerPeriod = 16 * s.time.localCount ∧
      s.power.view[s.straps.node].isSome = true := by decide +kernel

/-- A CONSOLE with its lane UP at step 1, whose grant a supplier covers. -/
def powered : State :=
  let s := supplied console
  { s with
    pins := { s.pins with laneSignal := true }
    power := { s.power with step := 1, grant := 250, supplied := true } }

/-- A supplier of a CONSOLE that offers 2000 on, and one that offers nothing more, which takes the step to 0. -/
theorem test_PowerViewChangesRegrant_met_on_console :
    ∀ x ∈ [((7 : Byte), (208 : Byte), (1 : Fin 4)), (0, 0, 0)],
      let m := message 1280 [1, x.1, x.2.1, 0, 0, 0, 0, 0, 0, 0, 0, 0, 255]
      let t := after (.messageTaken m) powered
      Stated.receiving powered ∧ powered.straps.role = .console ∧ powered.pins.laneSignal = true ∧
        powered.power.step = 1 ∧ t.power.step = x.2.2 ∧ powered.intake.destination m.rank = .both ∧
        ∃ own, powered.power.view[powered.straps.node] = some own ∧ own.floor ≤ own.desire := by
  intro x h
  fin_cases h <;>
    exact ⟨by unfold Stated.receiving; decide, by decide, by decide, by decide, by decide +kernel, by decide,
      ownEntryOf powered.straps powered.power.settings 0 60 0, by decide, by decide⟩

/-- A reading of a HEADSET with a supplier, at step 1 after a yellow event: a load at the grant, one above grant + Y and
one above grant + Rd. -/
def measured (yellow : Nat) (step : Fin 4) : State :=
  let s := metering (supplied headset)
  { s with power := { s.power with yellow := yellow, step := step } }

/-- A reading that waits for both devices, begun at local count 900. -/
def newReading : MeterReading := { since := 900, load := .awaited, battery := .awaited }

/-- The last microsecond before the limit, with the load to come, with the load held on a SUPPLY and the gauge to come;
and from the limit on. -/
theorem test_ReadingHoldsItsAnswers_met :
    ∀ s ∈ [metering headset, metering supply],
      let s := { s with time := { s.time with localCount := 2899 } }
      s.power.reading = some newReading ∧ s.time.localCount + 1 = newReading.since + 2000 := by decide

theorem test_ReadingHoldsItsAnswers_met_idle : supply.power.reading = none := by decide

/-- A load and a battery level in one answer; the level after the load; the load after the level; a reading whose limit
runs out with the load held, by the limit, which hands over a level, and by an answer that comes then. -/
theorem test_completes_met :
    Stated.completes (metering supply) (.meterReadingComplete (.value 50) (.value 80)) (.value 50) (.value 80) ∧
      (let s := { supply with
        power := { supply.power with reading := some { newReading with load := .value 50 } } }
      Stated.completes s (.meterReadingComplete (.value 60) .notReady) (.value 50) .notReady ∧
        (let late := { s with time := { s.time with localCount := 2900 } }
        Stated.completes late (.meterReadingTimeout .awaited (.value 70)) (.value 50) (.value 70) ∧
          Stated.completes late (.meterReadingComplete .awaited (.value 80)) (.value 50) .awaited)) ∧
      Stated.completes (metering headset) (.meterReadingComplete .notReady .awaited) .notReady .awaited := by
  refine ⟨⟨newReading, .value 50, .value 80, by decide,
      .inl ⟨by decide, rfl, by decide, by decide, by decide, by decide⟩⟩,
    ⟨⟨{ newReading with load := .value 50 }, .value 60, .notReady, by decide,
        .inl ⟨by decide, rfl, by decide, by decide, by decide, by decide⟩⟩,
      ⟨{ newReading with load := .value 50 }, .awaited, .value 70, by decide,
        .inr ⟨by decide, .inl ⟨rfl, by decide, by decide⟩⟩⟩,
      ⟨{ newReading with load := .value 50 }, .awaited, .value 80, by decide,
        .inr ⟨by decide, .inr ⟨rfl, by decide, by decide⟩⟩⟩⟩,
    ⟨newReading, .notReady, .awaited, by decide, .inl ⟨by decide, rfl, by decide, by decide, by decide, by decide⟩⟩⟩

/-- A HEADSET, a CONSOLE and a SUPPLY with a supplier in their view. -/
theorem test_ReadingTestsTheLoadAndSettlesTheStep_met :
    (∀ yellow ∈ [0, 1], ∀ step ∈ [(0 : Fin 4), 1, 3],
      let s := measured yellow step
      s.power.reading = some newReading ∧ drawsOk s.power.settings ∧
        (Stated.readingEntries s .awaited).any (·.supplier) = true ∧
        Stated.share (Stated.readingEntries s .awaited) (Stated.ownEntry s 0) s.power.settings.reserve = 1600 ∧
        s.power.settings.yellow = 100 ∧ s.power.settings.red = 400 ∧ Stated.target s.power.settings 1600 = 3 ∧
        s.loader.life = .running ∧ s.spine.standing ≠ .cut ∧ s.slots.power.state = .empty ∧
        s.isLatched .overdraw = false) ∧
      ∀ s ∈ [metering powered, metering (supplied supply)],
        drawsOk s.power.settings ∧ (Stated.readingEntries s .awaited).any (·.supplier) = true ∧
          s.power.reading = some newReading := by
  unfold drawsOk
  decide +kernel

/-- R174: a red load takes a CONSOLE's step to 0 and its lane DOWN. -/
theorem test_red_load_takes_the_lane_down :
    let t := after (.meterReadingComplete (.value 1000) .awaited) (metering powered)
    t.power.step = 0 ∧ t.laneTx.laneDowns = 1 ∧ t.isLatched .overdraw = true := by decide +kernel

/-- A station whose supplier is gone, with and without holdover, and one that never knew a supplier. -/
def unsupplied (known : Bool) (holdover : Option Nat) : State :=
  let s := metering headset
  { s with power := { s.power with supplied := known, holdover := holdover, grant := 1600 } }

theorem test_HoldoverCountsReadings_met :
    (∀ x ∈ [(true, none), (true, some 3), (true, some 4), (false, none)],
      let s := unsupplied x.1 x.2
      s.power.supplied = x.1 ∧ s.power.holdover = x.2 ∧
        (Stated.readingEntries s .awaited).any (·.supplier) = false) ∧
      ∀ known holdover,
        Stated.completes (unsupplied known holdover) (.meterReadingComplete (.value 50) .awaited) (.value 50) .awaited :=
  ⟨by decide +kernel, fun _ _ => ⟨newReading, .value 50, .awaited, rfl,
    .inl ⟨(by decide : 1000 < 2900), rfl, rfl, by decide, rfl, fun h => (nomatch h)⟩⟩⟩

/-- R169: the fifth reading in holdover ends it. -/
theorem test_holdover_ends :
    let t := after (.meterReadingComplete (.value 50) .awaited) (unsupplied true (some 4))
    t.power.holdover = none ∧ t.power.grant = 300 ∧ t.power.supplied = false := by decide +kernel

/-- A SUPPLY with a supply and a reading in flight, and one without a supply; levels at and above its marks 5 and 20. -/
theorem test_BatteryMarksSetTheOffer_met :
    ∀ present, let s := metering { supply with straps := { supply.straps with supplyPresent := present } }
      s.straps.role = .supply ∧ s.power.reading = some newReading ∧ s.power.settings.empty = 5 ∧
        s.power.settings.low = 20 ∧ s.power.battery = none ∧ s.alarms.present.getLsbD 10 = false := by decide

/-! ### The local port -/

/-- A SEND of a STATUS command to the own node, into a command queue of 7 and of 8; with its page, a body below 2 bytes,
and with an argument too many. -/
theorem test_SendToOwnNodeIsDeliveredDirectly_met :
    ∀ n ∈ [7, 8], ∀ body ∈ ([[3, 9, 0], [3], [3, 9, 0, 0]] : List (List Byte)),
      let s := { console with cmd := { console.cmd with queue := List.replicate n (commandOf 12 [] false) } }
      let r : SendRecord := { flags := 0, rank := 1544, length := BitVec.ofNat 8 body.length, body := body }
      Stated.portReady s ∧ r.length.toNat = r.body.length ∧ r.body.length ≤ 40 ∧ r.body ≠ [] ∧
        r.rank.toNat / 256 = 6 ∧ (byteAt r.body 0).toNat = s.straps.node.val ∧
        (2 ≤ r.body.length ∧ admits (BitVec.ofNat 5 (r.rank.toNat / 8 % 32)) (r.body.length - 2) = true ↔
          body = [3, 9, 0]) := by
  unfold Stated.portReady Stated.console
  decide

/-- A command for another node, one for all, and one without a body. -/
theorem test_SendLoadsThePortSlot_met_by_commands :
    ∀ body ∈ ([[4, 9], [255, 9], []] : List (List Byte)),
      let r : SendRecord := { flags := 0, rank := 1544, length := BitVec.ofNat 8 body.length, body := body }
      r.length.toNat = r.body.length ∧ r.rank.toNat / 256 = 6 ∧
        (r.body = [] ∨ (byteAt r.body 0).toNat ≠ console.straps.node.val) := by decide

/-- In LOADING, with 4 OUTCOMEs waiting, and in another role. -/
theorem test_PortNotReadyTakesNoRecord_met :
    ¬ Stated.portReady State.reset ∧
      ¬ Stated.portReady
        { console with port := { console.port with outcomes := List.replicate 4 { outcome := .sent, attempts := 1 } } } ∧
      ¬ Stated.portReady headset := by
  unfold Stated.portReady Stated.console
  decide

/-- Bodies of 0 and 40 bytes; in LISTENING, in CUT, and with the slot EMPTY, PENDING, SENDING and with a held record. -/
theorem test_SendLoadsThePortSlot_met :
    (∀ n ∈ [0, 40],
      let r : SendRecord := { flags := 3, rank := 4095, length := BitVec.ofNat 8 n, body := List.replicate n 1 }
      r.length.toNat = r.body.length ∧ r.body.length ≤ 40 ∧ r.rank.toNat < 4096 ∧ r.rank.toNat / 256 ≠ 6) ∧
      ∀ s ∈ [listening console, isCut 5 console, console, sending .port console,
        { console with slots := { console.slots with port := slotOf 1795 [5] .pending } },
        { sending .port console with
          slots := { console.slots with port := { slotOf 1795 [5] .sending with held := some noContent } } }],
        Stated.portReady s := by
  unfold Stated.portReady Stated.console
  decide

/-- With 3 OUTCOMEs waiting the port is ready, and tag queues of 3 and 4. -/
theorem test_OtherRecordsAtThePort_met :
    Stated.portReady
      { console with port := { console.port with outcomes := List.replicate 3 { outcome := .sent, attempts := 1 } } } ∧
      (∀ n ∈ [3, 4], Stated.portReady
        { console with laneTx := { console.laneTx with tags := List.replicate n { target := 1, pose := 2 } } }) ∧
      ∃ r : SendRecord, r.length.toNat ≠ r.body.length := by
  refine ⟨by unfold Stated.portReady Stated.console; decide, by unfold Stated.portReady Stated.console; decide,
    ⟨{ flags := 0, rank := 0, length := 1, body := [] }, by decide⟩⟩

def outgoing (kind : OutKind) (restartReply : Bool) : State :=
  { console with
    port := { console.port with out := some { kind := kind, bytes := [] } }
    intake :=
      { console.intake with
        inTransfer := some { rank := 1, body := [], time := 0, restartReply := restartReply } } }

theorem test_OutgoingLinkServesInOrder_met :
    (∀ s ∈ [console, { console with port := { console.port with status := some [1] } },
        { console with port := { console.port with outcomes := [{ outcome := .lost, attempts := 1 }] } },
        filled 8 console],
      Stated.console s ∧ s.port.out = none) ∧ (filled 8 console).port.outcomes = [] ∧
      (filled 8 console).port.status = none ∧ (filled 8 console).intake.queue ≠ [] ∧
      (∀ kind ∈ [OutKind.outcome, .message], ∀ restartReply,
        (outgoing kind restartReply).port.out.map (·.kind) = some kind) := by
  unfold Stated.console
  decide

/-! ### Life -/

theorem test_RestartKeepsAgreedTimeDialsAndEpoch_met :
    (∀ s ∈ [console, outgoing .outcome false], Stated.portReady s) ∧ (outgoing .outcome false).port.out.isSome = true ∧
      ({ headset.loader with restartDue := true } : Loader).restartDue = true := by
  unfold Stated.portReady Stated.console
  decide

/-- No memory, a bad image, and a memory silent for 10 ms. -/
theorem test_MissingProfileInstallsDefaults_met :
    (State.reset.loader.life = .loading ∧ State.reset.straps.profilePresent = false ∧ State.reset.alarms.latched = 0 ∧
      State.reset.alarms.unsent = 0 ∧ State.reset.straps.role = .console) ∧
      imageGood [0, 4, 255, 250] = false ∧
      ∃ s : State, s.loader.life = .loading ∧ s.straps.profilePresent = true ∧ s.time.localCount = 10000 :=
  ⟨by decide, by decide,
    ⟨{ State.reset with
        straps := { State.reset.straps with profilePresent := true }
        time := { State.reset.time with localCount := 10000 } }, by decide⟩⟩

theorem test_MissingProfileInstallsDefaults_met_on_headset :
    ∀ fromRestart, ∃ s : State, s.loader.life = .loading ∧ s.loader.fromRestart = fromRestart ∧
      s.straps.role = .headset ∧ s.straps.profilePresent = false :=
  fun fromRestart => ⟨{ headset with loader := { headset.loader with life := .loading, fromRestart := fromRestart } },
    rfl, rfl, rfl, rfl⟩

/-- R78, R115, R161, R177: what a station without a profile has, in each role. -/
theorem test_defaults_are_installed :
    ∀ role ∈ [Role.console, .headset, .supply],
      let t := after (.profileInstalled []) (State.powerOn (strapsOf role) pinsAtPowerOn [] 0)
      (∀ k : Fin 8, t.sched.entries[k].action = (Stated.defaultSchedule role 3)[k].action) ∧
        t.store.bands.right[(7 : Fin 8)] = Stated.defaultBand 180 ∧
        t.power.settings.draw = Stated.defaultDraw role ∧ t.power.grant = (Stated.defaultDraw role)[0] := by
  decide +kernel

theorem test_InstalledSettingsLieInTheirRanges_met :
    State.reset.loader.life = .loading ∧ imageGood [0, 4, 255, 251] = true := by decide

/-- An image of these bytes from offset 4 on, an even number of them, with the word that makes its sum good (R177). -/
def imageOf (contents : List Byte) : List Byte :=
  let n := 4 + contents.length
  beBytes 2 n ++ beBytes 2 (65535 - wordSum (beBytes 2 n ++ [0, 0] ++ contents) (n / 2) 0 % 65536) ++ contents

/-- A station of a role that reads its profile memory. -/
def loading (role : Role) : State :=
  State.powerOn { strapsOf role with profilePresent := true } pinsAtPowerOn [] 0

/-- An image whose schedule has one entry, 1, with this action code and period in sixteenths. -/
def imageWithEntry (code : Byte) (period : Nat) : List Byte :=
  imageOf (List.replicate 46 0 ++ [code, 0] ++ beBytes 4 period ++ [0, 0, 0, 0])

/-- R73 (log 54): an entry with action NONE, of period and phase 0, latches no PROFILE. -/
theorem test_zero_filled_unused_entry_latches_nothing :
    (after (.profileInstalled (imageWithEntry 0 0)) (loading .headset)).isLatched .profile = false := by decide +kernel

/-- An image whose first left band runs beyond buffer 255. -/
def imageWithBand : List Byte := imageOf (List.replicate 127 0 ++ [0, 250, 12, 0, 0, 0, 0])

/-- An image whose bytes before the axis map are those of an empty schedule, of maps without buffers and zeros else, and
that ends with these. -/
def imageToAxes (axes : List Byte) : List Byte := imageOf (List.replicate 261 0 ++ axes)

/-- R177 (log 17): the axis map is one setting; an image that ends in it leaves it at its default and moves no code. -/
theorem test_axis_map_is_one_setting :
    let map := fun axes => (readImage (imageToAxes axes) (defaultSettings .headset 3)).motion.axisMap
    imageLength (imageToAxes [3]) = 266 ∧ map [3] = defaultAxisMap ∧ codesMoved (imageToAxes [3]) = false ∧
      map [0x81, 2, 0] =
        { yaw := { axis := 1, negative := true }
          pitch := { axis := 2, negative := false }
          roll := { axis := 0, negative := false } } ∧
      codesMoved (imageToAxes [0x81, 2, 0]) = false ∧ codesMoved (imageToAxes [1, 2, 3]) = true := by decide +kernel

/-- R128 (log 44): with H 1536 and LP 104 a frame period of 159,744 sixteenths latches PROFILE and leaves LP; one more
latches nothing. -/
theorem test_line_period_at_the_frame_period :
    ∀ x ∈ [(159744, true), (159745, false)],
      let t := after (.profileInstalled (imageWithEntry 2 x.1)) (loading .headset)
      t.isLatched .profile = x.2 ∧ t.scan.settings.lp = 104 := by decide +kernel

theorem test_band_beyond_the_buffers_latches_map :
    (after (.profileInstalled imageWithBand) (loading .headset)).isLatched .map = true ∧
      (after (.profileInstalled imageWithBand) (loading .console)).isLatched .map = false := by decide +kernel

theorem test_UsableImageInstallsItsValues_met :
    ∀ role ∈ [Role.console, .headset, .supply],
      (loading role).loader.life = .loading ∧ (loading role).straps.profilePresent = true ∧
        (loading role).isLatched .profile = false ∧ (loading role).isLatched .map = false ∧
        ∀ image ∈ [imageOf [], imageOf [1, 2, 3, 4], imageWithEntry 2 159745, imageWithEntry 7 0, imageWithBand],
          imageGood image = true := by decide +kernel

theorem repeats_good (a : Action) (p ph period phase due : Nat) (hp : Stated.periodGood a p) (hh : ph < p)
    (hm : (repeatEntry a p ph).mode = .repeating period phase due) :
    Stated.periodGood a period ∧ phase < period := by
  obtain ⟨rfl, rfl, rfl⟩ := Mode.repeating.inj hm
  exact ⟨hp, hh⟩

theorem repeats_not_counted (a : Action) (p ph : Nat) (src : Fin 8) (n progress : Nat) :
    (repeatEntry a p ph).mode ≠ .counted src n progress := by simp [repeatEntry]

theorem counted_not_repeats (a : Action) (i : Fin 8) (n p ph due : Nat) :
    (countedEntry a i n).mode ≠ .repeating p ph due := by simp [countedEntry]

theorem defaultEntries_good (role : Role) : Stated.entriesGood role (defaultEntries role 3) := by
  intro i hne
  cases role <;> fin_cases i
  all_goals first
    | exact absurd rfl hne
    | refine ⟨by first
          | trivial
          | exact rfl
          | exact (by decide : Role.console ≠ .supply)
          | exact (by decide : Role.headset ≠ .supply),
        by decide, fun p ph d hm => ?_, fun src n pr hm => ?_⟩
  all_goals first
    | exact absurd hm (repeats_not_counted _ _ _ _ _ _)
    | exact absurd hm (counted_not_repeats _ _ _ _ _ _)
    | exact repeats_good _ _ _ _ _ _
        (by first
          | exact (by decide : 160000 ≤ 1600000 ∧ 1600000 ≤ 16000000)
          | exact (by decide : 100000 ≤ 177778 ∧ 177778 ≤ 250000)
          | exact (by decide : 4000 ≤ 16000 ∧ 16000 ≤ 80000 ∧ 16000 % 16 = 0)
          | exact (by decide : 320000 ≤ 1600000 ∧ 1600000 ≤ 16000000))
        (by decide) hm
    | skip
  all_goals
    obtain ⟨rfl, rfl, rfl⟩ := Mode.counted.inj hm
    exact ⟨by decide, by decide, by decide, by decide, by decide, _, _, _, rfl,
      by first
        | exact (by decide : 16000 ≤ 177778 ∧ 177778 ≤ 16000000)
        | exact (by decide : 16000 ≤ 16000 * 2 ∧ 16000 * 2 ≤ 1600000)⟩

/-- The settings of an image that gives none are the role's defaults, and good. -/
theorem test_ChecksLatchProfileAndMap_met (role : Role) :
    codesMoved (imageOf []) = false ∧
      Stated.settingsGood role (readImage (imageOf []) (defaultSettings role 3)) := by
  have h : readImage (imageOf []) (defaultSettings role 3) = defaultSettings role 3 := by cases role <;> decide +kernel
  rw [h]
  refine ⟨by decide, defaultEntries_good role, ?_⟩
  have hs : Stated.scanGood (defaultEntries role 3) 1536 defaultScan := by
    refine ⟨by decide, by decide, by decide, by decide, by decide, by decide, by decide, by decide, by decide,
      by decide, fun k p ph d hk => ?_⟩
    cases role <;> fin_cases k <;> simp [defaultEntries, repeatEntry, countedEntry, noneEntry] at hk
    all_goals
      obtain ⟨rfl, _, _⟩ := hk
      decide
  have hm : Stated.motionGood defaultMotion := by
    refine ⟨by decide, by decide, ?_, ?_, by decide, by decide, by decide⟩
    · rintro b (rfl | rfl | rfl) <;> decide
    · rintro b (rfl | rfl | rfl) <;> decide
  have hb : Stated.mapsGood defaultGeometry.bandSlices defaultBands := by unfold Stated.mapsGood; decide +kernel
  have hg : Stated.geometryGood defaultGeometry := by unfold Stated.geometryGood; decide
  have hp : Stated.figuresGood role (defaultPower role) := by
    cases role <;> (unfold Stated.figuresGood; decide)
  exact ⟨hg, hb, hs, hm, (by decide : defaultE0.min ≤ 0), (by decide : 0 ≤ defaultE0.max),
    (by decide : defaultE1.min ≤ 0), (by decide : 0 ≤ defaultE1.max), (by decide : 50 ≤ 250), (by decide : 250 ≤ 2000),
    hp, (by decide : 16 ≤ 80), (by decide : 80 ≤ 127), (by decide : 10 ≤ 100), (by decide : 100 ≤ 10000)⟩

/-- A code that is moved, a frame period that is not above H × LP, and a band beyond the buffers. -/
theorem test_ChecksLatchProfileAndMap_met_by_bad_images :
    codesMoved (imageWithEntry 7 0) = true ∧
      ¬ Stated.settingsGood .headset (readImage (imageWithEntry 2 159744) (defaultSettings .headset 3)) ∧
      ¬ Stated.mapsGood 2 (readImage imageWithBand (defaultSettings .headset 3)).bands := by
  refine ⟨by decide, fun h => ?_, by unfold Stated.mapsGood; decide +kernel⟩
  have hs := h.2.2.2.1.2.2.2.2.2.2.2.2.2.2 1 159744 0 0 (by decide +kernel)
  exact absurd hs (by decide +kernel)

/-! ### What every step keeps -/

theorem test_StepKeeps_met :
    geometryOk State.reset ∧ memoryOk State.reset ∧ alarmsOk State.reset ∧ dialsOk State.reset ∧
      storesOk State.reset ∧ (∀ straps, State.reset.pending.head? ≠ some (.powerOn straps)) := by
  refine ⟨by unfold geometryOk; decide, by unfold memoryOk; decide, by unfold alarmsOk; decide,
    by unfold dialsOk dialOk; decide, by unfold storesOk; decide, fun _ h => (nomatch h)⟩

theorem test_StepKeepsBandsApart_met :
    ∃ (s : State) (k k' : Nat), geometryOk s ∧ k < s.store.geometry.slices ∧ k' < s.store.geometry.slices ∧
      s.store.bufferOf .left k = some 95 ∧ s.store.bufferOf .right k' = some 96 :=
  ⟨State.reset, 95, 0, by unfold geometryOk; decide, by decide⟩

end Sys2Proof.Machine.Tests
end

