-- ==== Sys2Proof/Proofs/Alarms.lean ====
section
/-! PROOF. An event handed to the alarm set (R49, R54, R55) and CLEAR ALARM (R52), with the rules about loads, spine
replies and masks that they rest on. -/

namespace Sys2Proof.Machine

/-! ### Loads and spine replies -/

/-- R22: a load is taken exactly in a RUNNING station outside CUT. -/
theorem loadRefused_eq_false_iff (s : State) :
    s.loadRefused = false ↔ s.loader.life = .running ∧ s.spine.standing ≠ .cut := by
  simp [State.loadRefused]

theorem loadSlot_of_refused {s : State} (h : s.loadRefused = true) (n : SlotName) (c : Content) :
    loadSlot n c s = countRefused n s := by
  simp [loadSlot, h]

theorem loadSlot_of_taken {s : State} (h : s.loadRefused = false) (n : SlotName) (c : Content) :
    loadSlot n c s = s.updSlot n (·.load c) := by
  simp [loadSlot, h]

theorem beBytes_one (v : Nat) : beBytes 1 v = [BitVec.ofNat 8 v] := by
  simp [beBytes]

/-- R40: the model's reply body is the one the statements write out. -/
theorem replyBody_eq_stated (c : Command) (r : Result) (data : List Byte) :
    replyBody c r data = Stated.replyBody c r.code data := by
  simp [replyBody, Stated.replyBody, beBytes_one]

/-- R21, R39, R40: the reply of a unit already ANSWERING `c`, loaded into an EMPTY slot of a station in service. -/
theorem spineReply_eq_spineReplied {t : State} {c : Command} (r : Result) (data : List Byte)
    (hload : t.loadRefused = false) (hempty : t.slots.reply.state = .empty) (hbusy : t.cmd.answering = some c) :
    spineReply c (replyBody c r data) t = Stated.spineReplied t c t.cmd.queue r.code data := by
  have hcmd : t.cmd = { t.cmd with queue := t.cmd.queue, answering := some c } := by rw [← hbusy]
  have htaken : spineReply c (replyBody c r data) t = t.updSlot .reply
      (·.load { rank := replyRank t c, body := replyBody c r data, singleShot := false, loop := false }) := by
    simp [spineReply, hload, loadSlot_of_taken hload]
  rw [htaken, Stated.spineReplied, ← hcmd, ← replyBody_eq_stated]
  simp [State.updSlot, State.updSlots, Slots.get, Slots.put, Slot.load, hempty, replyRank, mkRank, Stated.replyRank]

/-- R38, R39: a command taken for a spine reply leaves the state its effect gives, with the reply loaded. The effect
`act` may touch any block but the four that the reply rests on. -/
theorem answerWith_of_repliesBySpine {s : State} {c : Command} {rest : List Command} {is : BitVec 5 → Bool}
    {act : Command → State → Answer} (h : Stated.repliesBySpine s c rest) (hcode : is c.code = true)
    (hloader : (act c (beginAnswer c rest s)).state.loader = s.loader)
    (hspine : (act c (beginAnswer c rest s)).state.spine = s.spine)
    (hslots : (act c (beginAnswer c rest s)).state.slots = s.slots)
    (hcmd : (act c (beginAnswer c rest s)).state.cmd = (beginAnswer c rest s).cmd) :
    answerWith is act s =
      Stated.spineReplied (act c (beginAnswer c rest s)).state c rest (act c (beginAnswer c rest s)).result.code
        (act c (beginAnswer c rest s)).data := by
  obtain ⟨⟨hfree, hqueue⟩, hspinePath, hlife, hstanding, hempty⟩ := h
  generalize ha : act c (beginAnswer c rest s) = a at *
  have hdelivered : answerWith is act s = spineReply c (replyBody c a.result a.data) a.state := by
    simp [answerWith, hfree, hqueue, hcode, deliver, hspinePath, ha]
  have hload : a.state.loadRefused = false :=
    (loadRefused_eq_false_iff _).mpr (by rw [hloader, hspine]; exact ⟨hlife, hstanding⟩)
  rw [hdelivered, spineReply_eq_spineReplied a.result a.data hload (by rw [hslots, hempty]) (by rw [hcmd]; rfl), hcmd]
  rfl

/-! ### The ALARM message -/

theorem ownContent_alarmBody (s : State) :
    ownContent s 0 0 (alarmBody s) = Stated.alarmContent s s.spine.standing := by
  simp [ownContent, alarmBody, Stated.alarmContent, mkRank, beBits, beBytes_one]

/-- R21, R22, R54: what a load of the ALARM slot does. -/
theorem loadAlarm_eq (s : State) :
    loadAlarm s =
      if s.loader.life = .running ∧ s.spine.standing ≠ .cut then
        { s with slots := { s.slots with alarm := s.slots.alarm.load (Stated.alarmContent s s.spine.standing) } }
      else { s with slots := { s.slots with refused := bump s.slots.refused } } := by
  rw [loadAlarm, ownContent_alarmBody]
  cases hload : s.loadRefused with
  | false =>
    rw [if_pos ((loadRefused_eq_false_iff s).mp hload), loadSlot_of_taken hload]
    rfl
  | true =>
    have hout : ¬ (s.loader.life = .running ∧ s.spine.standing ≠ .cut) := fun hin =>
      absurd ((loadRefused_eq_false_iff s).mpr hin) (by simp [hload])
    rw [if_neg hout, loadSlot_of_refused hload]
    rfl

/-! ### Latching a flag -/

theorem latch_of_latched {s : State} {f : Flag} (h : s.alarms.latched.getLsbD f.number = true) : latch f s = s := by
  simp [latch, State.isLatched, has, h]

theorem latch_of_unlatched_disabled {s : State} {f : Flag} (h : s.alarms.latched.getLsbD f.number = false)
    (hm : s.alarms.message.getLsbD f.number = false) :
    latch f s = s.updAlarms fun a => { a with latched := a.latched ||| f.mask } := by
  simp [latch, State.isLatched, has, h, hm]

theorem latch_of_unlatched_enabled {s : State} {f : Flag} (h : s.alarms.latched.getLsbD f.number = false)
    (hm : s.alarms.message.getLsbD f.number = true) :
    latch f s = loadAlarm (s.updAlarms fun a =>
      { a with latched := a.latched ||| f.mask, unsent := a.unsent ||| f.mask }) := by
  simp [latch, State.isLatched, has, h, hm, State.updAlarms]

/-- Settles O15, by the three cases of R49: latched already, newly latched unannounced, and newly latched announced. -/
theorem eventLatchesItsFlagOnce : Obligations.EventLatchesItsFlagOnce := by
  unfold Obligations.EventLatchesItsFlagOnce
  intro s f
  refine ⟨latch_of_latched, fun h hm => ?disabled, fun h hm => ?enabled⟩
  case disabled => exact latch_of_unlatched_disabled h hm
  case enabled =>
    rw [latch_of_unlatched_enabled h hm, loadAlarm_eq]
    rfl

/-! ### Masks -/

theorem getLsbD_mask (f : Flag) {n : Nat} (hn : n < 12) : f.mask.getLsbD n = decide (n = f.number) := by
  simp only [Flag.mask, BitVec.getLsbD_shiftLeft, BitVec.getLsbD_one, hn, decide_true, Bool.true_and]
  rw [Bool.eq_iff_iff]
  simp only [Bool.and_eq_true, Bool.not_eq_true', decide_eq_false_iff_not, decide_eq_true_eq]
  omega

/-- R52: CLEAR ALARM unlatches the flags that its mask names, but for those whose condition is present and DUPNODE. -/
theorem getLsbD_clearable_iff (a : Alarms) (mask : FlagMask) {n : Nat} (hn : n < 12) :
    (clearable a mask).getLsbD n = true ↔ mask.getLsbD n = true ∧ a.present.getLsbD n = false ∧ n ≠ 1 := by
  have hdupnode : Flag.dupnode.mask.getLsbD n = decide (n = 1) := getLsbD_mask .dupnode hn
  rw [clearable, BitVec.getLsbD_and, BitVec.getLsbD_and, BitVec.getLsbD_not, BitVec.getLsbD_not, hdupnode]
  simp only [hn, decide_true, Bool.true_and, Bool.and_eq_true, Bool.not_eq_true', decide_eq_false_iff_not, and_assoc,
    ne_eq]

/-- Bit `n` of a mask of flags from which CLEAR ALARM takes those it unlatches. -/
theorem getLsbD_and_not_clearable (a : Alarms) (m mask : FlagMask) {n : Nat} (hn : n < 12) :
    (m &&& ~~~clearable a mask).getLsbD n =
      if mask.getLsbD n = true ∧ a.present.getLsbD n = false ∧ n ≠ 1 then false else m.getLsbD n := by
  simp only [BitVec.getLsbD_and, BitVec.getLsbD_not, ← getLsbD_clearable_iff a mask hn]
  cases (clearable a mask).getLsbD n with
  | true => simp
  | false => simp [hn]

/-- The alarm set after CLEAR ALARM is the one whose flags R52 gives bit by bit, the enables and conditions kept. -/
theorem cleared_eq_of_getLsbD {a b : Alarms} {mask : Nat} (hwire : b.wire = a.wire) (hmessage : b.message = a.message)
    (hpresent : b.present = a.present)
    (hbits : ∀ n : Fin 12,
      let clears := mask.testBit n = true ∧ a.present.getLsbD n = false ∧ n ≠ 1
      b.latched.getLsbD n = (if clears then false else a.latched.getLsbD n) ∧
        b.unsent.getLsbD n = (if clears then false else a.unsent.getLsbD n)) :
    a.cleared (BitVec.ofNat 12 mask) = b := by
  have hclears (n : Nat) (hn : n < 12) :
      ((BitVec.ofNat 12 mask).getLsbD n = true ∧ a.present.getLsbD n = false ∧ n ≠ 1) ↔
      (mask.testBit n = true ∧ a.present.getLsbD n = false ∧ (⟨n, hn⟩ : Fin 12) ≠ 1) := by
    rw [BitVec.getLsbD_ofNat, decide_eq_true hn, Bool.true_and, ne_eq, ne_eq, Fin.ext_iff]
    rfl
  have hlatched : a.latched &&& ~~~clearable a (BitVec.ofNat 12 mask) = b.latched :=
    BitVec.eq_of_getLsbD_eq fun n hn => by
      rw [getLsbD_and_not_clearable a _ _ hn, (hbits ⟨n, hn⟩).1]
      exact if_congr (hclears n hn) rfl rfl
  have hunsent : a.unsent &&& ~~~clearable a (BitVec.ofNat 12 mask) = b.unsent :=
    BitVec.eq_of_getLsbD_eq fun n hn => by
      rw [getLsbD_and_not_clearable a _ _ hn, (hbits ⟨n, hn⟩).2]
      exact if_congr (hclears n hn) rfl rfl
  rw [Alarms.cleared, hlatched, hunsent, ← hwire, ← hmessage, ← hpresent]

/-! ### CLEAR ALARM -/

theorem exec_clearAlarm (s : State) : exec .clearAlarm s = .next (answerWith (· == 2) answerClearAlarm s) := rfl

theorem fieldAt_pair (hi lo : Byte) : fieldAt [hi, lo] 0 2 = hi.toNat * 256 + lo.toNat := by
  simp [fieldAt, fromBytes]

/-- R38, R52: CLEAR ALARM is CLAMPED exactly where its mask has one of the four highest of its 16 bits set. -/
theorem code_movedResult_clearAlarm (hi lo : Byte) :
    (movedResult (decide (4096 ≤ hi.toNat * 256 + lo.toNat))).code = if 16 ≤ hi.toNat then 4 else 0 := by
  have hlo : lo.toNat < 256 := lo.isLt
  have hhigh : 4096 ≤ hi.toNat * 256 + lo.toNat ↔ 16 ≤ hi.toNat := by omega
  by_cases h : 16 ≤ hi.toNat <;> simp [movedResult, hhigh, h, Result.code]

/-- Settles O16: the command is taken for a spine reply (R38, R39), its effect on the alarm set being R52's. -/
theorem clearAlarmClearsNamedFlags : Obligations.ClearAlarmClearsNamedFlags := by
  unfold Obligations.ClearAlarmClearsNamedFlags
  intro s c rest hi lo after hpath hcode hargs hwire hmessage hpresent hbits
  have hset : s.alarms.cleared (BitVec.ofNat 12 (fieldAt c.args 0 2)) = after := by
    rw [hargs, fieldAt_pair]
    exact cleared_eq_of_getLsbD hwire hmessage hpresent hbits
  have hanswer : answerClearAlarm c (beginAnswer c rest s) =
      { result := movedResult (decide (4096 ≤ hi.toNat * 256 + lo.toNat))
        data := beBytes 2 s.alarms.latched.toNat ++ beBytes 2 after.latched.toNat
        state := (beginAnswer c rest s).updAlarms fun _ => after } := by
    rw [← hset, ← fieldAt_pair hi lo, ← hargs]
    rfl
  rw [exec_clearAlarm, answerWith_of_repliesBySpine hpath (by simp [hcode]) (by simp [hanswer]) (by simp [hanswer])
    (by simp [hanswer]) (by simp [hanswer]), hanswer, code_movedResult_clearAlarm]
  rfl

end Sys2Proof.Machine
end

