-- ==== Sys2Proof/Proofs/Dials.lean ====
section
/-! PROOF. A dial line change (R89 to R91): the four changes a pair of lines can make, what each does to the dial, and
what DIAL_CHANGE does to a station whose dials count. -/

namespace Sys2Proof.Machine

/-! ### The order of the lines -/

/-- R89: of the four levels that a pair of lines at `lineA`, `lineB` can take, one is the next in the forward order
(low low, low high, high high, high low), one the next in the reverse order, one the same and one the opposite. -/
theorem forward_or_backward_or_same_or_opposite (lineA lineB a b : Bool) :
    (a = lineB ∧ b = !lineA) ∨ (a = !lineB ∧ b = lineA) ∨ (a = lineA ∧ b = lineB) ∨ (a = !lineA ∧ b = !lineB) := by
  revert lineA lineB a b
  decide

/-! ### One dial -/

theorem change_of_same {d : DialState} {a b : Bool} (h : a = d.lineA ∧ b = d.lineB) : d.change a b = d :=
  if_pos h

theorem change_of_opposite {d : DialState} {a b : Bool} (h : a = !d.lineA ∧ b = !d.lineB) :
    d.change a b = { d with lineA := a, lineB := b, skips := bump d.skips } := by
  obtain ⟨rfl, rfl⟩ := h
  simp [DialState.change]

/-- A change to the next levels in the forward order moves one line, line B where the levels agree, else line A. -/
theorem change_of_forward {d : DialState} {a b : Bool} (h : a = d.lineB ∧ b = !d.lineA) :
    d.change a b = { d with lineA := a, lineB := b }.step 1 := by
  obtain ⟨rfl, rfl⟩ := h
  by_cases hAB : d.lineA = d.lineB
  · simp [DialState.change, hAB]
  · have hB : d.lineB = !d.lineA := Bool.eq_not.mpr (Ne.symm hAB)
    simp [DialState.change, hB]

/-- A change to the next levels in the reverse order moves one line, line A where the levels agree, else line B. -/
theorem change_of_backward {d : DialState} {a b : Bool} (h : a = !d.lineB ∧ b = d.lineA) :
    d.change a b = { d with lineA := a, lineB := b }.step (-1) := by
  obtain ⟨rfl, rfl⟩ := h
  by_cases hAB : d.lineA = d.lineB
  · simp [DialState.change, hAB]
  · have hB : d.lineB = !d.lineA := Bool.eq_not.mpr (Ne.symm hAB)
    simp [DialState.change, hB]

/-- R89 to R91: a change of a dial's lines, with the steps of R90 written out. What is neither the same levels, nor the
opposite ones, nor forward is backward. -/
theorem change_eq (d : DialState) (a b : Bool) :
    d.change a b =
      if a = d.lineA ∧ b = d.lineB then d
      else if a = !d.lineA ∧ b = !d.lineB then { d with lineA := a, lineB := b, skips := bump d.skips }
      else if a = d.lineB ∧ b = !d.lineA then
        if d.count + 1 < d.range.min ∨ d.range.max < d.count + 1 then
          { d with lineA := a, lineB := b, limit := true, limitSteps := bump d.limitSteps }
        else { d with lineA := a, lineB := b, count := d.count + 1 }
      else
        if d.count - 1 < d.range.min ∨ d.range.max < d.count - 1 then
          { d with lineA := a, lineB := b, limit := true, limitSteps := bump d.limitSteps }
        else { d with lineA := a, lineB := b, count := d.count - 1 } := by
  by_cases hsame : a = d.lineA ∧ b = d.lineB
  · rw [if_pos hsame, change_of_same hsame]
  rw [if_neg hsame]
  by_cases hopposite : a = !d.lineA ∧ b = !d.lineB
  · rw [if_pos hopposite, change_of_opposite hopposite]
  rw [if_neg hopposite]
  by_cases hforward : a = d.lineB ∧ b = !d.lineA
  · rw [if_pos hforward, change_of_forward hforward, DialState.step]
  have hbackward : a = !d.lineB ∧ b = d.lineA := by
    simpa only [hforward, hsame, hopposite, false_or, or_false] using
      forward_or_backward_or_same_or_opposite d.lineA d.lineB a b
  rw [if_neg hforward, change_of_backward hbackward, DialState.step]
  rfl

/-! ### DIAL_CHANGE -/

/-- R89, R92: the dials count on a HEADSET out of LOADING, and in the LOADING of a restart. -/
theorem dialsCount_eq_true_iff (s : State) :
    s.dialsCount = true ↔
      s.straps.role = .headset ∧ (s.loader.life ≠ .loading ∨ s.loader.fromRestart = true) := by
  simp [State.dialsCount]

/-- R89: where the dials count, DIAL_CHANGE sets the levels at the dial's lines and judges them by its line state. -/
theorem exec_dialChange_of_counting {s : State} (h : s.dialsCount = true) (n : Dial) (a b : Bool) :
    exec (.dialChange n a b) s =
      .next { s with pins := s.pins.setDial n a b, dials := s.dials.put n ((s.dials.get n).change a b) } := by
  have hpins : (s.updPins (·.setDial n a b)).dialsCount = true := h
  change Host.Outcome.next (dialChange n a b s) = _
  simp only [dialChange, if_pos hpins]
  rfl

/-- Settles O26: the four changes are all there are (R89), and each dial takes its own change and leaves the other. -/
theorem dialChangeCountsWithinRange : Obligations.DialChangeCountsWithinRange := by
  unfold Obligations.DialChangeCountsWithinRange
  intro s a b hrole hlife
  have hcounts : s.dialsCount = true := (dialsCount_eq_true_iff s).mpr ⟨hrole, hlife⟩
  refine ⟨forward_or_backward_or_same_or_opposite s.dials.e0.lineA s.dials.e0.lineB a b, ?e0, ?e1⟩
  case e0 =>
    refine (exec_dialChange_of_counting hcounts .e0 a b).trans ?_
    rw [Dials.get, change_eq]
    rfl
  case e1 =>
    have hexchanged : { s with dials := { e0 := s.dials.e1, e1 := s.dials.e0 } }.dialsCount = true := hcounts
    refine (exec_dialChange_of_counting hexchanged .e1 a b).trans ?_
    rw [Dials.get, change_eq]
    rfl

end Sys2Proof.Machine
end

