-- ==== Sys2Proof/Proofs/StoreCommands.lean ====
section
/-! PROOF. READ BANDS (R126) and CLEAR MAP FAULT (R123) on a HEADSET: the fields of their replies as the format gives
them, and the change of the slice store that is each command's whole effect. -/

namespace Sys2Proof.Machine

/-! ### Fields that hold one digit for each band -/

/-- Horner's scheme: accumulating digits from the last element down gives element `i` the weight `base ^ i`. -/
theorem foldr_digits_eq_sum {α : Type} {n : Nat} (base : Nat) (digit : α → Nat) (xs : Vector α n) :
    xs.toList.foldr (fun x acc => acc * base + digit x) 0 =
      ((List.finRange n).map fun i => digit xs[i] * base ^ i.val).sum := by
  have hweights : (xs.toList.map digit).mapIdx (fun i d => d * base ^ i) =
      (List.finRange n).map fun i => digit xs[i] * base ^ i.val := by
    apply List.ext_getElem <;> simp
  calc xs.toList.foldr (fun x acc => acc * base + digit x) 0
      = Nat.ofDigits base (xs.toList.map digit) := by
        simp [Nat.ofDigits_eq_foldr, List.foldr_map, Nat.mul_comm, Nat.add_comm]
    _ = _ := by rw [Nat.ofDigits_eq_sum_mapIdx, hweights]

/-- R126, R184: the flag of band `i` is bit `i`. -/
theorem bandBits_eq_sum (f : Band → Bool) (bands : Vector Band 8) :
    bandBits f bands =
      BitVec.ofNat 8 ((List.finRange 8).map fun i => if f bands[i] then 2 ^ i.val else 0).sum := by
  simp only [bandBits, flagByte, List.foldr_map, foldr_digits_eq_sum 2 (fun b => if f b then 1 else 0), boole_mul]

/-- R126: the access of band `i` is in bits 2`i` and 2`i` + 1. -/
theorem accessBits_eq_sum (bands : Vector Band 8) :
    accessBits bands = ((List.finRange 8).map fun i => bands[i].access.code * 4 ^ i.val).sum :=
  foldr_digits_eq_sum 4 (fun b : Band => b.access.code) bands

/-! ### The capture record in a reply -/

theorem beBytes_mapFaultKindCode (k : MapFaultKind) :
    beBytes 1 k.code = [match k with | .overrun => 0 | .absent => 1 | .length => 2] := by
  cases k <;> rfl

theorem beBytes_eyeCode (e : Eye) : beBytes 1 (Eye.code e) = [match e with | .left => 0 | .right => 1] := by
  cases e <;> rfl

theorem beBytes_bit (b : Bool) : beBytes 1 (bit b) = [if b then 1 else 0] := by
  cases b <;> rfl

/-! ### Commands whose effect is on the slice store -/

/-- R38: a result is CLAMPED exactly where an argument was moved, else DONE. -/
theorem code_movedResult (moved : Prop) [Decidable moved] :
    (movedResult (decide moved)).code = if moved then 4 else 0 := by
  by_cases h : moved <;> simp [movedResult, h, Result.code]

/-- R38, R39: a command of a HEADSET that changes the slice store alone, taken for a spine reply. -/
theorem answerWith_onHeadset_of_updStore {s : State} {c : Command} {rest : List Command} {is : BitVec 5 → Bool}
    {act : Command → State → Answer} {r : Result} {data : List Byte} {f : SliceStore → SliceStore}
    (hpath : Stated.repliesBySpine s c rest) (hrole : s.straps.role = .headset) (hcode : is c.code = true)
    (hact : act c (beginAnswer c rest s) =
      { result := r, data := data, state := (beginAnswer c rest s).updStore f }) :
    answerWith is (onHeadset act) s =
      Stated.spineReplied { s with store := f s.store } c rest r.code data := by
  have hanswer : onHeadset act c (beginAnswer c rest s) =
      { result := r, data := data, state := (beginAnswer c rest s).updStore f } :=
    (if_pos hrole).trans hact
  rw [answerWith_of_repliesBySpine hpath hcode (by simp [hanswer]) (by simp [hanswer]) (by simp [hanswer])
    (by simp [hanswer]), hanswer]
  rfl

/-- R126: what carrying READ BANDS out gives, its reply data written as the format's sums. -/
theorem answerReadBands_eq {c : Command} {arg : Byte} (hargs : c.args = [arg]) (s : State) :
    let e : Eye := if arg = 0 then .left else .right
    let bands := s.store.bands.get e
    answerReadBands c s =
      { result := movedResult (decide (1 < arg.toNat))
        data :=
          [BitVec.ofNat 8 ((List.finRange 8).map fun i => if bands[i].written then 2 ^ i.val else 0).sum,
            BitVec.ofNat 8 ((List.finRange 8).map fun i => if bands[i].stale then 2 ^ i.val else 0).sum] ++
            beBytes 2 ((List.finRange 8).map fun i => bands[i].access.code * 4 ^ i.val).sum
        state := s.updStore fun k => { k with bands := k.bands.put e (bands.map (·.clearFlags)) } } := by
  have harg : byteAt c.args 0 = arg := by rw [hargs]; rfl
  simp only [answerReadBands, harg, bandBits_eq_sum, accessBits_eq_sum]

theorem answerClearMapFault_of_released {s : State} (h : s.store.fault = none) (c : Command) :
    answerClearMapFault c s = { result := .empty, data := [], state := s } := by
  simp [answerClearMapFault, h]

theorem answerClearMapFault_of_frozen {s : State} {f : MapFault} (h : s.store.fault = some f) (c : Command) :
    answerClearMapFault c s =
      { result := .done, data := mapFaultBytes f, state := s.updStore fun k => { k with fault := none } } := by
  simp [answerClearMapFault, h]

theorem exec_readBands (s : State) :
    exec .readBands s = .next (answerWith (· == 6) (onHeadset answerReadBands) s) := rfl

theorem exec_clearMapFault (s : State) :
    exec .clearMapFault s = .next (answerWith (· == 7) (onHeadset answerClearMapFault) s) := rfl

/-- Settles O35: READ BANDS (R126), and CLEAR MAP FAULT on a released and on a frozen record (R123), are each taken for
a spine reply with its effect on the slice store alone. -/
theorem storeCommandsOnHeadset : Obligations.StoreCommandsOnHeadset := by
  unfold Obligations.StoreCommandsOnHeadset
  intro s c rest hpath hrole
  refine ⟨fun arg hcode hargs => ?readBands, fun hcode hfault => ?released, fun f hcode hfault => ?frozen⟩
  case readBands =>
    rw [exec_readBands, answerWith_onHeadset_of_updStore hpath hrole (by simp [hcode]) (answerReadBands_eq hargs _),
      code_movedResult]
    rfl
  case released =>
    have hreleased := answerClearMapFault_of_released (s := beginAnswer c rest s) hfault c
    rw [exec_clearMapFault,
      answerWith_onHeadset_of_updStore (f := id) hpath hrole (by simp [hcode]) hreleased]
    rfl
  case frozen =>
    have hfrozen := answerClearMapFault_of_frozen (s := beginAnswer c rest s) hfault c
    rw [exec_clearMapFault, answerWith_onHeadset_of_updStore hpath hrole (by simp [hcode]) hfrozen, mapFaultBytes,
      beBytes_mapFaultKindCode, beBytes_eyeCode, beBytes_bit]
    rfl

end Sys2Proof.Machine
end

