-- ==== Sys2Proof/Proofs/Effects.lean ====
section
/-! PROOF. What a step can do: one inversion lemma for the commands of the command unit, one for all commands, one for a
step, and the induction that every invariant of the station goes through. -/

namespace Sys2Proof.Machine

/-- R37, R38: what carrying out command `c` can give. -/
inductive Carried (c : Command) (s : State) : Answer → Prop
  | notHere : Carried c s { result := .notHere, data := [], state := s }
  | status : Carried c s (answerStatus c s)
  | clearAlarm : Carried c s (answerClearAlarm c s)
  | holdEncoders : Carried c s (answerHoldEncoders c s)
  | readSamples : Carried c s (answerReadSamples c s)
  | alignPose : Carried c s (answerAlignPose c s)
  | readBands : Carried c s (answerReadBands c s)
  | clearMapFault : Carried c s (answerClearMapFault c s)
  | capture : Carried c s (answerCapture c s)
  | setGain : Carried c s (answerSetGain c s)
  | readQueue : Carried c s (answerReadQueue c s)
  | restart : Carried c s (answerRestart c s)
  | readTime : Carried c s (answerReadTime c s)
  | unknown : Carried c s (answerUnknown c s)

/-- What a command can make of a state: nothing, or one effect of the model under the guard it has there. -/
inductive Effect (i : Instr) (s : State) : State → Prop
  | nothing : Effect i s s
  | powerOn (straps : Straps) (hi : i = .powerOn straps) : Effect i s (State.powerOn straps s.pins s.pending s.free)
  | install (straps : Straps) (image : List Byte) (hlife : s.loader.life = .loading) :
      Effect i s (install (loadProfile straps image) s)
  | restart (straps : Straps) : Effect i s (restartWith straps s)
  | drivenBit : Effect i s (drivenBit s)
  | start (further : Nat) (n : SlotName) (hmay : s.mayStart further = true) (hpick : s.slots.pick = some n) :
      Effect i s (startMessage n s)
  | quietRun (driven : Bool) (hbetween : s.betweenMessages = true) : Effect i s (quietRun driven s)
  | loseArbitration (x : Transmission) (htx : s.spine.tx = some x) : Effect i s (loseArbitration x s)
  | sendError (k : SendErrorKind) (x : Transmission) (htx : s.spine.tx = some x) : Effect i s (sendError k x s)
  | receiveError (k : ReceiveErrorKind) (hreceives : s.receives = true) : Effect i s (receiveError k s)
  | messageTaken (m : Received) (hreceives : s.receives = true) (hlength : m.body.length ≤ 40) :
      Effect i s (messageTaken m s)
  | sendEnd (x : Transmission) (htx : s.spine.tx = some x) : Effect i s (sendEnd x s)
  | answer (c : Command) (rest : List Command) (a : Answer) (hfree : s.cmd.answering = none)
      (hqueue : s.cmd.queue = c :: rest) (ha : Carried c (beginAnswer c rest s) a) : Effect i s (deliver c a)
  | fire (a : Action) : Effect i s (fire a s)
  | expireRecord (o : Node) (hdue : s.recordDue o = true) : Effect i s (expireRecord o s)
  | leaveListening (hout : s.timerOut = true) :
      Effect i s (leaveListening (s.updTime fun t => { t with timer := none }))
  | completeRead (ready : Bool) (rates accels : Triple (BitVec 16)) (r : SensorRead)
      (hreading : s.motion.reading = some r) : Effect i s (completeRead ready rates accels r s)
  | dialChange (n : Dial) (a b : Bool) : Effect i s (dialChange n a b s)
  | inputFrameStart (hactive : s.consoleActive = true) : Effect i s (inputFrameStart s)
  | inputLineStart (hactive : s.consoleActive = true) : Effect i s (inputLineStart s)
  | inputPixel (p : Pixel) (hactive : s.consoleActive = true) : Effect i s (inputPixel p s)
  | placeTag (t : FrameTag) (hready : s.portReady = true) : Effect i s (placeTag t s)
  | startPacket (e : Eye) (p : NextPacket) (both : Bool) (hfree : s.laneFree = true)
      (hchoice : s.laneChoice = some (e, p, both)) : Effect i s (startPacket e p both s)
  | endLanePacket : Effect i s (s.updLaneTx fun t => { t with packet := none })
  | setLaneSignal (v : Bool) (run : PixelRun) : Effect i s (setLaneSignal v run s)
  | packetHeader (cut : PixelRun) (h : PacketHeader) (hactive : s.headsetActive = true)
      (hsignal : s.pins.laneSignal = true) : Effect i s (packetHeader cut h s)
  | packetEnd (p : Arriving) (run : PixelRun) (check : BitVec 32) (hpacket : s.laneRx.packet = some p) :
      Effect i s (packetEnd p run check s)
  | scanLine (hdue : s.lineDue = true) : Effect i s (scanLine s.scan.nextLine s)
  | scanEnd (hover : s.scanOver = true) : Effect i s (scanEnd s)
  | enterPlaying (hdue : s.playDue = true) : Effect i s (s.updAudio (·.enterPlaying))
  | codecFrame (mic : BitVec 16) (hrole : s.straps.role = .headset) : Effect i s (captureSample mic (playFrame s))
  | checkSilence : Effect i s (s.updAudio (·.checkSilence))
  | expireEntry (n : Node) (hdue : s.entryDue n = true) : Effect i s (expireEntry n s)
  | completeReading (r : MeterReading) (hreading : s.power.reading.isSome) : Effect i s (completeReading r s)
  | holdAnswers (r : MeterReading) (hreading : s.power.reading.isSome) :
      Effect i s (s.updPower fun p => { p with reading := some r })
  | countPortError (hready : s.portReady = true) : Effect i s (countPortError s)
  | sendRecord (r : SendRecord) (hready : s.portReady = true) (hlength : r.body.length ≤ 40) :
      Effect i s (sendRecord r s)
  | abortPort (hready : s.portReady = true) : Effect i s (abortPort s)
  | ack (hready : s.portReady = true) : Effect i s (s.updIntake fun k => { k with overrun := false })
  | startOutgoing (hactive : s.consoleActive = true) (hidle : s.port.out.isNone = true) :
      Effect i s (startOutgoing s)
  | endOutgoing (r : OutRecord) (hout : s.port.out = some r) : Effect i s (endOutgoing r s)

theorem next_injective {s t : State} (h : (Host.Outcome.next s : Host.Outcome State Fault Refusal) = .next t) : s = t :=
  Host.Outcome.next.inj h

/-- A command whose guard `b` decides between an effect and nothing. -/
theorem effect_of_guard {i : Instr} {s t : State} {b : Prop} [Decidable b] {f : State}
    (h : (Host.Outcome.next (if b then f else s) : Host.Outcome State Fault Refusal) = .next t)
    (heffect : b → Effect i s f) : Effect i s t := by
  obtain rfl := next_injective h
  split
  · exact heffect ‹_›
  · exact .nothing

theorem carried_onHeadset {c : Command} {s : State} {act : Command → State → Answer} (h : Carried c s (act c s)) :
    Carried c s (onHeadset act c s) := by
  unfold onHeadset
  split
  · exact h
  · exact .notHere

/-- R38: a row of the command unit answers the oldest command, or does nothing. -/
theorem effect_answerWith {i : Instr} {s t : State} {is : BitVec 5 → Bool} {act : Command → State → Answer}
    (h : (Host.Outcome.next (answerWith is act s) : Host.Outcome State Fault Refusal) = .next t)
    (hact : ∀ c s, Carried c s (act c s)) : Effect i s t := by
  obtain rfl := next_injective h
  unfold answerWith
  split
  · rename_i c rest hfree hqueue
    split
    · exact .answer c rest _ hfree hqueue (hact c _)
    · exact .nothing
  · exact .nothing
  · exact .nothing

theorem loadDefaults_eq_loadProfile (straps : Straps) :
    loadDefaults straps.role straps.node = loadProfile { straps with profilePresent := false } [] := rfl

theorem completeFailed_eq_completeRead {s : State} {r : SensorRead} (h : s.readOut r = true) :
    completeFailed r.stamp (countTimedOut s) = completeRead false ⟨0, 0, 0⟩ ⟨0, 0, 0⟩ r s := by
  simp [completeRead, h]

theorem effect_of_spineStart (i : Instr) (further : Nat) (s : State) : Effect i s (spineStart further s) := by
  unfold spineStart
  split
  · rename_i hmay
    split
    · exact .nothing
    · exact .start further _ hmay ‹_›
  · exact .nothing

theorem effect_of_receiveMessage {i : Instr} {s : State} (m : Received) (h : s.receives = true) :
    Effect i s (receiveMessage m s) := by
  unfold receiveMessage
  split
  · exact .receiveError .shape h
  · split
    · exact .messageTaken m h (by omega)
    · exact .receiveError .check h

theorem effect_of_answerReading {i : Instr} {s : State} {r : MeterReading} (load : MeterAnswer (BitVec 16))
    (battery : MeterAnswer Byte) (h : s.power.reading = some r) : Effect i s (answerReading r load battery s) := by
  have hreading : s.power.reading.isSome := by simp [h]
  unfold answerReading
  split
  · exact .completeReading r hreading
  · dsimp only
    split
    · exact .completeReading _ hreading
    · exact .holdAnswers _ hreading

theorem effect_of_send {i : Instr} {s : State} (r : SendRecord) (h : s.portReady = true) :
    Effect i s (if sendMalformed r then countPortError s else sendRecord r s) := by
  split
  · exact .countPortError h
  · rename_i hgood
    simp only [sendMalformed, Bool.or_eq_true, decide_eq_true_eq, not_or] at hgood
    exact .sendRecord r h (by omega)

/-- Every command does nothing, stops with a fault, or has one of the effects above. -/
theorem effect_of_exec {i : Instr} {s t : State} (h : exec i s = .next t) : Effect i s t := by
  cases i with
  | powerOn straps => obtain rfl := next_injective h; exact .powerOn straps rfl
  | profileMemoryTimeout =>
    refine effect_of_guard h fun hout => ?_
    have hlife : s.loader.life = .loading := by
      simp only [State.memoryOut, Bool.and_eq_true, beq_iff_eq] at hout
      exact hout.1.1
    rw [loadDefaults_eq_loadProfile]
    exact .install _ _ hlife
  | profileInstalled image => exact effect_of_guard h fun hlife => .install _ _ hlife
  | restartBegin straps => exact effect_of_guard h fun _ => .restart straps
  | spineStart further driven =>
    obtain rfl := next_injective h
    split
    · exact .drivenBit
    · exact effect_of_spineStart _ further s
  | quietRun driven => exact effect_of_guard h fun hbetween => .quietRun driven hbetween
  | rejoin driven =>
    refine effect_of_guard h fun hguard => ?_
    simp only [Bool.and_eq_true] at hguard
    exact .quietRun driven hguard.1.1
  | arbitrationLoss =>
    change execArbitrationLoss s = _ at h
    unfold execArbitrationLoss at h
    split at h <;> obtain rfl := next_injective h
    · exact .nothing
    · exact .loseArbitration _ ‹_›
  | sendError kind =>
    change execSendError kind s = _ at h
    unfold execSendError at h
    split at h <;> obtain rfl := next_injective h
    · exact .nothing
    · exact .sendError kind _ ‹_›
  | receiveError kind => exact effect_of_guard h fun hreceives => .receiveError kind hreceives
  | sendEnd =>
    change execSendEnd s = _ at h
    unfold execSendEnd at h
    split at h <;> obtain rfl := next_injective h
    · exact .nothing
    · exact .sendEnd _ ‹_›
  | messageTaken m => exact effect_of_guard h fun hreceives => effect_of_receiveMessage m hreceives
  | status => exact effect_answerWith h fun _ _ => .status
  | clearAlarm => exact effect_answerWith h fun _ _ => .clearAlarm
  | holdEncoders => exact effect_answerWith h fun _ _ => carried_onHeadset .holdEncoders
  | readSamples => exact effect_answerWith h fun _ _ => carried_onHeadset .readSamples
  | alignPose => exact effect_answerWith h fun _ _ => carried_onHeadset .alignPose
  | readBands => exact effect_answerWith h fun _ _ => carried_onHeadset .readBands
  | clearMapFault => exact effect_answerWith h fun _ _ => carried_onHeadset .clearMapFault
  | capture => exact effect_answerWith h fun _ _ => carried_onHeadset .capture
  | setGain => exact effect_answerWith h fun _ _ => carried_onHeadset .setGain
  | readQueue => exact effect_answerWith h fun _ _ => .readQueue
  | restart => exact effect_answerWith h fun _ _ => .restart
  | readTime => exact effect_answerWith h fun _ _ => .readTime
  | unknownCommand => exact effect_answerWith h fun _ _ => .unknown
  | beacon => obtain rfl := next_injective h; exact .fire .beacon
  | timeRecordExpiry origin => exact effect_of_guard h fun hdue => .expireRecord origin hdue
  | listeningTimerExpiry => exact effect_of_guard h fun hout => .leaveListening hout
  | frame => obtain rfl := next_injective h; exact .fire .frame
  | sample => obtain rfl := next_injective h; exact .fire .sample
  | powerReport => obtain rfl := next_injective h; exact .fire .powerReport
  | portStatus => obtain rfl := next_injective h; exact .fire .portStatus
  | sensorReadComplete ready rates accels =>
    change execSensorReadComplete ready rates accels s = _ at h
    unfold execSensorReadComplete at h
    split at h <;> obtain rfl := next_injective h
    · exact .nothing
    · exact .completeRead ready rates accels _ ‹_›
  | sensorReadTimeout =>
    change execSensorReadTimeout s = _ at h
    unfold execSensorReadTimeout at h
    split at h
    · obtain rfl := next_injective h
      exact .nothing
    · refine effect_of_guard h fun hout => ?_
      rw [completeFailed_eq_completeRead hout]
      exact .completeRead _ _ _ _ ‹_›
  | dialChange dial a b => obtain rfl := next_injective h; exact .dialChange dial a b
  | inputFrameStart => exact effect_of_guard h fun hactive => .inputFrameStart hactive
  | inputLineStart => exact effect_of_guard h fun hactive => .inputLineStart hactive
  | inputPixel p => exact effect_of_guard h fun hactive => .inputPixel p hactive
  | tag t => exact effect_of_guard h fun hready => .placeTag t hready
  | lanePacketStart =>
    change execLanePacketStart s = _ at h
    unfold execLanePacketStart at h
    split at h
    · split at h <;> obtain rfl := next_injective h
      · exact .nothing
      · exact .startPacket _ _ _ ‹_› ‹_›
    · obtain rfl := next_injective h
      exact .nothing
  | lanePacketEnd => obtain rfl := next_injective h; exact .endLanePacket
  | laneDown run => obtain rfl := next_injective h; exact .setLaneSignal false run
  | laneUp => obtain rfl := next_injective h; exact .setLaneSignal true noPixels
  | packetHeader h' cut =>
    refine effect_of_guard h fun hguard => ?_
    simp only [Bool.and_eq_true] at hguard
    exact .packetHeader cut h' hguard.1 hguard.2
  | packetEnd run check =>
    change execPacketEnd run check s = _ at h
    unfold execPacketEnd at h
    split at h
    · obtain rfl := next_injective h
      exact .nothing
    · split at h
      · obtain rfl := next_injective h
        exact .packetEnd _ run check ‹_›
      · cases h
  | scanLine =>
    change execScanLine s = _ at h
    unfold execScanLine at h
    split at h
    · split at h
      · obtain rfl := next_injective h
        exact .scanLine ‹_›
      · cases h
    · obtain rfl := next_injective h
      exact .nothing
  | scanEnd => exact effect_of_guard h fun hover => .scanEnd hover
  | playStampReached => exact effect_of_guard h fun hdue => .enterPlaying hdue
  | codecFrame mic => exact effect_of_guard h fun hrole => .codecFrame mic hrole
  | silenceTimerExpiry => obtain rfl := next_injective h; exact .checkSilence
  | powerEntryExpiry node => exact effect_of_guard h fun hdue => .expireEntry node hdue
  | meterReadingComplete load battery =>
    change execMeterReadingComplete load battery s = _ at h
    unfold execMeterReadingComplete at h
    split at h <;> obtain rfl := next_injective h
    · exact .nothing
    · exact effect_of_answerReading load battery ‹_›
  | meterReadingTimeout load battery =>
    change execMeterReadingTimeout load battery s = _ at h
    unfold execMeterReadingTimeout at h
    split at h
    · obtain rfl := next_injective h
      exact .nothing
    · rename_i r hr
      exact effect_of_guard h fun _ => .completeReading _ (by simp [hr])
  | send r => exact effect_of_guard h fun hready => effect_of_send r hready
  | abort => exact effect_of_guard h fun hready => .abortPort hready
  | ack => exact effect_of_guard h fun hready => .ack hready
  | restartRecord straps => exact effect_of_guard h fun _ => .restart straps
  | portError => exact effect_of_guard h fun hready => .countPortError hready
  | outgoingRecordStart =>
    refine effect_of_guard h fun hguard => ?_
    simp only [Bool.and_eq_true] at hguard
    exact .startOutgoing hguard.1 hguard.2
  | outgoingRecordEnd =>
    change execOutgoingRecordEnd s = _ at h
    unfold execOutgoingRecordEnd at h
    split at h <;> obtain rfl := next_injective h
    · exact .nothing
    · exact .endOutgoing _ ‹_›
  | poseReportRepeatFiring => obtain rfl := next_injective h; exact .fire .poseReport

/-- A step is a microsecond, or an effect of the command at the front of the queue. -/
theorem tick_or_effect_of_step {s t : State} (h : step s = .next t) :
    t = tick s ∨ ∃ i rest, s.pending = i :: rest ∧ Effect i { s with pending := rest } t := by
  unfold step at h
  split at h
  · exact .inl (next_injective h).symm
  · rename_i i rest hpending
    exact .inr ⟨i, rest, hpending, effect_of_exec h⟩

/-- The induction of every invariant: what holds whatever waits in the queue, and what a microsecond and every effect
keep, every step keeps. -/
theorem step_keeps {P : State → Prop} (hqueue : ∀ s q, P s → P { s with pending := q }) (htick : ∀ s, P s → P (tick s))
    (heffect : ∀ i s t, Effect i s t → P s → P t) {s t : State} (hs : P s) (h : step s = .next t) : P t := by
  obtain rfl | ⟨i, rest, -, hi⟩ := tick_or_effect_of_step h
  · exact htick s hs
  · exact heffect i _ t hi (hqueue s rest hs)

/-- The firings of the schedule: what each action and the table's own update keep, a firing keeps (R74 to R76). -/
theorem countFiring_keeps {P : State → Prop} (hact : ∀ a j s, P s → P (act a j s))
    (hsched : ∀ s f, P s → P (s.updSched f)) (source : Fin 8) (j : Nat) (s : State) (h : P s) :
    P (countFiring source j s) := by
  have hcount (s : State) (i : Fin 8) (h : P s) : P (countEntry source j s i) := by
    unfold countEntry
    dsimp only
    split
    · exact h
    · split
      · split
        · exact hact _ _ _ (hsched _ _ h)
        · exact hsched _ _ h
      · exact h
  exact List.foldlRecOn allEntries (countEntry source j) h fun s hs i _ => hcount s i hs

theorem fire_keeps {P : State → Prop} {a : Action} {s : State}
    (hact : s.loader.life ≠ .loading → ∀ a j t, t.loader = s.loader → P t → P (act a j t))
    (hsched : ∀ s f, P s → P (s.updSched f)) (h : P s) : P (fire a s) := by
  unfold fire
  split
  · exact h
  · rename_i i period phase due hdue
    have hlife : s.loader.life ≠ .loading := by
      unfold State.dueEntry at hdue
      split at hdue
      · cases hdue
      · split at hdue
        · rename_i hguard
          exact hguard.1
        · cases hdue
    have hkept : P (fireEntry i period phase due s) ∧ (fireEntry i period phase due s).loader = s.loader :=
      countFiring_keeps (P := fun t => P t ∧ t.loader = s.loader)
        (fun a j t ht => ⟨hact hlife a j t ht.2 ht.1, by simpa using ht.2⟩)
        (fun t f ht => ⟨hsched t f ht.1, ht.2⟩) i _ _
        ⟨hact hlife _ _ _ rfl (hsched _ _ h), by simp⟩
    exact hkept.1

/-! ### The frames of a reply and of a microsecond -/

/-- A reply changes the loader, the slots, the intake and the command unit alone. -/
@[simp] theorem deliver_frame (c : Command) (a : Answer) :
    (deliver c a).pending = a.state.pending ∧ (deliver c a).free = a.state.free ∧
    (deliver c a).pins = a.state.pins ∧ (deliver c a).straps = a.state.straps ∧
    (deliver c a).spine = a.state.spine ∧ (deliver c a).alarms = a.state.alarms ∧
    (deliver c a).time = a.state.time ∧ (deliver c a).sched = a.state.sched ∧
    (deliver c a).motion = a.state.motion ∧ (deliver c a).dials = a.state.dials ∧
    (deliver c a).laneTx = a.state.laneTx ∧ (deliver c a).laneRx = a.state.laneRx ∧
    (deliver c a).store = a.state.store ∧ (deliver c a).scan = a.state.scan ∧
    (deliver c a).audio = a.state.audio ∧ (deliver c a).power = a.state.power ∧
    (deliver c a).port = a.state.port := by
  unfold deliver
  dsimp only
  split <;> simp

/-- READ QUEUE changes the loader, the intake and the command unit alone (R35). -/
@[simp] theorem answerReadQueue_frame (c : Command) (s : State) :
    (answerReadQueue c s).state.pending = s.pending ∧ (answerReadQueue c s).state.free = s.free ∧
    (answerReadQueue c s).state.pins = s.pins ∧ (answerReadQueue c s).state.straps = s.straps ∧
    (answerReadQueue c s).state.spine = s.spine ∧ (answerReadQueue c s).state.slots = s.slots ∧
    (answerReadQueue c s).state.alarms = s.alarms ∧ (answerReadQueue c s).state.time = s.time ∧
    (answerReadQueue c s).state.sched = s.sched ∧ (answerReadQueue c s).state.motion = s.motion ∧
    (answerReadQueue c s).state.dials = s.dials ∧ (answerReadQueue c s).state.laneTx = s.laneTx ∧
    (answerReadQueue c s).state.laneRx = s.laneRx ∧ (answerReadQueue c s).state.store = s.store ∧
    (answerReadQueue c s).state.scan = s.scan ∧ (answerReadQueue c s).state.audio = s.audio ∧
    (answerReadQueue c s).state.power = s.power ∧ (answerReadQueue c s).state.port = s.port := by
  unfold answerReadQueue readPart readSecond readFirst readNothing
  dsimp only
  (repeat' split) <;> simp

/-- A microsecond changes the queue, the free values, the pins, the spine controller, the time unit and the scan unit
alone. -/
@[simp] theorem tick_frame (s : State) :
    (tick s).straps = s.straps ∧ (tick s).loader = s.loader ∧ (tick s).slots = s.slots ∧
    (tick s).intake = s.intake ∧ (tick s).cmd = s.cmd ∧ (tick s).alarms = s.alarms ∧ (tick s).sched = s.sched ∧
    (tick s).motion = s.motion ∧ (tick s).dials = s.dials ∧ (tick s).laneTx = s.laneTx ∧
    (tick s).laneRx = s.laneRx ∧ (tick s).store = s.store ∧ (tick s).audio = s.audio ∧ (tick s).power = s.power ∧
    (tick s).port = s.port := by
  simp only [tick, passMicrosecond_frame]
  exact ⟨rfl, rfl, rfl, rfl, rfl, rfl, rfl, rfl, rfl, rfl, rfl, rfl, rfl, rfl, rfl⟩

end Sys2Proof.Machine
end

