-- ==== Sys2Proof/Proofs/HandsOn.lean ====
section
/-! PROOF. What every unit but the spine controller may do to the transmit slots and the alarm set: load slots (R21) and
hand on events and conditions (R49, R50). One relation says it, and one lemma for each operation that does so. -/

namespace Sys2Proof.Machine

/-! ### Lengths of fields -/

@[simp] theorem beBytes_length (k v : Nat) : (beBytes k v).length = k := by
  induction k with
  | zero => rfl
  | succ k ih => simp [beBytes, ih]

@[simp] theorem beInt_length (k : Nat) (v : Int) : (beInt k v).length = k := beBytes_length k _

@[simp] theorem beBits_length {w : Nat} (k : Nat) (v : BitVec w) : (beBits k v).length = k := beBytes_length k _

@[simp] theorem entries_length (cs : List Counter) : (entries cs).length = 2 * cs.length := by
  simp [entries, List.length_flatMap, Nat.mul_comm]

/-! ### Slots and eyes by name -/

@[simp] theorem get_put (t : Slots) (n m : SlotName) (v : Slot) : (t.put n v).get m = if m = n then v else t.get m := by
  cases n <;> cases m <;> rfl

@[simp] theorem slot_updSlot (s : State) (n m : SlotName) (f : Slot → Slot) :
    (s.updSlot n f).slot m = if m = n then f (s.slot n) else s.slot m := get_put _ _ _ _

@[simp] theorem both_get_put {α : Type} (b : Both α) (e e' : Eye) (v : α) :
    (b.put e v).get e' = if e' = e then v else b.get e' := by
  cases e <;> cases e' <;> rfl

@[simp] theorem get_countRefused (n m : SlotName) (s : State) : (countRefused n s).slots.get m = s.slots.get m := by
  unfold countRefused
  split <;> cases m <;> rfl

/-! ### One load, one event -/

theorem load_sending_iff (sl : Slot) (c : Content) : (sl.load c).state = .sending ↔ sl.state = .sending := by
  unfold Slot.load
  split <;> simp_all

theorem slotBodiesOk_load {sl : Slot} {c : Content} (h : slotBodiesOk sl) (hc : c.body.length ≤ 40) :
    slotBodiesOk (sl.load c) := by
  unfold Slot.load
  split
  · exact ⟨hc, h.2⟩
  · exact ⟨hc, h.2⟩
  · exact ⟨h.1, fun d hd => Option.some.inj hd ▸ hc⟩

/-- R49, R50, R52: marks and present conditions are on latched flags alone. -/
def marksOk (a : Alarms) : Prop := a.unsent &&& ~~~a.latched = 0 ∧ a.present &&& ~~~a.latched = 0

theorem alarmsOk_iff (s : State) : alarmsOk s ↔ marksOk s.alarms := Iff.rfl

/-- A mask lies within another where no bit of it is outside. -/
theorem and_not_eq_zero_iff (m latched : FlagMask) :
    m &&& ~~~latched = 0 ↔ ∀ i (_ : i < 12), m[i] = true → latched[i] = true := by
  refine ⟨fun h i hi hm => ?_, fun h => ?_⟩
  · have hbit : (m &&& ~~~latched)[i] = false := by simp [h]
    simpa [hm] using hbit
  · ext i hi
    have := h i hi
    cases hm : m[i] <;> simp_all

theorem within_or {m latched : FlagMask} (f : FlagMask) (h : m &&& ~~~latched = 0) : m &&& ~~~(latched ||| f) = 0 := by
  simp only [and_not_eq_zero_iff, BitVec.getElem_or, Bool.or_eq_true] at h ⊢
  exact fun i hi hm => .inl (h i hi hm)

theorem or_within_or {m latched : FlagMask} (f : FlagMask) (h : m &&& ~~~latched = 0) :
    (m ||| f) &&& ~~~(latched ||| f) = 0 := by
  simp only [and_not_eq_zero_iff, BitVec.getElem_or, Bool.or_eq_true] at h ⊢
  exact fun i hi hm => hm.imp_left (h i hi)

theorem and_within {m latched : FlagMask} (f : FlagMask) (h : m &&& ~~~latched = 0) :
    (m &&& f) &&& ~~~latched = 0 := by
  simp only [and_not_eq_zero_iff, BitVec.getElem_and, Bool.and_eq_true] at h ⊢
  exact fun i hi hm => h i hi hm.1

/-! ### The relation -/

/-- From `a` to `b` slots have been loaded and events handed on, and nothing else: the slots that are SENDING are the
same, bodies stay short, marks and conditions stay on latched flags, and only a flag of `F` can be newly latched. -/
structure HandsOn (F : Flag → Prop) (a b : Slots × Alarms) : Prop where
  sending : ∀ n, (b.1.get n).state = .sending ↔ (a.1.get n).state = .sending
  bodies : (∀ n, slotBodiesOk (a.1.get n)) → ∀ n, slotBodiesOk (b.1.get n)
  marks : marksOk a.2 → marksOk b.2
  latched : ∀ f, has b.2.latched f = true → has a.2.latched f = true ∨ F f

/-- Slots are loaded and any event may be handed on. -/
def Hands (s t : State) : Prop := HandsOn (fun _ => True) (s.slots, s.alarms) (t.slots, t.alarms)

/-- Slots are loaded and any event but OVERDRAW may be handed on. -/
def HandsCalm (s t : State) : Prop := HandsOn (· ≠ .overdraw) (s.slots, s.alarms) (t.slots, t.alarms)

theorem HandsOn.refl (F : Flag → Prop) (a : Slots × Alarms) : HandsOn F a a :=
  ⟨fun _ => Iff.rfl, id, id, fun _ => .inl⟩

theorem HandsOn.trans {F : Flag → Prop} {a b c : Slots × Alarms} (h : HandsOn F a b) (h' : HandsOn F b c) :
    HandsOn F a c where
  sending n := (h'.sending n).trans (h.sending n)
  bodies := h'.bodies ∘ h.bodies
  marks := h'.marks ∘ h.marks
  latched f hf := (h'.latched f hf).elim (h.latched f) .inr

theorem HandsCalm.refl (s : State) : HandsCalm s s := HandsOn.refl _ _

theorem HandsCalm.trans {s t u : State} (h : HandsCalm s t) (h' : HandsCalm t u) : HandsCalm s u := HandsOn.trans h h'

theorem Hands.trans {s t u : State} (h : Hands s t) (h' : Hands t u) : Hands s u := HandsOn.trans h h'

theorem HandsCalm.hands {s t : State} (h : HandsCalm s t) : Hands s t where
  sending := h.sending
  bodies := h.bodies
  marks := h.marks
  latched _ _ := .inr trivial

/-- An operation that leaves slots and alarms as they were. -/
theorem HandsCalm.of_eq {r s t : State} (h : HandsCalm r s) (hslots : t.slots = s.slots)
    (halarms : t.alarms = s.alarms) :
    HandsCalm r t := by
  unfold HandsCalm
  rw [hslots, halarms]
  exact h

theorem HandsCalm.ite {r t u : State} {b : Prop} [Decidable b] (ht : HandsCalm r t) (hu : HandsCalm r u) :
    HandsCalm r (if b then t else u) := by
  split <;> assumption

theorem HandsCalm.alarmsOk {s t : State} (h : HandsCalm s t) (hs : alarmsOk s) : alarmsOk t := h.marks hs

theorem Hands.alarmsOk {s t : State} (h : Hands s t) (hs : alarmsOk s) : alarmsOk t := h.marks hs

theorem HandsCalm.overdraw {s t : State} (h : HandsCalm s t) (ht : t.isLatched .overdraw) : s.isLatched .overdraw :=
  (h.latched .overdraw ht).resolve_right fun hne => hne rfl

/-! ### Slots and alarms -/

theorem slotBodiesOk_updSlot {n : SlotName} {f : Slot → Slot} {s : State}
    (hf : slotBodiesOk (s.slot n) → slotBodiesOk (f (s.slot n))) (h : ∀ m, slotBodiesOk (s.slot m)) (m : SlotName) :
    slotBodiesOk ((s.updSlot n f).slot m) := by
  rw [slot_updSlot]
  split
  · exact hf (h n)
  · exact h m

/-- A slot that stays SENDING, or not, with bodies that stay short. -/
theorem updSlot_hands {r s : State} {n : SlotName} {f : Slot → Slot}
    (hsending : (f (s.slot n)).state = .sending ↔ (s.slot n).state = .sending)
    (hbodies : slotBodiesOk (s.slot n) → slotBodiesOk (f (s.slot n))) (h : HandsCalm r s) :
    HandsCalm r (s.updSlot n f) := by
  have hstep : HandsCalm s (s.updSlot n f) := by
    refine ⟨fun m => ?_, slotBodiesOk_updSlot hbodies, id, fun _ => .inl⟩
    change ((s.updSlot n f).slot m).state = _ ↔ (s.slot m).state = _
    rw [slot_updSlot]
    split
    · rename_i hm
      rw [hm, hsending]
    · rfl
  exact h.trans hstep

theorem countRefused_hands {r s : State} (n : SlotName) (h : HandsCalm r s) : HandsCalm r (countRefused n s) :=
  h.trans ⟨by simp, by simp, by simp, fun f hf => .inl (by simpa using hf)⟩

theorem loadSlot_hands {r s : State} {n : SlotName} {c : Content} (hc : c.body.length ≤ 40) (h : HandsCalm r s) :
    HandsCalm r (loadSlot n c s) :=
  .ite (countRefused_hands n h) (updSlot_hands (load_sending_iff _ c) (fun h => slotBodiesOk_load h hc) h)

theorem loadAlarm_hands {r s : State} (h : HandsCalm r s) : HandsCalm r (loadAlarm s) :=
  loadSlot_hands (by simp [ownContent, alarmBody]) h

theorem has_or_mask {m : FlagMask} {f g : Flag} (h : has (m ||| f.mask) g = true) : has m g = true ∨ g = f := by
  revert h
  cases f <;> cases g <;> simp [has, Flag.mask, Flag.number]

/-- A flag is latched, and with it marked or its condition present, or not. -/
theorem updAlarms_latches {f : Flag} {F : Flag → Prop} (hf : F f) {a b : Alarms} (slots : Slots)
    (hlatched : b.latched = a.latched ||| f.mask) (hunsent : b.unsent = a.unsent ∨ b.unsent = a.unsent ||| f.mask)
    (hpresent : b.present = a.present ∨ b.present = a.present ||| f.mask) : HandsOn F (slots, a) (slots, b) where
  sending _ := Iff.rfl
  bodies := id
  marks h := by
    have hwithin {m m' : FlagMask} (hm' : m' = m ∨ m' = m ||| f.mask) (hm : m &&& ~~~a.latched = 0) :
        m' &&& ~~~b.latched = 0 := by
      rw [hlatched]
      obtain rfl | rfl := hm'
      · exact within_or _ hm
      · exact or_within_or _ hm
    exact ⟨hwithin hunsent h.1, hwithin hpresent h.2⟩
  latched g hg := by
    rw [hlatched] at hg
    exact (has_or_mask hg).imp_right fun h => by rwa [h]

theorem HandsOn.mono {F G : Flag → Prop} (hFG : ∀ f, F f → G f) {a b : Slots × Alarms} (h : HandsOn F a b) :
    HandsOn G a b := ⟨h.sending, h.bodies, h.marks, fun f hf => (h.latched f hf).imp_right (hFG f)⟩

theorem loadAlarm_handsOn {F : Flag → Prop} (hcalm : ∀ g, g ≠ .overdraw → F g) {a : Slots × Alarms} {s : State}
    (h : HandsOn F a (s.slots, s.alarms)) : HandsOn F a ((loadAlarm s).slots, (loadAlarm s).alarms) :=
  h.trans (.mono hcalm (loadAlarm_hands (.refl s)))

/-- R49: an event handed on latches no flag but its own. -/
theorem latch_handsOn {f : Flag} {F : Flag → Prop} (hf : F f) (hcalm : ∀ g, g ≠ .overdraw → F g) (s : State) :
    HandsOn F (s.slots, s.alarms) ((latch f s).slots, (latch f s).alarms) := by
  cases hl : s.alarms.latched.getLsbD f.number with
  | true => rw [latch_of_latched hl]; exact .refl F _
  | false =>
    cases hm : s.alarms.message.getLsbD f.number with
    | false =>
      rw [latch_of_unlatched_disabled hl hm]
      exact updAlarms_latches hf s.slots rfl (.inl rfl) (.inl rfl)
    | true =>
      rw [latch_of_unlatched_enabled hl hm]
      exact loadAlarm_handsOn hcalm (updAlarms_latches hf s.slots rfl (.inr rfl) (.inl rfl))

theorem latch_hands {r s : State} {f : Flag} (hf : f ≠ .overdraw) (h : HandsCalm r s) : HandsCalm r (latch f s) :=
  h.trans (latch_handsOn (F := (· ≠ .overdraw)) hf (fun _ => id) s)

theorem mask_within {m : FlagMask} {f : Flag} (h : m.getLsbD f.number = true) : f.mask &&& ~~~m = 0 := by
  rw [and_not_eq_zero_iff]
  intro i hi hbit
  rw [← BitVec.getLsbD_eq_getElem hi, getLsbD_mask f hi, decide_eq_true_eq] at hbit
  rwa [← BitVec.getLsbD_eq_getElem hi, hbit]

theorem or_within {m m' latched : FlagMask} (h : m &&& ~~~latched = 0) (h' : m' &&& ~~~latched = 0) :
    (m ||| m') &&& ~~~latched = 0 := by
  simp only [and_not_eq_zero_iff, BitVec.getElem_or, Bool.or_eq_true] at h h' ⊢
  exact fun i hi hm => hm.elim (h i hi) (h' i hi)

/-- R50: a condition that arises latches no flag but its own, and its flag is latched. -/
theorem arise_hands {r s : State} {f : Flag} (hf : f ≠ .overdraw) (h : HandsCalm r s) : HandsCalm r (arise f s) := by
  refine h.trans ?_
  unfold arise
  split
  · exact .refl s
  · generalize hp : (s.updAlarms fun a => { a with present := a.present ||| f.mask }) = p
    cases hl : p.alarms.latched.getLsbD f.number with
    | true =>
      rw [latch_of_latched hl, ← hp]
      rw [← hp] at hl
      exact ⟨fun _ => Iff.rfl, id, fun h => ⟨h.1, or_within h.2 (mask_within hl)⟩, fun _ => .inl⟩
    | false =>
      cases hm : p.alarms.message.getLsbD f.number with
      | false =>
        rw [latch_of_unlatched_disabled hl hm, ← hp]
        exact updAlarms_latches (F := (· ≠ .overdraw)) hf s.slots rfl (.inl rfl) (.inr rfl)
      | true =>
        rw [latch_of_unlatched_enabled hl hm, ← hp]
        exact loadAlarm_hands
          (updAlarms_latches (F := (· ≠ .overdraw)) hf s.slots rfl (.inr rfl) (.inr rfl))

theorem endCondition_hands {r s : State} (f : Flag) (h : HandsCalm r s) : HandsCalm r (endCondition f s) :=
  h.trans ⟨fun _ => Iff.rfl, id, fun h => ⟨h.1, and_within _ h.2⟩, fun _ => .inl⟩

theorem setCondition_hands {r s : State} {f : Flag} (hf : f ≠ .overdraw) (present : Bool) (h : HandsCalm r s) :
    HandsCalm r (setCondition f present s) :=
  .ite (arise_hands hf h) (endCondition_hands f h)

/-! ### Lane receiver and scan -/

theorem mapFault_hands {r s : State} (k : MapFaultKind) (e : Eye) (i : Byte) (t : Tag) (h : HandsCalm r s) :
    HandsCalm r (mapFault k e i t s) := by
  unfold mapFault
  dsimp only
  split
  · exact h
  · exact latch_hands (by decide) h

theorem pixelTake_hands {r s : State} (e : Eye) (i : Nat) (t : Tag) (h : HandsCalm r s) :
    HandsCalm r (pixelTake e i t s) := by
  unfold pixelTake
  split
  · unfold unbufferedTake
    split
    · exact h
    · exact mapFault_hands _ _ _ _ h
    · exact mapFault_hands _ _ _ _ h
  · exact h

theorem loadCredit_hands {r s : State} (h : HandsCalm r s) : HandsCalm r (loadCredit s) := by
  have hload : HandsCalm r (loadSlot .credit (ownContent s 2 0 (creditBody s)) s) :=
    loadSlot_hands (by simp [ownContent, creditBody]) h
  unfold loadCredit
  split
  · exact countRefused_hands .credit h
  · exact hload

theorem recomputeHorizon_hands {r s : State} (e : Eye) (h : HandsCalm r s) : HandsCalm r (recomputeHorizon e s) := by
  unfold recomputeHorizon
  dsimp only
  split
  · exact loadCredit_hands (h.of_eq (by simp) (by simp))
  · exact h.of_eq (by simp) (by simp)

theorem openSlice_hands {r s : State} (e : Eye) (i : Nat) (h : HandsCalm r s) : HandsCalm r (openSlice e i s) := by
  unfold openSlice
  split
  · exact h
  · split
    · exact recomputeHorizon_hands e h
    · exact h

theorem takePacket_hands {r s : State} (e : Eye) (i : Nat) (void : Bool) (t : Tag) (h : HandsCalm r s) :
    HandsCalm r (takePacket e i void t s) := by
  have htake : HandsCalm r (if void then voidTake e i s else pixelTake e i t s) :=
    .ite (h.of_eq (by simp) (by simp)) (pixelTake_hands e i t h)
  exact recomputeHorizon_hands e (htake.of_eq (by simp) (by simp))

theorem placePacket_hands {r s : State} (p : PacketHeader) (h : HandsCalm r s) : HandsCalm r (placePacket p s) := by
  unfold placePacket
  dsimp only
  split
  · refine takePacket_hands _ _ _ _ (.ite h ?_)
    exact recomputeHorizon_hands _ (h.of_eq (by simp) (by simp))
  · exact mapFault_hands _ _ _ _ h

theorem packetHeader_hands {r s : State} (cut : PixelRun) (p : PacketHeader) (h : HandsCalm r s) :
    HandsCalm r (packetHeader cut p s) := by
  have hcut : HandsCalm r (cutArriving cut s) := h.of_eq (by simp) (by simp)
  unfold packetHeader
  dsimp only
  split
  · exact hcut
  · exact placePacket_hands p hcut

theorem openBehind_hands {r s : State} (e : Eye) (k : Nat) (h : HandsCalm r s) : HandsCalm r (openBehind e k s) :=
  openSlice_hands e k (.ite h h)

theorem leaveSlice_hands {r s : State} (e : Eye) (k : Nat) (h : HandsCalm r s) : HandsCalm r (leaveSlice e k s) := by
  have hopen : HandsCalm r (if k = 0 then s else openBehind e (k - 1) s) := .ite h (openBehind_hands e _ h)
  exact hopen.of_eq (by simp [leaveSlice]) (by simp [leaveSlice])

theorem turnSlice_hands {r s : State} (e : Eye) (k : Nat) (h : HandsCalm r s) : HandsCalm r (turnSlice e k s) := by
  have hleave : HandsCalm r (if k = 0 then s else leaveSlice e (k - 1) s) := .ite h (leaveSlice_hands e _ h)
  exact hleave.of_eq (by simp [turnSlice]) (by simp [turnSlice])

theorem scanEyeLine_hands {r s : State} (e : Eye) (y : Nat) (h : HandsCalm r s) : HandsCalm r (scanEyeLine e y s) := by
  have hturn : HandsCalm r (if y % s.store.geometry.S = 0 then turnSlice e (y / s.store.geometry.S) s else s) :=
    .ite (turnSlice_hands e _ h) h
  exact hturn.of_eq (by simp [scanEyeLine]) (by simp [scanEyeLine])

theorem scanLine_hands {r s : State} (y : Nat) (h : HandsCalm r s) : HandsCalm r (scanLine y s) :=
  (scanEyeLine_hands .right y (scanEyeLine_hands .left y h)).of_eq (by simp [scanLine]) (by simp [scanLine])

theorem endEye_hands {r s : State} (e : Eye) (h : HandsCalm r s) : HandsCalm r (endEye e s) := by
  have hfirst : HandsCalm r (takeOverMark e (openBehind e (s.store.geometry.slices - 2) s)) :=
    (openBehind_hands e (s.store.geometry.slices - 2) h).of_eq (by simp) (by simp)
  exact (openBehind_hands e (s.store.geometry.slices - 1) hfirst).of_eq (by simp [endEye]) (by simp [endEye])

theorem scanEnd_hands {r s : State} (h : HandsCalm r s) : HandsCalm r (scanEnd s) :=
  (endEye_hands .right (endEye_hands .left h)).of_eq (by simp [scanEnd]) (by simp [scanEnd])

/-! ### Lane level -/

theorem settleLane_hands {r s : State} (wasUp : Bool) (run : PixelRun) (h : HandsCalm r s) :
    HandsCalm r (settleLane wasUp run s) :=
  setCondition_hands (by decide) _ (.ite (h.of_eq (by simp) (by simp)) h)

theorem setLaneSignal_hands {r s : State} (v : Bool) (run : PixelRun) (h : HandsCalm r s) :
    HandsCalm r (setLaneSignal v run s) :=
  .ite h (settleLane_hands _ run h)

/-! ### Power -/

theorem loadPower_hands {r s : State} (h : HandsCalm r s) : HandsCalm r (loadPower s) :=
  .ite (loadSlot_hands (by simp [ownContent, powerBody]) h) h

theorem setStep_hands {r s : State} (v : Fin 4) (h : HandsCalm r s) : HandsCalm r (setStep v s) :=
  .ite h (settleLane_hands _ noPixels h)

theorem fallToTarget_hands {r s : State} (h : HandsCalm r s) : HandsCalm r (fallToTarget s) :=
  .ite (setStep_hands _ h) h

theorem recompute_hands {r s : State} (h : HandsCalm r s) : HandsCalm r (recompute s) :=
  fallToTarget_hands (h.of_eq (by simp) (by simp))

theorem recomputeAndAnnounce_hands {r s : State} (h : HandsCalm r s) : HandsCalm r (recomputeAndAnnounce s) :=
  .ite (recompute_hands h) (loadPower_hands (recompute_hands h))

theorem takePower_hands {r s : State} (rank : Rank) (body : List Byte) (h : HandsCalm r s) :
    HandsCalm r (takePower rank body s) :=
  .ite h (recomputeAndAnnounce_hands h)

theorem expireEntry_hands {r s : State} (n : Node) (h : HandsCalm r s) : HandsCalm r (expireEntry n s) :=
  recomputeAndAnnounce_hands h

theorem batteryMarks_hands {r s : State} (h : HandsCalm r s) : HandsCalm r (batteryMarks s) :=
  .ite (setCondition_hands (by decide) _ h) h

theorem redActs_hands (s : State) : Hands s (redActs s) := by
  have hstep : HandsCalm s (setStep 0 s) := setStep_hands 0 (.refl s)
  exact hstep.hands.trans (latch_handsOn (f := .overdraw) trivial (fun _ _ => trivial) ((setStep 0 s).updPower _))

theorem yellowActs_hands {r s : State} (h : HandsCalm r s) : HandsCalm r (yellowActs s) :=
  .ite h (.ite h (setStep_hands _ h))

theorem overdrawTests_hands (s : State) : Hands s (overdrawTests s) := by
  unfold overdrawTests
  dsimp only
  split
  · exact redActs_hands s
  · split
    · exact (yellowActs_hands (.refl s)).hands
    · exact (HandsCalm.refl s).hands

theorem riseStep_hands {r s : State} (h : HandsCalm r s) : HandsCalm r (riseStep s) :=
  .ite (.ite h (setStep_hands _ h)) h

theorem settleStep_hands {r s : State} (fell : Bool) (h : HandsCalm r s) : HandsCalm r (settleStep fell s) := by
  have hfall : HandsCalm r (fallToTarget s) := fallToTarget_hands h
  exact .ite (setStep_hands 0 hfall) (.ite hfall (riseStep_hands hfall))

/-- The state of a reading in which the overdraw tests are made (R166, steps 1 to 4). -/
def beforeTests (s : State) : State := recompute ((setOwnEntry (batteryMarks s)).updPower (·.countHoldover))

theorem readingWork_eq (loadCame : Bool) (s : State) :
    readingWork loadCame s =
      loadPower (settleStep (loadCame && yellowLowers (beforeTests s))
        (if loadCame then overdrawTests (beforeTests s) else beforeTests s)) := rfl

theorem beforeTests_hands (s : State) : HandsCalm s (beforeTests s) := recompute_hands (batteryMarks_hands (.refl s))

theorem readingWork_hands (loadCame : Bool) (s : State) : Hands s (readingWork loadCame s) := by
  have htests : Hands s (if loadCame then overdrawTests (beforeTests s) else beforeTests s) := by
    split
    · exact (beforeTests_hands s).hands.trans (overdrawTests_hands _)
    · exact (beforeTests_hands s).hands
  exact htests.trans (loadPower_hands (settleStep_hands _ (.refl _))).hands

theorem completeReading_hands (r : MeterReading) (s : State) : Hands s (completeReading r s) :=
  readingWork_hands _ (takeReading _ _ s)

/-! ### Audio -/

theorem placeBlock_hands {r s : State} (b : AudioBlock) (h : HandsCalm r s) : HandsCalm r (placeBlock b s) := by
  unfold placeBlock
  dsimp only
  split
  · exact h
  split
  · exact h
  split
  · exact h
  · exact latch_hands (by decide) h

theorem streamBlock_hands {r s : State} (b : AudioBlock) (h : HandsCalm r s) : HandsCalm r (streamBlock b s) := by
  unfold streamBlock
  split
  · exact h
  · exact .ite h (placeBlock_hands b h)
  · exact placeBlock_hands b h
  · exact placeBlock_hands b h
  · exact h

theorem takeAudio_hands {r s : State} (rank : Rank) (body : List Byte) (h : HandsCalm r s) :
    HandsCalm r (takeAudio rank body s) := by
  unfold takeAudio takeBlock
  dsimp only
  split
  · exact .ite h (.ite (streamBlock_hands _ h) h)
  · exact h

theorem giveFrame_hands {r s : State} (h : HandsCalm r s) : HandsCalm r (giveFrame s).2 := by
  unfold giveFrame
  dsimp only
  split
  · exact h
  · exact h
  · exact h
  · split
    · exact latch_hands (by decide) h
    · exact h
  · split <;> exact h

theorem playFrame_hands {r s : State} (h : HandsCalm r s) : HandsCalm r (playFrame s) :=
  (giveFrame_hands h).of_eq (by simp [playFrame]) (by simp [playFrame])

theorem loadCapture_hands {r s : State} {body : List Byte} (hbody : body.length ≤ 40) (h : HandsCalm r s) :
    HandsCalm r (loadCapture body s) := by
  have hload : HandsCalm r (loadSlot .audio (ownContent s 4 1 body) s) := loadSlot_hands hbody h
  exact .ite (latch_hands (by decide) hload) hload

theorem captureBody_length (sequence : Byte) (k : CaptureBuffer) :
    (captureBody sequence k).length = 5 + 2 * k.samples.length := by
  simp only [captureBody, List.length_append, List.length_cons, List.length_nil, beBits_length, List.length_flatMap,
    List.map_const', List.sum_replicate, smul_eq_mul]
  omega

theorem samples_length_add (k : CaptureBuffer) (sample : BitVec 16) (us : Nat) :
    (k.add sample us).samples.length = k.samples.length + 1 := by simp [CaptureBuffer.add]

theorem captureSample_hands {r s : State} (sample : BitVec 16) (ha : s.audio.capture.a.samples.length < 16)
    (hb : s.audio.capture.b.samples.length < 16) (h : HandsCalm r s) : HandsCalm r (captureSample sample s) := by
  have hbody (sequence : Byte) {k : CaptureBuffer} (hk : k.samples.length < 16) :
      (captureBody sequence (k.add sample s.agreedUs)).length ≤ 40 := by
    rw [captureBody_length, samples_length_add]
    omega
  refine .ite (.ite ?_ (.ite ?_ h)) h
  · exact .ite h (loadCapture_hands (hbody _ ha) h)
  · exact .ite h (loadCapture_hands (hbody _ hb) h)

/-- R157: a capture block that is lost hands AUDIO on; no other alarm comes of a sample. -/
theorem captureSample_alarms (sample : BitVec 16) (s : State) :
    (captureSample sample s).alarms = s.alarms ∨
      ∃ u : State, u.alarms = s.alarms ∧ (captureSample sample s).alarms = (latch .audio u).alarms := by
  have hload (body : List Byte) (s : State) : (loadCapture body s).alarms = s.alarms ∨
      ∃ u : State, u.alarms = s.alarms ∧ (loadCapture body s).alarms = (latch .audio u).alarms := by
    unfold loadCapture
    dsimp only
    split
    · exact .inr ⟨_, by simp, rfl⟩
    · exact .inl (by simp)
  unfold captureSample sampleIntoA sampleIntoB
  dsimp only
  split
  · split
    · split
      · exact .inl rfl
      · exact hload _ (s.updCapture _)
    · split
      · split
        · exact .inl rfl
        · exact hload _ (s.updCapture _)
      · exact .inl rfl
  · exact .inl rfl

theorem returnToService_hands {r s : State} (h : HandsCalm r s) : HandsCalm r (returnToService s) := by
  have hload : HandsCalm r (if s.alarms.unsent = 0 then s else loadAlarm s) := .ite h (loadAlarm_hands h)
  exact .ite hload hload

/-! ### Time -/

theorem correct_hands {r s : State} (e : Int) (h : HandsCalm r s) : HandsCalm r (correct e s) :=
  .ite (.ite (latch_hands (by decide) h) h) h

theorem settleTimelost_hands {r s : State} (before : Option Node) (h : HandsCalm r s) :
    HandsCalm r (settleTimelost before s) := by
  unfold settleTimelost
  split
  · exact endCondition_hands _ h
  · exact .ite (arise_hands (by decide) h) h

theorem rechoose_hands {r s : State} (h : HandsCalm r s) : HandsCalm r (rechoose s) :=
  settleTimelost_hands _ (h.of_eq (by simp) (by simp))

theorem enterRunning_hands {r s : State} (h : HandsCalm r s) : HandsCalm r (enterRunning s) := by
  have hrechosen : HandsCalm r (rechooseAtEntry (s.updLoader fun l => { l with life := .running })) :=
    settleTimelost_hands none (h.of_eq (by simp) (by simp))
  exact setCondition_hands (by decide) _ (returnToService_hands hrechosen)

theorem leaveListening_hands {r s : State} (h : HandsCalm r s) : HandsCalm r (leaveListening s) :=
  .ite h (enterRunning_hands h)

theorem recordBeacon_hands {r s : State} (b : Beacon) (start : Int) (h : HandsCalm r s) :
    HandsCalm r (recordBeacon b start s) :=
  have hrechosen := rechoose_hands (s := s.updTime _) h
  .ite hrechosen hrechosen

theorem takeBeacon_hands {r s : State} (b : Beacon) (start : Int) (h : HandsCalm r s) :
    HandsCalm r (takeBeacon b start s) := by
  have hcounted (paired : Bool) : HandsCalm r (countBeacon paired s) := h
  unfold takeBeacon
  dsimp only
  split
  · exact recordBeacon_hands b _ (hcounted _)
  · have hrecorded {e : Int} {start : Int} {paired : Bool} :
        HandsCalm r (recordBeacon b start (correct e (countBeacon paired s))) :=
      recordBeacon_hands b start (correct_hands e (hcounted paired))
    exact .ite (leaveListening_hands hrecorded) hrecorded

theorem takeTime_hands {r s : State} (rank : Rank) (body : List Byte) (start : Int) (h : HandsCalm r s) :
    HandsCalm r (takeTime rank body start s) :=
  .ite h (.ite h (takeBeacon_hands _ _ h))

theorem expireRecord_hands {r s : State} (o : Node) (h : HandsCalm r s) : HandsCalm r (expireRecord o s) :=
  rechoose_hands h

theorem fireBeacon_hands {r s : State} (h : HandsCalm r s) : HandsCalm r (fireBeacon s) :=
  .ite (.ite h (loadSlot_hands (by simp [ownContent, beaconBody]) h)) h

/-! ### Motion and schedule -/

theorem firePoseReport_hands {r s : State} (h : HandsCalm r s) : HandsCalm r (firePoseReport s) := by
  unfold firePoseReport
  split
  · exact h
  · exact .ite (loadSlot_hands (by simp [ownContent, poseBody]) h) h

theorem completeFailed_hands {r s : State} (stamp : Nat) (h : HandsCalm r s) : HandsCalm r (completeFailed stamp s) :=
  .ite (arise_hands (by decide) h) h

theorem completeRead_hands {r s : State} (ready : Bool) (rates accels : Triple (BitVec 16)) (read : SensorRead)
    (h : HandsCalm r s) : HandsCalm r (completeRead ready rates accels read s) :=
  .ite (completeFailed_hands _ h) (.ite (endCondition_hands _ h) (completeFailed_hands _ h))

theorem act_hands {r s : State} (a : Action) (j : Nat) (h : HandsCalm r s) : HandsCalm r (act a j s) := by
  cases a with
  | none => exact h
  | beacon => exact fireBeacon_hands h
  | frame =>
    unfold act fireFrame
    dsimp only
    split
    · exact loadCredit_hands h
    · exact h
    · exact h
  | sample => exact h
  | poseReport => exact firePoseReport_hands h
  | powerReport => exact h
  | portStatus => exact h

theorem fire_hands {r s : State} (a : Action) (h : HandsCalm r s) : HandsCalm r (fire a s) :=
  fire_keeps (P := HandsCalm r) (fun _ a j _ _ h => act_hands a j h) (fun _ _ h => h) h

/-! ### Intake and standing -/

theorem handTo_hands {r s : State} (u : TakingUnit) (m : Arrival) (h : HandsCalm r s) : HandsCalm r (handTo u m s) := by
  cases u with
  | time => exact takeTime_hands _ _ _ h
  | lane => exact h.of_eq (by simp [handTo]) (by simp [handTo])
  | audio => exact takeAudio_hands _ _ h
  | power => exact takePower_hands _ _ h
  | command => exact h.of_eq (by simp [handTo]) (by simp [handTo])

theorem routeMessage_hands {r s : State} (m : Arrival) (h : HandsCalm r s) : HandsCalm r (routeMessage m s) := by
  unfold routeMessage deliverTo
  dsimp only
  split
  · exact h
  · exact handTo_hands _ m h
  · exact h
  · exact handTo_hands _ m h
  · exact h
  · exact h

theorem settleStanding_hands {r s : State} (h : HandsCalm r s) : HandsCalm r (settleStanding s) := by
  unfold settleStanding
  dsimp only
  split
  · exact h
  · exact .ite h (latch_hands (by decide) h)
  · exact h
  · exact h

theorem quietRun_hands {r s : State} (driven : Bool) (h : HandsCalm r s) : HandsCalm r (quietRun driven s) :=
  .ite (.ite (.ite (returnToService_hands h) h) h) h

theorem latchLoaded_hands {r s : State} (l : Loaded) (h : HandsCalm r s) : HandsCalm r (latchLoaded l s) :=
  have hprofile : HandsCalm r (if l.profile then latch .profile s else s) := .ite (latch_hands (by decide) h) h
  .ite (latch_hands (by decide) hprofile) hprofile

theorem spineReply_hands {r s : State} (c : Command) {body : List Byte} (hbody : body.length ≤ 40) (h : HandsCalm r s) :
    HandsCalm r (spineReply c body s) := by
  unfold spineReply
  split
  · exact h.of_eq (by simp) (by simp)
  · exact loadSlot_hands hbody h

end Sys2Proof.Machine
end

