-- ==== Sys2Proof/Proofs/AlarmsKept.lean ====
section
/-! PROOF. Every step keeps unsent marks and present conditions on latched flags (R49, R50, R52). -/

namespace Sys2Proof.Machine

/-! ### Marks and conditions -/

theorem alarmsOk_of_eq {s t : State} (hs : alarmsOk s) (h : t.alarms = s.alarms) : alarmsOk t := by
  rw [alarmsOk_iff, h]
  exact hs

theorem alarmsOk_of_marks {s t : State} (hs : alarmsOk s) (hlatched : t.alarms.latched = s.alarms.latched)
    (hunsent : t.alarms.unsent = s.alarms.unsent) (hpresent : t.alarms.present = s.alarms.present) : alarmsOk t := by
  unfold alarmsOk
  rw [hlatched, hunsent, hpresent]
  exact hs

theorem alarmsOk_powerOn (straps : Straps) (pins : Pins) (pending : List Instr) (free : Nat) :
    alarmsOk (State.powerOn straps pins pending free) := by
  exact ⟨BitVec.zero_and, BitVec.zero_and⟩

/-- R56: marks that are taken away leave the others on latched flags. -/
theorem alarmSent_keeps_alarmsOk (body : List Byte) {s : State} (hs : alarmsOk s) : alarmsOk (alarmSent body s) :=
  ⟨and_within _ hs.1, hs.2⟩

theorem slotSent_keeps_alarmsOk (x : Transmission) (attempts : BitVec 8) {s : State} (hs : alarmsOk s) :
    alarmsOk (slotSent x attempts s) := by
  unfold slotSent
  split
  · exact alarmSent_keeps_alarmsOk x.body hs
  all_goals exact alarmsOk_of_eq hs (by simp [beaconSent])

/-- R52: what CLEAR ALARM unlatches loses its mark, and no condition of it is present. -/
theorem cleared_marksOk (a : Alarms) (mask : FlagMask) (h : marksOk a) : marksOk (a.cleared mask) := by
  obtain ⟨hunsent, hpresent⟩ := h
  simp only [marksOk, and_not_eq_zero_iff] at hunsent hpresent ⊢
  refine ⟨fun i hi hm => ?_, fun i hi hm => ?_⟩
  · simp only [Alarms.cleared, BitVec.getElem_and, Bool.and_eq_true] at hm ⊢
    exact ⟨hunsent i hi hm.1, hm.2⟩
  · simp only [Alarms.cleared, clearable, BitVec.getElem_and, BitVec.getElem_not, Bool.and_eq_true] at hm ⊢
    exact ⟨hpresent i hi hm, by simp [hm]⟩

theorem carried_keeps_alarmsOk {c : Command} {s : State} {a : Answer} (ha : Carried c s a) (hs : alarmsOk s) :
    alarmsOk a.state := by
  cases ha with
  | clearAlarm => exact cleared_marksOk _ _ hs
  | readQueue => exact alarmsOk_of_eq hs (by simp)
  | status => unfold answerStatus; dsimp only; split <;> exact hs
  | clearMapFault => unfold answerClearMapFault; split <;> exact hs
  | capture => exact alarmsOk_of_eq hs (by simp [answerCapture])
  | _ => exact hs

theorem enterCut_keeps_alarmsOk {s : State} (hs : alarmsOk s) : alarmsOk (enterCut s) := by
  have hcleared : alarmsOk (clearSlots (s.updSpine fun p =>
      { p.ended true with standing := .cut, tfc := 0, sfc := 64 })) :=
    alarmsOk_of_eq hs (by simp)
  exact alarmsOk_of_eq ((latch_hands (f := .cut) (by decide) (.refl _)).alarmsOk hcleared) (by simp [enterCut])

theorem failSend_keeps_alarmsOk (x : Transmission) (weight : Nat) {s : State} (hs : alarmsOk s) :
    alarmsOk (failSend x weight s) := by
  have hsettled : alarmsOk (settleStanding (s.updSpine fun p => { p.ended true with sfc := p.sfc + weight })) :=
    (settleStanding_hands (.refl (State.updSpine _ _))).alarmsOk hs
  exact alarmsOk_of_eq hsettled (by simp [failSend])

theorem sendEnd_keeps_alarmsOk (x : Transmission) {s : State} (hs : alarmsOk s) : alarmsOk (sendEnd x s) := by
  have hsent : alarmsOk (slotSent x (s.slot x.slot).attempts ((s.updSlot x.slot (·.finish)).updSpine (·.ended true))) :=
    slotSent_keeps_alarmsOk x _ hs
  have hsettled := (settleStanding_hands (.refl (State.updSpine _ fun p => { p with sfc := p.sfc - 1 }))).alarmsOk hsent
  unfold sendEnd
  dsimp only
  split
  · exact (routeMessage_hands _ (.refl _)).alarmsOk hsettled
  · exact hsettled

theorem withdraw_keeps_alarmsOk {s : State} (hs : alarmsOk s) : alarmsOk (withdraw s) := by
  unfold withdraw
  dsimp only
  exact (setCondition_hands (by decide) _ (.refl _)).alarmsOk (alarmsOk_of_eq hs (by simp))

theorem messageTaken_keeps_alarmsOk (m : Received) {s : State} (hs : alarmsOk s) : alarmsOk (messageTaken m s) := by
  have hsettled : alarmsOk (settleStanding (s.updSpine fun p =>
      { p.ended false with tfc := goodReceipt p.tfc, drive := .echo })) :=
    (settleStanding_hands (.refl (State.updSpine _ _))).alarmsOk hs
  unfold messageTaken
  dsimp only
  split
  · unfold duplicateNode
    dsimp only
    have harisen := (arise_hands (f := .dupnode) (by decide) (.refl (State.updSpine _ fun p =>
      { p with duplicates := bump p.duplicates }))).alarmsOk hsettled
    split
    · exact withdraw_keeps_alarmsOk harisen
    · exact harisen
  · exact (routeMessage_hands _ (.refl _)).alarmsOk hsettled

theorem install_keeps_alarmsOk (l : Loaded) {s : State} (hs : alarmsOk s) : alarmsOk (install l s) := by
  have hsettings : alarmsOk (installSettings l.settings s) := by
    unfold installSettings
    exact alarmsOk_of_marks hs (by simp) (by simp) (by simp)
  exact alarmsOk_of_eq ((latchLoaded_hands l (.refl _)).alarmsOk hsettings) (by simp [install])

theorem effect_keeps_alarmsOk {i : Instr} {s t : State} (h : Effect i s t) (hs : alarmsOk s) : alarmsOk t := by
  cases h with
  | nothing => exact hs
  | powerOn straps => exact alarmsOk_powerOn ..
  | install straps image => exact install_keeps_alarmsOk _ hs
  | restart straps => exact alarmsOk_powerOn straps s.pins s.pending s.free
  | quietRun driven => exact (quietRun_hands driven (.refl s)).alarmsOk hs
  | sendError k x =>
    unfold sendError
    dsimp only
    split
    · exact enterCut_keeps_alarmsOk hs
    · exact failSend_keeps_alarmsOk x _ hs
  | receiveError k => exact (settleStanding_hands (.refl (State.updSpine _ _))).alarmsOk hs
  | messageTaken m => exact messageTaken_keeps_alarmsOk m hs
  | sendEnd x => exact sendEnd_keeps_alarmsOk x hs
  | answer c rest a _ _ ha => exact alarmsOk_of_eq (carried_keeps_alarmsOk ha hs) (by simp)
  | fire a => exact (fire_hands a (.refl s)).alarmsOk hs
  | expireRecord o => exact (expireRecord_hands o (.refl s)).alarmsOk hs
  | leaveListening => exact (leaveListening_hands (.refl (State.updTime _ _))).alarmsOk hs
  | completeRead ready rates accels r => exact (completeRead_hands ready rates accels r (.refl s)).alarmsOk hs
  | setLaneSignal v run => exact (setLaneSignal_hands v run (.refl s)).alarmsOk hs
  | packetHeader cut p => exact (packetHeader_hands cut p (.refl s)).alarmsOk hs
  | scanLine => exact (scanLine_hands _ (.refl s)).alarmsOk hs
  | scanEnd => exact (scanEnd_hands (.refl s)).alarmsOk hs
  | expireEntry n => exact (expireEntry_hands n (.refl s)).alarmsOk hs
  | completeReading r => exact (completeReading_hands r s).alarmsOk hs
  | codecFrame mic =>
    have hplayed := (playFrame_hands (.refl s)).alarmsOk hs
    obtain heq | ⟨u, hu, heq⟩ := captureSample_alarms mic (playFrame s)
    · exact alarmsOk_of_eq hplayed heq
    · exact alarmsOk_of_eq ((latch_hands (f := .audio) (by decide) (.refl u)).alarmsOk (alarmsOk_of_eq hplayed hu)) heq
  | _ => exact alarmsOk_of_eq hs (by simp)

/-- Settles O53: an event handed on latches its flag before it marks it, and what unlatches a flag takes its mark. -/
theorem stepKeepsMarksOnLatchedFlags : Obligations.StepKeepsMarksOnLatchedFlags := by
  unfold Obligations.StepKeepsMarksOnLatchedFlags
  intro s t hs h
  refine step_keeps (P := alarmsOk) (fun _ _ h => h) (fun s hs => ?_) (fun _ _ _ h => effect_keeps_alarmsOk h) hs h
  exact alarmsOk_of_eq hs (by simp)

end Sys2Proof.Machine
end

