-- ==== Sys2Proof/Proofs/ProfileRanges.lean ====
section
/-! PROOF. The loader's checks leave settings in their ranges (R73, R92, R113, R117, R161), and what an
installation makes of the blocks that take them. -/

namespace Sys2Proof.Machine

/-! ### Clamps -/

theorem clampNat_bounds {lo hi : Nat} (h : lo ≤ hi) (v : Nat) : lo ≤ clampNat v lo hi ∧ clampNat v lo hi ≤ hi := by
  unfold clampNat
  split
  · omega
  · split <;> omega

theorem clampInt_bounds {lo hi : Int} (h : lo ≤ hi) (v : Int) : lo ≤ clampInt v lo hi ∧ clampInt v lo hi ≤ hi := by
  unfold clampInt
  split
  · omega
  · split <;> omega

theorem clampNat_of_mem {v lo hi : Nat} (h : lo ≤ v) (h' : v ≤ hi) : clampNat v lo hi = v := by
  unfold clampNat
  rw [if_neg (by omega), if_neg (by omega)]

theorem clampInt_of_mem {v lo hi : Int} (h : lo ≤ v) (h' : v ≤ hi) : clampInt v lo hi = v := by
  unfold clampInt
  rw [if_neg (by omega), if_neg (by omega)]

/-! ### Geometry (R113) -/

theorem checkLines_cases (s : Nat) : checkLines s = 8 ∨ checkLines s = 16 ∨ checkLines s = 32 := by
  unfold checkLines
  split
  · assumption
  · exact .inr (.inl rfl)

/-- A height that is checked is a multiple of 8 × S in its range. -/
theorem checkHeight_good {s : Nat} (hs : s = 8 ∨ s = 16 ∨ s = 32) (h : Nat) :
    checkHeight s h % (8 * s) = 0 ∧ 8 * s ≤ checkHeight s h ∧ checkHeight s h ≤ 2048 ∧ checkHeight s h ≤ 128 * s := by
  have hbounds := clampNat_bounds (lo := 8 * s) (hi := min 2048 (128 * s)) (by omega) (h / (8 * s) * (8 * s))
  refine ⟨?_, hbounds.1, by unfold checkHeight; omega, by unfold checkHeight; omega⟩
  unfold checkHeight clampNat
  obtain rfl | rfl | rfl := hs <;> split <;> (try split) <;> omega

theorem checkGeometry_good (g : Geometry) : Stated.geometryGood (checkGeometry g) := by
  have hS := checkLines_cases g.S
  obtain ⟨hmod, hlow, hhigh, hlines⟩ := checkHeight_good hS g.H
  obtain ⟨hW, hW'⟩ := clampNat_bounds (lo := 64) (hi := 2048) (by omega) g.W
  exact ⟨hS, hmod, hlow, hhigh, hlines, hW, hW'⟩

/-! ### Band maps (R117) -/

/-- Two bands that do not share a buffer, if both are LIVE. -/
def bandsApart (a b : Band) : Prop := a.access = .live → b.access = .live → runsMeet a b = false

/-- What R117 leaves of sixteen descriptors. -/
def mapsOk (m : Nat) (bands : Both (Vector Band 8)) : Prop :=
  (∀ b ∈ bands.left.toList ++ bands.right.toList, runOk m b) ∧
    (bands.left.toList ++ bands.right.toList).Pairwise bandsApart

theorem bandsOk_iff (s : State) : bandsOk s ↔ mapsOk s.store.geometry.bandSlices s.store.bands := Iff.rfl

theorem runOk_off (m : Nat) (b : Band) : runOk m b.off := fun h => nomatch h

theorem bandsApart_off (a b : Band) : bandsApart a b.off := fun _ h => nomatch h

theorem checkRun_runOk (m : Nat) (b : Band) : runOk m (checkRun m b) := by
  unfold checkRun
  split
  · split
    · exact runOk_off m b
    · exact fun _ => ⟨by dsimp only; omega, Nat.min_le_right ..⟩
  · exact fun h => absurd h ‹_›

/-- Pass 3 makes of a band the band itself or an ABSENT one, apart from every band before it. -/
theorem checkOverlap_cons (before rest : List Band) (b : Band) :
    ∃ b', (b' = b ∨ b' = b.off) ∧ (∀ a ∈ before, bandsApart a b') ∧
      checkOverlap before (b :: rest) = b' :: checkOverlap (before ++ [b']) rest := by
  by_cases hmeets : b.access = .live ∧ before.any (fun a => a.access == .live && runsMeet a b)
  · exact ⟨b.off, .inr rfl, fun a _ => bandsApart_off a b, by simp only [checkOverlap, if_pos hmeets]⟩
  · refine ⟨b, .inl rfl, fun a ha hlive hlive' => ?_, by simp only [checkOverlap, if_neg hmeets]⟩
    by_contra hab
    exact hmeets ⟨hlive', List.any_eq_true.mpr ⟨a, ha, by simpa [hlive] using hab⟩⟩

theorem checkOverlap_length (before bs : List Band) : (checkOverlap before bs).length = bs.length := by
  induction bs generalizing before with
  | nil => rfl
  | cons b rest ih => simp [checkOverlap, ih]

theorem checkOverlap_runOk {m : Nat} {bs : List Band} (h : ∀ b ∈ bs, runOk m b) (before : List Band) :
    ∀ b ∈ checkOverlap before bs, runOk m b := by
  induction bs generalizing before with
  | nil => exact fun _ hb => nomatch hb
  | cons b rest ih =>
    obtain ⟨b', hb', -, heq⟩ := checkOverlap_cons before rest b
    rw [heq, List.forall_mem_cons]
    refine ⟨?_, ih (fun c hc => h c (List.mem_cons_of_mem _ hc)) _⟩
    obtain rfl | rfl := hb'
    · exact h _ List.mem_cons_self
    · exact runOk_off m b

theorem checkOverlap_pairwise {before : List Band} (h : before.Pairwise bandsApart) (bs : List Band) :
    (before ++ checkOverlap before bs).Pairwise bandsApart := by
  induction bs generalizing before with
  | nil => simpa [checkOverlap] using h
  | cons b rest ih =>
    obtain ⟨b', -, hapart, heq⟩ := checkOverlap_cons before rest b
    rw [heq, List.append_cons]
    refine ih (List.pairwise_append.mpr ⟨h, List.pairwise_singleton .., fun a ha c hc => ?_⟩)
    rw [List.mem_singleton.mp hc]
    exact hapart a ha

/-- The sixteen descriptors of two maps cut from a list are the list. -/
theorem bandAt_append {bs : List Band} (h : bs.length = 16) :
    (Vector.ofFn fun i : Fin 8 => bandAt bs i.val).toList ++
      (Vector.ofFn fun i : Fin 8 => bandAt bs (8 + i.val)).toList = bs := by
  apply List.ext_getElem
  · simp [h]
  · intro i hi hi'
    simp only [List.getElem_append, Vector.length_toList, Vector.getElem_toList, Vector.getElem_ofFn, bandAt]
    split
    · exact List.getD_eq_getElem _ _ hi'
    · have hsum : 8 + (i - 8) = i := by omega
      simp only [hsum]
      exact List.getD_eq_getElem _ _ hi'

theorem toList_checkBands (m : Nat) (bands : Both (Vector Band 8)) :
    (checkBands m bands).left.toList ++ (checkBands m bands).right.toList =
      checkOverlap [] ((bands.left.toList ++ bands.right.toList).map (checkRun m)) :=
  bandAt_append (by simp [checkOverlap_length])

theorem checkBands_ok (m : Nat) (bands : Both (Vector Band 8)) : mapsOk m (checkBands m bands) := by
  unfold mapsOk
  rw [toList_checkBands]
  refine ⟨checkOverlap_runOk (fun b hb => ?_) [], checkOverlap_pairwise .nil _⟩
  obtain ⟨c, -, rfl⟩ := List.mem_map.mp hb
  exact checkRun_runOk m c

/-! ### Dials and power (R92, R161) -/

theorem checkDial_good {default : DialRange} (h : default.min ≤ default.max) (d : DialRange) :
    (checkDial default d).min ≤ (checkDial default d).start ∧
      (checkDial default d).start ≤ (checkDial default d).max := by
  unfold checkDial
  dsimp only
  split
  · exact clampInt_bounds h _
  · exact clampInt_bounds (by omega) _

theorem checkPower_good (role : Role) (p : PowerSettings) : Stated.figuresGood role (checkPower role p) := by
  have hrole : role = .supply → (checkPower role p).empty ≤ (checkPower role p).low ∧
      (checkPower role p).availableLow ≤ (checkPower role p).availableFull := by
    rintro rfl
    exact ⟨Nat.min_le_right .., Nat.min_le_right ..⟩
  refine ⟨Nat.le_max_right .., Nat.le_max_right .., Nat.le_max_right .., Nat.le_max_right .., Nat.min_le_right .., ?_,
    hrole⟩
  change (if role = .supply then min (min p.empty 100) (min p.low 100) else min p.empty 100) ≤ 100
  split <;> omega

/-! ### Everything the loader obtains -/

/-- The ranges that a loaded profile has and that the invariants of a station rest on. -/
structure LoadedOk (role : Role) (v : Settings) : Prop where
  geometry : Stated.geometryGood v.geometry
  maps : mapsOk v.geometry.bandSlices v.bands
  e0 : v.e0.min ≤ v.e0.start ∧ v.e0.start ≤ v.e0.max
  e1 : v.e1.min ≤ v.e1.start ∧ v.e1.start ≤ v.e1.max
  power : Stated.figuresGood role v.power
  strain : 16 ≤ v.strain ∧ v.strain ≤ 127
  stepLimit : 10 ≤ v.stepLimit ∧ v.stepLimit ≤ 10000
  slipLimit : 50 ≤ v.slipLimit ∧ v.slipLimit ≤ 2000

theorem defaultBands_ok : mapsOk 12 defaultBands := by
  unfold mapsOk runOk bandsApart
  decide

theorem loadedOk_defaults (role : Role) (node : Node) : LoadedOk role (defaultSettings role node) where
  geometry := by change Stated.geometryGood defaultGeometry; unfold Stated.geometryGood; decide
  maps := by
    have hslices : defaultGeometry.bandSlices = 12 := rfl
    change mapsOk defaultGeometry.bandSlices defaultBands
    rw [hslices]
    exact defaultBands_ok
  e0 := by change defaultE0.min ≤ defaultE0.start ∧ defaultE0.start ≤ defaultE0.max; decide
  e1 := by change defaultE1.min ≤ defaultE1.start ∧ defaultE1.start ≤ defaultE1.max; decide
  power := by
    change Stated.figuresGood role (defaultPower role)
    unfold Stated.figuresGood
    cases role <;> decide
  strain := by change 16 ≤ 80 ∧ 80 ≤ 127; decide
  stepLimit := by change 10 ≤ 100 ∧ 100 ≤ 10000; decide
  slipLimit := by change 50 ≤ 250 ∧ 250 ≤ 2000; decide

theorem loadedOk_image (role : Role) (node : Node) (image : List Byte) :
    LoadedOk role (loadImage role node image).settings where
  geometry := checkGeometry_good _
  maps := checkBands_ok _ _
  e0 := checkDial_good (by decide) _
  e1 := checkDial_good (by decide) _
  power := checkPower_good role _
  strain := clampNat_bounds (by omega) _
  stepLimit := clampNat_bounds (by omega) _
  slipLimit := clampNat_bounds (by omega) _

theorem loadedOk_profile (straps : Straps) (image : List Byte) :
    LoadedOk straps.role (loadProfile straps image).settings := by
  unfold loadProfile
  split
  · exact loadedOk_image ..
  · exact loadedOk_defaults ..

/-! ### What an installation sets -/

theorem install_store (l : Loaded) (s : State) :
    (install l s).store = { s.store with geometry := l.settings.geometry, bands := l.settings.bands } := by
  simp [install, installSettings]

theorem install_laneRx (l : Loaded) (s : State) :
    (install l s).laneRx =
      { s.laneRx with eyes := .same (receiverEyeAtPowerOn l.settings.geometry.slices) } := by
  simp [install, installSettings]

theorem install_scan (l : Loaded) (s : State) : (install l s).scan = { s.scan with settings := l.settings.scan } := by
  simp [install, installSettings]

theorem install_dials (l : Loaded) (s : State) :
    (install l s).dials =
      if s.loader.fromRestart then
        { e0 := s.dials.e0.atRestart l.settings.e0, e1 := s.dials.e1.atRestart l.settings.e1 }
      else
        { e0 := s.dials.e0.atPowerOn l.settings.e0 s.pins.dialLevels.1
          e1 := s.dials.e1.atPowerOn l.settings.e1 s.pins.dialLevels.2 } := by
  simp only [install, enterListening_frame, latchLoaded_frame, installSettings, updTime_dials, updSpine_dials,
    installPower_frame, updAudio_dials, installDials]
  split <;> simp_all

theorem install_audio (l : Loaded) (s : State) :
    (install l s).audio =
      { s.audio with
        slipLimit := l.settings.slipLimit
        captureEnable := l.settings.captureEnable
        capture := captureAtPowerOn l.settings } := by
  simp [install, installSettings]

theorem install_motion (l : Loaded) (s : State) :
    (install l s).motion = { s.motion with settings := l.settings.motion } := by
  simp [install, installSettings]

theorem install_spine (l : Loaded) (s : State) :
    (install l s).spine = { s.spine with strain := l.settings.strain, synced := false, quietRuns := 0 } := by
  simp only [install, enterListening]
  split <;> simp [installSettings]

theorem install_loader (l : Loaded) (s : State) :
    (install l s).loader = { s.loader with life := .listening, fromRestart := false } := by
  simp only [install, enterListening]
  split <;> simp

end Sys2Proof.Machine
end

