-- ==== Sys2Proof/Proofs/LifeState.lean ====
section
/-! PROOF. The life state: which operations leave it, and that only power-on and restart lead to LOADING (R176). -/

namespace Sys2Proof.Machine

/-! ### Operations that leave the life state -/

@[simp] theorem replyDone_life (s : State) : (replyDone s).loader.life = s.loader.life := by
  unfold replyDone
  split
  · rfl
  · dsimp only
    split <;> rfl

@[simp] theorem clearSlots_life (s : State) : (clearSlots s).loader.life = s.loader.life := by
  unfold clearSlots
  dsimp only
  split <;> split <;> simp

@[simp] theorem entryFreed_life (e : QueueEntry) (s : State) : (entryFreed e s).loader.life = s.loader.life := by
  unfold entryFreed
  split <;> rfl

@[simp] theorem deliver_life (c : Command) (a : Answer) : (deliver c a).loader.life = a.state.loader.life := by
  unfold deliver localReply spineReply
  dsimp only
  split <;> split <;> simp

@[simp] theorem enterCut_life (s : State) : (enterCut s).loader.life = s.loader.life := by simp [enterCut]

@[simp] theorem sendError_life (k : SendErrorKind) (x : Transmission) (s : State) :
    (sendError k x s).loader.life = s.loader.life := by
  unfold sendError
  dsimp only
  split <;> simp

@[simp] theorem slotSent_life (x : Transmission) (attempts : BitVec 8) (s : State) :
    (slotSent x attempts s).loader.life = s.loader.life := by
  unfold slotSent
  split <;> simp

@[simp] theorem endOutgoing_life (r : OutRecord) (s : State) : (endOutgoing r s).loader.life = s.loader.life := by
  unfold endOutgoing freeTransfer
  dsimp only
  split
  · split <;> simp
  · rfl
  · rfl

@[simp] theorem answerReadQueue_life (c : Command) (s : State) :
    (answerReadQueue c s).state.loader.life = s.loader.life := by
  unfold answerReadQueue readPart readSecond readFirst readNothing freeHead
  dsimp only
  (repeat' split) <;> simp

theorem carried_life {c : Command} {s : State} {a : Answer} (ha : Carried c s a) :
    a.state.loader.life = s.loader.life := by
  cases ha with
  | status => unfold answerStatus; dsimp only; split <;> rfl
  | clearMapFault => unfold answerClearMapFault; split <;> rfl
  | capture => simp [answerCapture]
  | readQueue => simp
  | _ => rfl

/-! ### Operations that may enter LISTENING or RUNNING -/

@[simp] theorem enterRunning_life (s : State) : (enterRunning s).loader.life = .running := by
  simp [enterRunning, rechooseAtEntry]

theorem leaveListening_life (s : State) :
    (leaveListening s).loader.life = s.loader.life ∨ (leaveListening s).loader.life = .running := by
  unfold leaveListening
  split
  · exact .inl rfl
  · exact .inr (enterRunning_life s)

/-- A beacon leaves the life state, or takes a LISTENING station into RUNNING (R70). -/
theorem takeTime_life (rank : Rank) (body : List Byte) (start : Int) (s : State) :
    (takeTime rank body start s).loader.life = s.loader.life ∨
      s.loader.life = .listening ∧ (takeTime rank body start s).loader.life = .running := by
  unfold takeTime
  split
  · exact .inl rfl
  split
  · exact .inl rfl
  unfold takeBeacon
  dsimp only
  split
  · exact .inl (by simp)
  · split
    · rename_i hlife
      have hbefore : s.loader.life = .listening := by simpa using hlife
      refine (leaveListening_life _).imp (fun h => h.trans (by simp)) fun h => ⟨hbefore, h⟩
    · exact .inl (by simp)

theorem handTo_life (u : TakingUnit) (m : Arrival) (s : State) :
    (handTo u m s).loader.life = s.loader.life ∨
      s.loader.life = .listening ∧ (handTo u m s).loader.life = .running := by
  cases u with
  | time => exact takeTime_life ..
  | _ => exact .inl (by simp [handTo])

/-- A message that is handed to the intake leaves the life state, or takes a LISTENING station into RUNNING. -/
theorem routeMessage_life (m : Arrival) (s : State) :
    (routeMessage m s).loader.life = s.loader.life ∨
      s.loader.life = .listening ∧ (routeMessage m s).loader.life = .running := by
  unfold routeMessage deliverTo
  dsimp only
  split
  · exact .inl rfl
  · exact handTo_life _ m (s.updIntake _)
  · exact .inl rfl
  · exact handTo_life _ m (storeArrival m (s.updIntake _))
  · exact .inl rfl
  · exact .inl rfl

theorem sendEnd_life (x : Transmission) (s : State) :
    (sendEnd x s).loader.life = s.loader.life ∨
      s.loader.life = .listening ∧ (sendEnd x s).loader.life = .running := by
  unfold sendEnd
  dsimp only
  split
  · refine (routeMessage_life _ _).imp (fun h => h.trans ?_) (fun h => ⟨by simpa using h.1, h.2⟩)
    simp
  · exact .inl (by simp)

@[simp] theorem withdraw_life (s : State) : (withdraw s).loader.life = .listening := by simp [withdraw]

theorem messageTaken_life (m : Received) (s : State) :
    (messageTaken m s).loader.life = s.loader.life ∨
      s.loader.life ≠ .loading ∧ (messageTaken m s).loader.life ≠ .loading := by
  unfold messageTaken
  dsimp only
  split
  · unfold duplicateNode
    dsimp only
    split
    · rename_i hlife
      exact .inr ⟨by simp at hlife; simp [hlife], by simp⟩
    · exact .inl (by simp)
  · refine (routeMessage_life _ _).imp (fun h => h.trans (by simp)) fun h => ?_
    obtain ⟨hlife, hafter⟩ := h
    have hbefore : s.loader.life = .listening := by simpa using hlife
    exact ⟨by simp [hbefore], by simp [hafter]⟩

/-- What leaves the life state, or takes a LISTENING station into RUNNING, neither enters nor leaves LOADING. -/
theorem loading_iff_of_life {s t : State}
    (h : t.loader.life = s.loader.life ∨ s.loader.life = .listening ∧ t.loader.life = .running) :
    t.loader.life = .loading ↔ s.loader.life = .loading := by
  obtain h | ⟨hs, ht⟩ := h
  · rw [h]
  · simp [hs, ht]

/-- R176: no effect but power-on, restart and the installation enters or leaves LOADING. -/
theorem effect_loading {i : Instr} {s t : State} (h : Effect i s t) :
    (∃ straps, i = .powerOn straps ∧ t = State.powerOn straps s.pins s.pending s.free) ∨
      (∃ straps, t = restartWith straps s) ∨
      (∃ straps image, s.loader.life = .loading ∧ t = install (loadProfile straps image) s) ∨
      (t.loader.life = .loading ↔ s.loader.life = .loading) := by
  cases h with
  | powerOn straps hi => exact .inl ⟨straps, hi, rfl⟩
  | restart straps => exact .inr (.inl ⟨straps, rfl⟩)
  | install straps image hlife => exact .inr (.inr (.inl ⟨straps, image, hlife, rfl⟩))
  | messageTaken m =>
    refine .inr (.inr (.inr ?_))
    obtain h | ⟨hs, ht⟩ := messageTaken_life m s
    · rw [h]
    · simp [hs, ht]
  | sendEnd x => exact .inr (.inr (.inr (loading_iff_of_life (sendEnd_life x s))))
  | leaveListening hout =>
    have hlife : s.loader.life = .listening := by
      simp only [State.timerOut, Bool.and_eq_true, beq_iff_eq] at hout
      exact hout.1
    refine .inr (.inr (.inr (loading_iff_of_life ?_)))
    exact (leaveListening_life (s.updTime _)).imp_right fun h => ⟨hlife, h⟩
  | answer c rest a _ _ ha => exact .inr (.inr (.inr (by simp [carried_life ha])))
  | _ => exact .inr (.inr (.inr (by simp)))

end Sys2Proof.Machine
end

