-- ==== Sys2Proof/Proofs/DialsAndHistoryKept.lean ====
section
/-! PROOF. Every step keeps the dials in their ranges (R90, R92) and the sequences of the pose history consecutive
(R84). -/

namespace Sys2Proof.Machine

/-! ### Dials -/

theorem dialsOk_of_eq {s t : State} (hs : dialsOk s) (h : t.dials = s.dials) : dialsOk t := by
  unfold dialsOk
  rw [h]
  exact hs

/-- R90: a step beyond the range is ignored. -/
theorem dialOk_step {d : DialState} (h : dialOk d) (k : Int) : dialOk (d.step k) := by
  unfold DialState.step
  split
  · exact h
  · unfold dialOk
    dsimp only
    omega

theorem dialOk_change {d : DialState} (h : dialOk d) (a b : Bool) : dialOk (d.change a b) := by
  obtain hforward | hbackward | hsame | hopposite := forward_or_backward_or_same_or_opposite d.lineA d.lineB a b
  · rw [change_of_forward hforward]
    exact dialOk_step (d := { d with lineA := a, lineB := b }) h 1
  · rw [change_of_backward hbackward]
    exact dialOk_step (d := { d with lineA := a, lineB := b }) h (-1)
  · rwa [change_of_same hsame]
  · rw [change_of_opposite hopposite]
    exact h

theorem dialsOk_put {d : Dials} (h : dialOk d.e0 ∧ dialOk d.e1) (n : Dial) {v : DialState} (hv : dialOk v) :
    dialOk (d.put n v).e0 ∧ dialOk (d.put n v).e1 := by
  cases n with
  | e0 => exact ⟨hv, h.2⟩
  | e1 => exact ⟨h.1, hv⟩

theorem dialOk_get {d : Dials} (h : dialOk d.e0 ∧ dialOk d.e1) (n : Dial) : dialOk (d.get n) := by
  cases n with
  | e0 => exact h.1
  | e1 => exact h.2

theorem dialChange_keeps_dialsOk (n : Dial) (a b : Bool) {s : State} (hs : dialsOk s) :
    dialsOk (dialChange n a b s) := by
  unfold dialChange
  dsimp only
  split
  · exact dialsOk_put hs n (dialOk_change (dialOk_get hs n) a b)
  · exact hs

theorem install_dialsOk {l : Loaded} {role : Role} (hl : LoadedOk role l.settings) (s : State) :
    dialsOk (install l s) := by
  unfold dialsOk
  rw [install_dials]
  split
  · exact ⟨clampInt_bounds (hl.e0.1.trans hl.e0.2) _, clampInt_bounds (hl.e1.1.trans hl.e1.2) _⟩
  · exact ⟨hl.e0, hl.e1⟩

theorem powerOn_dialsOk (straps : Straps) (pins : Pins) (pending : List Instr) (free : Nat) :
    dialsOk (State.powerOn straps pins pending free) :=
  ⟨(loadedOk_defaults straps.role straps.node).e0, (loadedOk_defaults straps.role straps.node).e1⟩

theorem act_keeps_dialsOk (a : Action) (j : Nat) {s : State} (hs : dialsOk s) : dialsOk (act a j s) := by
  cases a with
  | frame =>
    unfold act fireFrame
    dsimp only
    split
    · exact dialsOk_of_eq (s := latchDials (frameTick j s)) hs (by simp)
    · exact hs
    · exact hs
  | none => exact hs
  | beacon => exact dialsOk_of_eq hs (by simp [act])
  | sample => exact hs
  | poseReport => exact dialsOk_of_eq hs (by simp [act])
  | powerReport => exact hs
  | portStatus => exact hs

theorem carried_keeps_dialsOk {c : Command} {s : State} {a : Answer} (ha : Carried c s a) (hs : dialsOk s) :
    dialsOk a.state := by
  cases ha with
  | status => unfold answerStatus; dsimp only; split <;> exact hs
  | clearMapFault => unfold answerClearMapFault; split <;> exact hs
  | capture => exact dialsOk_of_eq hs (by simp [answerCapture])
  | readQueue => exact dialsOk_of_eq hs (by simp)
  | _ => exact hs

theorem effect_keeps_dialsOk {i : Instr} {s t : State} (h : Effect i s t) (hs : dialsOk s) : dialsOk t := by
  cases h with
  | powerOn straps => exact powerOn_dialsOk ..
  | install straps image => exact install_dialsOk (loadedOk_profile straps image) s
  | restart straps => exact hs
  | dialChange n a b => exact dialChange_keeps_dialsOk n a b hs
  | fire a =>
    exact fire_keeps (P := dialsOk) (fun _ a j _ _ h => act_keeps_dialsOk a j h) (fun _ _ h => h) hs
  | answer c rest a _ _ ha =>
    exact dialsOk_of_eq (carried_keeps_dialsOk ha (s := beginAnswer c rest s) hs) (by simp)
  | _ => exact dialsOk_of_eq hs (by simp)

/-- Settles O54: a step of a dial stays in its range, and an installation moves the count into the range it sets. -/
theorem stepKeepsDialsInRange : Obligations.StepKeepsDialsInRange := by
  unfold Obligations.StepKeepsDialsInRange
  intro s t hs h
  exact step_keeps (P := dialsOk) (fun _ _ h => h) (fun s hs => dialsOk_of_eq hs (by simp))
    (fun _ _ _ h => effect_keeps_dialsOk h) hs h

/-! ### Pose history -/

theorem historyOk_of_eq {s t : State} (hs : historyOk s) (h : t.motion.history = s.motion.history) : historyOk t := by
  unfold historyOk
  rw [h]
  exact hs

theorem pushNewest_length_le {α : Type} (n : Nat) (xs : List α) (x : α) : (pushNewest n xs x).length ≤ n := by
  simp only [pushNewest, List.length_drop, List.length_append, List.length_singleton]
  omega

/-- R84: an entry with the next sequence joins the history, and the oldest leaves it. -/
theorem isChain_pushNewest {m : Motion} {entry : PoseEntry} (n : Nat)
    (h : m.history.IsChain fun p q => q.sequence = p.sequence + 1) (hentry : entry.sequence = m.nextSequence) :
    (pushNewest n m.history entry).IsChain fun p q => q.sequence = p.sequence + 1 := by
  refine List.IsChain.drop (List.isChain_append.mpr ⟨h, .singleton _, fun p hp q hq => ?_⟩) _
  obtain rfl : entry = q := by simpa using hq
  have hlast : m.history.getLast? = some p := hp
  rw [hentry, Motion.nextSequence, Motion.newest, hlast]

/-- R79: a read that completes, well or not, adds one entry to the history. -/
theorem completeRead_history (ready : Bool) (rates accels : Triple (BitVec 16)) (r : SensorRead) (s : State) :
    ∃ entry, entry.sequence = s.motion.nextSequence ∧
      (completeRead ready rates accels r s).motion.history = pushNewest 64 s.motion.history entry := by
  have hfailed (stamp : Nat) (s : State) : ∃ entry, entry.sequence = s.motion.nextSequence ∧
      (completeFailed stamp s).motion.history = pushNewest 64 s.motion.history entry := by
    unfold completeFailed
    dsimp only
    split
    · exact ⟨_, rfl, by simp only [arise_frame, updMotion_motion]; rfl⟩
    · exact ⟨_, rfl, rfl⟩
  unfold completeRead
  split
  · exact hfailed r.stamp (countTimedOut s)
  split
  · exact ⟨_, rfl, rfl⟩
  · exact hfailed r.stamp (s.updMotion fun m => { m with notReady := bump m.notReady })

theorem completeRead_keeps_historyOk (ready : Bool) (rates accels : Triple (BitVec 16)) (r : SensorRead) {s : State}
    (hs : historyOk s) : historyOk (completeRead ready rates accels r s) := by
  obtain ⟨entry, hentry, heq⟩ := completeRead_history ready rates accels r s
  unfold historyOk
  rw [heq]
  exact ⟨pushNewest_length_le .., isChain_pushNewest 64 hs.2 hentry⟩

/-- R86: ALIGN POSE moves angles alone. -/
theorem align_keeps_historyOk (c : Axes (BitVec 32)) {s : State} (hs : historyOk s) :
    historyOk (s.updMotion (·.align c)) := by
  refine ⟨by simpa [Motion.align] using hs.1, ?_⟩
  simp only [updMotion_motion, Motion.align, List.isChain_map]
  exact hs.2

theorem carried_keeps_historyOk {c : Command} {s : State} {a : Answer} (ha : Carried c s a) (hs : historyOk s) :
    historyOk a.state := by
  cases ha with
  | alignPose => exact align_keeps_historyOk _ hs
  | status => unfold answerStatus; dsimp only; split <;> exact hs
  | clearMapFault => unfold answerClearMapFault; split <;> exact hs
  | capture => exact historyOk_of_eq hs (by simp [answerCapture])
  | readQueue => exact historyOk_of_eq hs (by simp)
  | _ => exact hs

theorem act_keeps_history (a : Action) (j : Nat) (s : State) : (act a j s).motion.history = s.motion.history := by
  cases a with
  | sample =>
    simp only [act, fireSample, updMotion_motion]
    split <;> rfl
  | poseReport =>
    simp only [act, firePoseReport]
    split
    · rfl
    · split <;> simp
  | frame => simp [act]
  | _ => simp [act]

theorem powerOn_historyOk (straps : Straps) (pins : Pins) (pending : List Instr) (free : Nat) :
    historyOk (State.powerOn straps pins pending free) := ⟨Nat.zero_le 64, .nil⟩

theorem effect_keeps_historyOk {i : Instr} {s t : State} (h : Effect i s t) (hs : historyOk s) : historyOk t := by
  cases h with
  | powerOn straps => exact powerOn_historyOk ..
  | install straps image => exact historyOk_of_eq hs (by rw [install_motion])
  | restart straps => exact powerOn_historyOk straps s.pins s.pending s.free
  | completeRead ready rates accels r => exact completeRead_keeps_historyOk ready rates accels r hs
  | fire a =>
    exact fire_keeps (P := historyOk) (fun _ a j _ _ h => historyOk_of_eq h (act_keeps_history a j _))
      (fun _ _ h => h) hs
  | answer c rest a _ _ ha =>
    exact historyOk_of_eq (carried_keeps_historyOk ha (s := beginAnswer c rest s) hs) (by simp)
  | _ => exact historyOk_of_eq hs (by simp)

end Sys2Proof.Machine
end

