-- ==== Sys2Proof/Proofs/StoreKept.lean ====
section
/-! PROOF. What every operation but the loader keeps of the slice store: its geometry, the runs of its bands and the
canonical form of its bytes. So no step stops (R113, log 29), and the LIVE runs stay apart (R116, R117). -/

namespace Sys2Proof.Machine

/-! ### The relations -/

/-- Two descriptors of one run of buffers; their written and stale flags may differ (R115, R125). -/
def sameRun (a b : Band) : Prop :=
  a.access = b.access ∧ a.base = b.base ∧ a.count = b.count ∧ a.direction = b.direction

/-- The geometry is the same, the bands have the same runs, and bytes in canonical form have stayed so. -/
structure StoreKept (k k' : SliceStore) : Prop where
  geometry : k'.geometry = k.geometry
  runs : ∀ (e : Eye) (i : Fin 8), sameRun (k'.bands.get e)[i] (k.bands.get e)[i]
  mem : k.mem.wf = true → k'.mem.wf = true

/-- And no buffer has become FULL or OPEN. -/
structure BuffersKept (k k' : SliceStore) : Prop extends StoreKept k k' where
  full : ∀ b : Fin 256, k'.buffers[b].full = k.buffers[b].full

/-- The slice store is kept from `r` to `s`. -/
def KeepsStore (r s : State) : Prop := StoreKept r.store s.store

/-- The slice store is kept from `r` to `s` with its buffers, and so are the positions of the lane receiver. -/
def KeepsBuffers (r s : State) : Prop :=
  BuffersKept r.store s.store ∧ ∀ e, (s.laneRx.eyes.get e).accepted = (r.laneRx.eyes.get e).accepted ∧
    (s.laneRx.eyes.get e).horizon = (r.laneRx.eyes.get e).horizon

theorem sameRun.refl (b : Band) : sameRun b b := ⟨rfl, rfl, rfl, rfl⟩

theorem sameRun.trans {a b c : Band} (h : sameRun a b) (h' : sameRun b c) : sameRun a c :=
  have ⟨haccess, hbase, hcount, hdirection⟩ := h
  have ⟨haccess', hbase', hcount', hdirection'⟩ := h'
  ⟨haccess.trans haccess', hbase.trans hbase', hcount.trans hcount', hdirection.trans hdirection'⟩

theorem StoreKept.refl (k : SliceStore) : StoreKept k k := ⟨rfl, fun _ _ => .refl _, id⟩

theorem StoreKept.trans {k k' k'' : SliceStore} (h : StoreKept k k') (h' : StoreKept k' k'') : StoreKept k k'' :=
  ⟨h'.geometry.trans h.geometry, fun e i => (h'.runs e i).trans (h.runs e i), h'.mem ∘ h.mem⟩

theorem BuffersKept.refl (k : SliceStore) : BuffersKept k k := ⟨.refl k, fun _ => rfl⟩

theorem BuffersKept.trans {k k' k'' : SliceStore} (h : BuffersKept k k') (h' : BuffersKept k' k'') :
    BuffersKept k k'' :=
  ⟨h.toStoreKept.trans h'.toStoreKept, fun b => (h'.full b).trans (h.full b)⟩

theorem KeepsStore.refl (s : State) : KeepsStore s s := StoreKept.refl _

theorem KeepsBuffers.refl (s : State) : KeepsBuffers s s := ⟨.refl _, fun _ => ⟨rfl, rfl⟩⟩

theorem KeepsBuffers.store {r s : State} (h : KeepsBuffers r s) : KeepsStore r s := h.1.toStoreKept

theorem KeepsStore.of_eq {r s t : State} (h : KeepsStore r s) (hstore : t.store = s.store) : KeepsStore r t := by
  unfold KeepsStore
  rw [hstore]
  exact h

theorem KeepsBuffers.of_eq {r s t : State} (h : KeepsBuffers r s) (hstore : t.store = s.store)
    (heyes : t.laneRx.eyes = s.laneRx.eyes) : KeepsBuffers r t := by
  unfold KeepsBuffers
  rw [hstore, heyes]
  exact h

/-- An operation on counters, on the fault record or on other blocks. -/
theorem KeepsBuffers.of_parts {r s t : State} (h : KeepsBuffers r s) (hgeometry : t.store.geometry = s.store.geometry)
    (hbands : t.store.bands = s.store.bands) (hmem : t.store.mem = s.store.mem)
    (hbuffers : t.store.buffers = s.store.buffers) (heyes : t.laneRx.eyes = s.laneRx.eyes) : KeepsBuffers r t := by
  refine ⟨⟨⟨hgeometry.trans h.1.geometry, ?_, ?_⟩, ?_⟩, ?_⟩
  · rw [hbands]
    exact h.1.runs
  · rw [hmem]
    exact h.1.mem
  · rw [hbuffers]
    exact h.1.full
  · rw [heyes]
    exact h.2

theorem KeepsStore.ite {r t u : State} {b : Prop} [Decidable b] (ht : KeepsStore r t) (hu : KeepsStore r u) :
    KeepsStore r (if b then t else u) := by
  split <;> assumption

theorem KeepsBuffers.ite {r t u : State} {b : Prop} [Decidable b] (ht : KeepsBuffers r t) (hu : KeepsBuffers r u) :
    KeepsBuffers r (if b then t else u) := by
  split <;> assumption

/-! ### Updates of one buffer and of one band -/

@[simp] theorem getElem_putAt {α : Type} {n : Nat} (v : Vector α n) (i j : Fin n) (x : α) :
    (putAt v i x)[j] = if j = i then x else v[j] := by
  by_cases h : j = i
  · subst h
    simp [putAt]
  · have hne : i.val ≠ j.val := fun hij => h (Fin.ext hij.symm)
    simp [putAt, h, hne]

theorem buffers_updBuffer (k : SliceStore) (b c : Fin 256) (f : BufferRecord → BufferRecord) :
    (k.updBuffer b f).buffers[c] = if c = b then f k.buffers[b] else k.buffers[c] := getElem_putAt _ _ _ _

theorem updBuffer_kept (k : SliceStore) (b : Fin 256) (f : BufferRecord → BufferRecord) :
    StoreKept k (k.updBuffer b f) := ⟨rfl, fun _ _ => .refl _, id⟩

/-- A change of a buffer record that leaves its FULL mark. -/
theorem updBuffer_buffersKept {k : SliceStore} {b : Fin 256} {f : BufferRecord → BufferRecord}
    (hf : (f k.buffers[b]).full = k.buffers[b].full) : BuffersKept k (k.updBuffer b f) :=
  ⟨updBuffer_kept k b f, fun c => by
    rw [buffers_updBuffer]
    split
    · rename_i h
      rw [h, hf]
    · rfl⟩

/-- A change of a band's flags. -/
theorem updBand_buffersKept {k : SliceStore} (e : Eye) (s : Nat) {f : Band → Band} (hf : ∀ b, sameRun (f b) b) :
    BuffersKept k (k.updBand e s f) := by
  refine ⟨⟨rfl, fun e' i => ?_, id⟩, fun _ => rfl⟩
  simp only [SliceStore.updBand, both_get_put]
  split
  · rename_i he
    subst he
    rw [getElem_putAt]
    split
    · rename_i hi
      subst hi
      exact hf _
    · exact .refl _
  · exact .refl _

/-- R126: the flags of an eye's bands are cleared. -/
theorem clearFlags_buffersKept (k : SliceStore) (e : Eye) :
    BuffersKept k { k with bands := k.bands.put e ((k.bands.get e).map (·.clearFlags)) } := by
  refine ⟨⟨rfl, fun e' i => ?_, id⟩, fun _ => rfl⟩
  simp only [both_get_put]
  split
  · rename_i he
    subst he
    simp only [Fin.getElem_fin, Vector.getElem_map]
    exact ⟨rfl, rfl, rfl, rfl⟩
  · exact .refl _

theorem endWrite_kept {r k : SliceStore} (b : Fin 256) (agrees : Bool) (h : BuffersKept r k) :
    BuffersKept r (k.endWrite b agrees) := by
  unfold SliceStore.endWrite
  split
  · split
    · exact h.trans (updBuffer_buffersKept (f := fun r => { r with content := .pixels, writing := false }) rfl)
    · have hclear := h.trans (updBuffer_buffersKept (b := b) (f := fun r => { r with writing := false }) rfl)
      exact ⟨⟨hclear.geometry, hclear.runs, hclear.mem⟩, hclear.full⟩
  · exact h

/-- R119, R121: the end of a packet writes bytes and clears the mark of the write. -/
theorem endPacket_kept {r k : SliceStore} (p : Arriving) (run : PixelRun) (agrees : Bool) (h : BuffersKept r k) :
    BuffersKept r (k.endPacket p run agrees) := by
  unfold SliceStore.endPacket
  split
  · exact h
  · exact endWrite_kept _ agrees ⟨⟨h.geometry, h.runs, fun hwf => Memory.write_wf _ _ _ (h.mem hwf)⟩, h.full⟩

theorem openBuffer_kept (k : SliceStore) (b : Fin 256) : StoreKept k (k.openBuffer b) := by
  unfold SliceStore.openBuffer
  split
  · split
    · exact ⟨rfl, fun _ _ => .refl _, id⟩
    · exact updBuffer_kept ..
  · exact .refl k

/-! ### A packet that ends, and the lane's level -/

theorem endArriving_keeps {r s : State} (p : Arriving) (run : PixelRun) (agrees : Bool) (h : KeepsBuffers r s) :
    KeepsBuffers r (endArriving p run agrees s) :=
  ⟨endPacket_kept p run agrees h.1, h.2⟩

theorem cutArriving_keeps {r s : State} (run : PixelRun) (h : KeepsBuffers r s) :
    KeepsBuffers r (cutArriving run s) := by
  unfold cutArriving
  split
  · exact h
  · exact endArriving_keeps _ run false h

theorem settleLane_keeps {r s : State} (wasUp : Bool) (run : PixelRun) (h : KeepsBuffers r s) :
    KeepsBuffers r (settleLane wasUp run s) := by
  have hdown : KeepsBuffers r (laneGoesDown run s) := by
    unfold laneGoesDown
    split
    · exact h
    · exact cutArriving_keeps run h
    · exact h
  have hlevel : KeepsBuffers r (if wasUp && !s.laneUp then laneGoesDown run s else s) := .ite hdown h
  exact hlevel.of_eq (by simp [settleLane]) (by simp [settleLane])

theorem setLaneSignal_keeps {r s : State} (v : Bool) (run : PixelRun) (h : KeepsBuffers r s) :
    KeepsBuffers r (setLaneSignal v run s) :=
  .ite h (settleLane_keeps _ run h)

/-! ### The power unit, whose step can take the lane down -/

theorem setStep_keeps {r s : State} (v : Fin 4) (h : KeepsBuffers r s) : KeepsBuffers r (setStep v s) :=
  .ite h (settleLane_keeps _ noPixels h)

theorem fallToTarget_keeps {r s : State} (h : KeepsBuffers r s) : KeepsBuffers r (fallToTarget s) :=
  .ite (setStep_keeps _ h) h

theorem recompute_keeps {r s : State} (h : KeepsBuffers r s) : KeepsBuffers r (recompute s) :=
  fallToTarget_keeps (h.of_eq (by simp) (by simp))

theorem recomputeAndAnnounce_keeps {r s : State} (h : KeepsBuffers r s) :
    KeepsBuffers r (recomputeAndAnnounce s) :=
  .ite (recompute_keeps h) ((recompute_keeps h).of_eq (by simp) (by simp))

theorem takePower_keeps {r s : State} (rank : Rank) (body : List Byte) (h : KeepsBuffers r s) :
    KeepsBuffers r (takePower rank body s) :=
  .ite h (recomputeAndAnnounce_keeps h)

theorem overdrawTests_keeps {r s : State} (h : KeepsBuffers r s) : KeepsBuffers r (overdrawTests s) := by
  unfold overdrawTests
  dsimp only
  split
  · exact (setStep_keeps 0 h).of_eq (by simp [redActs]) (by simp [redActs])
  · exact .ite (.ite h (.ite h (setStep_keeps _ h))) h

theorem settleStep_keeps {r s : State} (fell : Bool) (h : KeepsBuffers r s) : KeepsBuffers r (settleStep fell s) := by
  have hfall : KeepsBuffers r (fallToTarget s) := fallToTarget_keeps h
  exact .ite (setStep_keeps 0 hfall) (.ite hfall (.ite (.ite hfall (setStep_keeps _ hfall)) hfall))

theorem readingWork_keeps {r s : State} (loadCame : Bool) (h : KeepsBuffers r s) :
    KeepsBuffers r (readingWork loadCame s) := by
  have hbefore : KeepsBuffers r (beforeTests s) :=
    recompute_keeps (s := (setOwnEntry (batteryMarks s)).updPower _) (h.of_eq (by simp) (by simp))
  have htests : KeepsBuffers r (if loadCame then overdrawTests (beforeTests s) else beforeTests s) :=
    .ite (overdrawTests_keeps hbefore) hbefore
  rw [readingWork_eq]
  exact (settleStep_keeps (loadCame && yellowLowers (beforeTests s)) htests).of_eq (by simp) (by simp)

theorem completeReading_keeps {r s : State} (m : MeterReading) (h : KeepsBuffers r s) :
    KeepsBuffers r (completeReading m s) :=
  readingWork_keeps _ (s := takeReading _ _ s) h

/-! ### Messages -/

theorem routeMessage_keeps {r s : State} (m : Arrival) (h : KeepsBuffers r s) : KeepsBuffers r (routeMessage m s) := by
  have hunit {s : State} (u : TakingUnit) (h : KeepsBuffers r s) : KeepsBuffers r (handTo u m s) := by
    cases u with
    | power => exact takePower_keeps _ _ h
    | _ => exact h.of_eq (by simp [handTo]) (by simp [handTo])
  unfold routeMessage deliverTo
  dsimp only
  split
  · exact h
  · exact hunit _ h
  · exact h
  · exact hunit _ h
  · exact h
  · exact h

theorem sendEnd_keeps {r s : State} (x : Transmission) (h : KeepsBuffers r s) : KeepsBuffers r (sendEnd x s) := by
  unfold sendEnd
  dsimp only
  split
  · exact routeMessage_keeps _ (h.of_eq (by simp) (by simp))
  · exact h.of_eq (by simp) (by simp)

theorem messageTaken_keeps {r s : State} (m : Received) (h : KeepsBuffers r s) :
    KeepsBuffers r (messageTaken m s) := by
  unfold messageTaken
  dsimp only
  split
  · exact h.of_eq (by simp) (by simp)
  · exact routeMessage_keeps _ (h.of_eq (by simp) (by simp))

/-! ### Takes, openings and the scan -/

theorem mapFault_keeps {r s : State} (kind : MapFaultKind) (e : Eye) (i : Byte) (t : Tag) (h : KeepsBuffers r s) :
    KeepsBuffers r (mapFault kind e i t s) := by
  unfold mapFault
  dsimp only
  split
  · exact h.of_parts rfl rfl rfl rfl rfl
  · exact h.of_parts (by simp) (by simp) (by simp) (by simp) (by simp)

theorem unbufferedTake_keeps {r s : State} (e : Eye) (i : Nat) (t : Tag) (h : KeepsBuffers r s) :
    KeepsBuffers r (unbufferedTake e i t s) := by
  unfold unbufferedTake
  split
  · exact h.of_parts rfl rfl rfl rfl rfl
  · exact mapFault_keeps _ _ _ _ h
  · exact mapFault_keeps _ _ _ _ h

theorem recomputeHorizon_keeps {r s : State} (e : Eye) (h : KeepsStore r s) : KeepsStore r (recomputeHorizon e s) :=
  h.of_eq (by simp)

theorem voidTake_keeps {r s : State} (e : Eye) (i : Nat) (h : KeepsStore r s) : KeepsStore r (voidTake e i s) := by
  unfold voidTake
  split
  · exact h
  · exact ⟨h.geometry, h.runs, h.mem⟩

theorem pixelTake_keeps {r s : State} (e : Eye) (i : Nat) (t : Tag) (h : KeepsStore r s) :
    KeepsStore r (pixelTake e i t s) := by
  unfold pixelTake
  split
  · exact StoreKept.trans h (unbufferedTake_keeps e i t (.refl s)).store
  · rename_i b hb
    have hflags : BuffersKept (s.store.updBuffer b (·.begin t))
        ((s.store.updBuffer b (·.begin t)).updBand e i fun d => { d with written := true }) :=
      updBand_buffersKept e i fun b => ⟨rfl, rfl, rfl, rfl⟩
    have hall := (StoreKept.trans h (updBuffer_kept s.store b _)).trans hflags.toStoreKept
    exact ⟨hall.geometry, hall.runs, hall.mem⟩

theorem voidPositions_keeps {r s : State} (e : Eye) (g : Nat) (h : KeepsStore r s) :
    KeepsStore r (voidPositions e g s) := by
  induction g generalizing s with
  | zero => exact h
  | succ g ih => exact ih (s := (advance e (voidTake e (expectedIndex s e) s)).updLaneRx _) (voidTake_keeps e _ h)

theorem takePacket_keeps {r s : State} (e : Eye) (i : Nat) (void : Bool) (t : Tag) (h : KeepsStore r s) :
    KeepsStore r (takePacket e i void t s) := by
  have htake : KeepsStore r (if void then voidTake e i s else pixelTake e i t s) :=
    .ite (voidTake_keeps e i h) (pixelTake_keeps e i t h)
  exact htake.of_eq (by simp [takePacket])

theorem placePacket_keeps {r s : State} (p : PacketHeader) (h : KeepsStore r s) : KeepsStore r (placePacket p s) := by
  unfold placePacket
  dsimp only
  split
  · exact takePacket_keeps _ _ _ _ (.ite h (recomputeHorizon_keeps _ (voidPositions_keeps _ _ h)))
  · exact StoreKept.trans h (mapFault_keeps _ _ _ _ (.refl (s.updLaneRx _))).store

theorem packetHeader_keeps {r s : State} (cut : PixelRun) (p : PacketHeader) (h : KeepsStore r s) :
    KeepsStore r (packetHeader cut p s) := by
  have hcut : KeepsStore r (cutArriving cut s) := StoreKept.trans h (cutArriving_keeps cut (.refl s)).store
  exact .ite hcut (placePacket_keeps p hcut)

theorem openSlice_keeps {r s : State} (e : Eye) (i : Nat) (h : KeepsStore r s) : KeepsStore r (openSlice e i s) := by
  unfold openSlice
  split
  · exact h
  · split
    · exact recomputeHorizon_keeps e (s := s.updStore _) (StoreKept.trans h (openBuffer_kept _ _))
    · exact h

theorem openBehind_keeps {r s : State} (e : Eye) (k : Nat) (h : KeepsStore r s) : KeepsStore r (openBehind e k s) :=
  openSlice_keeps e k (.ite h h)

/-- The slice reached may have its band's stale flag set; no buffer changes (R125, R132). -/
theorem reachSlice_keeps {r s : State} (e : Eye) (k : Nat) (h : KeepsBuffers r s) :
    KeepsBuffers r (reachSlice e k s) := by
  have hstale {s : State} (h : KeepsBuffers r s) : KeepsBuffers r (showStale e k s) :=
    ⟨h.1.trans (updBand_buffersKept (f := fun d => { d with stale := true }) e k fun b => ⟨rfl, rfl, rfl, rfl⟩), h.2⟩
  have hkept : KeepsBuffers r (keepShift e k s) := h.of_eq (by simp) (by simp)
  unfold reachSlice
  split
  · unfold showBuffer
    split
    · exact hkept
    · refine KeepsBuffers.of_eq (s := if ((keepShift e k s).store.buffer _).full then _ else _) ?_
        (by simp only [countLateShow_frame]; rfl) (by simp only [countLateShow_frame])
      exact .ite (hkept.of_eq (by simp) (by simp)) (hstale hkept)
  · exact h
  · exact h

theorem leaveSlice_keeps {r s : State} (e : Eye) (k : Nat) (h : KeepsStore r s) : KeepsStore r (leaveSlice e k s) := by
  have hopen : KeepsStore r (if k = 0 then s else openBehind e (k - 1) s) := .ite h (openBehind_keeps e _ h)
  exact hopen

theorem turnSlice_keeps {r s : State} (e : Eye) (k : Nat) (h : KeepsStore r s) : KeepsStore r (turnSlice e k s) := by
  have hleave : KeepsStore r (if k = 0 then s else leaveSlice e (k - 1) s) := .ite h (leaveSlice_keeps e _ h)
  exact StoreKept.trans hleave (reachSlice_keeps e k (.refl _)).store

theorem scanEyeLine_keeps {r s : State} (e : Eye) (y : Nat) (h : KeepsStore r s) :
    KeepsStore r (scanEyeLine e y s) := by
  have hturn : KeepsStore r (if y % s.store.geometry.S = 0 then turnSlice e (y / s.store.geometry.S) s else s) :=
    .ite (turnSlice_keeps e _ h) h
  exact hturn.of_eq (by simp [scanEyeLine])

theorem scanLine_keeps {r s : State} (y : Nat) (h : KeepsStore r s) : KeepsStore r (scanLine y s) :=
  (scanEyeLine_keeps .right y (scanEyeLine_keeps .left y h)).of_eq (by simp [scanLine])

theorem endEye_keeps {r s : State} (e : Eye) (h : KeepsStore r s) : KeepsStore r (endEye e s) := by
  have hfirst : KeepsStore r (takeOverMark e (openBehind e (s.store.geometry.slices - 2) s)) :=
    (openBehind_keeps e (s.store.geometry.slices - 2) h).of_eq (by simp)
  exact (openBehind_keeps e (s.store.geometry.slices - 1) hfirst).of_eq (by simp [endEye])

theorem scanEnd_keeps {r s : State} (h : KeepsStore r s) : KeepsStore r (scanEnd s) :=
  (endEye_keeps .right (endEye_keeps .left h)).of_eq (by simp [scanEnd])

/-! ### Commands of the command unit -/

theorem carried_keepsBuffers {c : Command} {s : State} {a : Answer} (ha : Carried c s a) : KeepsBuffers s a.state := by
  cases ha with
  | status => unfold answerStatus; dsimp only; split <;> exact .refl s
  | readBands => exact ⟨clearFlags_buffersKept s.store _, fun _ => ⟨rfl, rfl⟩⟩
  | clearMapFault =>
    unfold answerClearMapFault
    split
    · exact .refl s
    · exact ⟨⟨⟨rfl, fun _ _ => .refl _, id⟩, fun _ => rfl⟩, fun _ => ⟨rfl, rfl⟩⟩
  | capture => exact (KeepsBuffers.refl s).of_eq (by simp [answerCapture]) (by simp [answerCapture])
  | readQueue => exact (KeepsBuffers.refl s).of_eq (by simp) (by simp)
  | _ => exact .refl s

/-! ### Every effect -/

/-- Every effect but those of the loader keeps geometry, runs and canonical form. -/
theorem effect_keepsStore {i : Instr} {s t : State} (h : Effect i s t) :
    (∃ straps, i = .powerOn straps ∧ t = State.powerOn straps s.pins s.pending s.free) ∨
      (∃ straps, t = restartWith straps s) ∨
      (∃ straps image, s.loader.life = .loading ∧ t = install (loadProfile straps image) s) ∨ KeepsStore s t := by
  cases h with
  | powerOn straps hi => exact .inl ⟨straps, hi, rfl⟩
  | restart straps => exact .inr (.inl ⟨straps, rfl⟩)
  | install straps image hlife => exact .inr (.inr (.inl ⟨straps, image, hlife, rfl⟩))
  | messageTaken m => exact .inr (.inr (.inr (messageTaken_keeps m (.refl s)).store))
  | sendEnd x => exact .inr (.inr (.inr (sendEnd_keeps x (.refl s)).store))
  | setLaneSignal v run => exact .inr (.inr (.inr (setLaneSignal_keeps v run (.refl s)).store))
  | packetHeader cut p => exact .inr (.inr (.inr (packetHeader_keeps cut p (.refl s))))
  | packetEnd p run check => exact .inr (.inr (.inr (endArriving_keeps p run _ (.refl s)).store))
  | scanLine => exact .inr (.inr (.inr (scanLine_keeps _ (.refl s))))
  | scanEnd => exact .inr (.inr (.inr (scanEnd_keeps (.refl s))))
  | expireEntry n =>
    exact .inr (.inr (.inr (recomputeAndAnnounce_keeps (s := s.updPower _) (.refl s)).store))
  | completeReading r => exact .inr (.inr (.inr (completeReading_keeps r (.refl s)).store))
  | answer c rest a _ _ ha =>
    exact .inr (.inr (.inr ((carried_keepsBuffers ha).store.of_eq (by simp))))
  | _ => exact .inr (.inr (.inr ((KeepsStore.refl s).of_eq (by simp))))

/-! ### Geometry and bytes -/

theorem geometryOk_iff (s : State) : geometryOk s ↔ Stated.geometryGood s.store.geometry := Iff.rfl

theorem effect_keeps_geometryOk {i : Instr} {s t : State} (h : Effect i s t) (hs : geometryOk s ∧ memoryOk s) :
    geometryOk t ∧ memoryOk t := by
  obtain ⟨straps, -, rfl⟩ | ⟨straps, rfl⟩ | ⟨straps, image, -, rfl⟩ | hkept := effect_keepsStore h
  · exact ⟨(loadedOk_defaults straps.role straps.node).geometry, rfl⟩
  · exact ⟨(loadedOk_defaults straps.role straps.node).geometry, rfl⟩
  · rw [geometryOk_iff, memoryOk, install_store]
    exact ⟨(loadedOk_profile straps image).geometry, hs.2⟩
  · rw [geometryOk_iff, hkept.geometry]
    exact ⟨hs.1, hkept.mem hs.2⟩

/-- 32 lines of 2,048 pixels fill a buffer's area (R113; 07, Buffer records). -/
theorem fits_of_geometryOk {s : State} (hs : geometryOk s) : s.store.geometry.fits = true := by
  obtain ⟨hS, -, -, -, -, -, hW⟩ := hs
  have hS' : s.store.geometry.S ≤ 32 := by omega
  have hsize : s.store.geometry.S * s.store.geometry.W ≤ 32 * 2048 := Nat.mul_le_mul hS' hW
  exact decide_eq_true (by unfold Geometry.sliceBytes areaBytes; omega)

/-- The one stop is a slice over its area, which such a geometry has not. -/
theorem exec_answers_next {s : State} (hfits : s.store.geometry.fits = true) (i : Instr) : ∃ t, exec i s = .next t := by
  cases i with
  | packetEnd run check =>
    change ∃ t, execPacketEnd run check s = .next t
    unfold execPacketEnd
    split
    · exact ⟨_, rfl⟩
    · exact ⟨_, if_pos hfits⟩
  | scanLine =>
    change ∃ t, execScanLine s = .next t
    unfold execScanLine
    rw [if_pos hfits]
    split <;> exact ⟨_, rfl⟩
  | arbitrationLoss => change ∃ t, execArbitrationLoss s = .next t; unfold execArbitrationLoss; split <;> exact ⟨_, rfl⟩
  | sendError k => change ∃ t, execSendError k s = .next t; unfold execSendError; split <;> exact ⟨_, rfl⟩
  | sendEnd => change ∃ t, execSendEnd s = .next t; unfold execSendEnd; split <;> exact ⟨_, rfl⟩
  | sensorReadComplete ready rates accels =>
    change ∃ t, execSensorReadComplete ready rates accels s = .next t
    unfold execSensorReadComplete
    split <;> exact ⟨_, rfl⟩
  | sensorReadTimeout =>
    change ∃ t, execSensorReadTimeout s = .next t
    unfold execSensorReadTimeout
    split <;> exact ⟨_, rfl⟩
  | lanePacketStart =>
    change ∃ t, execLanePacketStart s = .next t
    unfold execLanePacketStart
    split
    · split <;> exact ⟨_, rfl⟩
    · exact ⟨_, rfl⟩
  | meterReadingComplete load battery =>
    change ∃ t, execMeterReadingComplete load battery s = .next t
    unfold execMeterReadingComplete
    split <;> exact ⟨_, rfl⟩
  | meterReadingTimeout load battery =>
    change ∃ t, execMeterReadingTimeout load battery s = .next t
    unfold execMeterReadingTimeout
    split <;> exact ⟨_, rfl⟩
  | outgoingRecordEnd =>
    change ∃ t, execOutgoingRecordEnd s = .next t
    unfold execOutgoingRecordEnd
    split <;> exact ⟨_, rfl⟩
  | _ => exact ⟨_, rfl⟩

theorem step_answers_next {s : State} (hs : geometryOk s) : ∃ t, step s = .next t := by
  unfold step
  split
  · exact ⟨_, rfl⟩
  · rename_i c rest hpending
    exact exec_answers_next (s := { s with pending := rest }) (fits_of_geometryOk hs) c

/-- Settles O50: a slice of a loaded geometry fits its area, which is the one stop's guard; the loader's checks leave
such a geometry, and a write keeps the canonical form. -/
theorem stepNeverStops : Obligations.StepNeverStops := by
  unfold Obligations.StepNeverStops
  intro s hgeometry hmemory
  obtain ⟨t, ht⟩ := step_answers_next hgeometry
  refine ⟨t, ht, step_keeps (P := fun s => geometryOk s ∧ memoryOk s) (fun _ _ h => h) (fun s hs => ?_)
    (fun _ _ _ h => effect_keeps_geometryOk h) ⟨hgeometry, hmemory⟩ ht⟩
  unfold geometryOk memoryOk
  rw [(by simp : (tick s).store = s.store)]
  exact hs

/-! ### Bands apart -/

/-- The number of an eye's band among the sixteen, left before right (R115). -/
def bandNumber : Eye → Fin 8 → Nat
  | .left, i => i.val
  | .right, i => 8 + i.val

theorem bandNumber_lt (e : Eye) (i : Fin 8) : bandNumber e i < 16 := by
  cases e <;> simp only [bandNumber] <;> omega

theorem bandNumber_injective {e e' : Eye} {i i' : Fin 8} (h : bandNumber e i = bandNumber e' i') : e = e' ∧ i = i' := by
  cases e <;> cases e' <;> simp only [bandNumber] at h
  · exact ⟨rfl, Fin.ext h⟩
  · omega
  · omega
  · exact ⟨rfl, Fin.ext (by omega)⟩

theorem exists_bandNumber {n : Nat} (h : n < 16) : ∃ e i, bandNumber e i = n := by
  by_cases h8 : n < 8
  · exact ⟨.left, ⟨n, h8⟩, rfl⟩
  · exact ⟨.right, ⟨n - 8, by omega⟩, by simp only [bandNumber]; omega⟩

theorem length_bands (bands : Both (Vector Band 8)) : (bands.left.toList ++ bands.right.toList).length = 16 := by simp

theorem getElem_bands (bands : Both (Vector Band 8)) (e : Eye) (i : Fin 8)
    (h : bandNumber e i < (bands.left.toList ++ bands.right.toList).length) :
    (bands.left.toList ++ bands.right.toList)[bandNumber e i] = (bands.get e)[i] := by
  cases e <;> simp [bandNumber, Both.get]

theorem bandsApart_symm {a b : Band} (h : bandsApart a b) : bandsApart b a := by
  intro hb ha
  have := h ha hb
  simp only [runsMeet, Bool.and_eq_false_iff, decide_eq_false_iff_not] at this ⊢
  tauto

/-- R117 by eye and number: every LIVE run is well placed, and different bands are apart. -/
theorem mapsOk_iff (m : Nat) (bands : Both (Vector Band 8)) :
    mapsOk m bands ↔ (∀ e (i : Fin 8), runOk m (bands.get e)[i]) ∧
      ∀ e e' (i i' : Fin 8), ¬ (e = e' ∧ i = i') → bandsApart (bands.get e)[i] (bands.get e')[i'] := by
  have hlt (e : Eye) (i : Fin 8) : bandNumber e i < (bands.left.toList ++ bands.right.toList).length := by
    rw [length_bands]
    exact bandNumber_lt e i
  constructor
  · rintro ⟨hrun, hapart⟩
    rw [List.pairwise_iff_getElem] at hapart
    refine ⟨fun e i => ?_, fun e e' i i' hne => ?_⟩
    · rw [← getElem_bands bands e i (hlt e i)]
      exact hrun _ (List.getElem_mem _)
    · rw [← getElem_bands bands e i (hlt e i), ← getElem_bands bands e' i' (hlt e' i')]
      rcases Nat.lt_trichotomy (bandNumber e i) (bandNumber e' i') with h | h | h
      · exact hapart _ _ _ _ h
      · exact absurd (bandNumber_injective h) hne
      · exact bandsApart_symm (hapart _ _ _ _ h)
  · rintro ⟨hrun, hapart⟩
    refine ⟨fun b hb => ?_, List.pairwise_iff_getElem.mpr fun n n' hn hn' hlt' => ?_⟩
    · obtain ⟨n, hn, rfl⟩ := List.getElem_of_mem hb
      obtain ⟨e, i, rfl⟩ := exists_bandNumber (length_bands bands ▸ hn)
      rw [getElem_bands]
      exact hrun e i
    · obtain ⟨e, i, rfl⟩ := exists_bandNumber (length_bands bands ▸ hn)
      obtain ⟨e', i', rfl⟩ := exists_bandNumber (length_bands bands ▸ hn')
      rw [getElem_bands, getElem_bands]
      refine hapart e e' i i' fun h => ?_
      obtain ⟨rfl, rfl⟩ := h
      omega

theorem runOk_of_sameRun {m : Nat} {a b : Band} (h : sameRun b a) (ha : runOk m a) : runOk m b := by
  obtain ⟨haccess, hbase, hcount, -⟩ := h
  intro hlive
  rw [hbase, hcount]
  exact ha (haccess ▸ hlive)

theorem bandsApart_of_sameRun {a a' b b' : Band} (h : sameRun a' a) (h' : sameRun b' b) (hab : bandsApart a b) :
    bandsApart a' b' := by
  obtain ⟨haccess, hbase, hcount, -⟩ := h
  obtain ⟨haccess', hbase', hcount', -⟩ := h'
  intro hlive hlive'
  have := hab (haccess ▸ hlive) (haccess' ▸ hlive')
  rwa [runsMeet, hbase, hcount, hbase', hcount']

theorem StoreKept.mapsOk {k k' : SliceStore} (h : StoreKept k k') (hk : mapsOk k.geometry.bandSlices k.bands) :
    mapsOk k'.geometry.bandSlices k'.bands := by
  rw [mapsOk_iff] at hk ⊢
  rw [h.geometry]
  exact ⟨fun e i => runOk_of_sameRun (h.runs e i) (hk.1 e i),
    fun e e' i i' hne => bandsApart_of_sameRun (h.runs e i) (h.runs e' i') (hk.2 e e' i i' hne)⟩

theorem effect_keeps_bandsOk {i : Instr} {s t : State} (h : Effect i s t) (hs : bandsOk s) : bandsOk t := by
  obtain ⟨straps, -, rfl⟩ | ⟨straps, rfl⟩ | ⟨straps, image, -, rfl⟩ | hkept := effect_keepsStore h
  · exact (loadedOk_defaults straps.role straps.node).maps
  · exact (loadedOk_defaults straps.role straps.node).maps
  · rw [bandsOk_iff, install_store]
    exact (loadedOk_profile straps image).maps
  · exact hkept.mapsOk hs

/-! ### Slices and their buffers -/

/-- R113: eight bands of M slices each. -/
theorem slices_eq {g : Geometry} (hg : Stated.geometryGood g) :
    g.slices = 8 * g.bandSlices ∧ 0 < g.bandSlices ∧ g.slices ≤ 128 := by
  obtain ⟨hS, hmod, hlow, -, hlines, -, -⟩ := hg
  unfold Geometry.bandSlices Geometry.slices
  obtain h | h | h := hS <;> rw [h] at hmod hlow hlines ⊢ <;> omega

theorem val_bandIndex {g : Geometry} (hg : Stated.geometryGood g) {k : Nat} (hk : k < g.slices) :
    (bandIndex g k).val = k / g.bandSlices := by
  obtain ⟨hslices, hpos, -⟩ := slices_eq hg
  have : k / g.bandSlices < 8 := (Nat.div_lt_iff_lt_mul hpos).mpr (by omega)
  simp only [bandIndex, Fin.ofNat]
  exact Nat.mod_eq_of_lt this

theorem toBuffer_eq_some {n : Nat} {b : Fin 256} (h : toBuffer n = some b) : b.val = n := by
  unfold toBuffer at h
  split at h
  · rw [← Option.some.inj h]
  · cases h

/-- R116: the buffer of an offset, counted from the low end of a LIVE run upwards or downwards. -/
theorem bufferAt_eq_some {d : Band} {m o : Nat} {b : Fin 256} (h : d.bufferAt m o = some b) :
    d.access = .live ∧ (d.direction = .up ∧ o < d.count ∧ b.val = d.base + o ∨
      d.direction = .down ∧ m ≤ o + d.count ∧ b.val = d.base + (m - 1 - o)) := by
  unfold Band.bufferAt at h
  split at h
  · rename_i haccess hdirection
    split at h
    · exact ⟨haccess, .inl ⟨hdirection, ‹_›, toBuffer_eq_some h⟩⟩
    · cases h
  · rename_i haccess hdirection
    split at h
    · exact ⟨haccess, .inr ⟨hdirection, ‹_›, toBuffer_eq_some h⟩⟩
    · cases h
  · cases h
  · cases h

/-- Two offsets of one band have two buffers. -/
theorem bufferAt_injective {d : Band} {m o o' : Nat} {b : Fin 256} (ho : o < m) (ho' : o' < m)
    (h : d.bufferAt m o = some b) (h' : d.bufferAt m o' = some b) : o = o' := by
  obtain ⟨-, ⟨hdir, -, hb⟩ | ⟨hdir, -, hb⟩⟩ := bufferAt_eq_some h <;>
    obtain ⟨-, ⟨hdir', -, hb'⟩ | ⟨hdir', -, hb'⟩⟩ := bufferAt_eq_some h'
  · omega
  · rw [hdir] at hdir'; cases hdir'
  · rw [hdir] at hdir'; cases hdir'
  · omega

theorem mem_run_of_bufferAt {d : Band} {m o : Nat} {b : Fin 256} (ho : o < m) (h : d.bufferAt m o = some b) :
    d.access = .live ∧ d.base ≤ b.val ∧ b.val < d.base + d.count := by
  obtain ⟨hlive, ⟨-, ho', hb⟩ | ⟨-, ho', hb⟩⟩ := bufferAt_eq_some h
  · exact ⟨hlive, by omega, by omega⟩
  · exact ⟨hlive, by omega, by omega⟩

/-- Bands that are apart give no buffer twice. -/
theorem not_bufferAt_of_bandsApart {d d' : Band} {m o o' : Nat} {b : Fin 256} (ho : o < m) (ho' : o' < m)
    (hapart : bandsApart d d') (h : d.bufferAt m o = some b) : d'.bufferAt m o' ≠ some b := by
  intro h'
  obtain ⟨hlive, hlow, hhigh⟩ := mem_run_of_bufferAt ho h
  obtain ⟨hlive', hlow', hhigh'⟩ := mem_run_of_bufferAt ho' h'
  have := hapart hlive hlive'
  simp only [runsMeet, Bool.and_eq_false_iff, decide_eq_false_iff_not] at this
  omega

/-- R116, R117: no two slices of a picture share a buffer. -/
theorem bufferOf_injective {k : SliceStore} (hg : Stated.geometryGood k.geometry)
    (hbands : mapsOk k.geometry.bandSlices k.bands) {e e' : Eye} {i i' : Nat} {b : Fin 256}
    (hi : i < k.geometry.slices) (hi' : i' < k.geometry.slices) (h : k.bufferOf e i = some b)
    (h' : k.bufferOf e' i' = some b) : e = e' ∧ i = i' := by
  obtain ⟨-, hpos, -⟩ := slices_eq hg
  have ho : i % k.geometry.bandSlices < k.geometry.bandSlices := Nat.mod_lt _ hpos
  have ho' : i' % k.geometry.bandSlices < k.geometry.bandSlices := Nat.mod_lt _ hpos
  by_cases hsame : e = e' ∧ bandIndex k.geometry i = bandIndex k.geometry i'
  · obtain ⟨rfl, hband⟩ := hsame
    have hsameBand : k.band e i' = k.band e i := by simp only [SliceStore.band, hband]
    have hoffset := bufferAt_injective ho ho' h (hsameBand ▸ h')
    have hdiv : i / k.geometry.bandSlices = i' / k.geometry.bandSlices := by
      rw [← val_bandIndex hg hi, ← val_bandIndex hg hi', hband]
    exact ⟨rfl, by rw [← Nat.div_add_mod i k.geometry.bandSlices, hdiv, hoffset, Nat.div_add_mod]⟩
  · exact absurd h' (not_bufferAt_of_bandsApart ho ho' (((mapsOk_iff _ _).mp hbands).2 e e' _ _ hsame) h)

/-- Settles O55: only an installation moves runs, and its third pass leaves none that meet; runs that lie apart give no
buffer to two slices. -/
theorem stepKeepsBandsApart : Obligations.StepKeepsBandsApart := by
  unfold Obligations.StepKeepsBandsApart
  refine ⟨fun s t hs h => ?_, fun s e e' k k' b hg hs hk hk' h h' => bufferOf_injective hg hs hk hk' h h'⟩
  refine step_keeps (P := bandsOk) (fun _ _ h => h) (fun s hs => ?_) (fun _ _ _ h => effect_keeps_bandsOk h) hs h
  rw [bandsOk_iff, (by simp : (tick s).store = s.store)]
  exact hs

end Sys2Proof.Machine
end

