-- ==== Sys2Proof/Proofs/ShiftsKept.lean ====
section
/-! PROOF. The late shifts of both eyes stay within their clamps in every step (R140), and in LOADING there is none. -/

namespace Sys2Proof.Machine

/-! ### Records within the clamps -/

/-- The clamps of R140 on a shift record, for a slice height and a maxshift. -/
def shiftWithin (S maxshift : Nat) (r : ShiftRecord) : Prop :=
  -(16 * (maxshift : Int)) ≤ r.dx16 ∧ r.dx16 ≤ 16 * maxshift ∧ -((min S maxshift : Nat) : Int) ≤ r.dy ∧
    r.dy ≤ (min S maxshift : Nat)

/-- The clamps are those of `S` and `maxshift`, and every shift record held lies within them. -/
structure ShiftsWithin (S maxshift : Nat) (s : State) : Prop where
  height : s.store.geometry.S = S
  limit : s.scan.settings.maxshift = maxshift
  records : ∀ e r, (s.scan.eyes.get e).shift = some r → shiftWithin S maxshift r

theorem shiftsOk_iff (s : State) :
    shiftsOk s ↔ ShiftsWithin s.store.geometry.S s.scan.settings.maxshift s ∧
      (s.loader.life = .loading → s.scan.scanning = false ∧ ∀ e, (s.scan.eyes.get e).shift = none) :=
  ⟨fun h => ⟨⟨rfl, rfl, h.1⟩, h.2⟩, fun h => ⟨h.1.records, h.2⟩⟩

theorem clampShift_within (g : Geometry) (maxshift : Nat) (dx dy : Int) (unmatched : Bool) :
    shiftWithin g.S maxshift (clampShift g maxshift dx dy unmatched) := by
  obtain ⟨hx, hx'⟩ := clampInt_bounds (lo := -(16 * maxshift : Nat)) (hi := (16 * maxshift : Nat)) (by omega) dx
  obtain ⟨hy, hy'⟩ := clampInt_bounds (lo := -(min g.S maxshift : Nat)) (hi := (min g.S maxshift : Nat)) (by omega) dy
  unfold shiftWithin clampShift
  dsimp only
  push_cast at hx hx'
  exact ⟨hx, hx', hy, hy'⟩

theorem zeroShift_within (S maxshift : Nat) : shiftWithin S maxshift zeroShift := by
  unfold shiftWithin zeroShift
  dsimp only
  omega

section

variable {S maxshift : Nat} {s : State}

theorem ShiftsWithin.of_eq {t : State} (h : ShiftsWithin S maxshift s)
    (hgeometry : t.store.geometry = s.store.geometry) (hsettings : t.scan.settings = s.scan.settings)
    (heyes : t.scan.eyes = s.scan.eyes) : ShiftsWithin S maxshift t :=
  ⟨by rw [hgeometry, h.height], by rw [hsettings, h.limit], by rw [heyes]; exact h.records⟩

theorem ShiftsWithin.ite {t : State} {b : Prop} [Decidable b] (hs : ShiftsWithin S maxshift s)
    (ht : ShiftsWithin S maxshift t) : ShiftsWithin S maxshift (if b then s else t) := by
  split <;> assumption

/-- A change of one eye whose record, if it has one, lies within the clamps. -/
theorem updScanEye_shifts (e : Eye) {f : ScanEye → ScanEye} (h : ShiftsWithin S maxshift s)
    (hf : ∀ r, (f (s.scan.eyes.get e)).shift = some r → shiftWithin S maxshift r) :
    ShiftsWithin S maxshift (s.updScanEye e f) := by
  refine ⟨by simpa using h.height, h.limit, fun e' r hr => ?_⟩
  simp only [State.updScanEye, updScan_scan, both_get_put] at hr
  split at hr
  · exact hf r hr
  · exact h.records e' r hr

/-- A change of the marks of one eye. -/
theorem updScanEye_marks_shifts (e : Eye) {f : ScanEye → ScanEye} (h : ShiftsWithin S maxshift s)
    (hf : ∀ v, (f v).shift = v.shift) : ShiftsWithin S maxshift (s.updScanEye e f) :=
  updScanEye_shifts e h fun r hr => h.records e r (by rw [← hr, hf])

/-! ### The scan -/

theorem countLateShow_shifts (b : Fin 256) (h : ShiftsWithin S maxshift s) :
    ShiftsWithin S maxshift (countLateShow b s) := by
  unfold countLateShow
  dsimp only
  split <;> exact h.of_eq rfl rfl rfl

theorem showStale_shifts (e : Eye) (k : Nat) (h : ShiftsWithin S maxshift s) :
    ShiftsWithin S maxshift (showStale e k s) :=
  updScanEye_marks_shifts e
    (h.of_eq (t := (s.updStore (·.updBand e k fun d => { d with stale := true })).updScan fun c =>
      { c with staleShows := bump c.staleShows }) rfl rfl rfl) fun _ => rfl

theorem showBuffer_shifts (e : Eye) (k : Nat) (h : ShiftsWithin S maxshift s) :
    ShiftsWithin S maxshift (showBuffer e k s) := by
  have hclear : ShiftsWithin S maxshift (s.updScanEye e fun v => { v with staleCurrent := false }) :=
    updScanEye_marks_shifts e h fun _ => rfl
  unfold showBuffer
  split
  · exact hclear
  · exact countLateShow_shifts _ (.ite hclear (showStale_shifts e k h))

/-- R140: the record kept is a clamped one. -/
theorem keepShift_shifts (e : Eye) (k : Nat) (h : ShiftsWithin S maxshift s) :
    ShiftsWithin S maxshift (keepShift e k s) := by
  have hrecord : ShiftsWithin S maxshift (s.updScanEye e fun v => { v with shift := some (shiftRecord s e k) }) := by
    refine updScanEye_shifts e h fun r hr => ?_
    obtain rfl : shiftRecord s e k = r := Option.some.inj hr
    rw [← h.height, ← h.limit]
    exact clampShift_within ..
  exact hrecord.of_eq rfl rfl rfl

theorem reachSlice_shifts (e : Eye) (k : Nat) (h : ShiftsWithin S maxshift s) :
    ShiftsWithin S maxshift (reachSlice e k s) := by
  have hzero : ShiftsWithin S maxshift
      (s.updScanEye e fun v => { v with shift := some zeroShift, staleCurrent := false }) := by
    refine updScanEye_shifts e h fun r hr => ?_
    obtain rfl : zeroShift = r := Option.some.inj hr
    exact zeroShift_within ..
  unfold reachSlice
  split
  · exact showBuffer_shifts e k (keepShift_shifts e k h)
  · exact hzero
  · exact hzero

theorem openSlice_shifts (e : Eye) (k : Nat) (h : ShiftsWithin S maxshift s) :
    ShiftsWithin S maxshift (openSlice e k s) :=
  h.of_eq (openSlice_keeps e k (.refl s)).geometry (by simp) (by simp)

theorem openBehind_shifts (e : Eye) (k : Nat) (h : ShiftsWithin S maxshift s) :
    ShiftsWithin S maxshift (openBehind e k s) :=
  openSlice_shifts e k (.ite (h.of_eq rfl rfl rfl) h)

theorem takeOverMark_shifts (e : Eye) (h : ShiftsWithin S maxshift s) : ShiftsWithin S maxshift (takeOverMark e s) :=
  updScanEye_marks_shifts e h fun _ => rfl

theorem turnSlice_shifts (e : Eye) (k : Nat) (h : ShiftsWithin S maxshift s) :
    ShiftsWithin S maxshift (turnSlice e k s) := by
  have hleave : ShiftsWithin S maxshift (leaveSlice e (k - 1) s) :=
    takeOverMark_shifts e (.ite h (openBehind_shifts e _ h))
  exact reachSlice_shifts e k (.ite h hleave)

theorem scanEyeLine_shifts (e : Eye) (y : Nat) (h : ShiftsWithin S maxshift s) :
    ShiftsWithin S maxshift (scanEyeLine e y s) := by
  have hturn : ShiftsWithin S maxshift
      (if y % s.store.geometry.S = 0 then turnSlice e (y / s.store.geometry.S) s else s) :=
    .ite (turnSlice_shifts e _ h) h
  exact hturn.of_eq rfl rfl rfl

theorem scanLine_shifts (y : Nat) (h : ShiftsWithin S maxshift s) : ShiftsWithin S maxshift (scanLine y s) :=
  (scanEyeLine_shifts .right y (scanEyeLine_shifts .left y h)).of_eq rfl rfl rfl

theorem endEye_shifts (e : Eye) (h : ShiftsWithin S maxshift s) : ShiftsWithin S maxshift (endEye e s) :=
  updScanEye_shifts e (f := fun _ => scanEyeAtPowerOn) (openBehind_shifts e (s.store.geometry.slices - 1)
    (takeOverMark_shifts e (openBehind_shifts e (s.store.geometry.slices - 2) h))) fun r (hr : none = some r) => by
      cases hr

theorem scanEnd_shifts (h : ShiftsWithin S maxshift s) : ShiftsWithin S maxshift (scanEnd s) :=
  (endEye_shifts .right (endEye_shifts .left h)).of_eq (by simp only [scanEnd, updScan_store])
    (by simp only [scanEnd, updScan_scan]) (by simp only [scanEnd, updScan_scan])

/-- R130: a frame tick starts a scan, or overlaps one, and leaves the shifts. -/
theorem act_shifts (a : Action) (j : Nat) (h : ShiftsWithin S maxshift s) : ShiftsWithin S maxshift (act a j s) := by
  cases a with
  | frame =>
    have htick : ShiftsWithin S maxshift (frameTick j s) := by
      unfold frameTick
      refine ⟨h.height, ?_, ?_⟩ <;> simp only [updScan_scan] <;> split
      · exact h.limit
      · exact h.limit
      · exact h.records
      · exact h.records
    unfold act fireFrame
    dsimp only
    split
    · exact htick.of_eq (by simp) (by simp) (by simp)
    · exact h.of_eq rfl rfl rfl
    · exact h
  | _ => exact h.of_eq (by simp [act]) (by simp [act]) (by simp [act])

theorem fire_shifts (a : Action) (h : ShiftsWithin S maxshift s) : ShiftsWithin S maxshift (fire a s) :=
  fire_keeps (P := ShiftsWithin S maxshift) (fun _ a j _ _ h => act_shifts a j h) (fun _ _ h => h.of_eq rfl rfl rfl) h

end

/-! ### Every effect -/

/-- Outside LOADING the clamps alone matter. -/
theorem shiftsOk_of_running {s t : State} (hs : shiftsOk s) (hlife : s.loader.life ≠ .loading)
    (hloader : t.loader.life = s.loader.life)
    (h : ∀ S maxshift, ShiftsWithin S maxshift s → ShiftsWithin S maxshift t) : shiftsOk t := by
  have ht := h _ _ ((shiftsOk_iff s).mp hs).1
  refine (shiftsOk_iff t).mpr ⟨⟨rfl, rfl, ?_⟩, fun hloading => absurd (hloader ▸ hloading) hlife⟩
  rw [ht.height, ht.limit]
  exact ht.records

/-- An operation that leaves the scan unit, and does not enter LOADING. -/
theorem shiftsOk_of_eq {s t : State} (hs : shiftsOk s) (hscan : t.scan = s.scan)
    (hgeometry : t.store.geometry = s.store.geometry)
    (hloading : t.loader.life = .loading → s.loader.life = .loading) : shiftsOk t := by
  unfold shiftsOk
  rw [hscan, hgeometry]
  exact ⟨hs.1, fun h => hs.2 (hloading h)⟩

/-- With no record held, nothing has to lie within the clamps. -/
theorem shiftsOk_of_none {t : State} (hscanning : t.scan.scanning = false)
    (hnone : ∀ e, (t.scan.eyes.get e).shift = none) : shiftsOk t :=
  ⟨fun e _ hr => absurd ((hnone e).symm.trans hr) nofun, fun _ => ⟨hscanning, hnone⟩⟩

theorem powerOn_shiftsOk (straps : Straps) (pins : Pins) (pending : List Instr) (free : Nat) :
    shiftsOk (State.powerOn straps pins pending free) :=
  shiftsOk_of_none rfl fun e => by cases e <;> rfl

/-- A scan in progress is not in LOADING. -/
theorem not_loading_of_scanning {s : State} (hs : shiftsOk s) (h : s.scan.scanning = true) :
    s.loader.life ≠ .loading := by
  intro hlife
  rw [(hs.2 hlife).1] at h
  cases h

/-- What an effect does to the scan unit: nothing, but for the loader's effects, the scan's own and the firings. -/
theorem effect_scan {i : Instr} {s t : State} (h : Effect i s t) :
    (∃ straps, t = State.powerOn straps s.pins s.pending s.free) ∨ (∃ straps, t = restartWith straps s) ∨
      (∃ l, s.loader.life = .loading ∧ t = install l s) ∨
      (s.scan.scanning = true ∧ (t = scanLine s.scan.nextLine s ∨ t = scanEnd s)) ∨ (∃ a, t = fire a s) ∨
      t.scan = s.scan := by
  cases h with
  | powerOn straps => exact .inl ⟨straps, rfl⟩
  | restart straps => exact .inr (.inl ⟨straps, rfl⟩)
  | install straps image hlife => exact .inr (.inr (.inl ⟨_, hlife, rfl⟩))
  | scanLine hdue =>
    simp only [State.lineDue, Bool.and_eq_true] at hdue
    exact .inr (.inr (.inr (.inl ⟨hdue.1.1, .inl rfl⟩)))
  | scanEnd hover =>
    simp only [State.scanOver, Bool.and_eq_true] at hover
    exact .inr (.inr (.inr (.inl ⟨hover.1.1, .inr rfl⟩)))
  | fire a => exact .inr (.inr (.inr (.inr (.inl ⟨a, rfl⟩))))
  | answer c rest a _ _ ha =>
    refine .inr (.inr (.inr (.inr (.inr ?_))))
    rw [show (deliver c a).scan = a.state.scan by simp]
    cases ha with
    | status => unfold answerStatus; dsimp only; split <;> rfl
    | clearMapFault => unfold answerClearMapFault; split <;> rfl
    | capture => simp [answerCapture]
    | readQueue => simp
    | _ => rfl
  | _ => exact .inr (.inr (.inr (.inr (.inr (by simp)))))

theorem effect_keeps_shiftsOk {i : Instr} {s t : State} (h : Effect i s t) (hs : shiftsOk s) : shiftsOk t := by
  obtain ⟨straps, rfl⟩ | ⟨straps, rfl⟩ | ⟨l, hlife, rfl⟩ | ⟨hscanning, rfl | rfl⟩ | ⟨a, rfl⟩ | hscan := effect_scan h
  · exact powerOn_shiftsOk ..
  · exact shiftsOk_of_none rfl fun e => by cases e <;> rfl
  · obtain ⟨hscanning, hnone⟩ := hs.2 hlife
    exact shiftsOk_of_none (by rw [install_scan]; exact hscanning) (by rw [install_scan]; exact hnone)
  · exact shiftsOk_of_running hs (not_loading_of_scanning hs hscanning) (by simp) fun _ _ => scanLine_shifts _
  · exact shiftsOk_of_running hs (not_loading_of_scanning hs hscanning) (by simp) fun _ _ => scanEnd_shifts
  · by_cases hlife : s.loader.life = .loading
    · exact fire_keeps (P := shiftsOk) (fun hrunning => absurd hlife hrunning) (fun _ _ h => h) hs
    · exact shiftsOk_of_running hs hlife (by simp) fun _ _ => fire_shifts a
  · obtain ⟨straps, -, rfl⟩ | ⟨straps, rfl⟩ | ⟨straps, image, hlife, rfl⟩ | hloading := effect_loading h
    · exact powerOn_shiftsOk ..
    · exact shiftsOk_of_none rfl fun e => by cases e <;> rfl
    · obtain ⟨hscanning, hnone⟩ := hs.2 hlife
      exact shiftsOk_of_none (by rw [hscan]; exact hscanning) (by rw [hscan]; exact hnone)
    · obtain ⟨straps, -, rfl⟩ | ⟨straps, rfl⟩ | ⟨straps, image, hlife, rfl⟩ | hkept := effect_keepsStore h
      · exact powerOn_shiftsOk ..
      · exact shiftsOk_of_none rfl fun e => by cases e <;> rfl
      · obtain ⟨hscanning, hnone⟩ := hs.2 hlife
        exact shiftsOk_of_none (by rw [hscan]; exact hscanning) (by rw [hscan]; exact hnone)
      · exact shiftsOk_of_eq hs hscan hkept.geometry hloading.mp

/-- A microsecond moves the line clock alone of the scan unit. -/
theorem tick_scan (s : State) :
    (tick s).scan =
      { s.scan with lineClock := if s.scan.scanning then s.scan.lineClock + 16 else s.scan.lineClock } := by
  have hclock : (tick s).scan = (runLineClock (slewMicrosecond (countMicrosecond (keepReading (senseAlert s))))).scan :=
    rfl
  have hbefore : (slewMicrosecond (countMicrosecond (keepReading (senseAlert s)))).scan = s.scan := by
    simp only [slewMicrosecond_frame, countMicrosecond_frame, keepReading_frame]
    rfl
  rw [hclock, runLineClock, hbefore]
  split
  · rw [updScan_scan, hbefore]
  · exact hbefore

theorem tick_keeps_shiftsOk {s : State} (hs : shiftsOk s) : shiftsOk (tick s) := by
  unfold shiftsOk
  rw [tick_scan, (by simp : (tick s).store = s.store), (by simp : (tick s).loader = s.loader)]
  exact hs

/-- Settles O57: the shift records are clamped ones, and every completed read gives its entry the next sequence. -/
theorem stepKeepsShiftsAndHistory : Obligations.StepKeepsShiftsAndHistory := by
  unfold Obligations.StepKeepsShiftsAndHistory
  refine ⟨fun s t hs h => ?_, fun s t hs h => ?_⟩
  · exact step_keeps (P := shiftsOk) (fun _ _ h => h) (fun _ => tick_keeps_shiftsOk)
      (fun _ _ _ h => effect_keeps_shiftsOk h) hs h
  · exact step_keeps (P := historyOk) (fun _ _ h => h) (fun s hs => historyOk_of_eq hs (by simp))
      (fun _ _ _ h => effect_keeps_historyOk h) hs h

end Sys2Proof.Machine
end

