-- ==== Sys2Proof/Proofs/HorizonsKept.lean ====
section
/-! PROOF. Each eye's horizon stays at accepted plus the run of open positions (R106, R110): a take or an opening
recomputes the horizon of its own eye, and meets no buffer of the other, whose run lies apart. -/

namespace Sys2Proof.Machine

/-! ### The run of open positions -/

theorem isOpen_iff (k : SliceStore) (e : Eye) (p : Nat) :
    k.isOpen e (indexOf k.geometry p) = true ↔ openPosition k e p := by
  unfold SliceStore.isOpen openPosition indexOf SliceStore.buffer
  split
  · rename_i hnone
    simp [hnone]
  · rename_i b hb
    simp [hb]

/-- R110: the run is open, and ends at the cap or at a position that is not. -/
theorem openRun_spec (k : SliceStore) (e : Eye) (fuel p : Nat) :
    openRun k e fuel p ≤ fuel ∧ (∀ i, i < openRun k e fuel p → openPosition k e (p + i)) ∧
      (openRun k e fuel p = fuel ∨ ¬ openPosition k e (p + openRun k e fuel p)) := by
  induction fuel generalizing p with
  | zero => exact ⟨Nat.le_refl 0, fun i hi => absurd hi (Nat.not_lt_zero i), .inl rfl⟩
  | succ fuel ih =>
    unfold openRun
    split
    · rename_i hopen
      obtain ⟨hle, hrun, hend⟩ := ih (p + 1)
      refine ⟨Nat.succ_le_succ hle, fun i hi => ?_, ?_⟩
      · cases i with
        | zero => exact (isOpen_iff k e p).mp hopen
        | succ i =>
          rw [Nat.add_comm i 1, ← Nat.add_assoc]
          exact hrun i (by omega)
      · rw [Nat.add_comm (openRun k e fuel (p + 1)) 1, ← Nat.add_assoc]
        exact hend.imp (by omega) id
    · rename_i hclosed
      exact ⟨Nat.zero_le _, fun i hi => absurd hi (Nat.not_lt_zero i), .inr fun h => hclosed ((isOpen_iff k e p).mpr h)⟩

/-- A horizon `n` positions from accepted has the window `n`. -/
theorem window_add {a : BitVec 16} {n : Nat} (hn : n < 65536) : (a + BitVec.ofNat 16 n - a).toNat = n := by
  rw [BitVec.add_comm, BitVec.add_sub_cancel, BitVec.toNat_ofNat]
  exact Nat.mod_eq_of_lt hn

/-- R110: the horizon recomputed is accepted plus the run of open positions. -/
theorem horizonIsRun_horizonOf_of_lt {s : State} {e : Eye} (hN : s.store.geometry.slices < 65536) {r : ReceiverEye}
    (haccepted : r.accepted = (s.laneRx.eyes.get e).accepted) (hhorizon : r.horizon = horizonOf s e) :
    horizonIsRun s.store e r := by
  obtain ⟨hle, hrun, hend⟩ := openRun_spec s.store e s.store.geometry.slices (s.laneRx.eyes.get e).accepted.toNat
  unfold horizonIsRun
  rw [haccepted, hhorizon, horizonOf, window_add (by omega)]
  exact ⟨hle, hrun, hend⟩

theorem horizonIsRun_horizonOf {s : State} {e : Eye} (hg : Stated.geometryGood s.store.geometry) {r : ReceiverEye}
    (haccepted : r.accepted = (s.laneRx.eyes.get e).accepted) (hhorizon : r.horizon = horizonOf s e) :
    horizonIsRun s.store e r := by
  obtain ⟨-, -, hN⟩ := slices_eq hg
  exact horizonIsRun_horizonOf_of_lt (by omega) haccepted hhorizon

/-- R106: with every buffer OPEN, the horizon is accepted + N. -/
theorem horizonIsRun_of_open {k : SliceStore} (hg : Stated.geometryGood k.geometry)
    (hopen : ∀ b : Fin 256, k.buffers[b].full = false) (e : Eye) :
    horizonIsRun k e (receiverEyeAtPowerOn k.geometry.slices) := by
  obtain ⟨-, -, hN⟩ := slices_eq hg
  have hwindow : ((receiverEyeAtPowerOn k.geometry.slices).horizon -
      (receiverEyeAtPowerOn k.geometry.slices).accepted).toNat = k.geometry.slices := by
    exact (congrArg BitVec.toNat (BitVec.sub_zero _)).trans (Nat.mod_eq_of_lt (by omega))
  unfold horizonIsRun
  rw [hwindow]
  exact ⟨Nat.le_refl _, fun i _ b _ => hopen b, .inl rfl⟩

/-! ### What keeps the positions of an eye -/

theorem bufferAt_of_sameRun {b b' : Band} (h : sameRun b' b) (m o : Nat) : b'.bufferAt m o = b.bufferAt m o := by
  obtain ⟨haccess, hbase, hcount, hdirection⟩ := h
  unfold Band.bufferAt
  rw [haccess, hbase, hcount, hdirection]

theorem StoreKept.bufferOf {k k' : SliceStore} (h : StoreKept k k') (e : Eye) (i : Nat) :
    k'.bufferOf e i = k.bufferOf e i := by
  unfold SliceStore.bufferOf SliceStore.band
  simp only [h.geometry]
  exact bufferAt_of_sameRun (h.runs e _) _ _

/-- An eye whose receiver and records are kept has the horizon it had. -/
theorem horizonIsRun_of_kept {k k' : SliceStore} {e : Eye} {r r' : ReceiverEye}
    (hg : Stated.geometryGood k.geometry) (hkept : StoreKept k k')
    (hfull : ∀ i b, i < k.geometry.slices → k.bufferOf e i = some b → k'.buffers[b].full = k.buffers[b].full)
    (haccepted : r'.accepted = r.accepted) (hhorizon : r'.horizon = r.horizon) (h : horizonIsRun k e r) :
    horizonIsRun k' e r' := by
  obtain ⟨hslices, hpos, -⟩ := slices_eq hg
  have hposition (p : Nat) : openPosition k' e p ↔ openPosition k e p := by
    unfold openPosition
    rw [hkept.geometry, hkept.bufferOf]
    refine forall_congr' fun b => forall_congr' fun hb => ?_
    rw [hfull _ b (Nat.mod_lt _ (by omega)) hb]
  unfold horizonIsRun at h ⊢
  simp only [haccepted, hhorizon, hkept.geometry, hposition]
  exact h

/-! ### The invariant -/

/-- A geometry and runs that the loader can leave, horizons as R110 says for the eyes named, and, where `L`, every
buffer OPEN. -/
structure HorizonsHeld (g : Geometry) (eyes : Eye → Prop) (L : Prop) (s : State) : Prop where
  geometry : s.store.geometry = g
  good : Stated.geometryGood g
  maps : mapsOk g.bandSlices s.store.bands
  runs : ∀ e, eyes e → horizonIsRun s.store e (s.laneRx.eyes.get e)
  opened : L → ∀ b : Fin 256, s.store.buffers[b].full = false

section

variable {g : Geometry} {eyes : Eye → Prop} {L : Prop} {s : State}

theorem HorizonsHeld.ite {t : State} {b : Prop} [Decidable b] (hs : HorizonsHeld g eyes L s)
    (ht : HorizonsHeld g eyes L t) : HorizonsHeld g eyes L (if b then s else t) := by
  split <;> assumption

theorem HorizonsHeld.but (h : HorizonsHeld g (fun _ => True) L s) (e : Eye) : HorizonsHeld g (· ≠ e) L s :=
  ⟨h.geometry, h.good, h.maps, fun e' _ => h.runs e' trivial, h.opened⟩

/-- What touches neither receiver positions nor FULL marks. -/
theorem HorizonsHeld.of_kept {t : State} (h : HorizonsHeld g eyes L s) (hkept : KeepsBuffers s t) :
    HorizonsHeld g eyes L t := by
  obtain ⟨hstore, heyes⟩ := hkept
  refine ⟨hstore.geometry.trans h.geometry, h.good, ?_, fun e he => ?_, fun hL b => ?_⟩
  · rw [← h.geometry, ← hstore.geometry]
    exact hstore.toStoreKept.mapsOk (by rw [h.geometry]; exact h.maps)
  · exact horizonIsRun_of_kept (by rw [h.geometry]; exact h.good) hstore.toStoreKept (fun _ b _ _ => hstore.full b)
      (heyes e).1 (heyes e).2 (h.runs e he)
  · rw [hstore.full b]
    exact h.opened hL b

/-- A change of the buffer of one slice meets no slice of the other eye. -/
theorem HorizonsHeld.of_buffer {t : State} {e : Eye} {i : Nat} {b : Fin 256} (h : HorizonsHeld g (· ≠ e) L s)
    (hi : i < g.slices) (hb : s.store.bufferOf e i = some b) (hkept : KeepsStore s t)
    (hother : ∀ c, c ≠ b → t.store.buffers[c].full = s.store.buffers[c].full)
    (hopen : L → t.store.buffers[b].full = false) (heyes : t.laneRx.eyes = s.laneRx.eyes) :
    HorizonsHeld g (· ≠ e) L t := by
  have hgood : Stated.geometryGood s.store.geometry := by rw [h.geometry]; exact h.good
  have hmaps : mapsOk s.store.geometry.bandSlices s.store.bands := by rw [h.geometry]; exact h.maps
  refine ⟨hkept.geometry.trans h.geometry, h.good, ?_, fun e' he' => ?_, fun hL c => ?_⟩
  · rw [← h.geometry, ← hkept.geometry]
    exact StoreKept.mapsOk hkept hmaps
  · refine horizonIsRun_of_kept hgood hkept (fun i' c hi' hc => hother c fun hcb => he' ?_)
      (by rw [heyes]) (by rw [heyes]) (h.runs e' he')
    exact (bufferOf_injective hgood hmaps hi' (by rw [h.geometry]; exact hi) hc (hcb ▸ hb)).1
  · by_cases hc : c = b
    · rw [hc]
      exact hopen hL
    · rw [hother c hc]
      exact h.opened hL c

/-- A change of the receiver of one eye. -/
theorem updReceiver_horizons {e : Eye} (f : ReceiverEye → ReceiverEye) (h : HorizonsHeld g (· ≠ e) L s) :
    HorizonsHeld g (· ≠ e) L (s.updReceiver e f) := by
  refine ⟨h.geometry, h.good, h.maps, fun e' he' => ?_, h.opened⟩
  have hother : ((s.updReceiver e f).laneRx.eyes.get e') = s.laneRx.eyes.get e' := by
    simp only [State.updReceiver, updLaneRx_laneRx, both_get_put, if_neg he']
  rw [hother]
  exact h.runs e' he'

/-! ### The recomputation -/

/-- A CREDIT load keeps positions and horizons (R111). -/
theorem loadCredit_keeps {r s : State} (h : KeepsBuffers r s) : KeepsBuffers r (loadCredit s) := by
  unfold loadCredit
  split
  · exact h.of_eq (by simp) (by simp)
  · refine ⟨?_, fun e => ?_⟩
    · rw [updLaneRx_store, (by simp : (loadSlot .credit (ownContent s 2 0 (creditBody s)) s).store = s.store)]
      exact h.1
    · have heyes : (loadSlot .credit (ownContent s 2 0 (creditBody s)) s).laneRx.eyes = s.laneRx.eyes := by simp
      rw [updLaneRx_laneRx, heyes]
      cases e with
      | left => exact h.2 .left
      | right => exact h.2 .right

/-- R110: the recomputation makes the horizon of its eye what R110 says. -/
theorem recomputeHorizon_horizons {e : Eye} (h : HorizonsHeld g (· ≠ e) L s) :
    HorizonsHeld g (fun _ => True) L (recomputeHorizon e s) := by
  have hset : HorizonsHeld g (fun _ => True) L (s.updReceiver e fun r => { r with horizon := horizonOf s e }) := by
    have hbut := updReceiver_horizons (fun r => { r with horizon := horizonOf s e }) h
    refine ⟨hbut.geometry, hbut.good, hbut.maps, fun e' _ => ?_, hbut.opened⟩
    by_cases he : e' = e
    · subst he
      refine horizonIsRun_horizonOf (s := s) (by rw [h.geometry]; exact h.good) ?_ ?_ <;>
        simp [State.updReceiver, both_get_put]
    · exact hbut.runs e' he
  unfold recomputeHorizon
  exact .ite (hset.of_kept (loadCredit_keeps (.refl _))) hset

/-! ### Takes -/

theorem expectedIndex_lt (h : HorizonsHeld g eyes L s) (e : Eye) : expectedIndex s e < g.slices := by
  obtain ⟨hslices, hpos, -⟩ := slices_eq h.good
  unfold expectedIndex
  rw [h.geometry]
  exact Nat.mod_lt _ (by omega)

theorem voidTake_horizons {e : Eye} {i : Nat} (hL : ¬ L) (hi : i < g.slices) (h : HorizonsHeld g (· ≠ e) L s) :
    HorizonsHeld g (· ≠ e) L (voidTake e i s) := by
  have hkept := voidTake_keeps e i (.refl s)
  unfold voidTake at hkept ⊢
  split
  · exact h
  · rename_i b hb
    simp only [hb] at hkept
    refine h.of_buffer hi hb hkept (fun c hc => ?_) (fun hL' => absurd hL' hL) rfl
    exact congrArg BufferRecord.full ((buffers_updBuffer s.store b c _).trans (if_neg hc))

theorem pixelTake_horizons {e : Eye} {i : Nat} (t : Tag) (hL : ¬ L) (hi : i < g.slices)
    (h : HorizonsHeld g (· ≠ e) L s) : HorizonsHeld g (· ≠ e) L (pixelTake e i t s) := by
  have hkept := pixelTake_keeps e i t (.refl s)
  unfold pixelTake at hkept ⊢
  split
  · exact h.of_kept (unbufferedTake_keeps e i t (.refl s))
  · rename_i b hb
    simp only [hb] at hkept
    refine h.of_buffer hi hb hkept (fun c hc => ?_) (fun hL' => absurd hL' hL) rfl
    exact congrArg BufferRecord.full ((buffers_updBuffer s.store b c (·.begin t)).trans (if_neg hc))

theorem advance_horizons {e : Eye} (h : HorizonsHeld g (· ≠ e) L s) : HorizonsHeld g (· ≠ e) L (advance e s) :=
  updReceiver_horizons _ h

/-- A change of the counters and of the arriving packet of the lane receiver. -/
theorem updLaneRx_horizons {f : LaneReceiver → LaneReceiver} (h : HorizonsHeld g eyes L s)
    (hf : (f s.laneRx).eyes = s.laneRx.eyes) : HorizonsHeld g eyes L (s.updLaneRx f) :=
  h.of_kept ((KeepsBuffers.refl s).of_eq rfl hf)

theorem voidPositions_horizons {e : Eye} (n : Nat) (hL : ¬ L) (h : HorizonsHeld g (· ≠ e) L s) :
    HorizonsHeld g (· ≠ e) L (voidPositions e n s) := by
  induction n generalizing s with
  | zero => exact h
  | succ n ih =>
    have hvoid := advance_horizons (voidTake_horizons hL (expectedIndex_lt h e) h)
    exact ih (updLaneRx_horizons hvoid rfl)

theorem takePacket_horizons {e : Eye} {i : Nat} (void : Bool) (t : Tag) (hL : ¬ L) (hi : i < g.slices)
    (h : HorizonsHeld g (fun _ => True) L s) : HorizonsHeld g (fun _ => True) L (takePacket e i void t s) := by
  have htake : HorizonsHeld g (· ≠ e) L (if void then voidTake e i s else pixelTake e i t s) :=
    .ite (voidTake_horizons hL hi (h.but e)) (pixelTake_horizons t hL hi (h.but e))
  exact recomputeHorizon_horizons (updLaneRx_horizons (advance_horizons htake) rfl)

theorem placePacket_horizons (p : PacketHeader) (hL : ¬ L) (hi : p.index.toNat < g.slices)
    (h : HorizonsHeld g (fun _ => True) L s) : HorizonsHeld g (fun _ => True) L (placePacket p s) := by
  unfold placePacket
  dsimp only
  split
  · exact takePacket_horizons _ _ hL hi
      (.ite h (recomputeHorizon_horizons (voidPositions_horizons _ hL (h.but _))))
  · exact h.of_kept (mapFault_keeps _ _ _ _ ((KeepsBuffers.refl s).of_eq rfl rfl))

theorem packetHeader_horizons (cut : PixelRun) (p : PacketHeader) (hL : ¬ L)
    (h : HorizonsHeld g (fun _ => True) L s) : HorizonsHeld g (fun _ => True) L (packetHeader cut p s) := by
  have hcut : HorizonsHeld g (fun _ => True) L (cutArriving cut s) := h.of_kept (cutArriving_keeps cut (.refl s))
  unfold packetHeader
  dsimp only
  split
  · exact updLaneRx_horizons hcut rfl
  · rename_i hgood
    simp only [headerBad, Bool.or_eq_true, decide_eq_true_eq, not_or, hcut.geometry] at hgood
    exact placePacket_horizons p hL (by omega) hcut

/-! ### Openings -/

theorem full_openBuffer (k : SliceStore) (b c : Fin 256) :
    (k.openBuffer b).buffers[c].full = if c = b then false else k.buffers[c].full := by
  unfold SliceStore.openBuffer
  split
  · split
    · refine (congrArg BufferRecord.full
        (buffers_updBuffer k b c fun r => { r with full := false, writing := false })).trans ?_
      split <;> rfl
    · rw [buffers_updBuffer]
      split <;> rfl
  · rename_i hopen
    split
    · rename_i hc
      rw [hc]
      exact Bool.eq_false_of_not_eq_true hopen
    · rfl

theorem openSlice_horizons (e : Eye) {i : Nat} (hi : i < g.slices) (h : HorizonsHeld g (fun _ => True) L s) :
    HorizonsHeld g (fun _ => True) L (openSlice e i s) := by
  unfold openSlice
  split
  · exact h
  · rename_i b hb
    split
    · refine recomputeHorizon_horizons ((h.but e).of_buffer hi hb (openBuffer_kept s.store b) (fun c hc => ?_)
        (fun _ => ?_) rfl)
      · exact (full_openBuffer s.store b c).trans (if_neg hc)
      · exact (full_openBuffer s.store b b).trans (if_pos rfl)
    · exact h

theorem openBehind_horizons (e : Eye) {k : Nat} (hk : k < g.slices) (h : HorizonsHeld g (fun _ => True) L s) :
    HorizonsHeld g (fun _ => True) L (openBehind e k s) :=
  openSlice_horizons e hk (.ite (h.of_kept ((KeepsBuffers.refl s).of_eq rfl rfl)) h)

theorem leaveSlice_horizons (e : Eye) {k : Nat} (hk : k - 1 < g.slices) (h : HorizonsHeld g (fun _ => True) L s) :
    HorizonsHeld g (fun _ => True) L (leaveSlice e k s) := by
  have hopen : HorizonsHeld g (fun _ => True) L (if k = 0 then s else openBehind e (k - 1) s) :=
    .ite h (openBehind_horizons e hk h)
  exact hopen.of_kept ((KeepsBuffers.refl _).of_eq (by simp [leaveSlice]) (by simp [leaveSlice]))

theorem turnSlice_horizons (e : Eye) {k : Nat} (hk : k ≤ g.slices) (h : HorizonsHeld g (fun _ => True) L s) :
    HorizonsHeld g (fun _ => True) L (turnSlice e k s) := by
  obtain ⟨hslices, hpos, -⟩ := slices_eq h.good
  have hleave : HorizonsHeld g (fun _ => True) L (if k = 0 then s else leaveSlice e (k - 1) s) :=
    .ite h (leaveSlice_horizons e (by omega) h)
  exact hleave.of_kept (reachSlice_keeps e k (.refl _))

theorem scanEyeLine_horizons (e : Eye) {y : Nat} (hy : y ≤ g.H) (h : HorizonsHeld g (fun _ => True) L s) :
    HorizonsHeld g (fun _ => True) L (scanEyeLine e y s) := by
  have hturn : HorizonsHeld g (fun _ => True) L
      (if y % s.store.geometry.S = 0 then turnSlice e (y / s.store.geometry.S) s else s) := by
    refine .ite (turnSlice_horizons e ?_ h) h
    rw [h.geometry]
    exact Nat.div_le_div_right hy
  exact hturn.of_kept ((KeepsBuffers.refl _).of_eq (by simp [scanEyeLine]) (by simp [scanEyeLine]))

theorem scanLine_horizons {y : Nat} (hy : y ≤ g.H) (h : HorizonsHeld g (fun _ => True) L s) :
    HorizonsHeld g (fun _ => True) L (scanLine y s) :=
  (scanEyeLine_horizons .right hy (scanEyeLine_horizons .left hy h)).of_kept
    ((KeepsBuffers.refl _).of_eq (by simp only [scanLine, updScan_store]) (by simp only [scanLine, updScan_laneRx]))

theorem endEye_horizons (e : Eye) (h : HorizonsHeld g (fun _ => True) L s) :
    HorizonsHeld g (fun _ => True) L (endEye e s) := by
  obtain ⟨hslices, hpos, -⟩ := slices_eq h.good
  have hN : s.store.geometry.slices = g.slices := by rw [h.geometry]
  have hfirst : HorizonsHeld g (fun _ => True) L (takeOverMark e (openBehind e (s.store.geometry.slices - 2) s)) :=
    (openBehind_horizons e (k := s.store.geometry.slices - 2) (by omega) h).of_kept
      ((KeepsBuffers.refl _).of_eq (by simp) (by simp))
  exact (openBehind_horizons e (k := s.store.geometry.slices - 1) (by omega) hfirst).of_kept
    ((KeepsBuffers.refl _).of_eq (by simp [endEye]) (by simp [endEye]))

theorem scanEnd_horizons (h : HorizonsHeld g (fun _ => True) L s) :
    HorizonsHeld g (fun _ => True) L (scanEnd s) :=
  (endEye_horizons .right (endEye_horizons .left h)).of_kept
    ((KeepsBuffers.refl _).of_eq (by simp only [scanEnd, updScan_store]) (by simp only [scanEnd, updScan_laneRx]))

end

/-! ### Every effect -/

theorem act_keepsBuffers {r s : State} (a : Action) (j : Nat) (h : KeepsBuffers r s) : KeepsBuffers r (act a j s) := by
  cases a with
  | frame =>
    unfold act fireFrame
    dsimp only
    split
    · exact loadCredit_keeps (h.of_eq (by simp) (by simp))
    · exact h
    · exact h
  | _ => exact h.of_eq (by simp [act]) (by simp [act])

theorem fire_keepsBuffers {r s : State} (a : Action) (h : KeepsBuffers r s) : KeepsBuffers r (fire a s) :=
  fire_keeps (P := KeepsBuffers r) (fun _ a j _ _ h => act_keepsBuffers a j h) (fun _ _ h => h) h

/-- What an effect does to the buffers and to the receiver's positions: nothing, but for the loader's effects, a packet
taken, and the scan. -/
theorem effect_buffers {i : Instr} {s t : State} (h : Effect i s t) :
    (∃ straps, t = State.powerOn straps s.pins s.pending s.free) ∨ (∃ straps, t = restartWith straps s) ∨
      (∃ straps image, s.loader.life = .loading ∧ t = install (loadProfile straps image) s) ∨
      (∃ cut p, s.loader.life ≠ .loading ∧ t = packetHeader cut p s) ∨
      (s.scan.nextLine < s.store.geometry.H ∧ t = scanLine s.scan.nextLine s) ∨ t = scanEnd s ∨ KeepsBuffers s t := by
  cases h with
  | powerOn straps => exact .inl ⟨straps, rfl⟩
  | restart straps => exact .inr (.inl ⟨straps, rfl⟩)
  | install straps image hlife => exact .inr (.inr (.inl ⟨straps, image, hlife, rfl⟩))
  | packetHeader cut p hactive =>
    refine .inr (.inr (.inr (.inl ⟨cut, p, ?_, rfl⟩)))
    simp only [State.headsetActive, Bool.and_eq_true, bne_iff_ne] at hactive
    exact hactive.2
  | scanLine hdue =>
    simp only [State.lineDue, Bool.and_eq_true, decide_eq_true_eq] at hdue
    exact .inr (.inr (.inr (.inr (.inl ⟨hdue.1.2, rfl⟩))))
  | scanEnd => exact .inr (.inr (.inr (.inr (.inr (.inl rfl)))))
  | messageTaken m => exact .inr (.inr (.inr (.inr (.inr (.inr (messageTaken_keeps m (.refl s)))))))
  | sendEnd x => exact .inr (.inr (.inr (.inr (.inr (.inr (sendEnd_keeps x (.refl s)))))))
  | setLaneSignal v run =>
    exact .inr (.inr (.inr (.inr (.inr (.inr (setLaneSignal_keeps v run (.refl s)))))))
  | packetEnd p run check =>
    exact .inr (.inr (.inr (.inr (.inr (.inr (endArriving_keeps p run _ (.refl s)))))))
  | fire a => exact .inr (.inr (.inr (.inr (.inr (.inr (fire_keepsBuffers a (.refl s)))))))
  | expireEntry n =>
    exact .inr (.inr (.inr (.inr (.inr (.inr (recomputeAndAnnounce_keeps (s := s.updPower _) (.refl s)))))))
  | completeReading r => exact .inr (.inr (.inr (.inr (.inr (.inr (completeReading_keeps r (.refl s)))))))
  | answer c rest a _ _ ha =>
    exact .inr (.inr (.inr (.inr (.inr (.inr ((carried_keepsBuffers ha).of_eq (by simp) (by simp)))))))
  | _ => exact .inr (.inr (.inr (.inr (.inr (.inr ((KeepsBuffers.refl s).of_eq (by simp) (by simp)))))))

/-- The three properties together, with LOADING as the place where every buffer is OPEN. -/
theorem horizonsHeld_iff (s : State) :
    (geometryOk s ∧ bandsOk s ∧ horizonsOk s) ↔
      HorizonsHeld s.store.geometry (fun _ => True) (s.loader.life = .loading) s :=
  ⟨fun ⟨hg, hb, hr, hl⟩ => ⟨rfl, hg, hb, fun e _ => hr e, hl⟩,
    fun ⟨_, hg, hb, hr, hl⟩ => ⟨hg, hb, fun e => hr e trivial, hl⟩⟩

/-- A state whose buffers are all OPEN and whose eyes stand at accepted + N. -/
theorem horizonsOk_of_open {t : State} (hg : geometryOk t) (hopen : ∀ b : Fin 256, t.store.buffers[b].full = false)
    (heyes : t.laneRx.eyes = .same (receiverEyeAtPowerOn t.store.geometry.slices)) : horizonsOk t := by
  refine ⟨fun e => ?_, fun _ => hopen⟩
  rw [heyes]
  cases e <;> exact horizonIsRun_of_open hg hopen _

theorem powerOn_horizonsOk (straps : Straps) (pins : Pins) (pending : List Instr) (free : Nat) :
    horizonsOk (State.powerOn straps pins pending free) :=
  horizonsOk_of_open (loadedOk_defaults straps.role straps.node).geometry
    (fun b => by simp [State.powerOn, storeAtPowerOn, bufferAtPowerOn]) rfl

theorem restartWith_horizonsOk (straps : Straps) (s : State) : horizonsOk (restartWith straps s) :=
  horizonsOk_of_open (loadedOk_defaults straps.role straps.node).geometry
    (fun b => by simp [restartWith, keepThrough, State.powerOn, storeAtPowerOn, bufferAtPowerOn]) rfl

theorem effect_keeps_horizonsOk {i : Instr} {s t : State} (h : Effect i s t) (hg : geometryOk s) (hb : bandsOk s)
    (hs : horizonsOk s) : horizonsOk t := by
  have hheld := (horizonsHeld_iff s).mp ⟨hg, hb, hs⟩
  have hfinish (hloading : t.loader.life = .loading → s.loader.life = .loading)
      (ht : HorizonsHeld s.store.geometry (fun _ => True) (s.loader.life = .loading) t) : horizonsOk t :=
    ⟨fun e => ht.runs e trivial, fun hlife => ht.opened (hloading hlife)⟩
  obtain ⟨straps, rfl⟩ | ⟨straps, rfl⟩ | ⟨straps, image, hlife, rfl⟩ | ⟨cut, p, hlife, rfl⟩ | ⟨hnext, rfl⟩ | rfl |
    hkept := effect_buffers h
  · exact powerOn_horizonsOk ..
  · exact restartWith_horizonsOk ..
  · refine horizonsOk_of_open ?_ ?_ ?_
    · rw [geometryOk_iff, install_store]
      exact (loadedOk_profile straps image).geometry
    · rw [install_store]
      exact hs.2 hlife
    · rw [install_laneRx, install_store]
  · exact hfinish (by simp) (packetHeader_horizons cut p hlife hheld)
  · exact hfinish (by simp) (scanLine_horizons hnext.le hheld)
  · exact hfinish (by simp) (scanEnd_horizons hheld)
  · obtain ⟨straps, -, rfl⟩ | ⟨straps, rfl⟩ | ⟨straps, image, hlife, rfl⟩ | hloading := effect_loading h
    · exact powerOn_horizonsOk ..
    · exact restartWith_horizonsOk ..
    · exact ⟨fun e => (hheld.of_kept hkept).runs e trivial, fun _ => (hheld.of_kept hkept).opened hlife⟩
    · exact hfinish hloading.mp (hheld.of_kept hkept)

/-- Settles O56: what takes or opens a buffer recomputes the horizon of its eye, and two eyes share no buffer. -/
theorem stepKeepsHorizonsAtOpenRuns : Obligations.StepKeepsHorizonsAtOpenRuns := by
  unfold Obligations.StepKeepsHorizonsAtOpenRuns
  intro s t hg hb hs h
  obtain rfl | ⟨i, rest, -, hi⟩ := tick_or_effect_of_step h
  · unfold horizonsOk
    rw [(by simp : (tick s).store = s.store), (by simp : (tick s).laneRx = s.laneRx),
      (by simp : (tick s).loader = s.loader)]
    exact hs
  · exact effect_keeps_horizonsOk hi hg hb hs

end Sys2Proof.Machine
end

