-- ==== Sys2Proof/Proofs/PlaybackKept.lean ====
section
/-! PROOF. The moves of the audio unit (R145 to R159) and what is kept by all of them: the block list accounts for the
frames of the ring, and ring, list and capture buffers stay within their room. -/

namespace Sys2Proof.Machine

/-! ### The moves -/

/-- Both capture buffers hold fewer samples than a block (R157). -/
def capturesShort (c : Capture) : Prop := c.a.samples.length < 16 ∧ c.b.samples.length < 16

/-- A change of counters, settings and capture; the stream is as it was. -/
structure StreamKept (a b : Audio) : Prop where
  state : b.state = a.state
  origin : b.origin = a.origin
  lastSeq : b.lastSeq = a.lastSeq
  ring : b.ring = a.ring
  blocks : b.blocks = a.blocks
  silence : b.silence = a.silence
  capture : capturesShort a.capture → capturesShort b.capture

/-- A run begins with a block, in PRIMING (R148). -/
def Audio.primed (a : Audio) (b : AudioBlock) : Audio :=
  { a with state := .priming, ring := b.frames, blocks := [b.record], lastSeq := some b.sequence, lastFrame := b.last }

theorem runWith_eq (a : Audio) (b : AudioBlock) (agreed : Nat) :
    a.runWith b agreed = if stampReached b.stamp agreed then (a.primed b).enterPlaying else a.primed b := rfl

/-- What every move of the audio unit keeps. -/
structure AudioInvariant (P : Audio → Prop) : Prop where
  kept : ∀ a b, StreamKept a b → P a → P b
  idle : ∀ a, P a → P a.goIdle
  turn : ∀ (a : Audio) st, a.state ≠ .idle → st ≠ .idle → (st = .underrun → a.ring = []) → P a →
    P { a with state := st }
  flush : ∀ a : Audio, a.state ≠ .idle → P a → P { a with ring := [], blocks := [] }
  count : ∀ (a : Audio) n, a.state ≠ .idle → n ≤ silenceLimit → P a → P { a with silence := some n }
  claim : ∀ (a : Audio) origin (b : AudioBlock), b.frames.length = 8 → P a →
    P ({ a with origin := some origin, silence := some 0 : Audio }.primed b)
  run : ∀ (a : Audio) (b : AudioBlock), b.frames.length = 8 → a.state ≠ .idle → P a → P (a.primed b)
  place : ∀ (a : Audio) (b : AudioBlock) d, b.frames.length = 8 → a.state ≠ .idle → a.state ≠ .underrun → 1 ≤ d →
    a.hasRoom d = true → P a → P ((a.fill d).append b)
  give : ∀ (a : Audio) us, a.state ≠ .idle → a.ring ≠ [] → P a → P (a.give us).2

/-- DRAINING returns to PLAYING, and neither is IDLE or UNDERRUN (R150). -/
theorem resume_state {a : Audio} (hidle : a.state ≠ .idle) (hunderrun : a.state ≠ .underrun) :
    a.resume.state ≠ .idle ∧ a.resume.state ≠ .underrun := by
  unfold Audio.resume
  split
  · exact ⟨nofun, nofun⟩
  · exact ⟨hidle, hunderrun⟩

theorem resume_hasRoom (a : Audio) (d : Nat) : a.resume.hasRoom d = a.hasRoom d := by
  unfold Audio.resume
  split <;> rfl

theorem framesFrom_length (body : List Byte) (n off : Nat) : (framesFrom body n off).length = n := by
  induction n generalizing off with
  | zero => rfl
  | succ n ih => simp [framesFrom, ih]

theorem latch_audio (f : Flag) (s : State) : (latch f s).audio = s.audio := by simp

section

variable {P : Audio → Prop} (hP : AudioInvariant P) {s : State}

include hP

/-! ### The unit's own functions -/

theorem AudioInvariant.counters {a b : Audio} (h : P a) (hkept : StreamKept a b) : P b := hP.kept a b hkept h

theorem checkSilence_keeps {a : Audio} (h : P a) : P a.checkSilence := by
  unfold Audio.checkSilence
  split
  · split
    · rename_i hstate
      exact hP.turn a .draining (by simp [hstate]) (by decide) nofun h
    · exact hP.idle a h
    · exact h
    · exact h
    · exact h
  · exact h

theorem enterPlaying_keeps {a : Audio} (hstate : a.state ≠ .idle) (h : P a) : P a.enterPlaying :=
  checkSilence_keeps hP (hP.turn a .playing hstate (by decide) nofun h)

theorem runWith_keeps {a : Audio} {b : AudioBlock} (agreed : Nat) (h : P (a.primed b)) : P (a.runWith b agreed) := by
  rw [runWith_eq]
  split
  · exact enterPlaying_keeps hP (a := a.primed b) nofun h
  · exact h

theorem startRun_keeps {a failed : Audio} {b : AudioBlock} (agreed : Nat) (hrun : P (a.primed b)) (hfailed : P failed) :
    P (a.startRun failed b agreed) := by
  unfold Audio.startRun
  split
  · exact hP.counters hfailed ⟨rfl, rfl, rfl, rfl, rfl, rfl, id⟩
  · split
    · exact hP.counters hfailed ⟨rfl, rfl, rfl, rfl, rfl, rfl, id⟩
    · exact runWith_keeps hP agreed hrun

theorem restartRun_keeps {a : Audio} {b : AudioBlock} (agreed : Nat) (hb : b.frames.length = 8)
    (hstate : a.state ≠ .idle) (hring : a.ring = []) (h : P a) : P (a.restartRun b agreed) :=
  startRun_keeps hP agreed (hP.run a b hb hstate h) (hP.turn a .underrun hstate (by decide) (fun _ => hring) h)

theorem resume_keeps {a : Audio} (h : P a) : P a.resume := by
  unfold Audio.resume
  split
  · rename_i hstate
    exact hP.turn a .playing (by simp [hstate]) (by decide) nofun h
  · exact h

theorem resync_keeps {a : Audio} {b : AudioBlock} (agreed : Nat) (hb : b.frames.length = 8) (hstate : a.state ≠ .idle)
    (h : P a) : P (a.resync b agreed) := by
  have hflushed : P { a with ring := [], blocks := [], resyncs := bump a.resyncs } :=
    hP.counters (hP.flush a hstate h) ⟨rfl, rfl, rfl, rfl, rfl, rfl, id⟩
  exact restartRun_keeps hP agreed hb hstate rfl hflushed

theorem countSilence_keeps {a : Audio} (h : P a) : P a.countSilence := by
  unfold Audio.countSilence
  split
  · exact h
  · rename_i hstate
    refine checkSilence_keeps hP ?_
    cases hn : a.silence with
    | none => exact hP.counters h ⟨rfl, rfl, rfl, rfl, rfl, by simp [hn], id⟩
    | some n => exact hP.count a (min (n + 1) silenceLimit) hstate (Nat.min_le_right ..) h

/-! ### The unit in the station -/

theorem placeBlock_keeps {b : AudioBlock} (hb : b.frames.length = 8) (hidle : s.audio.state ≠ .idle)
    (hunderrun : s.audio.state ≠ .underrun) (h : P s.audio) : P (placeBlock b s).audio := by
  have hresumed : P s.audio.resume := resume_keeps hP h
  unfold placeBlock
  dsimp only
  split
  · exact hP.counters hresumed ⟨rfl, rfl, rfl, rfl, rfl, rfl, id⟩
  · rename_i hd
    split
    · exact resync_keeps hP _ hb hidle h
    · split
      · rename_i hroom
        obtain ⟨hidle', hunderrun'⟩ := resume_state hidle hunderrun
        exact hP.place _ b _ hb hidle' hunderrun' (by omega) (by rw [resume_hasRoom]; exact hroom) hresumed
      · rw [latch_audio]
        exact hP.counters hresumed ⟨rfl, rfl, rfl, rfl, rfl, rfl, id⟩

theorem streamBlock_keeps {b : AudioBlock} (hb : b.frames.length = 8) (h : P s.audio) :
    P (streamBlock b s).audio := by
  have hplace (hidle : s.audio.state ≠ .idle) (hunderrun : s.audio.state ≠ .underrun) : P (placeBlock b s).audio :=
    placeBlock_keeps hP hb hidle hunderrun h
  unfold streamBlock
  split
  · exact h
  · rename_i hstate
    split
    · exact hP.counters h ⟨rfl, rfl, rfl, rfl, rfl, rfl, id⟩
    · exact hplace (by simp [hstate]) (by simp [hstate])
  · rename_i hstate
    exact hplace (by simp [hstate]) (by simp [hstate])
  · rename_i hstate
    exact hplace (by simp [hstate]) (by simp [hstate])
  · rename_i hstate
    change P (s.audio.fromUnderrun b s.agreed)
    unfold Audio.fromUnderrun
    split
    · exact hP.counters h ⟨rfl, rfl, rfl, rfl, rfl, rfl, id⟩
    · exact startRun_keeps hP _ (hP.run _ b hb (by simp [hstate]) h)
        (hP.counters h ⟨hstate.symm, rfl, rfl, rfl, rfl, rfl, id⟩)

theorem takeBlock_keeps {origin : Node} {b : AudioBlock} (hb : b.frames.length = 8) (h : P s.audio) :
    P (takeBlock origin b s).audio := by
  have htaken : P { s.audio with taken := bump s.audio.taken } :=
    hP.counters h ⟨rfl, rfl, rfl, rfl, rfl, rfl, id⟩
  unfold takeBlock
  dsimp only
  split
  · exact startRun_keeps hP _ (hP.claim _ origin b hb htaken) htaken
  · rename_i hstate
    split
    · exact streamBlock_keeps hP hb (s := (s.updAudio fun a => { a with taken := bump a.taken }).updAudio _)
        (hP.count _ 0 hstate (Nat.zero_le _) htaken)
    · exact hP.counters htaken ⟨rfl, rfl, rfl, rfl, rfl, rfl, id⟩

theorem takeAudio_keeps (rank : Rank) (body : List Byte) (h : P s.audio) : P (takeAudio rank body s).audio := by
  unfold takeAudio
  split
  · exact takeBlock_keeps hP (framesFrom_length body 8 5) h
  · exact hP.counters h ⟨rfl, rfl, rfl, rfl, rfl, rfl, id⟩

theorem giveFrame_keeps (h : P s.audio) : P (giveFrame s).2.audio := by
  unfold giveFrame
  dsimp only
  split
  · exact h
  · exact h
  · exact h
  · rename_i hstate
    split
    · rename_i hempty
      have hstopped : P { s.audio with state := .underrun, underruns := bump s.audio.underruns } :=
        hP.counters (hP.turn s.audio .underrun (by simp [hstate]) (by decide)
          (fun _ => List.isEmpty_iff.mp hempty) h) ⟨rfl, rfl, rfl, rfl, rfl, rfl, id⟩
      rw [latch_audio]
      exact hstopped
    · rename_i hframes
      exact hP.give _ _ (by simp [hstate]) (fun hempty => hframes (List.isEmpty_iff.mpr hempty)) h
  · rename_i hstate
    split
    · exact hP.idle _ h
    · rename_i hframes
      exact hP.give _ _ (by simp [hstate]) (fun hempty => hframes (List.isEmpty_iff.mpr hempty)) h

theorem playFrame_keeps (h : P s.audio) : P (playFrame s).audio :=
  countSilence_keeps hP (giveFrame_keeps hP h)

/-! ### Capture -/

/-- A change of capture keeps the stream. -/
theorem updCapture_keeps {f : Capture → Capture}
    (hf : capturesShort s.audio.capture → capturesShort (f s.audio.capture))
    (h : P s.audio) : P (s.updCapture f).audio :=
  hP.counters h ⟨rfl, rfl, rfl, rfl, rfl, rfl, hf⟩

theorem loadCapture_keeps (body : List Byte) (h : P s.audio) : P (loadCapture body s).audio := by
  have hload : (loadSlot .audio (ownContent s 4 1 body) s).audio = s.audio := by simp
  unfold loadCapture
  dsimp only
  split
  · have hcounted : P { s.audio with captureOverruns := bump s.audio.captureOverruns } :=
      hP.counters h ⟨rfl, rfl, rfl, rfl, rfl, rfl, id⟩
    simpa [hload] using hcounted
  · rw [hload]
    exact h

theorem captureSample_keeps (sample : BitVec 16) (h : P s.audio) : P (captureSample sample s).audio := by
  unfold captureSample
  split
  · split
    · unfold sampleIntoA
      dsimp only
      split
      · rename_i hshort
        exact updCapture_keeps hP (fun hc => ⟨hshort, hc.2⟩) h
      · exact loadCapture_keeps hP _ (updCapture_keeps hP (fun _ => ⟨Nat.zero_lt_succ 15, Nat.zero_lt_succ 15⟩) h)
    · split
      · unfold sampleIntoB
        dsimp only
        split
        · rename_i hshort
          exact updCapture_keeps hP (fun hc => ⟨hc.1, hshort⟩) h
        · exact loadCapture_keeps hP _ (updCapture_keeps hP (fun _ => ⟨Nat.zero_lt_succ 15, Nat.zero_lt_succ 15⟩) h)
      · exact h
  · exact h

theorem start_keeps (h : P s.audio) : P (s.updCapture (·.start)).audio :=
  updCapture_keeps hP (fun _ => ⟨Nat.zero_lt_succ 15, Nat.zero_lt_succ 15⟩) h

theorem leaveService_keeps (h : P s.audio) : P (leaveService s).audio := by
  unfold leaveService
  split
  · exact updCapture_keeps hP (fun _ => ⟨Nat.zero_lt_succ 15, Nat.zero_lt_succ 15⟩) h
  · exact h

theorem returnToService_keeps (h : P s.audio) : P (returnToService s).audio := by
  have hload : P (if s.alarms.unsent = 0 then s else loadAlarm s).audio := by
    split
    · exact h
    · simpa using h
  unfold returnToService
  dsimp only
  generalize (if s.alarms.unsent = 0 then s else loadAlarm s) = loaded at hload ⊢
  split
  · exact start_keeps hP hload
  · exact hload

theorem setCapture_keeps (on : Bool) (h : P s.audio) : P (setCapture on s).audio := by
  have hswitch : P (s.updCapture fun c => { c with switch := true }).audio := updCapture_keeps hP id h
  unfold setCapture
  dsimp only
  split
  · exact h
  · split
    · split
      · exact start_keeps hP hswitch
      · exact hswitch
    · exact updCapture_keeps hP (fun _ => ⟨Nat.zero_lt_succ 15, Nat.zero_lt_succ 15⟩) h

/-! ### Service and messages -/

theorem enterRunning_keeps (h : P s.audio) : P (enterRunning s).audio := by
  have hservice : P (returnToService ((rechooseAtEntry (s.updLoader fun l => { l with life := .running })).updTime
      fun t => { t with prevStart := none, timer := none })).audio :=
    returnToService_keeps hP (by simpa using h)
  unfold enterRunning
  simpa using hservice

theorem leaveListening_keeps (h : P s.audio) : P (leaveListening s).audio := by
  by_cases hheld : s.isLatched .dupnode
  · rw [leaveListening, if_pos hheld]
    exact h
  · rw [leaveListening, if_neg hheld]
    exact enterRunning_keeps hP h

theorem takeTime_keeps (rank : Rank) (body : List Byte) (start : Int) (h : P s.audio) :
    P (takeTime rank body start s).audio := by
  unfold takeTime
  split
  · exact h
  · split
    · exact h
    · unfold takeBeacon
      dsimp only
      split
      · simpa using h
      · split
        · exact leaveListening_keeps hP (by simpa using h)
        · simpa using h

theorem handTo_keeps (u : TakingUnit) (m : Arrival) (h : P s.audio) : P (handTo u m s).audio := by
  cases u with
  | time => exact takeTime_keeps hP _ _ _ h
  | audio => exact takeAudio_keeps hP _ _ h
  | lane => simpa [handTo] using h
  | power => simpa [handTo] using h
  | command => simpa [handTo] using h

theorem routeMessage_keepsAudio (m : Arrival) (h : P s.audio) : P (routeMessage m s).audio := by
  unfold routeMessage deliverTo
  dsimp only
  split
  · exact h
  · exact handTo_keeps hP _ m h
  · simpa using h
  · exact handTo_keeps hP _ m (by simpa using h)
  · exact h
  · exact h

theorem rejoin_keeps (h : P s.audio) : P (rejoin s).audio := by
  unfold rejoin
  dsimp only
  split
  · exact returnToService_keeps hP h
  · exact h

theorem quietRun_keeps (driven : Bool) (h : P s.audio) : P (quietRun driven s).audio := by
  unfold quietRun
  dsimp only
  split
  · split
    · exact rejoin_keeps hP h
    · exact h
  · exact h

theorem sendError_keeps (k : SendErrorKind) (x : Transmission) (h : P s.audio) : P (sendError k x s).audio := by
  unfold sendError
  dsimp only
  split
  · exact leaveService_keeps hP (by simpa using h)
  · simpa using h

theorem withdraw_keeps (h : P s.audio) : P (withdraw s).audio := by
  have hleft : P (leaveService ((clearSlots (s.updLoader fun l => { l with life := .listening })).updTime fun t =>
      { t with timer := some (clearSlots (s.updLoader fun l => { l with life := .listening })).agreed })).audio :=
    leaveService_keeps hP (by simpa using h)
  unfold withdraw
  simpa using hleft

theorem duplicateNode_keeps (h : P s.audio) : P (duplicateNode s).audio := by
  unfold duplicateNode
  dsimp only
  split
  · exact withdraw_keeps hP (by simpa using h)
  · simpa using h

theorem messageTaken_keepsAudio (m : Received) (h : P s.audio) : P (messageTaken m s).audio := by
  unfold messageTaken
  dsimp only
  split
  · exact duplicateNode_keeps hP (by simpa using h)
  · exact routeMessage_keepsAudio hP _ (by simpa using h)

theorem sendEnd_keepsAudio (x : Transmission) (h : P s.audio) : P (sendEnd x s).audio := by
  have hsettled : P (settleStanding ((slotSent x (s.slot x.slot).attempts ((s.updSlot x.slot (·.finish)).updSpine
      (·.ended true))).updSpine fun p => { p with sfc := p.sfc - 1 })).audio := by simpa using h
  unfold sendEnd
  dsimp only
  split
  · exact routeMessage_keepsAudio hP _ hsettled
  · exact hsettled

/-! ### Every effect -/

theorem carried_keepsAudio {c : Command} {a : Answer} (ha : Carried c s a) (h : P s.audio) : P a.state.audio := by
  cases ha with
  | status => unfold answerStatus; dsimp only; split <;> exact h
  | clearMapFault => unfold answerClearMapFault; split <;> exact h
  | capture => exact setCapture_keeps hP _ h
  | setGain => exact hP.counters h ⟨rfl, rfl, rfl, rfl, rfl, rfl, id⟩
  | readQueue => simpa using h
  | _ => exact h

theorem effect_keepsAudio {i : Instr} {t : State} (hstart : ∀ st, P (audioAtPowerOn st)) (h : Effect i s t)
    (hs : P s.audio) : P t.audio := by
  cases h with
  | powerOn straps => exact hstart _
  | restart straps => exact hstart _
  | install straps image =>
    rw [install_audio]
    exact hP.counters hs ⟨rfl, rfl, rfl, rfl, rfl, rfl, fun _ => ⟨Nat.zero_lt_succ 15, Nat.zero_lt_succ 15⟩⟩
  | quietRun driven => exact quietRun_keeps hP driven hs
  | sendError k x => exact sendError_keeps hP k x hs
  | messageTaken m => exact messageTaken_keepsAudio hP m hs
  | sendEnd x => exact sendEnd_keepsAudio hP x hs
  | leaveListening hout => exact leaveListening_keeps hP (s := s.updTime _) hs
  | enterPlaying hdue =>
    refine enterPlaying_keeps hP (fun hidle => ?_) hs
    simp [State.playDue, hidle] at hdue
  | codecFrame mic => exact captureSample_keeps hP mic (playFrame_keeps hP hs)
  | checkSilence => exact checkSilence_keeps hP hs
  | answer c rest a _ _ ha => simpa using carried_keepsAudio hP ha (s := beginAnswer c rest s) (by simpa using hs)
  | _ => simpa using hs

theorem step_keepsAudio {t : State} (hstart : ∀ st, P (audioAtPowerOn st)) (hs : P s.audio) (h : step s = .next t) :
    P t.audio :=
  step_keeps (P := fun s => P s.audio) (fun _ _ h => h) (fun s hs => by simpa using hs)
    (fun _ _ _ h => effect_keepsAudio hP hstart h) hs h

end

end Sys2Proof.Machine
end

