-- ==== Sys2Proof/Proofs/AudioAccounts.lean ====
section
/-! PROOF. The block list of the stream accounts for the frames of its ring (R146), and ring and list stay within their
room. -/

namespace Sys2Proof.Machine

/-- The frames that a block list accounts for. -/
def framesOf (rs : List BlockRecord) : Nat := (rs.map (·.remaining)).sum

/-- A record covers at least one frame, and a BLOCK record that has not started covers 8 (R146). -/
def recordOk (r : BlockRecord) : Prop := 1 ≤ r.remaining ∧ (r.started = false → r.kind ≠ .fill → r.remaining = 8)

/-- The list accounts for the ring. -/
def Audio.accounts (a : Audio) : Prop := framesOf a.blocks = a.ring.length ∧ ∀ r ∈ a.blocks, recordOk r

/-- IDLE and UNDERRUN have no frames; IDLE alone has no origin, no last sequence and no running silence timer (R146,
R154). -/
structure Audio.settled (a : Audio) : Prop where
  empty : a.state = .idle ∨ a.state = .underrun → a.ring = []
  origin : a.state = .idle ↔ a.origin = none
  lastSeq : a.state = .idle ↔ a.lastSeq = none
  silence : a.state = .idle ↔ a.silence = none
  limit : ∀ n, a.silence = some n → n ≤ 2400

theorem audioOk_iff (s : State) : audioOk s ↔ s.audio.accounts ∧ s.audio.settled := by
  unfold audioOk Audio.accounts recordOk framesOf
  dsimp only
  constructor
  · rintro ⟨hsum, hone, height, hempty, horigin, hseq, hsilence, hlimit⟩
    exact ⟨⟨hsum, fun r hr => ⟨hone r hr, height r hr⟩⟩, hempty, horigin, hseq, hsilence, hlimit⟩
  · rintro ⟨⟨hsum, hrecords⟩, hempty, horigin, hseq, hsilence, hlimit⟩
    exact ⟨hsum, fun r hr => (hrecords r hr).1, fun r hr => (hrecords r hr).2, hempty, horigin, hseq, hsilence, hlimit⟩

theorem framesOf_append (xs ys : List BlockRecord) : framesOf (xs ++ ys) = framesOf xs + framesOf ys := by
  simp [framesOf]

theorem framesOf_cons (r : BlockRecord) (rs : List BlockRecord) : framesOf (r :: rs) = r.remaining + framesOf rs := by
  simp [framesOf]

theorem recordOk_record (b : AudioBlock) : recordOk b.record := ⟨Nat.le_add_left 1 7, fun _ _ => rfl⟩

/-! ### What appending and giving do to the accounts -/

theorem primed_accounts {a : Audio} {b : AudioBlock} (hb : b.frames.length = 8) : (a.primed b).accounts := by
  refine ⟨?_, fun r hr => ?_⟩
  · simp [Audio.primed, framesOf, AudioBlock.record, hb]
  · obtain rfl : r = b.record := by simpa [Audio.primed] using hr
    exact recordOk_record b

theorem fill_accounts {a : Audio} {d : Nat} (hd : 1 ≤ d) (h : a.accounts) : (a.fill d).accounts := by
  obtain ⟨hsum, hrecords⟩ := h
  unfold Audio.fill
  split
  · exact ⟨hsum, hrecords⟩
  · refine ⟨?_, fun r hr => ?_⟩
    · simp only [framesOf_append, framesOf_cons, hsum, List.length_append, List.length_replicate]
      rfl
    · obtain hr | hr := List.mem_append.mp hr
      · exact hrecords r hr
      · rw [List.mem_singleton.mp hr]
        exact ⟨by dsimp only; omega, fun _ hkind => absurd rfl hkind⟩

theorem append_accounts {a : Audio} {b : AudioBlock} (hb : b.frames.length = 8) (h : a.accounts) :
    (a.append b).accounts := by
  obtain ⟨hsum, hrecords⟩ := h
  refine ⟨?_, fun r hr => ?_⟩
  · simp only [Audio.append, framesOf_append, hsum, List.length_append, hb]
    rfl
  · obtain hr | hr := List.mem_append.mp hr
    · exact hrecords r hr
    · rw [List.mem_singleton.mp hr]
      exact recordOk_record b

/-- R152: `n` frames leave, and the first record with its last frame; it covered at least as many. -/
theorem leave_accounts {a : Audio} {r : BlockRecord} {rest : List BlockRecord} {n : Nat} (hn : n ≤ r.remaining)
    (hstarted : r.started = true ∨ r.kind = .fill) (hsum : r.remaining + framesOf rest = a.ring.length)
    (hrest : ∀ x ∈ rest, recordOk x) : (a.leave r rest n).accounts := by
  unfold Audio.leave
  split
  · refine ⟨?_, hrest⟩
    simp only [List.length_drop]
    omega
  · rename_i hleft
    refine ⟨?_, fun x hx => ?_⟩
    · simp only [framesOf_cons, List.length_drop]
      omega
    · obtain rfl | hx := List.mem_cons.mp hx
      · refine ⟨by dsimp only; omega, fun hfresh hkind => ?_⟩
        obtain h | h := hstarted
        · rw [h] at hfresh
          cases hfresh
        · exact absurd h hkind
      · exact hrest x hx

theorem slipOf_le (error : Int) (limit : Nat) : (slipOf error limit).1 ≤ 2 := by
  unfold slipOf
  split
  · exact Nat.le_refl 2
  · split <;> decide

theorem give_accounts {a : Audio} (us : Nat) (hring : a.ring ≠ []) (h : a.accounts) : (a.give us).2.accounts := by
  obtain ⟨hsum, hrecords⟩ := h
  unfold Audio.give
  split
  · rename_i r rest hblocks
    rw [hblocks, framesOf_cons] at hsum
    rw [hblocks] at hrecords
    obtain ⟨hone, height⟩ := hrecords r (List.mem_cons_self ..)
    have hrest (x : BlockRecord) (hx : x ∈ rest) : recordOk x := hrecords x (List.mem_cons_of_mem r hx)
    unfold Audio.giveFrom
    split
    · rename_i seq stamp hkind hstarted
      have hslip := slipOf_le ((us : Int) - stamp) a.slipLimit
      have hremaining : r.remaining = 8 := height hstarted (by simp [hkind])
      exact leave_accounts (r := { r with started := true }) (by dsimp only; omega) (.inl rfl) hsum hrest
    · rename_i hstarted
      exact leave_accounts hone (.inl hstarted) hsum hrest
    · exact leave_accounts (r := { r with started := true }) hone (.inl rfl) hsum hrest
  · rename_i hblocks
    rw [hblocks] at hsum
    exact absurd (List.length_eq_zero_iff.mp hsum.symm) hring

/-- Frames that are given leave the rest of the stream as it is. -/
theorem give_stream (a : Audio) (us : Nat) :
    (a.give us).2.state = a.state ∧ (a.give us).2.origin = a.origin ∧ (a.give us).2.lastSeq = a.lastSeq ∧
      (a.give us).2.silence = a.silence ∧ (a.give us).2.ring.length ≤ a.ring.length ∧
      (a.give us).2.blocks.length ≤ a.blocks.length ∧ (a.give us).2.capture = a.capture := by
  have hleave (a : Audio) (r : BlockRecord) (rest : List BlockRecord) (n : Nat) :
      (a.leave r rest n).ring.length ≤ a.ring.length ∧ (a.leave r rest n).blocks.length ≤ rest.length + 1 := by
    unfold Audio.leave
    refine ⟨by simp, ?_⟩
    dsimp only
    split <;> simp
  unfold Audio.give
  split
  · rename_i r rest hblocks
    rw [hblocks]
    unfold Audio.giveFrom
    split
    · exact ⟨rfl, rfl, rfl, rfl, (hleave _ _ _ _).1, (hleave _ _ _ _).2, rfl⟩
    · exact ⟨rfl, rfl, rfl, rfl, (hleave _ _ _ _).1, (hleave _ _ _ _).2, rfl⟩
    · exact ⟨rfl, rfl, rfl, rfl, (hleave _ _ _ _).1, (hleave _ _ _ _).2, rfl⟩
  · exact ⟨rfl, rfl, rfl, rfl, by simp, Nat.le_refl _, rfl⟩

/-! ### The accounts are kept -/

theorem settled_of_running {a b : Audio} (h : a.settled) (hidle : a.state ≠ .idle) (hstate : b.state ≠ .idle)
    (hempty : b.state = .underrun → b.ring = []) (horigin : b.origin = a.origin) (hseq : b.lastSeq ≠ none)
    (hsilence : b.silence = a.silence) : b.settled := by
  refine ⟨fun hs => hs.elim (fun hs => absurd hs hstate) hempty, ?_, ?_, ?_, ?_⟩
  · rw [horigin]
    exact ⟨fun hs => absurd hs hstate, fun hs => absurd (h.origin.mpr hs) hidle⟩
  · exact ⟨fun hs => absurd hs hstate, fun hs => absurd hs hseq⟩
  · rw [hsilence]
    exact ⟨fun hs => absurd hs hstate, fun hs => absurd (h.silence.mpr hs) hidle⟩
  · rw [hsilence]
    exact h.limit

theorem lastSeq_ne_none {a : Audio} (h : a.settled) (hidle : a.state ≠ .idle) : a.lastSeq ≠ none :=
  fun hnone => hidle (h.lastSeq.mpr hnone)

theorem fill_stream (a : Audio) (d : Nat) :
    (a.fill d).state = a.state ∧ (a.fill d).origin = a.origin ∧ (a.fill d).silence = a.silence ∧
      (a.fill d).capture = a.capture ∧
      (a.fill d).ring.length = a.ring.length + (d - 1) * 8 ∧
      (a.fill d).blocks.length = a.blocks.length + if d = 1 then 0 else 1 := by
  unfold Audio.fill
  split
  · rename_i hd
    simp [hd]
  · simp

theorem accounts_invariant : AudioInvariant fun a => a.accounts ∧ a.settled where
  kept := by
    rintro a b hkept ⟨⟨hsum, hrecords⟩, hempty, horigin, hseq, hsilence, hlimit⟩
    unfold Audio.accounts
    rw [hkept.blocks, hkept.ring]
    refine ⟨⟨hsum, hrecords⟩, ?_, ?_, ?_, ?_, ?_⟩
    · rw [hkept.state, hkept.ring]
      exact hempty
    · rw [hkept.state, hkept.origin]
      exact horigin
    · rw [hkept.state, hkept.lastSeq]
      exact hseq
    · rw [hkept.state, hkept.silence]
      exact hsilence
    · rw [hkept.silence]
      exact hlimit
  idle := fun a _ => ⟨⟨rfl, nofun⟩, fun _ => rfl, ⟨fun _ => rfl, fun _ => rfl⟩, ⟨fun _ => rfl, fun _ => rfl⟩,
    ⟨fun _ => rfl, fun _ => rfl⟩, nofun⟩
  turn := fun a st hidle hst hempty ⟨haccounts, hsettled⟩ =>
    ⟨haccounts, settled_of_running hsettled hidle hst hempty rfl (lastSeq_ne_none (a := a) hsettled hidle) rfl⟩
  flush := fun a hidle ⟨_, hsettled⟩ =>
    ⟨⟨rfl, nofun⟩, settled_of_running hsettled hidle hidle (fun _ => rfl) rfl
      (lastSeq_ne_none (a := a) hsettled hidle) rfl⟩
  count := fun a n hidle hn ⟨haccounts, hsettled⟩ =>
    ⟨haccounts, hsettled.empty, hsettled.origin, hsettled.lastSeq,
      ⟨fun hs => absurd hs hidle, nofun⟩, fun m hm => Option.some.inj hm ▸ hn⟩
  claim := fun a origin b hb _ =>
    ⟨primed_accounts hb, fun h => absurd h (by simp [Audio.primed]), ⟨nofun, nofun⟩, ⟨nofun, nofun⟩, ⟨nofun, nofun⟩,
      fun n hn => by rw [← Option.some.inj hn]; exact Nat.zero_le _⟩
  run := fun a b hb hidle ⟨_, hsettled⟩ =>
    ⟨primed_accounts hb, settled_of_running hsettled hidle nofun nofun rfl nofun rfl⟩
  place := by
    rintro a b d hb hidle hunderrun hd - ⟨haccounts, hsettled⟩
    obtain ⟨hstate, horigin, hsilence, -⟩ := fill_stream a d
    refine ⟨append_accounts hb (fill_accounts hd haccounts), ?_⟩
    exact settled_of_running hsettled hidle (fun h => hidle (hstate ▸ h))
      (fun h => absurd (hstate ▸ h) hunderrun) horigin nofun hsilence
  give := by
    rintro a us hidle hring ⟨haccounts, hsettled⟩
    obtain ⟨hstate, horigin, hseq, hsilence, -⟩ := give_stream a us
    refine ⟨give_accounts us hring haccounts, ?_⟩
    refine settled_of_running hsettled hidle (by rw [hstate]; exact hidle) (fun h => ?_) horigin ?_ hsilence
    · exact absurd (hsettled.empty (.inr (hstate ▸ h))) hring
    · rw [hseq]
      exact lastSeq_ne_none hsettled hidle

/-- Settles O58: every move of the audio unit keeps the accounts. -/
theorem stepKeepsAudioAccounts : Obligations.StepKeepsAudioAccounts := by
  unfold Obligations.StepKeepsAudioAccounts
  intro s t hs h
  rw [audioOk_iff] at hs ⊢
  exact step_keepsAudio accounts_invariant (fun st => ⟨⟨rfl, nofun⟩, fun _ => rfl, ⟨fun _ => rfl, fun _ => rfl⟩,
    ⟨fun _ => rfl, fun _ => rfl⟩, ⟨fun _ => rfl, fun _ => rfl⟩, nofun⟩) hs h

/-! ### Room -/

/-- The ring and the block list are within their room (R146). -/
def Audio.inRoom (a : Audio) : Prop := a.ring.length ≤ 1024 ∧ a.blocks.length ≤ 128

theorem primed_inRoom {a : Audio} {b : AudioBlock} (hb : b.frames.length = 8) : (a.primed b).inRoom := by
  simp [Audio.inRoom, Audio.primed, hb]

theorem room_invariant : AudioInvariant Audio.inRoom where
  kept := fun a b hkept h => by
    unfold Audio.inRoom
    rw [hkept.ring, hkept.blocks]
    exact h
  idle := fun _ _ => ⟨Nat.zero_le _, Nat.zero_le _⟩
  turn := fun _ _ _ _ _ h => h
  flush := fun _ _ _ => ⟨Nat.zero_le _, Nat.zero_le _⟩
  count := fun _ _ _ _ h => h
  claim := fun _ _ _ hb _ => primed_inRoom hb
  run := fun _ _ hb _ _ => primed_inRoom hb
  place := by
    intro a b d hb _ _ hd hroom _
    simp only [Audio.hasRoom, Bool.and_eq_true, decide_eq_true_eq] at hroom
    obtain ⟨-, -, -, -, hring, hblocks⟩ := fill_stream a d
    refine ⟨?_, ?_⟩
    · simp only [Audio.append, List.length_append, hring, hb]
      exact hroom.1
    · simp only [Audio.append, List.length_append, hblocks, List.length_singleton]
      have hlist := hroom.2
      split at hlist <;> split <;> omega
  give := by
    intro a us _ _ h
    obtain ⟨-, -, -, -, hring, hblocks, -⟩ := give_stream a us
    exact ⟨hring.trans h.1, hblocks.trans h.2⟩

/-- The capture buffers hold fewer samples than a block in every state of the unit. -/
theorem captures_invariant : AudioInvariant fun a => capturesShort a.capture where
  kept := fun _ _ hkept h => hkept.capture h
  idle := fun _ h => h
  turn := fun _ _ _ _ _ h => h
  flush := fun _ _ h => h
  count := fun _ _ _ _ h => h
  claim := fun _ _ _ _ h => h
  run := fun _ _ _ _ h => h
  place := fun a b d _ _ _ _ _ h => by
    obtain ⟨-, -, -, hcapture, -⟩ := fill_stream a d
    simpa [Audio.append, hcapture] using h
  give := fun a us _ _ h => by
    obtain ⟨-, -, -, -, -, -, hcapture⟩ := give_stream a us
    rw [hcapture]
    exact h

end Sys2Proof.Machine
end

