-- ==== Sys2Proof/Proofs/AgreedTime.lean ====
section
/-! PROOF. Agreed time never falls (R59, R68): a microsecond adds 16 sixteenths and a slew takes at most one of them; a
step moves agreed time forward alone; a restart takes it along. -/

namespace Sys2Proof.Machine

/-- The clock behind agreed time, in sixteenths, which may lie below 0 (R59). -/
def TimeUnit.clock (t : TimeUnit) : Int := 16 * (t.localCount : Int) + t.offset

theorem agreed_eq (s : State) : s.agreed = min s.time.clock.toNat agreedCap := rfl

theorem agreed_le_of_clock {s t : State} (h : s.time.clock ≤ t.time.clock) : s.agreed ≤ t.agreed := by
  rw [agreed_eq, agreed_eq]
  have := Int.toNat_le_toNat h
  omega

/-- The clock has moved by a correction of at least 0. -/
def ClockKept (r s : State) : Prop := r.time.clock ≤ s.time.clock

theorem ClockKept.of_eq {r s t : State} (h : ClockKept r s) (hcount : t.time.localCount = s.time.localCount)
    (hoffset : t.time.offset = s.time.offset) : ClockKept r t := by
  unfold ClockKept TimeUnit.clock at h ⊢
  rw [hcount, hoffset]
  exact h

theorem ClockKept.of_time {r s t : State} (h : ClockKept r s) (htime : t.time = s.time) : ClockKept r t :=
  h.of_eq (by rw [htime]) (by rw [htime])

theorem ClockKept.ite {r s t : State} {b : Prop} [Decidable b] (hs : ClockKept r s) (ht : ClockKept r t) :
    ClockKept r (if b then s else t) := by
  split <;> assumption

/-! ### Corrections -/

/-- R68: a step is a correction of at least 0, in RUNNING of at least the step limit. -/
theorem nonneg_of_isStep {s : State} {e : Int} (h : isStep s e = true) : 0 ≤ e := by
  unfold isStep at h
  split at h <;> simp only [decide_eq_true_eq] at h <;> omega

theorem stepTime_clock {r s : State} {e : Int} (he : 0 ≤ e) (h : ClockKept r s) : ClockKept r (stepTime e s) := by
  unfold ClockKept TimeUnit.clock at h ⊢
  simp only [stepTime, moveHeld, updTime_time, updSpine_time, TimeUnit.moved]
  omega

theorem correct_clock {r s : State} (e : Int) (h : ClockKept r s) : ClockKept r (correct e s) := by
  unfold correct
  split
  · rename_i hstep
    have hkept : ClockKept r (stepTime e s) := stepTime_clock (nonneg_of_isStep hstep) h
    exact .ite (hkept.of_time (by simp)) hkept
  · exact h

theorem rechoose_clock {r s : State} (before : Option Node) (h : ClockKept r s) :
    ClockKept r (settleTimelost before (takeReference s)) := by
  have hchosen : ClockKept r (takeReference s) := .ite h (h.of_eq rfl rfl)
  unfold settleTimelost
  split
  · exact hchosen
  · have hlost : ClockKept r ((takeReference s).updTime fun t => { t with refLosses := bump t.refLosses }) :=
      hchosen.of_eq rfl rfl
    exact .ite (hlost.of_time (by simp)) hchosen

theorem enterRunning_clock {r s : State} (h : ClockKept r s) : ClockKept r (enterRunning s) := by
  have hchosen : ClockKept r (rechooseAtEntry (s.updLoader fun l => { l with life := .running })) :=
    rechoose_clock none (s := s.updLoader _) h
  exact ClockKept.of_time (s := (rechooseAtEntry (s.updLoader fun l => { l with life := .running })).updTime fun t =>
    { t with prevStart := none, timer := none }) hchosen (by simp [enterRunning])

theorem leaveListening_clock {r s : State} (h : ClockKept r s) : ClockKept r (leaveListening s) :=
  .ite h (enterRunning_clock h)

theorem recordBeacon_clock {r s : State} (b : Beacon) (start : Int) (h : ClockKept r s) :
    ClockKept r (recordBeacon b start s) := by
  have hchosen : ClockKept r (rechoose (s.updTime fun t => { t with table := putAt t.table b.origin (some
      { lastNumber := b.number, ownTime := start, lastHeard := s.agreed, carriedRef := b.reference,
        carriedHas := b.hasReference, expired := false }) })) := rechoose_clock _ (s := s.updTime _) h
  exact .ite (hchosen.of_eq rfl rfl) hchosen

theorem takeBeacon_clock {r s : State} (b : Beacon) (start : Int) (h : ClockKept r s) :
    ClockKept r (takeBeacon b start s) := by
  unfold takeBeacon
  dsimp only
  split
  · exact recordBeacon_clock b _ h
  · rename_i e _
    have hrecorded (start : Int) (paired : Bool) :
        ClockKept r (recordBeacon b start (correct e (countBeacon paired s))) :=
      recordBeacon_clock b start (correct_clock e (s := countBeacon paired s) h)
    exact .ite (leaveListening_clock (hrecorded _ _)) (hrecorded _ _)

theorem takeTime_clock {r s : State} (rank : Rank) (body : List Byte) (start : Int) (h : ClockKept r s) :
    ClockKept r (takeTime rank body start s) :=
  .ite h (.ite h (takeBeacon_clock _ _ h))

/-! ### Messages and firings -/

theorem handTo_clock {r s : State} (u : TakingUnit) (m : Arrival) (h : ClockKept r s) : ClockKept r (handTo u m s) := by
  cases u with
  | time => exact takeTime_clock _ _ _ h
  | _ => exact h.of_time (by simp [handTo])

theorem routeMessage_clock {r s : State} (m : Arrival) (h : ClockKept r s) : ClockKept r (routeMessage m s) := by
  unfold routeMessage deliverTo
  dsimp only
  split
  · exact h
  · exact handTo_clock _ m (s := s.updIntake _) h
  · exact h.of_time (by simp)
  · exact handTo_clock _ m (h.of_time (by simp))
  · exact h
  · exact h

theorem sendEnd_clock {r s : State} (x : Transmission) (h : ClockKept r s) : ClockKept r (sendEnd x s) := by
  have hsent : ClockKept r (slotSent x (s.slot x.slot).attempts ((s.updSlot x.slot (·.finish)).updSpine
      (·.ended true))) := by
    unfold slotSent
    split
    · exact h.of_time (by simp [alarmSent])
    · exact h.of_eq (by simp [beaconSent]) (by simp [beaconSent])
    · exact h.of_time (by simp)
    · exact h.of_time (by simp)
    · exact h.of_time (by simp)
    · exact h.of_time (by simp)
    · exact h.of_time (by simp)
    · exact h.of_time (by simp)
  unfold sendEnd
  dsimp only
  split
  · exact routeMessage_clock _ (hsent.of_time (by simp))
  · exact hsent.of_time (by simp)

theorem duplicateNode_clock {r s : State} (h : ClockKept r s) : ClockKept r (duplicateNode s) :=
  .ite (h.of_eq (by simp [withdraw]) (by simp [withdraw])) (h.of_time (by simp))

theorem messageTaken_clock {r s : State} (m : Received) (h : ClockKept r s) : ClockKept r (messageTaken m s) := by
  unfold messageTaken
  dsimp only
  split
  · exact duplicateNode_clock (h.of_time (by simp))
  · exact routeMessage_clock _ (h.of_time (by simp))

theorem act_clock {r s : State} (a : Action) (j : Nat) (h : ClockKept r s) : ClockKept r (act a j s) := by
  cases a with
  | beacon =>
    have hload : ClockKept r (loadSlot .time (ownContent s 1 0 (beaconBody s)) s) := h.of_time (by simp)
    exact .ite (.ite h hload) h
  | _ => exact h.of_time (by simp [act])

/-! ### Every effect -/

theorem carried_time {c : Command} {s : State} {a : Answer} (ha : Carried c s a) : a.state.time = s.time := by
  cases ha with
  | status => unfold answerStatus; dsimp only; split <;> rfl
  | clearMapFault => unfold answerClearMapFault; split <;> rfl
  | capture => simp [answerCapture]
  | readQueue => simp
  | _ => rfl

theorem install_clock (l : Loaded) (s : State) : (install l s).time.clock = s.time.clock := by
  have hsettings : (latchLoaded l (installSettings l.settings s)).time.clock = s.time.clock := by
    simp [installSettings, TimeUnit.clock]
  rw [← hsettings]
  unfold install enterListening
  dsimp only
  split <;> rfl

/-- Only a power-on begins agreed time anew. -/
theorem effect_agreed_le {i : Instr} {s t : State} (hi : ∀ straps, i ≠ .powerOn straps) (h : Effect i s t) :
    s.agreed ≤ t.agreed := by
  have hself : ClockKept s s := Int.le_refl _
  have hclock {t : State} (h : ClockKept s t) : s.agreed ≤ t.agreed := agreed_le_of_clock h
  cases h with
  | powerOn straps hpower => exact absurd hpower (hi straps)
  | restart straps =>
    rw [agreed_eq (restartWith straps s)]
    change s.agreed ≤ min (16 * ((0 : Nat) : Int) + (s.agreed : Int)).toNat agreedCap
    have hcap : s.agreed ≤ agreedCap := Nat.min_le_right ..
    omega
  | install straps image => rw [agreed_eq, agreed_eq, install_clock]
  | messageTaken m => exact hclock (messageTaken_clock m hself)
  | sendEnd x => exact hclock (sendEnd_clock x hself)
  | expireRecord o => exact hclock (rechoose_clock _ (s := s.updTime _) hself)
  | leaveListening => exact hclock (leaveListening_clock (s := s.updTime _) hself)
  | fire a =>
    exact hclock (fire_keeps (P := ClockKept s) (fun _ a j _ _ h => act_clock a j h) (fun _ _ h => h) hself)
  | answer c rest a _ _ ha =>
    refine hclock (hself.of_time ?_)
    rw [(by simp : (deliver c a).time = a.state.time), carried_time ha]
    simp
  | _ => exact hclock (hself.of_time (by simp))

/-! ### A microsecond -/

theorem slewSign_bounds (r : Int) : -1 ≤ slewSign r ∧ slewSign r ≤ 1 := by
  unfold slewSign
  split
  · omega
  · split <;> omega

theorem slewMicrosecond_clock (s : State) : s.time.clock - 1 ≤ (slewMicrosecond s).time.clock := by
  obtain ⟨hlow, -⟩ := slewSign_bounds s.time.slew
  unfold slewMicrosecond
  dsimp only
  split
  · omega
  · simp only [TimeUnit.clock, moveHeld, updTime_time, updSpine_time, TimeUnit.moved]
    omega

/-- R59, R60: a microsecond adds at least 15 sixteenths. -/
theorem tick_clock (s : State) : s.time.clock + 15 ≤ (tick s).time.clock := by
  have hcount : (countMicrosecond (keepReading (senseAlert s))).time.clock = s.time.clock + 16 :=
    countMicrosecond_rises (keepReading (senseAlert s))
  have hslew := slewMicrosecond_clock (countMicrosecond (keepReading (senseAlert s)))
  have htime : (tick s).time = (slewMicrosecond (countMicrosecond (keepReading (senseAlert s)))).time := by
    change (runLineClock _).time = _
    simp
  rw [htime]
  omega

/-- Settles O60: by the clock behind agreed time, microsecond by microsecond and effect by effect. -/
theorem agreedTimeNeverFalls : Obligations.AgreedTimeNeverFalls := by
  unfold Obligations.AgreedTimeNeverFalls
  intro s t hfront h
  obtain rfl | ⟨i, rest, hpending, hi⟩ := tick_or_effect_of_step h
  · have := tick_clock s
    exact agreed_le_of_clock (by omega)
  · have hpower (straps : Straps) : i ≠ .powerOn straps := by
      rintro rfl
      exact hfront straps (by rw [hpending]; rfl)
    exact effect_agreed_le (s := { s with pending := rest }) hpower hi

end Sys2Proof.Machine
end

