-- ==== Sys2Proof/Proofs/PowerKept.lean ====
section
/-! PROOF. The station draws within its grant (R162, R170 to R172): a recomputation and a reading check the step against
the grant, and what latches OVERDRAW has the step at 0. -/

namespace Sys2Proof.Machine

/-! ### The step and its target -/

/-- The grant covers the draw of the step (R162, R170). -/
def Power.covered (p : Power) : Prop := p.step = 0 ∨ p.settings.draw[p.step] ≤ p.grant

/-- R170: the target is the highest step that the grant covers, so it covers every step below. -/
theorem covers_of_le_target {ps : PowerSettings} (hdraws : drawsOk ps) {grant : Nat} {step : Fin 4}
    (h : step ≤ stepTarget ps grant) : step = 0 ∨ ps.draw[step] ≤ grant := by
  obtain ⟨h12, h23⟩ := hdraws
  have hcases : step = 0 ∨ step = 1 ∨ step = 2 ∨ step = 3 := by omega
  have htarget {v : Fin 4} (hv : v ≤ stepTarget ps grant) (h3 : ps.draw[3] ≤ grant → ps.draw[v] ≤ grant)
      (h2 : ps.draw[2] ≤ grant → v ≤ 2 → ps.draw[v] ≤ grant) (h1 : ps.draw[1] ≤ grant → v ≤ 1 → ps.draw[v] ≤ grant)
      (h0 : v ≠ 0) : ps.draw[v] ≤ grant := by
    unfold stepTarget at hv
    split at hv
    · exact h3 ‹_›
    · split at hv
      · exact h2 ‹_› hv
      · split at hv
        · exact h1 ‹_› hv
        · exact absurd (Fin.le_zero_iff.mp hv) h0
  obtain rfl | rfl | rfl | rfl := hcases
  · exact .inl rfl
  · exact .inr (htarget h (h12.trans <| h23.trans ·) (fun h _ => h12.trans h) (fun h _ => h) (by decide))
  · exact .inr (htarget h (h23.trans ·) (fun h _ => h) (fun _ h => absurd h (by decide)) (by decide))
  · exact .inr (htarget h id (fun _ h => absurd h (by decide)) (fun _ h => absurd h (by decide)) (by decide))

/-- A step lower by one is covered where the step is (R171). -/
theorem covers_pred {ps : PowerSettings} (hdraws : drawsOk ps) {grant : Nat} {step : Fin 4} (hstep : step ≠ 0)
    (h : ps.draw[step] ≤ grant) : step - 1 = 0 ∨ ps.draw[step - 1] ≤ grant := by
  obtain ⟨h12, h23⟩ := hdraws
  have hcases : step = 1 ∨ step = 2 ∨ step = 3 := by omega
  obtain rfl | rfl | rfl := hcases
  · exact .inl rfl
  · exact .inr (h12.trans h)
  · exact .inr (h23.trans h)

theorem setStep_power (v : Fin 4) (s : State) : (setStep v s).power = { s.power with step := v } := by
  unfold setStep
  split
  · rename_i h
    rw [← h]
  · simp

/-- A fall of the step leaves grant and figures, and takes the step to the target if it stood above (R170). -/
theorem fallToTarget_power (s : State) :
    (fallToTarget s).power.settings = s.power.settings ∧ (fallToTarget s).power.grant = s.power.grant ∧
      (fallToTarget s).power.reading = s.power.reading ∧
      (fallToTarget s).power.step = if s.target < s.power.step then s.target else s.power.step := by
  unfold fallToTarget
  split <;> simp [setStep_power]

theorem fallToTarget_covered {s : State} (hdraws : drawsOk s.power.settings) : (fallToTarget s).power.covered := by
  obtain ⟨hsettings, hgrant, -, hstep⟩ := fallToTarget_power s
  unfold Power.covered
  rw [hsettings, hgrant]
  refine covers_of_le_target hdraws ?_
  change (fallToTarget s).power.step ≤ s.target
  rw [hstep]
  split
  · exact Fin.le_refl _
  · exact Fin.not_lt.mp ‹_›

/-- The step has not risen from 0, and the draw is covered where it was. -/
structure PowerFalls (r s : State) : Prop where
  settings : s.power.settings = r.power.settings
  covered : drawsOk r.power.settings → r.power.covered → s.power.covered
  zero : r.power.step = 0 → s.power.step = 0
  reading : s.power.reading = r.power.reading

theorem PowerFalls.refl (s : State) : PowerFalls s s := ⟨rfl, fun _ => id, id, rfl⟩

theorem PowerFalls.of_eq {r s t : State} (h : PowerFalls r s) (hpower : t.power = s.power) : PowerFalls r t := by
  refine ⟨?_, ?_, ?_, ?_⟩ <;> rw [hpower]
  · exact h.settings
  · exact h.covered
  · exact h.zero
  · exact h.reading

theorem PowerFalls.of_parts {r s t : State} (h : PowerFalls r s) (hsettings : t.power.settings = s.power.settings)
    (hgrant : t.power.grant = s.power.grant) (hstep : t.power.step = s.power.step)
    (hreading : t.power.reading = s.power.reading) : PowerFalls r t := by
  refine ⟨hsettings.trans h.settings, ?_, ?_, hreading.trans h.reading⟩
  · unfold Power.covered
    simp only [hsettings, hgrant, hstep]
    exact h.covered
  · rw [hstep]
    exact h.zero

theorem regrant_power (s : State) :
    (regrant s).power.settings = s.power.settings ∧ (regrant s).power.step = s.power.step ∧
      (regrant s).power.reading = s.power.reading := by
  unfold regrant
  dsimp only
  split
  · split
    · exact ⟨rfl, rfl, rfl⟩
    · exact ⟨rfl, rfl, rfl⟩
  · simp only [updPower_power, Power.holdOver]
    split
    · split <;> exact ⟨rfl, rfl, rfl⟩
    · exact ⟨rfl, rfl, rfl⟩

/-- R168, R170: a recomputation leaves the draw covered, whatever the grant was, and never raises the step. -/
theorem recompute_power (s : State) :
    (recompute s).power.settings = s.power.settings ∧
      (drawsOk s.power.settings → (recompute s).power.covered) ∧
      (s.power.step = 0 → (recompute s).power.step = 0) ∧ (recompute s).power.reading = s.power.reading := by
  obtain ⟨hsettings, hstep, hreading⟩ := regrant_power s
  obtain ⟨hsettings', -, hreading', hstep'⟩ := fallToTarget_power (regrant s)
  refine ⟨hsettings'.trans hsettings, fun hdraws => fallToTarget_covered (by rw [hsettings]; exact hdraws),
    fun hzero => ?_, hreading'.trans hreading⟩
  change (fallToTarget (regrant s)).power.step = 0
  rw [hstep', hstep, hzero]
  exact if_neg (Fin.not_lt.mpr (Fin.zero_le _))

theorem recompute_falls {r s : State} (h : PowerFalls r s) : PowerFalls r (recompute s) := by
  obtain ⟨hsettings, hcovered, hzero, hreading⟩ := recompute_power s
  exact ⟨hsettings.trans h.settings, fun hdraws _ => hcovered (by rw [h.settings]; exact hdraws), hzero ∘ h.zero,
    hreading.trans h.reading⟩

theorem recomputeAndAnnounce_falls {r s : State} (h : PowerFalls r s) : PowerFalls r (recomputeAndAnnounce s) := by
  unfold recomputeAndAnnounce
  dsimp only
  split
  · exact recompute_falls h
  · exact (recompute_falls h).of_eq (by simp)

theorem takePower_falls {r s : State} (rank : Rank) (body : List Byte) (h : PowerFalls r s) :
    PowerFalls r (takePower rank body s) := by
  unfold takePower
  split
  · exact h.of_parts rfl rfl rfl rfl
  · exact recomputeAndAnnounce_falls (h.of_parts rfl rfl rfl rfl)

theorem expireEntry_falls {r s : State} (n : Node) (h : PowerFalls r s) : PowerFalls r (expireEntry n s) :=
  recomputeAndAnnounce_falls (h.of_parts rfl rfl rfl rfl)

/-! ### Messages -/

theorem routeMessage_falls {r s : State} (m : Arrival) (h : PowerFalls r s) : PowerFalls r (routeMessage m s) := by
  have hunit {s : State} (u : TakingUnit) (h : PowerFalls r s) : PowerFalls r (handTo u m s) := by
    cases u with
    | power => exact takePower_falls _ _ h
    | _ => exact h.of_eq (by simp [handTo])
  unfold routeMessage deliverTo
  dsimp only
  split
  · exact h.of_eq rfl
  · exact hunit _ (h.of_eq rfl)
  · exact h.of_eq (by simp)
  · exact hunit _ (h.of_eq (by simp))
  · exact h.of_eq (by simp)
  · exact h.of_eq (by simp)

theorem sendEnd_falls {r s : State} (x : Transmission) (h : PowerFalls r s) : PowerFalls r (sendEnd x s) := by
  unfold sendEnd
  dsimp only
  split
  · exact routeMessage_falls _ (h.of_eq (by simp))
  · exact h.of_eq (by simp)

theorem messageTaken_falls {r s : State} (m : Received) (h : PowerFalls r s) : PowerFalls r (messageTaken m s) := by
  unfold messageTaken
  dsimp only
  split
  · exact h.of_eq (by simp)
  · exact routeMessage_falls _ (h.of_eq (by simp))

/-! ### OVERDRAW is latched by the red margin alone -/

/-- OVERDRAW is latched only where it was. -/
def OverdrawCalm (r s : State) : Prop := s.isLatched .overdraw → r.isLatched .overdraw

theorem OverdrawCalm.of_alarms {r s : State} (h : s.alarms.latched = r.alarms.latched) : OverdrawCalm r s := by
  unfold OverdrawCalm State.isLatched
  rw [h]
  exact id

/-- R52: CLEAR ALARM unlatches alone. -/
theorem cleared_latched (a : Alarms) (mask : FlagMask) (f : Flag) (h : has (a.cleared mask).latched f = true) :
    has a.latched f = true := by
  simp only [has, Alarms.cleared, BitVec.getLsbD_and, Bool.and_eq_true] at h ⊢
  exact h.1

theorem carried_overdrawCalm {c : Command} {s : State} {a : Answer} (ha : Carried c s a) : OverdrawCalm s a.state := by
  cases ha with
  | clearAlarm => exact cleared_latched _ _ _
  | readQueue => exact .of_alarms (by simp)
  | status => unfold answerStatus; dsimp only; split <;> exact id
  | clearMapFault => unfold answerClearMapFault; split <;> exact id
  | capture => exact .of_alarms (by simp [answerCapture])
  | _ => exact id

theorem sendError_overdrawCalm (k : SendErrorKind) (x : Transmission) (s : State) :
    OverdrawCalm s (sendError k x s) := by
  unfold sendError
  dsimp only
  split
  · have hlatched := (latch_hands (f := .cut) (by decide) (.refl (clearSlots ((s.updSpine
      (·.countSendError k)).updSpine fun p => { p.ended true with standing := .cut, tfc := 0, sfc := 64 })))).overdraw
    intro h
    have hbefore := hlatched (by simpa [enterCut, State.isLatched] using h)
    simpa [State.isLatched] using hbefore
  · have hsettled := (settleStanding_hands (.refl ((s.updSpine (·.countSendError k)).updSpine fun p =>
      { p.ended true with sfc := p.sfc + errorWeight k s.spine.standing }))).overdraw
    intro h
    have hbefore := hsettled (by simpa [failSend, State.isLatched] using h)
    simpa [State.isLatched] using hbefore

theorem slotSent_overdrawCalm (x : Transmission) (attempts : BitVec 8) (s : State) :
    OverdrawCalm s (slotSent x attempts s) := by
  unfold slotSent
  split
  · exact .of_alarms rfl
  all_goals exact .of_alarms (by simp [beaconSent])

theorem sendEnd_overdrawCalm (x : Transmission) (s : State) : OverdrawCalm s (sendEnd x s) := by
  have hsent := slotSent_overdrawCalm x (s.slot x.slot).attempts ((s.updSlot x.slot (·.finish)).updSpine (·.ended true))
  have hsettled : OverdrawCalm s (settleStanding ((slotSent x (s.slot x.slot).attempts
      ((s.updSlot x.slot (·.finish)).updSpine (·.ended true))).updSpine fun p => { p with sfc := p.sfc - 1 })) :=
    fun h => by simpa [State.isLatched] using hsent ((settleStanding_hands (.refl (State.updSpine _ _))).overdraw h)
  unfold sendEnd
  dsimp only
  split
  · exact fun h => hsettled ((routeMessage_hands _ (.refl _)).overdraw h)
  · exact hsettled

theorem messageTaken_overdrawCalm (m : Received) (s : State) : OverdrawCalm s (messageTaken m s) := by
  have hsettled : OverdrawCalm s (settleStanding (s.updSpine fun p =>
      { p.ended false with tfc := goodReceipt p.tfc, drive := .echo })) :=
    (settleStanding_hands (.refl (State.updSpine _ _))).overdraw
  unfold messageTaken
  dsimp only
  split
  · unfold duplicateNode
    dsimp only
    refine fun h => hsettled ((arise_hands (f := .dupnode) (by decide) (.refl (State.updSpine _ fun p =>
      { p with duplicates := bump p.duplicates }))).overdraw ?_)
    split at h
    · unfold withdraw at h
      have hbefore := (setCondition_hands (by decide) _ (.refl _)).overdraw h
      simpa [State.isLatched] using hbefore
    · exact h
  · exact fun h => hsettled ((routeMessage_hands _ (.refl _)).overdraw h)

/-- Every effect but a reading latches OVERDRAW only where it was, or leaves the step at 0. -/
theorem effect_overdrawCalm {i : Instr} {s t : State} (h : Effect i s t) :
    (∃ straps, t = State.powerOn straps s.pins s.pending s.free) ∨ (∃ straps, t = restartWith straps s) ∨
      (∃ straps image, s.loader.life = .loading ∧ t = install (loadProfile straps image) s) ∨
      (s.power.reading.isSome ∧ ∃ r, t = completeReading r s) ∨ OverdrawCalm s t := by
  have hcalm {t : State} (h : HandsCalm s t) : OverdrawCalm s t := h.overdraw
  cases h with
  | powerOn straps => exact .inl ⟨straps, rfl⟩
  | restart straps => exact .inr (.inl ⟨straps, rfl⟩)
  | install straps image hlife => exact .inr (.inr (.inl ⟨straps, image, hlife, rfl⟩))
  | completeReading r hreading => exact .inr (.inr (.inr (.inl ⟨hreading, r, rfl⟩)))
  | quietRun driven => exact .inr (.inr (.inr (.inr (hcalm (quietRun_hands driven (.refl s))))))
  | sendError k x => exact .inr (.inr (.inr (.inr (sendError_overdrawCalm k x s))))
  | receiveError k =>
    exact .inr (.inr (.inr (.inr (settleStanding_hands (.refl (State.updSpine _ _))).overdraw)))
  | messageTaken m => exact .inr (.inr (.inr (.inr (messageTaken_overdrawCalm m s))))
  | sendEnd x => exact .inr (.inr (.inr (.inr (sendEnd_overdrawCalm x s))))
  | answer c rest a _ _ ha =>
    refine .inr (.inr (.inr (.inr fun h => ?_)))
    have hafter := carried_overdrawCalm ha (by simpa [State.isLatched] using h)
    simpa [State.isLatched] using hafter
  | fire a => exact .inr (.inr (.inr (.inr (hcalm (fire_hands a (.refl s))))))
  | expireRecord o => exact .inr (.inr (.inr (.inr (hcalm (expireRecord_hands o (.refl s))))))
  | leaveListening => exact .inr (.inr (.inr (.inr (leaveListening_hands (.refl (State.updTime _ _))).overdraw)))
  | completeRead ready rates accels r =>
    exact .inr (.inr (.inr (.inr (hcalm (completeRead_hands ready rates accels r (.refl s))))))
  | setLaneSignal v run => exact .inr (.inr (.inr (.inr (hcalm (setLaneSignal_hands v run (.refl s))))))
  | packetHeader cut p => exact .inr (.inr (.inr (.inr (hcalm (packetHeader_hands cut p (.refl s))))))
  | scanLine => exact .inr (.inr (.inr (.inr (hcalm (scanLine_hands _ (.refl s))))))
  | scanEnd => exact .inr (.inr (.inr (.inr (hcalm (scanEnd_hands (.refl s))))))
  | expireEntry n => exact .inr (.inr (.inr (.inr (hcalm (expireEntry_hands n (.refl s))))))
  | codecFrame mic =>
    refine .inr (.inr (.inr (.inr ?_)))
    have hplayed : OverdrawCalm s (playFrame s) := hcalm (playFrame_hands (.refl s))
    obtain heq | ⟨u, hu, heq⟩ := captureSample_alarms mic (playFrame s)
    · exact fun h => hplayed (by simpa [State.isLatched, heq] using h)
    · intro h
      have hlatched := (latch_hands (f := .audio) (by decide) (.refl u)).overdraw
        (by simpa [State.isLatched, heq] using h)
      exact hplayed (by simpa [State.isLatched, hu] using hlatched)
  | _ => exact .inr (.inr (.inr (.inr (.of_alarms (by simp)))))

/-! ### Every effect but a reading -/

/-- The power unit of every effect but those of the loader, a reading and a firing. -/
theorem effect_falls {i : Instr} {s t : State} (h : Effect i s t) :
    (∃ straps, t = State.powerOn straps s.pins s.pending s.free) ∨ (∃ straps, t = restartWith straps s) ∨
      (∃ straps image, s.loader.life = .loading ∧ t = install (loadProfile straps image) s) ∨
      (s.power.reading.isSome ∧ ∃ r, t = completeReading r s) ∨
      (s.power.reading.isSome ∧ ∃ r, t = s.updPower fun p => { p with reading := some r }) ∨
      (∃ a, t = fire a s) ∨ PowerFalls s t := by
  cases h with
  | powerOn straps => exact .inl ⟨straps, rfl⟩
  | restart straps => exact .inr (.inl ⟨straps, rfl⟩)
  | install straps image hlife => exact .inr (.inr (.inl ⟨straps, image, hlife, rfl⟩))
  | completeReading r hreading => exact .inr (.inr (.inr (.inl ⟨hreading, r, rfl⟩)))
  | holdAnswers r hreading => exact .inr (.inr (.inr (.inr (.inl ⟨hreading, r, rfl⟩))))
  | fire a => exact .inr (.inr (.inr (.inr (.inr (.inl ⟨a, rfl⟩)))))
  | messageTaken m => exact .inr (.inr (.inr (.inr (.inr (.inr (messageTaken_falls m (.refl s)))))))
  | sendEnd x => exact .inr (.inr (.inr (.inr (.inr (.inr (sendEnd_falls x (.refl s)))))))
  | expireEntry n => exact .inr (.inr (.inr (.inr (.inr (.inr (expireEntry_falls n (.refl s)))))))
  | answer c rest a _ _ ha =>
    refine .inr (.inr (.inr (.inr (.inr (.inr ((PowerFalls.refl s).of_eq ?_))))))
    rw [(by simp : (deliver c a).power = a.state.power)]
    cases ha with
    | status => unfold answerStatus; dsimp only; split <;> simp
    | clearMapFault => unfold answerClearMapFault; split <;> simp
    | capture => simp [answerCapture]
    | setGain => simp [answerSetGain]
    | readQueue => simp
    | _ => rfl
  | _ => exact .inr (.inr (.inr (.inr (.inr (.inr ((PowerFalls.refl s).of_eq (by simp)))))))

/-! ### A reading -/

theorem beforeTests_power (s : State) :
    (beforeTests s).power.settings = s.power.settings ∧
      (drawsOk s.power.settings → (beforeTests s).power.covered) := by
  have hsettings : ((setOwnEntry (batteryMarks s)).updPower (·.countHoldover)).power.settings = s.power.settings := by
    have hmarks : (batteryMarks s).power.settings = s.power.settings := by
      unfold batteryMarks
      dsimp only
      split <;> simp
    simp only [updPower_power, setOwnEntry, Power.countHoldover]
    split
    · exact hmarks
    · split <;> exact hmarks
  obtain ⟨hkept, hcovered, -⟩ := recompute_power ((setOwnEntry (batteryMarks s)).updPower (·.countHoldover))
  exact ⟨hkept.trans hsettings, fun hdraws => hcovered (by rw [hsettings]; exact hdraws)⟩

/-- The power unit draws within its grant, with the figures `ps`. -/
def DrawHeld (ps : PowerSettings) (s : State) : Prop := s.power.settings = ps ∧ drawsOk ps ∧ s.power.covered

theorem DrawHeld.of_eq {ps : PowerSettings} {s t : State} (h : DrawHeld ps s)
    (hsettings : t.power.settings = s.power.settings) (hgrant : t.power.grant = s.power.grant)
    (hstep : t.power.step = s.power.step) : DrawHeld ps t := by
  obtain ⟨hps, hdraws, hcovered⟩ := h
  refine ⟨hsettings.trans hps, hdraws, ?_⟩
  unfold Power.covered
  simp only [hsettings, hgrant, hstep]
  exact hcovered

theorem DrawHeld.ite {ps : PowerSettings} {s t : State} {b : Prop} [Decidable b] (hs : DrawHeld ps s)
    (ht : DrawHeld ps t) : DrawHeld ps (if b then s else t) := by
  split <;> assumption

theorem setStep_held {ps : PowerSettings} {s : State} {v : Fin 4} (h : DrawHeld ps s)
    (hv : v = 0 ∨ ps.draw[v] ≤ s.power.grant) : DrawHeld ps (setStep v s) := by
  obtain ⟨rfl, hdraws, -⟩ := h
  unfold DrawHeld Power.covered
  rw [setStep_power]
  exact ⟨rfl, hdraws, hv⟩

theorem overdrawTests_held {ps : PowerSettings} {s : State} (h : DrawHeld ps s) : DrawHeld ps (overdrawTests s) := by
  unfold overdrawTests
  dsimp only
  split
  · have hzero : DrawHeld ps (setStep 0 s) := setStep_held h (.inl rfl)
    exact hzero.of_eq (by simp [redActs]) (by simp [redActs]) (by simp [redActs])
  · split
    · have hcounted : DrawHeld ps (s.updPower fun p => { p with yellowEvents := bump p.yellowEvents, yellow := 0 }) :=
        h.of_eq rfl rfl rfl
      refine .ite (h.of_eq rfl rfl rfl) ?_
      unfold yellowFall
      split
      · exact hcounted
      · rename_i hstep
        obtain ⟨rfl, hdraws, hcovered⟩ := h
        exact setStep_held (s := ((s.updPower _).updPower _).updPower _) hcounted
          (covers_pred hdraws hstep (hcovered.resolve_left hstep))
    · exact h.of_eq rfl rfl rfl

theorem succ_le_of_lt {a b : Fin 4} (h : a < b) : a + 1 ≤ b := by omega

theorem riseStep_held {ps : PowerSettings} {s : State} (h : DrawHeld ps s) : DrawHeld ps (riseStep s) := by
  unfold riseStep
  split
  · rename_i hbelow
    split
    · exact h.of_eq rfl rfl rfl
    · obtain ⟨rfl, hdraws, hcovered⟩ := h
      exact setStep_held (s := s.updPower _) ⟨rfl, hdraws, hcovered⟩
        (covers_of_le_target hdraws (succ_le_of_lt hbelow))
  · exact h.of_eq rfl rfl rfl

theorem fallToTarget_held {ps : PowerSettings} {s : State} (h : DrawHeld ps s) : DrawHeld ps (fallToTarget s) := by
  obtain ⟨rfl, hdraws, -⟩ := h
  exact ⟨(fallToTarget_power s).1, hdraws, fallToTarget_covered hdraws⟩

/-- R170, R172: the step is settled within the grant, and at 0 where OVERDRAW is latched. -/
theorem settleStep_held {ps : PowerSettings} {s : State} (fell : Bool) (h : DrawHeld ps s) :
    DrawHeld ps (settleStep fell s) ∧
      ((settleStep fell s).isLatched .overdraw → (settleStep fell s).power.step = 0) := by
  have hfall := fallToTarget_held h
  unfold settleStep
  dsimp only
  split
  · exact ⟨setStep_held (s := (fallToTarget s).updPower _) (hfall.of_eq rfl rfl rfl) (.inl rfl),
      fun _ => by rw [setStep_power]⟩
  · rename_i hcalm
    split
    · exact ⟨hfall.of_eq rfl rfl rfl, fun h => absurd h hcalm⟩
    · exact ⟨riseStep_held hfall, fun h => absurd ((riseStep_hands (.refl _)).overdraw h) hcalm⟩

/-- R166: a reading ends with the draw covered, and at step 0 where OVERDRAW is latched. -/
theorem completeReading_held {s : State} (r : MeterReading) (hdraws : drawsOk s.power.settings) :
    DrawHeld s.power.settings (completeReading r s) ∧
      ((completeReading r s).isLatched .overdraw → (completeReading r s).power.step = 0) := by
  unfold completeReading
  rw [readingWork_eq]
  have htaken : (takeReading (meterValue r.load) (meterValue r.battery) s).power.settings = s.power.settings := rfl
  generalize takeReading (meterValue r.load) (meterValue r.battery) s = u at htaken
  generalize (meterValue r.load).isSome = came
  obtain ⟨hsettings, hcovered⟩ := beforeTests_power u
  have hbefore : DrawHeld s.power.settings (beforeTests u) :=
    ⟨hsettings.trans htaken, hdraws, hcovered (by rw [htaken]; exact hdraws)⟩
  have htests : DrawHeld s.power.settings (if came then overdrawTests (beforeTests u) else beforeTests u) :=
    .ite (overdrawTests_held hbefore) hbefore
  obtain ⟨hheld, hzero⟩ := settleStep_held (came && yellowLowers (beforeTests u)) htests
  refine ⟨hheld.of_eq (by simp) (by simp) (by simp), fun h => ?_⟩
  rw [(by simp : ∀ s, (loadPower s).power = s.power)]
  exact hzero ((loadPower_hands (.refl _)).overdraw h)

/-! ### Every step -/

theorem powerOk_of_step_zero {s : State} (hdraws : drawsOk s.power.settings) (hstep : s.power.step = 0)
    (hreading : s.loader.life = .loading → s.power.reading = none) : powerOk s :=
  ⟨hdraws, .inl hstep, fun _ => hstep, fun h => ⟨hstep, hreading h⟩⟩

theorem powerOk_of_falls {s t : State} (hs : powerOk s) (h : PowerFalls s t) (hcalm : OverdrawCalm s t)
    (hloading : t.loader.life = .loading → s.loader.life = .loading) : powerOk t := by
  obtain ⟨hdraws, hcovered, hlatched, hload⟩ := hs
  refine ⟨by rw [h.settings]; exact hdraws, h.covered hdraws hcovered, fun ht => h.zero (hlatched (hcalm ht)),
    fun ht => ?_⟩
  obtain ⟨hstep, hreading⟩ := hload (hloading ht)
  exact ⟨h.zero hstep, h.reading.trans hreading⟩

/-- Outside LOADING a reading may start or hold answers. -/
theorem powerOk_of_reading {s t : State} (hs : powerOk s) (hsettings : t.power.settings = s.power.settings)
    (hgrant : t.power.grant = s.power.grant) (hstep : t.power.step = s.power.step)
    (halarms : t.alarms = s.alarms) (hlife : t.loader.life ≠ .loading) : powerOk t := by
  obtain ⟨hdraws, hcovered, hlatched, -⟩ := hs
  refine ⟨by rw [hsettings]; exact hdraws, ?_, ?_, fun h => absurd h hlife⟩
  · simp only [hsettings, hgrant, hstep]
    exact hcovered
  · simp only [State.isLatched, halarms, hstep]
    exact hlatched

theorem act_powerOk (a : Action) (j : Nat) {s : State} (hlife : s.loader.life ≠ .loading) (hs : powerOk s) :
    powerOk (act a j s) := by
  cases a with
  | powerReport =>
    refine powerOk_of_reading (t := powerReport s) hs ?_ ?_ ?_ rfl hlife <;>
      simp only [powerReport, updPower_power] <;> split <;> rfl
  | _ =>
    exact powerOk_of_falls hs ((PowerFalls.refl s).of_eq (by simp [act])) (act_hands _ j (.refl s)).overdraw (by simp)

theorem fire_powerOk (a : Action) {s : State} (hs : powerOk s) : powerOk (fire a s) :=
  fire_keeps (P := powerOk)
    (fun hlife a j t ht h => act_powerOk a j (by rw [ht]; exact hlife) h) (fun _ _ h => h) hs

theorem LoadedOk.drawsOk {role : Role} {v : Settings} (h : LoadedOk role v) : drawsOk v.power := by
  obtain ⟨-, h12, h23, -⟩ := h.power
  exact ⟨h12, h23⟩

theorem powerOn_powerOk (straps : Straps) (pins : Pins) (pending : List Instr) (free : Nat) :
    powerOk (State.powerOn straps pins pending free) :=
  powerOk_of_step_zero (loadedOk_defaults straps.role straps.node).drawsOk rfl fun _ => rfl

theorem restartWith_powerOk (straps : Straps) (s : State) : powerOk (restartWith straps s) :=
  powerOk_of_step_zero (loadedOk_defaults straps.role straps.node).drawsOk rfl fun _ => rfl

theorem install_power (l : Loaded) (s : State) :
    (install l s).power.settings = l.settings.power ∧ (install l s).power.step = s.power.step ∧
      (install l s).power.reading = s.power.reading := by
  simp [install, installSettings, installPower, setOwnEntry]

theorem install_powerOk {s : State} (straps : Straps) (image : List Byte) (hlife : s.loader.life = .loading)
    (hs : powerOk s) : powerOk (install (loadProfile straps image) s) := by
  obtain ⟨hsettings, hstep, hreading⟩ := install_power (loadProfile straps image) s
  obtain ⟨-, -, -, hloading⟩ := hs
  obtain ⟨hzero, hnone⟩ := hloading hlife
  exact powerOk_of_step_zero (by rw [hsettings]; exact (loadedOk_profile straps image).drawsOk)
    (hstep.trans hzero) fun _ => hreading.trans hnone

/-- A reading is not in flight in LOADING. -/
theorem not_loading_of_reading {s : State} (hs : powerOk s) (h : s.power.reading.isSome) :
    s.loader.life ≠ .loading := by
  intro hlife
  obtain ⟨-, -, -, hloading⟩ := hs
  rw [(hloading hlife).2] at h
  cases h

theorem completeReading_powerOk {s : State} (r : MeterReading) (hs : powerOk s) (h : s.power.reading.isSome) :
    powerOk (completeReading r s) := by
  obtain ⟨⟨hsettings, hdraws, hcovered⟩, hlatched⟩ := completeReading_held r hs.1
  exact ⟨by rw [hsettings]; exact hdraws, hcovered, hlatched,
    fun hlife => absurd (by simpa using hlife) (not_loading_of_reading hs h)⟩

theorem effect_keeps_powerOk {i : Instr} {s t : State} (h : Effect i s t) (hs : powerOk s) : powerOk t := by
  obtain ⟨straps, rfl⟩ | ⟨straps, rfl⟩ | ⟨straps, image, hlife, rfl⟩ | ⟨hreading, r, rfl⟩ | ⟨hreading, r, rfl⟩ |
    ⟨a, rfl⟩ | hfalls := effect_falls h
  · exact powerOn_powerOk ..
  · exact restartWith_powerOk ..
  · exact install_powerOk straps image hlife hs
  · exact completeReading_powerOk r hs hreading
  · have hlife := not_loading_of_reading hs hreading
    exact powerOk_of_reading hs rfl rfl rfl rfl hlife
  · exact fire_powerOk a hs
  · obtain ⟨straps, rfl⟩ | ⟨straps, rfl⟩ | ⟨straps, image, hlife, rfl⟩ | ⟨hreading, r, rfl⟩ | hcalm :=
      effect_overdrawCalm h
    · exact powerOn_powerOk ..
    · exact restartWith_powerOk ..
    · exact install_powerOk straps image hlife hs
    · exact completeReading_powerOk r hs hreading
    · obtain ⟨straps, -, rfl⟩ | ⟨straps, rfl⟩ | ⟨straps, image, hlife, rfl⟩ | hloading := effect_loading h
      · exact powerOn_powerOk ..
      · exact restartWith_powerOk ..
      · exact install_powerOk straps image hlife hs
      · exact powerOk_of_falls hs hfalls hcalm hloading.mp

/-- Settles O59: the step rises only below the target that the grant covers, and the red margin takes it to 0. -/
theorem stepKeepsDrawWithinGrant : Obligations.StepKeepsDrawWithinGrant := by
  unfold Obligations.StepKeepsDrawWithinGrant
  intro s t hs h
  exact step_keeps (P := powerOk) (fun _ _ h => h)
    (fun s hs => powerOk_of_falls hs ((PowerFalls.refl s).of_eq (by simp)) (.of_alarms (by simp)) (by simp))
    (fun _ _ _ h => effect_keeps_powerOk h) hs h

end Sys2Proof.Machine
end

