-- ==== Sys2Proof/Proofs/SpineKept.lean ====
section
/-! PROOF. The fault counts, the standing and the SENDING slot agree with one another in every state (R23, R42 to R46).
What is not the spine controller's own work leaves all of it, but for loads of slots. -/

namespace Sys2Proof.Machine

/-! ### What the properties speak of -/

/-- Counts, standing and strain level, and the slot and the body of the message on the spine. -/
def Spine.core (p : Spine) : (Nat × Nat × Standing × Nat) × Option (SlotName × List Byte) :=
  ((p.sfc, p.tfc, p.standing, p.strain), p.tx.map fun x => (x.slot, x.body))

/-- `countsOk` of a spine controller, in LOADING or not. -/
structure CountsHeld (loading : Prop) (p : Spine) : Prop where
  sfc : p.sfc ≤ 255
  tfc : p.tfc ≤ 255
  strain : 1 ≤ p.strain
  cut : p.standing = .cut → 1 ≤ p.sfc ∧ p.sfc ≤ 64 ∧ p.tfc = 0
  standing : p.standing ≠ .cut → p.standing = standingOf p.sfc p.tfc p.strain
  loading : loading → p.standing = .open ∧ p.sfc = 0 ∧ p.tfc = 0

theorem countsOk_iff (s : State) : countsOk s ↔ CountsHeld (s.loader.life = .loading) s.spine :=
  ⟨fun ⟨h1, h2, h3, h4, h5, h6⟩ => ⟨h1, h2, h3, h4, h5, h6⟩, fun ⟨h1, h2, h3, h4, h5, h6⟩ => ⟨h1, h2, h3, h4, h5, h6⟩⟩

theorem CountsHeld.of_core {L L' : Prop} {p q : Spine} (h : CountsHeld L p) (hcore : q.core = p.core) (hL : L' → L) :
    CountsHeld L' q := by
  simp only [Spine.core, Prod.mk.injEq] at hcore
  obtain ⟨⟨hsfc, htfc, hstanding, hstrain⟩, -⟩ := hcore
  refine ⟨?_, ?_, ?_, ?_, ?_, ?_⟩ <;> simp only [hsfc, htfc, hstanding, hstrain]
  · exact h.sfc
  · exact h.tfc
  · exact h.strain
  · exact h.cut
  · exact h.standing
  · exact fun hl => h.loading (hL hl)

/-- A slot is SENDING. -/
def State.sends (s : State) (n : SlotName) : Prop := (s.slot n).state = .sending

theorem slot_of_core {p q : Spine} (h : (q.tx.map fun x => (x.slot, x.body)) = p.tx.map fun x => (x.slot, x.body)) :
    q.tx.map (·.slot) = p.tx.map (·.slot) := by
  have hfst := congrArg (Option.map Prod.fst) h
  rwa [Option.map_map, Option.map_map] at hfst

theorem exists_slot_iff (o : Option Transmission) (n : SlotName) :
    (∃ x, o = some x ∧ x.slot = n) ↔ o.map (·.slot) = some n := by
  cases o <;> simp

theorem sendingOk_iff (s : State) :
    sendingOk s ↔ (∀ n, s.sends n ↔ s.spine.tx.map (·.slot) = some n) ∧
      (s.spine.tx.isSome → s.loader.life = .running ∧ s.spine.standing ≠ .cut) := by
  unfold sendingOk State.sends
  simp only [exists_slot_iff]

/-- With no own message on the spine, no slot is SENDING. -/
theorem sendingOk_of_none {s : State} (htx : s.spine.tx = none) (hslots : ∀ n, ¬ s.sends n) : sendingOk s := by
  rw [sendingOk_iff, htx]
  exact ⟨fun n => ⟨fun h => absurd h (hslots n), nofun⟩, nofun⟩

theorem not_sends_of_none {s : State} (hs : sendingOk s) (htx : s.spine.tx = none) (n : SlotName) : ¬ s.sends n := by
  intro h
  have hslot := ((sendingOk_iff s).mp hs).1 n |>.mp h
  rw [htx] at hslot
  cases hslot

/-- Only the slot of the own message is SENDING. -/
theorem eq_slot_of_sends {s : State} (hs : sendingOk s) {x : Transmission} (htx : s.spine.tx = some x) {n : SlotName}
    (h : s.sends n) : n = x.slot := by
  have hslot := ((sendingOk_iff s).mp hs).1 n |>.mp h
  rw [htx] at hslot
  exact (Option.some.inj hslot).symm

/-! ### What leaves it all -/

/-- The spine controller's part is as it was, and the SENDING slots are the same. -/
def SpineCalm (r s : State) : Prop := s.spine.core = r.spine.core ∧ ∀ n, s.sends n ↔ r.sends n

theorem SpineCalm.refl (s : State) : SpineCalm s s := ⟨rfl, fun _ => Iff.rfl⟩

theorem SpineCalm.trans {r s t : State} (h : SpineCalm r s) (h' : SpineCalm s t) : SpineCalm r t :=
  ⟨h'.1.trans h.1, fun n => (h'.2 n).trans (h.2 n)⟩

theorem SpineCalm.of_eq {r s t : State} (h : SpineCalm r s) (hspine : t.spine = s.spine) (hslots : t.slots = s.slots) :
    SpineCalm r t := by
  refine h.trans ⟨by rw [hspine], fun n => ?_⟩
  unfold State.sends State.slot
  rw [hslots]

/-- What loads slots and hands on events. -/
theorem Hands.spineCalm {s t : State} (h : Hands s t) (hspine : t.spine.core = s.spine.core) : SpineCalm s t :=
  ⟨hspine, h.sending⟩

/-- The station has not left RUNNING, nor entered LOADING. -/
def LifeCalm (s t : State) : Prop :=
  (s.loader.life = .running → t.loader.life = .running) ∧ (t.loader.life = .loading → s.loader.life = .loading)

theorem LifeCalm.of_eq {s t : State} (h : t.loader.life = s.loader.life) : LifeCalm s t := by
  unfold LifeCalm
  rw [h]
  exact ⟨id, id⟩

theorem LifeCalm.of_run {s t : State}
    (h : t.loader.life = s.loader.life ∨ s.loader.life = .listening ∧ t.loader.life = .running) : LifeCalm s t := by
  obtain h | ⟨hs, ht⟩ := h
  · exact .of_eq h
  · exact ⟨fun _ => ht, fun h => by rw [ht] at h; cases h⟩

theorem spineOk_of_calm {s t : State} (hs : spineOk s) (h : SpineCalm s t) (hlife : LifeCalm s t) : spineOk t := by
  obtain ⟨hcounts, hsending⟩ := hs
  obtain ⟨hcore, hsends⟩ := h
  refine ⟨(countsOk_iff t).mpr (((countsOk_iff s).mp hcounts).of_core hcore hlife.2), (sendingOk_iff t).mpr ?_⟩
  obtain ⟨hslot, hrunning⟩ := (sendingOk_iff s).mp hsending
  simp only [Spine.core, Prod.mk.injEq] at hcore
  obtain ⟨⟨-, -, hstanding, -⟩, hmessage⟩ := hcore
  have htx := slot_of_core hmessage
  refine ⟨fun n => ?_, fun hsome => ?_⟩
  · rw [hsends, htx]
    exact hslot n
  · have hsome' : s.spine.tx.isSome := by
      rw [← Option.isSome_map (f := (·.slot)), ← htx, Option.isSome_map]
      exact hsome
    obtain ⟨hrun, hcut⟩ := hrunning hsome'
    exact ⟨hlife.1 hrun, by rw [hstanding]; exact hcut⟩

/-! ### Slots alone -/

theorem sends_updSlot (s : State) (n m : SlotName) (f : Slot → Slot) :
    (s.updSlot n f).sends m ↔ if m = n then (f (s.slot n)).state = .sending else s.sends m := by
  unfold State.sends
  rw [slot_updSlot]
  split <;> rfl

/-- R21: a load, or its refusal, leaves which slots are SENDING. -/
theorem loadSlot_sends (n m : SlotName) (c : Content) (s : State) : (loadSlot n c s).sends m ↔ s.sends m := by
  unfold loadSlot
  split
  · unfold State.sends State.slot
    simp
  · rw [sends_updSlot]
    split
    · rename_i h
      rw [h, load_sending_iff]
      rfl
    · rfl

theorem finish_not_sending (sl : Slot) : sl.finish.state ≠ .sending := by
  unfold Slot.finish
  split <;> nofun

theorem endUnsent_not_sending (sl : Slot) (o : SendOutcome) : (sl.endUnsent o).1.state ≠ .sending := by
  unfold Slot.endUnsent
  split
  · exact finish_not_sending sl
  · split
    · exact finish_not_sending sl
    · nofun

@[simp] theorem handOutcome_slots (n : SlotName) (o : Option SendOutcome) (attempts : BitVec 8) (s : State) :
    (handOutcome n o attempts s).slots = s.slots := by
  unfold handOutcome
  split <;> simp

/-- R24: the slot of a send that ends without SENT is no longer SENDING, and no other has changed. -/
theorem endUnsent_sends (n m : SlotName) (o : SendOutcome) (s : State) :
    (endUnsent n o s).sends m ↔ m ≠ n ∧ s.sends m := by
  have hslots : (endUnsent n o s).sends m ↔ (s.updSlot n fun sl => (sl.endUnsent o).1).sends m := by
    unfold State.sends State.slot endUnsent
    simp
  rw [hslots, sends_updSlot]
  split
  · rename_i h
    simp [h, endUnsent_not_sending]
  · rename_i h
    simp [h]

theorem clearSlots_sends (n : SlotName) (s : State) : ¬ (clearSlots s).sends n := by
  have hslots : (clearSlots s).slots = s.slots.clear := by
    unfold clearSlots
    dsimp only
    (repeat' split) <;> simp
  unfold State.sends State.slot
  rw [hslots]
  cases n <;> simp [Slots.get, Slots.clear, Slot.clear]

/-! ### The standing -/

/-- R44: the standing is what the counts give; a CUT station keeps it. -/
theorem settleStanding_spine (s : State) :
    (settleStanding s).spine =
      if s.spine.standing = .cut then s.spine
      else { s.spine with standing := standingOf s.spine.sfc s.spine.tfc s.spine.strain } := by
  unfold settleStanding
  dsimp only
  split
  · rename_i h
    rw [if_pos h]
  · rename_i h
    have hcut : s.spine.standing ≠ .cut := by simp [h]
    rw [if_neg hcut]
    split <;> simp
  · rename_i h
    have hcut : s.spine.standing ≠ .cut := by simp [h]
    rw [if_neg hcut, updSpine_spine]
  · rename_i h
    have hcut : s.spine.standing ≠ .cut := by simp [h]
    rw [if_neg hcut, updSpine_spine]

theorem standingOf_ne_cut (sfc tfc level : Nat) : standingOf sfc tfc level ≠ .cut := by
  unfold standingOf
  split
  · nofun
  · split <;> nofun

theorem standingOf_zero {level : Nat} (h : 1 ≤ level) : standingOf 0 0 level = .open := by
  unfold standingOf
  rw [if_neg (by omega), if_neg (by omega)]

/-- Outside CUT and LOADING, counts within their range and a standing taken from them. -/
theorem CountsHeld.settled {L : Prop} {p : Spine} (hsfc : p.sfc ≤ 255) (htfc : p.tfc ≤ 255) (hstrain : 1 ≤ p.strain)
    (hstanding : p.standing = standingOf p.sfc p.tfc p.strain) (hL : ¬ L) : CountsHeld L p :=
  ⟨hsfc, htfc, hstrain, fun h => absurd (hstanding ▸ h) (standingOf_ne_cut _ _ _), fun _ => hstanding,
    fun h => absurd h hL⟩

/-- A standing settled on counts within their range. -/
theorem settleStanding_counts {L : Prop} {s : State} (hsfc : s.spine.sfc ≤ 255) (htfc : s.spine.tfc ≤ 255)
    (hstrain : 1 ≤ s.spine.strain) (hcut : s.spine.standing ≠ .cut) (hL : ¬ L) :
    CountsHeld L (settleStanding s).spine := by
  rw [settleStanding_spine, if_neg hcut]
  exact .settled hsfc htfc hstrain rfl hL

theorem settleStanding_tx (s : State) : (settleStanding s).spine.tx = s.spine.tx := by
  rw [settleStanding_spine]
  split <;> rfl

theorem settleStanding_sends (n : SlotName) (s : State) : (settleStanding s).sends n ↔ s.sends n :=
  (settleStanding_hands (.refl s)).sending n

/-! ### Messages that are handed on -/

theorem moveHeld_core (d : Int) (s : State) : (moveHeld d s).spine.core = s.spine.core := by
  simp only [moveHeld, updSpine_spine, Spine.core, Option.map_map]
  rfl

theorem correct_core (e : Int) (s : State) : (correct e s).spine.core = s.spine.core := by
  unfold correct
  split
  · split <;> simp [stepTime, moveHeld_core]
  · rfl

theorem takeTime_core (rank : Rank) (body : List Byte) (start : Int) (s : State) :
    (takeTime rank body start s).spine.core = s.spine.core := by
  unfold takeTime
  split
  · rfl
  · split
    · rfl
    · unfold takeBeacon
      dsimp only
      split
      · simp
      · split <;> simp [correct_core]

theorem routeMessage_core (m : Arrival) (s : State) : (routeMessage m s).spine.core = s.spine.core := by
  have hunit (u : TakingUnit) (s : State) : (handTo u m s).spine.core = s.spine.core := by
    cases u with
    | time => exact takeTime_core ..
    | _ => simp [handTo]
  unfold routeMessage deliverTo
  dsimp only
  split
  · simp
  · simp [hunit]
  · simp
  · simp [hunit]
  · simp
  · simp

theorem routeMessage_spineOk (m : Arrival) {s : State} (hs : spineOk s) : spineOk (routeMessage m s) :=
  spineOk_of_calm hs ((routeMessage_hands m (.refl s)).hands.spineCalm (routeMessage_core m s))
    (.of_run (routeMessage_life m s))

/-! ### The controller's own work -/

theorem startMessage_spineOk {s : State} {n : SlotName} {further : Nat} (hmay : s.mayStart further = true)
    (hs : spineOk s) : spineOk (startMessage n s) := by
  simp only [State.mayStart, State.inService, State.betweenMessages, Bool.and_eq_true, beq_iff_eq, bne_iff_ne,
    Option.isNone_iff_eq_none] at hmay
  obtain ⟨⟨⟨hlife, hcut⟩, ⟨-, htx⟩, -⟩, -⟩ := hmay
  refine ⟨(countsOk_iff _).mpr ?_, (sendingOk_iff _).mpr ⟨fun m => ?_, fun _ => ⟨hlife, hcut⟩⟩⟩
  · obtain ⟨h1, h2, h3, h4, h5, h6⟩ := (countsOk_iff s).mp hs.1
    exact ⟨h1, h2, h3, h4, h5, h6⟩
  · have hslot : (startMessage n s).spine.tx.map (·.slot) = some n := rfl
    have hsends : (startMessage n s).sends m ↔ (s.updSlot n (·.select)).sends m := Iff.rfl
    rw [hslot, hsends, sends_updSlot]
    split
    · rename_i h
      simp [h, Slot.select]
    · rename_i h
      refine ⟨fun hm => absurd hm (not_sends_of_none hs.2 htx m), fun hm => absurd (Option.some.inj hm).symm h⟩

theorem loseArbitration_spineOk {s : State} {x : Transmission} (htx : s.spine.tx = some x) (hs : spineOk s) :
    spineOk (loseArbitration x s) := by
  have hspine : (loseArbitration x s).spine =
      { s.spine with tx := none, receiving := true, drive := .undriven, losses := bump s.spine.losses } := by
    simp [loseArbitration]
  refine ⟨(countsOk_iff _).mpr ?_, sendingOk_of_none (by rw [hspine]) fun n h => ?_⟩
  · obtain ⟨h1, h2, h3, h4, h5, h6⟩ := (countsOk_iff s).mp hs.1
    rw [hspine, (by simp : (loseArbitration x s).loader = s.loader)]
    exact ⟨h1, h2, h3, h4, h5, h6⟩
  · obtain ⟨hne, hn⟩ := (endUnsent_sends x.slot n .lost _).mp h
    exact hne (eq_slot_of_sends hs.2 htx hn)

/-- R45: a station that enters CUT has no SENDING slot, and counts down from 64. -/
theorem enterCut_spineOk {s : State} (hstrain : 1 ≤ s.spine.strain) (hlife : s.loader.life = .running) :
    spineOk (enterCut s) := by
  have hspine : (enterCut s).spine = { s.spine.ended true with standing := .cut, tfc := 0, sfc := 64 } := by
    simp [enterCut]
  refine ⟨(countsOk_iff _).mpr ?_, sendingOk_of_none (by rw [hspine]; rfl) fun n h => ?_⟩
  · rw [hspine]
    refine ⟨(by decide : 64 ≤ 255), Nat.zero_le _, hstrain, fun _ => ⟨(by decide : 1 ≤ 64), Nat.le_refl 64, rfl⟩,
      fun h => absurd rfl h, fun h => ?_⟩
    rw [enterCut_life, hlife] at h
    cases h
  · have hslots : (enterCut s).sends n ↔ (latch .cut (clearSlots (s.updSpine fun p =>
        { p.ended true with standing := .cut, tfc := 0, sfc := 64 }))).sends n := by
      unfold State.sends State.slot enterCut
      simp
    exact clearSlots_sends n _ (((latch_hands (f := .cut) (by decide) (.refl _)).sending n).mp (hslots.mp h))

theorem failSend_spineOk {s : State} {x : Transmission} {weight : Nat} (hsfc : s.spine.sfc + weight ≤ 255)
    (htfc : s.spine.tfc ≤ 255) (hstrain : 1 ≤ s.spine.strain) (hcut : s.spine.standing ≠ .cut)
    (hlife : s.loader.life = .running) (hslot : ∀ n, s.sends n → n = x.slot) : spineOk (failSend x weight s) := by
  have hspine : (failSend x weight s).spine = (driveSpoil (settleStanding (s.updSpine fun p =>
      { p.ended true with sfc := p.sfc + weight }))).spine := by
    simp [failSend]
  have hcounts : CountsHeld ((failSend x weight s).loader.life = .loading)
      (settleStanding (s.updSpine fun p => { p.ended true with sfc := p.sfc + weight })).spine :=
    settleStanding_counts hsfc htfc hstrain hcut (by simp [hlife])
  refine ⟨(countsOk_iff _).mpr ?_, sendingOk_of_none ?_ fun n h => ?_⟩
  · rw [hspine]
    exact hcounts.of_core rfl id
  · rw [hspine]
    exact settleStanding_tx _
  · obtain ⟨hne, hn⟩ := (endUnsent_sends x.slot n .failed _).mp h
    have hbefore : s.sends n := (settleStanding_sends n (s.updSpine fun p =>
      { p.ended true with sfc := p.sfc + weight })).mp hn
    exact hne (hslot n hbefore)

theorem sendError_spineOk {s : State} (k : SendErrorKind) {x : Transmission} (htx : s.spine.tx = some x)
    (hs : spineOk s) : spineOk (sendError k x s) := by
  obtain ⟨hrunning, hcut⟩ := hs.2.2 (by simp [htx])
  obtain ⟨-, h2, h3, -⟩ := (countsOk_iff s).mp hs.1
  have hcounted : (s.spine.countSendError k).sfc = s.spine.sfc ∧ (s.spine.countSendError k).tfc = s.spine.tfc ∧
      (s.spine.countSendError k).strain = s.spine.strain ∧ (s.spine.countSendError k).standing = s.spine.standing := by
    cases k <;> exact ⟨rfl, rfl, rfl, rfl⟩
  obtain ⟨hsfc, htfc, hstrain, hstanding⟩ := hcounted
  unfold sendError
  dsimp only
  split
  · exact enterCut_spineOk (by rw [updSpine_spine, hstrain]; exact h3) hrunning
  · rename_i hle
    refine failSend_spineOk (by omega) (by rw [updSpine_spine, htfc]; exact h2)
      (by rw [updSpine_spine, hstrain]; exact h3) (by rw [updSpine_spine, hstanding]; exact hcut) hrunning
      fun n hn => eq_slot_of_sends hs.2 htx hn

/-- What a station that receives knows of itself (R2). -/
theorem receives_iff (s : State) :
    s.receives = true ↔ s.loader.life ≠ .loading ∧ s.spine.standing ≠ .cut ∧ s.spine.tx = none ∧
      s.spine.synced = true := by
  simp only [State.receives, Bool.and_eq_true, bne_iff_ne, Option.isNone_iff_eq_none, and_assoc, ne_eq]

theorem receiveError_spineOk {s : State} (k : ReceiveErrorKind) (hreceives : s.receives = true) (hs : spineOk s) :
    spineOk (receiveError k s) := by
  obtain ⟨hlife, hcut, htx, -⟩ := (receives_iff s).mp hreceives
  obtain ⟨h1, h2, h3, -⟩ := (countsOk_iff s).mp hs.1
  have hfields : ((s.spine.ended false).countReceiveError k).sfc = s.spine.sfc ∧
      ((s.spine.ended false).countReceiveError k).strain = s.spine.strain ∧
      ((s.spine.ended false).countReceiveError k).standing = s.spine.standing ∧
      ((s.spine.ended false).countReceiveError k).tx = none := by
    cases k <;> exact ⟨rfl, rfl, rfl, rfl⟩
  obtain ⟨hsfc, hstrain, hstanding, htx'⟩ := hfields
  have hcounts : CountsHeld (s.loader.life = .loading) (settleStanding (s.updSpine fun p =>
      { (p.ended false).countReceiveError k with tfc := min (p.tfc + 1) 255 })).spine :=
    settleStanding_counts (by rw [updSpine_spine, hsfc]; exact h1) (Nat.min_le_right _ _)
      (by rw [updSpine_spine, hstrain]; exact h3) (by rw [updSpine_spine, hstanding]; exact hcut) hlife
  refine ⟨(countsOk_iff _).mpr ?_, sendingOk_of_none ?_ fun n h => ?_⟩
  · rw [(by simp : (receiveError k s).loader = s.loader)]
    exact hcounts.of_core rfl id
  · refine (settleStanding_tx _).trans ?_
    rw [updSpine_spine, htx']
  · have hbefore : s.sends n := (settleStanding_sends n (s.updSpine _)).mp h
    exact not_sends_of_none hs.2 htx n hbefore

/-- R19: a station that withdraws has cleared its slots. -/
theorem withdraw_spineOk {s : State} (hs : spineOk s) (htx : s.spine.tx = none) : spineOk (withdraw s) := by
  refine ⟨(countsOk_iff _).mpr (((countsOk_iff s).mp hs.1).of_core (by simp) fun h => ?_),
    sendingOk_of_none (by simpa using htx) fun n h => ?_⟩
  · rw [withdraw_life] at h
    cases h
  · unfold withdraw refreshLane at h
    have hcleared := ((setCondition_hands (f := .lane) (by decide) _ (.refl _)).sending n).mp h
    refine clearSlots_sends n (s.updLoader fun l => { l with life := .listening }) ?_
    change ((leaveService _).slots.get n).state = _ at hcleared
    rw [(by simp : ∀ s, (leaveService s).slots = s.slots)] at hcleared
    exact hcleared

theorem messageTaken_spineOk {s : State} (m : Received) (hreceives : s.receives = true) (hs : spineOk s) :
    spineOk (messageTaken m s) := by
  obtain ⟨hlife, hcut, htx, -⟩ := (receives_iff s).mp hreceives
  obtain ⟨h1, h2, h3, -⟩ := (countsOk_iff s).mp hs.1
  have hgood : goodReceipt s.spine.tfc ≤ 255 := by
    unfold goodReceipt
    split <;> omega
  have hsettled : spineOk (settleStanding (s.updSpine fun p =>
      { p.ended false with tfc := goodReceipt p.tfc, drive := .echo })) := by
    refine ⟨(countsOk_iff _).mpr ?_, sendingOk_of_none (settleStanding_tx _) fun n h => ?_⟩
    · exact settleStanding_counts h1 hgood h3 hcut (by simpa using hlife)
    · have hbefore : s.sends n := (settleStanding_sends n (s.updSpine _)).mp h
      exact not_sends_of_none hs.2 htx n hbefore
  have htaken : (settleStanding (s.updSpine fun p =>
      { p.ended false with tfc := goodReceipt p.tfc, drive := .echo })).spine.tx = none := settleStanding_tx _
  have hloading : (settleStanding (s.updSpine fun p =>
      { p.ended false with tfc := goodReceipt p.tfc, drive := .echo })).loader.life ≠ .loading := by simpa using hlife
  unfold messageTaken
  dsimp only
  generalize settleStanding (s.updSpine fun p =>
      { p.ended false with tfc := goodReceipt p.tfc, drive := .echo }) = u at hsettled htaken hloading
  split
  · have harisen : spineOk (arise .dupnode (u.updSpine fun p => { p with duplicates := bump p.duplicates })) := by
      have hcalm : SpineCalm u (arise .dupnode (u.updSpine fun p => { p with duplicates := bump p.duplicates })) :=
        ⟨by simp [Spine.core], (arise_hands (f := .dupnode) (by decide)
          (.refl (u.updSpine fun p => { p with duplicates := bump p.duplicates }))).sending⟩
      exact spineOk_of_calm hsettled hcalm (.of_eq (by simp))
    unfold duplicateNode
    dsimp only
    split
    · exact withdraw_spineOk harisen (by simpa using htaken)
    · exact harisen
  · exact routeMessage_spineOk _ hsettled

@[simp] theorem slotSent_slots (x : Transmission) (attempts : BitVec 8) (s : State) :
    (slotSent x attempts s).slots = s.slots := by
  unfold slotSent
  split <;> simp [alarmSent, beaconSent]

@[simp] theorem slotSent_spine (x : Transmission) (attempts : BitVec 8) (s : State) :
    (slotSent x attempts s).spine = s.spine := by
  unfold slotSent
  split <;> simp [alarmSent, beaconSent]

theorem sendEnd_spineOk {s : State} {x : Transmission} (htx : s.spine.tx = some x) (hs : spineOk s) :
    spineOk (sendEnd x s) := by
  obtain ⟨hrunning, hcut⟩ := hs.2.2 (by simp [htx])
  obtain ⟨h1, h2, h3, -⟩ := (countsOk_iff s).mp hs.1
  have hsettled : spineOk (settleStanding ((slotSent x (s.slot x.slot).attempts
      ((s.updSlot x.slot (·.finish)).updSpine (·.ended true))).updSpine fun p => { p with sfc := p.sfc - 1 })) := by
    refine ⟨(countsOk_iff _).mpr (settleStanding_counts ?_ ?_ ?_ ?_ ?_), sendingOk_of_none ?_ fun n h => ?_⟩
    · simp only [updSpine_spine, slotSent_spine]
      exact (Nat.sub_le _ _).trans h1
    · simpa [Spine.ended] using h2
    · simpa [Spine.ended] using h3
    · simpa [Spine.ended] using hcut
    · simp [hrunning]
    · refine (settleStanding_tx _).trans ?_
      simp only [updSpine_spine, slotSent_spine]
      rfl
    · have hfinished : (s.updSlot x.slot (·.finish)).sends n := by
        have hn := (settleStanding_sends n _).mp h
        unfold State.sends State.slot at hn ⊢
        simpa using hn
      rw [sends_updSlot] at hfinished
      split at hfinished
      · exact finish_not_sending _ hfinished
      · rename_i hne
        exact hne (eq_slot_of_sends hs.2 htx hfinished)
  unfold sendEnd
  dsimp only
  split
  · exact routeMessage_spineOk _ hsettled
  · exact hsettled

/-- What a station between messages knows of itself (R2, R7). -/
theorem betweenMessages_iff (s : State) :
    s.betweenMessages = true ↔ s.loader.life ≠ .loading ∧ s.spine.tx = none ∧ s.spine.receiving = false := by
  simp only [State.betweenMessages, Bool.and_eq_true, bne_iff_ne, Option.isNone_iff_eq_none, and_assoc, ne_eq,
    Bool.not_eq_true']

/-- R46: the station rejoins with both counts at 0. -/
theorem rejoin_spineOk {s : State} (hstrain : 1 ≤ s.spine.strain) (htx : s.spine.tx = none)
    (hslots : ∀ n, ¬ s.sends n) : spineOk (rejoin s) := by
  have hopen : spineOk (s.updSpine fun p => { p with standing := .open, sfc := 0, tfc := 0 }) := by
    refine ⟨(countsOk_iff _).mpr ⟨Nat.zero_le _, Nat.zero_le _, hstrain, nofun,
      fun _ => (standingOf_zero hstrain).symm, fun _ => ⟨rfl, rfl, rfl⟩⟩, sendingOk_of_none htx hslots⟩
  unfold rejoin
  dsimp only
  split
  · exact spineOk_of_calm hopen ((returnToService_hands (.refl _)).hands.spineCalm (by simp)) (.of_eq (by simp))
  · exact hopen

theorem quietRun_spineOk {s : State} (driven : Bool) (hbetween : s.betweenMessages = true) (hs : spineOk s) :
    spineOk (quietRun driven s) := by
  obtain ⟨hlife, htx, -⟩ := (betweenMessages_iff s).mp hbetween
  obtain ⟨h1, h2, h3, h4, h5, h6⟩ := (countsOk_iff s).mp hs.1
  have hslots := not_sends_of_none hs.2 htx
  unfold quietRun
  dsimp only
  split
  · rename_i hcut
    split
    · exact rejoin_spineOk h3 htx hslots
    · rename_i hsfc
      obtain ⟨hlow, hhigh, hzero⟩ := h4 hcut
      refine ⟨(countsOk_iff _).mpr ⟨(Nat.sub_le _ _).trans h1, h2, h3,
        fun _ => ⟨?_, (Nat.sub_le _ _).trans hhigh, hzero⟩, fun h => absurd hcut h, fun h => absurd h hlife⟩,
        sendingOk_of_none htx hslots⟩
      simp only [updSpine_spine] at hsfc ⊢
      omega
  · exact ⟨(countsOk_iff _).mpr ⟨h1, h2, h3, h4, h5, h6⟩, sendingOk_of_none htx hslots⟩

/-! ### Other units that touch slots -/

theorem abortPort_sends (n : SlotName) (s : State) : (abortPort s).sends n ↔ s.sends n := by
  unfold abortPort
  dsimp only
  split
  · rfl
  · rename_i hpending
    have hslots : (pushOutcome .aborted s.slots.port.attempts (s.updSlot .port (·.clear))).sends n ↔
        (s.updSlot .port (·.clear)).sends n := by
      unfold State.sends State.slot
      simp
    rw [hslots, sends_updSlot]
    split
    · rename_i hn
      have hport : s.slot .port = s.slots.port := rfl
      simp [hn, State.sends, hport, hpending, Slot.clear]
    · rfl
  · rename_i hsending
    rw [sends_updSlot]
    split
    · rename_i hn
      rw [hn]
      rfl
    · rfl

theorem sendRecord_hands {r : SendRecord} (hlength : r.body.length ≤ 40) (s : State) :
    HandsCalm s (sendRecord r s) := by
  have hrank : HandsCalm s (if r.rank.toNat < 4096 then s else s.useFree) := .ite (.refl s) (.refl s)
  unfold sendRecord
  dsimp only
  generalize (if r.rank.toNat < 4096 then s else s.useFree) = u at hrank
  split
  · exact hrank.of_eq (by simp) (by simp)
  · unfold sendThroughPort
    dsimp only
    split
    · exact (countRefused_hands .port hrank).of_eq (by simp) (by simp)
    · split
      · exact hrank.of_eq (by simp) (by simp)
      · exact loadSlot_hands hlength hrank

/-- A reply loads its slot at most; what the command did before touched none. -/
theorem deliver_sends (c : Command) (a : Answer) (n : SlotName) : (deliver c a).sends n ↔ a.state.sends n := by
  unfold deliver
  dsimp only
  split
  · unfold State.sends State.slot
    simp
  · unfold spineReply
    split
    · unfold State.sends State.slot
      simp
    · exact loadSlot_sends ..

theorem carried_slots {c : Command} {s : State} {a : Answer} (ha : Carried c s a) :
    a.state.slots = s.slots ∧ a.state.spine = s.spine := by
  cases ha with
  | status => unfold answerStatus; dsimp only; split <;> exact ⟨rfl, rfl⟩
  | clearMapFault => unfold answerClearMapFault; split <;> exact ⟨rfl, rfl⟩
  | capture => simp [answerCapture]
  | readQueue => simp
  | _ => exact ⟨rfl, rfl⟩

/-! ### Every effect -/

theorem captureSample_sends (mic : BitVec 16) (n : SlotName) (s : State) :
    (captureSample mic s).sends n ↔ s.sends n := by
  have hload (body : List Byte) (s : State) : (loadCapture body s).sends n ↔ s.sends n := by
    unfold loadCapture
    dsimp only
    split
    · exact ((latch_hands (f := .audio) (by decide) (.refl _)).sending n).trans (loadSlot_sends ..)
    · exact loadSlot_sends ..
  unfold captureSample
  split
  · split
    · unfold sampleIntoA
      dsimp only
      split
      · rfl
      · exact hload _ (s.updCapture _)
    · split
      · unfold sampleIntoB
        dsimp only
        split
        · rfl
        · exact hload _ (s.updCapture _)
      · rfl
  · rfl

theorem install_sends (l : Loaded) (n : SlotName) (s : State) : (install l s).sends n ↔ s.sends n := by
  have hloaded := (latchLoaded_hands l (.refl (installSettings l.settings s))).sending n
  unfold State.sends State.slot
  rw [(by simp [install] : (install l s).slots = (latchLoaded l (installSettings l.settings s)).slots)]
  simpa using hloaded

/-- R177: in LOADING there is no own message, and the strain level installed is at least 1. -/
theorem install_spineOk {s : State} (straps : Straps) (image : List Byte) (hlife : s.loader.life = .loading)
    (hs : spineOk s) : spineOk (install (loadProfile straps image) s) := by
  obtain ⟨h1, h2, h3, h4, h5, h6⟩ := (countsOk_iff s).mp hs.1
  obtain ⟨hopen, hsfc, htfc⟩ := h6 hlife
  have htx : s.spine.tx = none := by
    cases htx : s.spine.tx with
    | none => rfl
    | some x =>
      have hrunning := (hs.2.2 (by simp [htx])).1
      rw [hlife] at hrunning
      cases hrunning
  have hstrain : 1 ≤ (loadProfile straps image).settings.strain := (Nat.le_add_left 1 15).trans
    (loadedOk_profile straps image).strain.1
  refine ⟨(countsOk_iff _).mpr ?_, sendingOk_of_none ?_ fun n hn => ?_⟩
  · rw [install_spine]
    refine ⟨h1, h2, hstrain, h4, fun _ => ?_, fun _ => ⟨hopen, hsfc, htfc⟩⟩
    dsimp only
    rw [hopen, hsfc, htfc, standingOf_zero hstrain]
  · rw [install_spine]
    exact htx
  · exact not_sends_of_none hs.2 htx n ((install_sends _ n s).mp hn)

theorem powerOn_spineOk (straps : Straps) (pins : Pins) (pending : List Instr) (free : Nat) :
    spineOk (State.powerOn straps pins pending free) := by
  refine ⟨(countsOk_iff _).mpr ⟨Nat.zero_le _, Nat.zero_le _, (by decide : 1 ≤ 80), nofun, fun _ => rfl,
    fun _ => ⟨rfl, rfl, rfl⟩⟩, sendingOk_of_none rfl fun n h => ?_⟩
  cases n <;> cases h

theorem restartWith_spineOk (straps : Straps) (s : State) : spineOk (restartWith straps s) :=
  spineOk_of_calm (powerOn_spineOk straps s.pins s.pending s.free) ⟨rfl, fun _ => Iff.rfl⟩ (.of_eq rfl)

theorem effect_keeps_spineOk {i : Instr} {s t : State} (h : Effect i s t) (hs : spineOk s) : spineOk t := by
  have hhands {t : State} (h : HandsCalm s t) (hspine : t.spine = s.spine) (hlife : LifeCalm s t) : spineOk t :=
    spineOk_of_calm hs (h.hands.spineCalm (by rw [hspine])) hlife
  cases h with
  | powerOn straps => exact powerOn_spineOk ..
  | restart straps => exact restartWith_spineOk ..
  | install straps image hlife => exact install_spineOk straps image hlife hs
  | drivenBit =>
    unfold drivenBit
    split
    · exact spineOk_of_calm hs ⟨rfl, fun _ => Iff.rfl⟩ (.of_eq rfl)
    · exact hs
  | quietRun driven hbetween => exact quietRun_spineOk driven hbetween hs
  | start further n hmay => exact startMessage_spineOk hmay hs
  | loseArbitration x htx => exact loseArbitration_spineOk htx hs
  | sendError k x htx => exact sendError_spineOk k htx hs
  | receiveError k hreceives => exact receiveError_spineOk k hreceives hs
  | messageTaken m hreceives => exact messageTaken_spineOk m hreceives hs
  | sendEnd x htx => exact sendEnd_spineOk htx hs
  | answer c rest a _ _ ha =>
    obtain ⟨hslots, hspine⟩ := carried_slots ha
    refine spineOk_of_calm hs ⟨by simp [hspine], fun n => ?_⟩ (.of_eq (by simp [carried_life ha]))
    rw [deliver_sends]
    unfold State.sends State.slot
    simp [hslots]
  | fire a => exact hhands (fire_hands a (.refl s)) (by simp) (.of_eq (by simp))
  | expireRecord o => exact hhands (expireRecord_hands o (.refl s)) (by simp) (.of_eq (by simp))
  | leaveListening hout =>
    have hlife : s.loader.life = .listening := by
      simp only [State.timerOut, Bool.and_eq_true, beq_iff_eq] at hout
      exact hout.1
    exact hhands (leaveListening_hands (.refl (s.updTime _))) (by simp)
      (.of_run ((leaveListening_life (s.updTime _)).imp_right fun h => ⟨hlife, h⟩))
  | completeRead ready rates accels r =>
    exact hhands (completeRead_hands ready rates accels r (.refl s)) (by simp) (.of_eq (by simp))
  | setLaneSignal v run => exact hhands (setLaneSignal_hands v run (.refl s)) (by simp) (.of_eq (by simp))
  | packetHeader cut p => exact hhands (packetHeader_hands cut p (.refl s)) (by simp) (.of_eq (by simp))
  | scanLine => exact hhands (scanLine_hands _ (.refl s)) (by simp) (.of_eq (by simp))
  | scanEnd => exact hhands (scanEnd_hands (.refl s)) (by simp) (.of_eq (by simp))
  | expireEntry n => exact hhands (expireEntry_hands n (.refl s)) (by simp) (.of_eq (by simp))
  | completeReading r =>
    exact spineOk_of_calm hs ((completeReading_hands r s).spineCalm (by simp)) (.of_eq (by simp))
  | codecFrame mic =>
    refine spineOk_of_calm hs ⟨by simp, fun n => ?_⟩ (.of_eq (by simp))
    rw [captureSample_sends]
    exact (playFrame_hands (.refl s)).sending n
  | sendRecord r _ hlength =>
    exact spineOk_of_calm hs ⟨by simp, (sendRecord_hands hlength s).sending⟩ (.of_eq (by simp))
  | abortPort => exact spineOk_of_calm hs ⟨by simp, fun n => abortPort_sends n s⟩ (.of_eq (by simp))
  | _ => exact hhands ((HandsCalm.refl s).of_eq (by simp) (by simp)) (by simp) (.of_eq (by simp))

/-- R60: the slew moves the start of the own message, and nothing else of the spine controller. -/
theorem tick_core (s : State) : (tick s).spine.core = s.spine.core := by
  have hspine : (tick s).spine = (slewMicrosecond (countMicrosecond (keepReading (senseAlert s)))).spine := by
    change (runLineClock _).spine = _
    simp
  have hbefore : (countMicrosecond (keepReading (senseAlert s))).spine = s.spine := by
    simp only [countMicrosecond_frame, keepReading_frame]
    rfl
  rw [hspine]
  unfold slewMicrosecond
  dsimp only
  split
  · rw [hbefore]
  · rw [updTime_spine, moveHeld_core, hbefore]

/-- Settles O51: by the spine controller's own work, and by what every other unit leaves of it. -/
theorem stepKeepsCountsAndStanding : Obligations.StepKeepsCountsAndStanding := by
  unfold Obligations.StepKeepsCountsAndStanding
  intro s t hs h
  refine step_keeps (P := spineOk) (fun _ _ h => h) (fun s hs => ?_) (fun _ _ _ h => effect_keeps_spineOk h) hs h
  refine spineOk_of_calm hs ⟨tick_core s, fun n => ?_⟩ (.of_eq (by simp))
  unfold State.sends State.slot
  simp

end Sys2Proof.Machine
end

