-- ==== Sys2Proof/Proofs/IntakeKept.lean ====
section
/-! PROOF. The moves of the intake queue (R32 to R35, R39) and what all of them keep: its room, and the length of the
bodies in it; with the length of every reply's data (R5, R40). -/

namespace Sys2Proof.Machine

/-! ### The data of replies -/

/-- R41: the base block. -/
theorem baseBlock_length (s : State) : (baseBlock s).length = 11 := by simp [baseBlock]

/-- R41: a page has at most 26 bytes. -/
theorem statusPage_length {s : State} {n : Nat} {page : List Byte} (h : statusPage s n = some page) :
    page.length ≤ 26 := by
  have hof {b : Prop} [Decidable b] {p : List Byte} (hp : p.length ≤ 26)
      (h : (if b then some p else none) = some page) : page.length ≤ 26 := by
    split at h
    · rw [← Option.some.inj h]
      exact hp
    · cases h
  unfold statusPage at h
  split at h
  · rw [← Option.some.inj h]; simp [page0]
  · rw [← Option.some.inj h]; simp [page1]
  · rw [← Option.some.inj h]; simp [page2]
  · exact hof (by simp [page3]) h
  · split at h
    · rw [← Option.some.inj h]; simp [page4Console]
    · rw [← Option.some.inj h]; simp [page4Headset]
    · cases h
  · exact hof (by simp [page5]) h
  · exact hof (by simp [page6]) h
  · rw [← Option.some.inj h]; simp [page7]

theorem sampleBytes_length (r : SampleRecord) : (sampleBytes r).length = 12 := by simp [sampleBytes]

/-- R87: at most three records of 12 bytes. -/
theorem answerReadSamples_length (c : Command) (s : State) : (answerReadSamples c s).data.length ≤ 37 := by
  have hcount : clampNat (byteAt c.args 0).toNat 1 3 ≤ 3 := (clampNat_bounds (by omega) _).2
  have hsum (rs : List SampleRecord) : (rs.flatMap sampleBytes).length = 12 * rs.length := by
    simp [List.length_flatMap, sampleBytes_length, Nat.mul_comm]
  simp only [answerReadSamples, List.length_append, List.length_singleton, hsum, List.length_take]
  omega

/-- R35: the head entry's data, 32 bytes of the body at most. -/
theorem answerReadQueue_length {c : Command} {s : State} (h : ∀ e ∈ s.intake.queue, e.body.length ≤ 40) :
    (answerReadQueue c s).data.length ≤ 37 := by
  unfold answerReadQueue readPart
  dsimp only
  split
  · simp [readNothing]
  · rename_i e rest hqueue
    have hbody : e.body.length ≤ 40 := h e (by rw [hqueue]; exact List.mem_cons_self ..)
    split
    · unfold readSecond
      split
      · simp [headBytes]
        omega
      · simp [readNothing]
    · simp [readFirst, headBytes]
      omega

theorem carried_data_length {c : Command} {s : State} {a : Answer} (ha : Carried c s a)
    (h : ∀ e ∈ s.intake.queue, e.body.length ≤ 40) : a.data.length ≤ 37 := by
  cases ha with
  | status =>
    unfold answerStatus
    dsimp only
    split
    · rw [baseBlock_length]
      decide
    · rename_i page hpage
      have := statusPage_length hpage
      rw [List.length_append, baseBlock_length]
      omega
  | readSamples => exact answerReadSamples_length c s
  | readQueue => exact answerReadQueue_length h
  | clearMapFault =>
    unfold answerClearMapFault
    split
    · exact Nat.zero_le _
    · simp [mapFaultBytes]
  | clearAlarm => simp [answerClearAlarm]
  | holdEncoders => simp [answerHoldEncoders]
  | alignPose => simp [answerAlignPose]
  | readBands => simp [answerReadBands]
  | capture => simp [answerCapture]
  | setGain => simp [answerSetGain]
  | readTime => simp [answerReadTime]
  | notHere => exact Nat.zero_le _
  | restart => exact Nat.zero_le _
  | unknown => exact Nat.zero_le _

theorem replyBody_length (c : Command) (r : Result) (data : List Byte) :
    (replyBody c r data).length = data.length + 3 := by
  simp [replyBody]
  omega

/-! ### The moves -/

/-- What every move of the intake keeps; where `B`, the bodies stored are short. -/
structure IntakeInvariant (B : Prop) (P : Intake → Prop) : Prop where
  kept : ∀ k k' : Intake, k'.queue = k.queue → k'.inTransfer = k.inTransfer → P k → P k'
  store : ∀ (k : Intake) e, (B → e.body.length ≤ 40) → P k → P { k with queue := k.queue ++ [e] } ∨ ¬ k.fits e
  next : ∀ (k : Intake) e rest, k.queue = e :: rest → P k → P { k with queue := rest }
  transfer : ∀ (k : Intake) e rest, k.queue = e :: rest → P k → P { k with queue := rest, inTransfer := some e }
  free : ∀ k : Intake, P k → P { k with inTransfer := none }

section

variable {B : Prop} {P : Intake → Prop} (hP : IntakeInvariant B P) {s : State}

include hP

theorem IntakeInvariant.keep {k k' : Intake} (h : P k) (hqueue : k'.queue = k.queue)
    (htransfer : k'.inTransfer = k.inTransfer) : P k' := hP.kept k k' hqueue htransfer h

theorem store_keeps {k : Intake} {e : QueueEntry} (he : B → e.body.length ≤ 40) (h : P k) : P (k.store e) := by
  unfold Intake.store
  split
  · rename_i hfits
    exact (hP.store k e he h).resolve_right fun hnot => hnot (decide_eq_true hfits)
  · exact hP.keep h rfl rfl

theorem storeArrival_keeps {m : Arrival} (hm : B → m.body.length ≤ 40) (h : P s.intake) :
    P (storeArrival m s).intake :=
  store_keeps hP (e := arrivalEntry m) hm h

theorem routeMessage_keepsIntake {m : Arrival} (hm : B → m.body.length ≤ 40) (h : P s.intake) :
    P (routeMessage m s).intake := by
  have htaken : P (s.updIntake fun k => { k with taken := bump k.taken }).intake := hP.keep h rfl rfl
  unfold routeMessage deliverTo
  dsimp only
  split
  · exact storeArrival_keeps hP hm htaken
  · rw [(by simp : ∀ u s, (handTo u m s).intake = s.intake)]
    exact htaken
  · exact hP.keep htaken rfl rfl
  · rw [(by simp : ∀ u s, (handTo u m s).intake = s.intake)]
    exact storeArrival_keeps hP hm htaken
  · exact storeArrival_keeps hP hm htaken
  · exact hP.keep htaken rfl rfl

theorem messageTaken_keepsIntake {m : Received} (hm : B → m.body.length ≤ 40) (h : P s.intake) :
    P (messageTaken m s).intake := by
  unfold messageTaken
  dsimp only
  split
  · simpa using h
  · exact routeMessage_keepsIntake hP (m := takenArrival m _) hm (by simpa using h)

theorem sendEnd_keepsIntake {x : Transmission} (hx : B → x.body.length ≤ 40) (h : P s.intake) :
    P (sendEnd x s).intake := by
  unfold sendEnd
  dsimp only
  split
  · exact routeMessage_keepsIntake hP (m := loopArrival x) hx (by simpa using h)
  · simpa using h

/-- R39: a local reply is stored; a spine reply leaves the intake. -/
theorem deliver_keepsIntake {c : Command} {a : Answer} (ha : B → a.data.length ≤ 37) (h : P a.state.intake) :
    P (deliver c a).intake := by
  unfold deliver
  dsimp only
  split
  · have hstored : P (a.state.intake.store (localEntry a.state c (replyBody c a.result a.data))) :=
      store_keeps hP (e := localEntry a.state c (replyBody c a.result a.data))
        (fun hB => by
          change (replyBody c a.result a.data).length ≤ 40
          rw [replyBody_length]
          have := ha hB
          omega) h
    unfold localReply
    dsimp only
    split
    · exact hstored
    · simpa using hstored
  · simpa using h

theorem freeHead_keeps {e : QueueEntry} {rest : List QueueEntry} (hqueue : s.intake.queue = e :: rest)
    (h : P s.intake) : P (freeHead e rest s).intake := by
  have hnext : P { s.intake with queue := rest, split := false } :=
    hP.keep (hP.next s.intake e rest hqueue h) rfl rfl
  simpa [freeHead] using hnext

theorem answerReadQueue_keeps (c : Command) (h : P s.intake) : P (answerReadQueue c s).state.intake := by
  have hpart (part : Bool) : P (readPart part s).state.intake := by
    unfold readPart
    split
    · exact h
    · rename_i e rest hqueue
      split
      · unfold readSecond
        split
        · exact freeHead_keeps hP hqueue h
        · exact h
      · unfold readFirst
        dsimp only
        split
        · exact hP.keep h rfl rfl
        · exact freeHead_keeps hP hqueue h
  unfold answerReadQueue
  dsimp only
  split
  · exact hpart _
  · exact hP.keep (hpart _) rfl rfl

theorem startOutgoing_keeps (h : P s.intake) : P (startOutgoing s).intake := by
  unfold startOutgoing
  split
  · exact h
  · exact h
  · unfold startOutMessage
    split
    · exact h
    · rename_i e rest hqueue
      exact hP.keep (hP.transfer s.intake e rest hqueue h) rfl rfl

theorem endOutgoing_keeps (r : OutRecord) (h : P s.intake) : P (endOutgoing r s).intake := by
  unfold endOutgoing
  dsimp only
  split
  · unfold freeTransfer
    split
    · exact h
    · simpa using hP.free _ h
  · exact h
  · exact h

theorem carried_keepsIntake {c : Command} {a : Answer} (ha : Carried c s a) (h : P s.intake) : P a.state.intake := by
  cases ha with
  | status => unfold answerStatus; dsimp only; split <;> exact h
  | clearMapFault => unfold answerClearMapFault; split <;> exact h
  | capture => simpa [answerCapture] using h
  | readQueue => exact answerReadQueue_keeps hP c h
  | _ => exact h

theorem effect_keepsIntake {i : Instr} {t : State} (hstart : ∀ st, P (intakeAtPowerOn st)) (h : Effect i s t)
    (hB : B → bodiesOk s) (hs : P s.intake) : P t.intake := by
  cases h with
  | powerOn straps => exact hstart _
  | restart straps => exact hstart _
  | install straps image =>
    have hkept : P { s.intake with table := (loadProfile straps image).settings.table } := hP.keep hs rfl rfl
    simpa [install, installSettings] using hkept
  | messageTaken m _ hlength => exact messageTaken_keepsIntake hP (fun _ => hlength) hs
  | sendEnd x htx => exact sendEnd_keepsIntake hP (fun hb => (hB hb).2.1 x htx) hs
  | answer c rest a _ _ ha =>
    exact deliver_keepsIntake hP (fun hb => carried_data_length ha (by simpa using (hB hb).2.2.1))
      (carried_keepsIntake hP ha (by simpa using hs))
  | ack => exact hP.keep hs rfl rfl
  | startOutgoing => exact startOutgoing_keeps hP hs
  | endOutgoing r => exact endOutgoing_keeps hP r hs
  | _ => simpa using hs

end

/-! ### Room and bodies -/

theorem used_eq (k : Intake) :
    k.used = queueBytes k.queue + (k.inTransfer.map QueueEntry.size).getD 0 := by
  unfold Intake.used
  split <;> simp_all

theorem queueBytes_cons (e : QueueEntry) (rest : List QueueEntry) :
    queueBytes (e :: rest) = e.size + queueBytes rest := by
  simp [queueBytes]

theorem queueBytes_append (q : List QueueEntry) (e : QueueEntry) : queueBytes (q ++ [e]) = queueBytes q + e.size := by
  simp [queueBytes]

/-- R32: the intake queue and the entry in transfer stay within 1,024 bytes. -/
theorem intakeRoom_invariant : IntakeInvariant False fun k => k.used ≤ 1024 where
  kept := fun k k' hqueue htransfer h => by
    rw [used_eq, hqueue, htransfer, ← used_eq]
    exact h
  store := fun k e _ _ => by
    by_cases hfits : k.used + e.size ≤ 1024
    · refine .inl ?_
      rw [used_eq] at hfits ⊢
      rw [queueBytes_append]
      dsimp only
      omega
    · exact .inr (by simpa [Intake.fits] using hfits)
  next := fun k e rest hqueue h => by
    rw [used_eq, hqueue, queueBytes_cons] at h
    rw [used_eq]
    dsimp only
    omega
  transfer := fun k e rest hqueue h => by
    rw [used_eq, hqueue, queueBytes_cons] at h
    rw [used_eq]
    simp only [Option.map_some, Option.getD_some]
    omega
  free := fun k h => by
    rw [used_eq] at h ⊢
    simp only [Option.map_none, Option.getD_none]
    omega

/-- The bodies of the queue and of the entry in transfer have at most 40 bytes. -/
def intakeShort (k : Intake) : Prop :=
  (∀ e ∈ k.queue, e.body.length ≤ 40) ∧ ∀ e, k.inTransfer = some e → e.body.length ≤ 40

theorem intakeBodies_invariant : IntakeInvariant True intakeShort where
  kept := fun k k' hqueue htransfer h => by
    unfold intakeShort
    rw [hqueue, htransfer]
    exact h
  store := fun k e he h => by
    refine .inl ⟨fun x hx => ?_, h.2⟩
    obtain hx | hx := List.mem_append.mp hx
    · exact h.1 x hx
    · rw [List.mem_singleton.mp hx]
      exact he trivial
  next := fun k e rest hqueue h => by
    refine ⟨fun x hx => h.1 x ?_, h.2⟩
    rw [hqueue]
    exact List.mem_cons_of_mem e hx
  transfer := fun k e rest hqueue h => by
    refine ⟨fun x hx => h.1 x ?_, fun x hx => h.1 x ?_⟩
    · rw [hqueue]
      exact List.mem_cons_of_mem e hx
    · rw [hqueue, ← Option.some.inj hx]
      exact List.mem_cons_self ..
  free := fun _ h => ⟨h.1, nofun⟩

end Sys2Proof.Machine
end

