-- ==== Sys2Proof/Proofs/StoresKept.lean ====
section
/-! PROOF. Every queue, ring and list of the station stays within its room (R36, R81, R84, R97, R99, R182). -/

namespace Sys2Proof.Machine

/-! ### The command queue -/

@[simp] theorem replyDone_queue (s : State) : (replyDone s).cmd.queue = s.cmd.queue := by
  unfold replyDone
  split
  · rfl
  · dsimp only
    split <;> rfl

@[simp] theorem clearSlots_queue (s : State) : (clearSlots s).cmd.queue = s.cmd.queue := by
  unfold clearSlots
  dsimp only
  split <;> split <;> simp

@[simp] theorem entryFreed_queue (e : QueueEntry) (s : State) : (entryFreed e s).cmd.queue = s.cmd.queue := by
  unfold entryFreed
  split <;> rfl

@[simp] theorem deliver_queue (c : Command) (a : Answer) : (deliver c a).cmd.queue = a.state.cmd.queue := by
  unfold deliver localReply spineReply
  dsimp only
  split
  · split <;> simp
  · split <;> simp

@[simp] theorem slotSent_queue (x : Transmission) (attempts : BitVec 8) (s : State) :
    (slotSent x attempts s).cmd.queue = s.cmd.queue := by
  unfold slotSent
  split <;> simp [alarmSent, beaconSent]

@[simp] theorem sendError_queue (k : SendErrorKind) (x : Transmission) (s : State) :
    (sendError k x s).cmd.queue = s.cmd.queue := by
  unfold sendError enterCut
  dsimp only
  split <;> simp

@[simp] theorem duplicateNode_queue (s : State) : (duplicateNode s).cmd.queue = s.cmd.queue := by
  unfold duplicateNode withdraw
  dsimp only
  split <;> simp

@[simp] theorem endOutgoing_queue (r : OutRecord) (s : State) : (endOutgoing r s).cmd.queue = s.cmd.queue := by
  unfold endOutgoing freeTransfer
  dsimp only
  split
  · split <;> simp
  · rfl
  · rfl

@[simp] theorem answerReadQueue_queue (c : Command) (s : State) :
    (answerReadQueue c s).state.cmd.queue = s.cmd.queue := by
  unfold answerReadQueue readPart readSecond readFirst readNothing freeHead
  dsimp only
  (repeat' split) <;> simp

/-- R36: the queue takes a ninth command by dropping it. -/
theorem takeCommand_short (rank : Rank) (body : List Byte) (isLocal : Bool) {s : State} (h : s.cmd.queue.length ≤ 8) :
    (takeCommand rank body isLocal s).cmd.queue.length ≤ 8 := by
  unfold takeCommand
  split
  · exact h
  · split
    · dsimp only
      split
      · simp only [enqueueCommand, updCmd_cmd]
        split
        · simp only [List.length_append, List.length_singleton]
          omega
        · exact h
      · exact h
    · exact h

theorem handTo_short (u : TakingUnit) (m : Arrival) {s : State} (h : s.cmd.queue.length ≤ 8) :
    (handTo u m s).cmd.queue.length ≤ 8 := by
  cases u with
  | command => exact takeCommand_short _ _ _ h
  | _ => simpa [handTo] using h

theorem routeMessage_short (m : Arrival) {s : State} (h : s.cmd.queue.length ≤ 8) :
    (routeMessage m s).cmd.queue.length ≤ 8 := by
  unfold routeMessage deliverTo
  dsimp only
  split
  · exact h
  · exact handTo_short _ m (s := s.updIntake _) h
  · exact h
  · exact handTo_short _ m (s := storeArrival m (s.updIntake _)) h
  · exact h
  · exact h

theorem effect_keeps_queue {i : Instr} {s t : State} (h : Effect i s t) (hs : s.cmd.queue.length ≤ 8) :
    t.cmd.queue.length ≤ 8 := by
  cases h with
  | powerOn straps => exact Nat.zero_le _
  | restart straps => exact Nat.zero_le _
  | messageTaken m =>
    unfold messageTaken
    dsimp only
    split
    · simpa using hs
    · exact routeMessage_short _ (by simpa using hs)
  | sendEnd x =>
    unfold sendEnd
    dsimp only
    split
    · exact routeMessage_short _ (by simpa using hs)
    · simpa using hs
  | sendRecord r =>
    have hrank : (if r.rank.toNat < 4096 then s else s.useFree).cmd.queue.length ≤ 8 := by
      split <;> exact hs
    unfold sendRecord
    dsimp only
    generalize (if r.rank.toNat < 4096 then s else s.useFree) = u at hrank
    split
    · unfold deliverDirect
      split
      · simpa [answerBusy] using hrank
      · simpa using takeCommand_short _ _ _ hrank
    · unfold sendThroughPort
      dsimp only
      split
      · simpa [answerBusy] using hrank
      · split
        · simpa [answerBusy] using hrank
        · simpa using hrank
  | answer c rest a _ hqueue ha =>
    have hrest : rest.length ≤ 8 := by
      rw [hqueue] at hs
      exact (Nat.le_succ _).trans hs
    rw [deliver_queue]
    cases ha with
    | status => unfold answerStatus; dsimp only; split <;> exact hrest
    | clearMapFault => unfold answerClearMapFault; split <;> exact hrest
    | capture => simpa [answerCapture, beginAnswer] using hrest
    | readQueue => simpa [beginAnswer] using hrest
    | _ => exact hrest
  | _ => simpa using hs

/-! ### The outcome queue -/

/-- R182: an outcome that finds six waiting is not queued. -/
theorem pushOutcome_short (o : SendOutcome) (a : BitVec 8) {s : State} (h : s.port.outcomes.length ≤ 6) :
    (pushOutcome o a s).port.outcomes.length ≤ 6 := by
  simp only [pushOutcome, updPort_port]
  split
  · simp only [List.length_append, List.length_singleton]
    omega
  · exact h

theorem answerBusy_short (c : BusyCause) {s : State} (h : s.port.outcomes.length ≤ 6) :
    (answerBusy c s).port.outcomes.length ≤ 6 :=
  pushOutcome_short _ _ (s := s.updPort _) h

theorem clearSlots_short {s : State} (h : s.port.outcomes.length ≤ 6) : (clearSlots s).port.outcomes.length ≤ 6 := by
  unfold clearSlots
  dsimp only
  split
  · split <;> simpa using h
  · refine pushOutcome_short _ _ ?_
    split <;> simpa using h

theorem endUnsent_short (n : SlotName) (o : SendOutcome) {s : State} (h : s.port.outcomes.length ≤ 6) :
    (endUnsent n o s).port.outcomes.length ≤ 6 := by
  unfold endUnsent handOutcome
  dsimp only
  split
  · exact pushOutcome_short _ _ (by simpa using h)
  · simpa using h

theorem slotSent_short (x : Transmission) (attempts : BitVec 8) {s : State} (h : s.port.outcomes.length ≤ 6) :
    (slotSent x attempts s).port.outcomes.length ≤ 6 := by
  unfold slotSent
  split
  case h_8 => exact pushOutcome_short _ _ h
  all_goals simpa [alarmSent, beaconSent] using h

theorem effect_keeps_outcomes {i : Instr} {s t : State} (h : Effect i s t) (hs : s.port.outcomes.length ≤ 6) :
    t.port.outcomes.length ≤ 6 := by
  cases h with
  | powerOn straps => exact Nat.zero_le _
  | restart straps => exact Nat.zero_le _
  | install straps image =>
    unfold install enterListening
    dsimp only
    split <;> simpa [formPortStatus, installSettings] using hs
  | loseArbitration x => exact endUnsent_short _ _ (s := s.updSpine _) hs
  | sendError k x =>
    unfold sendError
    dsimp only
    split
    · have hcleared := clearSlots_short (s := (s.updSpine (·.countSendError k)).updSpine fun p =>
        { p.ended true with standing := .cut, tfc := 0, sfc := 64 }) hs
      simpa [enterCut] using hcleared
    · exact endUnsent_short _ _ (by simpa using hs)
  | messageTaken m =>
    unfold messageTaken
    dsimp only
    split
    · unfold duplicateNode
      dsimp only
      split
      · have hcleared := clearSlots_short (s := (arise .dupnode ((settleStanding (s.updSpine fun p =>
          { p.ended false with tfc := goodReceipt p.tfc, drive := .echo })).updSpine fun p =>
          { p with duplicates := bump p.duplicates })).updLoader fun l => { l with life := .listening })
          (by simpa using hs)
        simpa [withdraw] using hcleared
      · simpa using hs
    · simpa using hs
  | sendEnd x =>
    have hsent := slotSent_short x (s.slot x.slot).attempts (s := (s.updSlot x.slot (·.finish)).updSpine (·.ended true))
      (by simpa using hs)
    unfold sendEnd
    dsimp only
    split <;> simpa using hsent
  | sendRecord r =>
    have hrank : (if r.rank.toNat < 4096 then s else s.useFree).port.outcomes.length ≤ 6 := by
      split <;> exact hs
    unfold sendRecord
    dsimp only
    generalize (if r.rank.toNat < 4096 then s else s.useFree) = u at hrank
    split
    · unfold deliverDirect
      split
      · exact answerBusy_short _ hrank
      · exact pushOutcome_short _ _ (by simpa using hrank)
    · unfold sendThroughPort
      dsimp only
      split
      · exact answerBusy_short _ (by simpa using hrank)
      · split
        · exact answerBusy_short _ hrank
        · simpa using hrank
  | abortPort =>
    unfold abortPort
    dsimp only
    split
    · exact hs
    · exact pushOutcome_short _ _ (by simpa using hs)
    · simpa using hs
  | placeTag t =>
    unfold placeTag
    split
    · exact hs
    · exact answerBusy_short _ (s := s.updLaneTx _) hs
  | startOutgoing =>
    unfold startOutgoing
    split
    · rename_i o rest hout
      rw [hout] at hs
      exact (Nat.le_succ _).trans hs
    · exact hs
    · unfold startOutMessage
      split <;> exact hs
  | endOutgoing r =>
    unfold endOutgoing freeTransfer
    dsimp only
    split
    · split <;> simpa using hs
    · exact hs
    · exact hs
  | answer c rest a _ _ ha =>
    have ha' : a.state.port = s.port := by
      cases ha with
      | status => unfold answerStatus; dsimp only; split <;> rfl
      | clearMapFault => unfold answerClearMapFault; split <;> rfl
      | capture => simp [answerCapture]
      | readQueue => simp
      | _ => rfl
    rw [(by simp : (deliver c a).port = a.state.port), ha']
    exact hs
  | fire a =>
    refine fire_keeps (P := fun t => t.port.outcomes.length ≤ 6) (fun _ a j t _ h => ?_) (fun _ _ h => h) hs
    cases a with
    | portStatus => exact h
    | _ => simpa [act] using h
  | countPortError => exact hs
  | _ => simpa using hs

/-! ### Motion -/

/-- The sample ring and the pose history are within their room (R81, R84). -/
def motionRoom (m : Motion) : Prop := m.ring.length ≤ 32 ∧ m.history.length ≤ 64

theorem complete_room (m : Motion) (r : SampleRecord) (inc : Axes Int) : motionRoom (m.complete r inc) :=
  ⟨pushNewest_length_le .., pushNewest_length_le ..⟩

theorem completeRead_room (ready : Bool) (rates accels : Triple (BitVec 16)) (r : SensorRead) (s : State) :
    motionRoom (completeRead ready rates accels r s).motion := by
  have hfailed (stamp : Nat) (s : State) : motionRoom (completeFailed stamp s).motion := by
    unfold completeFailed
    dsimp only
    split
    · rw [(by simp : ∀ f s, (arise f s).motion = s.motion)]
      exact complete_room ..
    · exact complete_room ..
  unfold completeRead
  split
  · exact hfailed ..
  · split
    · exact complete_room ..
    · exact hfailed ..

theorem act_keeps_motionRoom (a : Action) (j : Nat) {s : State} (h : motionRoom s.motion) :
    motionRoom (act a j s).motion := by
  cases a with
  | sample =>
    simp only [act, fireSample, updMotion_motion]
    split <;> exact h
  | poseReport =>
    simp only [act, firePoseReport]
    split
    · exact h
    · split
      · simpa using h
      · exact h
  | frame => simpa [act] using h
  | _ => simpa [act] using h

theorem effect_keeps_motionRoom {i : Instr} {s t : State} (h : Effect i s t) (hs : motionRoom s.motion) :
    motionRoom t.motion := by
  cases h with
  | powerOn straps => exact ⟨Nat.zero_le _, Nat.zero_le _⟩
  | restart straps => exact ⟨Nat.zero_le _, Nat.zero_le _⟩
  | install straps image =>
    rw [install_motion]
    exact hs
  | completeRead ready rates accels r => exact completeRead_room ..
  | fire a =>
    exact fire_keeps (P := fun t => motionRoom t.motion) (fun _ a j _ _ h => act_keeps_motionRoom a j h)
      (fun _ _ h => h) hs
  | answer c rest a _ _ ha =>
    rw [(by simp : (deliver c a).motion = a.state.motion)]
    cases ha with
    | alignPose => exact ⟨hs.1, by simpa [answerAlignPose, Motion.align, beginAnswer] using hs.2⟩
    | status => unfold answerStatus; dsimp only; split <;> exact hs
    | clearMapFault => unfold answerClearMapFault; split <;> exact hs
    | capture => simpa [answerCapture] using hs
    | readQueue => simpa using hs
    | _ => exact hs
  | _ => simpa using hs

end Sys2Proof.Machine
end

