-- ==== Sys2Proof/Proofs/SenderRoom.lean ====
section
/-! PROOF. The lane sender's tag queue and its two lane queues stay within their room (R97, R99). -/

namespace Sys2Proof.Machine

/-- The tag queue holds at most four tags, and each lane queue at most eight slices. -/
def senderRoom (s : State) : Prop := s.laneTx.tags.length ≤ 4 ∧ ∀ e, (s.sender e).queue.length ≤ 8

theorem senderRoom_of_eq {s t : State} (h : senderRoom s) (htags : t.laneTx.tags = s.laneTx.tags)
    (heyes : t.laneTx.eyes = s.laneTx.eyes) : senderRoom t := by
  unfold senderRoom State.sender
  rw [htags, heyes]
  exact h

theorem senderRoom_ite {s t : State} {b : Prop} [Decidable b] (hs : senderRoom s) (ht : senderRoom t) :
    senderRoom (if b then s else t) := by
  split <;> assumption

/-! ### The eyes -/

theorem updSender_room {s : State} (e : Eye) {f : SenderEye → SenderEye} (hf : ∀ v, (f v).queue.length ≤ v.queue.length)
    (h : senderRoom s) : senderRoom (s.updSender e f) := by
  refine ⟨h.1, fun e' => ?_⟩
  simp only [State.sender, State.updSender, updLaneTx_laneTx, both_get_put]
  split
  · exact (hf _).trans (h.2 e)
  · exact h.2 e'

/-- R99: a full lane queue takes no slice. -/
theorem handSlice_room {s : State} (e : Eye) (sl : Slice) (h : senderRoom s) : senderRoom (handSlice e sl s) := by
  unfold handSlice
  dsimp only
  split
  · split
    · rename_i hroom
      refine senderRoom_of_eq (s := s.updSender e fun v => { v with queue := v.queue ++ [sl] }) ⟨h.1, fun e' => ?_⟩
        rfl rfl
      simp only [State.sender, State.updSender, updLaneTx_laneTx, both_get_put]
      split
      · simp only [List.length_append, List.length_singleton]
        exact hroom
      · exact h.2 e'
    · exact senderRoom_of_eq (updSender_room e (f := (·.startVoiding s.store.geometry.slices sl))
        (fun _ => Nat.le_refl _) h) rfl rfl
  · exact senderRoom_of_eq h rfl rfl
  · exact h

theorem formSlices_room {s : State} (k : Nat) (tag : Option FrameTag) (lines : List (List Pixel)) (h : senderRoom s) :
    senderRoom (formSlices k tag lines s) :=
  handSlice_room .right _ (handSlice_room .left _ (senderRoom_of_eq h rfl rfl))

/-! ### The picture input -/

theorem completeLine_room {s : State} (f : InputFrame) (pixels : List Pixel) (h : senderRoom s) :
    senderRoom (completeLine f pixels s) := by
  unfold completeLine
  dsimp only
  split
  · exact formSlices_room _ _ _ (senderRoom_of_eq h rfl rfl)
  · exact senderRoom_of_eq h rfl rfl

theorem beginLine_room {s : State} (h : senderRoom s) : senderRoom (beginLine s) := by
  unfold beginLine
  split
  · exact h
  · exact senderRoom_ite (senderRoom_of_eq h rfl rfl)
      (senderRoom_ite (senderRoom_of_eq h rfl rfl) (senderRoom_of_eq h rfl rfl))

theorem inputLineStart_room {s : State} (h : senderRoom s) : senderRoom (inputLineStart s) := by
  unfold inputLineStart
  split
  · exact h
  · split
    · exact beginLine_room h
    · exact beginLine_room h
    · exact h
    · exact beginLine_room (completeLine_room _ _ (senderRoom_of_eq h rfl rfl))

theorem inputPixel_room {s : State} (p : Pixel) (h : senderRoom s) : senderRoom (inputPixel p s) := by
  unfold inputPixel
  split
  · exact h
  · split
    · exact h
    · exact h
    · exact h
    · exact senderRoom_of_eq h rfl rfl
    · exact senderRoom_ite (senderRoom_of_eq h rfl rfl) (completeLine_room _ _ h)

theorem endInputFrame_room {s : State} (h : senderRoom s) : senderRoom (endInputFrame s) := by
  unfold endInputFrame
  split
  · exact h
  · rename_i f _
    have hcounted (b : Bool) : senderRoom (if b then countShape s else s) :=
      senderRoom_ite (senderRoom_of_eq h rfl rfl) h
    have howe (v : SenderEye) :
        (v.oweMissing s.store.geometry.slices (f.linesDone / s.store.geometry.S) f.tag).queue.length ≤
          v.queue.length := by
      unfold SenderEye.oweMissing
      split <;> exact Nat.le_refl _
    exact senderRoom_ite
      (updSender_room .right howe (updSender_room .left howe (senderRoom_of_eq (hcounted _) rfl rfl))) (hcounted _)

theorem takeTag_room {s : State} (h : senderRoom s) : senderRoom (takeTag s) := by
  unfold takeTag
  dsimp only
  split
  · rename_i t rest htags
    refine ⟨?_, h.2⟩
    have hlength := h.1
    rw [htags] at hlength
    exact (Nat.le_succ _).trans hlength
  · exact senderRoom_of_eq h rfl rfl

theorem takeUpFrame_room {s : State} (e : Eye) (h : senderRoom s) : senderRoom (takeUpFrame e s) :=
  senderRoom_ite (senderRoom_of_eq (updSender_room e (f := fun v => { v with input := .dropping })
    (fun _ => Nat.le_refl _) h) rfl rfl) (updSender_room e (fun _ => Nat.le_refl _) h)

theorem inputFrameStart_room {s : State} (h : senderRoom s) : senderRoom (inputFrameStart s) :=
  takeUpFrame_room .right (takeUpFrame_room .left (takeTag_room (endInputFrame_room (senderRoom_of_eq h rfl rfl))))

/-! ### Packets, credit and tags -/

theorem startPacket_room {s : State} (e : Eye) (p : NextPacket) (both : Bool) (h : senderRoom s) :
    senderRoom (startPacket e p both s) := by
  have hfree : senderRoom (if p.tag.isNone then s.useFree else s) := senderRoom_ite (senderRoom_of_eq h rfl rfl) h
  have hstarted (n : Nat) (v : SenderEye) : (v.started n p).queue.length ≤ v.queue.length := by
    unfold SenderEye.started
    dsimp only
    split
    · simp
    · exact Nat.le_refl _
  have hsent := updSender_room e (hstarted s.store.geometry.slices) hfree
  unfold startPacket
  dsimp only
  generalize (if p.tag.isNone then s.useFree else s) = u at hsent
  exact senderRoom_of_eq hsent rfl rfl

theorem creditEye_room {s : State} (e : Eye) (newEpoch : Bool) (horizon accepted : BitVec 16) (h : senderRoom s) :
    senderRoom (creditEye e newEpoch horizon accepted s) := by
  have hempty (v : SenderEye) : (v.resync horizon accepted).queue.length ≤ v.queue.length := by simp [SenderEye.resync]
  have hflushed : senderRoom (s.updSender e (·.resync horizon accepted)) := updSender_room e hempty h
  have hresync : senderRoom (resyncEye e horizon accepted s) :=
    senderRoom_of_eq hflushed (by simp only [resyncEye, updLaneTx_laneTx]) (by simp only [resyncEye, updLaneTx_laneTx])
  exact senderRoom_ite hresync (updSender_room e (fun _ => Nat.le_refl _) h)

theorem takeCredit_room {s : State} (rank : Rank) (body : List Byte) (h : senderRoom s) :
    senderRoom (takeCredit rank body s) := by
  unfold takeCredit
  dsimp only
  split
  · exact senderRoom_of_eq h rfl rfl
  · have hcounted : senderRoom (s.updLaneTx fun t => { t with creditsTaken := bump t.creditsTaken }) :=
      senderRoom_of_eq h rfl rfl
    have hboth (newEpoch : Bool) (lh la rh ra : BitVec 16) :
        senderRoom (creditEye .right newEpoch rh ra (creditEye .left newEpoch lh la
          (s.updLaneTx fun t => { t with creditsTaken := bump t.creditsTaken }))) :=
      creditEye_room .right _ _ _ (creditEye_room .left _ _ _ hcounted)
    exact hboth ..

/-- R97: a full tag queue takes no tag. -/
theorem placeTag_room {s : State} (t : FrameTag) (h : senderRoom s) : senderRoom (placeTag t s) := by
  unfold placeTag
  split
  · rename_i hroom
    refine ⟨?_, h.2⟩
    simp only [updLaneTx_laneTx, List.length_append, List.length_singleton]
    exact hroom
  · exact senderRoom_of_eq h (by simp [answerBusy]) (by simp [answerBusy])

/-! ### The lane's level and the power step -/

theorem settleLane_room {s : State} (wasUp : Bool) (run : PixelRun) (h : senderRoom s) :
    senderRoom (settleLane wasUp run s) := by
  have hdown : senderRoom (laneGoesDown run s) := by
    unfold laneGoesDown
    split
    · exact senderRoom_of_eq h rfl rfl
    · exact senderRoom_of_eq h (by simp) (by simp)
    · exact h
  have hlevel : senderRoom (if wasUp && !s.laneUp then laneGoesDown run s else s) := senderRoom_ite hdown h
  exact senderRoom_of_eq hlevel (by simp [settleLane]) (by simp [settleLane])

theorem setStep_room {s : State} (v : Fin 4) (h : senderRoom s) : senderRoom (setStep v s) :=
  senderRoom_ite h (settleLane_room _ _ (senderRoom_of_eq h rfl rfl))

theorem fallToTarget_room {s : State} (h : senderRoom s) : senderRoom (fallToTarget s) :=
  senderRoom_ite (setStep_room _ (senderRoom_of_eq h rfl rfl)) h

theorem recompute_room {s : State} (h : senderRoom s) : senderRoom (recompute s) :=
  fallToTarget_room (senderRoom_of_eq h (by simp) (by simp))

theorem recomputeAndAnnounce_room {s : State} (h : senderRoom s) : senderRoom (recomputeAndAnnounce s) :=
  senderRoom_ite (recompute_room h) (senderRoom_of_eq (recompute_room h) (by simp) (by simp))

theorem overdrawTests_room {s : State} (h : senderRoom s) : senderRoom (overdrawTests s) := by
  unfold overdrawTests
  dsimp only
  split
  · exact senderRoom_of_eq (setStep_room 0 h) (by simp [redActs]) (by simp [redActs])
  · exact senderRoom_ite (senderRoom_ite (senderRoom_of_eq h rfl rfl)
      (senderRoom_ite (senderRoom_of_eq h rfl rfl) (setStep_room _ (senderRoom_of_eq h rfl rfl))))
      (senderRoom_of_eq h rfl rfl)

theorem settleStep_room {s : State} (fell : Bool) (h : senderRoom s) : senderRoom (settleStep fell s) := by
  have hfall := fallToTarget_room h
  exact senderRoom_ite (setStep_room 0 (senderRoom_of_eq hfall rfl rfl)) (senderRoom_ite
    (senderRoom_of_eq hfall rfl rfl) (senderRoom_ite
      (senderRoom_ite (senderRoom_of_eq hfall rfl rfl) (setStep_room _ (senderRoom_of_eq hfall rfl rfl)))
      (senderRoom_of_eq hfall rfl rfl)))

theorem completeReading_room {s : State} (r : MeterReading) (h : senderRoom s) : senderRoom (completeReading r s) := by
  have htaken : senderRoom (takeReading (meterValue r.load) (meterValue r.battery) s) := senderRoom_of_eq h rfl rfl
  unfold completeReading
  rw [readingWork_eq]
  generalize takeReading (meterValue r.load) (meterValue r.battery) s = u at htaken
  have hbefore : senderRoom (beforeTests u) :=
    recompute_room (s := (setOwnEntry (batteryMarks u)).updPower _)
      (senderRoom_of_eq (s := setOwnEntry (batteryMarks u)) (senderRoom_of_eq htaken (by simp) (by simp)) rfl rfl)
  have htests : senderRoom (if (meterValue r.load).isSome then overdrawTests (beforeTests u) else beforeTests u) :=
    senderRoom_ite (overdrawTests_room hbefore) hbefore
  exact senderRoom_of_eq (settleStep_room ((meterValue r.load).isSome && yellowLowers (beforeTests u)) htests)
    (by simp) (by simp)

/-! ### Every effect -/

theorem routeMessage_room (m : Arrival) {s : State} (h : senderRoom s) : senderRoom (routeMessage m s) := by
  have hunit {s : State} (u : TakingUnit) (h : senderRoom s) : senderRoom (handTo u m s) := by
    cases u with
    | lane => exact takeCredit_room _ _ h
    | power => exact senderRoom_ite h (recomputeAndAnnounce_room (senderRoom_of_eq h rfl rfl))
    | _ => exact senderRoom_of_eq h (by simp [handTo]) (by simp [handTo])
  unfold routeMessage deliverTo
  dsimp only
  split
  · exact h
  · exact hunit _ (s := s.updIntake _) h
  · exact h
  · exact hunit _ (s := storeArrival m (s.updIntake _)) h
  · exact h
  · exact h

theorem act_keeps_senderRoom (a : Action) (j : Nat) {s : State} (h : senderRoom s) : senderRoom (act a j s) := by
  cases a with
  | frame =>
    unfold act fireFrame
    dsimp only
    split
    · exact senderRoom_of_eq h (by simp) (by simp)
    · exact senderRoom_of_eq h rfl rfl
    · exact h
  | _ => exact senderRoom_of_eq h (by simp [act]) (by simp [act])

theorem carried_laneTx {c : Command} {s : State} {a : Answer} (ha : Carried c s a) : a.state.laneTx = s.laneTx := by
  cases ha with
  | status => unfold answerStatus; dsimp only; split <;> rfl
  | clearMapFault => unfold answerClearMapFault; split <;> rfl
  | capture => simp [answerCapture]
  | readQueue => simp
  | _ => rfl

theorem effect_keeps_senderRoom {i : Instr} {s t : State} (h : Effect i s t) (hs : senderRoom s) : senderRoom t := by
  cases h with
  | powerOn straps => exact ⟨Nat.zero_le _, fun e => by cases e <;> exact Nat.zero_le _⟩
  | restart straps => exact ⟨Nat.zero_le _, fun e => by cases e <;> exact Nat.zero_le _⟩
  | inputFrameStart => exact inputFrameStart_room hs
  | inputLineStart => exact inputLineStart_room hs
  | inputPixel p => exact inputPixel_room p hs
  | placeTag t => exact placeTag_room t hs
  | startPacket e p both => exact startPacket_room e p both hs
  | setLaneSignal v run => exact senderRoom_ite hs (settleLane_room _ _ (senderRoom_of_eq hs rfl rfl))
  | endLanePacket => exact senderRoom_of_eq hs rfl rfl
  | messageTaken m =>
    unfold messageTaken
    dsimp only
    split
    · exact senderRoom_of_eq hs (by simp) (by simp)
    · exact routeMessage_room _ (senderRoom_of_eq hs (by simp) (by simp))
  | sendEnd x =>
    unfold sendEnd
    dsimp only
    split
    · exact routeMessage_room _ (senderRoom_of_eq hs (by simp) (by simp))
    · exact senderRoom_of_eq hs (by simp) (by simp)
  | expireEntry n => exact recomputeAndAnnounce_room (senderRoom_of_eq hs rfl rfl)
  | completeReading r => exact completeReading_room r hs
  | fire a =>
    exact fire_keeps (P := senderRoom) (fun _ a j _ _ h => act_keeps_senderRoom a j h) (fun _ _ h => h) hs
  | answer c rest a _ _ ha =>
    have hlane : (deliver c a).laneTx = s.laneTx := by
      rw [(by simp : (deliver c a).laneTx = a.state.laneTx), carried_laneTx ha]
      simp
    exact senderRoom_of_eq hs (by rw [hlane]) (by rw [hlane])
  | _ => exact senderRoom_of_eq hs (by simp) (by simp)

end Sys2Proof.Machine
end

