-- ==== Sys2Proof/Proofs/BodiesShort.lean ====
section
/-! PROOF. Every body that the station holds, sends or has stored has at most 40 bytes (R5, R20, R40), and with the
stores of the files before, every store is within its room (R32, R36, R81, R84, R97, R99, R146, R182). -/

namespace Sys2Proof.Machine

/-! ### The slots -/

/-- The contents and held records of all slots are short. -/
def slotsShort (s : State) : Prop := ∀ n, slotBodiesOk (s.slot n)

theorem slotsShort_of_eq {s t : State} (h : slotsShort s) (hslots : t.slots = s.slots) : slotsShort t := by
  unfold slotsShort State.slot
  rw [hslots]
  exact h

theorem HandsCalm.slotsShort {s t : State} (h : HandsCalm s t) (hs : slotsShort s) : slotsShort t := h.bodies hs

theorem finish_short {sl : Slot} (h : slotBodiesOk sl) : slotBodiesOk sl.finish := by
  unfold Slot.finish
  split
  · rename_i c hheld
    exact ⟨h.2 c hheld, nofun⟩
  · exact ⟨Nat.zero_le _, nofun⟩

theorem again_short {sl : Slot} (h : slotBodiesOk sl) : slotBodiesOk sl.again := by
  refine ⟨?_, nofun⟩
  simp only [Slot.again]
  cases hheld : sl.held with
  | none => exact h.1
  | some c => exact h.2 c hheld

theorem endUnsent_short_body {sl : Slot} (o : SendOutcome) (h : slotBodiesOk sl) : slotBodiesOk (sl.endUnsent o).1 := by
  unfold Slot.endUnsent
  split
  · exact finish_short h
  · split
    · exact finish_short h
    · exact again_short h

theorem endUnsent_slotsShort (n : SlotName) (o : SendOutcome) {s : State} (h : slotsShort s) :
    slotsShort (endUnsent n o s) := by
  have hslot : slotsShort (s.updSlot n fun sl => (sl.endUnsent o).1) := slotBodiesOk_updSlot (endUnsent_short_body o) h
  exact slotsShort_of_eq hslot (by simp [endUnsent])

theorem clearSlots_slotsShort (s : State) : slotsShort (clearSlots s) := by
  have hslots : (clearSlots s).slots = s.slots.clear := by
    unfold clearSlots
    dsimp only
    split <;> split <;> simp
  intro n
  unfold State.slot
  rw [hslots]
  cases n <;> exact ⟨Nat.zero_le _, nofun⟩

theorem sendError_slotsShort (k : SendErrorKind) (x : Transmission) {s : State} (h : slotsShort s) :
    slotsShort (sendError k x s) := by
  unfold sendError
  dsimp only
  split
  · have hcut := (latch_hands (f := .cut) (by decide) (.refl _)).slotsShort (clearSlots_slotsShort ((s.updSpine
      (·.countSendError k)).updSpine fun p => { p.ended true with standing := .cut, tfc := 0, sfc := 64 }))
    exact slotsShort_of_eq hcut (by simp [enterCut])
  · have hsettled := (settleStanding_hands (.refl ((s.updSpine (·.countSendError k)).updSpine fun p =>
      { p.ended true with sfc := p.sfc + errorWeight k s.spine.standing }))).slotsShort h
    exact endUnsent_slotsShort x.slot .failed (slotsShort_of_eq hsettled rfl)

theorem sendEnd_slotsShort (x : Transmission) {s : State} (h : slotsShort s) : slotsShort (sendEnd x s) := by
  have hfinished : slotsShort (s.updSlot x.slot (·.finish)) := slotBodiesOk_updSlot finish_short h
  have hsent : slotsShort ((slotSent x (s.slot x.slot).attempts ((s.updSlot x.slot (·.finish)).updSpine
      (·.ended true))).updSpine fun p => { p with sfc := p.sfc - 1 }) := slotsShort_of_eq hfinished (by simp)
  have hsettled := (settleStanding_hands (.refl _)).slotsShort hsent
  unfold sendEnd
  dsimp only
  split
  · exact (routeMessage_hands _ (.refl _)).slotsShort hsettled
  · exact hsettled

theorem withdraw_slotsShort (s : State) : slotsShort (withdraw s) := by
  have hleft : slotsShort (leaveService
      ((clearSlots (s.updLoader fun l => { l with life := .listening })).updTime fun t =>
      { t with timer := some (clearSlots (s.updLoader fun l => { l with life := .listening })).agreed })) :=
    slotsShort_of_eq (clearSlots_slotsShort (s.updLoader fun l => { l with life := .listening })) (by simp)
  exact (setCondition_hands (f := .lane) (by decide) _ (.refl _)).slotsShort hleft

theorem messageTaken_slotsShort (m : Received) {s : State} (h : slotsShort s) : slotsShort (messageTaken m s) := by
  have hsettled : slotsShort (settleStanding (s.updSpine fun p =>
      { p.ended false with tfc := goodReceipt p.tfc, drive := .echo })) :=
    (settleStanding_hands (.refl (s.updSpine _))).slotsShort h
  unfold messageTaken
  dsimp only
  split
  · unfold duplicateNode
    dsimp only
    split
    · exact withdraw_slotsShort _
    · exact (arise_hands (f := .dupnode) (by decide) (.refl (State.updSpine _ fun p =>
        { p with duplicates := bump p.duplicates }))).slotsShort hsettled
  · exact (routeMessage_hands _ (.refl _)).slotsShort hsettled

theorem install_slotsShort (l : Loaded) {s : State} (h : slotsShort s) : slotsShort (install l s) := by
  have hsettings : slotsShort (installSettings l.settings s) := slotsShort_of_eq h (by simp)
  exact slotsShort_of_eq ((latchLoaded_hands l (.refl _)).slotsShort hsettings) (by simp [install])

theorem abortPort_slotsShort {s : State} (h : slotsShort s) : slotsShort (abortPort s) := by
  unfold abortPort
  dsimp only
  split
  · exact h
  · have hcleared : slotsShort (s.updSlot .port (·.clear)) :=
      slotBodiesOk_updSlot (fun _ => ⟨Nat.zero_le _, nofun⟩) h
    exact slotsShort_of_eq hcleared (by simp)
  · exact slotBodiesOk_updSlot (fun hsl => ⟨hsl.1, nofun⟩) h

/-- R39, R40: a spine reply is short where the command's data is. -/
theorem deliver_slotsShort {c : Command} {a : Answer} (ha : a.data.length ≤ 37) (h : slotsShort a.state) :
    slotsShort (deliver c a) := by
  have hbody : (replyBody c a.result a.data).length ≤ 40 := by
    rw [replyBody_length]
    omega
  unfold deliver
  dsimp only
  split
  · exact slotsShort_of_eq h (by simp)
  · exact (spineReply_hands c hbody (.refl a.state)).slotsShort h

theorem powerOn_slotsShort (straps : Straps) (pins : Pins) (pending : List Instr) (free : Nat) :
    slotsShort (State.powerOn straps pins pending free) := by
  intro n
  cases n <;> exact ⟨Nat.zero_le _, nofun⟩

theorem effect_keeps_slotsShort {i : Instr} {s t : State} (h : Effect i s t) (hbodies : bodiesOk s) : slotsShort t := by
  have hs : slotsShort s := hbodies.1
  have hhands {t : State} (h : HandsCalm s t) : slotsShort t := h.slotsShort hs
  cases h with
  | powerOn straps => exact powerOn_slotsShort straps s.pins s.pending s.free
  | restart straps => exact powerOn_slotsShort straps s.pins s.pending s.free
  | install straps image => exact install_slotsShort _ hs
  | start further n => exact slotBodiesOk_updSlot (f := (·.select)) id hs
  | loseArbitration x => exact endUnsent_slotsShort _ _ (s := s.updSpine _) hs
  | sendError k x => exact sendError_slotsShort k x hs
  | sendEnd x => exact sendEnd_slotsShort x hs
  | messageTaken m => exact messageTaken_slotsShort m hs
  | abortPort => exact abortPort_slotsShort hs
  | sendRecord r _ hlength => exact hhands (sendRecord_hands hlength s)
  | answer c rest a _ _ ha =>
    obtain ⟨hslots, -⟩ := carried_slots ha
    exact deliver_slotsShort (carried_data_length ha (by simpa using hbodies.2.2.1))
      (slotsShort_of_eq hs (by rw [hslots]; simp))
  | quietRun driven => exact hhands (quietRun_hands driven (.refl s))
  | receiveError k => exact (settleStanding_hands (.refl (s.updSpine _))).slotsShort hs
  | fire a => exact hhands (fire_hands a (.refl s))
  | expireRecord o => exact hhands (expireRecord_hands o (.refl s))
  | leaveListening => exact (leaveListening_hands (.refl (s.updTime _))).slotsShort hs
  | completeRead ready rates accels r => exact hhands (completeRead_hands ready rates accels r (.refl s))
  | setLaneSignal v run => exact hhands (setLaneSignal_hands v run (.refl s))
  | packetHeader cut p => exact hhands (packetHeader_hands cut p (.refl s))
  | scanLine => exact hhands (scanLine_hands _ (.refl s))
  | scanEnd => exact hhands (scanEnd_hands (.refl s))
  | expireEntry n => exact hhands (expireEntry_hands n (.refl s))
  | completeReading r => exact (completeReading_hands r s).bodies hs
  | codecFrame mic =>
    obtain ⟨ha, hb⟩ : capturesShort (playFrame s).audio.capture :=
      playFrame_keeps captures_invariant hbodies.2.2.2.2
    exact hhands (captureSample_hands mic ha hb (playFrame_hands (.refl s)))
  | _ => exact slotsShort_of_eq hs (by simp)

/-! ### The message on the spine -/

/-- The own message on the spine is short. -/
def messageShort (p : Spine) : Prop := ∀ x, p.tx = some x → x.body.length ≤ 40

theorem messageShort_of_none {p : Spine} (h : p.tx = none) : messageShort p := fun x hx => by
  rw [h] at hx
  cases hx

theorem messageShort_of_core {p q : Spine} (h : messageShort p) (hcore : q.core = p.core) : messageShort q := by
  intro x hx
  simp only [Spine.core, Prod.mk.injEq] at hcore
  have hmessage := hcore.2
  rw [hx] at hmessage
  obtain ⟨y, hy, heq⟩ := Option.map_eq_some_iff.mp hmessage.symm
  have hbody : y.body = x.body := congrArg Prod.snd heq
  rw [← hbody]
  exact h y hy

theorem core_tx_none {p q : Spine} (hcore : q.core = p.core) (h : p.tx = none) : q.tx = none := by
  simp only [Spine.core, Prod.mk.injEq] at hcore
  simpa [h] using hcore.2

theorem effect_keeps_messageShort {i : Instr} {s t : State} (h : Effect i s t) (hbodies : bodiesOk s) :
    messageShort t.spine := by
  have hs : messageShort s.spine := hbodies.2.1
  cases h with
  | powerOn straps => exact messageShort_of_none rfl
  | restart straps => exact messageShort_of_none rfl
  | install straps image =>
    rw [install_spine]
    exact hs
  | start further n =>
    intro x hx
    obtain rfl : transmissionOf s n = x := Option.some.inj hx
    exact (hbodies.1 n).1
  | loseArbitration x => exact messageShort_of_none (by simp [loseArbitration])
  | sendError k x =>
    refine messageShort_of_none ?_
    unfold sendError enterCut failSend
    dsimp only
    split
    · simp [Spine.ended]
    · rw [(by simp : ∀ n o s, (endUnsent n o s).spine = s.spine)]
      exact settleStanding_tx _
  | receiveError k => exact messageShort_of_none ((settleStanding_tx _).trans (by cases k <;> rfl))
  | messageTaken m =>
    have htx : (settleStanding (s.updSpine fun p =>
      { p.ended false with tfc := goodReceipt p.tfc, drive := .echo })).spine.tx = none := settleStanding_tx _
    refine messageShort_of_none ?_
    unfold messageTaken
    dsimp only
    split
    · unfold duplicateNode
      dsimp only
      split <;> simpa using htx
    · exact core_tx_none (routeMessage_core _ _) htx
  | sendEnd x =>
    have htx : (settleStanding ((slotSent x (s.slot x.slot).attempts ((s.updSlot x.slot (·.finish)).updSpine
        (·.ended true))).updSpine fun p => { p with sfc := p.sfc - 1 })).spine.tx = none := by
      rw [settleStanding_tx, updSpine_spine, slotSent_spine]
      rfl
    refine messageShort_of_none ?_
    unfold sendEnd
    dsimp only
    split
    · exact core_tx_none (routeMessage_core _ _) htx
    · exact htx
  | quietRun driven hbetween =>
    obtain ⟨-, htx, -⟩ := (betweenMessages_iff s).mp hbetween
    refine messageShort_of_none ?_
    unfold quietRun rejoin
    dsimp only
    split
    · split
      · split <;> simpa using htx
      · exact htx
    · exact htx
  | drivenBit =>
    unfold drivenBit
    split <;> exact hs
  | answer c rest a _ _ ha =>
    obtain ⟨-, hspine⟩ := carried_slots ha
    simpa [hspine] using hs
  | _ => simpa using hs

/-! ### The obligation -/

theorem bodiesOk_iff (s : State) :
    bodiesOk s ↔ slotsShort s ∧ messageShort s.spine ∧ intakeShort s.intake ∧ capturesShort s.audio.capture :=
  ⟨fun ⟨h1, h2, h3, h4, h5, h6⟩ => ⟨h1, h2, ⟨h3, h4⟩, h5, h6⟩,
    fun ⟨h1, h2, ⟨h3, h4⟩, h5, h6⟩ => ⟨h1, h2, h3, h4, h5, h6⟩⟩

theorem effect_keeps_bodiesOk {i : Instr} {s t : State} (h : Effect i s t) (hs : bodiesOk s) : bodiesOk t := by
  obtain ⟨-, -, hintake, hcaptures⟩ := (bodiesOk_iff s).mp hs
  exact (bodiesOk_iff t).mpr ⟨effect_keeps_slotsShort h hs, effect_keeps_messageShort h hs,
    effect_keepsIntake intakeBodies_invariant (fun _ => ⟨nofun, nofun⟩) h (fun _ => hs) hintake,
    effect_keepsAudio captures_invariant (fun _ => ⟨Nat.zero_lt_succ 15, Nat.zero_lt_succ 15⟩) h hcaptures⟩

theorem tick_keeps_bodiesOk {s : State} (hs : bodiesOk s) : bodiesOk (tick s) := by
  rw [bodiesOk_iff] at hs ⊢
  obtain ⟨hslots, hmessage, hintake, hcaptures⟩ := hs
  refine ⟨slotsShort_of_eq hslots (by simp), messageShort_of_core hmessage (tick_core s), ?_, ?_⟩
  · simpa using hintake
  · simpa using hcaptures

theorem storesOk_iff (s : State) :
    storesOk s ↔ s.intake.used ≤ 1024 ∧ s.cmd.queue.length ≤ 8 ∧ s.port.outcomes.length ≤ 6 ∧ senderRoom s ∧
      motionRoom s.motion ∧ s.audio.inRoom := by
  constructor
  · rintro ⟨h1, h2, h3, h4, hl, hr, h5, h6, h7, h8⟩
    refine ⟨h1, h2, h3, ⟨h4, fun e => ?_⟩, ⟨h5, h6⟩, h7, h8⟩
    cases e with
    | left => exact hl
    | right => exact hr
  · rintro ⟨h1, h2, h3, ⟨h4, heyes⟩, ⟨h5, h6⟩, h7, h8⟩
    exact ⟨h1, h2, h3, h4, heyes .left, heyes .right, h5, h6, h7, h8⟩

theorem effect_keeps_storesOk {i : Instr} {s t : State} (h : Effect i s t) (hs : storesOk s) : storesOk t := by
  obtain ⟨hintake, hqueue, houtcomes, hsender, hmotion, haudio⟩ := (storesOk_iff s).mp hs
  exact (storesOk_iff t).mpr
    ⟨effect_keepsIntake intakeRoom_invariant (fun _ => Nat.zero_le _) h False.elim hintake, effect_keeps_queue h hqueue,
      effect_keeps_outcomes h houtcomes, effect_keeps_senderRoom h hsender, effect_keeps_motionRoom h hmotion,
      effect_keepsAudio room_invariant (fun _ => ⟨Nat.zero_le _, Nat.zero_le _⟩) h haudio⟩

theorem tick_keeps_storesOk {s : State} (hs : storesOk s) : storesOk (tick s) := by
  unfold storesOk
  rw [(by simp : (tick s).intake = s.intake), (by simp : (tick s).cmd = s.cmd), (by simp : (tick s).port = s.port),
    (by simp : (tick s).laneTx = s.laneTx), (by simp : (tick s).motion = s.motion),
    (by simp : (tick s).audio = s.audio)]
  exact hs

/-- Settles O52: every append to a store looks at its room first, and what a body is made of is bounded where it is
made. -/
theorem stepKeepsStoresAndBodiesBounded : Obligations.StepKeepsStoresAndBodiesBounded := by
  unfold Obligations.StepKeepsStoresAndBodiesBounded Stated.StepKeepsStoresInTheirRoom Stated.StepKeepsBodiesShort
  refine ⟨fun s t hs h => ?_, fun s t hs h => ?_⟩
  · exact step_keeps (P := storesOk) (fun _ _ h => h) (fun _ => tick_keeps_storesOk)
      (fun _ _ _ h => effect_keeps_storesOk h) hs h
  · exact step_keeps (P := bodiesOk) (fun _ _ h => h) (fun _ => tick_keeps_bodiesOk)
      (fun _ _ _ h => effect_keeps_bodiesOk h) hs h

end Sys2Proof.Machine
end

