-- ==== Sys2Proof/Proofs/QueueAndReset.lean ====
section
/-! PROOF. The queue of commands and the microsecond (logs 1 and 5), and the state right after power-on. -/

namespace Sys2Proof.Machine

/-- Settles O1: it is the definition of a step. -/
theorem stepRunsFrontCommand : Obligations.StepRunsFrontCommand := by
  unfold Obligations.StepRunsFrontCommand
  intro c rest s
  rfl

/-- Settles O49: each property holds after every power-on, whatever the straps. -/
theorem resetHasEveryKeptProperty : Obligations.ResetHasEveryKeptProperty := by
  unfold Obligations.ResetHasEveryKeptProperty
  have hloaded := loadedOk_defaults strapsAtReset.role strapsAtReset.node
  refine ⟨powerOn_spineOk .., ?_, ?_, alarmsOk_powerOn .., powerOn_dialsOk .., hloaded.geometry, rfl, hloaded.maps,
    powerOn_horizonsOk .., powerOn_shiftsOk .., powerOn_historyOk .., ?_, powerOn_powerOk ..⟩
  · unfold storesOk
    decide
  · exact (bodiesOk_iff _).mpr ⟨powerOn_slotsShort _ _ _ _, nofun, ⟨nofun, nofun⟩,
      Nat.zero_lt_succ 15, Nat.zero_lt_succ 15⟩
  · exact (audioOk_iff _).mpr ⟨⟨rfl, nofun⟩, fun _ => rfl, ⟨fun _ => rfl, fun _ => rfl⟩, ⟨fun _ => rfl, fun _ => rfl⟩,
      ⟨fun _ => rfl, fun _ => rfl⟩, nofun⟩

/-! ### A microsecond -/

theorem TimeUnit.moved_zero (t : TimeUnit) : t.moved 0 = t := by
  have hrecord : (fun r : TimeRecord => r.moved 0) = id := by
    funext r
    simp [TimeRecord.moved]
  have htable : t.table.map (·.map (·.moved 0)) = t.table := by
    simp only [hrecord, Option.map_id_fun]
    exact Vector.map_id _
  simp [TimeUnit.moved, htable]

theorem Transmission.moved_zero (x : Transmission) : x.moved 0 = x := by simp [Transmission.moved]

/-- R60, R61: the slew of one microsecond, by 1, −1 or no sixteenth. -/
theorem slewMicrosecond_eq (s : State) :
    slewMicrosecond s =
      { s with
        time := { s.time.moved (slewSign s.time.slew) with
          offset := s.time.offset + slewSign s.time.slew
          slew := s.time.slew - slewSign s.time.slew }
        spine := { s.spine with tx := s.spine.tx.map (·.moved (slewSign s.time.slew)) } } := by
  unfold slewMicrosecond
  dsimp only
  split
  · rename_i h
    have hmessage : (fun x : Transmission => x.moved 0) = id := funext Transmission.moved_zero
    simp only [h, TimeUnit.moved_zero, Int.add_zero, Int.sub_zero, hmessage, Option.map_id_fun, id_eq]
  · rfl

/-- R131: the line clock runs while a scan does. -/
theorem runLineClock_eq (s : State) :
    runLineClock s =
      { s with scan :=
        { s.scan with lineClock := if s.scan.scanning then s.scan.lineClock + 16 else s.scan.lineClock } } := by
  unfold runLineClock
  split <;> rfl

theorem countMicrosecond_of_lt {s : State} (h : s.time.localCount < lastCount) :
    countMicrosecond s = s.updTime fun t => { t with localCount := t.localCount + 1 } := if_pos h

/-- Settles O2: the microsecond part by part, in the order in which it passes. -/
theorem emptyQueueLetsAMicrosecondPass : Obligations.EmptyQueueLetsAMicrosecondPass := by
  unfold Obligations.EmptyQueueLetsAMicrosecondPass
  intro s hpending hcount d
  have hpassed : passMicrosecond (senseAlert s) = runLineClock (slewMicrosecond
      ((keepReading (senseAlert s)).updTime fun t => { t with localCount := t.localCount + 1 })) :=
    congrArg (runLineClock ∘ slewMicrosecond) (countMicrosecond_of_lt (s := keepReading (senseAlert s)) hcount)
  rw [slewMicrosecond_eq, runLineClock_eq] at hpassed
  refine ⟨tick s, by rw [step, hpending], ?_⟩
  unfold tick
  rw [hpassed, hpending]
  exact ⟨rfl, rfl, rfl, rfl⟩

end Sys2Proof.Machine
end

