-- ==== Sys2Proof/Proofs/SpineStarts.lean ====
section
/-! PROOF. Starts, driven bit times, quiet runs and rejoin (R7, R8, R23, R46, R47). -/

namespace Sys2Proof.Machine

/-- Two states are equal if each part is. -/
theorem State.ext_parts {s t : State} (pending : s.pending = t.pending) (free : s.free = t.free)
    (pins : s.pins = t.pins) (straps : s.straps = t.straps) (loader : s.loader = t.loader) (spine : s.spine = t.spine)
    (slots : s.slots = t.slots) (intake : s.intake = t.intake) (cmd : s.cmd = t.cmd) (alarms : s.alarms = t.alarms)
    (time : s.time = t.time) (sched : s.sched = t.sched) (motion : s.motion = t.motion) (dials : s.dials = t.dials)
    (laneTx : s.laneTx = t.laneTx) (laneRx : s.laneRx = t.laneRx) (store : s.store = t.store) (scan : s.scan = t.scan)
    (audio : s.audio = t.audio) (power : s.power = t.power) (port : s.port = t.port) : s = t := by
  cases s
  cases t
  simp_all only

/-! ### The pick (R23) -/

/-- Slot `a` goes before slot `b` in a start, the slots standing in the order of `l`. -/
def Slots.before (t : Slots) (l : List SlotName) (a b : SlotName) : Prop :=
  (t.get a).content.rank.toNat < (t.get b).content.rank.toNat ∨
    (t.get a).content.rank = (t.get b).content.rank ∧ l.idxOf a < l.idxOf b

theorem Slots.before_asymm {t : Slots} {l : List SlotName} {a b : SlotName} (h : t.before l a b) :
    ¬ t.before l b a := by
  intro h'
  obtain h | ⟨hrank, h⟩ := h <;> obtain h' | ⟨hrank', h'⟩ := h'
  · omega
  · rw [hrank'] at h
    omega
  · rw [hrank] at h'
    omega
  · omega

/-- What a choice among the slots of `l` is to be: the PENDING slot that goes before the others, none if none is
PENDING. -/
def Slots.IsPick (t : Slots) (l : List SlotName) : Option SlotName → Prop
  | none => ∀ m ∈ l, (t.get m).state ≠ .pending
  | some b => b ∈ l ∧ (t.get b).state = .pending ∧ ∀ m ∈ l, (t.get m).state = .pending → m ≠ b → t.before l b m

theorem Slots.before_append {t : Slots} {l : List SlotName} {a b : SlotName} (ha : a ∈ l) (hb : b ∈ l)
    (h : t.before l a b) (x : SlotName) : t.before (l ++ [x]) a b := by
  unfold Slots.before
  rw [List.idxOf_append_of_mem ha, List.idxOf_append_of_mem hb]
  exact h

/-- One further slot is compared with the choice so far. -/
theorem Slots.isPick_append {t : Slots} {l : List SlotName} {best : Option SlotName} (h : t.IsPick l best)
    {x : SlotName} (hx : x ∉ l) : t.IsPick (l ++ [x]) (pickBetter t best x) := by
  unfold pickBetter
  by_cases hpending : (t.get x).state = .pending
  · rw [if_pos hpending]
    cases best with
    | none =>
      refine ⟨by simp, hpending, fun m hm hmp hne => ?_⟩
      obtain hm | hm := List.mem_append.mp hm
      · exact absurd hmp (h m hm)
      · exact absurd (List.mem_singleton.mp hm) hne
    | some b =>
      obtain ⟨hb, hbp, hbest⟩ := h
      dsimp only
      split
      · rename_i hlower
        refine ⟨by simp, hpending, fun m hm hmp hne => ?_⟩
        obtain hm | hm := List.mem_append.mp hm
        · by_cases hmb : m = b
          · rw [hmb]
            exact .inl hlower
          · obtain hbm | ⟨hbm, -⟩ := hbest m hm hmp hmb
            · exact .inl (hlower.trans hbm)
            · exact .inl (hbm ▸ hlower)
        · exact absurd (List.mem_singleton.mp hm) hne
      · rename_i hnot
        refine ⟨List.mem_append_left _ hb, hbp, fun m hm hmp hne => ?_⟩
        obtain hm | hm := List.mem_append.mp hm
        · exact Slots.before_append hb hm (hbest m hm hmp hne) x
        · rw [List.mem_singleton.mp hm]
          obtain hlt | heq := Nat.lt_or_eq_of_le (Nat.le_of_not_lt hnot)
          · exact .inl hlt
          · refine .inr ⟨BitVec.eq_of_toNat_eq heq, ?_⟩
            rw [List.idxOf_append_of_mem hb, List.idxOf_append_of_notMem hx]
            exact Nat.lt_add_right _ (List.idxOf_lt_length_of_mem hb)
  · rw [if_neg hpending]
    cases best with
    | none =>
      intro m hm
      obtain hm | hm := List.mem_append.mp hm
      · exact h m hm
      · rw [List.mem_singleton.mp hm]
        exact hpending
    | some b =>
      obtain ⟨hb, hbp, hbest⟩ := h
      refine ⟨List.mem_append_left _ hb, hbp, fun m hm hmp hne => ?_⟩
      obtain hm | hm := List.mem_append.mp hm
      · exact Slots.before_append hb hm (hbest m hm hmp hne) x
      · exact absurd hmp (List.mem_singleton.mp hm ▸ hpending)

theorem Slots.isPick_foldl (t : Slots) (l : List SlotName) (h : l.Nodup) :
    t.IsPick l (l.foldl (pickBetter t) none) := by
  induction l using List.reverseRecOn with
  | nil => exact fun m hm => absurd hm List.not_mem_nil
  | append_singleton l x ih =>
    obtain ⟨hl, hx⟩ := List.nodup_append.mp h |>.imp_right And.right
    rw [List.foldl_append]
    exact Slots.isPick_append (ih hl) fun hmem => hx x hmem x (List.mem_singleton_self x) rfl

theorem mem_slotOrder (n : SlotName) : n ∈ slotOrder := by cases n <;> decide

theorem Slots.isPick_pick (t : Slots) : t.IsPick slotOrder t.pick := t.isPick_foldl slotOrder (by decide)

/-- R23: a PENDING slot that goes before all others is the one picked. -/
theorem Slots.pick_eq_some {t : Slots} {n : SlotName} (hn : (t.get n).state = .pending)
    (hbest : ∀ m, (t.get m).state = .pending → m ≠ n → t.before slotOrder n m) : t.pick = some n := by
  have hpick := t.isPick_pick
  cases h : t.pick with
  | none =>
    rw [h] at hpick
    exact absurd hn (hpick n (mem_slotOrder n))
  | some b =>
    rw [h] at hpick
    obtain ⟨-, hb, hbefore⟩ := hpick
    by_cases hne : n = b
    · rw [hne]
    · exact absurd (hbefore n (mem_slotOrder n) hn hne) (Slots.before_asymm (hbest b hb (Ne.symm hne)))

theorem Slots.pick_eq_none {t : Slots} (h : ∀ n, (t.get n).state ≠ .pending) : t.pick = none := by
  have hpick := t.isPick_pick
  cases hp : t.pick with
  | none => rfl
  | some b =>
    rw [hp] at hpick
    exact absurd hpick.2.1 (h b)

/-! ### Starts -/

theorem mayStart_iff (s : State) (further : Nat) : s.mayStart further = true ↔ Stated.mayBegin s further := by
  have hwaited : s.spine.waited further = true ↔ 1 ≤ s.spine.quietRuns ∧
      (s.spine.standing = .muted → s.spine.lastOwn = true → 18 ≤ 10 * s.spine.quietRuns + further) := by
    simp only [Spine.waited, Bool.and_eq_true, Bool.or_eq_true, decide_eq_true_eq, Bool.not_eq_true',
      Bool.and_eq_false_iff, beq_eq_false_iff_ne]
    cases s.spine.lastOwn <;> grind
  have hlife : s.loader.life = .running → s.loader.life ≠ .loading := fun h h' => by rw [h] at h'; cases h'
  rw [State.mayStart, Bool.and_eq_true, Bool.and_eq_true, hwaited, betweenMessages_iff, State.inService,
    Bool.and_eq_true, beq_iff_eq, bne_iff_ne]
  unfold Stated.mayBegin
  tauto

theorem exec_spineStart (s : State) (further : Nat) :
    exec (.spineStart further false) s = .next (spineStart further s) := rfl

theorem exec_spineStart_driven (s : State) (further : Nat) :
    exec (.spineStart further true) s = .next (drivenBit s) := rfl

theorem spineStart_of_pick {s : State} {further : Nat} {n : SlotName} (hmay : Stated.mayBegin s further)
    (hpick : s.slots.pick = some n) : spineStart further s = startMessage n s := by
  rw [spineStart, if_pos ((mayStart_iff s further).mpr hmay), hpick]

theorem startTakesPendingSlotOfLowestRank : Stated.StartTakesPendingSlotOfLowestRank := by
  intro s n further hmay hn hbest
  rw [exec_spineStart, spineStart_of_pick hmay (Slots.pick_eq_some hn hbest)]
  have hattempts : bump8 (s.slot n).attempts =
      if (s.slot n).attempts = 255 then 255 else (s.slot n).attempts + 1 := by
    unfold bump8
    split
    · assumption
    · rfl
  rw [← hattempts]
  rfl

theorem nothingStartsOtherwise : Stated.NothingStartsOtherwise := by
  intro s further h
  rw [exec_spineStart, spineStart]
  split
  · rename_i hmay
    obtain hnot | hnone := h
    · exact absurd ((mayStart_iff s further).mp hmay) hnot
    · rw [Slots.pick_eq_none hnone]
  · rfl

theorem drivenBitEndsTheQuietRuns : Stated.DrivenBitEndsTheQuietRuns := by
  intro s further
  rw [exec_spineStart_driven, drivenBit]
  refine ⟨fun h => ?_, fun h => ?_⟩
  · rw [if_pos ((betweenMessages_iff s).mpr h)]
    rfl
  · rw [if_neg (mt (betweenMessages_iff s).mp h)]

/-- Settles O3: the pick is the one slot that goes before the others. -/
theorem stationStartsItsLowestRank : Obligations.StationStartsItsLowestRank :=
  ⟨startTakesPendingSlotOfLowestRank, nothingStartsOtherwise, drivenBitEndsTheQuietRuns⟩

/-! ### Quiet runs and rejoin -/

theorem exec_quietRun {s : State} (driven : Bool) (h : Stated.betweenMessages s) :
    exec (.quietRun driven) s = .next (quietRun driven s) :=
  congrArg Host.Outcome.next (if_pos ((betweenMessages_iff s).mpr h))

/-- REJOIN does what QUIET_RUN does where the countdown ends (log 8). -/
theorem exec_rejoin {s : State} (driven : Bool) (h : Stated.betweenMessages s) (hcut : s.spine.standing = .cut)
    (hsfc : s.spine.sfc ≤ 1) : exec (.rejoin driven) s = .next (quietRun driven s) := by
  refine congrArg Host.Outcome.next (if_pos ?_)
  rw [(betweenMessages_iff s).mpr h, hcut]
  simp [hsfc]

/-- The state in which a completed quiet run has been counted. -/
def quietCounted (driven : Bool) (s : State) : State :=
  s.updSpine fun p => { p with synced := true, quietRuns := p.runsAfter driven, drive := .undriven }

theorem quietRun_of_ne_cut {s : State} (driven : Bool) (h : s.spine.standing ≠ .cut) :
    quietRun driven s = quietCounted driven s := if_neg h

theorem quietRun_of_cut {s : State} (driven : Bool) (h : s.spine.standing = .cut) (hsfc : ¬ s.spine.sfc ≤ 1) :
    quietRun driven s = (quietCounted driven s).updSpine fun p => { p with sfc := p.sfc - 1 } :=
  (if_pos h).trans (if_neg hsfc)

theorem quietRun_of_countdown {s : State} (driven : Bool) (h : s.spine.standing = .cut) (hsfc : s.spine.sfc ≤ 1) :
    quietRun driven s = rejoin (quietCounted driven s) := (if_pos h).trans (if_pos hsfc)

theorem quietRunIsCounted : Stated.QuietRunIsCounted := by
  intro s driven hbetween hcut
  rw [exec_quietRun driven hbetween, quietRun_of_ne_cut driven hcut]
  rfl

theorem quietRunLowersRejoinCountdown : Stated.QuietRunLowersRejoinCountdown := by
  intro s driven hbetween hcut hsfc
  rw [exec_quietRun driven hbetween, quietRun_of_cut driven hcut (Nat.not_le.mpr hsfc)]
  rfl

/-- R47, R55: in service, the ALARM slot is loaded if a mark is unsent. -/
theorem returnToService_slots {s : State} (hlife : s.loader.life = .running) (hcut : s.spine.standing ≠ .cut) :
    (returnToService s).slots =
      if s.alarms.unsent = 0 then s.slots
      else { s.slots with alarm := s.slots.alarm.load (Stated.alarmContent s s.spine.standing) } := by
  have hslots : (returnToService s).slots = (if s.alarms.unsent = 0 then s else loadAlarm s).slots := by
    unfold returnToService
    dsimp only
    generalize (if s.alarms.unsent = 0 then s else loadAlarm s) = u
    split <;> rfl
  rw [hslots]
  split
  · rfl
  · rw [loadAlarm_eq, if_pos ⟨hlife, hcut⟩]

/-- R47, R159: in service, capture starts afresh with its switch on. -/
theorem returnToService_audio {s : State} (hlife : s.loader.life = .running) (hcut : s.spine.standing ≠ .cut) :
    (returnToService s).audio =
      if s.straps.role = .headset ∧ s.audio.capture.switch = true then
        { s.audio with capture := s.audio.capture.start }
      else s.audio := by
  have hu : ∀ u, u = (if s.alarms.unsent = 0 then s else loadAlarm s) → u.audio = s.audio ∧ u.straps = s.straps ∧
      u.loader = s.loader ∧ u.spine = s.spine := by
    rintro u rfl
    split <;> simp
  unfold returnToService
  dsimp only
  generalize hgen : (if s.alarms.unsent = 0 then s else loadAlarm s) = u
  obtain ⟨haudio, hstraps, hloader, hspine⟩ := hu u hgen.symm
  have hcapturing : u.capturing = true ↔ s.straps.role = .headset ∧ s.audio.capture.switch = true := by
    simp [State.capturing, State.inService, haudio, hstraps, hloader, hspine, hlife, hcut]
  rw [apply_ite State.audio, haudio]
  refine (if_congr hcapturing ?_ rfl)
  simp [State.updCapture, haudio]

theorem countdownAtZeroRejoins : Stated.CountdownAtZeroRejoins := by
  intro s i driven hi hlife htx hreceiving hcut hsfc
  have hbetween : Stated.betweenMessages s := ⟨by rw [hlife]; nofun, htx, hreceiving⟩
  have hone : s.spine.sfc ≤ 1 := Nat.le_of_eq hsfc
  have hexec : exec i s = .next (quietRun driven s) := by
    obtain rfl | rfl := hi
    · exact exec_quietRun driven hbetween
    · exact exec_rejoin driven hbetween hcut hone
  let u := (quietCounted driven s).updSpine fun p => { p with standing := .open, sfc := 0, tfc := 0 }
  have hrejoin : quietRun driven s = returnToService u := by
    rw [quietRun_of_countdown driven hcut hone]
    exact if_pos hlife
  have hspine : (returnToService u).spine = u.spine := by simp
  refine ⟨returnToService u, by rw [hexec, hrejoin], hspine, ?_, ?_, ?_⟩
  · exact returnToService_slots (s := u) hlife nofun
  · exact returnToService_audio (s := u) hlife nofun
  · apply State.ext_parts <;> simp [u, quietCounted]

/-- Settles O4: a quiet run is counted; in CUT it lowers the countdown or ends it. -/
theorem quietRunsAreCountedAndEndCut : Obligations.QuietRunsAreCountedAndEndCut :=
  ⟨quietRunIsCounted, quietRunLowersRejoinCountdown, countdownAtZeroRejoins⟩

end Sys2Proof.Machine
end

