-- ==== Sys2Proof/Proofs/UnsentMessages.lean ====
section
/-! PROOF. What a lost arbitration and a send error leave (R9, R10, R24, R25, R42, R44, R45). -/

namespace Sys2Proof.Machine

/-! ### Slots that an operation leaves -/

theorem get_loadSlot_of_ne {n m : SlotName} (h : m ≠ n) (c : Content) (s : State) :
    (loadSlot n c s).slots.get m = s.slots.get m := by
  unfold loadSlot
  split
  · exact get_countRefused ..
  · exact (get_put ..).trans (if_neg h)

theorem get_latch_of_ne {m : SlotName} (h : m ≠ .alarm) (f : Flag) (s : State) :
    (latch f s).slots.get m = s.slots.get m := by
  unfold latch
  split
  · rfl
  · dsimp only
    split
    · exact get_loadSlot_of_ne h ..
    · rfl

/-! ### The slot of a send that ends without SENT -/

theorem pushOutcome_port (o : SendOutcome) (a : BitVec 8) (s : State) :
    (pushOutcome o a s).port = Stated.withOutcome s.port o a := rfl

theorem endUnsent_slots (n : SlotName) (o : SendOutcome) (s : State) :
    (endUnsent n o s).slots = s.slots.put n ((s.slot n).endUnsent o).1 := by
  rw [endUnsent, handOutcome_slots]
  rfl

theorem endUnsent_port (n : SlotName) (o : SendOutcome) (s : State) :
    (endUnsent n o s).port = (handOutcome n ((s.slot n).endUnsent o).2 (s.slot n).attempts s).port := by
  unfold endUnsent handOutcome
  dsimp only
  split <;> rfl

/-- R24, R27: the three ends of a slot's send without SENT. -/
theorem endUnsent_slotAfterUnsent (n : SlotName) (o : SendOutcome) (s : State) :
    Stated.slotAfterUnsent s n o (endUnsent n o s) := by
  unfold Stated.slotAfterUnsent
  dsimp only
  rw [endUnsent_slots, endUnsent_port]
  refine ⟨fun hsingle hmark => ?_, ?_, ?_⟩
  · have hend : (s.slot n).endUnsent o = ((s.slot n).again, none) := by
      rw [Slot.endUnsent, hsingle, hmark]
      rfl
    rw [hend]
    exact ⟨rfl, by unfold handOutcome; split <;> simp_all⟩
  · rintro rfl hsingle
    have hend : (s.slot .port).endUnsent o = ((s.slot .port).finish, some o) := if_pos hsingle
    rw [hend]
    exact ⟨rfl, rfl⟩
  · rintro rfl hsingle hmark
    have hend : (s.slot .port).endUnsent o = ((s.slot .port).finish, some .aborted) := by
      rw [Slot.endUnsent, hsingle, hmark]
      rfl
    rw [hend]
    exact ⟨rfl, rfl⟩

/-! ### The end of a send -/

theorem exec_arbitrationLoss {s : State} {x : Transmission} (htx : s.spine.tx = some x) :
    exec .arbitrationLoss s = .next (loseArbitration x s) := by
  change execArbitrationLoss s = _
  rw [execArbitrationLoss, htx]

theorem exec_sendError {s : State} {x : Transmission} (k : SendErrorKind) (htx : s.spine.tx = some x) :
    exec (.sendError k) s = .next (sendError k x s) := by
  change execSendError k s = _
  rw [execSendError, htx]

theorem arbitrationLossIsNoError : Stated.ArbitrationLossIsNoError := by
  intro s x htx
  refine ⟨loseArbitration x s, exec_arbitrationLoss htx, ?_, ?_, ?_⟩
  · simp [loseArbitration]
  · exact endUnsent_slotAfterUnsent x.slot .lost (s.updSpine _)
  · apply State.ext_parts <;> simp

/-! ### The standing after a send error -/

/-- R44: where the station does not leave OPEN, a standing taken afresh touches the spine controller alone. -/
theorem settleStanding_of_stays {s : State} (hcut : s.spine.standing ≠ .cut)
    (hopen : s.spine.standing = .open → standingOf s.spine.sfc s.spine.tfc s.spine.strain = .open) :
    settleStanding s =
      s.updSpine fun p => { p with standing := standingOf s.spine.sfc s.spine.tfc s.spine.strain } := by
  unfold settleStanding
  dsimp only
  split
  · exact absurd (by assumption) hcut
  · exact if_pos (hopen (by assumption))
  · rfl
  · rfl

/-- R44: leaving OPEN latches STRAIN. -/
theorem settleStanding_of_leaves {s : State} (hopen : s.spine.standing = .open)
    (hleaves : standingOf s.spine.sfc s.spine.tfc s.spine.strain ≠ .open) :
    settleStanding s = latch .strain
      (s.updSpine fun p => { p with standing := standingOf s.spine.sfc s.spine.tfc s.spine.strain }) := by
  unfold settleStanding
  dsimp only
  rw [hopen]
  exact if_neg hleaves

theorem errorWeight_eq (k : SendErrorKind) (standing : Standing) :
    errorWeight k standing = Stated.sendFault k standing := by
  cases k <;> cases standing <;> rfl

/-- A send error, once it is counted by its kind. -/
def errorCounted (k : SendErrorKind) (s : State) : State := s.updSpine (·.countSendError k)

theorem sendError_of_within {s : State} {k : SendErrorKind} (x : Transmission)
    (h : s.spine.sfc + Stated.sendFault k s.spine.standing ≤ 255) :
    sendError k x s = failSend x (Stated.sendFault k s.spine.standing) (errorCounted k s) := by
  rw [← errorWeight_eq] at h ⊢
  refine if_neg (Nat.not_lt.mpr ?_)
  cases k <;> exact h

theorem sendError_of_above {s : State} {k : SendErrorKind} (x : Transmission)
    (h : 255 < s.spine.sfc + Stated.sendFault k s.spine.standing) :
    sendError k x s = enterCut (errorCounted k s) := by
  rw [← errorWeight_eq] at h
  refine if_pos ?_
  cases k <;> exact h

theorem spoilOf_standingOf (sfc tfc level : Nat) :
    spoilOf (standingOf sfc tfc level) = if standingOf sfc tfc level = .muted then .recessiveSpoil else .spoil := by
  cases h : standingOf sfc tfc level with
  | cut => exact absurd h (standingOf_ne_cut sfc tfc level)
  | _ => rfl

/-- A send error, once it is counted by its kind and SFC has risen. -/
def faultRaised (k : SendErrorKind) (s : State) : State :=
  (errorCounted k s).updSpine fun p => { p.ended true with sfc := p.sfc + Stated.sendFault k s.spine.standing }

theorem faultRaised_spine (k : SendErrorKind) (s : State) :
    (faultRaised k s).spine =
      { s.spine.ended true with
        sfc := s.spine.sfc + Stated.sendFault k s.spine.standing
        driveErrors := if k = .drive then bump s.spine.driveErrors else s.spine.driveErrors
        shapeErrors := if k = .shape then bump s.spine.shapeErrors else s.spine.shapeErrors
        echoErrors := if k = .echo then bump s.spine.echoErrors else s.spine.echoErrors } := by
  cases k <;> rfl

/-- R10: the standing is taken afresh, the spoil driven, and the slot's send ends. -/
theorem exec_sendError_of_within {s : State} {x : Transmission} {k : SendErrorKind} (htx : s.spine.tx = some x)
    (h : s.spine.sfc + Stated.sendFault k s.spine.standing ≤ 255) :
    exec (.sendError k) s =
      .next (endUnsent x.slot .failed (driveSpoil (settleStanding (faultRaised k s)))) := by
  rw [exec_sendError k htx, sendError_of_within x h]
  rfl

theorem sendErrorRaisesSendFaultCount : Stated.SendErrorRaisesSendFaultCount := by
  intro s x k htx hcut hwithin sfc standing hopen
  have hsettled : settleStanding (faultRaised k s) =
      (faultRaised k s).updSpine fun p => { p with standing := standing } := by
    have h := settleStanding_of_stays (s := faultRaised k s) (by rw [faultRaised_spine]; exact hcut)
      (by rw [faultRaised_spine]; exact hopen)
    rw [h, faultRaised_spine]
    rfl
  refine ⟨_, exec_sendError_of_within htx hwithin, ?_, ?_, ?_⟩
  · rw [hsettled]
    simp only [endUnsent_frame, driveSpoil, updSpine_spine, faultRaised_spine, standing, spoilOf_standingOf]
    rfl
  · rw [hsettled]
    exact endUnsent_slotAfterUnsent x.slot .failed (driveSpoil ((faultRaised k s).updSpine _))
  · rw [hsettled]
    apply State.ext_parts <;> simp [faultRaised, errorCounted, driveSpoil]

/-! ### Leaving OPEN -/

theorem load_of_empty {sl : Slot} (h : sl.state = .empty) (c : Content) :
    sl.load c = { sl with state := .pending, content := c, attempts := 0 } := by
  rw [Slot.load, h]

/-- A count at the strain level or above, the other below 128, makes the standing STRAINED or MUTED. -/
theorem standingOf_of_sfc_strained {sfc tfc level : Nat} (hlevel : level ≤ sfc) (htfc : tfc < 128) :
    standingOf sfc tfc level = if sfc < 128 then .strained else .muted := by
  unfold standingOf
  by_cases h : sfc < 128
  · rw [if_neg (by omega), if_pos (.inl hlevel), if_pos h]
  · rw [if_pos (by omega), if_neg h]

/-- R49: an event that finds its flag unlatched latches it, with its mark if its message enable is set. -/
theorem latch_alarms {s : State} {f : Flag} (h : s.isLatched f = false) :
    (latch f s).alarms =
      { s.alarms with
        latched := s.alarms.latched ||| f.mask
        unsent := if s.alarms.message.getLsbD f.number then s.alarms.unsent ||| f.mask else s.alarms.unsent } := by
  cases hm : s.alarms.message.getLsbD f.number with
  | true => simp [latch_of_unlatched_enabled h hm]
  | false => simp [latch_of_unlatched_disabled h hm]

theorem latch_slots_of_disabled {s : State} {f : Flag} (h : s.isLatched f = false)
    (hm : s.alarms.message.getLsbD f.number = false) : (latch f s).slots = s.slots := by
  simp [latch_of_unlatched_disabled h hm]

/-- R54, R55: in service, a marked event loads the ALARM slot. -/
theorem latch_slots_of_enabled {s : State} {f : Flag} (h : s.isLatched f = false)
    (hm : s.alarms.message.getLsbD f.number = true) (hlife : s.loader.life = .running)
    (hcut : s.spine.standing ≠ .cut) :
    (latch f s).slots =
      { s.slots with
        alarm := s.slots.alarm.load
          (Stated.alarmContent { s with alarms := (latch f s).alarms } s.spine.standing) } := by
  rw [latch_alarms h, hm, latch_of_unlatched_enabled h hm, loadAlarm_eq, if_pos ⟨hlife, hcut⟩]
  rfl

theorem leavingOpenLatchesStrain : Stated.LeavingOpenLatchesStrain := by
  intro s x k htx hlife hopen hstrain hsfc hlevel htfc hunlatched
  have hweight : Stated.sendFault k s.spine.standing = 8 := by
    rw [hopen]
    cases k <;> rfl
  have hspine := faultRaised_spine k s
  rw [hweight] at hspine
  have hstanding : standingOf (faultRaised k s).spine.sfc (faultRaised k s).spine.tfc (faultRaised k s).spine.strain =
      if s.spine.sfc + 8 < 128 then .strained else .muted := by
    rw [hspine]
    exact standingOf_of_sfc_strained hstrain (show s.spine.tfc < 128 by omega)
  generalize hnew : (if s.spine.sfc + 8 < 128 then Standing.strained else .muted) = standing at hstanding ⊢
  have hne : standing ≠ .open ∧ standing ≠ .cut := by
    rw [← hnew]
    split <;> exact ⟨nofun, nofun⟩
  have hsettled := settleStanding_of_leaves (s := faultRaised k s) (by rw [hspine]; exact hopen)
    (by rw [hstanding]; exact hne.1)
  rw [hstanding] at hsettled
  let u := (faultRaised k s).updSpine fun p => { p with standing := standing }
  change settleStanding (faultRaised k s) = latch .strain u at hsettled
  have hu : u = { s with spine := u.spine } := by apply State.ext_parts <;> simp [u, faultRaised, errorCounted]
  have hulatched : u.isLatched .strain = false := hunlatched
  refine ⟨_, exec_sendError_of_within htx (by rw [hweight]; exact hsfc), ?_⟩
  rw [hsettled]
  generalize ht : endUnsent x.slot .failed (driveSpoil (latch .strain u)) = t
  have hts : t.spine = (driveSpoil u).spine := by simp [← ht, driveSpoil]
  have hta : t.alarms = (latch .strain u).alarms := by simp [← ht, driveSpoil]
  refine ⟨?_, ?_, ?_, ?_, ?_, ?_⟩
  · rw [hts]
    exact congrArg Spine.sfc hspine
  · rw [hts]
    rfl
  · rw [hta, latch_alarms hulatched]
    rfl
  · rw [hta, latch_alarms hulatched]
    rfl
  · intro hm hslot hempty
    have halarm : t.slots.alarm = (latch .strain u).slots.alarm := by
      rw [← ht, endUnsent_slots]
      exact (get_put _ _ .alarm _).trans (if_neg (Ne.symm hslot))
    have hload := latch_slots_of_enabled hulatched hm hlife hne.2
    have hst : t.spine.standing = u.spine.standing := by
      rw [hts]
      rfl
    rw [halarm, hload, ← hta, hst]
    exact load_of_empty hempty _
  · rw [← ht, hu]
    apply State.ext_parts <;> simp [driveSpoil]

/-! ### CUT -/

/-- R49: after an event its flag is latched, and no other flag has come or gone. -/
theorem latch_latched (f : Flag) (s : State) : (latch f s).alarms.latched = s.alarms.latched ||| f.mask := by
  cases h : s.isLatched f with
  | false => rw [latch_alarms h]
  | true =>
    rw [latch_of_latched h]
    refine BitVec.eq_of_getLsbD_eq fun n hn => ?_
    rw [BitVec.getLsbD_or, getLsbD_mask f hn]
    by_cases hf : n = f.number
    · have hbit : s.alarms.latched.getLsbD f.number = true := h
      simp only [hf, hbit, Bool.true_or]
    · rw [decide_eq_false hf, Bool.or_false]

/-- R22: outside service an event loads nothing. -/
theorem get_latch_of_refused {s : State} (h : s.loadRefused = true) (f : Flag) (m : SlotName) :
    (latch f s).slots.get m = s.slots.get m := by
  unfold latch
  split
  · rfl
  · dsimp only
    split
    · have hload (c : Content) (u : State) (hu : u.loadRefused = true) :
          (loadSlot .alarm c u).slots.get m = u.slots.get m := by
        rw [loadSlot_of_refused hu, get_countRefused]
      exact hload _ _ h
    · rfl

theorem get_clear (t : Slots) (n : SlotName) : t.clear.get n = (t.get n).clear := by cases n <;> rfl

theorem clearSlots_slots (s : State) : (clearSlots s).slots = s.slots.clear := by
  unfold clearSlots
  dsimp only
  (repeat' split) <;> simp

/-- R25, R26: one FAILED for the PORT slot, if it was not EMPTY. -/
theorem clearSlots_port (s : State) :
    (clearSlots s).port =
      if s.slots.port.state = .empty then s.port
      else Stated.withOutcome s.port .failed s.slots.port.attempts := by
  unfold clearSlots
  dsimp only
  split <;> split <;> simp [pushOutcome_port]

/-- R38, R39: the reply that was given to the REPLY slot is done. -/
theorem replyDone_cmd (s : State) : (replyDone s).cmd = { s.cmd with answering := none } := by
  unfold replyDone
  split
  · rename_i h
    rw [← h]
  · dsimp only
    split <;> rfl

theorem clearSlots_cmd (s : State) :
    (clearSlots s).cmd =
      { s.cmd with answering := if s.slots.reply.state = .empty then s.cmd.answering else none } := by
  have hcmd (u : State) : (clearSlots u).cmd =
      (if u.slots.reply.state = .empty then u.updSlots Slots.clear else replyDone (u.updSlots Slots.clear)).cmd := by
    unfold clearSlots
    dsimp only
    generalize (if u.slots.reply.state = .empty then u.updSlots Slots.clear
      else replyDone (u.updSlots Slots.clear)) = v
    split <;> rfl
  rw [hcmd]
  split
  · rfl
  · exact replyDone_cmd _

/-- R47, R159: a station that leaves service pauses its capture. -/
theorem leaveService_capture {s : State} (hrole : s.straps.role = .headset) (hswitch : s.audio.capture.switch = true) :
    (leaveService s).audio.capture = s.audio.capture.discard := by
  rw [leaveService, if_pos ⟨hrole, hswitch⟩]
  rfl

theorem sendErrorAboveLimitEntersCut : Stated.SendErrorAboveLimitEntersCut := by
  intro s x k htx hlife hecho habove
  have hweight : Stated.sendFault k s.spine.standing = 8 := if_neg fun h => hecho h.1 h.2
  let u := (errorCounted k s).updSpine fun p => { p.ended true with standing := .cut, tfc := 0, sfc := 64 }
  have hrefused : (clearSlots u).loadRefused = true := by simp [State.loadRefused, u]
  refine ⟨enterCut (errorCounted k s), ?_, ?_, ?_, ?_, ?_, ?_, ?_, ?_⟩
  · rw [exec_sendError k htx, sendError_of_above x (by rw [hweight]; exact habove)]
  · have hcut : (enterCut (errorCounted k s)).spine = u.spine := by simp [enterCut, u]
    rw [hcut]
    cases k <;> rfl
  · intro n
    have hslot : (enterCut (errorCounted k s)).slot n = (s.slot n).clear := by
      have hslots : (enterCut (errorCounted k s)).slots = (latch .cut (clearSlots u)).slots := by simp [enterCut, u]
      rw [State.slot, hslots, get_latch_of_refused hrefused, clearSlots_slots, get_clear]
      rfl
    rw [hslot]
    exact ⟨rfl, rfl, rfl, rfl, rfl⟩
  · have hport : (enterCut (errorCounted k s)).port = (clearSlots u).port := by simp [enterCut, u]
    rw [hport, clearSlots_port]
    rfl
  · have halarms : (enterCut (errorCounted k s)).alarms = (latch .cut (clearSlots u)).alarms := by
      simp [enterCut, u]
    rw [halarms, latch_latched, (by simp : (clearSlots u).alarms = u.alarms)]
    rfl
  · intro hrole hswitch
    have hcapture : (enterCut (errorCounted k s)).audio.capture =
        (latch .cut (clearSlots u)).audio.capture.discard :=
      leaveService_capture (by simpa [u, errorCounted] using hrole) (by simpa [u, errorCounted] using hswitch)
    rw [hcapture]
    exact ⟨rfl, rfl⟩
  · apply State.ext_parts <;> simp [enterCut, errorCounted]
  · have hcmd : (enterCut (errorCounted k s)).cmd = (clearSlots u).cmd := by simp [enterCut, u]
    rw [hcmd, clearSlots_cmd]
    rfl

/-- Settles O5: a loss, a send error that SFC can take, in OPEN or out of it, and one that leads to CUT. -/
theorem unsentMessagesEndAsTheirSlotSays : Obligations.UnsentMessagesEndAsTheirSlotSays :=
  ⟨arbitrationLossIsNoError, sendErrorRaisesSendFaultCount, leavingOpenLatchesStrain, sendErrorAboveLimitEntersCut⟩

end Sys2Proof.Machine
end

