-- ==== Sys2Proof/Proofs/Routing.lean ====
section
/-! PROOF. The hand-over of a message to the intake and the units (R28, R30, R33, R36): what it leaves, what the intake
keeps, and what the command unit does. -/

namespace Sys2Proof.Machine

/-! ### No unit loads the PORT slot -/

theorem loadSlot_portSlot {n : SlotName} (h : n ≠ .port) (c : Content) (s : State) :
    (loadSlot n c s).slots.port = s.slots.port := get_loadSlot_of_ne (Ne.symm h) c s

@[simp] theorem loadAlarm_portSlot (s : State) : (loadAlarm s).slots.port = s.slots.port :=
  loadSlot_portSlot (n := .alarm) nofun ..

@[simp] theorem latch_portSlot (f : Flag) (s : State) : (latch f s).slots.port = s.slots.port :=
  get_latch_of_ne (m := .port) nofun f s

@[simp] theorem arise_portSlot (f : Flag) (s : State) : (arise f s).slots.port = s.slots.port := by
  unfold arise
  split <;> simp

@[simp] theorem setCondition_portSlot (f : Flag) (present : Bool) (s : State) :
    (setCondition f present s).slots.port = s.slots.port := by
  unfold setCondition
  split <;> simp

@[simp] theorem settleLane_portSlot (wasUp : Bool) (run : PixelRun) (s : State) :
    (settleLane wasUp run s).slots.port = s.slots.port := by
  unfold settleLane refreshLane
  split <;> simp

@[simp] theorem setStep_portSlot (v : Fin 4) (s : State) : (setStep v s).slots.port = s.slots.port := by
  unfold setStep
  split <;> simp

@[simp] theorem recompute_portSlot (s : State) : (recompute s).slots.port = s.slots.port := by
  unfold recompute fallToTarget
  split <;> simp

@[simp] theorem loadPower_portSlot (s : State) : (loadPower s).slots.port = s.slots.port := by
  unfold loadPower
  split
  · exact loadSlot_portSlot (n := .power) nofun ..
  · rfl

@[simp] theorem takePower_portSlot (rank : Rank) (body : List Byte) (s : State) :
    (takePower rank body s).slots.port = s.slots.port := by
  unfold takePower recomputeAndAnnounce
  dsimp only
  split
  · rfl
  · split <;> simp

@[simp] theorem takeAudio_portSlot (rank : Rank) (body : List Byte) (s : State) :
    (takeAudio rank body s).slots.port = s.slots.port := by
  have hplace (b : AudioBlock) (s : State) : (placeBlock b s).slots.port = s.slots.port := by
    unfold placeBlock
    dsimp only
    (repeat' split) <;> simp [State.updAudioTo]
  have hstream (b : AudioBlock) (s : State) : (streamBlock b s).slots.port = s.slots.port := by
    unfold streamBlock
    (repeat' split) <;> simp [State.updAudioTo, hplace]
  unfold takeAudio takeBlock
  dsimp only
  (repeat' split) <;> simp [State.updAudioTo, hstream]

@[simp] theorem returnToService_portSlot (s : State) : (returnToService s).slots.port = s.slots.port := by
  have hload (u : State) (hu : u = if s.alarms.unsent = 0 then s else loadAlarm s) : u.slots.port = s.slots.port := by
    rw [hu]
    split <;> simp
  unfold returnToService
  dsimp only
  generalize hgen : (if s.alarms.unsent = 0 then s else loadAlarm s) = u
  split
  · exact hload u hgen.symm
  · exact hload u hgen.symm

@[simp] theorem settleTimelost_portSlot (before : Option Node) (s : State) :
    (settleTimelost before s).slots.port = s.slots.port := by
  unfold settleTimelost
  (repeat' split) <;> simp

@[simp] theorem leaveListening_portSlot (s : State) : (leaveListening s).slots.port = s.slots.port := by
  unfold leaveListening enterRunning rechooseAtEntry refreshLane
  split <;> simp

@[simp] theorem correct_portSlot (e : Int) (s : State) : (correct e s).slots.port = s.slots.port := by
  unfold correct
  (repeat' split) <;> simp

@[simp] theorem recordBeacon_portSlot (b : Beacon) (start : Int) (s : State) :
    (recordBeacon b start s).slots.port = s.slots.port := by
  unfold recordBeacon rechoose
  dsimp only
  split <;> simp

@[simp] theorem takeTime_portSlot (rank : Rank) (body : List Byte) (start : Int) (s : State) :
    (takeTime rank body start s).slots.port = s.slots.port := by
  unfold takeTime takeBeacon
  dsimp only
  (repeat' split) <;> simp

@[simp] theorem handTo_portSlot (u : TakingUnit) (m : Arrival) (s : State) :
    (handTo u m s).slots.port = s.slots.port := by
  cases u <;> simp [handTo]

@[simp] theorem routeMessage_portSlot (m : Arrival) (s : State) : (routeMessage m s).slots.port = s.slots.port := by
  unfold routeMessage deliverTo
  dsimp only
  (repeat' split) <;> simp

/-! ### Where a message goes -/

/-- R30: the model's table of units is the one the statements write out. -/
theorem isSome_unitFor (role : Role) (rank : Rank) : (unitFor role rank).isSome = Stated.hasUnit role rank := by
  unfold unitFor Stated.hasUnit rankClass rankTopic
  split <;> (try split) <;> simp_all

/-- R30: a destination as it acts, for a message that has the unit `u` or none. -/
def actsAs (d : Destination) (u : Option TakingUnit) : Destination :=
  match d, u with
  | .unit, none => .drop
  | .both, none => .queue
  | d, _ => d

theorem acts_eq (s : State) (rank : Rank) :
    Stated.acts s rank = actsAs (s.intake.destination rank) (unitFor s.straps.role rank) := by
  unfold Stated.acts actsAs
  rw [← isSome_unitFor]
  cases unitFor s.straps.role rank <;> cases s.intake.destination rank <;> rfl

theorem receiptTime_eq (agreed : Nat) : receiptTime agreed = BitVec.ofNat 14 (agreed / 256) := by
  rw [receiptTime, Nat.div_div_eq_div_mul]

/-- The intake once a message is counted as taken. -/
def Intake.counted (k : Intake) : Intake := { k with taken := bump k.taken }

theorem takenIn_drop (k : Intake) (m : Arrival) :
    Stated.takenIn k .drop m.rank m.body m.start = { k.counted with dropped := bump k.dropped } := rfl

theorem takenIn_unit (k : Intake) (m : Arrival) : Stated.takenIn k .unit m.rank m.body m.start = k.counted := rfl

/-- R33: what is for the queue is stored if it fits, and overruns else. -/
theorem takenIn_store (k : Intake) {d : Destination} (hd : d = .queue ∨ d = .both) (m : Arrival) :
    Stated.takenIn k d m.rank m.body m.start = k.counted.store (arrivalEntry m) := by
  have hstore : Stated.takenIn k .queue m.rank m.body m.start = k.counted.store (arrivalEntry m) := by
    simp only [Stated.takenIn, ← receiptTime_eq]
    rfl
  obtain rfl | rfl := hd <;> exact hstore

theorem routeMessage_eq (m : Arrival) (s : State) :
    routeMessage m s = deliverTo (s.intake.destination m.rank) (unitFor s.straps.role m.rank) m
      (s.updIntake Intake.counted) := rfl

/-- R30, R33: what the intake keeps of a message, whatever its unit makes of it. -/
theorem routeMessage_intake (m : Arrival) (s : State) :
    (routeMessage m s).intake = Stated.takenIn s.intake (Stated.acts s m.rank) m.rank m.body m.start := by
  rw [routeMessage_eq, acts_eq]
  cases s.intake.destination m.rank <;> cases unitFor s.straps.role m.rank <;>
    simp only [actsAs, deliverTo, handTo_frame, takenIn_drop, takenIn_unit, takenIn_store, true_or, or_true] <;> rfl

/-- R30: a message for the queue or for nowhere touches the intake alone. -/
theorem routeMessage_of_idle {m : Arrival} {s : State}
    (h : Stated.acts s m.rank = .queue ∨ Stated.acts s m.rank = .drop) :
    routeMessage m s =
      { s with intake := Stated.takenIn s.intake (Stated.acts s m.rank) m.rank m.body m.start } := by
  rw [← routeMessage_intake, routeMessage_eq]
  rw [acts_eq] at h
  cases hd : s.intake.destination m.rank <;> cases hu : unitFor s.straps.role m.rank <;>
    simp_all [actsAs] <;> rfl

/-! ### Commands -/

theorem unitFor_of_command (role : Role) {rank : Rank} (h : rank.toNat / 256 = 6) :
    unitFor role rank = some .command := by
  unfold unitFor rankClass
  rw [h]
  rfl

/-- R30, R36: a COMMAND that goes to its unit reaches the command unit, once the intake has what goes to the queue. -/
theorem routeMessage_of_command {m : Arrival} {s : State} (hclass : m.rank.toNat / 256 = 6)
    (hunit : Stated.toUnit s m.rank) :
    routeMessage m s = takeCommand m.rank m.body m.looped
      { s with intake := Stated.takenIn s.intake (Stated.acts s m.rank) m.rank m.body m.start } := by
  rw [routeMessage_eq, acts_eq, unitFor_of_command _ hclass]
  obtain hd | hd := hunit
  · rw [hd]
    rfl
  · rw [hd]
    dsimp only [actsAs]
    rw [takenIn_store _ (.inr rfl)]
    rfl

theorem takeCommand_of_length {rank : Rank} {body : List Byte} (isLocal : Bool) (s : State)
    (h : body.length < 2 ∨ 40 < body.length) :
    takeCommand rank body isLocal s = s.updCmd fun u => { u with malformed := bump u.malformed } := if_pos h

/-- R36: the destination names this station or all of them. -/
theorem addressed_iff (s : State) (body : List Byte) :
    addressed s body = true ↔ (byteAt body 0).toNat = s.straps.node.val ∨ (byteAt body 0).toNat = 255 := by
  have hall : byteAt body 0 = 255 ↔ (byteAt body 0).toNat = 255 :=
    ⟨fun h => by rw [h]; rfl, fun h => BitVec.eq_of_toNat_eq h⟩
  rw [addressed, Bool.or_eq_true, beq_iff_eq, beq_iff_eq, hall, or_comm]

theorem takeCommand_of_elsewhere (rank : Rank) {body : List Byte} (isLocal : Bool) {s : State}
    (h2 : 2 ≤ body.length) (h40 : body.length ≤ 40) (h : ¬ addressed s body = true) :
    takeCommand rank body isLocal s = s := by
  rw [takeCommand, if_neg (by omega), if_neg h]

theorem takeCommand_of_addressed (rank : Rank) {body : List Byte} (isLocal : Bool) {s : State}
    (h2 : 2 ≤ body.length) (h40 : body.length ≤ 40) (h : addressed s body = true) :
    takeCommand rank body isLocal s =
      if admits (BitVec.ofNat 5 (rank.toNat / 8 % 32)) (body.length - 2) then
        enqueueCommand (commandOf rank body isLocal) s
      else countCommandMalformed s := by
  have hlength : (body.drop 2).length = body.length - 2 := List.length_drop ..
  rw [takeCommand, if_neg (by omega), if_pos h, ← hlength]
  rfl

end Sys2Proof.Machine
end

