-- ==== Sys2Proof/Proofs/GoodSends.lean ====
section
/-! PROOF. The end of an own message that ends well (R14, R24, R26, R28, R42, R56, R64). -/

namespace Sys2Proof.Machine

theorem exec_sendEnd {s : State} {x : Transmission} (htx : s.spine.tx = some x) :
    exec .sendEnd s = .next (sendEnd x s) := by
  change execSendEnd s = _
  rw [execSendEnd, htx]

/-- The slot has its outcome and the message is over. -/
def slotFreed (x : Transmission) (s : State) : State := (s.updSlot x.slot (·.finish)).updSpine (·.ended true)

/-- The owner has its SENT, and SFC has fallen. -/
def handedBack (x : Transmission) (s : State) : State :=
  (slotSent x (s.slot x.slot).attempts (slotFreed x s)).updSpine fun p => { p with sfc := p.sfc - 1 }

theorem handedBack_spine (x : Transmission) (s : State) :
    (handedBack x s).spine = { s.spine.ended true with sfc := s.spine.sfc - 1 } := by
  simp [handedBack, slotFreed, Spine.ended]

theorem sendEnd_of_unlooped {x : Transmission} (h : x.loop = false) (s : State) :
    sendEnd x s = settleStanding (handedBack x s) := if_neg (by simp [h])

theorem sendEnd_of_looped {x : Transmission} (h : x.loop = true) (s : State) :
    sendEnd x s = routeMessage (loopArrival x) (settleStanding (handedBack x s)) := if_pos h

/-- R44: where the station does not leave OPEN, the standing taken afresh touches the spine controller alone. -/
theorem settleStanding_handedBack {s : State} (x : Transmission) (hcut : s.spine.standing ≠ .cut)
    (hopen : s.spine.standing = .open → standingOf (s.spine.sfc - 1) s.spine.tfc s.spine.strain = .open) :
    settleStanding (handedBack x s) = (handedBack x s).updSpine fun p =>
      { p with standing := standingOf (s.spine.sfc - 1) s.spine.tfc s.spine.strain } := by
  have h := settleStanding_of_stays (s := handedBack x s) (by rw [handedBack_spine]; exact hcut)
    (by rw [handedBack_spine]; exact hopen)
  rw [h, handedBack_spine]
  rfl

theorem goodSendLowersSendFaultCount : Stated.GoodSendLowersSendFaultCount := by
  intro s x htx hslot hloop hcut standing hopen
  have howner (u : State) : slotSent x (s.slot x.slot).attempts u = u := by
    unfold slotSent
    obtain h | h | h | h := hslot <;> rw [h]
  rw [exec_sendEnd htx, sendEnd_of_unlooped hloop, settleStanding_handedBack x hcut hopen, handedBack, howner]
  rfl

/-- R44: a standing taken afresh can load the ALARM slot, no other. -/
theorem get_settleStanding_of_ne {m : SlotName} (h : m ≠ .alarm) (s : State) :
    (settleStanding s).slots.get m = s.slots.get m := by
  unfold settleStanding
  dsimp only
  split
  · rfl
  · split
    · rfl
    · exact get_latch_of_ne h ..
  · rfl
  · rfl

/-- R24: the slot of the message has its outcome, where the standing taken afresh cannot load it. -/
theorem get_settled_handedBack {x : Transmission} {n : SlotName} (hslot : x.slot = n) (hn : n ≠ .alarm) (s : State) :
    (settleStanding (handedBack x s)).slots.get n = Stated.afterOutcome (s.slots.get n) := by
  have hslots : (handedBack x s).slots = (slotFreed x s).slots := by simp [handedBack]
  rw [get_settleStanding_of_ne hn, hslots]
  refine (get_put ..).trans ?_
  rw [hslot, if_pos rfl]
  rfl

theorem slotSent_of_time {x : Transmission} (h : x.slot = .time) (a : BitVec 8) (s : State) :
    slotSent x a s = beaconSent x.startMoved s := by
  rw [slotSent, h]

theorem slotSent_of_alarm {x : Transmission} (h : x.slot = .alarm) (a : BitVec 8) (s : State) :
    slotSent x a s = alarmSent x.body s := by
  rw [slotSent, h]

theorem slotSent_of_port {x : Transmission} (h : x.slot = .port) (a : BitVec 8) (s : State) :
    slotSent x a s = pushOutcome .sent a s := by
  rw [slotSent, h]

theorem slotSent_of_reply {x : Transmission} (h : x.slot = .reply) (a : BitVec 8) (s : State) :
    slotSent x a s = replyDone s := by
  rw [slotSent, h]

theorem beaconSentRecordsItsStart : Stated.BeaconSentRecordsItsStart := by
  intro s x htx hslot hloop hcut
  have hcut' : (handedBack x s).spine.standing ≠ .cut := by
    rw [handedBack_spine]
    exact hcut
  have hback : handedBack x s =
      (beaconSent x.startMoved (slotFreed x s)).updSpine fun p => { p with sfc := p.sfc - 1 } := by
    rw [handedBack, slotSent_of_time hslot]
  have hspine := settleStanding_spine (handedBack x s)
  rw [if_neg hcut', handedBack_spine] at hspine
  refine ⟨_, exec_sendEnd htx, ?_⟩
  rw [sendEnd_of_unlooped hloop]
  refine ⟨?_, get_settled_handedBack hslot nofun s, by rw [hspine], by rw [hspine]; rfl, ?_, ?_, ?_, ?_⟩
  · rw [(by simp : (settleStanding (handedBack x s)).time = (handedBack x s).time), hback]
    rfl
  · rw [(by simp : (settleStanding (handedBack x s)).port = (handedBack x s).port), hback]
    rfl
  · rw [(by simp : (settleStanding (handedBack x s)).cmd = (handedBack x s).cmd), hback]
    rfl
  · rw [(by simp : (settleStanding (handedBack x s)).loader = (handedBack x s).loader), hback]
    rfl
  · rw [(by simp : (settleStanding (handedBack x s)).power = (handedBack x s).power), hback]
    rfl

/-! ### ALARM messages -/

/-- R184: two bytes spell the number below 2^16 they were made from. -/
theorem fromBytes_beBytes_two {v : Nat} (h : v < 65536) : fromBytes (beBytes 2 v) = v := by
  simp only [beBytes, fromBytes, List.foldl_cons, List.foldl_nil, BitVec.toNat_ofNat]
  omega

theorem carriedFlags_eq {body : List Byte} {carried : FlagMask}
    (h : (body.drop 2).take 2 = beBytes 2 carried.toNat) : carriedFlags body = carried := by
  rw [carriedFlags, fieldAt, h, fromBytes_beBytes_two (by omega), BitVec.ofNat_toNat, BitVec.setWidth_eq]

theorem finish_of_held {sl : Slot} {c : Content} (h : sl.held = some c) :
    sl.finish.state = .pending ∧ sl.finish.content = c := by
  rw [Slot.finish, h]
  exact ⟨rfl, rfl⟩

theorem finish_of_none {sl : Slot} (h : sl.held = none) : sl.finish.state = .empty := by
  rw [Slot.finish, h]

/-- R56: the marks taken by an ALARM message that is SENT. -/
theorem alarmSent_alarms (body : List Byte) (s : State) :
    (alarmSent body s).alarms =
      { s.alarms with
        unsent := s.alarms.unsent &&& ~~~(carriedFlags body &&&
          ~~~(if s.slots.alarm.state = .pending then carriedFlags s.slots.alarm.content.body else 0)) } := rfl

theorem alarmSentClearsMarksCarried : Stated.AlarmSentClearsMarksCarried := by
  intro s x carried htx hslot hloop hcut hstanding hcarried
  have hsettled := settleStanding_handedBack x hcut (fun h => by rw [hstanding, h])
  have hback : handedBack x s =
      (alarmSent x.body (slotFreed x s)).updSpine fun p => { p with sfc := p.sfc - 1 } := by
    rw [handedBack, slotSent_of_alarm hslot]
  have halarm : (slotFreed x s).slots.alarm = s.slots.alarm.finish := by
    refine (get_put _ x.slot .alarm _).trans ?_
    rw [hslot, if_pos rfl]
    rfl
  have hmarks := alarmSent_alarms x.body (slotFreed x s)
  rw [halarm, carriedFlags_eq hcarried] at hmarks
  refine ⟨_, exec_sendEnd htx, ?_⟩
  rw [sendEnd_of_unlooped hloop, hsettled, hback]
  refine ⟨halarm, fun hnone => ?_, fun c again hheld hagain => ?_, rfl⟩
  · rw [finish_of_none hnone, if_neg nofun] at hmarks
    have hall : carried &&& ~~~(0 : FlagMask) = carried := BitVec.and_allOnes
    rw [hall] at hmarks
    exact hmarks
  · obtain ⟨hpending, hcontent⟩ := finish_of_held hheld
    rw [hpending, if_pos rfl, hcontent, carriedFlags_eq hagain] at hmarks
    exact hmarks

/-! ### PORT and REPLY messages -/

theorem replyDone_loader (s : State) :
    (replyDone s).loader =
      { s.loader with
        restartDue := s.loader.restartDue || (s.cmd.answering.map (·.code)) == some 11 } := by
  unfold replyDone
  cases s.cmd.answering with
  | none => simp
  | some c =>
    dsimp only
    split
    · rename_i h
      simp [h, restartCode]
    · rename_i h
      have hcode : (c.code == 11#5) = false := beq_eq_false_iff_ne.mpr h
      simp [hcode]

theorem sentGoesToPortAndCommandUnit : Stated.SentGoesToPortAndCommandUnit := by
  intro s x htx hloop hcut
  refine ⟨fun hslot => ⟨_, exec_sendEnd htx, ?_⟩, fun hslot => ⟨_, exec_sendEnd htx, ?_⟩⟩
  · have hback : handedBack x s =
        (pushOutcome .sent (s.slot x.slot).attempts (slotFreed x s)).updSpine fun p => { p with sfc := p.sfc - 1 } := by
      rw [handedBack, slotSent_of_port hslot]
    rw [sendEnd_of_unlooped hloop]
    refine ⟨?_, get_settled_handedBack hslot nofun s, ?_⟩
    · rw [(by simp : (settleStanding (handedBack x s)).port = (handedBack x s).port), hback, hslot]
      rfl
    · rw [(by simp : (settleStanding (handedBack x s)).cmd = (handedBack x s).cmd), hback]
      rfl
  · have hback : handedBack x s =
        (replyDone (slotFreed x s)).updSpine fun p => { p with sfc := p.sfc - 1 } := by
      rw [handedBack, slotSent_of_reply hslot]
    rw [sendEnd_of_unlooped hloop]
    refine ⟨?_, get_settled_handedBack hslot nofun s, ?_, ?_⟩
    · rw [(by simp : (settleStanding (handedBack x s)).cmd = (handedBack x s).cmd), hback]
      exact replyDone_cmd _
    · rw [(by simp : (settleStanding (handedBack x s)).port = (handedBack x s).port), hback]
      simp [slotFreed]
    · rw [(by simp : (settleStanding (handedBack x s)).loader = (handedBack x s).loader), hback]
      exact replyDone_loader _

/-! ### Looped messages -/

theorem settleStanding_handedBack_port {s : State} {x : Transmission} (hslot : x.slot = .port)
    (hcut : s.spine.standing ≠ .cut)
    (hopen : s.spine.standing = .open → standingOf (s.spine.sfc - 1) s.spine.tfc s.spine.strain = .open) :
    settleStanding (handedBack x s) = Stated.portSent s := by
  rw [settleStanding_handedBack x hcut hopen, handedBack, slotSent_of_port hslot, slotFreed, hslot]
  rfl

theorem loopedMessageReachesTheOwnIntake : Stated.LoopedMessageReachesTheOwnIntake := by
  intro s x htx hslot hloop hcut hopen intake
  have hsend : sendEnd x s = routeMessage (loopArrival x) (Stated.portSent s) := by
    rw [sendEnd_of_looped hloop, settleStanding_handedBack_port hslot hcut hopen]
  refine ⟨⟨_, exec_sendEnd htx, ?_⟩, fun hidle => ?_, fun hunit hclass h2 h40 hdest => ?_⟩
  · rw [hsend]
    exact ⟨routeMessage_intake .., routeMessage_portSlot .., by simp; rfl⟩
  · rw [exec_sendEnd htx, hsend, routeMessage_of_idle (m := loopArrival x) (s := Stated.portSent s) hidle]
    rfl
  · intro code hadmits
    have haddressed : addressed s x.body = true := by
      refine (addressed_iff s x.body).mpr (hdest.imp_right fun h => ?_)
      rw [h]
      rfl
    rw [exec_sendEnd htx, hsend, routeMessage_of_command (m := loopArrival x) (s := Stated.portSent s) hclass hunit]
    have hqueued := takeCommand_of_addressed (s := { Stated.portSent s with intake := intake }) x.rank true h2 h40
      haddressed
    rw [if_pos hadmits] at hqueued
    exact congrArg Host.Outcome.next hqueued

/-- Settles O6: the slot, the count, the owner of each slot, and the own intake for a looped message. -/
theorem goodSendIsHandedToItsOwner : Obligations.GoodSendIsHandedToItsOwner :=
  ⟨goodSendLowersSendFaultCount, beaconSentRecordsItsStart, alarmSentClearsMarksCarried,
    sentGoesToPortAndCommandUnit, loopedMessageReachesTheOwnIntake⟩

end Sys2Proof.Machine
end

