-- ==== Sys2Proof/Proofs/TakenMessages.lean ====
section
/-! PROOF. What a receiver makes of a message: its errors, its take, its own origin (R11 to R14, R18, R19, R29, R36,
R43, R44). -/

namespace Sys2Proof.Machine

theorem receives_of_receiving {s : State} (h : Stated.receiving s) : s.receives = true := (receives_iff s).mpr h

/-! ### Receiver errors -/

/-- R11: the rows by which an error of a kind is classed. -/
theorem exec_of_classes {s : State} {i : Instr} {k : ReceiveErrorKind} (hreceiving : Stated.receiving s)
    (h : Stated.classes i k) : exec i s = .next (receiveError k s) := by
  have hreceives := receives_of_receiving hreceiving
  obtain rfl | ⟨m, rfl, hm⟩ := h
  · exact congrArg Host.Outcome.next (if_pos hreceives)
  · refine congrArg Host.Outcome.next ((if_pos hreceives).trans ?_)
    obtain ⟨rfl, hlong⟩ | ⟨rfl, hshort, hcheck⟩ := hm
    · exact if_pos hlong
    · exact (if_neg (Nat.not_lt.mpr hshort)).trans (if_neg hcheck)

/-- The error is counted, the message over, and TFC has risen. -/
def receiptFailed (k : ReceiveErrorKind) (s : State) : State :=
  s.updSpine fun p => { (p.ended false).countReceiveError k with tfc := min (p.tfc + 1) 255 }

theorem receiptFailed_spine {s : State} (k : ReceiveErrorKind) (htx : s.spine.tx = none) :
    (receiptFailed k s).spine =
      { s.spine with
        tfc := min (s.spine.tfc + 1) 255
        receiving := false
        quietRuns := 0
        lastOwn := false
        drive := .undriven
        shapeErrors := if k = .shape then bump s.spine.shapeErrors else s.spine.shapeErrors
        checkErrors := if k = .check then bump s.spine.checkErrors else s.spine.checkErrors } := by
  cases k <;> simp [receiptFailed, Spine.ended, Spine.countReceiveError, htx]

theorem receiveError_eq (k : ReceiveErrorKind) (s : State) :
    receiveError k s = driveSpoil (settleStanding (receiptFailed k s)) := rfl

/-- R12, R43: the spine controller once the standing is settled and the spoil driven. -/
theorem driveSpoil_settled_spine {s u : State} (k : ReceiveErrorKind) (htx : s.spine.tx = none)
    (hu : u.spine = { (receiptFailed k s).spine with
      standing := standingOf s.spine.sfc (min (s.spine.tfc + 1) 255) s.spine.strain }) :
    (driveSpoil u).spine = Stated.afterReceiveError s.spine k := by
  simp only [driveSpoil, updSpine_spine, hu, receiptFailed_spine k htx, spoilOf_standingOf]
  rfl

theorem receiverErrorMovesTheSpineAlone : Stated.ReceiverErrorMovesTheSpineAlone := by
  intro s i k hreceiving hclass hopen
  have ⟨_, hcut, htx, _⟩ := hreceiving
  have hfailed := receiptFailed_spine k htx
  have hsettled := settleStanding_of_stays (s := receiptFailed k s) (by rw [hfailed]; exact hcut)
    (by rw [hfailed]; exact hopen)
  rw [exec_of_classes hreceiving hclass, receiveError_eq, hsettled,
    ← driveSpoil_settled_spine (u := (receiptFailed k s).updSpine fun p =>
      { p with standing := standingOf s.spine.sfc (min (s.spine.tfc + 1) 255) s.spine.strain }) k htx rfl]
  simp only [hfailed]
  rfl

/-- A count at the strain level or above, the other below 128, makes the standing STRAINED or MUTED. -/
theorem standingOf_of_tfc_strained {sfc tfc level : Nat} (hlevel : level ≤ tfc) (hsfc : sfc < 128) :
    standingOf sfc tfc level = if tfc < 128 then .strained else .muted := by
  unfold standingOf
  by_cases h : tfc < 128
  · rw [if_neg (by omega), if_pos (.inr hlevel), if_pos h]
  · rw [if_pos (by omega), if_neg h]

theorem receiverErrorLeavingOpenLatchesStrain : Stated.ReceiverErrorLeavingOpenLatchesStrain := by
  intro s i k hreceiving hclass hopen hsfc hstrain htfc hlevel
  have ⟨_, _, htx, _⟩ := hreceiving
  have hmin : min (s.spine.tfc + 1) 255 = s.spine.tfc + 1 := Nat.min_eq_left htfc
  have hfailed := receiptFailed_spine k htx
  have hstanding : standingOf s.spine.sfc (min (s.spine.tfc + 1) 255) s.spine.strain =
      if s.spine.tfc + 1 < 128 then .strained else .muted := by
    rw [hmin]
    exact standingOf_of_tfc_strained hstrain (by omega)
  have hne : standingOf s.spine.sfc (min (s.spine.tfc + 1) 255) s.spine.strain ≠ .open := by
    rw [hstanding]
    split <;> nofun
  have hsettled := settleStanding_of_leaves (s := receiptFailed k s) (by rw [hfailed]; exact hopen)
    (by rw [hfailed]; exact hne)
  let u := (receiptFailed k s).updSpine fun p =>
    { p with standing := standingOf s.spine.sfc (min (s.spine.tfc + 1) 255) s.spine.strain }
  have hu : settleStanding (receiptFailed k s) = latch .strain u := by
    rw [hsettled, hfailed]
  have hspine : (driveSpoil (latch .strain u)).spine = Stated.afterReceiveError s.spine k :=
    driveSpoil_settled_spine k htx (by simp [u])
  have halarms : (driveSpoil (latch .strain u)).alarms = (latch .strain u).alarms := rfl
  have hslots : (driveSpoil (latch .strain u)).slots = (latch .strain u).slots := rfl
  refine ⟨_, exec_of_classes hreceiving hclass, ?_⟩
  rw [receiveError_eq, hu, halarms, hslots, hspine]
  refine ⟨rfl, hstanding, fun hlatched => ?_, fun hunlatched => ⟨?_, fun hm => ?_, fun hm hlife => ?_⟩, ?_⟩
  · rw [latch_of_latched (s := u) hlatched]
    exact ⟨rfl, rfl⟩
  · exact latch_alarms (s := u) hunlatched
  · exact latch_slots_of_disabled (s := u) hunlatched hm
  · exact latch_slots_of_enabled (s := u) hunlatched hm hlife (standingOf_ne_cut _ _ _)
  · rw [← hspine]
    apply State.ext_parts <;> simp [driveSpoil, u, receiptFailed]

/-- Settles O7: an error without, and one with, the station's leaving OPEN. -/
theorem receiverErrorRaisesTakeFaultCount : Obligations.ReceiverErrorRaisesTakeFaultCount :=
  ⟨receiverErrorMovesTheSpineAlone, receiverErrorLeavingOpenLatchesStrain⟩

/-! ### A good receipt -/

/-- The message is over, and TFC has fallen. -/
def receiptGood (s : State) : State :=
  s.updSpine fun p => { p.ended false with tfc := goodReceipt p.tfc, drive := .echo }

theorem receiptGood_spine {s : State} (htx : s.spine.tx = none) :
    (receiptGood s).spine =
      { s.spine with
        tfc := Stated.afterReceipt s.spine.tfc
        receiving := false
        quietRuns := 0
        lastOwn := false
        drive := .echo } := by
  simp only [receiptGood, updSpine_spine, Spine.ended, htx]
  rfl

theorem exec_messageTaken {s : State} {m : Received} (hreceiving : Stated.receiving s) (hlength : m.body.length ≤ 40)
    (hcheck : m.check = spineCheck m.rank m.body) : exec (.messageTaken m) s = .next (messageTaken m s) :=
  congrArg Host.Outcome.next ((if_pos (receives_of_receiving hreceiving)).trans
    ((if_neg (Nat.not_lt.mpr hlength)).trans (if_pos hcheck)))

theorem rankOrigin_eq_iff (rank : Rank) (n : Node) : rankOrigin rank = n ↔ rank.toNat % 8 = n.val := by
  rw [rankOrigin, nodeOf, Fin.ext_iff, Fin.val_ofNat, Nat.mod_mod]

theorem messageTaken_of_other {s : State} {m : Received} (h : m.rank.toNat % 8 ≠ s.straps.node.val) :
    messageTaken m s =
      routeMessage (takenArrival m (settleStanding (receiptGood s))) (settleStanding (receiptGood s)) :=
  if_neg (by
    rw [(by simp : (settleStanding (s.updSpine fun p =>
      { p.ended false with tfc := goodReceipt p.tfc, drive := .echo })).straps = s.straps), rankOrigin_eq_iff]
    exact h)

theorem messageTaken_of_own {s : State} {m : Received} (h : m.rank.toNat % 8 = s.straps.node.val) :
    messageTaken m s = duplicateNode (settleStanding (receiptGood s)) :=
  if_pos (by
    rw [(by simp : (settleStanding (s.updSpine fun p =>
      { p.ended false with tfc := goodReceipt p.tfc, drive := .echo })).straps = s.straps), rankOrigin_eq_iff]
    exact h)

/-- R14: the start of a message as it reaches the intake, in a state with the same time unit and straps. -/
theorem takenArrival_start {s u : State} (m : Received) (htime : u.time = s.time) (hstraps : u.straps = s.straps) :
    (takenArrival m u).start = (Stated.startReading s m).read := by
  have hagreed : u.agreed = s.agreed := by simp only [State.agreed, htime]
  simp only [takenArrival, State.readingAt, startAge, htime, hstraps, hagreed]
  unfold Stated.startReading bitTime bit
  cases s.straps.rate <;> rfl

theorem settled_receiptGood (s : State) :
    (settleStanding (receiptGood s)).time = s.time ∧ (settleStanding (receiptGood s)).straps = s.straps ∧
      (settleStanding (receiptGood s)).intake = s.intake := by
  simp [receiptGood]

theorem acts_congr {s u : State} (hstraps : u.straps = s.straps) (hintake : u.intake = s.intake) (rank : Rank) :
    Stated.acts u rank = Stated.acts s rank := by
  simp only [acts_eq, hstraps, hintake]

/-- R30, R33: what the intake keeps of a message taken. -/
theorem messageTaken_intake {s : State} {m : Received} (h : m.rank.toNat % 8 ≠ s.straps.node.val) :
    (messageTaken m s).intake =
      Stated.takenIn s.intake (Stated.acts s m.rank) m.rank m.body (Stated.startReading s m).read := by
  obtain ⟨htime, hstraps, hintake⟩ := settled_receiptGood s
  rw [messageTaken_of_other h, routeMessage_intake, hintake, takenArrival_start m htime hstraps]
  exact congrArg (Stated.takenIn s.intake · m.rank m.body _) (acts_congr hstraps hintake m.rank)

/-- R43, R44: where the station does not leave OPEN, a good receipt touches the spine controller alone. -/
theorem settleStanding_receiptGood {s : State} (hcut : s.spine.standing ≠ .cut) (htx : s.spine.tx = none)
    (hopen : s.spine.standing = .open →
      standingOf s.spine.sfc (Stated.afterReceipt s.spine.tfc) s.spine.strain = .open) :
    settleStanding (receiptGood s) =
      { s with
        spine :=
          { s.spine with
            tfc := Stated.afterReceipt s.spine.tfc
            standing := standingOf s.spine.sfc (Stated.afterReceipt s.spine.tfc) s.spine.strain
            receiving := false
            quietRuns := 0
            lastOwn := false
            drive := .echo } } := by
  have hgood := receiptGood_spine htx
  have h := settleStanding_of_stays (s := receiptGood s) (by rw [hgood]; exact hcut) (by rw [hgood]; exact hopen)
  rw [h]
  simp only [State.updSpine, hgood]
  rfl

theorem takenMessageIsStoredOrDropped : Stated.TakenMessageIsStoredOrDropped := by
  intro s m hreceiving hlength hcheck horigin hstays hidle
  have ⟨_, hcut, htx, _⟩ := hreceiving
  obtain ⟨-, hstraps, hintake⟩ := settled_receiptGood s
  have hsettled := settleStanding_receiptGood hcut htx fun h => hstays.resolve_left fun hne => hne h
  have hroute := routeMessage_of_idle (m := takenArrival m (settleStanding (receiptGood s)))
    (s := settleStanding (receiptGood s)) (by rw [acts_congr hstraps hintake]; exact hidle)
  have htaken : messageTaken m s =
      { settleStanding (receiptGood s) with intake := (messageTaken m s).intake } := by
    rw [messageTaken_of_other horigin, routeMessage_intake]
    exact hroute
  refine ⟨_, exec_messageTaken hreceiving hlength hcheck, ?_, messageTaken_intake horigin, ?_⟩
  · rw [htaken, hsettled]
  · rw [htaken, hsettled]

theorem intakeKeepsWhatGoesToTheQueue : Stated.IntakeKeepsWhatGoesToTheQueue := by
  intro s m hreceiving hlength hcheck horigin
  refine ⟨_, exec_messageTaken hreceiving hlength hcheck, messageTaken_intake horigin, ?_⟩
  rw [messageTaken_of_other horigin]
  simp [receiptGood]

/-! ### The intake table -/

/-- R29: an entry agrees where every bit that its care mask sets has its match value. -/
theorem agrees_iff (e : IntakeEntry) (r : Rank) :
    e.agrees r = true ↔ ∀ b : Fin 12, e.care.getLsbD b = true → r.getLsbD b = e.matchValue.getLsbD b := by
  rw [IntakeEntry.agrees, beq_iff_eq]
  refine ⟨fun h b hcare => ?_, fun h => BitVec.eq_of_getLsbD_eq fun n hn => ?_⟩
  · have hbit := congrArg (·.getLsbD b.val) h
    rw [BitVec.getLsbD_and, BitVec.getLsbD_and, hcare, Bool.and_true, Bool.and_true] at hbit
    exact hbit
  · rw [BitVec.getLsbD_and, BitVec.getLsbD_and]
    cases hcare : e.care.getLsbD n with
    | false => simp
    | true => rw [h ⟨n, hn⟩ hcare]

theorem not_agrees_iff (e : IntakeEntry) (r : Rank) :
    e.agrees r = false ↔ ∃ b : Fin 12, e.care.getLsbD b = true ∧ r.getLsbD b ≠ e.matchValue.getLsbD b := by
  rw [← Bool.not_eq_true, agrees_iff]
  push Not
  rfl

theorem destination_of_find {k : Intake} {r : Rank} {e : IntakeEntry}
    (h : k.table.toList.find? (·.agrees r) = some e) : k.destination r = e.dest := by
  rw [Intake.destination, h]

theorem destination_of_not_found {k : Intake} {r : Rank}
    (h : k.table.toList.find? (·.agrees r) = none) : k.destination r = .drop := by
  rw [Intake.destination, h]

theorem firstAgreeingEntryDecides : Stated.FirstAgreeingEntryDecides := by
  intro k r
  refine ⟨fun i hi hbefore => destination_of_find ?_, fun hnone => destination_of_not_found ?_⟩
  · refine List.find?_eq_some_iff_getElem.mpr ⟨(agrees_iff _ r).mpr hi, i.val, by simp, by simp, fun j hj => ?_⟩
    have hj8 : j < 8 := hj.trans i.isLt
    have hfails := (not_agrees_iff k.table[j] r).mpr (hbefore ⟨j, hj8⟩ hj)
    simpa using hfails
  · refine List.find?_eq_none.mpr fun e he => ?_
    obtain ⟨j, hj, rfl⟩ := List.getElem_of_mem he
    have hj8 : j < 8 := by simpa using hj
    have hfails := (not_agrees_iff k.table[j] r).mpr (hnone ⟨j, hj8⟩)
    simpa using hfails

/-- Settles O8: the take of a message for the queue or for nowhere, of any message, and the table's choice. -/
theorem takenMessageGoesWhereTheTableSays : Obligations.TakenMessageGoesWhereTheTableSays :=
  ⟨takenMessageIsStoredOrDropped, intakeKeepsWhatGoesToTheQueue, firstAgreeingEntryDecides⟩

end Sys2Proof.Machine
end

