-- ==== Sys2Proof/Proofs/OwnOriginAndCommands.lean ====
section
/-! PROOF. A message of the station's own origin (R18, R19), and a COMMAND that arrives from the spine (R36). -/

namespace Sys2Proof.Machine

/-! ### A COMMAND from the spine -/

/-- Settles O10: the message is taken, the intake has what goes to the queue, and the command unit has the COMMAND. -/
theorem arrivingCommandIsQueuedDroppedOrMalformed : Obligations.ArrivingCommandIsQueuedDroppedOrMalformed := by
  unfold Obligations.ArrivingCommandIsQueuedDroppedOrMalformed
  intro s m hreceiving hlength hcheck horigin hclass hunit hstanding code dest good
  have ⟨_, hcut, htx, _⟩ := hreceiving
  obtain ⟨-, hstraps, hintake⟩ := settled_receiptGood s
  obtain ⟨p, hsettled⟩ : ∃ p, settleStanding (receiptGood s) = { s with spine := p } :=
    ⟨_, settleStanding_receiptGood hcut htx fun h => hstanding.trans h⟩
  let v : State := { s with spine := p, intake := (messageTaken m s).intake }
  have htaken : messageTaken m s = takeCommand m.rank m.body false v := by
    have hroute := routeMessage_of_command (m := takenArrival m (settleStanding (receiptGood s)))
      (s := settleStanding (receiptGood s)) hclass (by unfold Stated.toUnit; rw [hintake]; exact hunit)
    rw [← routeMessage_intake, ← messageTaken_of_other horigin] at hroute
    rw [hroute, hsettled]
    rfl
  have haddressed : addressed v m.body = true ↔ good := addressed_iff v m.body
  have hreached (h2 : 2 ≤ m.body.length) (hgood : good) : messageTaken m s =
      if admits code (m.body.length - 2) then enqueueCommand (commandOf m.rank m.body false) v
      else countCommandMalformed v := by
    rw [htaken]
    exact takeCommand_of_addressed m.rank false h2 hlength (haddressed.mpr hgood)
  refine ⟨_, exec_messageTaken hreceiving hlength hcheck, fun h2 => ?_, fun h2 hgood => ?_, fun h2 hgood had => ?_,
    fun h2 hgood had hfull => ?_, fun h2 hgood had hroom => ?_, messageTaken_intake horigin, ?_⟩
  · rw [htaken, takeCommand_of_length false v (.inl h2)]
    rfl
  · rw [htaken, takeCommand_of_elsewhere m.rank false h2 hlength (mt haddressed.mp hgood)]
  · rw [hreached h2 hgood, had]
    rfl
  · rw [hreached h2 hgood, had]
    exact if_neg (Nat.not_lt.mpr hfull)
  · rw [hreached h2 hgood, had]
    exact if_pos hroom
  · rw [htaken]
    apply State.ext_parts <;> simp [v]

/-! ### Events in a station out of service -/

theorem get_arise_of_refused {s : State} (h : s.loadRefused = true) (f : Flag) (m : SlotName) :
    (arise f s).slots.get m = s.slots.get m := by
  unfold arise
  split
  · rfl
  · exact get_latch_of_refused (s := s.updAlarms _) h f m

theorem get_settleStanding_of_refused {s : State} (h : s.loader.life ≠ .running) (m : SlotName) :
    (settleStanding s).slots.get m = s.slots.get m := by
  have hrefused (u : State) (hu : u.loader = s.loader) : u.loadRefused = true := by
    simp [State.loadRefused, hu, h]
  unfold settleStanding
  dsimp only
  split
  · rfl
  · split
    · rfl
    · exact get_latch_of_refused (s := s.updSpine _) (hrefused _ rfl) .strain m
  · rfl
  · rfl

/-! ### Conditions -/

theorem getLsbD_number_mask (f : Flag) : f.mask.getLsbD f.number = true := by
  rw [getLsbD_mask f (by cases f <;> decide), decide_eq_true rfl]

@[simp] theorem loadAlarm_alarms (s : State) : (loadAlarm s).alarms = s.alarms := by simp

theorem latch_present (f : Flag) (s : State) : (latch f s).alarms.present = s.alarms.present := by
  cases h : s.isLatched f with
  | false => rw [latch_alarms h]
  | true => rw [latch_of_latched h]

theorem settleStanding_present (s : State) : (settleStanding s).alarms.present = s.alarms.present := by
  unfold settleStanding
  dsimp only
  split
  · rfl
  · split
    · rfl
    · exact latch_present ..
  · rfl
  · rfl

/-- R50: a condition that arises is present. -/
theorem arise_present (f : Flag) (s : State) : (arise f s).alarms.present.getLsbD f.number = true := by
  unfold arise
  split
  · assumption
  · rw [latch_present]
    simp [getLsbD_number_mask]

/-- R50: a condition that arises latches its flag. -/
theorem arise_latched {f : Flag} {s : State} (h : s.alarms.present.getLsbD f.number = false) :
    (arise f s).alarms.latched.getLsbD f.number = true := by
  have hnot : ¬ has s.alarms.present f = true := by
    rw [has, h]
    nofun
  rw [arise, if_neg hnot, latch_latched, BitVec.getLsbD_or, getLsbD_number_mask, Bool.or_true]

/-! ### The own origin -/

/-- The state in which a duplicate has been counted and DUPNODE has arisen. -/
def duplicateFound (s : State) : State :=
  arise .dupnode (s.updSpine fun p => { p with duplicates := bump p.duplicates })

theorem duplicateNode_eq (s : State) :
    duplicateNode s = if s.loader.life = .running then withdraw (duplicateFound s) else duplicateFound s := rfl

/-- R19: with the station in LISTENING the LANE condition is not present. -/
theorem withdraw_eq (s : State) :
    withdraw s = endCondition .lane (leaveService ((clearSlots (s.updLoader fun l =>
      { l with life := .listening })).updTime fun t => { t with timer := some s.agreed })) := by
  have hagreed : (clearSlots (s.updLoader fun l => { l with life := .listening })).agreed = s.agreed := by
    simp [State.agreed]
  have hlane (u : State) (h : u.loader.life = .listening) : refreshLane u = endCondition .lane u := by
    simp [refreshLane, setCondition, State.laneCondition, h]
  unfold withdraw
  dsimp only
  rw [hlane _ (by simp), hagreed]

theorem withdraw_slot (s : State) (n : SlotName) : (withdraw s).slot n = (s.slot n).clear := by
  have hslots : (withdraw s).slots = s.slots.clear := by
    rw [withdraw_eq]
    simp [clearSlots_slots]
  rw [State.slot, hslots, get_clear]
  rfl

theorem withdraw_alarms (s : State) :
    (withdraw s).alarms = { s.alarms with present := s.alarms.present &&& ~~~Flag.lane.mask } := by
  rw [withdraw_eq]
  simp [endCondition]

/-- Settles O9: the good receipt, the duplicate, and the withdrawal of a RUNNING station. -/
theorem ownOriginWithdrawsStation : Obligations.OwnOriginWithdrawsStation := by
  unfold Obligations.OwnOriginWithdrawsStation
  intro s m hreceiving hlength hcheck horigin
  have ⟨hloading, hcut, htx, _⟩ := hreceiving
  have hgood := receiptGood_spine htx
  let u := settleStanding (receiptGood s)
  let d := duplicateFound u
  have huspine : u.spine = { (receiptGood s).spine with
      standing := standingOf (receiptGood s).spine.sfc (receiptGood s).spine.tfc (receiptGood s).spine.strain } := by
    rw [settleStanding_spine, if_neg (by rw [hgood]; exact hcut)]
  have hlife : u.loader.life = s.loader.life := by simp [u, receiptGood]
  have hdlife : d.loader.life = s.loader.life := by simp [d, duplicateFound, hlife]
  have hdspine : d.spine = { u.spine with duplicates := bump u.spine.duplicates } := by simp [d, duplicateFound]
  have hupresent : u.alarms.present = s.alarms.present := settleStanding_present _
  have hpresent : d.alarms.present.getLsbD 1 = true := arise_present .dupnode _
  have hlatched (h : s.alarms.present.getLsbD 1 = false) : d.alarms.latched.getLsbD 1 = true := by
    rw [← hupresent] at h
    exact arise_latched (s := u.updSpine _) h
  have hrefused (h : s.loader.life ≠ .running) : (u.updSpine fun p =>
      { p with duplicates := bump p.duplicates }).loadRefused = true := by
    simp [State.loadRefused, hlife, h]
  have hspine : d.spine.drive = .echo ∧ d.spine.tfc = Stated.afterReceipt s.spine.tfc ∧ d.spine.sfc = s.spine.sfc ∧
      d.spine.duplicates = bump s.spine.duplicates := by
    rw [hdspine, huspine, hgood]
    exact ⟨rfl, rfl, rfl, rfl⟩
  obtain ⟨hdrive, htfc, hsfc, hduplicates⟩ := hspine
  refine ⟨_, exec_messageTaken hreceiving hlength hcheck, ?_⟩
  rw [messageTaken_of_own horigin, duplicateNode_eq, hlife]
  by_cases hrun : s.loader.life = .running
  · rw [if_pos hrun]
    have hwspine : (withdraw d).spine = d.spine := by simp
    rw [hwspine, withdraw_alarms, withdraw_life]
    refine ⟨hdrive, htfc, hsfc, hduplicates, ?_, hlatched, ?_, rfl, fun _ n => ?_, fun h => ?_, ?_⟩
    · simp [duplicateFound, receiptGood]
    · rw [BitVec.getLsbD_and, hpresent]
      rfl
    · rw [withdraw_slot]
      exact ⟨rfl, rfl, rfl⟩
    · rw [hrun] at h
      cases h
    · simp [duplicateFound, receiptGood]
  · rw [if_neg hrun]
    have hlistening : d.loader.life = .listening := by
      rw [hdlife]
      cases h : s.loader.life with
      | loading => exact absurd h hloading
      | listening => rfl
      | running => exact absurd h hrun
    refine ⟨hdrive, htfc, hsfc, hduplicates, ?_, hlatched, hpresent, hlistening, fun h => absurd h hrun,
      fun _ n => ?_, ?_⟩
    · simp [duplicateFound, receiptGood]
    · have hslot : d.slot n = s.slot n := by
        refine (get_arise_of_refused (hrefused hrun) .dupnode n).trans ?_
        exact get_settleStanding_of_refused (s := receiptGood s) hrun n
      rw [hslot]
    · simp [duplicateFound, receiptGood]

end Sys2Proof.Machine
end

