-- ==== Sys2Proof/Proofs/Status.lean ====
section
/-! PROOF. STATUS (R41): the base block, the eight pages, and the result of each argument. -/

namespace Sys2Proof.Machine

/-! ### Fields -/

theorem flagByte_two (a b : Bool) : flagByte [a, b] = Stated.flags a b false false := by
  cases a <;> cases b <;> rfl

/-- R41: entries of 2 bytes, as the statements list them. -/
theorem entries_eq (cs : List Counter) : entries cs = (cs.map (·.toNat)).flatMap (beBytes 2) := by
  rw [List.flatMap_map]
  rfl

theorem baseBlock_eq_stated (s : State) : baseBlock s = Stated.baseBlock s := by
  simp only [baseBlock, Stated.baseBlock, beBytes_one, flagByte_two]
  rfl

/-! ### Pages -/

theorem statusPage_of_everyRole (s : State) {page : Nat} (h : page ≤ 2) :
    statusPage s page = some ((Stated.commonPage s page).flatMap (beBytes 2)) := by
  obtain rfl | rfl | rfl : page = 0 ∨ page = 1 ∨ page = 2 := by omega
  · exact congrArg some (entries_eq _)
  · have hentries : page1 s = (Stated.commonPage s 1).flatMap (beBytes 2) := by
      simp only [page1, entries_eq, Stated.commonPage]
      rfl
    exact congrArg some hentries
  · exact congrArg some (entries_eq _)

theorem freshEntries_eq_stated (s : State) : s.freshEntries = Stated.freshEntries s s.power.view := by
  unfold State.freshEntries Stated.freshEntries
  congr 1
  funext n
  unfold State.freshEntry State.powerAge
  cases s.power.view[n] with
  | none => rfl
  | some e =>
    by_cases hown : n = s.straps.node
    · exact (if_pos hown).trans (if_pos (.inl hown)).symm
    · simp only [hown, ↓reduceIte, decide_eq_true_eq, false_or]

theorem streamEntries_eq (s : State) :
    beBytes 1 s.audio.state.code ++ beBytes 1 ((s.audio.origin.map (·.val)).getD 255) ++ beBytes 2 s.audio.ring.length =
      Stated.streamEntries s := by
  rw [beBytes_one, beBytes_one]
  unfold Stated.streamEntries
  cases s.audio.state <;> cases s.audio.origin <;> rfl

theorem page7_eq (s : State) : page7 s = (Stated.rolePage s 7).flatMap (beBytes 2) := by
  simp only [page7, entries_eq, freshEntries_eq_stated, Stated.rolePage]
  rfl

theorem page6_eq (s : State) :
    page6 s = (Stated.rolePage s 6).flatMap (beBytes 2) ++ Stated.streamEntries s := by
  have hcounters : entries [s.audio.taken, s.audio.foreign, s.audio.late, s.audio.early, s.audio.old, s.audio.gaps,
      s.audio.resyncs, s.audio.overflows, s.audio.slips, s.audio.underruns, s.audio.captureOverruns] =
      (Stated.rolePage s 6).flatMap (beBytes 2) := entries_eq _
  rw [← hcounters, ← streamEntries_eq]
  simp only [page6, List.append_assoc]

theorem page4Headset_eq (s : State) (h : s.straps.role = .headset) :
    page4Headset s = (Stated.rolePage s 4).flatMap (beBytes 2) := by
  simp only [page4Headset, entries_eq, Stated.rolePage, h]
  rfl

theorem page4Console_eq (s : State) (h : s.straps.role = .console) :
    page4Console s = (Stated.rolePage s 4).flatMap (beBytes 2) := by
  simp only [page4Console, entries_eq, Stated.rolePage, h]
  rfl

theorem statusPage_of_role {s : State} {page : Nat}
    (h : s.straps.role = .headset ∧ 3 ≤ page ∧ page ≤ 7 ∨ s.straps.role = .console ∧ page = 4 ∨ page = 7) :
    statusPage s page = some ((Stated.rolePage s page).flatMap (beBytes 2) ++
      (if page = 6 then Stated.streamEntries s else [])) := by
  have h7 : statusPage s 7 = some ((Stated.rolePage s 7).flatMap (beBytes 2) ++ []) := by
    rw [List.append_nil, ← page7_eq]
    rfl
  obtain ⟨hrole, hlow, hhigh⟩ | ⟨hrole, rfl⟩ | rfl := h
  · obtain rfl | rfl | rfl | rfl | rfl : page = 3 ∨ page = 4 ∨ page = 5 ∨ page = 6 ∨ page = 7 := by omega
    · exact (if_pos hrole).trans (congrArg some ((entries_eq _).trans (List.append_nil _).symm))
    · rw [if_neg (by decide), List.append_nil, ← page4Headset_eq s hrole, statusPage, hrole]
    · exact (if_pos hrole).trans (congrArg some ((entries_eq _).trans (List.append_nil _).symm))
    · exact (if_pos hrole).trans (congrArg some (page6_eq s))
    · exact h7
  · rw [if_neg (by decide), List.append_nil, ← page4Console_eq s hrole, statusPage, hrole]
  · exact h7

/-! ### The command -/

theorem exec_status (s : State) : exec .status s = .next (answerWith (· == 1) answerStatus s) := rfl

theorem statusPage_beginAnswer (c : Command) (rest : List Command) (s : State) (n : Nat) :
    statusPage (beginAnswer c rest s) n = statusPage s n := rfl

/-- R41: STATUS for a page that the role has. -/
theorem status_of_page {s : State} {c : Command} {rest : List Command} {data : List Byte}
    (hpath : Stated.repliesBySpine s c rest) (hcode : c.code = 1)
    (hpage : statusPage s (min (byteAt c.args 0).toNat 7) = some data) :
    exec .status s = .next (Stated.spineReplied s c rest (if 7 < (byteAt c.args 0).toNat then 4 else 0)
      (Stated.baseBlock s ++ data)) := by
  have hanswer : answerStatus c (beginAnswer c rest s) =
      { result := movedResult (decide (7 < (byteAt c.args 0).toNat))
        data := baseBlock s ++ data
        state := beginAnswer c rest s } := by
    simp only [answerStatus, statusPage_beginAnswer, hpage]
    rfl
  rw [exec_status, answerWith_of_repliesBySpine hpath (by simp [hcode]) (by simp [hanswer]) (by simp [hanswer])
    (by simp [hanswer]) (by simp [hanswer]), hanswer, code_movedResult, baseBlock_eq_stated]
  rfl

/-- R41: STATUS for a page whose job the role lacks. -/
theorem status_of_absent {s : State} {c : Command} {rest : List Command}
    (hpath : Stated.repliesBySpine s c rest) (hcode : c.code = 1)
    (hpage : statusPage s (min (byteAt c.args 0).toNat 7) = none) :
    exec .status s = .next (Stated.spineReplied s c rest 1 (Stated.baseBlock s)) := by
  have hanswer : answerStatus c (beginAnswer c rest s) =
      { result := .notHere, data := baseBlock s, state := beginAnswer c rest s } := by
    simp only [answerStatus, statusPage_beginAnswer, hpage]
    rfl
  rw [exec_status, answerWith_of_repliesBySpine hpath (by simp [hcode]) (by simp [hanswer]) (by simp [hanswer])
    (by simp [hanswer]) (by simp [hanswer]), hanswer, baseBlock_eq_stated]
  rfl

theorem toNat_byteAt_of_arg {c : Command} {page : Nat} (hargs : c.args = [BitVec.ofNat 8 page]) (h : page ≤ 7) :
    (byteAt c.args 0).toNat = page := by
  rw [hargs]
  change (BitVec.ofNat 8 page).toNat = page
  rw [BitVec.toNat_ofNat]
  omega

/-- R41: STATUS for a page in 0 to 7 that the role has. -/
theorem status_of_page_within {s : State} {c : Command} {rest : List Command} {page : Nat} {data : List Byte}
    (hpath : Stated.repliesBySpine s c rest) (hcode : c.code = 1) (harg : (byteAt c.args 0).toNat = page)
    (hwithin : page ≤ 7) (hpage : statusPage s page = some data) :
    exec .status s = .next (Stated.spineReplied s c rest 0 (Stated.baseBlock s ++ data)) := by
  rw [status_of_page hpath hcode (by rw [harg, Nat.min_eq_left hwithin]; exact hpage), harg,
    if_neg (Nat.not_lt.mpr hwithin)]

theorem statusReportsPagesOfEveryRole : Stated.StatusReportsPagesOfEveryRole := by
  intro s c rest page hpath hcode hargs hpage
  have harg : (byteAt c.args 0).toNat = page := by
    obtain hargs | ⟨hargs, rfl⟩ := hargs
    · exact toNat_byteAt_of_arg hargs (by omega)
    · rw [hargs]
      rfl
  exact status_of_page_within hpath hcode harg (by omega) (statusPage_of_everyRole s hpage)

theorem statusReportsPagesOfTheRole : Stated.StatusReportsPagesOfTheRole := by
  intro s c rest page hpath hcode hargs hrole
  have hwithin : page ≤ 7 := by
    obtain ⟨-, -, h⟩ | ⟨-, h⟩ | h := hrole <;> omega
  rw [List.append_assoc]
  exact status_of_page_within hpath hcode (toNat_byteAt_of_arg hargs hwithin) hwithin (statusPage_of_role hrole)

theorem statusPageAbsentOrClamped : Stated.StatusPageAbsentOrClamped := by
  intro s c rest arg hpath hcode hargs
  have hbyte : byteAt c.args 0 = arg := by
    rw [hargs]
    rfl
  refine ⟨fun habsent => status_of_absent hpath hcode ?_, fun habove => ⟨page7 s, ?_, ?_⟩⟩
  · rw [hbyte]
    obtain ⟨hrole, rfl | rfl | rfl⟩ | ⟨hrole, rfl⟩ := habsent
    · exact if_neg hrole
    · exact if_neg hrole
    · exact if_neg hrole
    · change statusPage s 4 = none
      rw [statusPage, hrole]
  · rw [status_of_page (data := page7 s) hpath hcode (by rw [hbyte, Nat.min_eq_right habove.le]; rfl), hbyte,
      if_pos habove]
  · obtain ⟨⟨hfree, hqueue⟩, hservice⟩ := hpath
    exact status_of_page_within (s := { s with cmd := { s.cmd with queue := { c with args := [7] } :: rest } })
      (c := { c with args := [7] }) (page := 7) (data := page7 s) ⟨⟨hfree, rfl⟩, hservice⟩ hcode rfl (Nat.le_refl 7) rfl

/-- Settles O11: the pages of every role, of the role, and the arguments that have no page or are moved. -/
theorem statusReportsItsPages : Obligations.StatusReportsItsPages :=
  ⟨statusReportsPagesOfEveryRole, statusReportsPagesOfTheRole, statusPageAbsentOrClamped⟩

end Sys2Proof.Machine
end

