-- ==== Sys2Proof/Proofs/CommandReplies.lean ====
section
/-! PROOF. Commands out of place (R37, R38), the path of a reply (R39, R178), and READ QUEUE (R35). -/

namespace Sys2Proof.Machine

/-! ### Commands out of place -/

theorem exec_unknownCommand (s : State) :
    exec .unknownCommand s = .next (answerWith isUnknown answerUnknown s) := rfl

theorem isUnknown_iff (code : BitVec 5) : isUnknown code = true ↔ code.toNat = 0 ∨ 13 ≤ code.toNat := by
  have hzero : code = 0 ↔ code.toNat = 0 := ⟨fun h => by rw [h]; rfl, fun h => BitVec.eq_of_toNat_eq h⟩
  rw [isUnknown, Bool.or_eq_true, beq_iff_eq, decide_eq_true_iff, hzero]

theorem unknownCodeIsAnsweredUnknown : Stated.UnknownCodeIsAnsweredUnknown := by
  intro s c rest hpath hcode
  rw [exec_unknownCommand, answerWith_of_repliesBySpine hpath ((isUnknown_iff c.code).mpr hcode) rfl rfl rfl rfl]
  rfl

/-- R38: a command that only a HEADSET carries out, elsewhere. -/
theorem answerWith_onHeadset_elsewhere {s : State} {c : Command} {rest : List Command} {is : BitVec 5 → Bool}
    (act : Command → State → Answer) (hpath : Stated.repliesBySpine s c rest) (hcode : is c.code = true)
    (hrole : s.straps.role ≠ .headset) :
    answerWith is (onHeadset act) s = Stated.spineReplied s c rest 1 [] := by
  have hanswer : onHeadset act c (beginAnswer c rest s) =
      { result := .notHere, data := [], state := beginAnswer c rest s } := if_neg hrole
  rw [answerWith_of_repliesBySpine hpath hcode (by simp [hanswer]) (by simp [hanswer]) (by simp [hanswer])
    (by simp [hanswer]), hanswer]
  rfl

/-- R37: the rows of the command unit are its commands' codes, each with its meaning. -/
theorem exec_of_headsetRow {row : Instr × BitVec 5} (h : row ∈ Stated.headsetRows) :
    ∃ act, ∀ s, exec row.1 s = .next (answerWith (· == row.2) (onHeadset act) s) := by
  simp only [Stated.headsetRows, List.mem_cons, List.not_mem_nil, or_false] at h
  obtain rfl | rfl | rfl | rfl | rfl | rfl | rfl := h <;> exact ⟨_, fun _ => rfl⟩

theorem headsetCommandsAreNotHereElsewhere : Stated.HeadsetCommandsAreNotHereElsewhere := by
  intro s c rest row hpath hrow hcode hrole
  obtain ⟨act, hexec⟩ := exec_of_headsetRow hrow
  rw [hexec, answerWith_onHeadset_elsewhere act hpath (by simp [hcode]) hrole]

/-- R38: a row acts only when the unit is FREE and its oldest command has the row's code. -/
theorem answerWith_of_waiting {s : State} {is : BitVec 5 → Bool} (act : Command → State → Answer)
    (h : s.cmd.answering ≠ none ∨ s.cmd.queue = [] ∨ ∃ c rest, s.cmd.queue = c :: rest ∧ is c.code = false) :
    answerWith is act s = s := by
  unfold answerWith
  split
  · rename_i c rest hfree hqueue
    obtain hbusy | hempty | ⟨c', rest', hqueue', hcode⟩ := h
    · exact absurd hfree hbusy
    · rw [hqueue] at hempty
      cases hempty
    · rw [hqueue] at hqueue'
      rw [(List.cons.inj hqueue').1, hcode]
      rfl
  · rfl
  · rfl

theorem commandRowsWaitForTheirCommand : Stated.CommandRowsWaitForTheirCommand := by
  intro s row hrow hwaits
  have hexec : ∃ act, exec row.1 s = .next (answerWith (· == row.2) act s) := by
    obtain hrow | hrow := List.mem_append.mp hrow
    · obtain ⟨act, hexec⟩ := exec_of_headsetRow hrow
      exact ⟨_, hexec s⟩
    · simp only [List.mem_cons, List.not_mem_nil, or_false] at hrow
      obtain rfl | rfl | rfl | rfl | rfl := hrow <;> exact ⟨_, rfl⟩
  obtain ⟨act, hexec⟩ := hexec
  rw [hexec, answerWith_of_waiting act]
  refine hwaits.imp_right (Or.imp_right ?_)
  rintro ⟨c, rest, hqueue, hcode⟩
  exact ⟨c, rest, hqueue, beq_eq_false_iff_ne.mpr hcode⟩

/-- Settles O12: unknown codes, the commands of another role, and rows whose command is not the oldest. -/
theorem commandsOutOfPlaceAreAnsweredSo : Obligations.CommandsOutOfPlaceAreAnsweredSo :=
  ⟨unknownCodeIsAnsweredUnknown, headsetCommandsAreNotHereElsewhere, commandRowsWaitForTheirCommand⟩

/-! ### The path of a reply -/

/-- R38: the oldest command is taken by the row that its code has. -/
theorem answerWith_of_oldest {s : State} {c : Command} {rest : List Command} {is : BitVec 5 → Bool}
    (act : Command → State → Answer) (h : Stated.oldest s c rest) (hcode : is c.code = true) :
    answerWith is act s = deliver c (act c (beginAnswer c rest s)) := by
  obtain ⟨hfree, hqueue⟩ := h
  simp [answerWith, hfree, hqueue, hcode]

theorem replyDone_of_other {s : State} {c : Command} (h : s.cmd.answering = some c) (hcode : c.code ≠ restartCode) :
    replyDone s = s.updCmd fun u => { u with answering := none } := by
  unfold replyDone
  rw [h]
  exact if_neg hcode

theorem replyDone_of_restart {s : State} {c : Command} (h : s.cmd.answering = some c) (hcode : c.code = restartCode) :
    replyDone s =
      (s.updCmd fun u => { u with answering := none }).updLoader fun l => { l with restartDue := true } := by
  unfold replyDone
  rw [h]
  exact if_pos hcode

theorem loadRefused_eq_true_iff (s : State) :
    s.loadRefused = true ↔ s.loader.life ≠ .running ∨ s.spine.standing = .cut := by
  rw [← Bool.not_eq_false, loadRefused_eq_false_iff, not_and_or, not_not]

/-- R39: a spine reply that cannot be loaded is discarded, and the unit is FREE. -/
theorem deliver_of_refused {s : State} {c : Command} {rest : List Command} {a : Answer}
    (hstate : a.state = beginAnswer c rest s) (hpath : c.isLocal = false) (hrefused : s.loadRefused = true)
    (hcode : c.code ≠ restartCode) :
    deliver c a =
      { s with cmd := { s.cmd with queue := rest, answering := none, discarded := bump s.cmd.discarded } } := by
  have hspine : deliver c a = replyDone ((beginAnswer c rest s).updCmd fun u =>
      { u with discarded := bump u.discarded }) := by
    simp only [deliver, hpath, hstate]
    exact if_pos hrefused
  rw [hspine, replyDone_of_other (c := c) rfl hcode]
  rfl

theorem refusedReplyIsDiscarded : Stated.RefusedReplyIsDiscarded := by
  intro s i c rest holdest hpath hout hrow
  have hrefused := (loadRefused_eq_true_iff s).mpr hout
  obtain ⟨rfl, hcode⟩ | ⟨rfl, hcode⟩ | ⟨rfl, hcode⟩ := hrow
  · have hstate : (answerStatus c (beginAnswer c rest s)).state = beginAnswer c rest s := by
      unfold answerStatus
      dsimp only
      split <;> rfl
    rw [exec_status, answerWith_of_oldest _ holdest (by simp [hcode]),
      deliver_of_refused hstate hpath hrefused (by rw [hcode]; decide)]
  · have hexec : exec .readTime s = .next (answerWith (· == 12) answerReadTime s) := rfl
    rw [hexec, answerWith_of_oldest _ holdest (by simp [hcode]),
      deliver_of_refused (s := s) rfl hpath hrefused (by rw [hcode]; decide)]
  · have hother : c.code ≠ restartCode := fun h => by
      rw [h] at hcode
      exact absurd hcode (by decide)
    rw [exec_unknownCommand, answerWith_of_oldest _ holdest ((isUnknown_iff _).mpr (.inr hcode)),
      deliver_of_refused (s := s) rfl hpath hrefused hother]

/-- R40: a reply as an entry of the intake queue. -/
theorem localEntry_eq (s : State) (c : Command) (r : Result) (data : List Byte) :
    localEntry s c (replyBody c r data) =
      { rank := Stated.replyRank s c
        body := Stated.replyBody c r.code data
        time := BitVec.ofNat 14 (s.agreed / 256)
        restartReply := c.code == restartCode } := by
  rw [localEntry, replyBody_eq_stated, receiptTime_eq]
  rfl

/-- A reply without data takes 8 bytes of the intake queue. -/
theorem size_localEntry (s : State) (c : Command) (r : Result) : (localEntry s c (replyBody c r [])).size = 8 := by
  simp [localEntry, QueueEntry.size, entrySize, replyBody]

theorem store_localEntry (s : State) (c : Command) (r : Result) (k : Intake) :
    k.store (localEntry s c (replyBody c r [])) =
      if k.used + 8 ≤ 1024 then { k with queue := k.queue ++ [localEntry s c (replyBody c r [])] }
      else { k with overrun := true, overruns := bump k.overruns } := by
  rw [Intake.store, size_localEntry]

theorem fits_localEntry (s : State) (c : Command) (r : Result) (k : Intake) :
    k.fits (localEntry s c (replyBody c r [])) = decide (k.used + 8 ≤ 1024) := by
  rw [Intake.fits, size_localEntry]

/-- R39: a local reply without data that is done at once. -/
theorem deliver_of_local_done {c : Command} {r : Result} {u : State} (hlocal : c.isLocal = true)
    (h : ¬ (u.intake.used + 8 ≤ 1024 ∧ c.code = restartCode)) :
    deliver c { result := r, data := [], state := u } = replyDone
      { u with
        intake :=
          if u.intake.used + 8 ≤ 1024 then
            { u.intake with queue := u.intake.queue ++ [localEntry u c (replyBody c r [])] }
          else { u.intake with overrun := true, overruns := bump u.intake.overruns } } := by
  have hmark : (u.intake.fits (localEntry u c (replyBody c r [])) &&
      (localEntry u c (replyBody c r [])).restartReply) = false := by
    rw [← Bool.not_eq_true, Bool.and_eq_true, fits_localEntry, decide_eq_true_iff]
    exact fun hboth => h ⟨hboth.1, beq_iff_eq.mp hboth.2⟩
  simp only [deliver, hlocal, localReply, hmark, ← store_localEntry]
  rfl

/-- R39: the local reply to a RESTART that is stored is done when its entry is freed. -/
theorem deliver_of_local_stored {c : Command} {r : Result} {u : State} (hlocal : c.isLocal = true)
    (hroom : u.intake.used + 8 ≤ 1024) (hcode : c.code = restartCode) :
    deliver c { result := r, data := [], state := u } =
      { u with
        intake := { u.intake with queue := u.intake.queue ++ [localEntry u c (replyBody c r [])] } } := by
  have hmark : (u.intake.fits (localEntry u c (replyBody c r [])) &&
      (localEntry u c (replyBody c r [])).restartReply) = true := by
    rw [fits_localEntry, decide_eq_true hroom]
    exact beq_iff_eq.mpr hcode
  have hstore := store_localEntry u c r u.intake
  rw [if_pos hroom] at hstore
  simp only [deliver, hlocal, localReply, hmark, ← hstore]
  rfl

theorem localReplyGoesToIntakeQueue : Stated.LocalReplyGoesToIntakeQueue := by
  rintro s c rest ⟨holdest, hlocal⟩ hcode
  have hother : c.code ≠ restartCode := fun h => by
    rw [h] at hcode
    exact absurd hcode (by decide)
  have hdone := deliver_of_local_done (r := .unknown) (u := beginAnswer c rest s) hlocal fun h => hother h.2
  rw [replyDone_of_other (c := c) rfl hother, localEntry_eq, beq_eq_false_iff_ne.mpr hother] at hdone
  rw [exec_unknownCommand, answerWith_of_oldest _ holdest ((isUnknown_iff _).mpr (.inr hcode))]
  exact congrArg Host.Outcome.next hdone

theorem exec_restart (s : State) : exec .restart s = .next (answerWith (· == 11) answerRestart s) := rfl

theorem restartWaitsForItsReply : Stated.RestartWaitsForItsReply := by
  intro s c rest holdest hcode
  refine ⟨fun hpath => ?_, fun hlocal hroom => ?_, fun hlocal hfull => ?_⟩
  · rw [exec_restart, answerWith_of_repliesBySpine hpath (by simp [hcode]) rfl rfl rfl rfl]
    rfl
  · have hstored := deliver_of_local_stored (r := .done) (u := beginAnswer c rest s) hlocal hroom hcode
    rw [localEntry_eq, (beq_iff_eq (b := restartCode)).mpr hcode] at hstored
    rw [exec_restart, answerWith_of_oldest _ holdest (by simp [hcode])]
    exact congrArg Host.Outcome.next hstored
  · have hroom : ¬ (beginAnswer c rest s).intake.used + 8 ≤ 1024 := Nat.not_le.mpr hfull
    have hdone := deliver_of_local_done (r := .done) hlocal fun h => hroom h.1
    rw [replyDone_of_restart (c := c) rfl hcode, if_neg hroom] at hdone
    rw [exec_restart, answerWith_of_oldest _ holdest (by simp [hcode])]
    exact congrArg Host.Outcome.next hdone

/-- Settles O13: a reply discarded, a local reply, and the reply to RESTART. -/
theorem repliesTakeTheirPath : Obligations.RepliesTakeTheirPath :=
  ⟨refusedReplyIsDiscarded, localReplyGoesToIntakeQueue, restartWaitsForItsReply⟩

/-! ### READ QUEUE -/

theorem exec_readQueue (s : State) : exec .readQueue s = .next (answerWith (· == 10) answerReadQueue s) := rfl

/-- R35: the arguments 0 and 1 are taken as they are. -/
theorem answerReadQueue_of_flags {c : Command} {part clear : Bool}
    (hargs : c.args = [if part then 1 else 0, if clear then 1 else 0]) (s : State) :
    answerReadQueue c s =
      { result := (readPart part s).result
        data := (readPart part s).data
        state :=
          if clear then (readPart part s).state.updIntake fun k => { k with overrun := false }
          else (readPart part s).state } := by
  unfold answerReadQueue
  rw [hargs]
  cases part <;> cases clear <;> rfl

theorem headBytes_eq_stated (e : QueueEntry) : headBytes e = Stated.head e := rfl

theorem entryFreed_of_plain {e : QueueEntry} (h : e.restartReply = false) (s : State) : entryFreed e s = s := by
  rw [entryFreed, h]
  rfl

/-- R35, R38, R39: READ QUEUE, its part having changed the intake alone. -/
theorem readQueue_of_part {s : State} {c : Command} {rest : List Command} {part clear : Bool} {r : Result}
    {data : List Byte} {k : Intake} (hpath : Stated.repliesBySpine s c rest) (hcode : c.code = 10)
    (hargs : c.args = [if part then 1 else 0, if clear then 1 else 0])
    (hpart : readPart part (beginAnswer c rest s) =
      { result := r, data := data, state := (beginAnswer c rest s).updIntake fun _ => k }) :
    exec .readQueue s = .next (Stated.spineReplied
      { s with intake := { k with overrun := if clear then false else k.overrun } } c rest r.code data) := by
  have hanswer := answerReadQueue_of_flags hargs (beginAnswer c rest s)
  rw [hpart] at hanswer
  have hstate : (answerReadQueue c (beginAnswer c rest s)).state = (beginAnswer c rest s).updIntake fun _ =>
      { k with overrun := if clear then false else k.overrun } := by
    rw [hanswer]
    cases clear <;> rfl
  rw [exec_readQueue, answerWith_of_repliesBySpine hpath (by simp [hcode]) (by rw [hstate]; rfl) (by rw [hstate]; rfl)
    (by rw [hstate]; rfl) (by rw [hstate]; rfl), hstate, hanswer]
  rfl

theorem readPart_of_first {s : State} {e : QueueEntry} {q : List QueueEntry} (h : s.intake.queue = e :: q) :
    readPart false s = readFirst e q s := by
  rw [readPart, h]
  rfl

theorem readPart_of_second {s : State} {e : QueueEntry} {q : List QueueEntry} (h : s.intake.queue = e :: q)
    (hsplit : s.intake.split = true) :
    readPart true s =
      { result := .done
        data := headBytes e ++ [readFlags s false] ++ e.body.drop 32
        state := freeHead e q s } := by
  rw [readPart, h]
  exact if_pos hsplit

theorem readPart_of_nothing {s : State} {part : Bool}
    (h : s.intake.queue = [] ∨ part = true ∧ s.intake.split = false) : readPart part s = readNothing s := by
  unfold readPart
  split
  · rfl
  · rename_i e q hqueue
    obtain hempty | ⟨rfl, hsplit⟩ := h
    · rw [hqueue] at hempty
      cases hempty
    · rw [if_pos rfl, readSecond, hsplit]
      rfl

theorem freeHead_of_plain {e : QueueEntry} (h : e.restartReply = false) (q : List QueueEntry) (s : State) :
    freeHead e q s = s.updIntake fun _ => { s.intake with queue := q, split := false } := by
  rw [freeHead, entryFreed_of_plain h]
  rfl

theorem readFlags_eq (s : State) (more : Bool) : readFlags s more = Stated.flags s.intake.overrun more false false :=
  flagByte_two ..

/-- Settles O14: part 0 on a short and on a long body, part 1, and nothing to return. -/
theorem readQueueReturnsHeadEntry : Obligations.ReadQueueReturnsHeadEntry := by
  unfold Obligations.ReadQueueReturnsHeadEntry
  intro s c rest part clear hpath hcode hargs k
  refine ⟨fun e q hqueue hplain hpart hshort => ?whole, fun e q hqueue hpart hlong => ?first,
    fun e q hqueue hplain hpart hsplit => ?second, fun hnothing => ?nothing⟩
  case whole =>
    have hread : readPart part (beginAnswer c rest s) =
        { result := .done
          data := Stated.head e ++ [Stated.flags s.intake.overrun false false false] ++ e.body
          state := (beginAnswer c rest s).updIntake fun _ => { s.intake with queue := q, split := false } } := by
      rw [hpart, readPart_of_first (s := beginAnswer c rest s) hqueue, readFirst,
        decide_eq_false (Nat.not_lt.mpr hshort), List.take_of_length_le hshort, readFlags_eq, freeHead_of_plain hplain]
      rfl
    exact readQueue_of_part hpath hcode hargs hread
  case first =>
    have hread : readPart part (beginAnswer c rest s) =
        { result := .done
          data := Stated.head e ++ [Stated.flags s.intake.overrun true false false] ++ e.body.take 32
          state := (beginAnswer c rest s).updIntake fun _ => { s.intake with split := true } } := by
      rw [hpart, readPart_of_first (s := beginAnswer c rest s) hqueue, readFirst, decide_eq_true hlong, readFlags_eq]
      rfl
    exact readQueue_of_part hpath hcode hargs hread
  case second =>
    have hread : readPart part (beginAnswer c rest s) =
        { result := .done
          data := Stated.head e ++ [Stated.flags s.intake.overrun false false false] ++ e.body.drop 32
          state := (beginAnswer c rest s).updIntake fun _ => { s.intake with queue := q, split := false } } := by
      rw [hpart, readPart_of_second (s := beginAnswer c rest s) hqueue hsplit, readFlags_eq, freeHead_of_plain hplain]
      rfl
    exact readQueue_of_part hpath hcode hargs hread
  case nothing =>
    have hread : readPart part (beginAnswer c rest s) =
        { result := .empty
          data := [Stated.flags s.intake.overrun false false false]
          state := (beginAnswer c rest s).updIntake fun _ => s.intake } := by
      rw [readPart_of_nothing (s := beginAnswer c rest s) hnothing, readNothing, readFlags_eq]
      rfl
    exact readQueue_of_part hpath hcode hargs hread

end Sys2Proof.Machine
end

