-- ==== Sys2Proof/Proofs/Firings.lean ====
section
/-! PROOF. The schedule: a due REPEAT entry fires once for the dues passed (R74), COUNTED entries count (R75), and what
each firing does (R63, R77, R79, R85, R111, R130, R165, R183). -/

namespace Sys2Proof.Machine

/-! ### The entry that fires -/

/-- A search that only one element of the list answers. -/
theorem findSome?_of_single {α β : Type} {f : α → Option β} {l : List α} {a : α} (ha : a ∈ l)
    (hother : ∀ x ∈ l, x ≠ a → f x = none) : l.findSome? f = f a := by
  induction l with
  | nil => cases ha
  | cons x xs ih =>
    rw [List.findSome?_cons]
    by_cases hx : x = a
    · rw [hx]
      cases hfa : f a with
      | some b => rfl
      | none =>
        by_cases hmem : a ∈ xs
        · exact (ih hmem fun y hy => hother y (List.mem_cons_of_mem x hy)).trans hfa
        · exact List.findSome?_eq_none_iff.mpr fun y hy =>
            hother y (List.mem_cons_of_mem x hy) fun h => hmem (h ▸ hy)
    · rw [hother x List.mem_cons_self hx]
      exact ih ((List.mem_cons.mp ha).resolve_left (Ne.symm hx)) fun y hy => hother y (List.mem_cons_of_mem x hy)

theorem mem_allEntries (i : Fin 8) : i ∈ allEntries := by
  revert i
  decide

theorem repeatOf_of_single {k : Schedule} {a : Action} {i : Fin 8} {period phase due : Nat}
    (hentry : k.entries[i] = { action := a, mode := .repeating period phase due })
    (hother : ∀ m : Fin 8, m ≠ i → k.entries[m].action ≠ a) : k.repeatOf a = some (i, period, phase, due) := by
  rw [Schedule.repeatOf, findSome?_of_single (mem_allEntries i) fun m _ hm => if_neg (hother m hm)]
  rw [hentry]
  exact if_pos rfl

theorem dueEntry_of_due {s : State} {a : Action} {i : Fin 8} {period phase j0 j : Nat}
    (h : Stated.due s a i period phase j0 j) : s.dueEntry a = some (i, period, phase, phase + j0 * period) := by
  obtain ⟨hlife, hperiod, hentry, hother, hj0, hreached, -⟩ := h
  have hdue : phase + j0 * period ≤ s.agreed :=
    (Nat.add_le_add_left (Nat.mul_le_mul_right period hj0) phase).trans hreached
  rw [State.dueEntry, repeatOf_of_single hentry hother]
  exact if_pos ⟨hlife, Nat.ne_of_gt hperiod, hdue⟩

/-! ### The schedule after a firing -/

/-- R74: agreed time lies from due time `j` up to the one after. -/
theorem latestDue_eq {agreed period phase j : Nat} (hperiod : 0 < period) (hreached : phase + j * period ≤ agreed)
    (hnext : agreed < phase + (j + 1) * period) : latestDue agreed period phase = j := by
  rw [latestDue, Nat.div_eq_iff hperiod]
  rw [Nat.add_mul, Nat.one_mul] at hnext
  omega

theorem fireEntry_of_due {s : State} {a : Action} {i : Fin 8} {period phase j0 j : Nat}
    (h : Stated.due s a i period phase j0 j) :
    fireEntry i period phase (phase + j0 * period) s =
      countFiring i j (act a j { s with sched := Stated.fired s.sched a i period phase j0 j }) := by
  obtain ⟨-, hperiod, hentry, -, -, hreached, hnext⟩ := h
  have hskipped : (phase + j0 * period - phase) / period = j0 := by
    rw [Nat.add_sub_cancel_left, Nat.mul_div_cancel _ hperiod]
  simp only [fireEntry, latestDue_eq hperiod hreached hnext, hskipped, hentry]
  rfl

/-- R74: the firing of a due entry, before the entries that count it. -/
theorem fire_of_due {s : State} {a : Action} {i : Fin 8} {period phase j0 j : Nat}
    (h : Stated.due s a i period phase j0 j) :
    fire a s = countFiring i j (act a j { s with sched := Stated.fired s.sched a i period phase j0 j }) := by
  rw [fire, dueEntry_of_due h, ← fireEntry_of_due h]

theorem entries_fired {k : Schedule} {a : Action} {i m : Fin 8} {period phase j0 j : Nat} :
    (Stated.fired k a i period phase j0 j).entries[m] =
      if m = i then { action := a, mode := .repeating period phase (phase + (j + 1) * period) } else k.entries[m] := by
  simp only [Stated.fired, Fin.getElem_fin, Vector.getElem_set, Fin.ext_iff, eq_comm]

/-! ### Entries that count -/

/-- R75: entry `m` does not count the firings of entry `source`, or has no action. -/
def Schedule.IdleFollower (k : Schedule) (source m : Fin 8) : Prop :=
  ∀ src n progress, k.entries[m].mode = .counted src n progress → src = source → k.entries[m].action = .none

theorem countEntry_of_idle {source m : Fin 8} {s : State} (j : Nat) (h : s.sched.IdleFollower source m) :
    countEntry source j s m = s := by
  unfold countEntry
  dsimp only
  split
  · rfl
  · rename_i src n progress hmode
    exact if_neg fun hboth => hboth.2 (h src n progress hmode hboth.1)

theorem Schedule.IdleFollower.of_entry {k k' : Schedule} {source m : Fin 8} (h : k.IdleFollower source m)
    (hentry : k'.entries[m] = k.entries[m]) : k'.IdleFollower source m := by
  unfold Schedule.IdleFollower
  rw [hentry]
  exact h

/-- The entry that fires is one with REPEAT fields, and the others are as they were. -/
theorem idleFollower_fired {k : Schedule} (a : Action) {i m : Fin 8} (period phase j0 j : Nat)
    (h : k.IdleFollower i m) : (Stated.fired k a i period phase j0 j).IdleFollower i m := by
  by_cases hm : m = i
  · intro src n progress hmode
    rw [entries_fired, if_pos hm] at hmode
    cases hmode
  · exact h.of_entry (by rw [entries_fired, if_neg hm])

theorem foldl_of_idle {σ α : Type} {f : σ → α → σ} {t : σ} {l : List α} (h : ∀ x ∈ l, f t x = t) :
    l.foldl f t = t := by
  induction l with
  | nil => rfl
  | cons x xs ih =>
    rw [List.foldl_cons, h x List.mem_cons_self]
    exact ih fun y hy => h y (List.mem_cons_of_mem x hy)

/-- A fold in which one element alone does something, before and after which the others do nothing. -/
theorem foldl_of_single {σ α : Type} {f : σ → α → σ} {t : σ} {a : α} {l : List α} (ha : a ∈ l) (hl : l.Nodup)
    (hbefore : ∀ x ∈ l, x ≠ a → f t x = t) (hafter : ∀ x ∈ l, x ≠ a → f (f t a) x = f t a) :
    l.foldl f t = f t a := by
  induction l with
  | nil => cases ha
  | cons x xs ih =>
    obtain ⟨hx, hxs⟩ := List.nodup_cons.mp hl
    rw [List.foldl_cons]
    by_cases hxa : x = a
    · rw [hxa]
      exact foldl_of_idle fun y hy => hafter y (List.mem_cons_of_mem x hy) fun h => hx (by rw [hxa, ← h]; exact hy)
    · rw [hbefore x List.mem_cons_self hxa]
      exact ih ((List.mem_cons.mp ha).resolve_left (Ne.symm hxa)) hxs
        (fun y hy => hbefore y (List.mem_cons_of_mem x hy)) fun y hy => hafter y (List.mem_cons_of_mem x hy)

/-- R75: no entry counts the firing. -/
theorem fire_of_noFollower {s : State} {a : Action} {i : Fin 8} {period phase j0 j : Nat}
    (h : Stated.due s a i period phase j0 j) (hno : Stated.noFollower s i) :
    fire a s = act a j { s with sched := Stated.fired s.sched a i period phase j0 j } := by
  rw [fire_of_due h, countFiring]
  refine foldl_of_idle fun m _ => countEntry_of_idle j ?_
  rw [(by simp : ∀ s, (act a j s).sched = s.sched)]
  exact idleFollower_fired a period phase j0 j fun src n progress hmode hsrc => hno m src n progress hmode hsrc

/-- R75: the progress of a COUNTED entry after a firing that it counts. -/
def nextProgress (n progress : Nat) : Nat := if progress + 1 = n then 0 else progress + 1

theorem countUp_eq {n progress : Nat} (h : progress < n) :
    countUp n progress = (nextProgress n progress, decide (progress + 1 = n)) := by
  unfold countUp nextProgress
  by_cases hlast : progress + 1 = n
  · rw [if_neg (by omega), if_pos hlast, decide_eq_true hlast]
  · rw [if_pos (by omega), if_neg hlast, decide_eq_false hlast]

/-- The schedule once entry `k` has counted a firing of entry `i`. -/
def Schedule.counted (t : Schedule) (k : Fin 8) (b : Action) (i : Fin 8) (n progress : Nat) : Schedule :=
  { t with entries := t.entries.set k { action := b, mode := .counted i n (nextProgress n progress) } }

theorem countEntry_of_follower {t : State} {i k : Fin 8} {b : Action} {n progress : Nat} (j : Nat)
    (hentry : t.sched.entries[k] = { action := b, mode := .counted i n progress }) (hb : b ≠ .none)
    (h : progress < n) :
    countEntry i j t k =
      if progress + 1 = n then act b j { t with sched := t.sched.counted k b i n progress }
      else { t with sched := t.sched.counted k b i n progress } := by
  have hupdated : (t.updEntry k fun e => { e with mode := .counted i n (nextProgress n progress) }) =
      { t with sched := t.sched.counted k b i n progress } := by
    simp only [State.updEntry, State.updSched, hentry]
    rfl
  simp only [countEntry, hentry, countUp_eq h, hupdated, decide_eq_true_eq]
  exact if_pos ⟨trivial, hb⟩

theorem entries_counted {t : Schedule} {k m i : Fin 8} {b : Action} {n progress : Nat} :
    (t.counted k b i n progress).entries[m] =
      if m = k then { action := b, mode := .counted i n (nextProgress n progress) } else t.entries[m] := by
  simp only [Schedule.counted, Fin.getElem_fin, Vector.getElem_set, Fin.ext_iff, eq_comm]

/-- R75: one entry alone counts the firing. -/
theorem fire_of_follower {s t : State} {a b : Action} {i k : Fin 8} {period phase j0 j n progress : Nat}
    (h : Stated.due s a i period phase j0 j)
    (hentry : s.sched.entries[k] = { action := b, mode := .counted i n progress }) (hb : b ≠ .none)
    (hprogress : progress < n)
    (hother : ∀ k' src n' p', k' ≠ k → s.sched.entries[k'].mode = .counted src n' p' → src = i →
      s.sched.entries[k'].action = .none)
    (ht : act a j { s with sched := Stated.fired s.sched a i period phase j0 j } = t) :
    fire a s =
      if progress + 1 = n then act b j { t with sched := t.sched.counted k b i n progress }
      else { t with sched := t.sched.counted k b i n progress } := by
  have hki : k ≠ i := by
    rintro rfl
    obtain ⟨-, -, hrepeat, -⟩ := h
    rw [hrepeat] at hentry
    cases hentry
  have hsched : t.sched = Stated.fired s.sched a i period phase j0 j := by simp [← ht]
  have hidle (m : Fin 8) (hm : m ≠ k) : t.sched.IdleFollower i m := by
    rw [hsched]
    exact idleFollower_fired a period phase j0 j fun src n p => hother m src n p hm
  have hfollower : t.sched.entries[k] = { action := b, mode := .counted i n progress } := by
    rw [hsched, entries_fired, if_neg hki, hentry]
  have hcount := countEntry_of_follower j hfollower hb hprogress
  have hkept : (countEntry i j t k).sched = t.sched.counted k b i n progress := by
    rw [hcount]
    split <;> simp
  rw [fire_of_due h, countFiring, ht, ← hcount]
  refine foldl_of_single (mem_allEntries k) (by decide) (fun m _ hm => countEntry_of_idle j (hidle m hm))
    fun m _ hm => countEntry_of_idle j ?_
  rw [hkept]
  exact (hidle m hm).of_entry (by rw [entries_counted, if_neg hm])

/-! ### Rows -/

/-- R76: a firing row fires its action's REPEAT entry. -/
theorem exec_of_firingRow {row : Instr × Action} (h : row ∈ Stated.firingRows) (s : State) :
    exec row.1 s = .next (fire row.2 s) := by
  simp only [Stated.firingRows, List.mem_cons, List.not_mem_nil, or_false] at h
  obtain rfl | rfl | rfl | rfl | rfl | rfl := h <;> rfl

theorem repeatOf_spec {k : Schedule} {a : Action} {i : Fin 8} {period phase due : Nat}
    (h : k.repeatOf a = some (i, period, phase, due)) :
    k.entries[i] = { action := a, mode := .repeating period phase due } := by
  obtain ⟨m, -, hm⟩ := List.exists_of_findSome?_eq_some h
  split at hm
  · rename_i haction
    split at hm
    · rename_i p ph d hmode
      obtain ⟨rfl, rfl, rfl, rfl⟩ : m = i ∧ p = period ∧ ph = phase ∧ d = due := by simpa using hm
      rw [← haction, ← hmode]
    · cases hm
  · cases hm

/-- R74: a row whose entry is not due does nothing. -/
theorem fire_of_not_due {s : State} {a : Action}
    (h : s.loader.life = .loading ∨ (∀ k : Fin 8, s.sched.entries[k].action ≠ a) ∨
      ∀ (k : Fin 8) (period phase due : Nat),
        s.sched.entries[k] = { action := a, mode := .repeating period phase due } → s.agreed < due) :
    fire a s = s := by
  have hnot : s.dueEntry a = none := by
    unfold State.dueEntry
    cases hrepeat : s.sched.repeatOf a with
    | none => rfl
    | some found =>
      obtain ⟨i, period, phase, due⟩ := found
      have hentry := repeatOf_spec hrepeat
      refine if_neg fun ⟨hlife, _, hdue⟩ => ?_
      obtain hloading | hnone | hlater := h
      · exact hlife hloading
      · exact hnone i (by rw [hentry])
      · exact absurd (hlater i period phase due hentry) (Nat.not_lt.mpr hdue)
  rw [fire, hnot]

theorem firingTakesDueToFirstAfterNow : Stated.FiringTakesDueToFirstAfterNow := by
  refine ⟨fun s row i period phase j0 j hrow hdue hno => ⟨_, exec_of_firingRow hrow s, ?_⟩, fun s row hrow h => ?_⟩
  · rw [fire_of_noFollower hdue hno]
    simp
  · rw [exec_of_firingRow hrow, fire_of_not_due h]

/-! ### What the units do at a firing -/

theorem act_poseReport (j : Nat) (s : State) : act .poseReport j s = firePoseReport s := rfl

/-- R85: with a pose entry, in service, the POSE slot is loaded. -/
theorem firePoseReport_of_newest {s : State} {p : PoseEntry} (hnewest : s.motion.newest = some p)
    (hlife : s.loader.life = .running) (hcut : s.spine.standing ≠ .cut) :
    firePoseReport s = { s with slots :=
      { s.slots with pose := s.slots.pose.load (ownContent s 3 0 (poseBody p s.dials)) } } := by
  have hload := (loadRefused_eq_false_iff s).mpr ⟨hlife, hcut⟩
  rw [firePoseReport, hnewest]
  exact (if_pos hlife).trans (loadSlot_of_taken hload .pose _)

theorem exec_sample (s : State) : exec .sample s = .next (fire .sample s) := rfl

theorem countedEntryFiresOnEveryNth : Stated.CountedEntryFiresOnEveryNth := by
  intro s i k period phase j0 j n progress hdue hentry hprogress hother hlife hcut hhistory
  let t : State := fireSample { s with sched := Stated.fired s.sched .sample i period phase j0 j }
  let u : State := { t with sched := t.sched.counted k .poseReport i n progress }
  have hhist : u.motion.history = s.motion.history := by
    have hmotion (m : Motion) (r : Option SensorRead) : (if m.reading.isSome then { m with overlaps := bump m.overlaps }
        else { m with reading := r }).history = m.history := by
      split <;> rfl
    exact hmotion s.motion _
  obtain ⟨p, hnewest⟩ : ∃ p, u.motion.newest = some p := by
    rw [Motion.newest, hhist]
    exact ⟨_, List.getLast?_eq_some_getLast hhistory⟩
  have hloaded := firePoseReport_of_newest (s := u) hnewest hlife hcut
  have hcounted : u.sched.entries[k] =
      { action := .poseReport, mode := .counted i n (nextProgress n progress) } := by
    rw [entries_counted, if_pos rfl]
  have hfire : fire .sample s = if progress + 1 = n then firePoseReport u else u :=
    fire_of_follower (t := t) hdue hentry nofun hprogress hother rfl
  refine ⟨_, by rw [exec_sample, hfire], ?_⟩
  by_cases hlast : progress + 1 = n
  · rw [if_pos hlast, hloaded]
    refine ⟨hcounted, fun h => absurd hlast h, fun _ hempty => ?_, rfl, rfl⟩
    change (s.slots.pose.load _).state = .pending
    rw [load_of_empty hempty]
  · rw [if_neg hlast]
    exact ⟨hcounted, fun _ => rfl, fun h => absurd h hlast, rfl, rfl⟩

theorem portStatusBytes_eq (s : State) : portStatusBytes s = Stated.portStatus s := by
  simp only [portStatusBytes, Stated.portStatus, beBytes_one, flagByte_two, entries_eq]
  rfl

theorem countedPortStatusFollowsFrame : Stated.CountedPortStatusFollowsFrame := by
  intro s i k period phase j0 j n progress hdue hentry hprogress hother hrole fired
  let t : State :=
    { s with
      sched := fired
      laneTx := { s.laneTx with frameNumber := BitVec.ofNat 32 j, leftNext := true } }
  have hframe : act .frame j { s with sched := fired } = t := by
    change fireFrame j { s with sched := fired } = _
    rw [fireFrame]
    simp only [hrole]
    rfl
  have hfire := fire_of_follower hdue hentry nofun hprogress hother hframe
  have hstatus (u : State) : act .portStatus j u =
      { u with port := { u.port with status := some (Stated.portStatus u) } } := by
    rw [← portStatusBytes_eq]
    rfl
  have hexec : exec .frame s = .next (fire .frame s) := rfl
  rw [hexec, hfire, hstatus]
  by_cases hlast : progress + 1 = n
  · simp only [if_pos hlast, Schedule.counted, nextProgress]
    rfl
  · simp only [if_neg hlast, Schedule.counted, nextProgress]
    rfl

/-- Settles O17: the firing row and its schedule, and the two entries that count in the statement. -/
theorem entriesFireWhenDueOrCounted : Obligations.EntriesFireWhenDueOrCounted :=
  ⟨firingTakesDueToFirstAfterNow, countedEntryFiresOnEveryNth, countedPortStatusFollowsFrame⟩

/-! ### BEACON -/

theorem beaconBody_eq (s : State) : ownContent s 1 0 (beaconBody s) = Stated.beaconContent s := by
  have hmodulus : ((256 ^ 4 : Nat) : Int) = 2 ^ 32 := by norm_num
  simp only [ownContent, beaconBody, Stated.beaconContent, beBits, beInt, beBytes_one, flagByte_two, mkRank, hmodulus,
    BitVec.ofNat_toNat, BitVec.setWidth_eq]
  cases s.time.prevStart <;> rfl

theorem exec_beacon (s : State) : exec .beacon s = .next (fire .beacon s) := rfl

/-- Settles O18: LISTENING, CUT, a SENDING slot, and the two loads. -/
theorem beaconFiringLoadsTimeSlot : Obligations.BeaconFiringLoadsTimeSlot := by
  unfold Obligations.BeaconFiringLoadsTimeSlot
  intro s i period phase j0 j hdue hno
  have hloading := hdue.1
  rw [exec_beacon, fire_of_noFollower hdue hno]
  generalize Stated.fired s.sched .beacon i period phase j0 j = fired
  refine congrArg Host.Outcome.next ?_
  dsimp only
  let u : State := { s with sched := fired }
  change fireBeacon u = _
  cases hlife : s.loader.life with
  | loading => exact absurd hlife hloading
  | listening => exact if_neg (by simp [u, hlife])
  | running =>
    rw [if_neg nofun, fireBeacon, if_pos (show u.loader.life = .running from hlife)]
    by_cases hcut : s.spine.standing = .cut
    · have hrefused : u.loadRefused = true := (loadRefused_eq_true_iff u).mpr (.inr hcut)
      rw [if_pos hcut, if_neg fun h => h.1 hcut, loadSlot_of_refused hrefused]
      rfl
    · have htaken : u.loadRefused = false := (loadRefused_eq_false_iff u).mpr ⟨hlife, hcut⟩
      rw [if_neg hcut]
      cases hstate : s.slots.time.state with
      | sending =>
        rw [if_pos ⟨hcut, rfl⟩]
        rfl
      | pending =>
        rw [if_neg (by simp), loadSlot_of_taken htaken, beaconBody_eq]
        simp only [State.updSlot, State.updSlots, Slots.get, Slots.put, Slot.load, u, hstate]
        rfl
      | empty =>
        rw [if_neg (by simp), loadSlot_of_taken htaken, beaconBody_eq]
        simp only [State.updSlot, State.updSlots, Slots.get, Slots.put, Slot.load, u, hstate]
        rfl

/-! ### FRAME -/

theorem creditBody_eq (s : State) : ownContent s 2 0 (creditBody s) = Stated.creditContent s := by
  simp only [ownContent, creditBody, Stated.creditContent, mkRank, beBits, beBytes_one, BitVec.ofNat_toNat,
    BitVec.setWidth_eq]

/-- R111: CREDIT loaded in service. -/
theorem loadCredit_of_taken {s : State} (h : s.loadRefused = false) :
    loadCredit s =
      { s with
        slots := { s.slots with credit := s.slots.credit.load (Stated.creditContent s) }
        laneRx :=
          { s.laneRx with
            eyes :=
              { left := { s.laneRx.eyes.left with lastLoaded := some s.laneRx.eyes.left.horizon }
                right := { s.laneRx.eyes.right with lastLoaded := some s.laneRx.eyes.right.horizon } }
            creditLoads := bump s.laneRx.creditLoads } } := by
  rw [loadCredit, h, loadSlot_of_taken h, creditBody_eq]
  rfl

theorem exec_frame (s : State) : exec .frame s = .next (fire .frame s) := rfl

/-- Settles O19: a HEADSET's scan, dials and CREDIT, and a CONSOLE's alternation. -/
theorem frameFiringTicksEveryUnit : Obligations.FrameFiringTicksEveryUnit := by
  unfold Obligations.FrameFiringTicksEveryUnit
  intro s i period phase j0 j hdue hno
  rw [exec_frame, fire_of_noFollower hdue hno]
  refine ⟨fun hrole hlife hcut => ?_, fun hrole => ?_⟩
  · change Host.Outcome.next (fireFrame j _) = _
    rw [fireFrame]
    simp only [hrole]
    exact congrArg Host.Outcome.next (loadCredit_of_taken
      ((loadRefused_eq_false_iff (latchDials (frameTick j _))).mpr ⟨hlife, hcut⟩))
  · change Host.Outcome.next (fireFrame j _) = _
    rw [fireFrame]
    simp only [hrole]
    rfl

/-! ### Reads and reports -/

theorem poseBody_eq (s : State) (p : PoseEntry) :
    ownContent s 3 0 (poseBody p s.dials) =
      { rank := BitVec.ofNat 12 (3 * 256 + s.straps.node.val)
        body := beBytes 2 p.sequence.toNat ++ beBytes 4 (p.stamp % 2 ^ 32) ++
          beBytes 4 p.angles.yaw.toNat ++ beBytes 4 p.angles.pitch.toNat ++
          beBytes 4 p.angles.roll.toNat ++ beInt 4 p.increments.yaw ++ beInt 4 p.increments.pitch ++
          beInt 4 p.increments.roll ++ beInt 2 s.dials.e0.frameValue ++ beInt 2 s.dials.e1.frameValue ++
          [Stated.flags p.held p.saturated false false]
        singleShot := false
        loop := false } := by
  simp only [ownContent, poseBody, mkRank, beBits, low32, BitVec.toNat_ofNat, flagByte_two]

theorem sampleAndPoseReportFirings : Stated.SampleAndPoseReportFirings := by
  intro s i period phase j0 j hno
  have hexec : exec .poseReportRepeatFiring s = .next (fire .poseReport s) := rfl
  refine ⟨fun hdue => ?_, fun hdue => ⟨fun hhistory => ?_, fun hhistory hlife => ?_,
    fun older p hhistory hlife hcut => ?_⟩⟩
  · rw [exec_sample, fire_of_noFollower hdue hno]
    rfl
  · have hnewest : s.motion.newest = none := by rw [Motion.newest, hhistory]; rfl
    rw [hexec, fire_of_noFollower hdue hno, act_poseReport, firePoseReport]
    simp only [hnewest]
    rfl
  · obtain ⟨p, hnewest⟩ : ∃ p, s.motion.newest = some p := ⟨_, List.getLast?_eq_some_getLast hhistory⟩
    rw [hexec, fire_of_noFollower hdue hno, act_poseReport, firePoseReport]
    simp only [hnewest, hlife]
    rfl
  · have hnewest : s.motion.newest = some p := by rw [Motion.newest, hhistory, List.getLast?_concat]
    have hloaded := firePoseReport_of_newest
      (s := { s with sched := Stated.fired s.sched .poseReport i period phase j0 j })
      hnewest hlife hcut
    rw [poseBody_eq] at hloaded
    rw [hexec, fire_of_noFollower hdue hno]
    exact congrArg Host.Outcome.next hloaded

theorem powerReportAndPortStatusFirings : Stated.PowerReportAndPortStatusFirings := by
  intro s i period phase j0 j hno
  have hpower : exec .powerReport s = .next (fire .powerReport s) := rfl
  have hport : exec .portStatus s = .next (fire .portStatus s) := rfl
  refine ⟨fun hdue => ?_, fun hdue => ?_⟩
  · rw [hpower, fire_of_noFollower hdue hno]
    rfl
  · rw [hport, fire_of_noFollower hdue hno]
    change Host.Outcome.next (formPortStatus _) = _
    rw [formPortStatus, portStatusBytes_eq]
    rfl

/-- Settles O20: the four firings that start a read or form a report. -/
theorem readsAndReportsFire : Obligations.ReadsAndReportsFire :=
  ⟨sampleAndPoseReportFirings, powerReportAndPortStatusFirings⟩

end Sys2Proof.Machine
end

