-- ==== Sys2Proof/Proofs/References.lean ====
section
/-! PROOF. Time records, their freshness, and the choice of the reference (R65, R67, R69). -/

namespace Sys2Proof.Machine

/-! ### Fresh records -/

theorem isSome_freshRecord (s : State) (o : Node) : (s.freshRecord o).isSome = true ↔ Stated.fresh s o := by
  unfold State.freshRecord Stated.fresh State.recordFresh
  cases h : s.time.table[o] with
  | none => simp
  | some r => simp

theorem freshRecord_eq_some_iff (s : State) (o : Node) (r : TimeRecord) :
    s.freshRecord o = some r ↔
      s.time.table[o] = some r ∧ (s.agreed : Int) < r.lastHeard + 4 * s.beaconPeriod := by
  unfold State.freshRecord State.recordFresh
  cases h : s.time.table[o] with
  | none => simp
  | some x =>
    simp only [decide_eq_true_eq, Option.ite_none_right_eq_some, Option.some.injEq]
    constructor
    · rintro ⟨hfresh, rfl⟩
      exact ⟨rfl, hfresh⟩
    · rintro ⟨rfl, hfresh⟩
      exact ⟨hfresh, rfl⟩

theorem beaconPeriod_congr {s t : State} (h : t.sched = s.sched) : t.beaconPeriod = s.beaconPeriod := by
  simp only [State.beaconPeriod, h]

/-- R61, R65: freshness is kept where agreed time and the record's times move together. -/
theorem fresh_of_moved {s t : State} {o : Node} {d : Int} (hsched : t.sched = s.sched)
    (htable : t.time.table[o] = s.time.table[o].map (·.moved d)) (hagreed : (t.agreed : Int) = s.agreed + d) :
    Stated.fresh t o ↔ Stated.fresh s o := by
  unfold Stated.fresh
  rw [htable, beaconPeriod_congr hsched, hagreed]
  constructor
  · rintro ⟨r, hr, hfresh⟩
    obtain ⟨r', hr', rfl⟩ := Option.map_eq_some_iff.mp hr
    refine ⟨r', hr', ?_⟩
    simp only [TimeRecord.moved] at hfresh
    omega
  · rintro ⟨r, hr, hfresh⟩
    refine ⟨r.moved d, by rw [hr]; rfl, ?_⟩
    simp only [TimeRecord.moved]
    omega

theorem fresh_congr {s t : State} {o : Node} (hsched : t.sched = s.sched)
    (htable : t.time.table[o] = s.time.table[o]) (hagreed : t.agreed = s.agreed) :
    Stated.fresh t o ↔ Stated.fresh s o := by
  unfold Stated.fresh
  rw [htable, beaconPeriod_congr hsched, hagreed]

/-! ### The choice -/

/-- The first node of which a property holds is the lowest one. -/
theorem find?_allNodes_eq_some_iff {p : Node → Bool} {r : Node} :
    allNodes.find? p = some r ↔ p r = true ∧ ∀ r', p r' = true → r ≤ r' := by
  have hall : allNodes = List.finRange 8 := by decide
  rw [hall]
  constructor
  · intro h
    obtain ⟨hr, i, hi, hri, hbefore⟩ := List.find?_eq_some_iff_getElem.mp h
    refine ⟨hr, fun r' hr' => ?_⟩
    by_contra hlt
    have hval : i = r.val := by
      have hfin := congrArg Fin.val hri
      rwa [List.getElem_finRange] at hfin
    have hr'i : r'.val < i := by
      rw [hval]
      exact Fin.lt_def.mp (not_le.mp hlt)
    have hnot := hbefore r'.val hr'i
    rw [List.getElem_finRange] at hnot
    simp [hr'] at hnot
  · rintro ⟨hr, hleast⟩
    refine List.find?_eq_some_iff_getElem.mpr ⟨hr, r.val, by simp, by simp, fun j hj => ?_⟩
    rw [List.getElem_finRange, Bool.not_eq_true']
    by_contra hj'
    rw [Bool.not_eq_false] at hj'
    have hle := hleast _ hj'
    exact absurd (Fin.le_def.mp hle) (by simpa using hj)

theorem find?_allNodes_eq_none_iff {p : Node → Bool} :
    allNodes.find? p = none ↔ ∀ r, p r = false := by
  rw [List.find?_eq_none]
  constructor
  · intro h r
    exact Bool.not_eq_true _ ▸ h r (by revert r; decide)
  · intro h r _
    rw [h r]
    nofun

/-- R67: a station out of LOADING may follow a node, in RUNNING only one below its own. -/
theorem mayFollow_iff {s : State} (hlife : s.loader.life ≠ .loading) (o : Node) :
    s.mayFollow o = true ↔ (s.loader.life = .running → o < s.straps.node) := by
  unfold State.mayFollow
  cases h : s.loader.life with
  | loading => exact absurd h hlife
  | listening => simp
  | running => simp

theorem mayFollow_and_fresh_iff {s : State} (hlife : s.loader.life ≠ .loading) (o : Node) :
    (s.mayFollow o && (s.freshRecord o).isSome) = true ↔
      Stated.fresh s o ∧ (s.loader.life = .running → o < s.straps.node) := by
  rw [Bool.and_eq_true, mayFollow_iff hlife, isSome_freshRecord, and_comm]

/-- R67: the lowest fresh origin that the station may follow. -/
theorem chosen_eq_some_iff {s : State} (hlife : s.loader.life ≠ .loading) (r : Node) :
    s.chosen = some r ↔ Stated.fresh s r ∧ (s.loader.life = .running → r < s.straps.node) ∧
      ∀ r', Stated.fresh s r' → (s.loader.life = .running → r' < s.straps.node) → r ≤ r' := by
  rw [State.chosen, find?_allNodes_eq_some_iff, mayFollow_and_fresh_iff hlife, and_assoc]
  simp only [mayFollow_and_fresh_iff hlife, and_imp]

theorem chosen_eq_none {s : State} (hrunning : s.loader.life = .running)
    (hnone : ∀ o, o < s.straps.node → ¬ Stated.fresh s o) : s.chosen = none := by
  refine find?_allNodes_eq_none_iff.mpr fun r => ?_
  rw [← Bool.not_eq_true, mayFollow_and_fresh_iff (by rw [hrunning]; nofun)]
  exact fun h => hnone r (h.2 hrunning) h.1

/-- R67: an origin that is fresh and may be followed, with no lower one fresh. -/
theorem chosen_eq_some_of_lowest {s : State} (hlife : s.loader.life ≠ .loading) {o : Node} (hfresh : Stated.fresh s o)
    (hmay : s.loader.life = .running → o < s.straps.node) (hlower : ∀ o', o' < o → ¬ Stated.fresh s o') :
    s.chosen = some o :=
  (chosen_eq_some_iff hlife o).mpr ⟨hfresh, hmay, fun r' hr' _ => not_lt.mp fun hlt => hlower r' hlt hr'⟩

/-! ### Taking the choice over -/

/-- The time unit with the reference chosen again (R67), and its count of losses (R69). -/
def TimeUnit.rechosen (t : TimeUnit) (new : Option Node) (losses : Counter) : TimeUnit :=
  { t with
    reference := new
    corrected := if new = t.reference then t.corrected else false
    refChanges := if new = t.reference then t.refChanges else bump t.refChanges
    refLosses := losses }

theorem takeReference_time (s : State) : (takeReference s).time = s.time.rechosen s.chosen s.time.refLosses := by
  unfold takeReference TimeUnit.rechosen
  dsimp only
  by_cases h : s.chosen = s.time.reference
  · rw [if_pos h, if_pos h, if_pos h, h]
  · rw [if_neg h, if_neg h, if_neg h]
    rfl

theorem settleTimelost_time (before : Option Node) (s : State) :
    (settleTimelost before s).time =
      { s.time with
        refLosses :=
          if s.time.reference = none ∧ s.loader.life = .running ∧ before.isSome = true then bump s.time.refLosses
          else s.time.refLosses } := by
  unfold settleTimelost
  split
  · rename_i o h
    rw [if_neg (by rw [h]; nofun)]
    rfl
  · rename_i h
    by_cases hlost : s.loader.life = .running ∧ before.isSome = true
    · rw [if_pos hlost, if_pos ⟨h, hlost⟩]
      simp
    · rw [if_neg hlost, if_neg fun hall => hlost hall.2]

/-- R67, R69: the time unit when the reference is chosen again. -/
theorem settled_reference_time (before : Option Node) (s : State) :
    (settleTimelost before (takeReference s)).time = s.time.rechosen s.chosen
      (if s.chosen = none ∧ s.loader.life = .running ∧ before.isSome = true then bump s.time.refLosses
        else s.time.refLosses) := by
  rw [settleTimelost_time, takeReference_time]
  simp [TimeUnit.rechosen]

/-- R69: with another origin as reference TIMELOST ends, and nothing is latched. -/
theorem settleTimelost_of_reference {s : State} {o : Node} (h : s.time.reference = some o) (before : Option Node) :
    settleTimelost before s = endCondition .timelost s := by
  rw [settleTimelost, h]

/-- R69: a station that does not fall back on itself in RUNNING latches nothing. -/
theorem settleTimelost_latched {s : State} {before : Option Node}
    (h : ¬ (s.loader.life = .running ∧ before.isSome = true)) :
    (settleTimelost before s).alarms.latched = s.alarms.latched := by
  unfold settleTimelost
  split
  · rfl
  · rw [if_neg h]

theorem takeReference_alarms (s : State) : (takeReference s).alarms = s.alarms := by simp

end Sys2Proof.Machine
end

