-- ==== Sys2Proof/Proofs/Beacons.lean ====
section
/-! PROOF. The take of a beacon: one that does not pair is recorded, one that pairs with the reference corrects agreed
time (R61, R62, R65 to R68, R70). -/

namespace Sys2Proof.Machine

/-! ### A beacon reaches the time unit -/

theorem routeMessage_of_time {m : Arrival} {s : State} (hclass : m.rank.toNat / 256 = 1)
    (hunit : Stated.toUnit s m.rank) :
    routeMessage m s = takeTime m.rank m.body m.startMoved
      { s with intake := Stated.takenIn s.intake (Stated.acts s m.rank) m.rank m.body m.start } := by
  have hunitFor : unitFor s.straps.role m.rank = some .time := by
    unfold unitFor rankClass
    rw [hclass]
    rfl
  rw [routeMessage_eq, acts_eq, hunitFor]
  obtain hd | hd := hunit
  · rw [hd]
    rfl
  · rw [hd]
    dsimp only [actsAs]
    rw [takenIn_store _ (.inr rfl)]
    rfl

/-- R14, R61: the start of a message as moved by the corrections since. -/
theorem takenArrival_startMoved {s u : State} (m : Received) (htime : u.time = s.time) (hstraps : u.straps = s.straps) :
    (takenArrival m u).startMoved = Stated.startMoved s m := by
  have hagreed : u.agreed = s.agreed := by simp only [State.agreed, htime]
  simp only [takenArrival, State.readingAt, startAge, htime, hstraps, hagreed]
  unfold Stated.startMoved Stated.startReading bitTime bit
  cases s.straps.rate <;> rfl

theorem toNat_beaconRank (o : Node) : (BitVec.ofNat 12 (256 + o.val)).toNat = 256 + o.val := by
  rw [BitVec.toNat_ofNat]
  omega

/-- The beacon that a body carries for origin `o`. -/
def beaconFrom (o : Node) (body : List Byte) : Beacon where
  origin := o
  number := byteAt body 0
  previous := BitVec.ofNat 32 (fieldAt body 1 4)
  reference := Fin.ofNat 8 (byteAt body 5).toNat
  hasReference := (byteAt body 6).getLsbD 0
  listening := (byteAt body 6).getLsbD 1

/-- R65: a well-formed beacon of another origin is taken. -/
theorem takeTime_of_beacon {rank : Rank} {body : List Byte} {o : Node} {u : State} (start : Int)
    (hformed : timeMalformed rank body = false) (horigin : rankOrigin rank = o) (hother : o ≠ u.straps.node) :
    takeTime rank body start u = takeBeacon (beaconFrom o body) start u := by
  rw [takeTime, hformed, horigin, if_neg nofun, if_neg hother, beaconOf, horigin]
  rfl

/-- R14, R30, R65: a beacon of another origin, received well, is taken. -/
theorem exec_beaconTaken {s : State} {m : Received} {o : Node} (h : Stated.beacon s m o) :
    ∃ p k, exec (.messageTaken m) s =
      .next (takeBeacon (beaconFrom o m.body) (Stated.startMoved s m) { s with spine := p, intake := k }) := by
  obtain ⟨hreceiving, hcheck, hrank, hother, hlength, hnode, hunit, hstanding⟩ := h
  have ⟨_, hcut, htx, _⟩ := hreceiving
  have htoNat : m.rank.toNat = 256 + o.val := by rw [hrank, toNat_beaconRank]
  have horigin : m.rank.toNat % 8 ≠ s.straps.node.val := by
    rw [htoNat]
    exact fun heq => hother (Fin.ext (by omega))
  obtain ⟨htime, hstraps, hintake⟩ := settled_receiptGood s
  obtain ⟨p, hsettled⟩ : ∃ p, settleStanding (receiptGood s) = { s with spine := p } :=
    ⟨_, settleStanding_receiptGood hcut htx fun h => hstanding.trans h⟩
  have hroute := routeMessage_of_time (m := takenArrival m (settleStanding (receiptGood s)))
    (s := settleStanding (receiptGood s)) (show m.rank.toNat / 256 = 1 by omega)
    (by unfold Stated.toUnit; rw [hintake]; exact hunit)
  have hformed : timeMalformed m.rank m.body = false := by
    have htopic : rankTopic m.rank = 0 := by rw [rankTopic, htoNat]; omega
    simp only [timeMalformed, hlength, htopic]
    simpa using hnode
  have hto : rankOrigin m.rank = o := (rankOrigin_eq_iff m.rank o).mpr (by omega)
  rw [takenArrival_startMoved m htime hstraps, ← routeMessage_intake, ← messageTaken_of_other horigin,
    hsettled] at hroute
  have htake := takeTime_of_beacon (u := { s with spine := p, intake := (messageTaken m s).intake })
    (Stated.startMoved s m) hformed hto hother
  exact ⟨p, _, (exec_messageTaken hreceiving (by omega) hcheck).trans
    (congrArg Host.Outcome.next (hroute.trans htake))⟩

/-! ### Pairing -/

/-- R66, step 1: the beacon pairs with the record held for its origin. -/
theorem pairedRecord_eq_some_iff (s : State) (m : Received) (o : Node) (r : TimeRecord) :
    pairedRecord (beaconFrom o m.body) s = some r ↔ s.time.table[o] = some r ∧ Stated.pairs s m o := by
  have hnumber (x y : Byte) : x = y - 1 ↔ x + 1 = y := by
    constructor
    · rintro rfl
      exact BitVec.sub_add_cancel ..
    · rintro rfl
      exact (BitVec.add_sub_cancel ..).symm
  unfold pairedRecord
  change (match s.freshRecord o with | none => none | some r => _) = some r ↔ _
  cases hrecord : s.freshRecord o with
  | none =>
    refine ⟨nofun, fun ⟨_, hpairs, _⟩ => ?_⟩
    rw [← isSome_freshRecord, hrecord] at hpairs
    cases hpairs
  | some x =>
    obtain ⟨htable, hx⟩ := (freshRecord_eq_some_iff s o x).mp hrecord
    simp only [Option.ite_none_right_eq_some, Option.some.injEq]
    constructor
    · rintro ⟨⟨hn, hl⟩, rfl⟩
      refine ⟨htable, ⟨x, htable, hx⟩, fun r hr => ?_, hl⟩
      rw [htable] at hr
      rw [← Option.some.inj hr]
      exact (hnumber _ _).mp hn
    · rintro ⟨hr, -, hn, hl⟩
      rw [htable] at hr
      exact ⟨⟨(hnumber _ _).mpr (hn x htable), hl⟩, Option.some.inj hr⟩

/-! ### Recording -/

/-- The record that a beacon leaves (R66, step 4). -/
def recordOf (b : Beacon) (start : Int) (agreed : Nat) : TimeRecord where
  lastNumber := b.number
  ownTime := start
  lastHeard := agreed
  carriedRef := b.reference
  carriedHas := b.hasReference
  expired := false

/-- The state with the record in the table. -/
def recorded (b : Beacon) (start : Int) (s : State) : State :=
  s.updTime fun t => { t with table := putAt t.table b.origin (some (recordOf b start s.agreed)) }

theorem recorded_table (b : Beacon) (start : Int) (s : State) (k : Node) :
    (recorded b start s).time.table[k] =
      if k = b.origin then some (recordOf b start s.agreed) else s.time.table[k] := getElem_putAt ..

theorem recorded_agreed (b : Beacon) (start : Int) (s : State) : (recorded b start s).agreed = s.agreed := rfl

theorem recordBeacon_eq (b : Beacon) (start : Int) (s : State) :
    recordBeacon b start s =
      if s.loader.life = .listening then
        (rechoose (recorded b start s)).updTime fun t => { t with timer := some (s.agreed : Int) }
      else rechoose (recorded b start s) := by
  have hlife : (rechoose (recorded b start s)).loader = s.loader := by simp [recorded]
  have htime := settled_reference_time (recorded b start s).time.reference (recorded b start s)
  have hagreed : (rechoose (recorded b start s)).agreed = s.agreed := by
    rw [State.agreed, rechoose, htime]
    rfl
  rw [← hlife, ← hagreed]
  rfl

/-- R66, R67: the time unit after the record and the choice. -/
theorem recordBeacon_time (b : Beacon) (start : Int) (s : State) :
    ∃ losses, (recordBeacon b start s).time =
      { (recorded b start s).time.rechosen (recorded b start s).chosen losses with
        timer := if s.loader.life = .listening then some (s.agreed : Int) else s.time.timer } := by
  obtain ⟨losses, htime⟩ : ∃ losses, (rechoose (recorded b start s)).time =
      (recorded b start s).time.rechosen (recorded b start s).chosen losses := ⟨_, settled_reference_time ..⟩
  refine ⟨losses, ?_⟩
  rw [recordBeacon_eq]
  split
  · rw [updTime_time, htime]
  · rw [htime]
    rfl

/-! ### A beacon that does not pair -/

theorem takeBeacon_of_unpaired {b : Beacon} {u : State} (h : pairedRecord b u = none) (start : Int) :
    takeBeacon b start u = recordBeacon b start (countBeacon false u) := by
  have happlied : appliedError b (countBeacon false u) = none := by
    have hnone : pairedRecord b (countBeacon false u) = none := h
    rw [appliedError, hnone]
  simp only [takeBeacon, h, Option.isSome_none, happlied, movedBy, Int.add_zero]

/-- Settles O21: the take of an unpaired beacon, field by field. -/
theorem unpairedBeaconIsRecorded : Obligations.UnpairedBeaconIsRecorded := by
  unfold Obligations.UnpairedBeaconIsRecorded
  intro s m o hbeacon hunpaired
  have hlife : s.loader.life ≠ .loading := hbeacon.1.1
  obtain ⟨p, k, hexec⟩ := exec_beaconTaken hbeacon
  let u : State := { s with spine := p, intake := k }
  have hnone : pairedRecord (beaconFrom o m.body) u = none := by
    refine Option.eq_none_iff_forall_ne_some.mpr fun r hr => hunpaired ?_
    exact ((pairedRecord_eq_some_iff u m o r).mp hr).2
  let c := countBeacon false u
  let w := recorded (beaconFrom o m.body) (Stated.startMoved s m) c
  obtain ⟨losses, htime⟩ := recordBeacon_time (beaconFrom o m.body) (Stated.startMoved s m) c
  rw [takeBeacon_of_unpaired hnone] at hexec
  generalize ht : recordBeacon (beaconFrom o m.body) (Stated.startMoved s m) c = t at htime
  have htable (n : Node) : t.time.table[n] =
      if n = o then some (recordOf (beaconFrom o m.body) (Stated.startMoved s m) s.agreed) else s.time.table[n] := by
    rw [htime]
    exact recorded_table (beaconFrom o m.body) (Stated.startMoved s m) c n
  have hfresh (r : Node) : Stated.fresh t r ↔ Stated.fresh w r := by
    refine fresh_congr (by simp [← ht, w, recorded]) (by rw [htime]; rfl) ?_
    rw [State.agreed, htime]
    rfl
  have hreference : t.time.reference = w.chosen := by rw [htime]; rfl
  refine ⟨t, by rw [hexec, ← ht], ?_, fun n hn => ?_, fun r => ?_, ?_, ?_, ?_, ?_, ?_, ?_, ?_, ?_⟩
  · rw [htable, if_pos rfl]
    rfl
  · rw [htable, if_neg hn]
  · simp only [hreference, hfresh]
    exact chosen_eq_some_iff (s := w) hlife r
  · rw [hreference, htime]
    rfl
  · rw [hreference, htime]
    rfl
  · rw [htime]
    rfl
  · rw [htime]
    rfl
  · rw [htime]
    rfl
  · rw [htime]
    rfl
  · rw [htime]
    rfl
  · simp [← ht, c, u]

/-! ### Corrections -/

theorem takeBeacon_of_reference {b : Beacon} {r : TimeRecord} {u : State} {e : Int} (h : pairedRecord b u = some r)
    (hreference : u.time.reference = some b.origin) (he : pairingError b r u = e) (start : Int) :
    takeBeacon b start u =
      let c := countBeacon true u
      let after := recordBeacon b (start + if isStep c e then e else 0) (correct e c)
      if after.loader.life = .listening then leaveListening after else after := by
  have happlied : appliedError b (countBeacon true u) = some e := by
    have hsome : pairedRecord b (countBeacon true u) = some r := h
    have hfollowed : (countBeacon true u).time.reference = some b.origin := hreference
    rw [appliedError, hsome]
    dsimp only
    rw [if_pos hfollowed, ← he]
    rfl
  simp only [takeBeacon, h, Option.isSome_some, happlied, movedBy]

/-- R62: a rebuilt time field is the one value within 2^31 with its low bits. -/
theorem rebuild_eq {field : BitVec 32} {g : Nat} {v : Int} (hv : v % 2 ^ 32 = field.toNat)
    (hlow : (g : Int) - 2 ^ 31 ≤ v) (hhigh : v < (g : Int) + 2 ^ 31) : rebuild field g = v := by
  unfold rebuild
  dsimp only
  omega

/-- R61, R68: by how much a correction moves agreed time and the held times at once. -/
def stepBy (s : State) (e : Int) : Int := if isStep s e = true then e else 0

theorem stepBy_nonneg (s : State) (e : Int) : 0 ≤ stepBy s e := by
  unfold stepBy
  split
  · exact nonneg_of_isStep (by assumption)
  · exact Int.le_refl 0

/-- R60, R61, R68: the time unit after a correction. -/
theorem correct_time (e : Int) (s : State) :
    (correct e s).time =
      { s.time.moved (stepBy s e) with
        offset := s.time.offset + stepBy s e
        slew := if isStep s e = true then 0 else e
        corrected := true
        steps := if isStep s e = true then bump s.time.steps else s.time.steps
        slews := if isStep s e = true then s.time.slews else bump s.time.slews } := by
  unfold correct stepBy
  by_cases h : isStep s e = true
  · simp only [if_pos h]
    split
    · rw [(by simp : (latch .timestep (stepTime e s)).time = (stepTime e s).time)]
      rfl
    · rfl
  · simp only [if_neg h, TimeUnit.moved_zero, Int.add_zero]
    rfl

/-- R59, R68: a correction that stays below the cap moves agreed time by just as much. -/
theorem correct_agreed {s : State} {e : Int} (hclock : 0 ≤ s.time.clock) (hcap : s.agreed + e < agreedCap) :
    ((correct e s).agreed : Int) = s.agreed + stepBy s e := by
  have hclock' : (correct e s).time.clock = s.time.clock + stepBy s e := by
    unfold TimeUnit.clock
    rw [correct_time]
    simp only [TimeUnit.moved]
    omega
  have hnonneg := stepBy_nonneg s e
  rw [agreed_eq] at hcap ⊢
  rw [agreed_eq, hclock']
  by_cases hstep : isStep s e = true
  · rw [stepBy, if_pos hstep] at hnonneg ⊢
    omega
  · rw [stepBy, if_neg hstep, Int.add_zero, Int.add_zero]

theorem moved_table (t : TimeUnit) (d : Int) (k : Node) : (t.moved d).table[k] = t.table[k].map (·.moved d) := by
  simp [TimeUnit.moved]

/-- A pairing with the reference, none lower fresh, in a station that may follow it: what R66 to R68 ask of the state
before. -/
structure Followed (s : State) (o : Node) (e : Int) : Prop where
  life : s.loader.life ≠ .loading
  reference : s.time.reference = some o
  may : s.loader.life = .running → o < s.straps.node
  lower : ∀ o', o' < o → ¬ Stated.fresh s o'
  clock : 0 ≤ s.time.clock
  cap : s.agreed + e < agreedCap
  period : 0 < s.beaconPeriod

/-- R65, R67: after the correction and the record the origin is still the lowest fresh one. -/
theorem Followed.chosen {s : State} {b : Beacon} {e : Int} (h : Followed s b.origin e) (start : Int) :
    (recorded b start (correct e s)).chosen = some b.origin := by
  have hsched : (recorded b start (correct e s)).sched = s.sched := by simp [recorded]
  have hloader : (recorded b start (correct e s)).loader = s.loader := by simp [recorded]
  have hstraps : (recorded b start (correct e s)).straps = s.straps := by simp [recorded]
  refine chosen_eq_some_of_lowest (by rw [hloader]; exact h.life) ?_ (by rw [hloader, hstraps]; exact h.may)
    fun o' ho' => ?_
  · refine ⟨recordOf b start (correct e s).agreed, by rw [recorded_table, if_pos rfl], ?_⟩
    have hperiod := h.period
    rw [beaconPeriod_congr hsched, recorded_agreed]
    simp only [recordOf]
    omega
  · rw [fresh_of_moved (s := s) (d := stepBy s e) hsched ?_ (correct_agreed h.clock h.cap)]
    · exact h.lower o' ho'
    · rw [recorded_table, if_neg ho'.ne, correct_time]
      exact moved_table ..

/-- R66 to R68: the time unit after the pairing. -/
theorem Followed.time {s : State} {b : Beacon} {e : Int} (h : Followed s b.origin e) (start : Int) :
    ∃ losses, (recordBeacon b start (correct e s)).time =
      { (correct e s).time with
        table := putAt (correct e s).time.table b.origin (some (recordOf b start (correct e s).agreed))
        refLosses := losses
        timer := if s.loader.life = .listening then some ((correct e s).agreed : Int)
          else (correct e s).time.timer } := by
  obtain ⟨losses, htime⟩ := recordBeacon_time b start (correct e s)
  have hreference : (recorded b start (correct e s)).time.reference = some b.origin := by
    change (correct e s).time.reference = _
    rw [correct_time]
    exact h.reference
  rw [h.chosen, (by simp : (correct e s).loader = s.loader)] at htime
  refine ⟨losses, htime.trans ?_⟩
  simp only [TimeUnit.rechosen, ← hreference, if_true]
  rfl

/-- R69: with the origin as reference nothing is latched by the choice. -/
theorem Followed.latched {s : State} {b : Beacon} {e : Int} (h : Followed s b.origin e) (start : Int) :
    (recordBeacon b start (correct e s)).alarms.latched = (correct e s).alarms.latched := by
  have hreference : (takeReference (recorded b start (correct e s))).time.reference = some b.origin := by
    rw [takeReference_time]
    exact h.chosen start
  have hrechoose : (rechoose (recorded b start (correct e s))).alarms.latched = (correct e s).alarms.latched := by
    rw [rechoose, settleTimelost_of_reference hreference]
    change (takeReference _).alarms.latched = _
    rw [takeReference_alarms]
    rfl
  rw [recordBeacon_eq]
  split
  · exact hrechoose
  · exact hrechoose

theorem isStep_running {s : State} (h : s.loader.life = .running) (e : Int) :
    isStep s e = true ↔ 16 * (s.time.stepLimit : Int) ≤ e := by
  rw [isStep, if_pos h, decide_eq_true_iff, Nat.cast_mul]
  rfl

theorem isStep_listening {s : State} (h : s.loader.life = .listening) (e : Int) : isStep s e = true ↔ 0 < e := by
  rw [isStep, if_neg (by rw [h]; nofun), decide_eq_true_iff]

theorem correct_latched_running {s : State} (h : s.loader.life = .running) (e : Int) :
    (correct e s).alarms.latched =
      if isStep s e = true then s.alarms.latched ||| 32#12 else s.alarms.latched := by
  unfold correct
  split
  · rw [latch_latched]
    rfl
  · rfl

theorem correct_latched_listening {s : State} (h : s.loader.life = .listening) (e : Int) :
    (correct e s).alarms.latched = s.alarms.latched := by
  have hnot : s.loader.life ≠ .running := by rw [h]; nofun
  unfold correct
  split
  · rfl
  · rfl

/-- R62, R66: what a beacon that pairs with the reference finds, its error as the statements write it. -/
theorem pairing_followed {s : State} {m : Received} {o : Node} {r : TimeRecord} {v e : Int} {p : Spine} {k : Intake}
    (hlife : s.loader.life ≠ .loading) (hpairs : Stated.pairs s m o) (hreference : s.time.reference = some o)
    (hrecord : s.time.table[o] = some r) (hmay : s.loader.life = .running → o < s.straps.node)
    (hlower : ∀ o' : Node, o' < o → ¬ Stated.fresh s o') (hv : v % 2 ^ 32 = fieldAt m.body 1 4)
    (hlow : (s.agreedUs : Int) - 2 ^ 31 ≤ v) (hhigh : v < (s.agreedUs : Int) + 2 ^ 31) (he : e = 16 * v - r.ownTime)
    (hcap : s.agreed + e < agreedCap) (hclock : 0 ≤ 16 * (s.time.localCount : Int) + s.time.offset)
    (hperiod : 0 < s.beaconPeriod) (start : Int) :
    let c := countBeacon true { s with spine := p, intake := k }
    Followed c o e ∧ takeBeacon (beaconFrom o m.body) start { s with spine := p, intake := k } =
      let after := recordBeacon (beaconFrom o m.body) (start + stepBy c e) (correct e c)
      if after.loader.life = .listening then leaveListening after else after := by
  intro c
  have hfield : v % 2 ^ 32 = (BitVec.ofNat 32 (fieldAt m.body 1 4)).toNat := by
    rw [BitVec.toNat_ofNat]
    omega
  have herror : pairingError (beaconFrom o m.body) r { s with spine := p, intake := k } = e := by
    have hrebuilt : rebuild (beaconFrom o m.body).previous s.agreedUs = v := rebuild_eq hfield hlow hhigh
    rw [he, ← hrebuilt]
    rfl
  exact ⟨⟨hlife, hreference, hmay, hlower, hclock, hcap, hperiod⟩, takeBeacon_of_reference
    ((pairedRecord_eq_some_iff { s with spine := p, intake := k } m o r).mpr ⟨hrecord, hpairs⟩) hreference herror start⟩

theorem pairingCorrectsRunningStation : Stated.PairingCorrectsRunningStation := by
  intro s m o r v e hbeacon hpairs hlife hreference hrecord hmay hlower hv hlow hhigh he hcap hclock hperiod step
  obtain ⟨p, k, hexec⟩ := exec_beaconTaken hbeacon
  obtain ⟨hfollowed, htake⟩ := pairing_followed (p := p) (k := k) hbeacon.1.1 hpairs hreference hrecord
    (fun _ => hmay) hlower hv hlow hhigh he hcap hclock hperiod (Stated.startMoved s m)
  let c := countBeacon true { s with spine := p, intake := k }
  change Followed c o e at hfollowed
  have hstep : isStep c e = true ↔ step := isStep_running (s := c) hlife e
  have hby : stepBy c e = if step then e else 0 := if_congr hstep rfl rfl
  let t := recordBeacon (beaconFrom o m.body) (Stated.startMoved s m + stepBy c e) (correct e c)
  have hloader : t.loader = s.loader := by simp [t, c]
  have hexec' : exec (.messageTaken m) s = .next t := by
    rw [hexec, htake]
    exact congrArg Host.Outcome.next (if_neg (by change t.loader.life ≠ _; rw [hloader, hlife]; nofun))
  obtain ⟨losses, htime⟩ := hfollowed.time (b := beaconFrom o m.body) (Stated.startMoved s m + stepBy c e)
  have hlatched := hfollowed.latched (b := beaconFrom o m.body) (Stated.startMoved s m + stepBy c e)
  change t.time = _ at htime
  change t.alarms.latched = _ at hlatched
  have hagreed : t.agreed = (correct e c).agreed := by
    rw [State.agreed, htime]
    rfl
  have hcorrected := correct_time e c
  have htable (n : Node) : t.time.table[n] =
      if n = o then some (recordOf (beaconFrom o m.body) (Stated.startMoved s m + stepBy c e) (correct e c).agreed)
      else s.time.table[n].map (·.moved (stepBy c e)) := by
    rw [htime]
    refine (getElem_putAt ..).trans (if_congr Iff.rfl rfl ?_)
    rw [hcorrected]
    exact moved_table ..
  refine ⟨t, hexec', ?_, ?_, ?_, ?_, ?_, ?_, ?_, ?_, ?_, fun n hn => ?_, ?_, ?_, hloader, ?_⟩
  · rw [htime, hcorrected, hby]
    rfl
  · rw [htime, hcorrected]
    exact if_congr hstep rfl rfl
  · rw [htime, hcorrected]
  · rw [htime, hcorrected]
    exact hreference
  · rw [htime, hcorrected]
    rfl
  · rw [htime, hcorrected]
    rfl
  · rw [htime, hcorrected]
    exact if_congr hstep rfl rfl
  · rw [htime, hcorrected]
    exact if_congr hstep rfl rfl
  · rw [htable, if_pos rfl, hagreed, hby]
    rfl
  · rw [htable, if_neg hn, hby]
    rfl
  · rw [htime, hcorrected, hby]
    rfl
  · rw [hlatched, correct_latched_running (s := c) hlife]
    exact if_congr hstep rfl rfl
  · simp [t, c]

/-! ### Entry into RUNNING -/

theorem getLsbD_or_mask_of_ne (latched : FlagMask) {f g : Flag} (h : g.number ≠ f.number) :
    (latched ||| f.mask).getLsbD g.number = latched.getLsbD g.number := by
  rw [BitVec.getLsbD_or, getLsbD_mask f (by cases g <;> decide), decide_eq_false h, Bool.or_false]

/-- R49: handing on a condition latches no other flag. -/
theorem setCondition_latched_of_ne {f g : Flag} (h : g.number ≠ f.number) (present : Bool) (s : State) :
    (setCondition f present s).isLatched g = s.isLatched g := by
  unfold setCondition arise State.isLatched has
  split
  · split
    · rfl
    · rw [latch_latched]
      exact getLsbD_or_mask_of_ne _ h
  · rfl

theorem returnToService_alarms (s : State) : (returnToService s).alarms = s.alarms := by simp

/-- The state in which the choice has been made again on the entry into RUNNING (R70). -/
def enteredRunning (s : State) : State := s.updLoader fun l => { l with life := .running }

theorem enterRunning_eq (s : State) :
    enterRunning s = refreshLane (returnToService ((rechooseAtEntry (enteredRunning s)).updTime fun t =>
      { t with prevStart := none, timer := none })) := rfl

/-- R70: falling back on itself at the entry raises no TIMELOST. -/
theorem rechooseAtEntry_time (s : State) :
    (rechooseAtEntry s).time = s.time.rechosen s.chosen s.time.refLosses := by
  rw [rechooseAtEntry, settled_reference_time, if_neg fun h => by cases h.2.2]

theorem enterRunning_time (s : State) :
    (enterRunning s).time =
      { s.time.rechosen (enteredRunning s).chosen s.time.refLosses with prevStart := none, timer := none } := by
  have htime := rechooseAtEntry_time (enteredRunning s)
  have hunits (u : State) : (refreshLane (returnToService u)).time = u.time := by simp
  rw [enterRunning_eq, hunits, updTime_time, htime]
  rfl

theorem enterRunning_loader (s : State) : (enterRunning s).loader = { s.loader with life := .running } := by
  rw [enterRunning_eq]
  simp [enteredRunning]

theorem rechooseAtEntry_latched (s : State) : (rechooseAtEntry s).alarms.latched = s.alarms.latched := by
  rw [rechooseAtEntry, settleTimelost_latched fun h => (by cases h.2), takeReference_alarms]

theorem enterRunning_isLatched_of_ne {g : Flag} (h : g.number ≠ Flag.lane.number) (s : State) :
    (enterRunning s).isLatched g = s.isLatched g := by
  rw [enterRunning_eq, refreshLane, setCondition_latched_of_ne h]
  unfold State.isLatched
  rw [returnToService_alarms, updTime_alarms, rechooseAtEntry_latched]
  rfl

theorem pairingTakesListeningStationToRunning : Stated.PairingTakesListeningStationToRunning := by
  intro s m o r v e hbeacon hpairs hlife hreference hrecord hlower hv hlow hhigh he hcap hclock hperiod htimestep
  have ⟨_, _, _, hother, _⟩ := hbeacon
  obtain ⟨p, k, hexec⟩ := exec_beaconTaken hbeacon
  obtain ⟨hfollowed, htake⟩ := pairing_followed (p := p) (k := k) hbeacon.1.1 hpairs hreference hrecord
    (fun h => by rw [hlife] at h; cases h) hlower hv hlow hhigh he hcap hclock hperiod (Stated.startMoved s m)
  let c := countBeacon true { s with spine := p, intake := k }
  change Followed c o e at hfollowed
  have hstep : isStep c e = true ↔ 0 < e := isStep_listening (s := c) hlife e
  have hby : stepBy c e = if 0 < e then e else 0 := if_congr hstep rfl rfl
  let t := recordBeacon (beaconFrom o m.body) (Stated.startMoved s m + stepBy c e) (correct e c)
  have hloader : t.loader = s.loader := by simp [t, c]
  have hstraps : t.straps = s.straps := by simp [t, c]
  have hexec' : exec (.messageTaken m) s = .next (leaveListening t) := by
    rw [hexec, htake]
    exact congrArg Host.Outcome.next (if_pos (by change t.loader.life = _; rw [hloader, hlife]))
  obtain ⟨losses, htime⟩ := hfollowed.time (b := beaconFrom o m.body) (Stated.startMoved s m + stepBy c e)
  have hlatched := hfollowed.latched (b := beaconFrom o m.body) (Stated.startMoved s m + stepBy c e)
  rw [correct_latched_listening (s := c) hlife] at hlatched
  change t.time = _ at htime
  change t.alarms.latched = s.alarms.latched at hlatched
  have hflag (g : Flag) : t.isLatched g = s.isLatched g := by
    rw [State.isLatched, hlatched]
    rfl
  have hcorrected := correct_time e c
  have hoffset : t.time.offset = s.time.offset + if 0 < e then e else 0 := by
    rw [htime, hcorrected, hby]
    rfl
  have hslew : t.time.slew = if 0 < e then 0 else e := by
    rw [htime, hcorrected]
    exact if_congr hstep rfl rfl
  refine ⟨leaveListening t, hexec', ?_⟩
  by_cases hdupnode : s.isLatched .dupnode = true
  · have hstays : leaveListening t = t := if_pos ((hflag .dupnode).trans hdupnode)
    rw [hstays]
    refine ⟨hoffset, hslew, (hflag .timestep).trans htimestep, fun _ => hloader, fun h => ?_⟩
    rw [hdupnode] at h
    cases h
  · have hleaves : leaveListening t = enterRunning t := if_neg (by rw [hflag]; exact hdupnode)
    have hwloader : (enteredRunning t).loader.life = .running := rfl
    have hfresh (n : Node) (hn : n ≠ o) : Stated.fresh (enteredRunning t) n ↔ Stated.fresh s n := by
      refine fresh_of_moved (d := stepBy c e) (by simp [enteredRunning, t, c]) ?_ ?_
      · change t.time.table[n] = _
        rw [htime]
        refine (getElem_putAt ..).trans ((if_neg hn).trans ?_)
        rw [hcorrected]
        exact moved_table ..
      · have hagreed : (enteredRunning t).agreed = (correct e c).agreed := by
          change t.time.agreed = _
          rw [htime]
          rfl
        rw [hagreed, correct_agreed hfollowed.clock hfollowed.cap]
        rfl
    have hown : Stated.fresh (enteredRunning t) o := by
      have hagreed : (enteredRunning t).agreed = (correct e c).agreed := by
        change t.time.agreed = _
        rw [htime]
        rfl
      refine ⟨recordOf (beaconFrom o m.body) (Stated.startMoved s m + stepBy c e) (correct e c).agreed, ?_, ?_⟩
      · change t.time.table[o] = _
        rw [htime]
        exact (getElem_putAt ..).trans (if_pos rfl)
      · rw [hagreed, beaconPeriod_congr (by simp [enteredRunning, t, c] : (enteredRunning t).sched = s.sched)]
        simp only [recordOf]
        omega
    have hwtime := enterRunning_time t
    rw [hleaves]
    refine ⟨?_, ?_, ?_, fun h => absurd h hdupnode, fun _ => ⟨?_, ?_, ?_, fun hbelow => ?_, fun habove hnone => ?_⟩⟩
    · rw [hwtime]
      exact hoffset
    · rw [hwtime]
      exact hslew
    · rw [enterRunning_isLatched_of_ne (by decide), hflag]
      exact htimestep
    · rw [enterRunning_loader, hloader]
    · rw [hwtime]
    · rw [hwtime]
    · rw [hwtime]
      refine chosen_eq_some_of_lowest (by rw [hwloader]; nofun) hown (fun _ => ?_) fun o' ho' => ?_
      · change o < t.straps.node
        rw [hstraps]
        exact hbelow
      · rw [hfresh o' ho'.ne]
        exact hlower o' ho'
    · rw [hwtime]
      refine chosen_eq_none hwloader fun o' ho' => ?_
      change o' < t.straps.node at ho'
      rw [hstraps] at ho'
      rw [hfresh o' (ho'.trans habove).ne]
      exact hnone o' ho'

/-- Settles O22: the pairing in RUNNING and in LISTENING. -/
theorem pairingCorrectsAgreedTime : Obligations.PairingCorrectsAgreedTime :=
  ⟨pairingCorrectsRunningStation, pairingTakesListeningStationToRunning⟩

end Sys2Proof.Machine
end

