-- ==== Sys2Proof/Proofs/TimeLimits.lean ====
section
/-! PROOF. The expiry of a time record and of the LISTENING timer (R65, R69, R70), and READ TIME (R71). -/

namespace Sys2Proof.Machine

/-! ### Record expiry -/

/-- The state in which the record of an origin is marked as expired. -/
def recordExpired (o : Node) (s : State) : State :=
  s.updTime fun t => { t with table := putAt t.table o (t.table[o].map fun r => { r with expired := true }) }

theorem recordExpired_table (o k : Node) (s : State) :
    (recordExpired o s).time.table[k] =
      if k = o then s.time.table[o].map fun r => { r with expired := true } else s.time.table[k] := getElem_putAt ..

theorem expireRecord_eq (o : Node) (s : State) : expireRecord o s = rechoose (recordExpired o s) := rfl

theorem exec_timeRecordExpiry {s : State} {o : Node} (h : s.recordDue o = true) :
    exec (.timeRecordExpiry o) s = .next (expireRecord o s) :=
  congrArg Host.Outcome.next (if_pos h)

/-- R69: falling back on itself in RUNNING raises TIMELOST. -/
theorem settleTimelost_of_lost {s : State} {before : Option Node} (h : s.time.reference = none)
    (hlife : s.loader.life = .running) (hbefore : before.isSome = true) :
    settleTimelost before s = arise .timelost (s.updTime fun t => { t with refLosses := bump t.refLosses }) := by
  rw [settleTimelost, h]
  exact if_pos ⟨hlife, hbefore⟩

theorem recordExpiryCanLoseTheReference : Stated.RecordExpiryCanLoseTheReference := by
  intro s o r hrecord hexpired hdue
  have hstale : s.recordFresh r = false := decide_eq_false (not_lt.mpr hdue)
  have hrecordDue : s.recordDue o = true := by
    unfold State.recordDue
    rw [hrecord]
    dsimp only
    rw [hstale, hexpired]
    rfl
  let w := recordExpired o s
  have htime := settled_reference_time w.time.reference w
  obtain ⟨losses, hrechosen⟩ : ∃ losses, (rechoose w).time = w.time.rechosen w.chosen losses := ⟨_, htime⟩
  have hself : w.time.table[o] = some { r with expired := true } := by
    rw [recordExpired_table, if_pos rfl, hrecord]
    rfl
  have hfresh (n : Node) (t : State) (hsched : t.sched = s.sched) (htable : t.time.table[n] = w.time.table[n])
      (hagreed : t.agreed = s.agreed) : Stated.fresh t n ↔ n ≠ o ∧ Stated.fresh s n := by
    by_cases hn : n = o
    · refine ⟨fun ⟨x, hx, hlt⟩ => ?_, fun h => absurd hn h.1⟩
      rw [htable, hn, hself] at hx
      rw [hagreed, beaconPeriod_congr hsched, ← Option.some.inj hx] at hlt
      exact absurd hlt (not_lt.mpr hdue)
    · have hkept : t.time.table[n] = s.time.table[n] := by
        rw [htable, recordExpired_table, if_neg hn]
      rw [fresh_congr hsched hkept hagreed]
      exact ⟨fun h => ⟨hn, h⟩, fun h => h.2⟩
  refine ⟨expireRecord o s, exec_timeRecordExpiry hrecordDue, ?_, fun n hn => ?_, ?_, fun hlife hreference hnone => ?_,
    ?_, ?_, ?_⟩
  · rw [expireRecord_eq, hrechosen]
    exact hself
  · rw [expireRecord_eq, hrechosen]
    exact (recordExpired_table o n s).trans (if_neg hn)
  · rw [hfresh o (expireRecord o s) (by simp) (by rw [expireRecord_eq, hrechosen]; rfl)
      (by rw [State.agreed, expireRecord_eq, hrechosen]; rfl)]
    exact fun h => h.1 rfl
  · have hchosen : w.chosen = none := by
      refine chosen_eq_none hlife fun n hn hfreshn => hnone n hn ?_
      exact ((hfresh n w rfl rfl rfl).mp hfreshn).2
    have hlost : rechoose w = arise .timelost ((takeReference w).updTime fun t =>
        { t with refLosses := bump t.refLosses }) := by
      refine settleTimelost_of_lost ?_ (by simpa [w, recordExpired] using hlife) ?_
      · rw [takeReference_time]
        exact hchosen
      · change s.time.reference.isSome = true
        rw [hreference]
        rfl
    have hlosttime : (rechoose w).time = w.time.rechosen none (bump s.time.refLosses) := by
      rw [hlost, (by simp : ∀ u, (arise .timelost u).time = u.time), updTime_time, takeReference_time, hchosen]
      rfl
    have hnew : ¬ (none : Option Node) = w.time.reference := by
      change ¬ none = s.time.reference
      rw [hreference]
      nofun
    rw [expireRecord_eq, hlosttime]
    refine ⟨rfl, if_neg hnew, if_neg hnew, fun _ => rfl, ?_⟩
    rw [hlost]
    exact arise_present .timelost _
  · apply State.ext_parts <;> simp
  · rw [expireRecord_eq, hrechosen]
    rfl
  · rw [expireRecord_eq, hrechosen]
    rfl

/-! ### The LISTENING timer -/

/-- R47, R55: at the return to service the ALARM slot is loaded if a mark is unsent. -/
theorem exec_listeningTimerExpiry {s : State} (h : s.timerOut = true) :
    exec .listeningTimerExpiry s = .next (leaveListening (s.updTime fun t => { t with timer := none })) :=
  congrArg Host.Outcome.next (if_pos h)

theorem settleTimelost_none_alarms (s : State) :
    (settleTimelost none s).alarms.latched = s.alarms.latched ∧
      (settleTimelost none s).alarms.unsent = s.alarms.unsent := by
  unfold settleTimelost
  split
  · exact ⟨rfl, rfl⟩
  · rw [if_neg fun h => by cases h.2]
    exact ⟨rfl, rfl⟩

theorem settleTimelost_none_slots (s : State) : (settleTimelost none s).slots = s.slots := by
  unfold settleTimelost
  split
  · rfl
  · rw [if_neg fun h => by cases h.2]

/-- R103, R106: a SUPPLY has no lane. -/
theorem refreshLane_of_supply {s : State} (h : s.straps.role = .supply) : refreshLane s = endCondition .lane s := by
  simp [refreshLane, setCondition, State.laneCondition, h]

theorem listeningTimerTakesStationToRunning : Stated.ListeningTimerTakesStationToRunning := by
  intro s start hlife htimer hout
  have htimerOut : s.timerOut = true := by
    unfold State.timerOut
    rw [hlife, htimer]
    exact decide_eq_true hout
  let u := s.updTime fun t => { t with timer := none }
  refine ⟨leaveListening u, exec_listeningTimerExpiry htimerOut, ?_, fun hdupnode => ?_, fun hdupnode => ?_,
    fun hdupnode hcut hunsent hrole hempty => ?_, ?_⟩
  · unfold leaveListening
    split
    · rfl
    · rw [enterRunning_time]
  · have hstays : leaveListening u = u := if_pos hdupnode
    rw [hstays]
    rfl
  · have hleaves : leaveListening u = enterRunning u :=
      if_neg (by rw [show u.isLatched .dupnode = false from hdupnode]; nofun)
    rw [hleaves, enterRunning_loader, enterRunning_time]
    exact ⟨rfl, rfl⟩
  · have hleaves : leaveListening u = enterRunning u :=
      if_neg (by rw [show u.isLatched .dupnode = false from hdupnode]; nofun)
    let v := (rechooseAtEntry (enteredRunning u)).updTime fun t => { t with prevStart := none, timer := none }
    have hv : v.loader.life = .running ∧ v.spine = s.spine ∧ v.straps = s.straps ∧ v.power = s.power := by
      simp [v, enteredRunning, u]
    obtain ⟨hvlife, hvspine, hvstraps, hvpower⟩ := hv
    have hvalarms : v.alarms.latched = s.alarms.latched ∧ v.alarms.unsent = s.alarms.unsent := by
      have halarms := settleTimelost_none_alarms (takeReference (enteredRunning u))
      rw [takeReference_alarms] at halarms
      exact halarms
    have hvslots : v.slots = s.slots := by
      change (settleTimelost none (takeReference (enteredRunning u))).slots = s.slots
      rw [settleTimelost_none_slots]
      simp [enteredRunning, u]
    have hentered : enterRunning u = endCondition .lane (returnToService v) :=
      refreshLane_of_supply (by simpa [v, enteredRunning, u] using hrole)
    have hslots : (enterRunning u).slots.alarm = s.slots.alarm.load (Stated.alarmContent v s.spine.standing) := by
      rw [hentered]
      change (returnToService v).slots.alarm = _
      rw [returnToService_slots hvlife (by rw [hvspine]; exact hcut), if_neg (by rw [hvalarms.2]; exact hunsent),
        hvslots, hvspine]
    have halarms : (enterRunning u).alarms.latched = s.alarms.latched ∧
        (enterRunning u).alarms.unsent = s.alarms.unsent := by
      rw [hentered]
      change (returnToService v).alarms.latched = _ ∧ (returnToService v).alarms.unsent = _
      rw [returnToService_alarms]
      exact hvalarms
    rw [hleaves, hslots, load_of_empty hempty]
    refine ⟨rfl, ?_⟩
    simp only [Stated.alarmContent, halarms.1, halarms.2, hvalarms.1, hvalarms.2, hvstraps, hvpower]
  · simp [u]

/-- Settles O23: a record and the LISTENING timer. -/
theorem timeLimitsRunOut : Obligations.TimeLimitsRunOut :=
  ⟨recordExpiryCanLoseTheReference, listeningTimerTakesStationToRunning⟩

/-! ### READ TIME -/

theorem exec_readTime (s : State) : exec .readTime s = .next (answerWith (· == 12) answerReadTime s) := rfl

theorem flagByte_four (a b c d : Bool) : flagByte [a, b, c, d] = Stated.flags a b c d := by
  cases a <;> cases b <;> cases c <;> cases d <;> rfl

/-- R71, R184: the mark of node `o` is bit `o`. -/
theorem freshMask_eq (s : State) {fresh : Node → Bool} (h : ∀ o, fresh o = true ↔ Stated.fresh s o) :
    freshMask s = BitVec.ofNat 8 ((allNodes.map fun o => if fresh o then 2 ^ o.val else 0).sum) := by
  have hmarks : (fun o => (s.freshRecord o).isSome) = fresh := by
    funext o
    rw [Bool.eq_iff_iff, isSome_freshRecord, h]
  have hbit (b : Bool) : (if b then 1 else 0) = b.toNat := by cases b <;> rfl
  have hweight (b : Bool) (k : Nat) : (if b then 2 ^ k else 0) = b.toNat * 2 ^ k := by cases b <;> simp
  rw [freshMask, hmarks, flagByte]
  simp only [hbit, hweight]
  congr 1
  simp [allNodes]
  ring

/-- R71: the data of READ TIME in a RUNNING station. -/
theorem answerReadTime_data {s : State} (hlife : s.loader.life = .running) {fresh : Node → Bool}
    (h : ∀ o, fresh o = true ↔ Stated.fresh s o) (c : Command) :
    (answerReadTime c s).data =
      beBytes 6 (s.agreed / 16) ++ [BitVec.ofNat 8 (s.agreed % 16)] ++ beInt 5 s.time.slew ++
        [BitVec.ofNat 8 s.referenceNode.val,
          Stated.flags s.time.reference.isSome s.time.corrected (s.alarms.present.getLsbD 4) false] ++
        beBytes 4 (referenceAge s) ++
        [BitVec.ofNat 8 (referenceOfReference s).val,
          BitVec.ofNat 8 ((allNodes.map fun o => if fresh o then 2 ^ o.val else 0).sum)] ++
        beBytes 4 (match s.straps.role with
          | .headset => s.scan.frameNumber
          | .console => s.laneTx.frameNumber
          | .supply => 0).toNat := by
  have hlistening : (s.loader.life == .listening) = false := by
    rw [hlife]
    rfl
  simp only [answerReadTime, beBytes_one, flagByte_four, freshMask_eq s h, hlistening]
  simp only [List.append_assoc, List.cons_append, List.nil_append]
  rfl

/-- Settles O24: the reply of a station that is its own reference, and of one that follows an origin. -/
theorem readTimeReportsAgreedTime : Obligations.ReadTimeReportsAgreedTime := by
  unfold Obligations.ReadTimeReportsAgreedTime
  intro s c rest fresh hpath hcode hfresh frame mask reply
  have hdata := answerReadTime_data (s := beginAnswer c rest s) hpath.2.2.1 hfresh c
  rw [exec_readTime, answerWith_of_repliesBySpine hpath (by simp [hcode]) rfl rfl rfl rfl, hdata]
  refine ⟨fun hreference => ?_, fun o r hreference hrecord => ?_⟩
  · have hage : referenceAge (beginAnswer c rest s) = 0 := by
      change (match s.time.reference with | none => 0 | some o => _) = 0
      rw [hreference]
    have hcarried : referenceOfReference (beginAnswer c rest s) = s.straps.node := by
      change (match s.time.reference with | none => s.straps.node | some o => _) = _
      rw [hreference]
    have hnode : (beginAnswer c rest s).referenceNode = s.straps.node := by
      change s.time.reference.getD s.straps.node = _
      rw [hreference]
      rfl
    have hhas : (beginAnswer c rest s).time.reference.isSome = false := by
      change s.time.reference.isSome = false
      rw [hreference]
      rfl
    rw [hage, hcarried, hnode, hhas]
    rfl
  · have hage : referenceAge (beginAnswer c rest s) =
        min (((s.agreed : Int) - r.lastHeard) / 16).toNat (2 ^ 32 - 1) := by
      unfold referenceAge
      change (match s.time.reference with | none => 0 | some o => _) = _
      rw [hreference]
      change (match s.time.table[o] with | none => 0 | some r => _) = _
      rw [hrecord]
      rfl
    have hcarried : referenceOfReference (beginAnswer c rest s) = r.carriedRef := by
      unfold referenceOfReference
      change (match s.time.reference with | none => s.straps.node | some o => _) = _
      rw [hreference]
      change (match s.time.table[o] with | none => s.straps.node | some r => _) = _
      rw [hrecord]
    have hnode : (beginAnswer c rest s).referenceNode = o := by
      change s.time.reference.getD s.straps.node = _
      rw [hreference]
      rfl
    have hhas : (beginAnswer c rest s).time.reference.isSome = true := by
      change s.time.reference.isSome = true
      rw [hreference]
      rfl
    rw [hage, hcarried, hnode, hhas]
    rfl

end Sys2Proof.Machine
end

