-- ==== Sys2Proof/Proofs/MotionReads.lean ====
section
/-! PROOF. Sensor reads (R79 to R84) and the commands of the motion unit (R86, R87, R94). -/

namespace Sys2Proof.Machine

/-! ### Values and increments -/

theorem at_eq_axis (t : Triple (BitVec 16)) (a : AxisMap) : Triple.at t a.axis = Stated.axis t a := by
  unfold Triple.at Stated.axis
  generalize a.axis = n
  revert n
  rw [Fin.forall_fin_succ, Fin.forall_fin_succ, Fin.forall_fin_succ]
  exact ⟨rfl, rfl, rfl, fun n => n.elim0⟩

theorem applySign_eq (negative : Bool) (v : BitVec 16) : applySign negative v = Stated.signed negative v := by
  simp [applySign, Stated.signed]

theorem mapAxes_eq (k : Axes AxisMap) (t : Triple (BitVec 16)) : mapAxes k t = Stated.mapped k t := by
  simp only [mapAxes, Axes.map, applySign_eq, at_eq_axis]
  rfl

theorem isSaturated_eq (v : BitVec 16) : isSaturated v = Stated.saturated v := by
  have hvalue (w : BitVec 16) (n : Int) (hn : w.toInt = n) : (v == w) = (v.toInt == n) := by
    rw [Bool.eq_iff_iff, beq_iff_eq, beq_iff_eq, ← hn, BitVec.toInt_inj]
  unfold isSaturated Stated.saturated
  rw [hvalue 0x7FFF 32767 rfl, hvalue 0x8001 (-32767) rfl, hvalue 0x8000 (-32768) rfl]

theorem mapSaturated_eq (k : Axes AxisMap) (t : Triple (BitVec 16)) : mapSaturated k t = Stated.marks k t := by
  simp only [mapSaturated, Axes.map, isSaturated_eq, at_eq_axis]
  rfl

theorem incrementOf_eq (g : BitVec 16) (bias : Int) (gain : Nat) :
    incrementOf g bias gain = Stated.increment g bias gain := by
  have hclamp (v : Int) : clampInt v (-32767) 32767 = max (-32767) (min 32767 v) := by
    unfold clampInt
    split
    · omega
    · split <;> omega
  rw [incrementOf, hclamp]
  rfl

/-! ### Completions -/

theorem pushNewest_eq_kept {α : Type} (n : Nat) (xs : List α) (x : α) : pushNewest n xs x = Stated.kept n xs x := by
  rw [pushNewest, Stated.kept, List.take_reverse, List.reverse_reverse, List.length_append, List.length_singleton]

theorem complete_eq (m : Motion) (r : SampleRecord) (inc : Axes Int) : m.complete r inc = Stated.completed m r inc := by
  simp only [Motion.complete, Stated.completed, pushNewest_eq_kept]
  rfl

theorem exec_sensorReadComplete {s : State} {x : SensorRead} (h : s.motion.reading = some x) (ready : Bool)
    (rates accels : Triple (BitVec 16)) :
    exec (.sensorReadComplete ready rates accels) s = .next (completeRead ready rates accels x s) := by
  change execSensorReadComplete ready rates accels s = _
  rw [execSensorReadComplete, h]

theorem exec_sensorReadTimeout {s : State} {x : SensorRead} (h : s.motion.reading = some x) :
    exec .sensorReadTimeout s = .next (if s.readOut x then completeFailed x.stamp (countTimedOut s) else s) := by
  change execSensorReadTimeout s = _
  rw [execSensorReadTimeout, h]

theorem goodReadMovesThePose : Stated.GoodReadMovesThePose := by
  intro s x rates accels hreading hwithin k r inc marked
  have hout : s.readOut x = false := decide_eq_false (Nat.not_le.mpr hwithin)
  have hrecord : goodRecord s.motion.settings x.stamp rates accels = r := by
    simp only [goodRecord, mapAxes_eq, mapSaturated_eq]
    rfl
  have hinc : goodIncrements s.motion.settings r.gyro = inc := by
    simp only [goodIncrements, incrementOf_eq]
    rfl
  have hread : s.motion.goodRead x.stamp rates accels = Stated.completed
      { s.motion with
        lastGyro := r.gyro
        lastAccel := r.accel
        lastInc := inc
        failures := 0
        good := bump s.motion.good
        saturated := if marked then bump s.motion.saturated else s.motion.saturated } r inc := by
    simp only [Motion.goodRead, hrecord, hinc, complete_eq]
    rfl
  rw [exec_sensorReadComplete hreading, completeRead, hout, ← hread]
  rfl

/-- R81 to R84: the motion unit after a failed read. -/
theorem failed_eq (m : Motion) (stamp : Nat) :
    m.failed stamp = Stated.completed
      { m with
        failures := bump m.failures
        zeroed := if (bump m.failures).toNat < 8 then m.zeroed else bump m.zeroed }
      { stamp := stamp
        gyro := m.lastGyro
        accel := m.lastAccel
        gyroSat := { yaw := false, pitch := false, roll := false }
        accelSat := { yaw := false, pitch := false, roll := false }
        held := true }
      (if (bump m.failures).toNat < 8 then m.lastInc else { yaw := 0, pitch := 0, roll := 0 }) := by
  simp only [Motion.failed, complete_eq]
  by_cases h : (bump m.failures).toNat < 8
  · simp only [decide_eq_false (Nat.not_le.mpr h), if_pos h]
    rfl
  · simp only [decide_eq_true (Nat.not_lt.mp h), if_neg h]
    rfl

theorem completeFailed_eq (stamp : Nat) (s : State) :
    completeFailed stamp s =
      if (bump s.motion.failures).toNat < 8 then s.updMotion (·.failed stamp)
      else arise .sensor (s.updMotion (·.failed stamp)) := by
  have hfailures : (s.updMotion (·.failed stamp)).motion.failures = bump s.motion.failures := by
    rw [updMotion_motion, failed_eq]
    rfl
  unfold completeFailed
  dsimp only
  rw [hfailures]
  by_cases h : (bump s.motion.failures).toNat < 8
  · rw [if_pos h, if_neg (Nat.not_le.mpr h)]
  · rw [if_neg h, if_pos (Nat.not_lt.mp h)]

theorem failedReadHoldsTheRates : Stated.FailedReadHoldsTheRates := by
  intro s x i ready rates accels hreading hrow timedOut count r
  let m : Motion :=
    { s.motion with
      notReady := if timedOut then s.motion.notReady else bump s.motion.notReady
      timedOut := if timedOut then bump s.motion.timedOut else s.motion.timedOut }
  have hexec : exec i s = .next (completeFailed x.stamp (s.updMotion fun _ => m)) := by
    obtain ⟨rfl, hwithin⟩ | ⟨hrow, hlimit⟩ := hrow
    · have hnot : ¬ timedOut := Nat.not_le.mpr hwithin
      have hout : s.readOut x = false := decide_eq_false hnot
      have hm : m = { s.motion with notReady := bump s.motion.notReady } := by
        simp only [m, if_neg hnot]
      rw [exec_sensorReadComplete hreading, completeRead, hout, hm]
      rfl
    · have htimedOut : timedOut := hlimit
      have hout : s.readOut x = true := decide_eq_true hlimit
      have hm : m = { s.motion with timedOut := bump s.motion.timedOut } := by
        simp only [m, if_pos htimedOut]
      obtain rfl | rfl := hrow
      · rw [exec_sensorReadTimeout hreading, hout, hm]
        rfl
      · rw [exec_sensorReadComplete hreading, completeRead, hout, hm]
        rfl
  have hmotion : (completeFailed x.stamp (s.updMotion fun _ => m)).motion = m.failed x.stamp := by
    rw [completeFailed_eq]
    split <;> simp
  refine ⟨_, hexec, ?_, fun hfew => ?_, fun hmany => ?_, ?_⟩
  · rw [hmotion, failed_eq]
  · rw [hmotion, completeFailed_eq]
    exact if_pos hfew
  · rw [completeFailed_eq]
    have hnot : ¬ (bump (s.updMotion fun _ => m).motion.failures).toNat < 8 := Nat.not_lt.mpr hmany
    rw [if_neg hnot]
    exact ⟨arise_present .sensor _, fun h => arise_latched (f := .sensor) (s := (s.updMotion fun _ => m).updMotion _) h⟩
  · apply State.ext_parts <;> simp

/-- Settles O25: a good read and a failed one. -/
theorem sensorReadsMoveThePose : Obligations.SensorReadsMoveThePose :=
  ⟨goodReadMovesThePose, failedReadHoldsTheRates⟩

/-! ### The commands of the motion unit -/

/-- R38, R39: a command of a HEADSET, taken for a spine reply; its effect may touch any block but the four that the
reply rests on. -/
theorem answerWith_onHeadset {s : State} {c : Command} {rest : List Command} {is : BitVec 5 → Bool}
    {act : Command → State → Answer} {a : Answer} (hpath : Stated.repliesBySpine s c rest)
    (hrole : s.straps.role = .headset) (hcode : is c.code = true) (hact : act c (beginAnswer c rest s) = a)
    (hloader : a.state.loader = s.loader) (hspine : a.state.spine = s.spine) (hslots : a.state.slots = s.slots)
    (hcmd : a.state.cmd = (beginAnswer c rest s).cmd) :
    answerWith is (onHeadset act) s = Stated.spineReplied a.state c rest a.result.code a.data := by
  have hanswer : onHeadset act c (beginAnswer c rest s) = a := (if_pos hrole).trans hact
  rw [answerWith_of_repliesBySpine hpath hcode (by rw [hanswer]; exact hloader) (by rw [hanswer]; exact hspine)
    (by rw [hanswer]; exact hslots) (by rw [hanswer]; exact hcmd), hanswer]

/-- R87, R184: the held flags of at most three records. -/
theorem flagByte_held {rs : List SampleRecord} (h : rs.length ≤ 3) :
    flagByte (rs.map (·.held)) =
      Stated.flags ((rs[0]?.map (·.held)).getD false) ((rs[1]?.map (·.held)).getD false)
        ((rs[2]?.map (·.held)).getD false) false := by
  match rs, h with
  | [], _ => rfl
  | [a], _ =>
    change flagByte [a.held] = Stated.flags a.held false false false
    cases a.held <;> rfl
  | [a, b], _ => exact flagByte_two ..
  | [a, b, c], _ =>
    change flagByte [a.held, b.held, c.held] = Stated.flags a.held b.held c.held false
    cases a.held <;> cases b.held <;> cases c.held <;> rfl

theorem fromBytes_beBytes_four {v : Nat} (h : v < 2 ^ 32) : fromBytes (beBytes 4 v) = v := by
  simp only [beBytes, fromBytes, List.foldl_cons, List.foldl_nil, BitVec.toNat_ofNat]
  omega

/-- R86: the corrections that ALIGN POSE carries. -/
theorem corrections_eq (yaw pitch roll : BitVec 32) :
    corrections (beBytes 4 yaw.toNat ++ beBytes 4 pitch.toNat ++ beBytes 4 roll.toNat) =
      { yaw := yaw, pitch := pitch, roll := roll } := by
  have hfield (v : BitVec 32) : BitVec.ofNat 32 (fromBytes (beBytes 4 v.toNat)) = v := by
    rw [fromBytes_beBytes_four v.isLt, BitVec.ofNat_toNat, BitVec.setWidth_eq]
  exact congr (congr (congrArg Axes.mk (hfield yaw)) (hfield pitch)) (hfield roll)

/-- R87: the number of records that READ SAMPLES returns at most. -/
theorem clampNat_asked (asked : Byte) :
    clampNat asked.toNat 1 3 = if asked = 0 then 1 else if 3 < asked.toNat then 3 else asked.toNat := by
  have hzero : asked = 0 ↔ asked.toNat < 1 := by
    rw [Nat.lt_one_iff]
    exact ⟨fun h => by rw [h]; rfl, fun h => BitVec.eq_of_toNat_eq h⟩
  rw [clampNat]
  exact (if_congr hzero rfl rfl).symm

/-- Settles O27: HOLD ENCODERS, READ SAMPLES and ALIGN POSE. -/
theorem motionCommandsOnHeadset : Obligations.MotionCommandsOnHeadset := by
  unfold Obligations.MotionCommandsOnHeadset
  intro s c rest hpath hrole
  refine ⟨fun hcode => ?hold, fun asked hcode hargs => ?read, fun yaw pitch roll hcode hargs => ?align⟩
  case hold =>
    have hexec : exec .holdEncoders s = .next (answerWith (· == 3) (onHeadset answerHoldEncoders) s) := rfl
    rw [hexec, answerWith_onHeadset hpath hrole (by simp [hcode]) rfl rfl rfl rfl rfl]
    simp only [answerHoldEncoders, flagByte_two]
    rfl
  case read =>
    intro count records held
    have hexec : exec .readSamples s = .next (answerWith (· == 4) (onHeadset answerReadSamples) s) := rfl
    have hasked : byteAt c.args 0 = asked := by
      rw [hargs]
      rfl
    have hcount : clampNat asked.toNat 1 3 = count := clampNat_asked asked
    have hpositive : 1 ≤ count ∧ count ≤ 3 := by
      rw [← hcount, clampNat]
      split
      · omega
      · split <;> omega
    have hfew : records.length ≤ 3 := (List.length_take_le ..).trans hpositive.2
    have hempty : records.isEmpty = true ↔ s.motion.ring = [] := by
      rw [List.isEmpty_iff, List.take_eq_nil_iff, List.reverse_eq_nil_iff]
      exact ⟨fun h => h.resolve_left (by omega), .inr⟩
    have hresult : (if records.isEmpty then Result.empty else movedResult (decide (asked.toNat ≠ count))).code =
        if s.motion.ring = [] then 3 else if count = asked.toNat then 0 else 4 := by
      by_cases hring : s.motion.ring = []
      · rw [if_pos (hempty.mpr hring), if_pos hring]
        rfl
      · rw [if_neg (mt hempty.mp hring), if_neg hring, code_movedResult]
        by_cases hmoved : count = asked.toNat
        · rw [if_pos hmoved, if_neg (not_not.mpr hmoved.symm)]
        · rw [if_neg hmoved, if_pos (Ne.symm hmoved)]
    have hanswer : answerReadSamples c (beginAnswer c rest s) =
        { result := if records.isEmpty then .empty else movedResult (decide (asked.toNat ≠ count))
          data := [sampleSummary records] ++ records.flatMap sampleBytes
          state := beginAnswer c rest s } := by
      simp only [answerReadSamples, hasked, hcount]
      rfl
    rw [hexec, answerWith_onHeadset hpath hrole (by simp [hcode]) hanswer rfl rfl rfl rfl, hresult, sampleSummary,
      flagByte_held hfew]
    rfl
  case align =>
    intro add acc
    have hexec : exec .alignPose s = .next (answerWith (· == 5) (onHeadset answerAlignPose) s) := rfl
    have hcorrections : corrections c.args = { yaw := yaw, pitch := pitch, roll := roll } := by
      rw [hargs, corrections_eq]
    let m : Motion := s.motion.align { yaw := yaw, pitch := pitch, roll := roll }
    have hsequence : m.newestSequence.toNat =
        match s.motion.history.getLast? with | none => 65535 | some p => p.sequence.toNat := by
      rw [Motion.newestSequence, Motion.newest, show m.history = s.motion.history.map _ from rfl, List.getLast?_map]
      cases s.motion.history.getLast? <;> rfl
    have hanswer : answerAlignPose c (beginAnswer c rest s) =
        { result := .done
          data := beBits 4 m.acc.yaw ++ beBits 4 m.acc.pitch ++ beBits 4 m.acc.roll ++ beBits 2 m.newestSequence
          state := (beginAnswer c rest s).updMotion fun _ => m } := by
      simp only [answerAlignPose, hcorrections]
      rfl
    rw [hexec, answerWith_onHeadset hpath hrole (by simp [hcode]) hanswer rfl rfl rfl rfl]
    simp only [beBits, hsequence]
    rfl

end Sys2Proof.Machine
end

