-- ==== Sys2Proof/Proofs/PictureInput.lean ====
section
/-! PROOF. The picture input as the lane sender's state sees it: a slice handed to its eye, a line completed, a line
begun and a frame taken up, each as one change of the sender (R96 to R99). O28 rests on them. -/

namespace Sys2Proof.Machine

/-! ### Slices handed to their eyes -/

/-- R99: a slice handed to its eye changes the eye and the two counters. -/
theorem handSlice_eq (e : Eye) (sl : Slice) (s : State) :
    handSlice e sl s =
      { s with
        laneTx :=
          { s.laneTx with
            eyes := s.laneTx.eyes.put e (Stated.handed (s.laneTx.eyes.get e) s.store.geometry.slices sl)
            slicesQueued :=
              if (s.laneTx.eyes.get e).input = .sending ∧ (s.laneTx.eyes.get e).queue.length < 8 then
                bump s.laneTx.slicesQueued
              else s.laneTx.slicesQueued
            slicesDropped :=
              if (s.laneTx.eyes.get e).input = .voiding ∨
                  (s.laneTx.eyes.get e).input = .sending ∧ 8 ≤ (s.laneTx.eyes.get e).queue.length then
                bump s.laneTx.slicesDropped
              else s.laneTx.slicesDropped } } := by
  have hsame : s.laneTx.eyes.put e (s.laneTx.eyes.get e) = s.laneTx.eyes := by cases e <;> rfl
  simp only [handSlice, State.sender, Stated.handed]
  cases hinput : (s.laneTx.eyes.get e).input with
  | sending =>
    by_cases hroom : (s.laneTx.eyes.get e).queue.length < 8
    · simp [hroom, State.updSender, State.updLaneTx, hinput]
    · simp [hroom, Nat.not_lt.mp hroom, State.updSender, State.updLaneTx, SenderEye.startVoiding]
  | voiding => simp [State.updLaneTx, hsame]
  | dropping => simp [hsame]

/-! ### Lines -/

/-- R96, R98: a line completed is one change of the lane sender. -/
theorem completeLine_eq (f : InputFrame) (pixels : List Pixel) (s : State) :
    completeLine f pixels s = { s with laneTx := Stated.lineDone s.store.geometry s.laneTx f pixels } := by
  by_cases hlast : (f.linesDone + 1) % s.store.geometry.S = 0
  · simp only [completeLine, Stated.lineDone, if_pos hlast, formSlices, handSlice_eq]
    rfl
  · simp only [completeLine, Stated.lineDone, if_neg hlast]
    rfl

theorem lineDone_frame (g : Geometry) (x : LaneSender) (f : InputFrame) (pixels : List Pixel) :
    ∃ lines, (Stated.lineDone g x f pixels).frame =
      some { f with linesDone := f.linesDone + 1, line := .full false, slice := lines } := by
  simp only [Stated.lineDone]
  split
  · exact ⟨[], rfl⟩
  · exact ⟨_, rfl⟩

/-- R96: a line start within the frame. -/
theorem beginLine_of_lt {s : State} {f : InputFrame} (hframe : s.laneTx.frame = some f)
    (hlines : f.linesDone < s.store.geometry.H) :
    beginLine s = { s with laneTx := { s.laneTx with frame := some { f with line := .filling [] } } } := by
  simp only [beginLine, hframe, if_pos hlines, State.updFrame, State.updLaneTx, Option.map_some]

/-- R96: a line start after the last line begins an extra line, counted once a frame. -/
theorem beginLine_of_ge {s : State} {f : InputFrame} (hframe : s.laneTx.frame = some f)
    (hlines : s.store.geometry.H ≤ f.linesDone) :
    beginLine s =
      { s with
        laneTx :=
          { s.laneTx with
            frame := some { f with line := .extra, extraCounted := true }
            inputShape := if f.extraCounted then s.laneTx.inputShape else bump s.laneTx.inputShape } } := by
  simp only [beginLine, hframe, if_neg (Nat.not_lt.mpr hlines), countShape, State.updFrame, State.updLaneTx,
    Option.map_some]
  cases hcounted : f.extraCounted with
  | true => simp
  | false => rfl

/-- R96: the pixels that a short line lacks are those of the left eye's half, then those of the right one's. -/
theorem fillLine_eq {g : Geometry} {px : List Pixel} (hshort : px.length ≤ 2 * g.W) :
    fillLine g px =
      px ++ List.replicate (g.W - px.length) g.edge.left ++
        List.replicate (min g.W (2 * g.W - px.length)) g.edge.right := by
  rw [fillLine, List.append_assoc]
  congr 1
  apply List.ext_getElem
  · simp only [List.length_map, List.length_range', List.length_append, List.length_replicate]
    omega
  · intro i _ _
    rw [List.getElem_map, List.getElem_range', List.getElem_append]
    simp only [List.length_replicate, List.getElem_replicate, Nat.one_mul]
    by_cases hleft : i < g.W - px.length
    · rw [dif_pos hleft, if_pos (by omega)]
    · rw [dif_neg hleft, if_neg (by omega)]

/-! ### Pixels and line starts -/

theorem consoleActive_of_console {s : State} (h : Stated.console s) : s.consoleActive = true := by
  obtain ⟨hrole, hlife⟩ := h
  simp [State.consoleActive, hrole, hlife]

theorem exec_inputPixel {s : State} (p : Pixel) (h : Stated.console s) :
    exec (.inputPixel p) s = .next (inputPixel p s) :=
  congrArg Host.Outcome.next (if_pos (consoleActive_of_console h))

theorem exec_inputLineStart {s : State} (h : Stated.console s) :
    exec .inputLineStart s = .next (inputLineStart s) :=
  congrArg Host.Outcome.next (if_pos (consoleActive_of_console h))

theorem exec_inputFrameStart {s : State} (h : Stated.console s) :
    exec .inputFrameStart s = .next (inputFrameStart s) :=
  congrArg Host.Outcome.next (if_pos (consoleActive_of_console h))

theorem pixelsBuildLinesAndSlices : Stated.PixelsBuildLinesAndSlices := by
  intro s f p hconsole hframe
  rw [exec_inputPixel p hconsole]
  refine ⟨fun px hline hmore => ?_, fun px hline hlast => ?_, fun hline => ?_, fun hline => ?_⟩
  · simp only [inputPixel, hframe, hline, List.length_append, List.length_singleton, if_pos hmore, State.updFrame,
      State.updLaneTx, Option.map_some]
  · simp only [inputPixel, hframe, hline, List.length_append, List.length_singleton, if_neg (Nat.not_lt.mpr hlast.ge),
      completeLine_eq]
  · simp only [inputPixel, hframe, hline, countShape, State.updFrame, State.updLaneTx, Option.map_some]
  · obtain hline | hline | hline := hline <;> simp only [inputPixel, hframe, hline]

/-- R96: the line start that ends a short line. -/
theorem inputLineStart_of_filling {s : State} {f : InputFrame} {px : List Pixel} (hframe : s.laneTx.frame = some f)
    (hline : f.line = .filling px) (hshort : px.length ≤ 2 * s.store.geometry.W) :
    inputLineStart s =
      beginLine
        { s with
          laneTx :=
            Stated.lineDone s.store.geometry { s.laneTx with inputShape := bump s.laneTx.inputShape } f
              (px ++ List.replicate (s.store.geometry.W - px.length) s.store.geometry.edge.left ++
                List.replicate (min s.store.geometry.W (2 * s.store.geometry.W - px.length))
                  s.store.geometry.edge.right) } := by
  simp only [inputLineStart, hframe, hline, completeLine_eq, fillLine_eq hshort]
  rfl

theorem lineStartBeginsALine : Stated.LineStartBeginsALine := by
  intro s f hconsole
  rw [exec_inputLineStart hconsole]
  refine ⟨fun hframe => ?before, fun hframe hline hlines => ?within, fun hframe hline hlines => ?after,
    fun px hframe hline hshort => ?short, fun hframe hline => ?extra⟩
  case before => simp only [inputLineStart, hframe]
  case within =>
    have hbegin : inputLineStart s = beginLine s := by
      obtain hline | hline | hline := hline <;> simp only [inputLineStart, hframe, hline]
    rw [hbegin, beginLine_of_lt hframe hlines]
  case after =>
    have hbegin : inputLineStart s = beginLine s := by
      obtain hline | hline := hline <;> simp only [inputLineStart, hframe, hline]
    rw [hbegin, beginLine_of_ge hframe hlines]
  case short =>
    intro g filled done
    obtain ⟨lines, hdone⟩ : ∃ lines, done.frame =
        some { f with linesDone := f.linesDone + 1, line := .full false, slice := lines } := lineDone_frame ..
    have hbegin : inputLineStart s = beginLine { s with laneTx := done } :=
      inputLineStart_of_filling hframe hline hshort
    rw [hbegin, hdone]
    by_cases hlines : f.linesDone + 1 < g.H
    · rw [if_pos hlines, beginLine_of_lt (s := { s with laneTx := done }) hdone hlines]
      rfl
    · rw [if_neg hlines, beginLine_of_ge (s := { s with laneTx := done }) hdone (Nat.not_lt.mp hlines)]
      rfl
  case extra => simp only [inputLineStart, hframe, hline]

/-! ### Frame starts -/

/-- R99, step 1: what a frame start does to an eye for the frame before it. -/
def owedBefore (v : SenderEye) (n : Nat) (before : Option InputFrame) (g : Geometry) : SenderEye :=
  match before with
  | none => v
  | some f =>
    if f.linesDone < g.H ∧ v.input = .sending then
      { v with voidsOwed := n - f.linesDone / g.S, voidTag := some f.tag }
    else v

theorem judged_eq (v : SenderEye) (n : Nat) (before : Option InputFrame) (g : Geometry) :
    Stated.judged v n before g =
      { owedBefore v n before g with
        input := if 0 < (owedBefore v n before g).voidsOwed then .dropping else .sending } := by
  cases before <;> rfl

/-- R96: the input-shape events of the end of a frame: one for its unfinished line, one for its missing lines. -/
def shapeAfter (before : Option InputFrame) (g : Geometry) (c : Counter) : Counter :=
  let short := match before with | some { line := .filling _, .. } => true | _ => false
  let missing := match before with | none => false | some f => decide (f.linesDone < g.H)
  let counted := if short then bump c else c
  if missing then bump counted else counted

/-- R96: a frame's line is unfinished. -/
def leavesShortLine (f : InputFrame) : Bool := match f.line with | .filling _ => true | _ => false

theorem shapeAfter_some (f : InputFrame) (g : Geometry) (c : Counter) :
    shapeAfter (some f) g c =
      if f.linesDone < g.H then bump (if leavesShortLine f then bump c else c)
      else if leavesShortLine f then bump c else c := by
  have hmissing : decide (f.linesDone < g.H) = true ↔ f.linesDone < g.H := decide_eq_true_iff
  obtain ⟨tag, lines, line, slice, extra⟩ := f
  cases line <;> exact if_congr hmissing rfl rfl

theorem oweMissing_eq {g : Geometry} {f : InputFrame} (v : SenderEye) (n : Nat) (hlines : f.linesDone < g.H) :
    v.oweMissing n (f.linesDone / g.S) f.tag = owedBefore v n (some f) g := by
  simp only [SenderEye.oweMissing, owedBefore, hlines, true_and]

theorem owedBefore_of_whole {g : Geometry} {f : InputFrame} (v : SenderEye) (n : Nat) (hlines : ¬ f.linesDone < g.H) :
    owedBefore v n (some f) g = v :=
  if_neg fun h => hlines h.1

/-- R96, R99: the end of the frame before. -/
theorem endInputFrame_eq (s : State) :
    endInputFrame s =
      { s with
        laneTx :=
          { s.laneTx with
            eyes :=
              { left := owedBefore s.laneTx.eyes.left s.store.geometry.slices s.laneTx.frame s.store.geometry
                right := owedBefore s.laneTx.eyes.right s.store.geometry.slices s.laneTx.frame s.store.geometry }
            inputShape := shapeAfter s.laneTx.frame s.store.geometry s.laneTx.inputShape } } := by
  cases hframe : s.laneTx.frame with
  | none =>
    rw [endInputFrame, hframe]
    rfl
  | some f =>
    have hended : endInputFrame s =
        let u := s.updLaneTx fun x =>
          { x with inputShape := if leavesShortLine f then bump x.inputShape else x.inputShape }
        let owe := fun v : SenderEye => v.oweMissing s.store.geometry.slices (f.linesDone / s.store.geometry.S) f.tag
        if f.linesDone < s.store.geometry.H then ((countShape u).updSender .left owe).updSender .right owe else u := by
      rw [endInputFrame, hframe]
      obtain ⟨tag, lines, line, slice, extra⟩ := f
      cases line <;> rfl
    rw [hended, shapeAfter_some]
    by_cases hlines : f.linesDone < s.store.geometry.H
    · simp only [if_pos hlines, oweMissing_eq _ _ hlines]
      rfl
    · simp only [if_neg hlines, owedBefore_of_whole _ _ hlines]
      rfl

/-- R97: the tag of a new frame. -/
theorem takeTag_eq (s : State) :
    takeTag s =
      { s with
        laneTx :=
          { s.laneTx with
            frame :=
              some { tag := s.laneTx.tags.head?, linesDone := 0, line := .none, slice := [], extraCounted := false }
            tags := s.laneTx.tags.tail
            untagged := if s.laneTx.tags.isEmpty then bump s.laneTx.untagged else s.laneTx.untagged } } := by
  rw [takeTag]
  cases htags : s.laneTx.tags with
  | nil => simp [State.updLaneTx, htags]
  | cons t rest => rfl

/-- R99, step 3: an eye takes up the new frame. -/
theorem takeUpFrame_eq (e : Eye) (s : State) :
    takeUpFrame e s =
      { s with
        laneTx :=
          { s.laneTx with
            eyes :=
              s.laneTx.eyes.put e
                { s.laneTx.eyes.get e with
                  input := if 0 < (s.laneTx.eyes.get e).voidsOwed then .dropping else .sending }
            framesDropped :=
              if 0 < (s.laneTx.eyes.get e).voidsOwed then bump s.laneTx.framesDropped
              else s.laneTx.framesDropped } } := by
  unfold takeUpFrame
  by_cases howes : 0 < (s.laneTx.eyes.get e).voidsOwed
  · rw [if_pos (show 0 < (s.sender e).voidsOwed from howes), if_pos howes, if_pos howes]
    rfl
  · rw [if_neg (show ¬ 0 < (s.sender e).voidsOwed from howes), if_neg howes, if_neg howes]
    rfl

theorem frameStartTakesTagAndJudgesEyes : Stated.FrameStartTakesTagAndJudgesEyes := by
  intro s hconsole g x left right missing short once
  rw [exec_inputFrameStart hconsole, inputFrameStart, takeUpFrame_eq, takeUpFrame_eq, takeTag_eq, endInputFrame_eq]
  simp only [left, right, judged_eq, once, decide_eq_true_eq]
  rfl

/-- Settles O28: pixels, line starts and frame starts. -/
theorem pictureInputIsSliced : Obligations.PictureInputIsSliced :=
  ⟨pixelsBuildLinesAndSlices, lineStartBeginsALine, frameStartTakesTagAndJudgesEyes⟩

end Sys2Proof.Machine
end

