-- ==== Sys2Proof/Proofs/LaneSending.lean ====
section
/-! PROOF. The next packet of an eye, the arbiter's choice and the start of a packet (R101, R102, R105). O29 rests on
them. -/

namespace Sys2Proof.Machine

/-! ### The next packet -/

theorem next_eq (v : SenderEye) (n : Nat) :
    v.next n = (Stated.nextPacket v n).map fun p => { index := p.1, tag := p.2.1, pixels := p.2.2 } := by
  unfold SenderEye.next Stated.nextPacket
  cases v.queue with
  | cons sl rest => rfl
  | nil =>
    by_cases howes : v.voidsOwed = 0
    · simp [howes]
    · simp [howes, Nat.pos_of_ne_zero howes]

/-- R101: the packet of a ready eye. -/
theorem readyPacket_eq_some_iff {s : State} {e : Eye} {p : NextPacket} :
    s.readyPacket e = some p ↔
      Stated.nextPacket (s.laneTx.eyes.get e) s.store.geometry.slices = some (p.index, p.tag, p.pixels) ∧
        Stated.ready s e := by
  have hready {q} (hnext : Stated.nextPacket (s.laneTx.eyes.get e) s.store.geometry.slices = some q) :
      Stated.ready s e ↔
        Stated.gap s.store.geometry.slices q.1 (s.laneTx.eyes.get e).sent.toNat <
          ((s.laneTx.eyes.get e).horizon - (s.laneTx.eyes.get e).sent).toNat := by
    simp only [Stated.ready, hnext, Option.some.injEq, exists_eq_left']
  cases hnext : Stated.nextPacket (s.laneTx.eyes.get e) s.store.geometry.slices with
  | none => simp [State.readyPacket, State.sender, next_eq, hnext]
  | some q =>
    obtain ⟨index, tag, pixels⟩ := q
    have hpacket : s.readyPacket e =
        if Stated.gap s.store.geometry.slices index (s.laneTx.eyes.get e).sent.toNat <
            ((s.laneTx.eyes.get e).horizon - (s.laneTx.eyes.get e).sent).toNat then
          some { index := index, tag := tag, pixels := pixels }
        else none := by
      simp only [State.readyPacket, State.sender, next_eq, hnext, Option.map_some]
      rfl
    rw [hready hnext, hpacket]
    obtain ⟨index', tag', pixels'⟩ := p
    by_cases hroom : Stated.gap s.store.geometry.slices index (s.laneTx.eyes.get e).sent.toNat <
        ((s.laneTx.eyes.get e).horizon - (s.laneTx.eyes.get e).sent).toNat
    · rw [if_pos hroom]
      simp only [Option.some.injEq, NextPacket.mk.injEq, Prod.mk.injEq, and_iff_left hroom]
    · rw [if_neg hroom]
      exact ⟨nofun, fun h => absurd h.2 hroom⟩

theorem readyPacket_eq_none_iff {s : State} {e : Eye} : s.readyPacket e = none ↔ ¬ Stated.ready s e := by
  constructor
  · intro hnone hready
    obtain ⟨⟨index, tag, pixels⟩, hnext, _⟩ := id hready
    have hsome := readyPacket_eq_some_iff (p := { index := index, tag := tag, pixels := pixels }).mpr ⟨hnext, hready⟩
    rw [hnone] at hsome
    nomatch hsome
  · intro hnot
    cases hpacket : s.readyPacket e with
    | none => rfl
    | some p => exact absurd (readyPacket_eq_some_iff.mp hpacket).2 hnot

/-! ### The arbiter -/

theorem laneFree_iff {s : State} : s.laneFree = true ↔ Stated.laneIdle s := by
  simp only [State.laneFree, State.consoleActive, State.laneUp, Stated.laneIdle, Stated.console]
  cases s.straps.role <;> simp [and_assoc]

/-- R102: the choice of the arbiter where one eye is to be served; the flag says whether both were ready. -/
theorem laneChoice_of_ready {s : State} {e : Eye} {p : NextPacket} (hpacket : s.readyPacket e = some p)
    (hturn : ¬ Stated.ready s (Eye.other e) ∨ s.laneTx.leftNext = true ∧ e = .left ∨
      s.laneTx.leftNext = false ∧ s.laneTx.lastEye ≠ e) :
    s.laneChoice = some (e, p, (s.readyPacket (Eye.other e)).isSome) := by
  unfold State.laneChoice
  cases hother : s.readyPacket (Eye.other e) with
  | none =>
    cases e with
    | left =>
      rw [hpacket, show s.readyPacket .right = none from hother]
      rfl
    | right =>
      rw [hpacket, show s.readyPacket .left = none from hother]
      rfl
  | some q =>
    have hturn := hturn.resolve_left (not_not.mpr (readyPacket_eq_some_iff.mp hother).2)
    cases e with
    | left =>
      have hchosen : (s.laneTx.leftNext || s.laneTx.lastEye == .right) = true := by
        obtain ⟨hleft, _⟩ | ⟨_, hlast⟩ := hturn
        · simp [hleft]
        · cases hlast' : s.laneTx.lastEye <;> simp_all
      rw [hpacket, show s.readyPacket .right = some q from hother]
      exact if_pos hchosen
    | right =>
      obtain ⟨_, hleft⟩ | ⟨hnext, hlast⟩ := hturn
      · nomatch hleft
      · have hchosen : ¬ (s.laneTx.leftNext || s.laneTx.lastEye == .right) = true := by
          cases hlast' : s.laneTx.lastEye <;> simp_all
        rw [hpacket, show s.readyPacket .left = some q from hother]
        exact if_neg hchosen

/-! ### The packet -/

/-- R105: the bytes of a packet. -/
theorem packetBytes_eq (g : Geometry) (e : Eye) (p : NextPacket) (free : BitVec 48) :
    packetBytes g e p free = Stated.packet g e p.index (tagBytes p.tag free) p.tag.isSome p.pixels := by
  have hhead : beBytes 1 (Eye.code e) ++ beBytes 1 p.index ++ [flagByte [p.pixels.isNone, p.tag.isSome]] =
      [(match e with | .left => 0 | .right => 1), BitVec.ofNat 8 p.index,
        Stated.flags p.pixels.isNone p.tag.isSome false false] := by
    rw [flagByte_two, beBytes_one, beBytes_one]
    cases e <;> rfl
  unfold packetBytes Stated.packet
  rw [hhead, beBytes_one g.S]
  cases p.pixels <;> rfl

theorem tagBytes_length (tag : Option FrameTag) (free : BitVec 48) : (tagBytes tag free).length = 6 := by
  cases tag <;> rfl

/-- R101, R102: a packet started is one change of the lane sender; an untagged one uses a free value. -/
theorem startPacket_eq (e : Eye) (p : NextPacket) (both : Bool) (s : State) :
    startPacket e p both s =
      { s with
        free := if p.tag.isNone then s.free + 1 else s.free
        laneTx :=
          { s.laneTx with
            eyes := s.laneTx.eyes.put e ((s.laneTx.eyes.get e).started s.store.geometry.slices p)
            packet := some { eye := e, bytes := packetBytes s.store.geometry e p (Config.freeValue s.free) }
            lastEye := e
            leftNext := if both then false else s.laneTx.leftNext
            slicesSent := if p.pixels.isSome then bump s.laneTx.slicesSent else s.laneTx.slicesSent
            voidsSent := if p.pixels.isSome then s.laneTx.voidsSent else bump s.laneTx.voidsSent } } := by
  unfold startPacket
  cases p.tag <;> rfl

theorem laneStartsTheReadyEyesPacket : Stated.LaneStartsTheReadyEyesPacket := by
  intro s e index tag pixels hidle hnext hready hturn
  let p : NextPacket := { index := index, tag := tag, pixels := pixels }
  have hpacket : s.readyPacket e = some p := readyPacket_eq_some_iff.mpr ⟨hnext, hready⟩
  have hexec : exec .lanePacketStart s = .next (startPacket e p (s.readyPacket (Eye.other e)).isSome s) := by
    change execLanePacketStart s = _
    rw [execLanePacketStart, if_pos (laneFree_iff.mpr hidle), laneChoice_of_ready hpacket hturn]
  rw [startPacket_eq] at hexec
  have hvoid : pixels.isSome = false → (s.laneTx.eyes.get e).queue = [] := by
    intro hnone
    unfold Stated.nextPacket at hnext
    cases hqueue : (s.laneTx.eyes.get e).queue with
    | nil => rfl
    | cons sl rest =>
      rw [hqueue] at hnext
      cases hnext
      nomatch hnone
  have heye : (s.laneTx.eyes.put e ((s.laneTx.eyes.get e).started s.store.geometry.slices p)).get e =
      (s.laneTx.eyes.get e).started s.store.geometry.slices p := (both_get_put ..).trans (if_pos rfl)
  refine ⟨_, tagBytes tag (Config.freeValue s.free), hexec, tagBytes_length .., fun x hx => ?tag, ?packet, ?other,
    ?sent, ?queue, ?owed, rfl, ?voids, rfl, fun hboth => ?left, rfl, rfl, rfl⟩
  case tag =>
    rw [hx]
    rfl
  case packet =>
    exact congrArg (fun bytes => some ({ eye := e, bytes := bytes } : LanePacket)) (packetBytes_eq ..)
  case other => cases e <;> rfl
  case sent =>
    dsimp only
    rw [heye]
    rfl
  case queue =>
    dsimp only
    rw [heye]
    cases hpixels : pixels.isSome with
    | true => exact if_pos hpixels
    | false =>
      rw [hvoid hpixels]
      exact (if_neg (ne_true_of_eq_false hpixels)).trans (hvoid hpixels)
  case owed =>
    dsimp only
    rw [heye]
    cases pixels <;> rfl
  case voids => cases pixels <;> rfl
  case left =>
    have hsome : (s.readyPacket (Eye.other e)).isSome = true :=
      Option.isSome_iff_ne_none.mpr fun h => readyPacket_eq_none_iff.mp h hboth
    exact if_pos hsome

theorem laneWaitsAndIsFreed : Stated.LaneWaitsAndIsFreed := by
  refine ⟨fun s hwaits => ?_, fun s => rfl⟩
  change execLanePacketStart s = _
  rw [execLanePacketStart]
  obtain hbusy | ⟨hleft, hright⟩ := hwaits
  · rw [if_neg (mt laneFree_iff.mp hbusy)]
  · have hchoice : s.laneChoice = none := by
      rw [State.laneChoice, readyPacket_eq_none_iff.mpr hleft, readyPacket_eq_none_iff.mpr hright]
    rw [hchoice]
    exact ite_self _

/-- Settles O29: what the lane starts, and when it waits. -/
theorem laneSendsTheReadyEye : Obligations.LaneSendsTheReadyEye :=
  ⟨laneStartsTheReadyEyesPacket, laneWaitsAndIsFreed⟩

end Sys2Proof.Machine
end

