-- ==== Sys2Proof/Proofs/LaneLevels.lean ====
section
/-! PROOF. The end of a packet that is arriving, and the lane's level going down and up (R103, R106, R109, R119 to
R121). O30 and O34 rest on them. -/

namespace Sys2Proof.Machine

/-! ### The end of a packet -/

/-- R119: bytes written from the start of an area stand there, and every other byte reads as before. -/
theorem areaWritten_write (m : Memory) (b : Fin 256) (bytes : List Byte) :
    Stated.areaWritten m (m.write (areaBase b) bytes) b bytes := by
  refine ⟨fun i hi => ?_, fun a ha => Memory.read_write_outside m _ bytes a ha⟩
  have hread := Memory.read_write_inside m (areaBase b) bytes (areaBase b + i) (Nat.le_add_right ..) (by omega)
  rw [Nat.add_sub_cancel_left, List.getD_eq_getElem _ _ hi] at hread
  exact hread

theorem endWrite_of_idle {k : SliceStore} {b : Fin 256} (agrees : Bool) (h : k.buffers[b].writing = false) :
    k.endWrite b agrees = k :=
  if_neg (ne_true_of_eq_false h)

theorem endWrite_of_writing {k : SliceStore} {b : Fin 256} (agrees : Bool) (h : k.buffers[b].writing = true) :
    k.endWrite b agrees =
      if agrees then k.updBuffer b (fun r => { r with content := .pixels, writing := false })
      else { k.updBuffer b (fun r => { r with writing := false }) with checkFailures := bump k.checkFailures } :=
  if_pos h

/-- R109, R119 to R121: the end of a packet does to the slice store what the documents say. -/
theorem packetEnded_endPacket (s : State) (x : Arriving) (run : PixelRun) (agrees : Bool) :
    Stated.packetEnded s x run (agrees = true) (s.store.endPacket x run agrees) := by
  refine ⟨fun hnone => by rw [SliceStore.endPacket, hnone], fun b hb => ?_⟩
  have hwritten := areaWritten_write s.store.mem b (Stated.bytesWritten s b run)
  let k : SliceStore := { s.store with mem := s.store.mem.write (areaBase b) (Stated.bytesWritten s b run) }
  have hend : s.store.endPacket x run agrees = k.endWrite b agrees := by
    rw [SliceStore.endPacket, hb]
    rfl
  cases hwriting : s.store.buffers[b].writing with
  | false =>
    rw [hend.trans (endWrite_of_idle agrees hwriting)]
    exact ⟨hwritten, fun _ => rfl, nofun, nofun⟩
  | true =>
    rw [hend.trans (endWrite_of_writing agrees hwriting)]
    cases agrees with
    | true => exact ⟨hwritten, nofun, fun _ _ => rfl, fun _ h => absurd rfl h⟩
    | false => exact ⟨hwritten, nofun, fun _ => nofun, fun _ _ => rfl⟩

theorem packetEnded_congr {s : State} {x : Arriving} {run : PixelRun} {p q : Prop} (h : p ↔ q) (k : SliceStore) :
    Stated.packetEnded s x run p k ↔ Stated.packetEnded s x run q k := by
  rw [propext h]

/-- R109, R119: a packet that is cut short ends with its check failed. -/
theorem packetEnded_cut (s : State) (x : Arriving) (run : PixelRun) :
    Stated.packetEnded s x run False (s.store.endPacket x run false) :=
  (packetEnded_congr ⟨nofun, nofun⟩ _).mp (packetEnded_endPacket s x run false)

theorem pixelsAgree_iff (g : Geometry) (pixels : List Byte) (check : BitVec 32) :
    pixelsAgree g pixels check = true ↔ pixels.length = g.S * g.W * 3 ∧ check = pixelCheck pixels := by
  simp [pixelsAgree, Geometry.sliceBytes]

theorem packetEndWritesTheBufferArea : Stated.PacketEndWritesTheBufferArea := by
  intro s x run check hpacket hfits
  refine ⟨s.store.endPacket x run (pixelsAgree s.store.geometry run.bytes check), ?_,
    (packetEnded_congr (pixelsAgree_iff ..) _).mp (packetEnded_endPacket ..)⟩
  have hfits : s.store.geometry.fits = true := decide_eq_true hfits
  change execPacketEnd run check s = _
  rw [execPacketEnd, hpacket]
  exact if_pos hfits

theorem packetEndElsewhereWritesNothing : Stated.PacketEndElsewhereWritesNothing := by
  intro s run check
  change (_ → execPacketEnd run check s = _) ∧ (_ → _ → execPacketEnd run check s = _)
  refine ⟨fun hnone => by rw [execPacketEnd, hnone], fun hsome hlarge => ?_⟩
  obtain ⟨x, hpacket⟩ := Option.ne_none_iff_exists'.mp hsome
  have hfits : ¬ s.store.geometry.fits = true := fun h => Nat.not_lt.mpr (of_decide_eq_true h) hlarge
  rw [execPacketEnd, hpacket]
  exact if_neg hfits

/-- Settles O34: the end of a pixel packet. -/
theorem packetEndWritesItsBufferAlone : Obligations.PacketEndWritesItsBufferAlone :=
  ⟨packetEndWritesTheBufferArea, packetEndElsewhereWritesNothing⟩

/-! ### The lane's level -/

theorem setCondition_present (f : Flag) (present : Bool) (s : State) :
    (setCondition f present s).alarms.present.getLsbD f.number = present := by
  cases present with
  | true => exact arise_present f s
  | false =>
    have hmask : (~~~f.mask).getLsbD f.number = false := by
      rw [BitVec.getLsbD_not, getLsbD_number_mask]
      exact Bool.and_false _
    change (s.alarms.present &&& ~~~f.mask).getLsbD f.number = false
    rw [BitVec.getLsbD_and, hmask, Bool.and_false]

theorem laneUp_of_headset {s : State} (h : s.straps.role = .headset) : s.laneUp = s.pins.laneSignal := by
  simp only [State.laneUp, h]

theorem laneUp_of_console {s : State} (h : s.straps.role = .console) (hstep : s.power.step ≠ 0) :
    s.laneUp = s.pins.laneSignal := by
  simp [State.laneUp, h, hstep]

/-- R103, R106: while the lane is DOWN its condition is present in RUNNING. -/
theorem refreshLane_present {s : State} (hrole : s.straps.role ≠ .supply) (hdown : s.laneUp = false) :
    (refreshLane s).alarms.present.getLsbD 11 = decide (s.loader.life = .running) := by
  have hcondition : s.laneCondition = decide (s.loader.life = .running) := by
    simp only [State.laneCondition, bne_iff_ne.mpr hrole, hdown]
    cases s.loader.life <;> rfl
  rw [← hcondition]
  exact setCondition_present .lane _ s

/-- R103, R106: the lane's signal goes, at a station whose lane has been UP. -/
theorem setLaneSignal_false {s : State} (run : PixelRun) (hrole : s.straps.role ≠ .supply) (hup : s.laneUp = true)
    (hdown : (s.updPins fun p => { p with laneSignal := false }).laneUp = false) :
    setLaneSignal false run s =
      refreshLane (laneGoesDown run (s.updPins fun p => { p with laneSignal := false })) := by
  simp only [setLaneSignal, if_neg hrole, settleLane, hup, hdown]
  rfl

theorem laneDownAtHeadset (s : State) (run : PixelRun) (hrole : s.straps.role = .headset)
    (hsignal : s.pins.laneSignal = true) :
    ∃ t, exec (.laneDown run) s = .next t ∧ t.pins = { s.pins with laneSignal := false } ∧
      t.laneRx = { s.laneRx with packet := none, laneDowns := bump s.laneRx.laneDowns } ∧
      (s.laneRx.packet = none → t.store = s.store) ∧
      (∀ x, s.laneRx.packet = some x → Stated.packetEnded s x run False t.store) ∧
      t.alarms.present.getLsbD 11 = decide (s.loader.life = .running) ∧
      t = { s with pins := t.pins, laneRx := t.laneRx, store := t.store, alarms := t.alarms, slots := t.slots } := by
  let u := s.updPins fun p => { p with laneSignal := false }
  let w := (cutArriving run u).updLaneRx fun r => { r with laneDowns := bump r.laneDowns }
  have hgoes : laneGoesDown run u = w := by
    unfold laneGoesDown
    rw [show u.straps.role = .headset from hrole]
  have hexec : exec (.laneDown run) s = .next (refreshLane w) := by
    rw [← hgoes]
    exact congrArg Host.Outcome.next (setLaneSignal_false run (by rw [hrole]; nofun)
      ((laneUp_of_headset hrole).trans hsignal) (laneUp_of_headset (s := u) hrole))
  have hcut : (w.laneRx = { s.laneRx with packet := none, laneDowns := bump s.laneRx.laneDowns }) ∧
      (s.laneRx.packet = none → w.store = s.store) ∧
      ∀ x, s.laneRx.packet = some x → Stated.packetEnded s x run False w.store := by
    cases hpacket : s.laneRx.packet with
    | none =>
      have hw : w = u.updLaneRx fun r => { r with laneDowns := bump r.laneDowns } := by
        simp only [w, cutArriving, show u.laneRx.packet = none from hpacket]
      rw [hw, ← hpacket]
      exact ⟨rfl, fun _ => rfl, fun x h => by rw [hpacket] at h; nomatch h⟩
    | some x =>
      have hw : w = (endArriving x run false u).updLaneRx fun r => { r with laneDowns := bump r.laneDowns } := by
        simp only [w, cutArriving, show u.laneRx.packet = some x from hpacket]
      rw [hw]
      refine ⟨rfl, nofun, fun y hy => ?_⟩
      cases hy
      exact packetEnded_cut s x run
  have hw : w = { s with pins := u.pins, laneRx := w.laneRx, store := w.store } := by
    apply State.ext_parts <;> simp [w, u]
  obtain ⟨hlaneRx, hidle, harriving⟩ := hcut
  refine ⟨_, hexec, by simp [w, u], ?_, ?_, ?_, ?_, ?_⟩
  · simpa using hlaneRx
  · simpa using hidle
  · simpa using harriving
  · have hpresent := refreshLane_present (s := w) (by rw [hw]; simp [hrole])
      ((laneUp_of_headset (by rw [hw]; exact hrole)).trans (by rw [hw]; rfl))
    rw [hpresent, hw]
  · apply State.ext_parts <;> simp [w, u]

theorem laneDownAtConsole (s : State) (run : PixelRun) (hrole : s.straps.role = .console)
    (hsignal : s.pins.laneSignal = true) (hstep : s.power.step ≠ 0) :
    ∃ t, exec (.laneDown run) s = .next t ∧ t.pins = { s.pins with laneSignal := false } ∧
      t.laneTx = { s.laneTx with packet := none, laneDowns := bump s.laneTx.laneDowns } ∧
      t.alarms.present.getLsbD 11 = decide (s.loader.life = .running) ∧
      t = { s with pins := t.pins, laneTx := t.laneTx, alarms := t.alarms, slots := t.slots } := by
  let u := s.updPins fun p => { p with laneSignal := false }
  let w := u.updLaneTx fun x => { x with packet := none, laneDowns := bump x.laneDowns }
  have hgoes : laneGoesDown run u = w := by
    unfold laneGoesDown
    rw [show u.straps.role = .console from hrole]
  have hexec : exec (.laneDown run) s = .next (refreshLane w) := by
    rw [← hgoes]
    exact congrArg Host.Outcome.next (setLaneSignal_false run (by rw [hrole]; nofun)
      ((laneUp_of_console hrole hstep).trans hsignal) (laneUp_of_console (s := u) hrole hstep))
  refine ⟨_, hexec, by simp [w, u], by simp [w, u], ?_, ?_⟩
  · exact refreshLane_present (s := w) (by rw [show w.straps.role = .console from hrole]; nofun)
      (laneUp_of_console (s := w) hrole hstep)
  · apply State.ext_parts <;> simp [w, u]

/-- R103, R106: the lane's signal comes. -/
theorem laneUpEndsTheCondition (s : State)
    (hpresent : s.straps.role = .headset ∨ s.straps.role = .console ∧ s.power.step ≠ 0) :
    exec .laneUp s = .next
      { s with
        pins := { s.pins with laneSignal := true }
        alarms := { s.alarms with present := s.alarms.present &&& ~~~2048#12 } } := by
  let u := s.updPins fun p => { p with laneSignal := true }
  have hup : u.laneUp = true := by
    obtain hrole | ⟨hrole, hstep⟩ := hpresent
    · exact laneUp_of_headset (s := u) hrole
    · exact laneUp_of_console (s := u) hrole hstep
  have hrole : s.straps.role ≠ .supply := by
    obtain hrole | ⟨hrole, _⟩ := hpresent <;> rw [hrole] <;> nofun
  have hcondition : u.laneCondition = false := by simp [State.laneCondition, hup]
  have hset : setLaneSignal true noPixels s = endCondition .lane u := by
    simp only [setLaneSignal, if_neg hrole, settleLane, refreshLane, show
      (s.updPins fun p => { p with laneSignal := true }) = u from rfl, hup, Bool.not_true, Bool.and_false, setCondition,
      Bool.false_eq_true, if_false, hcondition]
  exact congrArg Host.Outcome.next hset

/-- Settles O30: the lane going down at the headset and at the console, and coming up. -/
theorem laneDownAndUp : Obligations.LaneDownAndUp :=
  ⟨laneDownAtHeadset, laneDownAtConsole, laneUpEndsTheCondition⟩

end Sys2Proof.Machine
end

