-- ==== Sys2Proof/Proofs/Credits.lean ====
section
/-! PROOF. A message handed to its unit, and a CREDIT at the console (R30, R104). O31 rests on them. -/

namespace Sys2Proof.Machine

/-! ### Messages handed to a unit -/

/-- R30: a message for a unit is handed to it, the intake counting it. -/
theorem routeMessage_of_unit {m : Arrival} {s : State} {u : TakingUnit}
    (hunitFor : unitFor s.straps.role m.rank = some u) (hunit : Stated.toUnit s m.rank) :
    routeMessage m s =
      handTo u m { s with intake := Stated.takenIn s.intake (Stated.acts s m.rank) m.rank m.body m.start } := by
  rw [routeMessage_eq, acts_eq, hunitFor]
  obtain hd | hd := hunit
  · rw [hd]
    rfl
  · rw [hd]
    dsimp only [actsAs]
    rw [takenIn_store _ (.inr rfl)]
    rfl

/-- R14, R30: a message of another origin, received well, is handed to its unit; the spine and the intake are what it
leaves of them. -/
theorem exec_messageTaken_of_unit {s : State} {m : Received} {u : TakingUnit} (hreceiving : Stated.receiving s)
    (hcheck : m.check = spineCheck m.rank m.body) (hlength : m.body.length ≤ 40)
    (hother : m.rank.toNat % 8 ≠ s.straps.node.val) (hunitFor : unitFor s.straps.role m.rank = some u)
    (hunit : Stated.toUnit s m.rank)
    (hstanding : standingOf s.spine.sfc (Stated.afterReceipt s.spine.tfc) s.spine.strain = s.spine.standing) :
    ∃ p k, p.standing = s.spine.standing ∧ exec (.messageTaken m) s =
      .next (handTo u (takenArrival m (settleStanding (receiptGood s))) { s with spine := p, intake := k }) := by
  have ⟨_, hcut, htx, _⟩ := hreceiving
  obtain ⟨-, hstraps, hintake⟩ := settled_receiptGood s
  have hsettled := settleStanding_receiptGood hcut htx fun h => hstanding.trans h
  have hroute := routeMessage_of_unit (m := takenArrival m (settleStanding (receiptGood s)))
    (s := settleStanding (receiptGood s)) (by rw [hstraps]; exact hunitFor)
    (by unfold Stated.toUnit; rw [hintake]; exact hunit)
  rw [← messageTaken_of_other hother, hsettled] at hroute
  rw [hsettled]
  exact ⟨_, _, hstanding, (exec_messageTaken hreceiving hlength hcheck).trans (congrArg Host.Outcome.next hroute)⟩

/-! ### CREDIT -/

/-- R104: an eye takes its part of a CREDIT. -/
theorem creditEye_eq (e : Eye) (newEpoch : Bool) (horizon accepted : BitVec 16) (s : State) :
    creditEye e newEpoch horizon accepted s =
      let v := s.laneTx.eyes.get e
      if newEpoch = true ∨ s.store.geometry.slices < (horizon - v.sent).toNat then
        { s with
          laneTx :=
            { s.laneTx with
              eyes := s.laneTx.eyes.put e
                { v with input := .dropping, voidsOwed := 0, voidTag := none, queue := [], sent := accepted
                         horizon := horizon }
              flushed := bumpBy s.laneTx.flushed v.queue.length
              framesDropped :=
                if v.input = .dropping then s.laneTx.framesDropped else bump s.laneTx.framesDropped
              resyncs := bump s.laneTx.resyncs } }
      else { s with laneTx := { s.laneTx with eyes := s.laneTx.eyes.put e { v with horizon := horizon } } } := by
  have hcondition : (newEpoch || decide (s.store.geometry.slices < (horizon - (s.sender e).sent).toNat)) = true ↔
      newEpoch = true ∨ s.store.geometry.slices < (horizon - (s.laneTx.eyes.get e).sent).toNat := by
    rw [Bool.or_eq_true, decide_eq_true_eq]
    rfl
  exact if_congr hcondition rfl rfl

/-- R104: what a CREDIT makes of an eye. -/
def creditedEye (g : Geometry) (newEpoch : Bool) (v : SenderEye) (horizon accepted : BitVec 16) : SenderEye :=
  if newEpoch = true ∨ g.slices < (horizon - v.sent).toNat then
    { v with input := .dropping, voidsOwed := 0, voidTag := none, queue := [], sent := accepted, horizon := horizon }
  else { v with horizon := horizon }

theorem creditEye_laneTx (e : Eye) (newEpoch : Bool) (horizon accepted : BitVec 16) (s : State) :
    ∃ flushed framesDropped resyncs, creditEye e newEpoch horizon accepted s =
        { s with
          laneTx :=
            { s.laneTx with
              eyes := s.laneTx.eyes.put e
                (creditedEye s.store.geometry newEpoch (s.laneTx.eyes.get e) horizon accepted)
              flushed := flushed
              framesDropped := framesDropped
              resyncs := resyncs } } ∧
      (newEpoch = true ∨ s.store.geometry.slices < (horizon - (s.laneTx.eyes.get e).sent).toNat →
        resyncs = bump s.laneTx.resyncs) ∧
      (¬ (newEpoch = true ∨ s.store.geometry.slices < (horizon - (s.laneTx.eyes.get e).sent).toNat) →
        resyncs = s.laneTx.resyncs ∧ flushed = s.laneTx.flushed ∧ framesDropped = s.laneTx.framesDropped) := by
  rw [creditEye_eq]
  dsimp only
  rw [creditedEye]
  by_cases h : newEpoch = true ∨ s.store.geometry.slices < (horizon - (s.laneTx.eyes.get e).sent).toNat
  · rw [if_pos h, if_pos h]
    exact ⟨_, _, _, rfl, fun _ => rfl, fun hnot => absurd h hnot⟩
  · rw [if_neg h, if_neg h]
    exact ⟨_, _, _, rfl, fun hpos => absurd hpos h, fun _ => ⟨rfl, rfl, rfl⟩⟩

/-- Settles O31: a CREDIT taken by both eyes. -/
theorem creditMovesHorizonOrResynchronises : Obligations.CreditMovesHorizonOrResynchronises := by
  unfold Obligations.CreditMovesHorizonOrResynchronises
  intro s m epoch lh la rh ra hreceiving hrole hcheck hrank hother hunit hstanding hbody resyncs after
  have hlength : m.body.length = 9 := by rw [hbody]; rfl
  have hclass : rankClass m.rank = 2 := by unfold rankClass; omega
  have htopic : rankTopic m.rank = 0 := by unfold rankTopic; omega
  have hformed : creditMalformed m.rank m.body = false := by simp [creditMalformed, hlength, htopic]
  obtain ⟨p, k, -, hexec⟩ := exec_messageTaken_of_unit (u := .lane) hreceiving hcheck (by omega) hother
    (by rw [unitFor, hclass, hrole]; rfl) hunit hstanding
  have hepoch : byteAt m.body 0 = epoch := by rw [hbody]; rfl
  have hword (v : BitVec 16) : BitVec.ofNat 16 (fromBytes (beBytes 2 v.toNat)) = v := by
    rw [fromBytes_beBytes_two v.isLt, BitVec.ofNat_toNat, BitVec.setWidth_eq]
  have hlh : BitVec.ofNat 16 (fieldAt m.body 1 2) = lh := by rw [hbody]; exact hword lh
  have hla : BitVec.ofNat 16 (fieldAt m.body 3 2) = la := by rw [hbody]; exact hword la
  have hrh : BitVec.ofNat 16 (fieldAt m.body 5 2) = rh := by rw [hbody]; exact hword rh
  have hra : BitVec.ofNat 16 (fieldAt m.body 7 2) = ra := by rw [hbody]; exact hword ra
  let u : State := { s with spine := p, intake := k }
  let counted := u.updLaneTx fun t => { t with creditsTaken := bump t.creditsTaken }
  let newEpoch := s.laneTx.epochHeld != some epoch
  have hnew : newEpoch = true ↔ s.laneTx.epochHeld ≠ some epoch := bne_iff_ne
  obtain ⟨f, d, r, hleft, hleftResync, hleftKeep⟩ := creditEye_laneTx .left newEpoch lh la counted
  obtain ⟨f', d', r', hright, hrightResync, hrightKeep⟩ :=
    creditEye_laneTx .right newEpoch rh ra (creditEye .left newEpoch lh la counted)
  have htake : takeCredit m.rank m.body u =
      (creditEye .right newEpoch rh ra (creditEye .left newEpoch lh la counted)).updLaneTx fun t =>
        { t with epochHeld := some epoch } := by
    rw [takeCredit, hformed, if_neg nofun]
    dsimp only
    rw [hepoch, hlh, hla, hrh, hra]
  rw [hright, hleft] at htake
  rw [hleft] at hrightResync hrightKeep
  have hafter (v : SenderEye) (h a : BitVec 16) : creditedEye s.store.geometry newEpoch v h a = after v h a :=
    if_congr (or_congr_left hnew) rfl rfl
  refine ⟨_, hexec.trans (congrArg Host.Outcome.next htake), ?_, rfl, rfl, fun hl hr => ?_, fun hl hr => ?_, rfl, rfl,
    rfl, rfl⟩
  · exact congr (congrArg Both.mk (hafter _ lh la)) (hafter _ rh ra)
  · obtain ⟨h1, h2, h3⟩ := hleftKeep (mt (or_congr_left hnew).mp hl)
    obtain ⟨h1', h2', h3'⟩ := hrightKeep (mt (or_congr_left hnew).mp hr)
    exact ⟨h1'.trans h1, h2'.trans h2, h3'.trans h3⟩
  · exact (hrightResync ((or_congr_left hnew).mpr hr)).trans (congrArg bump (hleftResync ((or_congr_left hnew).mpr hl)))

end Sys2Proof.Machine
end

