-- ==== Sys2Proof/Proofs/Headers.lean ====
section
/-! PROOF. Headers that the lane receiver does not take, and the map fault (R107, R108, R122). O32 rests on them. -/

namespace Sys2Proof.Machine

/-! ### Map faults -/

/-- R122: a fault behind a frozen record is counted in it. -/
theorem mapFault_of_held {s : State} {f : MapFault} (h : s.store.fault = some f) (kind : MapFaultKind) (e : Eye)
    (index : Byte) (tag : Tag) :
    mapFault kind e index tag s =
      { s with
        store :=
          { s.store with mapFaults := bump s.store.mapFaults, fault := some { f with later := bump f.later } } } := by
  unfold mapFault
  dsimp only
  rw [show (s.updStore fun k => { k with mapFaults := bump k.mapFaults }).store.fault = some f from h]
  rfl

/-- R122: a fault without a frozen record fills it, and latches MAP. -/
theorem mapFault_of_none {s : State} (h : s.store.fault = none) (kind : MapFaultKind) (e : Eye) (index : Byte)
    (tag : Tag) :
    mapFault kind e index tag s =
      latch .map
        { s with
          store :=
            { s.store with
              mapFaults := bump s.store.mapFaults
              captures := bump s.store.captures
              fault := some
                { kind := kind, eye := e, index := index, tag := tag, time := s.agreedUs, later := 0 } } } := by
  unfold mapFault
  dsimp only
  rw [show (s.updStore fun k => { k with mapFaults := bump k.mapFaults }).store.fault = none from h]
  rfl

/-- R122: what a fault changes of the slice store. -/
theorem mapFault_store (kind : MapFaultKind) (e : Eye) (index : Byte) (tag : Tag) (s : State) :
    ∃ captures fault, (mapFault kind e index tag s).store =
      { s.store with mapFaults := bump s.store.mapFaults, captures := captures, fault := fault } := by
  cases h : s.store.fault with
  | some f =>
    rw [mapFault_of_held h]
    exact ⟨_, _, rfl⟩
  | none =>
    rw [mapFault_of_none h]
    exact ⟨bump s.store.captures, some (newFault s kind e index tag), by simp [newFault]⟩

theorem get_mapFault_of_ne {n : SlotName} (hn : n ≠ .alarm) (kind : MapFaultKind) (e : Eye) (index : Byte) (tag : Tag)
    (s : State) : (mapFault kind e index tag s).slots.get n = s.slots.get n := by
  cases h : s.store.fault with
  | some f => rw [mapFault_of_held h]
  | none =>
    rw [mapFault_of_none h]
    exact get_latch_of_ne hn ..

/-! ### Headers -/

theorem headsetActive_of_signalled {s : State} (h : Stated.laneSignalled s) : s.headsetActive = true := by
  obtain ⟨hrole, hlife, _⟩ := h
  simp [State.headsetActive, hrole, hlife]

theorem exec_packetHeader {s : State} (h : PacketHeader) (cut : PixelRun) (hsignalled : Stated.laneSignalled s) :
    exec (.packetHeader h cut) s = .next (packetHeader cut h s) := by
  have hactive : (s.headsetActive && s.pins.laneSignal) = true := by
    rw [headsetActive_of_signalled hsignalled, hsignalled.2.2]
    rfl
  exact congrArg Host.Outcome.next (if_pos hactive)

/-- R107: the checks of a header. -/
theorem headerBad_eq_true_iff (s : State) (h : PacketHeader) :
    headerBad h s.store.geometry = true ↔ ¬ Stated.headerGood s h := by
  have hbytes : headerBytes h = [h.eye, h.index, h.flags] ++ beBytes 4 h.target.toNat ++ beBytes 2 h.pose.toNat ++
      [h.lines] ++ beBytes 2 h.width.toNat := rfl
  simp only [headerBad, Stated.headerGood, hbytes, Bool.or_eq_true, bne_iff_ne, ne_eq, decide_eq_true_eq, not_and_or,
    not_le, not_lt, or_assoc]

theorem packetHeader_of_bad {s : State} {h : PacketHeader} (cut : PixelRun) (hidle : s.laneRx.packet = none)
    (hbad : ¬ Stated.headerGood s h) :
    packetHeader cut h s =
      { s with laneRx := { s.laneRx with headerDiscards := bump s.laneRx.headerDiscards } } := by
  have hcut : cutArriving cut s = s := by rw [cutArriving, hidle]
  unfold packetHeader
  dsimp only
  rw [hcut]
  exact if_pos ((headerBad_eq_true_iff s h).mpr hbad)

theorem packetHeader_of_good {s : State} {h : PacketHeader} (cut : PixelRun) (hidle : s.laneRx.packet = none)
    (hgood : Stated.headerGood s h) : packetHeader cut h s = placePacket h s := by
  have hcut : cutArriving cut s = s := by rw [cutArriving, hidle]
  unfold packetHeader
  dsimp only
  rw [hcut]
  exact if_neg fun hbad => (headerBad_eq_true_iff s h).mp hbad hgood

/-- R108, R122: a header beyond the window. -/
theorem placePacket_of_far {s : State} {h : PacketHeader}
    (hfar : ((s.laneRx.eyes.get (headerEye h)).horizon - (s.laneRx.eyes.get (headerEye h)).accepted).toNat ≤
      Stated.gap s.store.geometry.slices h.index.toNat
        ((s.laneRx.eyes.get (headerEye h)).accepted.toNat % s.store.geometry.slices)) :
    placePacket h s =
      mapFault .overrun (headerEye h) h.index (headerTag h)
        { s with laneRx := { s.laneRx with overruns := bump s.laneRx.overruns } } :=
  if_neg (Nat.not_lt.mpr hfar)

/-- Settles O32: a header that fails a check, and one beyond the window. -/
theorem badOrFarHeadersAreNotTaken : Obligations.BadOrFarHeadersAreNotTaken := by
  unfold Obligations.BadOrFarHeadersAreNotTaken
  intro s cut h e hpresent
  obtain ⟨hsignalled, hidle⟩ := hpresent
  rw [exec_packetHeader h cut hsignalled]
  refine ⟨fun hbad => congrArg Host.Outcome.next (packetHeader_of_bad cut hidle hbad), fun hgood he hfar => ?_⟩
  subst he
  let u : State := { s with laneRx := { s.laneRx with overruns := bump s.laneRx.overruns } }
  have hplace := (packetHeader_of_good cut hidle hgood).trans (placePacket_of_far (h := h) hfar)
  refine ⟨_, congrArg Host.Outcome.next hplace, ?_⟩
  cases hfault : s.store.fault with
  | some f =>
    have ht := mapFault_of_held (s := u) hfault .overrun (headerEye h) h.index (headerTag h)
    rw [show mapFault .overrun (headerEye h) h.index (headerTag h) { s with laneRx := _ } = _ from ht]
    refine ⟨rfl, rfl, nofun, fun f' hf' => ?_, rfl, rfl, rfl, rfl⟩
    cases hf'
    exact ⟨rfl, rfl, rfl⟩
  | none =>
    obtain ⟨v, hv⟩ : ∃ v : State, v =
        { u with
          store :=
            { u.store with
              mapFaults := bump u.store.mapFaults
              captures := bump u.store.captures
              fault := some
                { kind := .overrun, eye := headerEye h, index := h.index, tag := headerTag h, time := u.agreedUs
                  later := 0 } } } := ⟨_, rfl⟩
    have ht : mapFault .overrun (headerEye h) h.index (headerTag h) u = latch .map v := by
      rw [hv]
      exact mapFault_of_none (s := u) hfault ..
    rw [show mapFault .overrun (headerEye h) h.index (headerTag h) { s with laneRx := _ } = _ from ht]
    have hlatched : (latch .map v).alarms.latched.getLsbD 7 = true := by
      rw [latch_latched, BitVec.getLsbD_or, show Flag.map.mask.getLsbD 7 = true from rfl, Bool.or_true]
    refine ⟨?_, ?_, fun _ => ⟨?_, hlatched, ?_⟩, nofun, ?_, ?_, ?_, ?_⟩
    case refine_8 => apply State.ext_parts <;> simp [hv, u]
    all_goals simp only [latch_frame]; rw [hv]
    rfl

end Sys2Proof.Machine
end

