-- ==== Sys2Proof/Proofs/Takes.lean ====
section
/-! PROOF. The horizon recomputed, the positions of a gap voided and a packet taken (R108 to R111, R118 to R120). O33
rests on them. -/

namespace Sys2Proof.Machine

/-! ### The horizon recomputed -/

/-- R110: the state with the horizon of an eye recomputed, before CREDIT is loaded. -/
def rehorizoned (e : Eye) (s : State) : State := s.updReceiver e fun r => { r with horizon := horizonOf s e }

/-- R111: a horizon differs from the one last loaded. -/
def creditStale (r : LaneReceiver) : Bool := r.eyes.left.stale || r.eyes.right.stale

theorem recomputeHorizon_eq (e : Eye) (s : State) :
    recomputeHorizon e s = if creditStale (rehorizoned e s).laneRx then loadCredit (rehorizoned e s)
      else rehorizoned e s := rfl

theorem creditStale_iff (r : LaneReceiver) :
    creditStale r = true ↔ ∃ e, (r.eyes.get e).lastLoaded ≠ some (r.eyes.get e).horizon := by
  simp only [creditStale, ReceiverEye.stale, Bool.or_eq_true, bne_iff_ne]
  exact ⟨fun h => h.elim (⟨.left, ·⟩) (⟨.right, ·⟩), fun ⟨e, h⟩ => by cases e; exacts [.inl h, .inr h]⟩

theorem loadCredit_of_refused {s : State} (h : s.loadRefused = true) : loadCredit s = countRefused .credit s := by
  rw [loadCredit, h]
  rfl

/-- R110, R111: what a recomputation makes of the receiver: the horizon of its eye, and the horizons last loaded. -/
theorem recomputeHorizon_laneRx (e : Eye) (s : State) :
    ∃ last : Eye → Option (BitVec 16), ∃ loads, (recomputeHorizon e s).laneRx =
      { (rehorizoned e s).laneRx with
        eyes :=
          { left := { (rehorizoned e s).laneRx.eyes.left with lastLoaded := last .left }
            right := { (rehorizoned e s).laneRx.eyes.right with lastLoaded := last .right } }
        creditLoads := loads } := by
  have hsame (r : LaneReceiver) : ∃ last : Eye → Option (BitVec 16), ∃ loads, r =
      { r with
        eyes :=
          { left := { r.eyes.left with lastLoaded := last .left }
            right := { r.eyes.right with lastLoaded := last .right } }
        creditLoads := loads } := ⟨fun e => (r.eyes.get e).lastLoaded, r.creditLoads, rfl⟩
  rw [recomputeHorizon_eq]
  split
  · cases hrefused : (rehorizoned e s).loadRefused with
    | true =>
      rw [loadCredit_of_refused hrefused]
      exact hsame _
    | false =>
      rw [loadCredit_of_taken hrefused]
      exact ⟨fun e' => some ((rehorizoned e s).laneRx.eyes.get e').horizon, _, rfl⟩
  · exact hsame _

/-- R110: the positions that a recomputation leaves. -/
theorem recomputeHorizon_positions (e : Eye) (s : State) :
    (∀ e', ((recomputeHorizon e s).laneRx.eyes.get e').accepted = (s.laneRx.eyes.get e').accepted) ∧
      ((recomputeHorizon e s).laneRx.eyes.get e).horizon = horizonOf s e ∧
      ((recomputeHorizon e s).laneRx.eyes.get (Eye.other e)).horizon = (s.laneRx.eyes.get (Eye.other e)).horizon := by
  obtain ⟨last, loads, h⟩ := recomputeHorizon_laneRx e s
  rw [h]
  refine ⟨fun e' => ?_, ?_, ?_⟩
  · cases e <;> cases e' <;> rfl
  · cases e <;> rfl
  · cases e <;> rfl

theorem recomputeHorizon_counters (e : Eye) (s : State) :
    (recomputeHorizon e s).laneRx.packet = s.laneRx.packet ∧
      (recomputeHorizon e s).laneRx.packetsTaken = s.laneRx.packetsTaken ∧
      (recomputeHorizon e s).laneRx.voidsTaken = s.laneRx.voidsTaken ∧
      (recomputeHorizon e s).laneRx.voided = s.laneRx.voided := by
  obtain ⟨last, loads, h⟩ := recomputeHorizon_laneRx e s
  rw [h]
  exact ⟨rfl, rfl, rfl, rfl⟩

/-- R110: the horizon recomputed is accepted plus the run of open positions. -/
theorem recomputeHorizon_run (e : Eye) {s : State} (hN : s.store.geometry.slices < 65536) :
    horizonIsRun (recomputeHorizon e s).store e ((recomputeHorizon e s).laneRx.eyes.get e) := by
  obtain ⟨haccepted, hhorizon, -⟩ := recomputeHorizon_positions e s
  rw [(by simp : (recomputeHorizon e s).store = s.store)]
  exact horizonIsRun_horizonOf_of_lt hN (haccepted e) hhorizon

/-- R22, R111: in RUNNING and outside CUT the horizons that a recomputation leaves are the ones last loaded. -/
theorem recomputeHorizon_lastLoaded (e : Eye) {s : State} (h : s.loadRefused = false) (e' : Eye) :
    ((recomputeHorizon e s).laneRx.eyes.get e').lastLoaded =
      some ((recomputeHorizon e s).laneRx.eyes.get e').horizon := by
  have hrefused : (rehorizoned e s).loadRefused = false := h
  rw [recomputeHorizon_eq]
  split
  · rw [loadCredit_of_taken hrefused]
    cases e' <;> rfl
  · rename_i hfresh
    by_contra hne
    exact hfresh ((creditStale_iff _).mpr ⟨e', hne⟩)

/-- R21, R22, R111: the CREDIT slot after a recomputation, against a state whose CREDIT slot and loads it started
from. -/
theorem creditFollows_recomputeHorizon (e : Eye) {s u : State} (hslot : u.slots.credit = s.slots.credit)
    (hloads : u.laneRx.creditLoads = s.laneRx.creditLoads)
    (hlast : ∀ e', (u.laneRx.eyes.get e').lastLoaded = (s.laneRx.eyes.get e').lastLoaded)
    (hlife : u.loader.life = s.loader.life) (hstanding : u.spine.standing = s.spine.standing) :
    Stated.creditFollows s (recomputeHorizon e u) := by
  obtain ⟨v, hv⟩ : ∃ v, v = rehorizoned e u := ⟨_, rfl⟩
  have hvlast (e' : Eye) : (v.laneRx.eyes.get e').lastLoaded = (s.laneRx.eyes.get e').lastLoaded := by
    rw [← hlast, hv]
    cases e <;> cases e' <;> rfl
  have hvslot : v.slots.credit = s.slots.credit := by rw [hv]; exact hslot
  have hvloads : v.laneRx.creditLoads = s.laneRx.creditLoads := by rw [hv]; exact hloads
  have hrefused : v.loadRefused = false ↔ s.loader.life = .running ∧ s.spine.standing ≠ .cut := by
    rw [loadRefused_eq_false_iff, hv]
    change u.loader.life = _ ∧ u.spine.standing ≠ _ ↔ _
    rw [hlife, hstanding]
  have hcalled {t : State} (ht : ∀ e', (t.laneRx.eyes.get e').horizon = (v.laneRx.eyes.get e').horizon) :
      Stated.creditCalled s t ↔ creditStale v.laneRx = true := by
    rw [creditStale_iff, Stated.creditCalled]
    simp only [ht, hvlast]
  rw [recomputeHorizon_eq, ← hv]
  by_cases hstale : creditStale v.laneRx = true
  · rw [if_pos hstale]
    cases htaken : v.loadRefused with
    | false =>
      rw [loadCredit_of_taken htaken]
      refine ⟨fun _ => ⟨?_, congrArg bump hvloads, fun e' => by cases e' <;> rfl⟩, fun hnot =>
        absurd ⟨(hcalled fun e' => by cases e' <;> rfl).mpr hstale, hrefused.mp htaken⟩ hnot⟩
      exact congrArg (Slot.load · (Stated.creditContent v)) hvslot
    | true =>
      rw [loadCredit_of_refused htaken]
      have hnot : ¬ (s.loader.life = .running ∧ s.spine.standing ≠ .cut) := by
        rw [← hrefused, htaken]
        nofun
      exact ⟨fun hloaded => absurd hloaded.2 hnot, fun _ => ⟨hvslot, hvloads, hvlast⟩⟩
  · rw [if_neg hstale]
    exact ⟨fun hloaded => absurd ((hcalled fun _ => rfl).mp hloaded.1) hstale, fun _ => ⟨hvslot, hvloads, hvlast⟩⟩

/-! ### Takes -/

theorem voidTake_of_none {s : State} {e : Eye} {i : Nat} (h : s.store.bufferOf e i = none) : voidTake e i s = s := by
  rw [voidTake, h]

/-- R118: a void taken at a slice with a buffer. -/
theorem voidTake_of_some {s : State} {e : Eye} {i : Nat} {b : Fin 256} (h : s.store.bufferOf e i = some b) :
    voidTake e i s =
      { s with
        store :=
          { s.store with
            buffers := s.store.buffers.set b (Stated.voided s.store.buffers[b])
            voidKeeps := bump s.store.voidKeeps } } := by
  rw [voidTake, h]
  rfl

/-- R119: pixels taken at a slice with a buffer. -/
theorem pixelTake_of_some {s : State} {e : Eye} {i : Nat} {b : Fin 256} (tag : Tag)
    (h : s.store.bufferOf e i = some b) :
    ∃ bands, pixelTake e i tag s =
        { s with
          store :=
            { s.store with
              buffers := s.store.buffers.set b { full := true, content := .damaged, tag := tag, writing := true }
              pixelWrites := bump s.store.pixelWrites
              bands := bands } } ∧
      ((pixelTake e i tag s).store.band e i).written = true := by
  rw [pixelTake, h]
  refine ⟨_, rfl, ?_⟩
  change (((s.store.updBand e i fun d => { d with written := true }).bands.get e)[bandIndex s.store.geometry i]).written
    = true
  rw [SliceStore.updBand, both_get_put, if_pos rfl, getElem_putAt, if_pos rfl]

theorem pixelTake_of_none {s : State} {e : Eye} {i : Nat} (tag : Tag) (h : s.store.bufferOf e i = none) :
    pixelTake e i tag s = unbufferedTake e i tag s := by
  rw [pixelTake, h]

/-- R120: what pixels without a buffer change of the slice store. -/
theorem unbufferedTake_store (e : Eye) (i : Nat) (tag : Tag) (s : State) :
    ∃ discards faults captures fault, (unbufferedTake e i tag s).store =
      { s.store with fixedDiscards := discards, mapFaults := faults, captures := captures, fault := fault } := by
  have hfault (kind : MapFaultKind) : ∃ discards faults captures fault,
      (mapFault kind e (BitVec.ofNat 8 i) tag s).store =
        { s.store with fixedDiscards := discards, mapFaults := faults, captures := captures, fault := fault } := by
    obtain ⟨captures, fault, hstore⟩ := mapFault_store kind e (BitVec.ofNat 8 i) tag s
    exact ⟨s.store.fixedDiscards, _, captures, fault, hstore⟩
  unfold unbufferedTake
  split
  · exact ⟨_, s.store.mapFaults, s.store.captures, s.store.fault, rfl⟩
  · exact hfault .absent
  · exact hfault .length

/-- R109: the receiver's part of a take. -/
def takenLane (r : LaneReceiver) (e : Eye) (i : Nat) (void : Bool) (buffer : Option (Fin 256)) : LaneReceiver :=
  { r with
    eyes := r.eyes.put e { r.eyes.get e with accepted := (r.eyes.get e).accepted + 1 }
    packetsTaken := bump r.packetsTaken
    voidsTaken := if void then bump r.voidsTaken else r.voidsTaken
    packet := if void then r.packet else some { eye := e, index := i, buffer := buffer } }

/-- R118 to R120: the effect of a take outside the receiver. -/
def takenStore (e : Eye) (i : Nat) (void : Bool) (tag : Tag) (s : State) : State :=
  if void then voidTake e i s else pixelTake e i tag s

/-- R109, R110: a take is its effect outside the receiver, its effect on the receiver, and a recomputation. -/
theorem takePacket_eq (e : Eye) (i : Nat) (void : Bool) (tag : Tag) (s : State) :
    takePacket e i void tag s =
      recomputeHorizon e
        ((takenStore e i void tag s).updLaneRx fun r => takenLane r e i void (s.store.bufferOf e i)) := rfl

theorem get_pixelTake_of_ne {n : SlotName} (hn : n ≠ .alarm) (e : Eye) (i : Nat) (tag : Tag) (s : State) :
    (pixelTake e i tag s).slots.get n = s.slots.get n := by
  unfold pixelTake
  split
  · unfold unbufferedTake
    split
    · rfl
    · exact get_mapFault_of_ne hn ..
    · exact get_mapFault_of_ne hn ..
  · rfl

theorem takenStore_credit (e : Eye) (i : Nat) (void : Bool) (tag : Tag) (s : State) :
    (takenStore e i void tag s).slots.credit = s.slots.credit := by
  cases void with
  | true => exact congrArg Slots.credit (by simp [takenStore] : (takenStore e i true tag s).slots = s.slots)
  | false => exact get_pixelTake_of_ne (n := .credit) nofun e i tag s

theorem takenStore_frame (e : Eye) (i : Nat) (void : Bool) (tag : Tag) (s : State) :
    (takenStore e i void tag s).laneRx = s.laneRx ∧ (takenStore e i void tag s).loader = s.loader ∧
      (takenStore e i void tag s).spine = s.spine ∧ (takenStore e i void tag s).scan = s.scan ∧
      (takenStore e i void tag s).intake = s.intake ∧ (takenStore e i void tag s).laneTx = s.laneTx := by
  cases void <;> simp [takenStore]

/-- R118 to R120: a take keeps the geometry and the bytes. -/
theorem takenStore_kept (e : Eye) (i : Nat) (void : Bool) (tag : Tag) (s : State) :
    (takenStore e i void tag s).store.geometry = s.store.geometry ∧
      (takenStore e i void tag s).store.mem = s.store.mem := by
  cases hbuffer : s.store.bufferOf e i with
  | none =>
    cases void with
    | true =>
      change (voidTake e i s).store.geometry = _ ∧ (voidTake e i s).store.mem = _
      rw [voidTake_of_none hbuffer]
      exact ⟨rfl, rfl⟩
    | false =>
      change (pixelTake e i tag s).store.geometry = _ ∧ (pixelTake e i tag s).store.mem = _
      obtain ⟨_, _, _, _, hstore⟩ := unbufferedTake_store e i tag s
      rw [pixelTake_of_none tag hbuffer, hstore]
      exact ⟨rfl, rfl⟩
  | some b =>
    cases void with
    | true =>
      change (voidTake e i s).store.geometry = _ ∧ (voidTake e i s).store.mem = _
      rw [voidTake_of_some hbuffer]
      exact ⟨rfl, rfl⟩
    | false =>
      obtain ⟨bands, hstore, -⟩ := pixelTake_of_some tag hbuffer
      change (pixelTake e i tag s).store.geometry = _ ∧ (pixelTake e i tag s).store.mem = _
      rw [hstore]
      exact ⟨rfl, rfl⟩

/-- R108: a header within the window, its gap voided first. -/
theorem placePacket_of_near {s : State} {h : PacketHeader} {e : Eye} (he : headerEye h = e)
    (hnear : Stated.gap s.store.geometry.slices h.index.toNat
      ((s.laneRx.eyes.get e).accepted.toNat % s.store.geometry.slices) <
      ((s.laneRx.eyes.get e).horizon - (s.laneRx.eyes.get e).accepted).toNat) :
    placePacket h s =
      let g := Stated.gap s.store.geometry.slices h.index.toNat
        ((s.laneRx.eyes.get e).accepted.toNat % s.store.geometry.slices)
      takePacket e h.index.toNat (headerVoid h) (headerTag h)
        (if g = 0 then s else recomputeHorizon e (voidPositions e g s)) := by
  subst he
  exact if_pos hnear

/-- R109 to R111: what a take leaves of the receiver, and of what it does not touch. -/
theorem takePacket_laneRx (e : Eye) (i : Nat) (void : Bool) (tag : Tag) {s : State}
    (hN : s.store.geometry.slices < 65536) :
    ((takePacket e i void tag s).laneRx.eyes.get e).accepted = (s.laneRx.eyes.get e).accepted + 1 ∧
      horizonIsRun (takePacket e i void tag s).store e ((takePacket e i void tag s).laneRx.eyes.get e) ∧
      ((takePacket e i void tag s).laneRx.eyes.get (Eye.other e)).accepted =
        (s.laneRx.eyes.get (Eye.other e)).accepted ∧
      ((takePacket e i void tag s).laneRx.eyes.get (Eye.other e)).horizon =
        (s.laneRx.eyes.get (Eye.other e)).horizon ∧
      (takePacket e i void tag s).laneRx.packetsTaken = bump s.laneRx.packetsTaken ∧
      (takePacket e i void tag s).laneRx.voidsTaken =
        (if void then bump s.laneRx.voidsTaken else s.laneRx.voidsTaken) ∧
      (takePacket e i void tag s).laneRx.voided = s.laneRx.voided ∧
      (takePacket e i void tag s).laneRx.packet =
        if void then s.laneRx.packet else some { eye := e, index := i, buffer := s.store.bufferOf e i } := by
  obtain ⟨w, hw⟩ : ∃ w, w = (takenStore e i void tag s).updLaneRx fun r =>
    takenLane r e i void (s.store.bufferOf e i) := ⟨_, rfl⟩
  have hlane : w.laneRx = takenLane s.laneRx e i void (s.store.bufferOf e i) := by
    rw [hw, updLaneRx_laneRx, (takenStore_frame ..).1]
  have hgeometry : w.store.geometry = s.store.geometry := by
    rw [hw]
    exact (takenStore_kept e i void tag s).1
  obtain ⟨haccepted, -, hother⟩ := recomputeHorizon_positions e w
  obtain ⟨hpacket, htaken, hvoids, hvoided⟩ := recomputeHorizon_counters e w
  rw [takePacket_eq, ← hw]
  refine ⟨?_, recomputeHorizon_run e (by rw [hgeometry]; exact hN), ?_, ?_, ?_, ?_, ?_, ?_⟩
  · rw [haccepted, hlane]
    cases e <;> rfl
  · rw [haccepted, hlane]
    cases e <;> rfl
  · rw [hother, hlane]
    cases e <;> rfl
  · rw [htaken, hlane]
    rfl
  · rw [hvoids, hlane]
    rfl
  · rw [hvoided, hlane]
    rfl
  · rw [hpacket, hlane]
    rfl

theorem takePacket_store (e : Eye) (i : Nat) (void : Bool) (tag : Tag) (s : State) :
    (takePacket e i void tag s).store = (takenStore e i void tag s).store := by
  rw [takePacket_eq]
  simp

theorem creditFollows_takePacket (e : Eye) (i : Nat) (void : Bool) (tag : Tag) (s : State) :
    Stated.creditFollows s (takePacket e i void tag s) := by
  obtain ⟨hlane, hloader, hspine, -⟩ := takenStore_frame e i void tag s
  rw [takePacket_eq]
  refine creditFollows_recomputeHorizon e (takenStore_credit ..) ?_ (fun e' => ?_) (congrArg Loader.life hloader)
    (congrArg (·.standing) hspine)
  · rw [updLaneRx_laneRx, hlane]
    rfl
  · rw [updLaneRx_laneRx, hlane]
    cases e <;> cases e' <;> rfl

theorem expectedPacketIsTaken : Stated.ExpectedPacketIsTaken := by
  intro s cut h e hpresent hgood he hindex hwindow hN void tag buffer
  obtain ⟨hsignalled, hidle⟩ := hpresent
  have hgap : Stated.gap s.store.geometry.slices h.index.toNat
      ((s.laneRx.eyes.get e).accepted.toNat % s.store.geometry.slices) = 0 := by
    rw [← hindex, Stated.gap, Int.sub_self, Int.zero_emod]
    rfl
  have hopen : 0 < ((s.laneRx.eyes.get e).horizon - (s.laneRx.eyes.get e).accepted).toNat := by
    have hdiff : (s.laneRx.eyes.get e).horizon - (s.laneRx.eyes.get e).accepted ≠ 0 := fun hzero =>
      hwindow (by bv_omega)
    exact Nat.pos_of_ne_zero fun hzero => hdiff (BitVec.eq_of_toNat_eq hzero)
  have hplace : placePacket h s = takePacket e h.index.toNat void tag s := by
    rw [placePacket_of_near he.symm (by rw [hgap]; exact hopen)]
    dsimp only
    rw [hgap]
    rfl
  obtain ⟨haccepted, hrun, hotherAccepted, hotherHorizon, htaken, hvoids, -, hpacket⟩ :=
    takePacket_laneRx e h.index.toNat void tag (s := s) (by omega)
  have hstore := takePacket_store e h.index.toNat void tag s
  obtain ⟨-, hmem⟩ := takenStore_kept e h.index.toNat void tag s
  have hfree : buffer = none → void = false →
      (takenStore e h.index.toNat void tag s) = unbufferedTake e h.index.toNat tag s := fun hnone hpixels => by
    rw [takenStore, hpixels]
    exact pixelTake_of_none tag hnone
  refine ⟨_, (exec_packetHeader h cut hsignalled).trans
    (congrArg Host.Outcome.next ((packetHeader_of_good cut hidle hgood).trans hplace)), haccepted, hrun, hotherAccepted,
    hotherHorizon, htaken, hvoids, creditFollows_takePacket .., fun b hb hpixels => ?pixels, fun b hb hvoid => ?keeps,
    fun hnone => ?none, fun hnone hpixels hfixed => ?fixed, fun hnone hpixels hfixed hfault => ?fault, ?mem, by simp,
    by simp, by simp, by simp⟩
  case pixels =>
    obtain ⟨bands, htake, hwritten⟩ := pixelTake_of_some tag hb
    have hstore' : (takePacket e h.index.toNat void tag s).store = (pixelTake e h.index.toNat tag s).store := by
      rw [hstore, takenStore, hpixels]
      rfl
    rw [hstore', hpacket, hpixels]
    refine ⟨by rw [htake], by rw [htake], hwritten, ?_⟩
    rw [← hb]
    rfl
  case keeps =>
    have hstore' : (takePacket e h.index.toNat void tag s).store = (voidTake e h.index.toNat s).store := by
      rw [hstore, takenStore, hvoid]
      rfl
    rw [hstore', hpacket, hvoid, voidTake_of_some hb]
    exact ⟨rfl, rfl, hidle⟩
  case none =>
    rw [hstore]
    cases hvoid : void with
    | true =>
      change (voidTake e h.index.toNat s).store.buffers = _
      rw [voidTake_of_none hnone]
    | false =>
      obtain ⟨_, _, _, _, hunbuffered⟩ := unbufferedTake_store e h.index.toNat tag s
      rw [← hvoid, hfree hnone hvoid, hunbuffered]
  case fixed =>
    rw [hstore, hfree hnone hpixels, unbufferedTake, hfixed]
    rfl
  case fault =>
    have hfault (kind : MapFaultKind) :
        ∃ f, (mapFault kind e (BitVec.ofNat 8 h.index.toNat) tag s).store.fault = some f ∧
        f.eye = e ∧ f.index = h.index ∧ f.tag = tag ∧ f.kind = kind := by
      rw [mapFault_of_none hfault]
      simp
    rw [hstore, hfree hnone hpixels, unbufferedTake]
    cases haccess : (s.store.band e h.index.toNat).access with
    | fixed => exact absurd haccess hfixed
    | absent => exact hfault .absent
    | live => exact hfault .length
  case mem => rw [hstore, hmem]

end Sys2Proof.Machine
end

