-- ==== Sys2Proof/Proofs/Gaps.lean ====
section
/-! PROOF. The positions of a gap voided one by one, and the take after them (R108, R118); a header that ends the packet
before it (R109). O33 rests on them. -/

namespace Sys2Proof.Machine

/-! ### Positions voided one by one -/

/-- R108: one position of a gap is voided. -/
def voidOne (e : Eye) (s : State) : State :=
  (advance e (voidTake e (expectedIndex s e) s)).updLaneRx fun r => { r with voided := bump r.voided }

theorem voidPositions_eq_iterate (e : Eye) (g : Nat) (s : State) : voidPositions e g s = (voidOne e)^[g] s := by
  induction g generalizing s with
  | zero => rfl
  | succ g ih => exact ih (voidOne e s)

theorem voidPositions_succ (e : Eye) (g : Nat) (s : State) :
    voidPositions e (g + 1) s = voidOne e (voidPositions e g s) := by
  rw [voidPositions_eq_iterate, voidPositions_eq_iterate, Function.iterate_succ_apply']

theorem voided_voided (r : BufferRecord) : Stated.voided (Stated.voided r) = Stated.voided r := by
  obtain ⟨full, content, tag, writing⟩ := r
  cases content <;> rfl

theorem bump_bumpBy (c : Counter) (n : Nat) : bump (bumpBy c n) = bumpBy c (n + 1) := by
  have hc := c.isLt
  unfold bump bumpBy
  by_cases hfull : c.toNat + n < 65535
  · rw [if_neg (by bv_omega)]
    bv_omega
  · rw [Nat.min_eq_right (by omega), Nat.min_eq_right (by omega)]
    rfl

theorem bumpBy_bumpBy (c : Counter) (m n : Nat) : bumpBy (bumpBy c m) n = bumpBy c (m + n) := by
  have hc := c.isLt
  unfold bumpBy
  congr 1
  bv_omega

/-- R106: the buffer of the `i`-th position from accepted on. -/
def bufferAhead (s : State) (e : Eye) (i : Nat) : Option (Fin 256) :=
  s.store.bufferOf e (((s.laneRx.eyes.get e).accepted.toNat + i) % 65536 % s.store.geometry.slices)

/-- R118: how many of the first `g` positions have a buffer. -/
def buffersAhead (s : State) (e : Eye) (g : Nat) : Nat :=
  ((List.range g).filter fun i => (bufferAhead s e i).isSome).length

theorem buffersAhead_succ (s : State) (e : Eye) (g : Nat) :
    buffersAhead s e (g + 1) = buffersAhead s e g + if (bufferAhead s e g).isSome then 1 else 0 := by
  unfold buffersAhead
  rw [List.range_succ, List.filter_append, List.length_append, List.filter_singleton]
  cases (bufferAhead s e g).isSome <;> rfl

/-- R108, R118: the receiver and the slice store after `g` positions are voided. -/
structure GapVoided (e : Eye) (g : Nat) (s t : State) : Prop where
  lane : t.laneRx =
    { s.laneRx with
      eyes := s.laneRx.eyes.put e
        { s.laneRx.eyes.get e with accepted := (s.laneRx.eyes.get e).accepted + BitVec.ofNat 16 g }
      voided := bumpBy s.laneRx.voided g }
  store : t.store =
    { s.store with
      buffers := t.store.buffers
      voidKeeps := bumpBy s.store.voidKeeps (buffersAhead s e g) }
  voided : ∀ b : Fin 256, (∃ i, i < g ∧ bufferAhead s e i = some b) →
    t.store.buffers[b] = Stated.voided s.store.buffers[b]
  kept : ∀ b : Fin 256, (∀ i, i < g → bufferAhead s e i ≠ some b) → t.store.buffers[b] = s.store.buffers[b]

theorem bumpBy_zero (c : Counter) : bumpBy c 0 = c := by
  have hc := c.isLt
  unfold bumpBy
  bv_omega

theorem bump_eq_bumpBy (c : Counter) : bump c = bumpBy c 1 := by rw [← bump_bumpBy, bumpBy_zero]

/-- R108: the expected index after `g` positions. -/
theorem GapVoided.buffer_next {e : Eye} {g : Nat} {s t : State} (h : GapVoided e g s t) :
    t.store.bufferOf e (expectedIndex t e) = bufferAhead s e g := by
  have haccepted : (t.laneRx.eyes.get e).accepted = (s.laneRx.eyes.get e).accepted + BitVec.ofNat 16 g := by
    rw [h.lane]
    exact congrArg ReceiverEye.accepted ((both_get_put ..).trans (if_pos rfl))
  have hposition : (t.laneRx.eyes.get e).accepted.toNat = ((s.laneRx.eyes.get e).accepted.toNat + g) % 65536 := by
    rw [haccepted, BitVec.toNat_add, BitVec.toNat_ofNat, Nat.add_mod_mod]
  unfold expectedIndex bufferAhead
  rw [hposition, h.store]
  rfl

theorem gapVoided (e : Eye) (g : Nat) (s : State) : GapVoided e g s (voidPositions e g s) := by
  induction g with
  | zero =>
    refine ⟨?_, ?_, fun b ⟨i, hi, _⟩ => absurd hi (Nat.not_lt_zero i), fun b _ => rfl⟩
    · change s.laneRx = _
      rw [bumpBy_zero, show BitVec.ofNat 16 0 = 0#16 from rfl, BitVec.add_zero]
      cases e <;> rfl
    · change s.store = { s.store with buffers := s.store.buffers, voidKeeps := bumpBy s.store.voidKeeps 0 }
      rw [bumpBy_zero]
  | succ g ih =>
    obtain ⟨t, ht⟩ : ∃ t, t = voidPositions e g s := ⟨_, rfl⟩
    rw [voidPositions_succ, ← ht]
    rw [← ht] at ih
    have hnext := ih.buffer_next
    have hlane : (voidOne e t).laneRx =
        { s.laneRx with
          eyes := s.laneRx.eyes.put e
            { s.laneRx.eyes.get e with accepted := (s.laneRx.eyes.get e).accepted + BitVec.ofNat 16 (g + 1) }
          voided := bumpBy s.laneRx.voided (g + 1) } := by
      have hone : (voidOne e t).laneRx =
          { t.laneRx with
            eyes := t.laneRx.eyes.put e
              { t.laneRx.eyes.get e with accepted := (t.laneRx.eyes.get e).accepted + 1 }
            voided := bump t.laneRx.voided } := by
        simp only [voidOne, updLaneRx_laneRx, advance, State.updReceiver, voidTake_frame]
      rw [hone, ih.lane, ← bump_bumpBy, BitVec.ofNat_add, ← BitVec.add_assoc]
      cases e <;> rfl
    cases hbuffer : bufferAhead s e g with
    | none =>
      have hstore : (voidOne e t).store = t.store := by
        simp only [voidOne, voidTake_of_none (hnext.trans hbuffer)]
        rfl
      refine ⟨hlane, ?_, fun b ⟨i, hi, hb⟩ => ?_, fun b hb => ?_⟩
      · rw [hstore, buffersAhead_succ, hbuffer]
        exact ih.store
      · rw [hstore]
        refine ih.voided b ⟨i, Nat.lt_of_le_of_ne (Nat.le_of_lt_succ hi) fun heq => ?_, hb⟩
        rw [heq, hbuffer] at hb
        nomatch hb
      · rw [hstore]
        exact ih.kept b fun i hi => hb i (Nat.lt_succ_of_lt hi)
    | some c =>
      have hstore : (voidOne e t).store =
          { t.store with
            buffers := t.store.buffers.set c (Stated.voided t.store.buffers[c])
            voidKeeps := bump t.store.voidKeeps } := by
        simp only [voidOne, voidTake_of_some (hnext.trans hbuffer)]
        rfl
      have hrecord (b : Fin 256) : (voidOne e t).store.buffers[b] =
          if b = c then Stated.voided t.store.buffers[c] else t.store.buffers[b] := by
        rw [hstore]
        exact getElem_putAt ..
      refine ⟨hlane, ?_, fun b hb => ?_, fun b hb => ?_⟩
      · rw [hstore, buffersAhead_succ, hbuffer, ih.store]
        exact congrArg (fun n => ({ s.store with buffers := _, voidKeeps := n } : SliceStore)) (bump_bumpBy ..)
      · rw [hrecord]
        by_cases hearlier : ∃ i, i < g ∧ bufferAhead s e i = some b
        · by_cases hbc : b = c
          · rw [if_pos hbc, ← hbc, ih.voided b hearlier, voided_voided]
          · rw [if_neg hbc, ih.voided b hearlier]
        · obtain ⟨i, hi, hib⟩ := hb
          have hig : i = g := by
            by_contra hne
            exact hearlier ⟨i, by omega, hib⟩
          rw [hig, hbuffer] at hib
          obtain rfl := Option.some.inj hib
          rw [if_pos rfl, ih.kept c fun i hi hib => hearlier ⟨i, hi, hib⟩]
      · rw [hrecord, if_neg fun hbc => hb g (Nat.lt_succ_self g) (by rw [hbuffer, hbc])]
        exact ih.kept b fun i hi => hb i (Nat.lt_succ_of_lt hi)

/-! ### The take after a gap -/

/-- R118 to R120: the buffer records after a take. -/
theorem takenStore_buffers (e : Eye) (i : Nat) (void : Bool) (tag : Tag) (s : State) (b : Fin 256) :
    (takenStore e i void tag s).store.buffers[b] =
      if s.store.bufferOf e i = some b then
        if void then Stated.voided s.store.buffers[b]
        else { full := true, content := .damaged, tag := tag, writing := true }
      else s.store.buffers[b] := by
  have hset (c : Fin 256) (r : Fin 256 → BufferRecord) : (putAt s.store.buffers c (r c))[b] =
      if some c = some b then r b else s.store.buffers[b] := by
    rw [getElem_putAt]
    by_cases hbc : b = c
    · rw [if_pos hbc, if_pos (congrArg some hbc.symm), hbc]
    · rw [if_neg hbc, if_neg fun h => hbc (Option.some.inj h).symm]
  cases hbuffer : s.store.bufferOf e i with
  | none =>
    rw [if_neg nofun]
    cases void with
    | true =>
      change (voidTake e i s).store.buffers[b] = _
      rw [voidTake_of_none hbuffer]
    | false =>
      obtain ⟨_, _, _, _, hstore⟩ := unbufferedTake_store e i tag s
      change (pixelTake e i tag s).store.buffers[b] = _
      rw [pixelTake_of_none tag hbuffer, hstore]
  | some c =>
    cases void with
    | true =>
      change (voidTake e i s).store.buffers[b] = _
      rw [voidTake_of_some hbuffer]
      exact hset c fun b => Stated.voided s.store.buffers[b]
    | false =>
      obtain ⟨bands, hstore, -⟩ := pixelTake_of_some tag hbuffer
      change (pixelTake e i tag s).store.buffers[b] = _
      rw [hstore]
      exact hset c fun _ => { full := true, content := .damaged, tag := tag, writing := true }

theorem takenStore_voidKeeps (e : Eye) (i : Nat) (void : Bool) (tag : Tag) (s : State) :
    (takenStore e i void tag s).store.voidKeeps =
      bumpBy s.store.voidKeeps (if void = true ∧ (s.store.bufferOf e i).isSome = true then 1 else 0) := by
  cases hbuffer : s.store.bufferOf e i with
  | none =>
    rw [if_neg fun h => nomatch h.2]
    cases void with
    | true =>
      change (voidTake e i s).store.voidKeeps = _
      rw [voidTake_of_none hbuffer, bumpBy_zero]
    | false =>
      obtain ⟨_, _, _, _, hstore⟩ := unbufferedTake_store e i tag s
      change (pixelTake e i tag s).store.voidKeeps = _
      rw [pixelTake_of_none tag hbuffer, hstore, bumpBy_zero]
  | some c =>
    cases void with
    | true =>
      change (voidTake e i s).store.voidKeeps = _
      rw [voidTake_of_some hbuffer, if_pos ⟨rfl, rfl⟩]
      exact bump_eq_bumpBy _
    | false =>
      obtain ⟨bands, hstore, -⟩ := pixelTake_of_some tag hbuffer
      change (pixelTake e i tag s).store.voidKeeps = _
      rw [hstore, if_neg fun h => nomatch h.1]
      exact (bumpBy_zero _).symm

theorem takePacket_lastLoaded (e : Eye) (i : Nat) (void : Bool) (tag : Tag) {s : State}
    (h : s.loadRefused = false) (e' : Eye) :
    ((takePacket e i void tag s).laneRx.eyes.get e').lastLoaded =
      some ((takePacket e i void tag s).laneRx.eyes.get e').horizon := by
  obtain ⟨-, hloader, hspine, -⟩ := takenStore_frame e i void tag s
  rw [takePacket_eq]
  refine recomputeHorizon_lastLoaded e ?_ e'
  simpa [State.loadRefused, hloader, hspine] using h

/-- R108, R110: the state in which the packet after a gap of `g` positions is taken. -/
def gapClosed (e : Eye) (g : Nat) (s : State) : State :=
  if g = 0 then s else recomputeHorizon e (voidPositions e g s)

theorem gapClosed_laneRx (e : Eye) (g : Nat) (s : State) :
    ((gapClosed e g s).laneRx.eyes.get e).accepted = (s.laneRx.eyes.get e).accepted + BitVec.ofNat 16 g ∧
      ((gapClosed e g s).laneRx.eyes.get (Eye.other e)).accepted = (s.laneRx.eyes.get (Eye.other e)).accepted ∧
      ((gapClosed e g s).laneRx.eyes.get (Eye.other e)).horizon = (s.laneRx.eyes.get (Eye.other e)).horizon ∧
      (gapClosed e g s).laneRx.packetsTaken = s.laneRx.packetsTaken ∧
      (gapClosed e g s).laneRx.voided = bumpBy s.laneRx.voided g := by
  unfold gapClosed
  by_cases hg : g = 0
  · rw [if_pos hg, hg, bumpBy_zero]
    exact ⟨(BitVec.add_zero _).symm, rfl, rfl, rfl, rfl⟩
  · obtain ⟨haccepted, -, hother⟩ := recomputeHorizon_positions e (voidPositions e g s)
    obtain ⟨-, htaken, -, hvoided⟩ := recomputeHorizon_counters e (voidPositions e g s)
    rw [if_neg hg, haccepted, haccepted, hother, htaken, hvoided, (gapVoided e g s).lane]
    refine ⟨?_, ?_, ?_, rfl, rfl⟩ <;> cases e <;> rfl

theorem gapClosed_store (e : Eye) (g : Nat) (s : State) :
    (gapClosed e g s).store = (voidPositions e g s).store := by
  unfold gapClosed
  split
  · next hg => rw [hg]; rfl
  · simp

theorem gapClosed_loadRefused (e : Eye) (g : Nat) (s : State) : (gapClosed e g s).loadRefused = s.loadRefused := by
  unfold gapClosed State.loadRefused
  split <;> simp

theorem gapIsVoidedBeforeTheTake : Stated.GapIsVoidedBeforeTheTake := by
  intro s cut h e g hpresent hgood he hg hnear hN hroom void bufferAt own keeps
  obtain ⟨hsignalled, hidle⟩ := hpresent
  have hplace : placePacket h s = takePacket e h.index.toNat void (headerTag h) (gapClosed e g s) := by
    rw [placePacket_of_near he.symm (by rw [← hg]; exact hnear)]
    dsimp only
    rw [← hg]
    rfl
  have hgap := gapVoided e g s
  obtain ⟨v, hv⟩ : ∃ v, v = gapClosed e g s := ⟨_, rfl⟩
  have hstore : v.store = (voidPositions e g s).store := by rw [hv, gapClosed_store]
  have hvstore : v.store =
      { s.store with
        buffers := v.store.buffers
        voidKeeps := bumpBy s.store.voidKeeps (buffersAhead s e g) } := by
    rw [hstore]
    exact hgap.store
  have hvvoids := hgap.voided
  have hvkept := hgap.kept
  rw [← hstore] at hvvoids hvkept
  obtain ⟨hvaccepted, hvotherAccepted, hvotherHorizon, hvtaken, hvvoided⟩ := gapClosed_laneRx e g s
  rw [← hv] at hplace hvaccepted hvotherAccepted hvotherHorizon hvtaken hvvoided
  have hgeometry : v.store.geometry = s.store.geometry := by rw [hvstore]
  have hown : v.store.bufferOf e h.index.toNat = own := by
    rw [hvstore]
    rfl
  obtain ⟨haccepted, hrun, hotherAccepted, hotherHorizon, htaken, -, hvoided, -⟩ :=
    takePacket_laneRx e h.index.toNat void (headerTag h) (s := v) (by rw [hgeometry]; omega)
  have htstore := takePacket_store e h.index.toNat void (headerTag h) v
  refine ⟨_, (exec_packetHeader h cut hsignalled).trans
    (congrArg Host.Outcome.next ((packetHeader_of_good cut hidle hgood).trans hplace)), ?_, ?_, ?_, hrun, ?_,
    hotherAccepted.trans hvotherAccepted, hotherHorizon.trans hvotherHorizon, fun b => ?_, ?_, fun hlife hcut e' => ?_⟩
  · rw [haccepted, hvaccepted, BitVec.ofNat_add, ← BitVec.add_assoc]
    rfl
  · rw [hvoided, hvvoided, bumpBy, Nat.min_eq_left hroom, BitVec.ofNat_add, BitVec.ofNat_toNat, BitVec.setWidth_eq]
  · rw [htaken, hvtaken]
  · rw [htstore, (takenStore_kept ..).2, hvstore]
  · rw [htstore, takenStore_buffers, hown]
    refine ⟨fun hb hpixels => ?_, fun hnot hb => ?_, fun hb hfar => ?_⟩
    · rw [if_pos hb, hpixels]
      rfl
    · by_cases hown' : own = some b
      · have hvoid : void = true := hnot.resolve_left (not_not.mpr hown')
        rw [if_pos hown', hvoid]
        by_cases hearlier : ∃ i, i < g ∧ bufferAhead s e i = some b
        · rw [if_pos rfl, hvvoids b hearlier, voided_voided]
        · rw [if_pos rfl, hvkept b fun i hi hib => hearlier ⟨i, hi, hib⟩]
      · rw [if_neg hown']
        exact hvvoids b (hb.resolve_left hown')
    · rw [if_neg hb]
      exact hvkept b hfar
  · rw [htstore, takenStore_voidKeeps, hown, hvstore]
    exact bumpBy_bumpBy ..
  · refine takePacket_lastLoaded e _ void _ ?_ e'
    rw [hv, gapClosed_loadRefused]
    exact (loadRefused_eq_false_iff s).mpr ⟨hlife, hcut⟩

/-- R109, R119: a header ends the packet that was arriving and is then judged as any is. -/
theorem headerEndsThePacketBeforeIt : Stated.HeaderEndsThePacketBeforeIt := by
  intro s cut h x hsignalled hpacket
  refine ⟨_, packetEnded_cut s x cut, ?_⟩
  rw [exec_packetHeader h cut hsignalled]
  have hcut : cutArriving cut s = endArriving x cut false s := by rw [cutArriving, hpacket]
  have hheader : packetHeader cut h s = packetHeader cut h (endArriving x cut false s) := by
    unfold packetHeader
    dsimp only
    rw [hcut]
    rfl
  rw [hheader]
  exact (exec_packetHeader (s := endArriving x cut false s) h cut hsignalled).symm

/-- Settles O33: a packet at the expected index, one beyond it, and one whose header ends another packet. -/
theorem packetWithinTheWindowIsTaken : Obligations.PacketWithinTheWindowIsTaken :=
  ⟨expectedPacketIsTaken, gapIsVoidedBeforeTheTake, headerEndsThePacketBeforeIt⟩

end Sys2Proof.Machine
end

