-- ==== Sys2Proof/Proofs/PixelRule.lean ====
section
/-! PROOF. The pixel rule: a source line, its shift and blend, and the brightness (R141 to R143); the lines within a
slice. O36 rests on them. -/

namespace Sys2Proof.Machine

/-! ### Source pixels -/

theorem rowAt_replicate (n : Nat) (c edge : Pixel) (x : Int) :
    rowAt (List.replicate n c) edge x = if x < 0 ∨ (n : Int) ≤ x then edge else c := by
  unfold rowAt
  by_cases hneg : x < 0
  · rw [if_pos hneg, if_pos (.inl hneg)]
  · rw [if_neg hneg, List.getD_eq_getElem?_getD, List.getElem?_replicate]
    by_cases hin : x.toNat < n
    · rw [if_pos hin, if_neg (by omega)]
      rfl
    · rw [if_neg hin, if_pos (by omega)]
      rfl

theorem rowAt_map_range (n : Nat) (f : Nat → Pixel) (edge : Pixel) (x : Int) :
    rowAt ((List.range n).map f) edge x = if x < 0 ∨ (n : Int) ≤ x then edge else f x.toNat := by
  unfold rowAt
  by_cases hneg : x < 0
  · rw [if_pos hneg, if_pos (.inl hneg)]
  · rw [if_neg hneg, List.getD_eq_getElem?_getD, List.getElem?_map]
    by_cases hin : x.toNat < n
    · rw [List.getElem?_range hin, if_neg (by omega)]
      rfl
    · rw [List.getElem?_eq_none (by rw [List.length_range]; omega), if_pos (by omega)]
      rfl

/-- R141: a pixel of a source line. -/
theorem rowAt_sourceLine (s : State) (e : Eye) (y x : Int) :
    rowAt (sourceLine s.store e y) (s.store.geometry.edge.get e) x = Stated.source s e y x := by
  unfold sourceLine Stated.source
  dsimp only
  by_cases hrow : y < 0 ∨ (s.store.geometry.H : Int) ≤ y
  · rw [if_pos hrow, rowAt_replicate, ite_self, if_pos (by omega)]
  · rw [if_neg hrow]
    by_cases hcol : x < 0 ∨ (s.store.geometry.W : Int) ≤ x
    · rw [if_pos (by omega : y < 0 ∨ (s.store.geometry.H : Int) ≤ y ∨ x < 0 ∨ (s.store.geometry.W : Int) ≤ x)]
      split
      · split <;> rw [rowAt_replicate, if_pos hcol]
      · split
        · rw [rowAt_replicate, ite_self]
        · rw [rowAt_map_range, if_pos hcol]
    · rw [if_neg (by omega : ¬ (y < 0 ∨ (s.store.geometry.H : Int) ≤ y ∨ x < 0 ∨ (s.store.geometry.W : Int) ≤ x))]
      cases s.store.bufferOf e (y.toNat / s.store.geometry.S) with
      | none =>
        dsimp only
        cases (s.store.band e (y.toNat / s.store.geometry.S)).access <;>
          exact (rowAt_replicate ..).trans (if_neg hcol)
      | some b =>
        dsimp only
        by_cases hdamaged : s.store.buffers[b].content = .damaged
        · rw [if_pos hdamaged, if_pos (show (s.store.buffer b).content = .damaged from hdamaged), rowAt_replicate,
            ite_self]
        · rw [if_neg hdamaged, if_neg (show ¬ (s.store.buffer b).content = .damaged from hdamaged), rowAt_map_range,
            if_neg hcol]
          rfl

/-! ### Blend and brightness -/

/-- R142, R143: a channel blended and then scaled. -/
theorem scaleChannel_blend (p q : Byte) {f : Nat} (hf : f < 16) (brightness : Nat) :
    scaleChannel brightness (blend p q f) = Stated.channel p q f brightness := by
  have hp := p.isLt
  have hq := q.isLt
  have hsum : p.toNat * (16 - f) + q.toNat * f ≤ 255 * 16 :=
    calc p.toNat * (16 - f) + q.toNat * f
        ≤ 255 * (16 - f) + 255 * f :=
          Nat.add_le_add (Nat.mul_le_mul_right _ (by omega)) (Nat.mul_le_mul_right _ (by omega))
      _ = 255 * 16 := by omega
  have hbyte : (blend p q f).toNat = (p.toNat * (16 - f) + q.toNat * f + 8) / 16 := by
    rw [blend, BitVec.toNat_ofNat]
    omega
  rw [scaleChannel, hbyte]
  rfl

/-- R142: the fraction of a shift is below a whole pixel. -/
theorem shift_fraction (dx16 : Int) : (dx16 % 16).toNat < 16 ∧ (dx16 - 16 * (dx16 / 16)).toNat = (dx16 % 16).toNat := by
  omega

/-- R142, R143: a pixel of a line shifted, blended and scaled. -/
theorem getElem_dimmed_shiftLine (row : List Pixel) (edge : Pixel) (w : Nat) (dx16 : Int) (brightness x : Nat)
    (hx : x < ((shiftLine row edge w dx16).map (dimPixel brightness)).length) :
    ((shiftLine row edge w dx16).map (dimPixel brightness))[x] =
      let p := rowAt row edge (x + dx16 / 16)
      let q := rowAt row edge (x + dx16 / 16 + 1)
      { r := Stated.channel p.r q.r (dx16 - 16 * (dx16 / 16)).toNat brightness
        g := Stated.channel p.g q.g (dx16 - 16 * (dx16 / 16)).toNat brightness
        b := Stated.channel p.b q.b (dx16 - 16 * (dx16 / 16)).toNat brightness } := by
  obtain ⟨hlt, hfraction⟩ := shift_fraction dx16
  simp only [shiftLine, bind_pure_comp, List.map_eq_map, List.getElem_map, List.getElem_range, hfraction, dimPixel,
    mixPixel, scaleChannel_blend _ _ hlt]

theorem length_dimmed_shiftLine (row : List Pixel) (edge : Pixel) (w : Nat) (dx16 : Int) (brightness : Nat) :
    ((shiftLine row edge w dx16).map (dimPixel brightness)).length = w := by
  simp [shiftLine]

/-! ### A line formed -/

theorem formLine_panel (e : Eye) (y : Nat) (s : State) :
    (formLine e y s).pins.panel.get e =
        some { line := y, pixels := (outputLine s e y).map (dimPixel s.brightness) } ∧
      (formLine e y s).pins.panel.get (Eye.other e) = s.pins.panel.get (Eye.other e) := by
  cases e <;> exact ⟨rfl, rfl⟩

/-- R141 to R143: the line of an eye whose band is LIVE. -/
theorem formLine_shows {s : State} {e : Eye} {y : Nat} {r : ShiftRecord} (hshift : (s.scan.eyes.get e).shift = some r)
    (hlive : (s.store.band e (y / s.store.geometry.S)).access = .live) :
    Stated.shows s e y r ((formLine e y s).pins.panel.get e) := by
  have hrecord : (s.scanEye e).record = r := by
    rw [ScanEye.record, State.scanEye, hshift]
    rfl
  have hline : outputLine s e y =
      shiftLine (sourceLine s.store e (y + r.dy)) (s.store.geometry.edge.get e) s.store.geometry.W r.dx16 := by
    simp only [outputLine, hlive, hrecord]
  rw [(formLine_panel e y s).1, hline]
  refine ⟨_, rfl, length_dimmed_shiftLine .., fun x hx => ?_⟩
  rw [getElem_dimmed_shiftLine]
  simp only [rowAt_sourceLine]
  rfl

/-- R141 to R143: the line of an eye whose band is not LIVE. -/
theorem formLine_showsFill {s : State} {e : Eye} {y : Nat}
    (hband : (s.store.band e (y / s.store.geometry.S)).access ≠ .live) :
    Stated.showsFill s e y ((formLine e y s).pins.panel.get e) := by
  obtain ⟨fill, hfill⟩ : ∃ fill : Pixel, fill = if (s.store.band e (y / s.store.geometry.S)).access = .fixed then
    (s.store.band e (y / s.store.geometry.S)).fill else { r := 0, g := 0, b := 0 } := ⟨_, rfl⟩
  have hline : outputLine s e y =
      shiftLine (List.replicate s.store.geometry.W fill) (s.store.geometry.edge.get e) s.store.geometry.W 0 := by
    rw [hfill]
    unfold outputLine
    cases haccess : (s.store.band e (y / s.store.geometry.S)).access with
    | live => exact absurd haccess hband
    | fixed => simp only [haccess, if_true]
    | absent => simp only [haccess]; rfl
  have hchannel (p q p' : Byte) (brightness : Nat) (h : p = p') :
      Stated.channel p q 0 brightness = Stated.channel p' p' 0 brightness := by
    rw [h]
    simp only [Stated.channel, Nat.mul_zero]
  unfold Stated.showsFill
  dsimp only
  rw [(formLine_panel e y s).1, hline, ← hfill]
  refine ⟨_, rfl, length_dimmed_shiftLine .., fun x hx => ?_⟩
  have hin : x < s.store.geometry.W := by simpa [shiftLine] using hx
  have hfirst : rowAt (List.replicate s.store.geometry.W fill) (s.store.geometry.edge.get e) (x + 0 / 16) = fill := by
    rw [rowAt_replicate, if_neg (by omega)]
  rw [getElem_dimmed_shiftLine]
  dsimp only
  rw [hfirst]
  exact congr (congr (congrArg Pixel.mk (hchannel _ _ _ _ rfl)) (hchannel _ _ _ _ rfl)) (hchannel _ _ _ _ rfl)

/-! ### A line within a slice -/

/-- R131: the next line, its time come, is formed. -/
theorem exec_scanLine {s : State} {y : Nat} (h : Stated.lineDue s y) :
    exec .scanLine s = .next (scanLine y s) := by
  obtain ⟨hscanning, rfl, hlast, hclock, hfits, -⟩ := h
  have hdue : s.lineDue = true := by simp [State.lineDue, hscanning, hlast, hclock]
  have hfits : s.store.geometry.fits = true := decide_eq_true hfits
  change execScanLine s = _
  rw [execScanLine, if_pos hdue, if_pos hfits]

theorem scanLine_within {s : State} {y : Nat} (h : y % s.store.geometry.S ≠ 0) :
    scanLine y s = (formLine .right y (formLine .left y s)).updScan fun c =>
      { c with current := some (y / s.store.geometry.S), nextLine := y + 1 } := by
  have heye (e : Eye) (u : State) (hu : u.store.geometry = s.store.geometry) : scanEyeLine e y u = formLine e y u := by
    unfold scanEyeLine
    dsimp only
    rw [hu, if_neg h]
  unfold scanLine
  rw [heye .left s rfl, heye .right (formLine .left y s) (by simp)]

theorem lineFormed_scanLine {s : State} {y : Nat} (h : y % s.store.geometry.S ≠ 0) :
    Stated.lineFormed s y (scanLine y s) := by
  rw [scanLine_within h]
  rfl

/-- R141: the panel of an eye after a line within a slice. -/
theorem panel_scanLine_within {s : State} {y : Nat} (h : y % s.store.geometry.S ≠ 0) (e : Eye) :
    (scanLine y s).pins.panel.get e = (formLine e y s).pins.panel.get e := by
  rw [scanLine_within h]
  cases e <;> rfl

theorem linesAreShiftedBlendedAndScaled : Stated.LinesAreShiftedBlendedAndScaled := by
  intro s y e r hdue hwithin hshift hlive
  refine ⟨_, exec_scanLine hdue, ?_, lineFormed_scanLine hwithin⟩
  rw [panel_scanLine_within hwithin]
  exact formLine_shows hshift hlive

theorem bandsWithoutBuffersShowTheirFill : Stated.BandsWithoutBuffersShowTheirFill := by
  intro s y e hdue hwithin hband
  refine ⟨_, exec_scanLine hdue, ?_, lineFormed_scanLine hwithin⟩
  rw [panel_scanLine_within hwithin]
  exact formLine_showsFill hband

end Sys2Proof.Machine
end

