-- ==== Sys2Proof/Proofs/SlicesReached.lean ====
section
/-! PROOF. What the scan reads of the state stays while it opens and reaches slices; a slice reached, and the slices of
both eyes at the first line of a slice (R125, R131 to R133). O36, O37 and O38 rest on them. -/

namespace Sys2Proof.Machine

/-! ### What the scan reads -/

/-- What the scan reads of a state stays from `s` to `t`: the shape, the bytes, the bands but for their stale marks, the
contents and tags of the buffers, and the values that shifts and lines are computed from (R134 to R143). -/
structure ViewKept (s t : State) : Prop where
  geometry : t.store.geometry = s.store.geometry
  mem : t.store.mem = s.store.mem
  bands : ∀ (e : Eye) (i : Fin 8), ∃ stale, (t.store.bands.get e)[i] = { (s.store.bands.get e)[i] with stale := stale }
  records : ∀ b : Fin 256, t.store.buffers[b].content = s.store.buffers[b].content ∧
    t.store.buffers[b].tag = s.store.buffers[b].tag
  motion : t.motion = s.motion
  dials : t.dials = s.dials
  power : t.power = s.power
  sched : t.sched = s.sched
  settings : t.scan.settings = s.scan.settings
  tickTime : t.scan.tickTime = s.scan.tickTime
  frameNumber : t.scan.frameNumber = s.scan.frameNumber

theorem ViewKept.refl (s : State) : ViewKept s s :=
  ⟨rfl, rfl, fun _ _ => ⟨_, rfl⟩, fun _ => ⟨rfl, rfl⟩, rfl, rfl, rfl, rfl, rfl, rfl, rfl⟩

theorem ViewKept.trans {r s t : State} (h : ViewKept r s) (h' : ViewKept s t) : ViewKept r t where
  geometry := h'.geometry.trans h.geometry
  mem := h'.mem.trans h.mem
  bands e i := by
    obtain ⟨stale, hs⟩ := h.bands e i
    obtain ⟨stale', hs'⟩ := h'.bands e i
    exact ⟨stale', by rw [hs', hs]⟩
  records b := ⟨(h'.records b).1.trans (h.records b).1, (h'.records b).2.trans (h.records b).2⟩
  motion := h'.motion.trans h.motion
  dials := h'.dials.trans h.dials
  power := h'.power.trans h.power
  sched := h'.sched.trans h.sched
  settings := h'.settings.trans h.settings
  tickTime := h'.tickTime.trans h.tickTime
  frameNumber := h'.frameNumber.trans h.frameNumber

section

variable {s t : State} (h : ViewKept s t)
include h

theorem ViewKept.band (e : Eye) (k : Nat) : ∃ stale, t.store.band e k = { s.store.band e k with stale := stale } := by
  simpa only [SliceStore.band, h.geometry] using h.bands e (bandIndex s.store.geometry k)

theorem ViewKept.access (e : Eye) (k : Nat) : (t.store.band e k).access = (s.store.band e k).access := by
  obtain ⟨stale, hband⟩ := h.band e k
  rw [hband]

theorem ViewKept.fill (e : Eye) (k : Nat) : (t.store.band e k).fill = (s.store.band e k).fill := by
  obtain ⟨stale, hband⟩ := h.band e k
  rw [hband]

theorem ViewKept.bufferOf (e : Eye) (k : Nat) : t.store.bufferOf e k = s.store.bufferOf e k := by
  obtain ⟨stale, hband⟩ := h.band e k
  unfold SliceStore.bufferOf
  rw [hband, h.geometry]
  exact bufferAt_of_sameRun ⟨rfl, rfl, rfl, rfl⟩ ..

theorem ViewKept.source (e : Eye) (y x : Int) : Stated.source t e y x = Stated.source s e y x := by
  unfold Stated.source
  simp only [h.geometry, h.bufferOf, h.access, h.fill, h.mem, (h.records _).1]

theorem ViewKept.shows {e : Eye} {y : Nat} {r : ShiftRecord} {panel : Option PanelLine}
    (hshows : Stated.shows t e y r panel) : Stated.shows s e y r panel := by
  unfold Stated.shows at hshows ⊢
  simpa only [h.source, h.geometry, h.settings, h.power] using hshows

theorem ViewKept.showsFill {e : Eye} {y : Nat} {panel : Option PanelLine} (hshows : Stated.showsFill t e y panel) :
    Stated.showsFill s e y panel := by
  unfold Stated.showsFill at hshows ⊢
  simpa only [h.access, h.fill, h.geometry, h.settings, h.power] using hshows

theorem ViewKept.unmatchedAt (e : Eye) (k : Nat) : Stated.unmatchedAt t e k = Stated.unmatchedAt s e k := by
  unfold Stated.unmatchedAt
  rw [h.bufferOf, h.motion]
  cases s.store.bufferOf e k with
  | none => rfl
  | some b => simp only [(h.records b).2]

theorem ViewKept.lateAt (e : Eye) (k : Nat) : Stated.lateAt t e k = Stated.lateAt s e k := by
  unfold Stated.lateAt
  rw [h.bufferOf, h.frameNumber]
  cases s.store.bufferOf e k with
  | none => rfl
  | some b => simp only [(h.records b).2]

theorem ViewKept.shiftRecord (e : Eye) (k : Nat) : shiftRecord t e k = shiftRecord s e k := by
  have hpose : renderPose t e k = renderPose s e k := by
    unfold renderPose SliceStore.buffer
    rw [h.bufferOf, h.motion]
    cases s.store.bufferOf e k with
    | none => rfl
    | some b => simp only [(h.records b).2]
  have hraw : rawShift t e k = rawShift s e k := by
    unfold rawShift horizonTime displayTime lensTerm State.samplePeriod
    simp only [hpose, h.motion, h.geometry, h.tickTime, h.settings, h.dials, h.sched]
  unfold Machine.shiftRecord
  simp only [hraw, h.geometry, h.settings]

end

/-! ### A slice reached -/

/-- R132: the shift record of a slice reached. -/
def reachedShift (s : State) (e : Eye) (k : Nat) : ShiftRecord :=
  if (s.store.band e k).access = .live then shiftRecord s e k else zeroShift

theorem ViewKept.reachedShift {s t : State} (h : ViewKept s t) (e : Eye) (k : Nat) :
    reachedShift t e k = reachedShift s e k := by
  unfold Machine.reachedShift
  rw [h.access, h.shiftRecord]

/-- R136, R144: reaching a slice counts an unmatched record. -/
def reachedUnmatched (s : State) (e : Eye) (k : Nat) : Bool :=
  (s.store.band e k).access == .live && ((shiftRecord s e k).unmatched && countsUnmatched s e k)

/-- R132, R144: the scan after it reaches slice `k` of an eye. -/
def reachedScan (s : State) (e : Eye) (k : Nat) : Scan :=
  { s.scan with
    eyes := s.scan.eyes.put e
      { s.scan.eyes.get e with shift := some (reachedShift s e k), staleCurrent := Stated.staleAt s e k }
    unmatched := if reachedUnmatched s e k then bump s.scan.unmatched else s.scan.unmatched
    clamped :=
      if (reachedShift s e k).hClamp || (reachedShift s e k).vClamp then bump s.scan.clamped else s.scan.clamped
    staleShows := if Stated.staleAt s e k then bump s.scan.staleShows else s.scan.staleShows
    lateShows := if Stated.lateAt s e k then bump s.scan.lateShows else s.scan.lateShows }

/-- R125, R132: the slice store after the scan reaches slice `k` of an eye. -/
def reachedStore (s : State) (e : Eye) (k : Nat) : SliceStore :=
  if Stated.staleAt s e k then s.store.updBand e k fun d => { d with stale := true } else s.store

theorem countLateShow_eq (b : Fin 256) (s : State) :
    countLateShow b s =
      { s with
        scan :=
          { s.scan with
            lateShows :=
              if s.store.buffers[b].tag.present && isOlder s.store.buffers[b].tag.target s.scan.frameNumber then
                bump s.scan.lateShows
              else s.scan.lateShows } } := by
  unfold countLateShow
  dsimp only
  by_cases hlate :
      (s.store.buffers[b].tag.present && isOlder s.store.buffers[b].tag.target s.scan.frameNumber) = true
  · rw [if_pos hlate]
    exact if_pos hlate
  · rw [if_neg hlate]
    exact if_neg hlate

theorem bufferOf_of_not_live {k : SliceStore} {e : Eye} {i : Nat} (h : (k.band e i).access ≠ .live) :
    k.bufferOf e i = none := by
  unfold SliceStore.bufferOf Band.bufferAt
  cases haccess : (k.band e i).access with
  | live => exact absurd haccess h
  | fixed => rfl
  | absent => rfl

/-- R125, R132: the buffer of a slice reached, its shift record kept. -/
theorem showBuffer_eq (e : Eye) (k : Nat) (s : State) :
    showBuffer e k s =
      { s with
        scan :=
          { s.scan with
            eyes := s.scan.eyes.put e { s.scan.eyes.get e with staleCurrent := Stated.staleAt s e k }
            staleShows := if Stated.staleAt s e k then bump s.scan.staleShows else s.scan.staleShows
            lateShows := if Stated.lateAt s e k then bump s.scan.lateShows else s.scan.lateShows }
        store := reachedStore s e k } := by
  unfold showBuffer reachedStore Stated.staleAt Stated.lateAt
  cases hbuffer : s.store.bufferOf e k with
  | none => rfl
  | some b =>
    dsimp only
    by_cases hfull : s.store.buffers[b].full = true
    · rw [if_pos (show (s.store.buffer b).full = true from hfull), countLateShow_eq]
      simp only [hfull, Bool.not_true, Bool.false_eq_true, if_false, Bool.and_assoc]
      rfl
    · rw [if_neg (show ¬ (s.store.buffer b).full = true from hfull), countLateShow_eq]
      simp only [Bool.eq_false_of_not_eq_true hfull, Bool.not_false, if_true, Bool.and_assoc]
      rfl

/-- R132: reaching a slice changes the scan, and the stale flag of a band. -/
theorem reachSlice_eq (e : Eye) (k : Nat) (s : State) :
    reachSlice e k s = { s with scan := reachedScan s e k, store := reachedStore s e k } := by
  by_cases hlive : (s.store.band e k).access = .live
  · have hreach : reachSlice e k s = showBuffer e k (keepShift e k s) := by
      unfold reachSlice
      rw [hlive]
    have hshift : reachedShift s e k = shiftRecord s e k := if_pos hlive
    have hcounts : reachedUnmatched s e k = ((shiftRecord s e k).unmatched && countsUnmatched s e k) := by
      rw [reachedUnmatched, hlive]
      rfl
    rw [hreach, showBuffer_eq, reachedScan, hshift, hcounts]
    cases e <;> rfl
  · have hreach : reachSlice e k s =
        s.updScanEye e fun v => { v with shift := some zeroShift, staleCurrent := false } := by
      unfold reachSlice
      cases haccess : (s.store.band e k).access with
      | live => exact absurd haccess hlive
      | fixed => rfl
      | absent => rfl
    have hbuffer := bufferOf_of_not_live hlive
    have hshift : reachedShift s e k = zeroShift := if_neg hlive
    have hcounts : reachedUnmatched s e k = false := by
      rw [reachedUnmatched, beq_eq_false_iff_ne.mpr hlive, Bool.false_and]
    have hstale : Stated.staleAt s e k = false := by rw [Stated.staleAt, hbuffer]
    have hlate : Stated.lateAt s e k = false := by rw [Stated.lateAt, hbuffer]
    rw [hreach, reachedScan, reachedStore, hshift, hcounts, hstale, hlate]
    rfl

theorem reachSlice_view (e : Eye) (k : Nat) (s : State) : ViewKept s (reachSlice e k s) := by
  have hbands (e' : Eye) (i : Fin 8) : ∃ stale,
      ((reachedStore s e k).bands.get e')[i] = { (s.store.bands.get e')[i] with stale := stale } := by
    unfold reachedStore
    split
    · change ∃ stale, ((s.store.bands.put e (putAt _ _ _)).get e')[i] = _
      rw [both_get_put]
      split
      · next he =>
        rw [getElem_putAt]
        split
        · next hi =>
          rw [hi, he]
          exact ⟨true, rfl⟩
        · rw [he]
          exact ⟨_, rfl⟩
      · exact ⟨_, rfl⟩
    · exact ⟨_, rfl⟩
  have hstore : (reachedStore s e k).geometry = s.store.geometry ∧ (reachedStore s e k).mem = s.store.mem ∧
      (reachedStore s e k).buffers = s.store.buffers := by
    unfold reachedStore
    split <;> exact ⟨rfl, rfl, rfl⟩
  obtain ⟨hgeometry, hmem, hbuffers⟩ := hstore
  rw [reachSlice_eq]
  exact ⟨hgeometry, hmem, hbands, fun b => by rw [hbuffers]; exact ⟨rfl, rfl⟩, rfl, rfl, rfl, rfl, rfl, rfl, rfl⟩

end Sys2Proof.Machine
end

