-- ==== Sys2Proof/Proofs/SlicesOpened.lean ====
section
/-! PROOF. A slice opened, the scan coming to a slice, and the first line of a slice in both eyes (R121, R131 to R133).
O36 rests on them, and so do O37 and O38. -/

namespace Sys2Proof.Machine

/-! ### A slice opened -/

/-- R121: a buffer record after its slice is opened. -/
def openedRecord (r : BufferRecord) : BufferRecord :=
  { r with full := false, writing := if r.full then false else r.writing }

theorem openedRecord_of_open {r : BufferRecord} (h : r.full = false) : openedRecord r = r := by
  obtain ⟨full, content, tag, writing⟩ := r
  obtain rfl : full = false := h
  rfl

theorem openBuffer_of_full {k : SliceStore} {b : Fin 256} (h : k.buffers[b].full = true) :
    ∃ cut, k.openBuffer b =
      { k with buffers := putAt k.buffers b (openedRecord k.buffers[b]), writesCut := cut } := by
  unfold SliceStore.openBuffer
  rw [if_pos (show (k.buffer b).full = true from h)]
  cases hwriting : k.buffers[b].writing with
  | true =>
    have hrecord : openedRecord k.buffers[b] = { k.buffers[b] with full := false, writing := false } := by
      rw [openedRecord, h]
      rfl
    rw [if_pos (show (k.buffer b).writing = true from hwriting), hrecord]
    exact ⟨_, rfl⟩
  | false =>
    have hrecord : openedRecord k.buffers[b] = { k.buffers[b] with full := false } := by
      rw [openedRecord, h, if_pos rfl, ← hwriting]
    rw [if_neg (show ¬ (k.buffer b).writing = true from ne_true_of_eq_false hwriting), hrecord]
    exact ⟨k.writesCut, rfl⟩

theorem fullAt_eq_true_iff {s : State} {e : Eye} {j : Nat} :
    Stated.fullAt s e j = true ↔ ∃ b, s.store.bufferOf e j = some b ∧ s.store.buffers[b].full = true := by
  unfold Stated.fullAt
  cases s.store.bufferOf e j with
  | none => simp
  | some b => simp

theorem openSlice_of_open {s : State} {e : Eye} {j : Nat} (h : Stated.fullAt s e j = false) : openSlice e j s = s := by
  unfold Stated.fullAt at h
  unfold openSlice
  cases hbuffer : s.store.bufferOf e j with
  | none => rfl
  | some b =>
    rw [hbuffer] at h
    exact if_neg (ne_true_of_eq_false h)

theorem openSlice_of_full {s : State} {e : Eye} {j : Nat} {b : Fin 256} (hbuffer : s.store.bufferOf e j = some b)
    (hfull : s.store.buffers[b].full = true) :
    openSlice e j s = recomputeHorizon e (s.updStore (·.openBuffer b)) := by
  unfold openSlice
  rw [hbuffer]
  exact if_pos hfull

/-- R121: the slice store after a slice is opened. -/
theorem openSlice_store (e : Eye) (j : Nat) (s : State) :
    ∃ buffers cut, (openSlice e j s).store = { s.store with buffers := buffers, writesCut := cut } ∧
      ∀ b : Fin 256, buffers[b] =
        if s.store.bufferOf e j = some b then openedRecord s.store.buffers[b] else s.store.buffers[b] := by
  cases hfull : Stated.fullAt s e j with
  | true =>
    obtain ⟨c, hc, hfull⟩ := fullAt_eq_true_iff.mp hfull
    obtain ⟨cut, hopen⟩ := openBuffer_of_full hfull
    rw [openSlice_of_full hc hfull, (by simp : (recomputeHorizon e (s.updStore (·.openBuffer c))).store =
      s.store.openBuffer c), hopen]
    refine ⟨_, cut, rfl, fun b => (getElem_putAt ..).trans ?_⟩
    rw [hc]
    by_cases hbc : b = c
    · rw [if_pos hbc, if_pos (congrArg some hbc.symm), hbc]
    · rw [if_neg hbc, if_neg fun h => hbc (Option.some.inj h).symm]
  | false =>
    rw [openSlice_of_open hfull]
    refine ⟨s.store.buffers, s.store.writesCut, rfl, fun b => ?_⟩
    by_cases hb : s.store.bufferOf e j = some b
    · have hopen : s.store.buffers[b].full = false := by
        rw [Stated.fullAt, hb] at hfull
        exact hfull
      rw [if_pos hb, openedRecord_of_open hopen]
    · rw [if_neg hb]

theorem viewKept_of_buffers {s t : State} {buffers : Vector BufferRecord 256} {cut : Counter} {p : Fin 256 → Prop}
    [DecidablePred p] (hstore : t.store = { s.store with buffers := buffers, writesCut := cut })
    (hbuffers : ∀ b : Fin 256, buffers[b] = if p b then openedRecord s.store.buffers[b] else s.store.buffers[b])
    (hmotion : t.motion = s.motion) (hdials : t.dials = s.dials) (hpower : t.power = s.power)
    (hsched : t.sched = s.sched) (hsettings : t.scan.settings = s.scan.settings)
    (htick : t.scan.tickTime = s.scan.tickTime) (hframe : t.scan.frameNumber = s.scan.frameNumber) :
    ViewKept s t := by
  refine ⟨by rw [hstore], by rw [hstore], fun e i => ⟨_, by rw [hstore]⟩, fun b => ?_, hmotion, hdials, hpower, hsched,
    hsettings, htick, hframe⟩
  rw [hstore]
  dsimp only
  rw [hbuffers]
  split <;> exact ⟨rfl, rfl⟩

/-! ### The scan comes to a slice -/

/-- R131, R133: an eye comes to slice `k`: it leaves the slice before, if there is one. -/
def comeTo (e : Eye) (k : Nat) (s : State) : State := if k = 0 then s else leaveSlice e (k - 1) s

theorem turnSlice_eq (e : Eye) (k : Nat) (s : State) : turnSlice e k s = reachSlice e k (comeTo e k s) := rfl

/-- R133: the opening behind the scan, its overtaking counted. -/
def overtakenCounted (e : Eye) (j : Nat) (s : State) : State :=
  { s with
    scan :=
      { s.scan with
        overtaken :=
          if (s.scan.eyes.get e).staleBehind && Stated.fullAt s e j then bump s.scan.overtaken
          else s.scan.overtaken } }

theorem openBehind_eq (e : Eye) (j : Nat) (s : State) :
    openBehind e j s = openSlice e j (overtakenCounted e j s) := by
  have hfull : s.store.isFull e j = Stated.fullAt s e j := rfl
  unfold openBehind overtakenCounted State.scanEye
  dsimp only
  rw [hfull]
  cases (s.scan.eyes.get e).staleBehind && Stated.fullAt s e j <;> rfl

theorem comeTo_zero (e : Eye) (s : State) : comeTo e 0 s = s := rfl

theorem comeTo_one (e : Eye) (s : State) : comeTo e 1 s = takeOverMark e s := rfl

theorem comeTo_of_two_le {e : Eye} {k : Nat} (h : 2 ≤ k) (s : State) :
    comeTo e k s = takeOverMark e (openSlice e (k - 2) (overtakenCounted e (k - 2) s)) := by
  rw [comeTo, if_neg (by omega), leaveSlice, if_neg (by omega), openBehind_eq]
  rfl

theorem openSlice_scan (e : Eye) (i : Nat) (s : State) : (openSlice e i s).scan = s.scan := by simp

/-- R133: the scan after an eye comes to a slice. -/
theorem comeTo_scan (e : Eye) (k : Nat) (s : State) :
    (comeTo e k s).scan =
      { s.scan with
        overtaken :=
          if decide (2 ≤ k) && ((s.scan.eyes.get e).staleBehind && Stated.fullAt s e (k - 2)) then
            bump s.scan.overtaken
          else s.scan.overtaken
        eyes := s.scan.eyes.put e
          { s.scan.eyes.get e with
            staleBehind := if k = 0 then (s.scan.eyes.get e).staleBehind else (s.scan.eyes.get e).staleCurrent } } := by
  match k with
  | 0 =>
    rw [comeTo_zero]
    cases e <;> rfl
  | 1 =>
    rw [comeTo_one]
    cases e <;> rfl
  | k + 2 =>
    rw [comeTo_of_two_le (by omega), decide_eq_true (by omega : 2 ≤ k + 2), Bool.true_and,
      if_neg (by omega : ¬ k + 2 = 0), takeOverMark, State.updScanEye, updScan_scan, openSlice_scan]
    rfl

/-- R121, R133: the slice store after an eye comes to a slice. -/
theorem comeTo_store (e : Eye) (k : Nat) (s : State) :
    ∃ buffers cut, (comeTo e k s).store = { s.store with buffers := buffers, writesCut := cut } ∧
      ∀ b : Fin 256, buffers[b] =
        if 2 ≤ k ∧ s.store.bufferOf e (k - 2) = some b then openedRecord s.store.buffers[b]
        else s.store.buffers[b] := by
  by_cases hk : 2 ≤ k
  · obtain ⟨buffers, cut, hstore, hbuffers⟩ := openSlice_store e (k - 2) (overtakenCounted e (k - 2) s)
    rw [comeTo_of_two_le hk, (by simp : ∀ u : State, (takeOverMark e u).store = u.store), hstore]
    simp only [hk, true_and]
    exact ⟨buffers, cut, rfl, hbuffers⟩
  · have hsame : (comeTo e k s).store = s.store := by
      match k, hk with
      | 0, _ => rfl
      | 1, _ => rfl
      | k + 2, h => exact absurd (by omega) h
    rw [hsame]
    exact ⟨s.store.buffers, s.store.writesCut, rfl, fun b => (if_neg fun h => hk h.1).symm⟩

theorem comeTo_view (e : Eye) (k : Nat) (s : State) : ViewKept s (comeTo e k s) := by
  obtain ⟨buffers, cut, hstore, hbuffers⟩ := comeTo_store e k s
  have hframe : (comeTo e k s).motion = s.motion ∧ (comeTo e k s).dials = s.dials ∧
      (comeTo e k s).power = s.power ∧ (comeTo e k s).sched = s.sched := by
    unfold comeTo
    split <;> simp
  obtain ⟨hmotion, hdials, hpower, hsched⟩ := hframe
  refine viewKept_of_buffers hstore hbuffers hmotion hdials hpower hsched ?_ ?_ ?_ <;> rw [comeTo_scan]

theorem turnSlice_view (e : Eye) (k : Nat) (s : State) : ViewKept s (turnSlice e k s) :=
  (comeTo_view e k s).trans (reachSlice_view e k _)

theorem formLine_view (e : Eye) (y : Nat) (s : State) : ViewKept s (formLine e y s) :=
  ⟨rfl, rfl, fun _ _ => ⟨_, rfl⟩, fun _ => ⟨rfl, rfl⟩, rfl, rfl, rfl, rfl, rfl, rfl, rfl⟩

/-- R132: the shift record of an eye that turns to a slice. -/
theorem turnSlice_shift (e : Eye) (k : Nat) (s : State) :
    ((turnSlice e k s).scan.eyes.get e).shift = some (reachedShift s e k) := by
  rw [turnSlice_eq, reachSlice_eq, reachedScan]
  dsimp only
  rw [both_get_put, if_pos rfl, (comeTo_view e k s).reachedShift]

/-- R131: the turn of an eye touches neither the scan nor the bands of the other. -/
theorem turnSlice_other (e : Eye) (k : Nat) (s : State) :
    (turnSlice e k s).scan.eyes.get (Eye.other e) = s.scan.eyes.get (Eye.other e) ∧
      (turnSlice e k s).store.bands.get (Eye.other e) = s.store.bands.get (Eye.other e) := by
  have hne : Eye.other e ≠ e := by cases e <;> nofun
  obtain ⟨buffers, cut, hstore, -⟩ := comeTo_store e k s
  rw [turnSlice_eq, reachSlice_eq, reachedScan, reachedStore]
  dsimp only
  constructor
  · rw [both_get_put, if_neg hne, comeTo_scan, both_get_put, if_neg hne]
  · split
    · rw [SliceStore.updBand, both_get_put, if_neg hne, hstore]
    · rw [hstore]

/-! ### The first line of a slice -/

/-- R131: the state in which an eye turns to slice `k`, the right eye after the left eye's part of the line. -/
def atTurn (e : Eye) (k : Nat) (s : State) : State :=
  match e with
  | .left => s
  | .right => formLine .left (k * s.store.geometry.S) (turnSlice .left k s)

theorem atTurn_view (e : Eye) (k : Nat) (s : State) : ViewKept s (atTurn e k s) := by
  cases e with
  | left => exact .refl s
  | right => exact (turnSlice_view .left k s).trans (formLine_view ..)

theorem scanLine_first {s : State} (k : Nat) (hsize : 0 < s.store.geometry.S) :
    scanLine (k * s.store.geometry.S) s =
      (formLine .right (k * s.store.geometry.S) (turnSlice .right k (atTurn .right k s))).updScan fun c =>
        { c with current := some k, nextLine := k * s.store.geometry.S + 1 } := by
  have heye (e : Eye) (u : State) (hu : u.store.geometry = s.store.geometry) :
      scanEyeLine e (k * s.store.geometry.S) u = formLine e (k * s.store.geometry.S) (turnSlice e k u) := by
    unfold scanEyeLine
    dsimp only
    rw [hu, if_pos (Nat.mul_mod_left ..), Nat.mul_div_cancel _ hsize]
  unfold scanLine
  dsimp only
  rw [heye .left s rfl, Nat.mul_div_cancel _ hsize]
  exact congrArg (State.updScan · _) (heye .right (atTurn .right k s) (atTurn_view .right k s).geometry)

/-- R131, R132: what an eye has after the first line of a slice, it has from its own turn. -/
theorem scanLine_first_eye {s : State} (k : Nat) (hsize : 0 < s.store.geometry.S) (e : Eye) :
    let t := scanLine (k * s.store.geometry.S) s
    let turned := turnSlice e k (atTurn e k s)
    t.scan.eyes.get e = turned.scan.eyes.get e ∧ t.store.bands.get e = turned.store.bands.get e ∧
      t.pins.panel.get e = (formLine e (k * s.store.geometry.S) turned).pins.panel.get e := by
  intro t turned
  have ht : t = (formLine .right (k * s.store.geometry.S) (turnSlice .right k (atTurn .right k s))).updScan fun c =>
      { c with current := some k, nextLine := k * s.store.geometry.S + 1 } := scanLine_first k hsize
  cases e with
  | right =>
    rw [ht]
    exact ⟨rfl, rfl, rfl⟩
  | left =>
    obtain ⟨hscan, hbands⟩ := turnSlice_other .right k (atTurn .right k s)
    rw [ht]
    refine ⟨hscan, hbands, ?_⟩
    change (turnSlice .right k (atTurn .right k s)).pins.panel.left = _
    rw [(turnSlice_frame .right k (atTurn .right k s)).2.2.1]
    rfl

/-- R132: the shift record of an eye from the first line of a slice on. -/
theorem scanLine_first_shift {s : State} (k : Nat) (hsize : 0 < s.store.geometry.S) (e : Eye) :
    ((scanLine (k * s.store.geometry.S) s).scan.eyes.get e).shift = some (reachedShift s e k) := by
  rw [(scanLine_first_eye k hsize e).1, turnSlice_shift, (atTurn_view e k s).reachedShift]

theorem firstLineOfASliceIsFormed : Stated.FirstLineOfASliceIsFormed := by
  intro s k e hdue y
  have ⟨_, _, _, _, _, hsize⟩ := hdue
  have hdiv : y / s.store.geometry.S = k := Nat.mul_div_cancel _ hsize
  obtain ⟨-, -, hpanel⟩ := scanLine_first_eye k hsize e
  have hview : ViewKept s (turnSlice e k (atTurn e k s)) := (atTurn_view e k s).trans (turnSlice_view ..)
  have haccess : ((turnSlice e k (atTurn e k s)).store.band e
      (y / (turnSlice e k (atTurn e k s)).store.geometry.S)).access = (s.store.band e k).access := by
    rw [hview.geometry, hdiv, hview.access]
  refine ⟨_, _, exec_scanLine hdue, scanLine_first_shift k hsize e, fun hlive => ?_, fun hband => ⟨?_, ?_⟩⟩
  · rw [hpanel]
    refine hview.shows (formLine_shows ?_ (haccess.trans hlive))
    rw [turnSlice_shift, (atTurn_view e k s).reachedShift]
  · exact if_neg hband
  · rw [hpanel]
    exact hview.showsFill (formLine_showsFill (by rw [haccess]; exact hband))

/-- Settles O36: lines within a slice, of LIVE bands and of others, and first lines. -/
theorem linesAreFormedForThePanels : Obligations.LinesAreFormedForThePanels :=
  ⟨linesAreShiftedBlendedAndScaled, bandsWithoutBuffersShowTheirFill, firstLineOfASliceIsFormed⟩

end Sys2Proof.Machine
end

