-- ==== Sys2Proof/Proofs/LateShifts.lean ====
section
/-! PROOF. The late shift of a slice, and what reaching a slice counts (R125, R132, R134 to R140, R144). O37 rests on
them. -/

namespace Sys2Proof.Machine

/-! ### The shift record -/

theorem within_eq (v : Int) {lo hi : Int} (h : lo ≤ hi) : Stated.within lo hi v = clampInt v lo hi := by
  unfold Stated.within clampInt
  split
  · omega
  · split <;> omega

theorem bne_eq_decide_ne (a b : Int) : (a != b) = decide (a ≠ b) := by
  by_cases h : a = b <;> simp [h]

/-- R140: a clamped record. -/
theorem clampShift_eq (g : Geometry) (maxshift : Nat) (dx dy : Int) (unmatched : Bool) :
    clampShift g maxshift dx dy unmatched =
      let dx' := Stated.within (-(16 * maxshift)) (16 * maxshift) dx
      let dy' := Stated.within (-(min g.S maxshift)) (min g.S maxshift) dy
      { dx16 := dx', dy := dy', unmatched := unmatched, hClamp := decide (dx' ≠ dx), vClamp := decide (dy' ≠ dy) } := by
  have hx : Stated.within (-(16 * maxshift)) (16 * maxshift) dx =
      clampInt dx (-(16 * maxshift : Nat)) (16 * maxshift : Nat) := by
    rw [within_eq dx (by omega)]
    rfl
  have hy : Stated.within (-(min g.S maxshift)) (min g.S maxshift) dy =
      clampInt dy (-(min g.S maxshift : Nat)) (min g.S maxshift : Nat) := by
    rw [within_eq dy (by omega), Nat.cast_min]
  dsimp only
  rw [hx, hy, clampShift, bne_eq_decide_ne, bne_eq_decide_ne]

theorem lensTerm_eq (s : State) (e : Eye) :
    lensTerm s e =
      if e = .left then s.dials.e0.frameValue * s.scan.settings.lensStep
      else -(s.dials.e0.frameValue * s.scan.settings.lensStep) := by
  cases e <;> rfl

/-- R73: the period of an action that one entry holds. -/
theorem periodOf_of_single {k : Schedule} {a : Action} {i : Fin 8} {p phase due : Nat}
    (hentry : k.entries[i] = { action := a, mode := .repeating p phase due })
    (hsingle : ∀ j : Fin 8, j ≠ i → k.entries[j].action ≠ a) : k.periodOf a = some p := by
  have hfound : k.entries.toList.find? (·.action == a) = some k.entries[i] := by
    cases hfind : k.entries.toList.find? (·.action == a) with
    | none =>
      have hnot := List.find?_eq_none.mp hfind k.entries[i] (by simp)
      simp [hentry] at hnot
    | some x =>
      obtain ⟨j, hj, hx⟩ := List.mem_iff_getElem.mp (List.mem_of_find?_eq_some hfind)
      have haction : x.action = a := by simpa using List.find?_some hfind
      have hlt : j < 8 := by simpa using hj
      have hxj : x = k.entries[(⟨j, hlt⟩ : Fin 8)] := by
        rw [← hx]
        simp
      by_cases hij : (⟨j, hlt⟩ : Fin 8) = i
      · subst hij
        rw [hxj]
      · exact absurd (hxj ▸ haction) (hsingle _ hij)
  rw [Schedule.periodOf, hfound, hentry]
  rfl

/-- R136: an unmatched slice has no render pose. -/
theorem unmatchedAt_eq (s : State) (e : Eye) (k : Nat) :
    Stated.unmatchedAt s e k = (renderPose s e k).isNone := by
  unfold Stated.unmatchedAt renderPose SliceStore.buffer
  cases s.store.bufferOf e k with
  | none => rfl
  | some b =>
    dsimp only
    cases s.store.buffers[b].tag.present with
    | false => rfl
    | true =>
      rw [if_pos rfl, Bool.not_true, Bool.false_or, Bool.eq_iff_iff, List.all_eq_true, Option.isNone_iff_eq_none,
        List.find?_eq_none]
      simp only [bne_iff_ne, ne_eq, beq_iff_eq]

theorem rawShift_of_unmatched {s : State} {e : Eye} {k : Nat} (h : renderPose s e k = none) :
    rawShift s e k = (lensTerm s e, 0, true) := by
  unfold rawShift
  rw [h]
  cases s.motion.newest <;> rfl

theorem newest_isSome_of_renderPose {s : State} {e : Eye} {k : Nat} {r : PoseEntry} (h : renderPose s e k = some r) :
    ∃ l, s.motion.newest = some l := by
  have hmem : r ∈ s.motion.history := by
    unfold renderPose at h
    cases hbuffer : s.store.bufferOf e k with
    | none =>
      rw [hbuffer] at h
      nomatch h
    | some b =>
      rw [hbuffer] at h
      dsimp only at h
      split at h
      · exact List.mem_of_find?_eq_some h
      · nomatch h
  exact ⟨_, List.getLast?_eq_some_getLast (List.ne_nil_of_mem hmem)⟩

theorem shiftRecord_unmatched (s : State) (e : Eye) (k : Nat) :
    (shiftRecord s e k).unmatched = Stated.unmatchedAt s e k := by
  rw [unmatchedAt_eq]
  change (rawShift s e k).2.2 = _
  cases hpose : renderPose s e k with
  | none => rw [rawShift_of_unmatched hpose]; rfl
  | some r =>
    obtain ⟨l, hnewest⟩ := newest_isSome_of_renderPose hpose
    rw [rawShift, hnewest, hpose]
    rfl

/-- R136, R138, R140: the record of an unmatched slice. -/
theorem shiftRecord_of_unmatched {s : State} {e : Eye} {k : Nat} (h : Stated.unmatchedAt s e k = true) :
    shiftRecord s e k =
      let dx' := Stated.within (-(16 * s.scan.settings.maxshift)) (16 * s.scan.settings.maxshift) (lensTerm s e)
      { dx16 := dx', dy := 0, unmatched := true, hClamp := decide (dx' ≠ lensTerm s e), vClamp := false } := by
  have hpose : renderPose s e k = none := Option.isNone_iff_eq_none.mp ((unmatchedAt_eq s e k).symm.trans h)
  have hzero : Stated.within (-(min s.store.geometry.S s.scan.settings.maxshift))
      (min s.store.geometry.S s.scan.settings.maxshift) 0 = 0 := by
    unfold Stated.within
    omega
  unfold shiftRecord
  dsimp only
  rw [rawShift_of_unmatched hpose, clampShift_eq]
  dsimp only
  rw [hzero]
  rfl

/-- R134 to R140: the record of a matched slice. -/
theorem shiftRecord_of_matched {s : State} {e : Eye} {k tick : Nat} {x : Stated.ShiftInput}
    (htick : s.scan.tickTime = some tick) (hreads : Stated.shiftReads s e k x) :
    shiftRecord s e k = Stated.lateShift s e k tick x := by
  obtain ⟨hlatest, ⟨b, hbuffer, hpresent, hrender⟩, i, phase, due, hentry, hsingle⟩ := hreads
  have hpose : renderPose s e k = some x.render := by
    unfold renderPose SliceStore.buffer
    rw [hbuffer]
    dsimp only
    rw [if_pos hpresent]
    exact hrender
  have hnewest : s.motion.newest = some x.latest := hlatest
  have hperiod : s.samplePeriod = x.period := by
    rw [State.samplePeriod, periodOf_of_single hentry hsingle]
    exact Nat.mul_div_cancel_left _ (by decide)
  have hhorizon : horizonTime s k x.latest =
      Stated.within 0 s.scan.settings.hmax
        (((tick + (k * s.store.geometry.S + s.store.geometry.S / 2) * s.scan.settings.lp / 16 +
          s.scan.settings.glow : Nat) : Int) - x.latest.stamp) := by
    rw [within_eq _ (by omega), horizonTime, displayTime, htick]
    rfl
  unfold shiftRecord
  dsimp only
  rw [rawShift, hnewest, hpose]
  dsimp only
  rw [clampShift_eq, hperiod, hhorizon, lensTerm_eq]
  rfl

/-! ### The first line of a slice -/

theorem scanLine_first_view {s : State} (k : Nat) (hsize : 0 < s.store.geometry.S) :
    ViewKept s (scanLine (k * s.store.geometry.S) s) := by
  have hview := ((atTurn_view .right k s).trans (turnSlice_view .right k _)).trans
    (formLine_view .right (k * s.store.geometry.S) (turnSlice .right k (atTurn .right k s)))
  rw [scanLine_first k hsize]
  exact ⟨hview.geometry, hview.mem, hview.bands, hview.records, hview.motion, hview.dials, hview.power, hview.sched,
    hview.settings, hview.tickTime, hview.frameNumber⟩

theorem scanLine_current {s : State} (k : Nat) (hsize : 0 < s.store.geometry.S) :
    (scanLine (k * s.store.geometry.S) s).scan.current = some k := by
  rw [scanLine_first k hsize]
  rfl

theorem matchedSliceTakesItsLateShift : Stated.MatchedSliceTakesItsLateShift := by
  intro s k tick e x hdue htick hlive hreads
  have ⟨_, _, _, _, _, hsize⟩ := hdue
  have hview := scanLine_first_view k hsize
  refine ⟨_, exec_scanLine hdue, ?_, scanLine_current k hsize, hview.motion, hview.dials, hview.power, hview.mem⟩
  rw [scanLine_first_shift k hsize, reachedShift, if_pos hlive, shiftRecord_of_matched htick hreads]

theorem unmatchedSliceTakesTheLensTermAlone : Stated.UnmatchedSliceTakesTheLensTermAlone := by
  intro s k e hdue hlive hunmatched lens dx dx'
  have ⟨_, _, _, _, _, hsize⟩ := hdue
  refine ⟨_, exec_scanLine hdue, ?_⟩
  rw [scanLine_first_shift k hsize, reachedShift, if_pos hlive, shiftRecord_of_unmatched hunmatched, lensTerm_eq]

/-! ### Counters -/

theorem raised_eq (c : Counter) (counts : Eye → Bool) :
    Stated.raised c counts =
      if counts .right then bump (if counts .left then bump c else c) else if counts .left then bump c else c := by
  have hraised : Stated.raised c counts = bumpBy (bumpBy c (counts .left).toNat) (counts .right).toNat := by
    rw [bumpBy_bumpBy, bumpBy, ← Nat.add_assoc]
    rfl
  have hone (b : Bool) (c : Counter) : bumpBy c b.toNat = if b then bump c else c := by
    cases b with
    | true => exact (bump_eq_bumpBy c).symm
    | false => exact bumpBy_zero c
  rw [hraised, hone, hone]

theorem ViewKept.reachedUnmatched {s t : State} (h : ViewKept s t) (e : Eye) (k : Nat) :
    reachedUnmatched t e k = reachedUnmatched s e k := by
  unfold Machine.reachedUnmatched countsUnmatched
  rw [h.access, h.shiftRecord, h.bufferOf, h.motion]

/-- R132, R136, R140: what the turn of an eye counts of records and late shows. -/
theorem turnSlice_counts (e : Eye) (k : Nat) (s : State) :
    (turnSlice e k s).scan.unmatched =
        (if reachedUnmatched s e k then bump s.scan.unmatched else s.scan.unmatched) ∧
      (turnSlice e k s).scan.clamped =
        (if (reachedShift s e k).hClamp || (reachedShift s e k).vClamp then bump s.scan.clamped
          else s.scan.clamped) ∧
      (turnSlice e k s).scan.lateShows =
        if Stated.lateAt s e k then bump s.scan.lateShows else s.scan.lateShows := by
  have hview := comeTo_view e k s
  rw [turnSlice_eq, reachSlice_eq, reachedScan]
  dsimp only
  rw [hview.reachedUnmatched, hview.reachedShift, hview.lateAt, comeTo_scan]
  exact ⟨rfl, rfl, rfl⟩

/-- R132, R136, R140: what the first line of a slice counts, over both eyes. -/
theorem scanLine_first_counts {s : State} (k : Nat) (hsize : 0 < s.store.geometry.S) :
    let t := scanLine (k * s.store.geometry.S) s
    t.scan.unmatched = Stated.raised s.scan.unmatched (reachedUnmatched s · k) ∧
      t.scan.clamped = Stated.raised s.scan.clamped
        (fun e => (reachedShift s e k).hClamp || (reachedShift s e k).vClamp) ∧
      t.scan.lateShows = Stated.raised s.scan.lateShows (Stated.lateAt s · k) := by
  intro t
  have ht : t = (formLine .right (k * s.store.geometry.S) (turnSlice .right k (atTurn .right k s))).updScan fun c =>
      { c with current := some k, nextLine := k * s.store.geometry.S + 1 } := scanLine_first k hsize
  have hview := atTurn_view .right k s
  obtain ⟨hunmatched, hclamped, hlate⟩ := turnSlice_counts .left k s
  obtain ⟨hunmatched', hclamped', hlate'⟩ := turnSlice_counts .right k (atTurn .right k s)
  rw [hview.reachedUnmatched] at hunmatched'
  rw [hview.reachedShift] at hclamped'
  rw [hview.lateAt] at hlate'
  have hscan : (atTurn .right k s).scan = (turnSlice .left k s).scan := rfl
  rw [hscan, hunmatched] at hunmatched'
  rw [hscan, hclamped] at hclamped'
  rw [hscan, hlate] at hlate'
  rw [raised_eq, raised_eq, raised_eq, ht]
  exact ⟨hunmatched', hclamped', hlate'⟩

theorem recordsAreCountedInBothEyes : Stated.RecordsAreCountedInBothEyes := by
  intro s k hdue live
  have ⟨_, _, _, _, _, hsize⟩ := hdue
  obtain ⟨hunmatched, hclamped, -⟩ := scanLine_first_counts k hsize
  refine ⟨_, exec_scanLine hdue, hunmatched.trans (congrArg _ (funext fun e => ?_)),
    hclamped.trans (congrArg _ (funext fun e => ?_)), fun e he => ?_⟩
  · rw [reachedUnmatched, shiftRecord_unmatched, ← Bool.and_assoc]
    rfl
  · rw [scanLine_first_shift k hsize]
  · rw [scanLine_first_shift k hsize, reachedShift, if_neg (beq_eq_false_iff_ne.mp he)]
    rfl

/-! ### Stale shows -/

theorem reachedStore_buffers (s : State) (e : Eye) (k : Nat) : (reachedStore s e k).buffers = s.store.buffers := by
  unfold reachedStore
  split <;> rfl

/-- R121, R133: the buffer records after an eye turns to a slice. -/
theorem turnSlice_buffers (e : Eye) (k : Nat) (s : State) (b : Fin 256) :
    (turnSlice e k s).store.buffers[b] =
      if 2 ≤ k ∧ s.store.bufferOf e (k - 2) = some b then openedRecord s.store.buffers[b] else s.store.buffers[b] := by
  obtain ⟨buffers, cut, hstore, hbuffers⟩ := comeTo_store e k s
  rw [turnSlice_eq, reachSlice_eq, reachedStore_buffers, hstore]
  exact hbuffers b

/-- R133: an eye that turns to one of the first two slices opens none. -/
theorem turnSlice_of_lt_two (e : Eye) {k : Nat} (hk : k < 2) (s : State) :
    (turnSlice e k s).store.buffers = s.store.buffers ∧ (turnSlice e k s).laneRx = s.laneRx ∧
      (turnSlice e k s).slots = s.slots := by
  match k, hk with
  | 0, _ =>
    rw [turnSlice_eq, comeTo_zero, reachSlice_eq]
    exact ⟨reachedStore_buffers .., rfl, rfl⟩
  | 1, _ =>
    rw [turnSlice_eq, comeTo_one, reachSlice_eq]
    exact ⟨reachedStore_buffers .., rfl, rfl⟩

theorem ViewKept.staleAt {s t : State} (h : ViewKept s t) {e : Eye} {k : Nat}
    (hfull : ∀ b : Fin 256, s.store.bufferOf e k = some b → t.store.buffers[b].full = s.store.buffers[b].full) :
    Stated.staleAt t e k = Stated.staleAt s e k := by
  unfold Stated.staleAt
  rw [h.bufferOf]
  cases hbuffer : s.store.bufferOf e k with
  | none => rfl
  | some b => exact congrArg (!·) (hfull b hbuffer)

theorem lt_slices_of_lineDue {s : State} {k : Nat} (hgeometry : geometryOk s)
    (hdue : Stated.lineDue s (k * s.store.geometry.S)) : k < s.store.geometry.slices := by
  obtain ⟨-, -, hlast, -, -, hsize⟩ := hdue
  obtain ⟨-, hwhole, -⟩ := hgeometry
  have hdvd : s.store.geometry.S ∣ s.store.geometry.H :=
    (Nat.dvd_mul_left ..).trans (Nat.dvd_of_mod_eq_zero hwhole)
  rw [Geometry.slices, Nat.lt_div_iff_mul_lt' hdvd, Nat.mul_comm]
  exact hlast

/-- R116, R117: the slice two behind shares no buffer with the slice reached, in either eye. -/
theorem bufferOf_behind_ne {s : State} {k : Nat} (hgeometry : geometryOk s) (hbands : bandsOk s)
    (hk : k < s.store.geometry.slices) (h2 : 2 ≤ k) {e e' : Eye} {b : Fin 256}
    (hbuffer : s.store.bufferOf e k = some b) : s.store.bufferOf e' (k - 2) ≠ some b := fun hbehind => by
  have hsame := (bufferOf_injective hgeometry hbands hk (by omega) hbuffer hbehind).2
  omega

/-- R132, R133: the turns of the eyes leave the buffer of the slice reached as it is. -/
theorem staleAt_comeTo_atTurn {s : State} {k : Nat} (hgeometry : geometryOk s) (hbands : bandsOk s)
    (hk : k < s.store.geometry.slices) (e : Eye) :
    Stated.staleAt (comeTo e k (atTurn e k s)) e k = Stated.staleAt s e k := by
  have hturn : ∀ b : Fin 256, s.store.bufferOf e k = some b →
      (atTurn e k s).store.buffers[b].full = s.store.buffers[b].full := fun b hb => by
    cases e with
    | left => rfl
    | right =>
      change (turnSlice .left k s).store.buffers[b].full = _
      rw [turnSlice_buffers, if_neg fun h => bufferOf_behind_ne hgeometry hbands hk h.1 hb h.2]
  have hview := atTurn_view e k s
  refine (hview.trans (comeTo_view e k _)).staleAt fun b hb => ?_
  obtain ⟨buffers, cut, hstore, hbuffers⟩ := comeTo_store e k (atTurn e k s)
  rw [hstore]
  dsimp only
  rw [hbuffers, hview.bufferOf, if_neg fun h => bufferOf_behind_ne hgeometry hbands hk h.1 hb h.2]
  exact hturn b hb

/-- R125, R132: what the turn of an eye makes of stale shows. -/
theorem turnSlice_stale (e : Eye) (k : Nat) (s : State) :
    (turnSlice e k s).scan.staleShows =
        (if Stated.staleAt (comeTo e k s) e k then bump s.scan.staleShows else s.scan.staleShows) ∧
      ((turnSlice e k s).scan.eyes.get e).staleCurrent = Stated.staleAt (comeTo e k s) e k ∧
      (turnSlice e k s).store.band e k =
        { s.store.band e k with
          stale := Stated.staleAt (comeTo e k s) e k || (s.store.band e k).stale } := by
  obtain ⟨buffers, cut, hstore, -⟩ := comeTo_store e k s
  have hband : (comeTo e k s).store.band e k = s.store.band e k := by
    rw [hstore]
    rfl
  rw [turnSlice_eq, reachSlice_eq, reachedScan, reachedStore]
  dsimp only
  refine ⟨by rw [comeTo_scan], by rw [both_get_put, if_pos rfl], ?_⟩
  cases Stated.staleAt (comeTo e k s) e k with
  | false =>
    rw [if_neg nofun, hband]
    rfl
  | true =>
    rw [if_pos rfl, ← hband]
    change (((comeTo e k s).store.bands.put e _).get e)[bandIndex (comeTo e k s).store.geometry k] = _
    rw [both_get_put, if_pos rfl, getElem_putAt, if_pos rfl]
    rfl

theorem atTurn_band (e : Eye) (k : Nat) (s : State) : (atTurn e k s).store.band e k = s.store.band e k := by
  cases e with
  | left => rfl
  | right =>
    have hbands : (turnSlice .left k s).store.bands.right = s.store.bands.right := (turnSlice_other .left k s).2
    change (turnSlice .left k s).store.band .right k = _
    have hgeometry := (turnSlice_view .left k s).geometry
    unfold SliceStore.band
    simp only [Both.get, hbands, hgeometry]

theorem reachedSliceCountsStaleAndLateShows : Stated.ReachedSliceCountsStaleAndLateShows := by
  intro s k hdue
  have ⟨_, _, _, _, _, hsize⟩ := hdue
  have hview := scanLine_first_view k hsize
  refine ⟨_, exec_scanLine hdue, fun hgeometry hbands => ⟨?_, fun e => ⟨?_, ?_⟩⟩, (scanLine_first_counts k hsize).2.2,
    fun hzero => ?_, hview.mem⟩
  · have hk := lt_slices_of_lineDue hgeometry hdue
    have hleft := (turnSlice_stale .left k s).1
    have hright := (turnSlice_stale .right k (atTurn .right k s)).1
    have hscan : (atTurn .right k s).scan = (turnSlice .left k s).scan := rfl
    rw [show Stated.staleAt (comeTo .left k s) .left k = _ from
      staleAt_comeTo_atTurn hgeometry hbands hk .left] at hleft
    rw [staleAt_comeTo_atTurn hgeometry hbands hk, hscan, hleft] at hright
    rw [raised_eq, scanLine_first k hsize]
    exact hright
  · have hk := lt_slices_of_lineDue hgeometry hdue
    rw [(scanLine_first_eye k hsize e).1, (turnSlice_stale ..).2.1, staleAt_comeTo_atTurn hgeometry hbands hk]
  · have hk := lt_slices_of_lineDue hgeometry hdue
    have hband : (scanLine (k * s.store.geometry.S) s).store.band e k =
        (turnSlice e k (atTurn e k s)).store.band e k := by
      have hturned := ((atTurn_view e k s).trans (turnSlice_view e k _)).geometry
      unfold SliceStore.band
      simp only [(scanLine_first_eye k hsize e).2.1, hview.geometry, hturned]
    rw [hband, (turnSlice_stale ..).2.2, staleAt_comeTo_atTurn hgeometry hbands hk, atTurn_band]
  · subst hzero
    rw [scanLine_first 0 hsize]
    obtain ⟨hbuffers, hlane, hslots⟩ := turnSlice_of_lt_two .left (by decide : 0 < 2) s
    obtain ⟨hbuffers', hlane', hslots'⟩ := turnSlice_of_lt_two .right (by decide : 0 < 2) (atTurn .right 0 s)
    exact ⟨hbuffers'.trans hbuffers, hlane'.trans hlane, hslots'.trans hslots⟩

/-- Settles O37: the late shift of matched and unmatched slices, and the counters. -/
theorem reachedSliceTakesItsLateShift : Obligations.ReachedSliceTakesItsLateShift :=
  ⟨matchedSliceTakesItsLateShift, unmatchedSliceTakesTheLensTermAlone, recordsAreCountedInBothEyes,
    reachedSliceCountsStaleAndLateShows⟩

end Sys2Proof.Machine
end

