-- ==== Sys2Proof/Proofs/Openings.lean ====
section
/-! PROOF. What a row of openings, of slices of both eyes, leaves of the buffers, the horizons and CREDIT (R110, R111,
R121): a relation that each opening carries one slice further. O38 rests on it. -/

namespace Sys2Proof.Machine

/-! ### CREDIT after one recomputation -/

theorem creditFollows_congr {s t t' : State} (hlane : t'.laneRx = t.laneRx) (hslots : t'.slots = t.slots)
    (hstraps : t'.straps = t.straps) (h : Stated.creditFollows s t) : Stated.creditFollows s t' := by
  have hcontent : Stated.creditContent t' = Stated.creditContent t := by
    unfold Stated.creditContent
    rw [hlane, hstraps]
  unfold Stated.creditFollows Stated.creditCalled at h ⊢
  rw [hlane, hslots, hcontent]
  exact h

/-! ### Openings -/

theorem eq_other_of_ne {e e' : Eye} (h : e' ≠ e) : e' = Eye.other e := by
  cases e with
  | left =>
    cases e' with
    | left => exact absurd rfl h
    | right => rfl
  | right =>
    cases e' with
    | left => rfl
    | right => exact absurd rfl h

/-- A buffer belongs to one of the slices given. -/
def touched (s : State) (done : List (Eye × Nat)) (b : Fin 256) : Prop :=
  ∃ p ∈ done, s.store.bufferOf p.1 p.2 = some b

/-- One of the slices given has a FULL buffer. -/
def anyFull (s : State) (done : List (Eye × Nat)) : Prop := ∃ p ∈ done, Stated.fullAt s p.1 p.2 = true

/-- What the openings of the slices given, one after another, leave of the state `s` (R110, R111, R121). -/
structure OpeningsDone (s : State) (done : List (Eye × Nat)) (t : State) : Prop where
  store : KeepsStore s t
  opened : ∀ b : Fin 256, touched s done b → t.store.buffers[b] = openedRecord s.store.buffers[b]
  kept : ∀ b : Fin 256, ¬ touched s done b → t.store.buffers[b] = s.store.buffers[b]
  loader : t.loader = s.loader
  spine : t.spine = s.spine
  straps : t.straps = s.straps
  accepted : ∀ e, (t.laneRx.eyes.get e).accepted = (s.laneRx.eyes.get e).accepted
  idle : ¬ anyFull s done → t.slots = s.slots ∧ t.laneRx = s.laneRx
  loaded : anyFull s done → s.loadRefused = false →
    ∀ e, (t.laneRx.eyes.get e).lastLoaded = some (t.laneRx.eyes.get e).horizon
  credit : anyFull s done →
    (∀ p ∈ done, ∀ q ∈ done, Stated.fullAt s p.1 p.2 = true → Stated.fullAt s q.1 q.2 = true → p = q) →
    Stated.creditFollows s t
  run : geometryOk s → bandsOk s → (∀ p ∈ done, p.2 < s.store.geometry.slices) →
    ∀ e, (∃ j, (e, j) ∈ done ∧ Stated.fullAt s e j = true) →
      horizonIsRun t.store e (t.laneRx.eyes.get e)
  still : ∀ e, (∀ j, (e, j) ∈ done → Stated.fullAt s e j = false) →
    (t.laneRx.eyes.get e).horizon = (s.laneRx.eyes.get e).horizon

theorem OpeningsDone.refl (s : State) : OpeningsDone s [] s where
  store := .refl s
  opened _ h := absurd h fun ⟨_, hp, _⟩ => nomatch hp
  kept _ _ := rfl
  loader := rfl
  spine := rfl
  straps := rfl
  accepted _ := rfl
  idle _ := ⟨rfl, rfl⟩
  loaded h := absurd h fun ⟨_, hp, _⟩ => nomatch hp
  credit h := absurd h fun ⟨_, hp, _⟩ => nomatch hp
  run _ _ _ _ h := absurd h fun ⟨_, hp, _⟩ => nomatch hp
  still _ _ := rfl

section

variable {s t : State} {done : List (Eye × Nat)}

/-- What touches neither the buffers nor the receiver. -/
theorem OpeningsDone.of_eq {t' : State} (h : OpeningsDone s done t) (hstore : KeepsStore t t')
    (hbuffers : t'.store.buffers = t.store.buffers) (hlane : t'.laneRx = t.laneRx) (hslots : t'.slots = t.slots)
    (hloader : t'.loader = t.loader) (hspine : t'.spine = t.spine) (hstraps : t'.straps = t.straps) :
    OpeningsDone s done t' where
  store := StoreKept.trans h.store hstore
  opened b hb := by rw [hbuffers]; exact h.opened b hb
  kept b hb := by rw [hbuffers]; exact h.kept b hb
  loader := hloader.trans h.loader
  spine := hspine.trans h.spine
  straps := hstraps.trans h.straps
  accepted e := by rw [hlane]; exact h.accepted e
  idle hnone := by rw [hlane, hslots]; exact h.idle hnone
  loaded hfull hload := by rw [hlane]; exact h.loaded hfull hload
  credit hfull hsingle := creditFollows_congr hlane hslots hstraps (h.credit hfull hsingle)
  run hgeometry hbands hrange e hopened := by
    have hgood : Stated.geometryGood t.store.geometry := by
      rw [StoreKept.geometry h.store]
      exact hgeometry
    refine horizonIsRun_of_kept hgood hstore (fun _ b _ _ => by rw [hbuffers]) ?_ ?_
      (h.run hgeometry hbands hrange e hopened)
    · rw [hlane]
    · rw [hlane]
  still e hopen := by rw [hlane]; exact h.still e hopen

theorem OpeningsDone.bufferOf (h : OpeningsDone s done t) (e : Eye) (j : Nat) :
    t.store.bufferOf e j = s.store.bufferOf e j := StoreKept.bufferOf h.store e j

/-- A slice still FULL has been FULL, and none of the openings had its buffer. -/
theorem OpeningsDone.full_before (h : OpeningsDone s done t) {e : Eye} {j : Nat} (hfull : Stated.fullAt t e j = true) :
    Stated.fullAt s e j = true ∧ ∀ b, s.store.bufferOf e j = some b → ¬ touched s done b := by
  obtain ⟨b, hb, hfull⟩ := fullAt_eq_true_iff.mp hfull
  rw [h.bufferOf] at hb
  have hnot : ¬ touched s done b := fun htouched => by
    rw [h.opened b htouched] at hfull
    nomatch hfull
  rw [h.kept b hnot] at hfull
  exact ⟨fullAt_eq_true_iff.mpr ⟨b, hb, hfull⟩, fun c hc => by rwa [← Option.some.inj (hb.symm.trans hc)]⟩

/-- A slice no longer FULL shares its buffer with one of the openings. -/
theorem OpeningsDone.opened_before (h : OpeningsDone s done t) {e : Eye} {j : Nat}
    (hopen : Stated.fullAt t e j = false) (hfull : Stated.fullAt s e j = true) :
    ∃ b, s.store.bufferOf e j = some b ∧ ∃ p ∈ done, s.store.bufferOf p.1 p.2 = some b ∧
      Stated.fullAt s p.1 p.2 = true := by
  obtain ⟨b, hb, hbfull⟩ := fullAt_eq_true_iff.mp hfull
  have htouched : touched s done b := by
    by_contra hnot
    rw [Stated.fullAt, h.bufferOf, hb] at hopen
    dsimp only at hopen
    rw [h.kept b hnot, hbfull] at hopen
    nomatch hopen
  obtain ⟨p, hp, hpb⟩ := htouched
  exact ⟨b, hb, p, hp, hpb, fullAt_eq_true_iff.mpr ⟨b, hpb, hbfull⟩⟩

/-- R116, R117: a slice that is not among the openings stays as it is, where the bands lie apart. -/
theorem OpeningsDone.fullAt_eq (h : OpeningsDone s done t) (hgeometry : geometryOk s) (hbands : bandsOk s)
    (hrange : ∀ p ∈ done, p.2 < s.store.geometry.slices) {e : Eye} {j : Nat} (hj : j < s.store.geometry.slices)
    (hnew : (e, j) ∉ done) : Stated.fullAt t e j = Stated.fullAt s e j := by
  cases ht : Stated.fullAt t e j with
  | true => exact (h.full_before ht).1.symm
  | false =>
    cases hs : Stated.fullAt s e j with
    | false => rfl
    | true =>
      obtain ⟨b, hb, p, hp, hpb, -⟩ := h.opened_before ht hs
      obtain ⟨he, hj⟩ := bufferOf_injective hgeometry hbands (hrange p hp) hj hpb hb
      exact absurd (by rw [← he, ← hj]; exact hp) hnew

theorem touched_append {e : Eye} {j : Nat} {b : Fin 256} :
    touched s (done ++ [(e, j)]) b ↔ touched s done b ∨ s.store.bufferOf e j = some b := by
  simp only [touched, List.mem_append, List.mem_singleton, or_and_right, exists_or, exists_eq_left]

theorem anyFull_append {e : Eye} {j : Nat} :
    anyFull s (done ++ [(e, j)]) ↔ anyFull s done ∨ Stated.fullAt s e j = true := by
  simp only [anyFull, List.mem_append, List.mem_singleton, or_and_right, exists_or, exists_eq_left]

/-- R121: one more slice, found OPEN. -/
theorem OpeningsDone.step_open (h : OpeningsDone s done t) {e : Eye} {j : Nat} (hopen : Stated.fullAt t e j = false) :
    OpeningsDone s (done ++ [(e, j)]) t := by
  have hsame {b : Fin 256} (hnot : ¬ touched s done b) (hb : s.store.bufferOf e j = some b) :
      s.store.buffers[b].full = false := by
    rw [Stated.fullAt, h.bufferOf, hb] at hopen
    dsimp only at hopen
    rwa [h.kept b hnot] at hopen
  have hany : anyFull s (done ++ [(e, j)]) → anyFull s done := fun hfull => by
    obtain hdone | hnew := anyFull_append.mp hfull
    · exact hdone
    · obtain ⟨-, -, p, hp, -, hpfull⟩ := h.opened_before hopen hnew
      exact ⟨p, hp, hpfull⟩
  refine ⟨h.store, fun b hb => ?_, fun b hb => ?_, h.loader, h.spine, h.straps, h.accepted, fun hnone => ?_,
    fun hfull => h.loaded (hany hfull), fun hfull hsingle => ?_, fun hgeometry hbands hrange e' hopened => ?_,
    fun e' hstill => ?_⟩
  · by_cases hdone : touched s done b
    · exact h.opened b hdone
    · rw [h.kept b hdone, openedRecord_of_open (hsame hdone ((touched_append.mp hb).resolve_left hdone))]
  · exact h.kept b fun hdone => hb (touched_append.mpr (.inl hdone))
  · exact h.idle fun hfull => hnone (anyFull_append.mpr (.inl hfull))
  · exact h.credit (hany hfull) fun p hp q hq =>
      hsingle p (List.mem_append_left _ hp) q (List.mem_append_left _ hq)
  · have hrange' : ∀ p ∈ done, p.2 < s.store.geometry.slices := fun p hp => hrange p (List.mem_append_left _ hp)
    refine h.run hgeometry hbands hrange' e' ?_
    obtain ⟨j', hj', hfull⟩ := hopened
    obtain hdone | hnew := List.mem_append.mp hj'
    · exact ⟨j', hdone, hfull⟩
    · obtain ⟨rfl, rfl⟩ := Prod.mk.inj (List.mem_singleton.mp hnew)
      obtain ⟨b, hb, p, hp, hpb, hpfull⟩ := h.opened_before hopen hfull
      obtain ⟨he, -⟩ := bufferOf_injective hgeometry hbands (hrange' p hp)
        (hrange _ (List.mem_append_right _ (List.mem_singleton_self _))) hpb hb
      exact ⟨p.2, by rw [← he]; exact hp, by rw [← he]; exact hpfull⟩
  · exact h.still e' fun j' hj' => hstill j' (List.mem_append_left _ hj')

/-- R110, R111, R121: one more slice, opened. -/
theorem OpeningsDone.step_full (h : OpeningsDone s done t) {e : Eye} {j : Nat} {c : Fin 256}
    (hbuffer : t.store.bufferOf e j = some c) (hfull : t.store.buffers[c].full = true) :
    OpeningsDone s (done ++ [(e, j)]) (recomputeHorizon e (t.updStore (·.openBuffer c))) := by
  obtain ⟨u, hu⟩ : ∃ u, u = t.updStore (·.openBuffer c) := ⟨_, rfl⟩
  have hsc : s.store.bufferOf e j = some c := (h.bufferOf e j).symm.trans hbuffer
  obtain ⟨hnowFull, hfresh⟩ := h.full_before (fullAt_eq_true_iff.mpr ⟨c, hbuffer, hfull⟩)
  have hnot : ¬ touched s done c := hfresh c hsc
  have hkeeps : KeepsStore t u := by rw [hu]; exact openBuffer_kept t.store c
  have hubuffers (b : Fin 256) : u.store.buffers[b] =
      if b = c then openedRecord t.store.buffers[c] else t.store.buffers[b] := by
    obtain ⟨cut, hopen⟩ := openBuffer_of_full hfull
    rw [hu, updStore_store, hopen]
    exact getElem_putAt ..
  have hulane : u.laneRx = t.laneRx := by rw [hu]; rfl
  obtain ⟨haccepted, -, hother⟩ := recomputeHorizon_positions e u
  have hstore : (recomputeHorizon e u).store = u.store := by simp
  rw [← hu]
  refine ⟨?_, fun b hb => ?_, fun b hb => ?_, ?_, ?_, ?_, fun e' => ?_, fun hnone => ?_, fun _ hload => ?_,
    fun _ hsingle => ?_, fun hgeometry hbands hrange e' hopened => ?_, fun e' hstill => ?_⟩
  · exact (StoreKept.trans h.store hkeeps).trans (recomputeHorizon_keeps e (.refl u))
  · rw [hstore, hubuffers]
    by_cases hbc : b = c
    · rw [if_pos hbc, hbc, h.kept c hnot]
    · have hdone : touched s done b :=
        (touched_append.mp hb).resolve_right fun hb' => hbc (Option.some.inj (hb'.symm.trans hsc))
      rw [if_neg hbc, h.opened b hdone]
  · have hbc : b ≠ c := fun hbc => hb (touched_append.mpr (.inr (by rw [hbc]; exact hsc)))
    rw [hstore, hubuffers, if_neg hbc]
    exact h.kept b fun hdone => hb (touched_append.mpr (.inl hdone))
  · rw [hu]
    simpa using h.loader
  · rw [hu]
    simpa using h.spine
  · rw [hu]
    simpa using h.straps
  · rw [haccepted, hulane]
    exact h.accepted e'
  · exact absurd (anyFull_append.mpr (.inr hnowFull)) hnone
  · refine recomputeHorizon_lastLoaded e ?_
    rw [hu]
    simpa [State.loadRefused, h.loader, h.spine] using hload
  · have hidle : ¬ anyFull s done := fun ⟨p, hp, hpfull⟩ => by
      have hp' := hsingle p (List.mem_append_left _ hp) (e, j) (List.mem_append_right _ (List.mem_singleton_self _))
        hpfull hnowFull
      rw [hp'] at hp
      exact hnot ⟨(e, j), hp, hsc⟩
    obtain ⟨hslots, hlane⟩ := h.idle hidle
    have huslots : u.slots = t.slots := by rw [hu]; rfl
    exact creditFollows_recomputeHorizon e (by rw [huslots, hslots]) (by rw [hulane, hlane])
      (fun e' => by rw [hulane, hlane]) (by rw [hu]; exact congrArg Loader.life h.loader)
      (by rw [hu]; exact congrArg (·.standing) h.spine)
  · have hgood : Stated.geometryGood t.store.geometry := by
      rw [StoreKept.geometry h.store]
      exact hgeometry
    by_cases he : e' = e
    · rw [he]
      have hslices := (slices_eq hgood).2.2
      refine recomputeHorizon_run e ?_
      rw [StoreKept.geometry hkeeps]
      omega
    · have hrange' : ∀ p ∈ done, p.2 < s.store.geometry.slices := fun p hp => hrange p (List.mem_append_left _ hp)
      have hbefore := h.run hgeometry hbands hrange' e' <| by
        obtain ⟨j', hj', hfull'⟩ := hopened
        obtain hdone | hnew := List.mem_append.mp hj'
        · exact ⟨j', hdone, hfull'⟩
        · exact absurd (Prod.mk.inj (List.mem_singleton.mp hnew)).1 he
      have hlast : e' = Eye.other e := eq_other_of_ne he
      rw [hstore]
      refine horizonIsRun_of_kept hgood hkeeps (fun i b hi hb => ?_) ?_ ?_ hbefore
      · rw [hubuffers, if_neg fun hbc => he ?_]
        rw [StoreKept.geometry h.store] at hi
        rw [h.bufferOf, hbc] at hb
        exact (bufferOf_injective hgeometry hbands hi
          (hrange _ (List.mem_append_right _ (List.mem_singleton_self _))) hb hsc).1
      · rw [haccepted, hulane]
      · rw [hlast, hother, hulane]
  · have hlast : e' = Eye.other e := by
      refine eq_other_of_ne fun he => ?_
      have hopen := hstill j (by rw [he]; exact List.mem_append_right _ (List.mem_singleton_self _))
      rw [he, hnowFull] at hopen
      nomatch hopen
    have hbefore := h.still e' fun j' hj' => hstill j' (List.mem_append_left _ hj')
    rw [hlast] at hbefore ⊢
    rw [hother, hulane, hbefore]

/-- R110, R111, R121: one more slice. -/
theorem OpeningsDone.openSlice (h : OpeningsDone s done t) (e : Eye) (j : Nat) :
    OpeningsDone s (done ++ [(e, j)]) (openSlice e j t) := by
  cases hfull : Stated.fullAt t e j with
  | false =>
    rw [openSlice_of_open hfull]
    exact h.step_open hfull
  | true =>
    obtain ⟨c, hc, hcfull⟩ := fullAt_eq_true_iff.mp hfull
    rw [openSlice_of_full hc hcfull]
    exact h.step_full hc hcfull

theorem OpeningsDone.openBehind (h : OpeningsDone s done t) (e : Eye) (j : Nat) :
    OpeningsDone s (done ++ [(e, j)]) (openBehind e j t) := by
  rw [openBehind_eq]
  exact (h.of_eq (t' := overtakenCounted e j t) (.refl _) rfl rfl rfl rfl rfl rfl).openSlice e j

end

end Sys2Proof.Machine
end

