-- ==== Sys2Proof/Proofs/ScanOpenings.lean ====
section
/-! PROOF. What the scan opens behind it and at its end (R121, R131, R133). O38 rests on it. -/

namespace Sys2Proof.Machine

/-- R110, R111, R121: what a row of openings leaves, as the documents say it. -/
theorem OpeningsDone.follow {s t : State} {done : List (Eye × Nat)} (h : OpeningsDone s done t) {opened : Eye → Bool}
    (hopened : ∀ e, opened e = true ↔ ∃ j, (e, j) ∈ done ∧ Stated.fullAt s e j = true)
    (hrange : geometryOk s → ∀ p ∈ done, p.2 < s.store.geometry.slices) : Stated.openingsFollow s opened t := by
  have hany : anyFull s done ↔ opened .left = true ∨ opened .right = true := by
    rw [hopened, hopened]
    constructor
    · rintro ⟨⟨e, j⟩, hp, hfull⟩
      cases e with
      | left => exact .inl ⟨j, hp, hfull⟩
      | right => exact .inr ⟨j, hp, hfull⟩
    · rintro (⟨j, hp, hfull⟩ | ⟨j, hp, hfull⟩)
      · exact ⟨_, hp, hfull⟩
      · exact ⟨_, hp, hfull⟩
  refine ⟨fun hleft hright => h.idle fun hfull => ?_, fun hgeometry hbands e => ⟨fun he => ?_, fun he => ?_⟩,
    fun hsome hlife hcut => h.loaded (hany.mpr hsome) ((loadRefused_eq_false_iff s).mpr ⟨hlife, hcut⟩), h.accepted⟩
  · obtain hl | hr := hany.mp hfull
    · rw [hleft] at hl
      nomatch hl
    · rw [hright] at hr
      nomatch hr
  · exact h.run hgeometry hbands (hrange hgeometry) e ((hopened e).mp he)
  · refine h.still e fun j hj => Bool.eq_false_of_not_eq_true fun hfull => ?_
    rw [(hopened e).mpr ⟨j, hj, hfull⟩] at he
    nomatch he

/-! ### The openings of a line -/

section

variable {s t : State} {done : List (Eye × Nat)}

/-- What changes nothing of the slice store and the receiver. -/
theorem OpeningsDone.of_store_eq {t' : State} (h : OpeningsDone s done t) (hstore : t'.store = t.store)
    (hlane : t'.laneRx = t.laneRx) (hslots : t'.slots = t.slots) (hloader : t'.loader = t.loader)
    (hspine : t'.spine = t.spine) (hstraps : t'.straps = t.straps) : OpeningsDone s done t' :=
  h.of_eq (by rw [KeepsStore, hstore]; exact .refl _) (by rw [hstore]) hlane hslots hloader hspine hstraps

theorem OpeningsDone.turnSlice (h : OpeningsDone s done t) (e : Eye) {k : Nat} (hk : 2 ≤ k) :
    OpeningsDone s (done ++ [(e, k - 2)]) (turnSlice e k t) := by
  have hopened := (h.of_eq (t' := overtakenCounted e (k - 2) t) (.refl _) rfl rfl rfl rfl rfl rfl).openSlice e (k - 2)
  have hcome : OpeningsDone s (done ++ [(e, k - 2)]) (comeTo e k t) := by
    rw [comeTo_of_two_le hk]
    exact hopened.of_store_eq rfl rfl rfl rfl rfl rfl
  rw [turnSlice_eq]
  exact hcome.of_eq (reachSlice_keeps e k (.refl _)).store
    ((congrArg (·.store.buffers) (reachSlice_eq ..)).trans (reachedStore_buffers ..)) (by simp) (by simp) (by simp)
    (by simp) (by simp)

theorem OpeningsDone.formLine (h : OpeningsDone s done t) (e : Eye) (y : Nat) :
    OpeningsDone s done (formLine e y t) :=
  h.of_store_eq rfl rfl rfl rfl rfl rfl

end

/-- R131, R133: the first line of slice `k` opens slice `k` − 2 of the left eye and then of the right one. -/
theorem openingsDone_atTurn {s : State} {k : Nat} (hk : 2 ≤ k) :
    OpeningsDone s [(.left, k - 2)] (atTurn .right k s) :=
  ((OpeningsDone.refl s).turnSlice .left hk).formLine .left _

theorem openingsDone_scanLine {s : State} {k : Nat} (hk : 2 ≤ k) (hsize : 0 < s.store.geometry.S) :
    OpeningsDone s [(.left, k - 2), (.right, k - 2)] (scanLine (k * s.store.geometry.S) s) := by
  rw [scanLine_first k hsize]
  have hturned := ((openingsDone_atTurn (s := s) hk).turnSlice .right hk).formLine .right (k * s.store.geometry.S)
  exact hturned.of_store_eq rfl rfl rfl rfl rfl rfl

/-! ### The marks -/

theorem turnSlice_scanning (e : Eye) (k : Nat) (s : State) :
    (turnSlice e k s).scan.scanning = s.scan.scanning := by
  rw [turnSlice_eq, reachSlice_eq, reachedScan, comeTo_scan]

/-- R133: the marks of an eye that turns to a slice. -/
theorem turnSlice_marks (e : Eye) {k : Nat} (hk : k ≠ 0) (s : State) :
    ((turnSlice e k s).scan.eyes.get e).staleBehind = (s.scan.eyes.get e).staleCurrent ∧
      (turnSlice e k s).scan.overtaken =
        if decide (2 ≤ k) && ((s.scan.eyes.get e).staleBehind && Stated.fullAt s e (k - 2)) then
          bump s.scan.overtaken
        else s.scan.overtaken := by
  rw [turnSlice_eq, reachSlice_eq, reachedScan, comeTo_scan]
  dsimp only
  constructor
  · rw [both_get_put, if_pos rfl, both_get_put, if_pos rfl, if_neg hk]
  · rfl

theorem atTurn_eye (e : Eye) (k : Nat) (s : State) : (atTurn e k s).scan.eyes.get e = s.scan.eyes.get e := by
  cases e with
  | left => rfl
  | right => exact (turnSlice_other .left k s).1

theorem scanLine_first_marks {s : State} {k : Nat} (hk : k ≠ 0) (hsize : 0 < s.store.geometry.S) (e : Eye) :
    ((scanLine (k * s.store.geometry.S) s).scan.eyes.get e).staleBehind = (s.scan.eyes.get e).staleCurrent := by
  rw [(scanLine_first_eye k hsize e).1, (turnSlice_marks e hk _).1, atTurn_eye]

/-- R133: the overtakings that a line counts. -/
theorem scanLine_first_overtaken {s : State} {k : Nat} (hk : k ≠ 0) (hsize : 0 < s.store.geometry.S) :
    (scanLine (k * s.store.geometry.S) s).scan.overtaken = Stated.raised s.scan.overtaken fun e =>
      decide (2 ≤ k) && ((s.scan.eyes.get e).staleBehind && Stated.fullAt (atTurn e k s) e (k - 2)) := by
  have hleft := (turnSlice_marks .left hk s).2
  have hright := (turnSlice_marks .right hk (atTurn .right k s)).2
  rw [atTurn_eye, show (atTurn .right k s).scan = (turnSlice .left k s).scan from rfl, hleft] at hright
  rw [raised_eq, scanLine_first k hsize]
  exact hright

theorem raised_ite (c : Counter) (p : Eye → Bool) :
    Stated.raised c p = BitVec.ofNat 16
      (min (c.toNat + (if p .left then 1 else 0) + (if p .right then 1 else 0)) 65535) := by
  unfold Stated.raised
  cases p .left <;> cases p .right <;> rfl

theorem leavingASliceOpensTheOneBehind : Stated.LeavingASliceOpensTheOneBehind := by
  intro s k hk hdue opened overtaken
  have ⟨hscanning, _, _, _, _, hsize⟩ := hdue
  have hdone := openingsDone_scanLine hk hsize
  have hview := scanLine_first_view k hsize
  have htouched (b : Fin 256) : touched s [(.left, k - 2), (.right, k - 2)] b ↔
      s.store.bufferOf .left (k - 2) = some b ∨ s.store.bufferOf .right (k - 2) = some b := by
    simp [touched]
  have hrange (hgeometry : geometryOk s) (p : Eye × Nat) (hp : p ∈ [(Eye.left, k - 2), (Eye.right, k - 2)]) :
      p.2 < s.store.geometry.slices := by
    have hlt := lt_slices_of_lineDue hgeometry hdue
    have hp2 : p.2 = k - 2 := by
      simp only [List.mem_cons, List.not_mem_nil, or_false] at hp
      obtain rfl | rfl := hp <;> rfl
    omega
  refine ⟨_, exec_scanLine hdue, fun b => ⟨fun hb => hdone.opened b ((htouched b).mpr hb), fun hl hr =>
    hdone.kept b fun hb => ((htouched b).mp hb).elim hl hr⟩, hdone.follow (fun e => ?_) hrange, fun hne =>
    hdone.credit ?_ fun p hp q hq hpfull hqfull => ?_, fun hgeometry hbands => ?_, scanLine_first_marks
    (by omega) hsize, hview.mem, scanLine_current k hsize, ?_, hview.motion, hview.dials, hview.power, by simp, by simp⟩
  · cases e <;> simp [opened]
  · cases hleft : opened .left with
    | true => exact ⟨(.left, k - 2), by simp, hleft⟩
    | false => exact ⟨(.right, k - 2), by simp, Bool.eq_true_of_not_eq_false fun hr => hne (hleft.trans hr.symm)⟩
  · simp only [List.mem_cons, List.not_mem_nil, or_false] at hp hq
    obtain rfl | rfl := hp <;> obtain rfl | rfl := hq
    · rfl
    · exact absurd (hpfull.trans hqfull.symm) hne
    · exact absurd (hqfull.trans hpfull.symm) hne
    · rfl
  · have hright : Stated.fullAt (atTurn .right k s) .right (k - 2) = Stated.fullAt s .right (k - 2) := by
      have hlt := hrange hgeometry (.left, k - 2) (by simp)
      refine (openingsDone_atTurn hk).fullAt_eq hgeometry hbands (fun p hp => ?_) hlt (by simp)
      rw [List.mem_singleton.mp hp]
      exact hlt
    rw [scanLine_first_overtaken (by omega) hsize, raised_ite, decide_eq_true hk, hright]
    simp only [Bool.true_and]
    rfl
  · rw [scanLine_first k hsize]
    change (turnSlice .right k (atTurn .right k s)).scan.scanning = true
    rw [turnSlice_scanning]
    exact (turnSlice_scanning .left k s).trans hscanning

theorem leavingSliceZeroOpensNothing : Stated.LeavingSliceZeroOpensNothing := by
  intro s hdue
  have ⟨_, _, _, _, _, hsize⟩ := hdue
  have hone : 1 * s.store.geometry.S = s.store.geometry.S := Nat.one_mul _
  obtain ⟨hbuffers, hlane, hslots⟩ := turnSlice_of_lt_two .left (by decide : 1 < 2) s
  obtain ⟨hbuffers', hlane', hslots'⟩ := turnSlice_of_lt_two .right (by decide : 1 < 2) (atTurn .right 1 s)
  have hfirst := scanLine_first (s := s) 1 hsize
  have hovertaken := scanLine_first_overtaken (s := s) (k := 1) (by decide) hsize
  have hmarks := scanLine_first_marks (s := s) (k := 1) (by decide) hsize
  rw [raised_eq] at hovertaken
  rw [hone] at hfirst hovertaken hmarks
  refine ⟨_, exec_scanLine hdue, ?_, ?_, ?_, hovertaken, ?_, hmarks⟩
  all_goals rw [hfirst]
  · exact hbuffers'.trans hbuffers
  · exact hlane'.trans hlane
  · exact hslots'.trans hslots
  · rfl

/-! ### The end of a scan -/

theorem openBehind_scan (e : Eye) (j : Nat) (s : State) :
    (openBehind e j s).scan =
      { s.scan with
        overtaken :=
          if (s.scan.eyes.get e).staleBehind && Stated.fullAt s e j then bump s.scan.overtaken
          else s.scan.overtaken } := by
  rw [openBehind_eq, (by simp : (openSlice e j (overtakenCounted e j s)).scan = (overtakenCounted e j s).scan)]
  rfl

theorem openBehind_mem (e : Eye) (j : Nat) (s : State) : (openBehind e j s).store.mem = s.store.mem := by
  obtain ⟨buffers, cut, hstore, -⟩ := openSlice_store e j (overtakenCounted e j s)
  rw [openBehind_eq, hstore]
  rfl

/-- R131, R133: an eye at the end of a scan, with slice N − 2 opened and the mark taken over. -/
def lastLeft (e : Eye) (n : Nat) (s : State) : State := takeOverMark e (openBehind e (n - 2) s)

theorem endEye_eq (e : Eye) (s : State) :
    endEye e s =
      (openBehind e (s.store.geometry.slices - 1) (lastLeft e s.store.geometry.slices s)).updScanEye e fun _ =>
        { shift := none, staleCurrent := false, staleBehind := false } := rfl

theorem OpeningsDone.lastLeft {s t : State} {done : List (Eye × Nat)} (h : OpeningsDone s done t) (e : Eye) (n : Nat) :
    OpeningsDone s (done ++ [(e, n - 2)]) (lastLeft e n t) :=
  (h.openBehind e (n - 2)).of_store_eq rfl rfl rfl rfl rfl rfl

theorem OpeningsDone.updScan {s t : State} {done : List (Eye × Nat)} (h : OpeningsDone s done t) (f : Scan → Scan) :
    OpeningsDone s done (t.updScan f) :=
  h.of_store_eq rfl rfl rfl rfl rfl rfl

theorem scanEnd_eq (s : State) :
    scanEnd s = (endEye .right (endEye .left s)).updScan fun c => { c with scanning := false, current := none } := rfl

/-- The openings at the end of a scan. -/
def lastSlices (n : Nat) : List (Eye × Nat) := [(.left, n - 2), (.left, n - 1), (.right, n - 2), (.right, n - 1)]

theorem OpeningsDone.endEye {s t : State} {done : List (Eye × Nat)} (h : OpeningsDone s done t) (e : Eye) :
    OpeningsDone s (done ++ [(e, s.store.geometry.slices - 2), (e, s.store.geometry.slices - 1)]) (endEye e t) := by
  have hlast := (h.lastLeft e s.store.geometry.slices).openBehind e (s.store.geometry.slices - 1)
  rw [List.append_assoc] at hlast
  rw [endEye_eq, StoreKept.geometry h.store]
  exact hlast.of_store_eq rfl rfl rfl rfl rfl rfl

/-- R131, R133: the scan after an eye's end of scan. -/
theorem endEye_scan (e : Eye) (s : State) :
    let n := s.store.geometry.slices
    let first := if (s.scan.eyes.get e).staleBehind && Stated.fullAt s e (n - 2) then bump s.scan.overtaken
      else s.scan.overtaken
    (endEye e s).scan =
      { s.scan with
        overtaken :=
          if (s.scan.eyes.get e).staleCurrent && Stated.fullAt (lastLeft e n s) e (n - 1) then bump first else first
        eyes := s.scan.eyes.put e { shift := none, staleCurrent := false, staleBehind := false } } := by
  intro n first
  have hleft : (lastLeft e n s).scan =
      { s.scan with
        overtaken := first
        eyes := s.scan.eyes.put e
          { s.scan.eyes.get e with staleBehind := (s.scan.eyes.get e).staleCurrent } } := by
    rw [lastLeft, takeOverMark, State.updScanEye, updScan_scan, openBehind_scan]
  rw [endEye_eq, State.updScanEye, updScan_scan, openBehind_scan, hleft]
  cases e <;> rfl

theorem openingsDone_endEye (s : State) :
    OpeningsDone s [(.left, s.store.geometry.slices - 2), (.left, s.store.geometry.slices - 1)] (endEye .left s) :=
  (OpeningsDone.refl s).endEye .left

theorem openingsDone_scanEnd (s : State) : OpeningsDone s (lastSlices s.store.geometry.slices) (scanEnd s) := by
  rw [scanEnd_eq]
  exact ((openingsDone_endEye s).endEye .right).updScan _

theorem mem_lastSlices {n : Nat} {e : Eye} {j : Nat} : (e, j) ∈ lastSlices n ↔ j = n - 2 ∨ j = n - 1 := by
  cases e <;> simp [lastSlices]

theorem endEye_mem (e : Eye) (s : State) : (endEye e s).store.mem = s.store.mem := by
  rw [endEye_eq, (by simp : ∀ (u : State) f, (u.updScanEye e f).store = u.store), openBehind_mem, lastLeft,
    (by simp : ∀ u : State, (takeOverMark e u).store = u.store), openBehind_mem]

/-- R131: the scan unit after its end, but for the overtakings. -/
theorem scanEnd_scan (s : State) :
    ∃ overtaken, (scanEnd s).scan =
      { s.scan with
        scanning := false
        current := none
        overtaken := overtaken
        eyes := .same { shift := none, staleCurrent := false, staleBehind := false } } := by
  rw [scanEnd_eq, updScan_scan, endEye_scan, endEye_scan]
  exact ⟨_, rfl⟩

/-- R133: the overtakings at the end of a scan, where the bands lie apart. -/
theorem scanEnd_overtaken {s : State} (hgeometry : geometryOk s) (hbands : bandsOk s) :
    let n := s.store.geometry.slices
    let overtaken := fun e =>
      (if (s.scan.eyes.get e).staleBehind && Stated.fullAt s e (n - 2) then 1 else 0) +
        (if (s.scan.eyes.get e).staleCurrent && Stated.fullAt s e (n - 1) then 1 else 0)
    (scanEnd s).scan.overtaken =
      BitVec.ofNat 16 (min (s.scan.overtaken.toNat + overtaken .left + overtaken .right) 65535) := by
  intro n overtaken
  obtain ⟨hslices, hpos, -⟩ := slices_eq hgeometry
  have hn : n = 8 * s.store.geometry.bandSlices := hslices
  have hrange {done : List (Eye × Nat)} (hdone : ∀ p ∈ done, p.2 = n - 2 ∨ p.2 = n - 1) :
      ∀ p ∈ done, p.2 < s.store.geometry.slices := fun p hp => by
    obtain hp | hp := hdone p hp <;> omega
  have hleft := openingsDone_endEye s
  have hgeometry' : (endEye .left s).store.geometry.slices = n := by rw [StoreKept.geometry hleft.store]
  have hlastLeft : Stated.fullAt (lastLeft .left n s) .left (n - 1) = Stated.fullAt s .left (n - 1) :=
    ((OpeningsDone.refl s).lastLeft .left n).fullAt_eq hgeometry hbands (hrange (by simp)) (by omega)
      (by simp; omega)
  have hfirstRight : Stated.fullAt (endEye .left s) .right (n - 2) = Stated.fullAt s .right (n - 2) :=
    hleft.fullAt_eq hgeometry hbands (hrange (by simp [n])) (by omega) (by simp)
  have hlastRight : Stated.fullAt (lastLeft .right n (endEye .left s)) .right (n - 1) =
      Stated.fullAt s .right (n - 1) :=
    (hleft.lastLeft .right n).fullAt_eq hgeometry hbands (hrange (by simp [n])) (by omega) (by simp; omega)
  have hbumped (b b' : Bool) (c : Counter) :
      (if b' then bump (if b then bump c else c) else if b then bump c else c) =
        bumpBy c ((if b then 1 else 0) + if b' then 1 else 0) := by
    rw [← bumpBy_bumpBy, bump_eq_bumpBy, bump_eq_bumpBy]
    cases b <;> cases b' <;> simp [bumpBy_zero]
  rw [scanEnd_eq, updScan_scan, endEye_scan]
  dsimp only
  rw [hgeometry', hfirstRight, hlastRight, hbumped, endEye_scan]
  dsimp only
  rw [hlastLeft, hbumped, bumpBy_bumpBy, bumpBy, ← Nat.add_assoc]
  rfl

theorem scanEndOpensTheLastTwoSlices : Stated.ScanEndOpensTheLastTwoSlices := by
  intro s hscanning hformed hclock n overtaken
  have hover : s.scanOver = true := by simp [State.scanOver, hscanning, hformed, hclock]
  have hdone := openingsDone_scanEnd s
  obtain ⟨_, hscan⟩ := scanEnd_scan s
  refine ⟨_, congrArg Host.Outcome.next (if_pos hover), ?_, ?_, fun e => ?_, fun e b hb => ?_,
    hdone.follow (fun e => ?_) fun hgeometry p hp => ?_, scanEnd_overtaken, ?_, ?_, ?_, by simp, ?_, by simp, by simp⟩
  case refine_4 =>
    have htouched : touched s (lastSlices s.store.geometry.slices) b := by
      obtain hb | hb := hb
      · exact ⟨(e, _), mem_lastSlices.mpr (.inl rfl), hb⟩
      · exact ⟨(e, _), mem_lastSlices.mpr (.inr rfl), hb⟩
    rw [hdone.opened b htouched]
    rfl
  case refine_5 => simp [mem_lastSlices, or_and_right, exists_or, n]
  case refine_6 =>
    have hslices := slices_eq hgeometry
    obtain hj | hj := mem_lastSlices.mp (show (p.1, p.2) ∈ lastSlices _ from hp) <;> omega
  case refine_10 => rw [scanEnd_eq, updScan_store, endEye_mem, endEye_mem]
  case refine_3 =>
    rw [hscan]
    cases e <;> rfl
  all_goals rw [hscan]

theorem scanEndWaitsForItsTime : Stated.ScanEndWaitsForItsTime := by
  intro s hwaits
  have hnot : ¬ s.scanOver = true := by
    simp only [State.scanOver, Bool.and_eq_true, decide_eq_true_eq]
    rintro ⟨⟨hscanning, hformed⟩, hclock⟩
    obtain h | h | h := hwaits
    · rw [h] at hscanning
      nomatch hscanning
    · omega
    · omega
  exact congrArg Host.Outcome.next (if_neg hnot)

/-- Settles O38: the openings behind the scan and at its end. -/
theorem scanOpensTheSlicesBehindIt : Obligations.ScanOpensTheSlicesBehindIt :=
  ⟨leavingASliceOpensTheOneBehind, leavingSliceZeroOpensNothing, scanEndOpensTheLastTwoSlices, scanEndWaitsForItsTime⟩

end Sys2Proof.Machine
end

