-- ==== Sys2Proof/Proofs/PlaybackBlocks.lean ====
section
/-! PROOF. A playback block handed to the audio unit, and where it goes (R147 to R151). O39 rests on them. -/

namespace Sys2Proof.Machine

/-! ### The block of a message -/

theorem framesFrom_eq (body : List Byte) (n off : Nat) :
    framesFrom body n off = (List.range n).map fun k =>
      { left := BitVec.ofNat 16 (fieldAt body (off + 4 * k) 2)
        right := BitVec.ofNat 16 (fieldAt body (off + 2 + 4 * k) 2) } := by
  induction n generalizing off with
  | zero => rfl
  | succ n ih =>
    rw [framesFrom, ih, List.range_succ_eq_map, List.map_cons, List.map_map]
    congr 1
    refine List.map_congr_left fun k _ => ?_
    simp only [Function.comp_apply, Nat.succ_eq_add_one]
    congr 3 <;> omega

/-- R147: the block that a playback body carries. -/
def playbackBlock (m : Received) (stamp : Int) : AudioBlock where
  sequence := byteAt m.body 0
  stamp := stamp
  frames := Stated.frames m.body

theorem blockOf_eq {s : State} {m : Received} {stamp : Int} (h : Stated.rebuilt s m stamp) :
    blockOf m.body s.agreedUs = playbackBlock m stamp := by
  obtain ⟨hfield, hlow, hhigh⟩ := h
  have hlt : fieldAt m.body 1 4 < 2 ^ 32 := by omega
  have hstamp : rebuild (BitVec.ofNat 32 (fieldAt m.body 1 4)) s.agreedUs = stamp := by
    refine rebuild_eq ?_ hlow hhigh
    rw [hfield, BitVec.toNat_ofNat, Nat.mod_eq_of_lt hlt]
  have hframes : framesFrom m.body 8 5 = Stated.frames m.body := framesFrom_eq ..
  rw [blockOf, hstamp, hframes]
  rfl

/-- R14, R30, R147: a playback block received well is taken. -/
theorem exec_playback {s : State} {m : Received} {origin : Node} {stamp : Int} (h : Stated.playback s m origin)
    (hstamp : Stated.rebuilt s m stamp) :
    ∃ p k, exec (.messageTaken m) s =
      .next (takeBlock origin (playbackBlock m stamp) { s with spine := p, intake := k }) := by
  obtain ⟨hreceiving, hrole, hcheck, hrank, hother, hlength, hunit, hstanding⟩ := h
  have htoNat : m.rank.toNat = 4 * 256 + origin.val := by
    rw [hrank, BitVec.toNat_ofNat]
    omega
  have hforeign : m.rank.toNat % 8 ≠ s.straps.node.val := by
    rw [htoNat]
    exact fun heq => hother (Fin.ext (by omega))
  have hclass : rankClass m.rank = 4 := by unfold rankClass; omega
  have htopic : rankTopic m.rank = 0 := by unfold rankTopic; omega
  have horigin : rankOrigin m.rank = origin := (rankOrigin_eq_iff m.rank origin).mpr (by omega)
  obtain ⟨p, k, -, hexec⟩ := exec_messageTaken_of_unit (u := .audio) hreceiving hcheck (by omega) hforeign
    (by rw [unitFor, hclass, hrole, htopic]; rfl) hunit hstanding
  refine ⟨p, k, hexec.trans (congrArg Host.Outcome.next ?_)⟩
  change takeAudio m.rank m.body _ = _
  rw [takeAudio, if_pos hlength, horigin]
  exact congrArg (takeBlock origin · _) (blockOf_eq hstamp)

/-! ### Runs -/

theorem stampReached_iff (stamp : Int) (agreed : Nat) :
    stampReached stamp agreed = true ↔ 16 * stamp ≤ (agreed : Int) := decide_eq_true_iff

/-- R148, R149: a run started while the silence timer is not at its limit. -/
theorem runWith_eq_run {a : Audio} (b : AudioBlock) (agreed : Nat) (hsilence : a.silence = some 0) :
    a.runWith b agreed =
      Stated.run a (if 16 * b.stamp ≤ (agreed : Int) then .playing else .priming) b.sequence b.stamp b.frames := by
  have henter : (a.primed b).enterPlaying = { a.primed b with state := .playing } := by
    have hnot : ¬ (a.primed b).silence = some silenceLimit := by
      rw [show (a.primed b).silence = some 0 from hsilence]
      decide
    exact if_neg hnot
  rw [runWith_eq, henter]
  by_cases hreached : 16 * b.stamp ≤ (agreed : Int)
  · rw [if_pos ((stampReached_iff ..).mpr hreached), if_pos hreached]
    rfl
  · rw [if_neg (mt (stampReached_iff ..).mp hreached), if_neg hreached]
    rfl

theorem early_iff (b : AudioBlock) (agreed : Nat) :
    b.early agreed = true ↔ ((agreed / 16 : Nat) : Int) + 100000 < b.stamp := decide_eq_true_iff

theorem late_iff (b : AudioBlock) (agreed : Nat) :
    b.late agreed = true ↔ 48 * b.stamp + 7000 < 3 * (agreed : Int) := decide_eq_true_iff

/-- R148: a run started in an existing stream. -/
theorem restartRun_eq_rerun {a : Audio} (b : AudioBlock) (agreed : Nat) (hsilence : a.silence = some 0) :
    a.restartRun b agreed = Stated.rerun a agreed b.sequence b.stamp b.frames := by
  unfold Audio.restartRun Audio.startRun Stated.rerun
  rw [runWith_eq_run b agreed hsilence]
  exact if_congr (early_iff ..) rfl (if_congr (late_iff ..) rfl rfl)

/-! ### Blocks in IDLE and in UNDERRUN -/

theorem blockInIdleStartsARunOrIsDiscarded : Stated.BlockInIdleStartsARunOrIsDiscarded := by
  intro s m origin stamp hplayback hstamp hidle a early late
  obtain ⟨p, k, hexec⟩ := exec_playback hplayback hstamp
  let u : State := { s with spine := p, intake := k }
  have htake : takeBlock origin (playbackBlock m stamp) u =
      { u with audio := a.startFromIdle origin (playbackBlock m stamp) s.agreed } := if_pos hidle
  refine ⟨_, hexec.trans (congrArg Host.Outcome.next htake), fun hearly => ?_, fun hearly hlate => ?_,
    fun hearly hlate => ?_, rfl⟩
  all_goals
    change ({ a with origin := some origin, silence := some 0 : Audio }.startRun a (playbackBlock m stamp) s.agreed) = _
    unfold Audio.startRun
  · exact if_pos ((early_iff ..).mpr hearly)
  · rw [if_neg (mt (early_iff ..).mp hearly), if_pos ((late_iff ..).mpr hlate)]
  · rw [if_neg (mt (early_iff ..).mp hearly), if_neg (mt (late_iff ..).mp hlate), runWith_eq_run _ _ rfl]
    rfl

/-- R147: a block of the stream's origin. -/
theorem takeBlock_of_origin {s : State} {origin : Node} (b : AudioBlock) (hstate : s.audio.state ≠ .idle)
    (horigin : s.audio.origin = some origin) :
    takeBlock origin b s =
      streamBlock b { s with audio := { s.audio with taken := bump s.audio.taken, silence := some 0 } } :=
  (if_neg hstate).trans (if_pos horigin)

/-- R147: a block of another origin is foreign. -/
theorem takeBlock_of_foreign {s : State} {origin : Node} (b : AudioBlock) (hstate : s.audio.state ≠ .idle)
    (horigin : s.audio.origin ≠ some origin) :
    takeBlock origin b s =
      { s with audio := { s.audio with taken := bump s.audio.taken, foreign := bump s.audio.foreign } } :=
  (if_neg hstate).trans (if_neg horigin)

/-- R150: the distance of a block from the last sequence. -/
theorem distance_eq {a : Audio} {last : Byte} (h : a.lastSeq = some last) (b : AudioBlock) :
    a.distance b = (b.sequence - last).toNat := by
  rw [Audio.distance, h]
  rfl

theorem streamBlock_of_underrun {s : State} (b : AudioBlock) (h : s.audio.state = .underrun) :
    streamBlock b s = { s with audio := s.audio.fromUnderrun b s.agreed } := by
  rw [streamBlock, h]
  rfl

theorem blockInUnderrunStartsARunOrIsOld : Stated.BlockInUnderrunStartsARunOrIsOld := by
  intro s m origin stamp last hplayback hstamp hunderrun horigin hlast a d
  obtain ⟨p, k, hexec⟩ := exec_playback hplayback hstamp
  let u : State := { s with spine := p, intake := k }
  have htake : takeBlock origin (playbackBlock m stamp) u =
      { u with audio := a.fromUnderrun (playbackBlock m stamp) s.agreed } :=
    (takeBlock_of_origin (s := u) _ (by rw [show u.audio.state = .underrun from hunderrun]; nofun) horigin).trans
      (streamBlock_of_underrun (s := { u with audio := a }) _ hunderrun)
  refine ⟨_, hexec.trans (congrArg Host.Outcome.next htake), ?_, rfl⟩
  change a.fromUnderrun (playbackBlock m stamp) s.agreed = _
  rw [Audio.fromUnderrun, distance_eq (a := a) hlast, restartRun_eq_rerun (a := a) _ _ rfl]
  rfl

/-! ### The sequence rule -/

/-- R150: a block placed, by its distance. -/
theorem placeBlock_of_old {s : State} {b : AudioBlock} (h : s.audio.distance b = 0 ∨ 129 ≤ s.audio.distance b) :
    placeBlock b s = { s with audio := { s.audio.resume with old := bump s.audio.resume.old } } := if_pos h

theorem placeBlock_of_far {s : State} {b : AudioBlock} (h : 6 ≤ s.audio.distance b) (h' : s.audio.distance b ≤ 128) :
    placeBlock b s = { s with audio := s.audio.resync b s.agreed } := by
  unfold placeBlock
  dsimp only
  rw [if_neg (by omega), if_pos h]
  rfl

theorem placeBlock_of_room {s : State} {b : AudioBlock} (h : 1 ≤ s.audio.distance b) (h' : s.audio.distance b ≤ 5)
    (hroom : s.audio.hasRoom (s.audio.distance b) = true) :
    placeBlock b s = { s with audio := (s.audio.resume.fill (s.audio.distance b)).append b } := by
  unfold placeBlock
  dsimp only
  rw [if_neg (by omega), if_neg (by omega), if_pos hroom]
  rfl

theorem placeBlock_of_full {s : State} {b : AudioBlock} (h : 1 ≤ s.audio.distance b) (h' : s.audio.distance b ≤ 5)
    (hroom : ¬ s.audio.hasRoom (s.audio.distance b) = true) :
    placeBlock b s =
      latch .audio { s with audio := { s.audio.resume with overflows := bump s.audio.overflows } } := by
  unfold placeBlock
  dsimp only
  rw [if_neg (by omega), if_neg (by omega), if_neg hroom]
  rfl

/-- R150: a gap filled and a block appended. -/
theorem fill_append_eq (a : Audio) (d : Nat) (b : AudioBlock) :
    (a.fill d).append b =
      let fill := if d = 1 then 0 else (d - 1) * 8
      { a with
        ring := a.ring ++ List.replicate fill a.lastFrame ++ b.frames
        blocks := a.blocks ++ (if d = 1 then [] else [{ kind := .fill, remaining := fill, started := false }]) ++
          [{ kind := .block b.sequence b.stamp, remaining := 8, started := false }]
        gaps := if d = 1 then a.gaps else bump a.gaps
        lastSeq := some b.sequence
        lastFrame := b.frames.getLastD { left := 0, right := 0 } } := by
  unfold Audio.fill
  by_cases hd : d = 1
  · simp only [if_pos hd, List.replicate_zero, List.append_nil]
    rfl
  · simp only [if_neg hd]
    rfl

theorem hasRoom_iff (a : Audio) {d : Nat} :
    a.hasRoom d = true ↔
      a.ring.length + (if d = 1 then 0 else (d - 1) * 8) + 8 ≤ 1024 ∧
        a.blocks.length + (if d = 1 then 1 else 2) ≤ 128 := by
  have hfill : (if d = 1 then 0 else (d - 1) * 8) = (d - 1) * 8 := by
    split
    · next hd => rw [hd]
    · rfl
  rw [hfill, Audio.hasRoom, Bool.and_eq_true, decide_eq_true_eq, decide_eq_true_eq]

theorem resume_eq (a : Audio) :
    a.resume = { a with state := if a.state = .draining then .playing else a.state } := by
  unfold Audio.resume
  split <;> rfl

/-- R150: what the sequence rule makes of the stream. -/
theorem sequenceRulePlacesBlocks : Stated.SequenceRulePlacesBlocks := by
  intro s m origin stamp last hplayback hstamp hstate hlast a resumed late placed d frames fill room
  obtain ⟨p, k, hexec⟩ := exec_playback hplayback hstamp
  let b := playbackBlock m stamp
  let u : State := { s with spine := p, intake := k }
  let v : State := { u with audio := a }
  have hnotIdle : u.audio.state ≠ .idle := by
    intro hidle
    obtain h | h | h := hstate <;> exact absurd (h.symm.trans hidle) nofun
  have hdistance : v.audio.distance b = d := distance_eq (a := a) hlast b
  have hstream (horigin : s.audio.origin = some origin) : takeBlock origin b u = streamBlock b v :=
    takeBlock_of_origin (s := u) b hnotIdle horigin
  have hplaced (h : placed) : takeBlock origin b u = placeBlock b v := by
    obtain ⟨horigin, hlate⟩ := h
    rw [hstream horigin]
    unfold streamBlock
    obtain h | h | h := hstate
    · rw [show v.audio.state = .priming from h]
      exact if_neg fun hb => hlate ⟨h, (late_iff ..).mp hb⟩
    · rw [show v.audio.state = .playing from h]
    · rw [show v.audio.state = .draining from h]
  have hresume : a.resume = resumed := resume_eq a
  refine ⟨_, hexec, fun hforeign => ?_, fun horigin hlate => ?_, fun h hlow hhigh hroom => ?_,
    fun h hlow hhigh hroom => ?_, fun h hold => ?_, fun h hlow hhigh => ?_, by simp, by simp, by simp, by simp, by simp,
    by simp, by simp, by simp⟩
  · rw [show takeBlock origin b u = _ from takeBlock_of_foreign (s := u) b hnotIdle hforeign]
  · have hlate' : takeBlock origin b u = v.updAudio (·.countLate) := by
      rw [hstream horigin]
      unfold streamBlock
      rw [show v.audio.state = .priming from hlate.1]
      exact if_pos ((late_iff ..).mpr hlate.2)
    rw [show takeBlock origin b u = _ from hlate']
    rfl
  · rw [show takeBlock origin b u = _ from (hplaced h).trans (placeBlock_of_room (by omega) (by omega)
      (by rw [hdistance]; exact (hasRoom_iff a).mpr hroom)), hdistance]
    change (a.resume.fill d).append b = _
    rw [fill_append_eq, hresume]
    rfl
  · rw [show takeBlock origin b u = _ from (hplaced h).trans (placeBlock_of_full (by omega) (by omega)
      (by rw [hdistance]; exact mt (hasRoom_iff a).mp hroom))]
    refine ⟨?_, ?_⟩
    · rw [latch_audio]
      change { a.resume with overflows := bump a.overflows } = _
      rw [hresume]
    · rw [latch_latched, BitVec.getLsbD_or, show Flag.audio.mask.getLsbD 8 = true from rfl, Bool.or_true]
  · rw [show takeBlock origin b u = _ from (hplaced h).trans (placeBlock_of_old (by omega))]
    change { a.resume with old := bump a.resume.old } = _
    rw [hresume]
  · rw [show takeBlock origin b u = _ from (hplaced h).trans (placeBlock_of_far (by omega) (by omega))]
    exact restartRun_eq_rerun _ _ rfl

/-- Settles O39: blocks in IDLE, by the sequence rule, and in UNDERRUN. -/
theorem playbackBlocksArePlaced : Obligations.PlaybackBlocksArePlaced :=
  ⟨blockInIdleStartsARunOrIsDiscarded, sequenceRulePlacesBlocks, blockInUnderrunStartsARunOrIsOld⟩

end Sys2Proof.Machine
end

