-- ==== Sys2Proof/Proofs/CodecFrames.lean ====
section
/-! PROOF. The frame given to the codec, the slip rule and the silence timer (R149, R152 to R155). O40 rests on them. -/

namespace Sys2Proof.Machine

/-! ### The silence timer -/

theorem checkSilence_of_ne {a : Audio} (h : a.silence ≠ some 2400) : a.checkSilence = a := if_neg h

theorem checkSilence_of_eq {a : Audio} (h : a.silence = some 2400) :
    a.checkSilence =
      match a.state with
      | .playing => { a with state := .draining }
      | .underrun => Stated.idle a
      | .idle => a
      | .priming => a
      | .draining => a := by
  rw [Audio.checkSilence, if_pos (show a.silence = some silenceLimit from h)]
  cases a.state <;> rfl

/-- R154: the silence timer counts a frame. -/
theorem countSilence_eq {a : Audio} {n : Nat} (hstate : a.state ≠ .idle) (hsilence : a.silence = some n) :
    a.countSilence = Stated.silenceCounted n a := by
  have hcounted : a.countSilence = { a with silence := some (min (n + 1) 2400) : Audio }.checkSilence := by
    rw [Audio.countSilence, if_neg hstate, hsilence]
    rfl
  rw [hcounted, Stated.silenceCounted]
  dsimp only
  by_cases hmore : n + 1 < 2400
  · rw [if_pos hmore]
    refine checkSilence_of_ne fun h => ?_
    have hmin : min (n + 1) 2400 = 2400 := Option.some.inj h
    omega
  · rw [if_neg hmore]
    refine (checkSilence_of_eq ?_).trans ?_
    · exact congrArg some (by omega)
    · dsimp only <;> cases a.state <;> rfl

theorem countSilence_of_idle {a : Audio} (h : a.state = .idle) : a.countSilence = a := if_pos h

theorem stampAndSilenceMoveTheStream : Stated.StampAndSilenceMoveTheStream := by
  refine ⟨fun s r rest seq stamp hstate hblocks hkind => ?_, fun s => ⟨fun hsilence hstate => ?_,
    fun hsilence hstate => ?_, fun hstays => ?_⟩⟩
  · have hdue : s.playDue = stampReached stamp s.agreed := by
      obtain ⟨kind, remaining, started⟩ := r
      obtain rfl : kind = .block seq stamp := hkind
      rw [State.playDue, hstate, hblocks]
      rfl
    have henter : s.audio.enterPlaying =
        { s.audio with state := if s.audio.silence = some 2400 then .draining else .playing } := by
      by_cases hsilence : s.audio.silence = some 2400
      · rw [if_pos hsilence]
        exact checkSilence_of_eq (a := { s.audio with state := .playing }) hsilence
      · rw [if_neg hsilence]
        exact checkSilence_of_ne (a := { s.audio with state := .playing }) hsilence
    rw [← henter]
    change Host.Outcome.next (if s.playDue = true then _ else s) = _
    rw [hdue]
    exact congrArg Host.Outcome.next (if_congr (stampReached_iff ..) rfl rfl)
  · have hcheck : s.audio.checkSilence = { s.audio with state := .draining } := by
      rw [checkSilence_of_eq hsilence, hstate]
    exact congrArg (fun a => Host.Outcome.next { s with audio := a }) hcheck
  · have hcheck : s.audio.checkSilence = Stated.idle s.audio := by
      rw [checkSilence_of_eq hsilence, hstate]
    exact congrArg (fun a => Host.Outcome.next { s with audio := a }) hcheck
  · have hcheck : s.audio.checkSilence = s.audio := by
      by_cases hsilence : s.audio.silence = some 2400
      · rw [checkSilence_of_eq hsilence]
        obtain hstate | hstate | hne := hstays
        · rw [hstate]
        · rw [hstate]
        · exact absurd hsilence hne
      · exact checkSilence_of_ne hsilence
    exact congrArg (fun a => Host.Outcome.next { s with audio := a }) hcheck

/-! ### The gain -/

theorem outputGain_eq (s : State) : s.outputGain = Stated.gain s := by
  have hcap (step : Fin 4) : gainCap step = match step with | 0 => 0 | 1 => 128 | 2 => 256 | 3 => 256 := by
    revert step
    decide
  unfold State.outputGain Stated.gain
  rw [hcap] <;> rfl

theorem scaleFrame_eq (g : Nat) (f : StereoFrame) :
    scaleFrame g f = { left := Stated.scaled g f.left, right := Stated.scaled g f.right } := by
  unfold scaleFrame scaleSample Stated.scaled
  rw [within_eq _ (by decide), within_eq _ (by decide)]

theorem scaleFrame_zeroFrame (g : Nat) : scaleFrame g zeroFrame = { left := 0, right := 0 } := by
  have hzero : scaleSample g 0 = 0 := by
    unfold scaleSample
    rw [show (0 : BitVec 16).toInt = 0 from rfl, Int.zero_mul]
    rfl
  unfold scaleFrame zeroFrame
  rw [hzero]

/-! ### The frame given -/

theorem giveFrame_capture (s : State) : (giveFrame s).2.audio.capture = s.audio.capture := by
  have ⟨_, _, _, _, _, _, hgive⟩ := give_stream s.audio s.agreedUs
  unfold giveFrame
  dsimp only
  split
  · rfl
  · rfl
  · rfl
  · split
    · rw [latch_audio]
      rfl
    · exact hgive
  · split
    · rfl
    · exact hgive

theorem countSilence_capture (a : Audio) : a.countSilence.capture = a.capture := by
  unfold Audio.countSilence Audio.checkSilence
  split
  · rfl
  · split
    · split <;> rfl
    · rfl

theorem playFrame_capture (s : State) : (playFrame s).audio.capture = s.audio.capture :=
  (countSilence_capture _).trans (giveFrame_capture s)

/-- R152, R155: a codec frame with capture off. -/
theorem exec_codecFrame {s : State} (mic : BitVec 16) (hrole : s.straps.role = .headset)
    (hoff : s.audio.capture.switch = false) : exec (.codecFrame mic) s = .next (playFrame s) := by
  have hcapturing : (playFrame s).capturing = false := by
    rw [State.capturing, playFrame_capture, hoff, Bool.and_false, Bool.false_and]
  have hsample : captureSample mic (playFrame s) = playFrame s := by
    rw [captureSample, hcapturing]
    rfl
  change Host.Outcome.next (if s.straps.role = .headset then captureSample mic (playFrame s) else s) = _
  rw [if_pos hrole, hsample]

/-- R152: a frame that is silent, the stream as it is left by `b`. -/
theorem playFrame_of_silent {s u : State} {b : Audio} (hgive : giveFrame s = (zeroFrame, u))
    (hcount : u.audio.countSilence = b) :
    playFrame s = { u with pins := { u.pins with codecOut := { left := 0, right := 0 } }, audio := b } := by
  rw [playFrame, hgive]
  dsimp only
  rw [scaleFrame_zeroFrame, ← hcount]
  rfl

/-- R152, R155: a frame that comes from the ring. -/
theorem playFrame_of_given {s : State} {n : Nat} {f : StereoFrame} {b : Audio}
    (hstate : s.audio.state = .playing ∨ s.audio.state = .draining) (hsilence : s.audio.silence = some n)
    (hring : s.audio.ring ≠ []) (hgive : s.audio.give s.agreedUs = (f, b)) :
    playFrame s =
      { s with
        pins :=
          { s.pins with
            codecOut :=
              { left := Stated.scaled (Stated.gain s) f.left, right := Stated.scaled (Stated.gain s) f.right } }
        audio := Stated.silenceCounted n b } := by
  obtain ⟨hkeeps, -, -, hkept, -⟩ := give_stream s.audio s.agreedUs
  rw [hgive] at hkeeps hkept
  have hframe : giveFrame s = (f, { s with audio := b }) := by
    have hnot : ¬ s.audio.ring.isEmpty = true := fun h => hring (List.isEmpty_iff.mp h)
    unfold giveFrame
    dsimp only
    obtain h | h := hstate
    · rw [h]
      dsimp only
      rw [if_neg hnot, hgive]
      rfl
    · rw [h]
      dsimp only
      rw [if_neg hnot, hgive]
      rfl
  have hcount : b.countSilence = Stated.silenceCounted n b :=
    countSilence_eq (by rw [hkeeps]; obtain h | h := hstate <;> rw [h] <;> nofun) (hkept.trans hsilence)
  rw [playFrame, hframe]
  dsimp only
  rw [scaleFrame_eq, outputGain_eq, ← hcount]
  rfl

/-! ### The slip rule -/

/-- R153: the first frame of a block. -/
theorem give_of_first {a : Audio} {r : BlockRecord} {rest : List BlockRecord} {seq : Byte} {stamp : Int}
    (hblocks : a.blocks = r :: rest) (hkind : r.kind = .block seq stamp) (hfirst : r.started = false) (us : Nat) :
    a.give us =
      (a.ring.getD ((slipOf ((us : Int) - stamp) a.slipLimit).1 - 1) zeroFrame,
        { a with
          slips := if (slipOf ((us : Int) - stamp) a.slipLimit).2 then bump a.slips else a.slips : Audio }.leave
            { r with started := true } rest (slipOf ((us : Int) - stamp) a.slipLimit).1) := by
  obtain ⟨kind, remaining, started⟩ := r
  obtain rfl : kind = .block seq stamp := hkind
  obtain rfl : started = false := hfirst
  rw [Audio.give, hblocks]
  rfl

/-- R152: a further frame of a block, or one of a fill. -/
theorem give_of_further {a : Audio} {r : BlockRecord} {rest : List BlockRecord} (hblocks : a.blocks = r :: rest)
    (h : r.kind = .fill ∨ r.started = true) (us : Nat) :
    a.give us = (a.ring.headD zeroFrame, a.leave { r with started := true } rest 1) := by
  obtain ⟨kind, remaining, started⟩ := r
  rw [Audio.give, hblocks]
  dsimp only
  cases kind with
  | fill => cases started <;> rfl
  | block seq stamp =>
    obtain h | h := h
    · nomatch h
    · obtain rfl : started = true := h
      rfl

theorem codecFrameGivesTheNextFrame : Stated.CodecFrameGivesTheNextFrame := by
  intro s mic n hrole hoff hidle hcounts out silent
  rw [exec_codecFrame mic hrole hoff]
  have hsilence : s.audio.state ≠ .idle → s.audio.silence = some n := hcounts
  refine ⟨fun hstate => ?idle, fun hstate => ?waiting, fun hstate hring => ?underrun, fun hstate hring => ?ended,
    fun f0 f1 ring r rest hstate hring hblocks seq stamp hkind hfirst hroom => ?first,
    fun f0 ring r rest hstate hring hblocks hfurther => ?further⟩
  case idle =>
    have hgive : giveFrame s = (zeroFrame, s) := by simp only [giveFrame, hstate]
    exact congrArg Host.Outcome.next (playFrame_of_silent hgive (countSilence_of_idle hstate))
  case waiting =>
    have hnot : s.audio.state ≠ .idle := by obtain h | h := hstate <;> rw [h] <;> nofun
    have hgive : giveFrame s = (zeroFrame, s) := by obtain h | h := hstate <;> simp only [giveFrame, h]
    exact congrArg Host.Outcome.next (playFrame_of_silent hgive (countSilence_eq hnot (hsilence hnot)))
  case underrun =>
    obtain ⟨u, hu⟩ : ∃ u : State, u =
        { s with audio := { s.audio with state := .underrun, underruns := bump s.audio.underruns } } := ⟨_, rfl⟩
    have hgive : giveFrame s = (zeroFrame, latch .audio u) := by
      simp only [giveFrame, hstate, hring, List.isEmpty_nil, if_true, hu]
      rfl
    have hcount : (latch .audio u).audio.countSilence =
        Stated.silenceCounted n { s.audio with state := .underrun, underruns := bump s.audio.underruns } := by
      rw [latch_audio, hu]
      exact countSilence_eq nofun (hsilence (by rw [hstate]; nofun))
    refine ⟨_, congrArg Host.Outcome.next (playFrame_of_silent hgive hcount), ?_, rfl, ?_, ?_⟩
    · simp [hu, silent]
    · change (latch .audio u).alarms.latched.getLsbD 8 = true
      rw [latch_latched, BitVec.getLsbD_or, show Flag.audio.mask.getLsbD 8 = true from rfl, Bool.or_true]
    · apply State.ext_parts <;> simp [hu]
  case ended =>
    have hgive : giveFrame s = (zeroFrame, { s with audio := Stated.idle s.audio }) := by
      simp only [giveFrame, hstate, hring, List.isEmpty_nil, if_true]
      rfl
    exact congrArg Host.Outcome.next (playFrame_of_silent (u := { s with audio := Stated.idle s.audio }) hgive
      (countSilence_of_idle rfl))
  case first =>
    intro error
    have hnot : s.audio.state ≠ .idle := by obtain h | h := hstate <;> rw [h] <;> nofun
    have hgive := give_of_first hblocks hkind hfirst s.agreedUs
    have hne : s.audio.ring ≠ [] := by rw [hring]; nofun
    refine congrArg Host.Outcome.next ((playFrame_of_given hstate (hsilence hnot) hne hgive).trans ?_)
    unfold slipOf Audio.leave
    by_cases hlate : (s.audio.slipLimit : Int) < error
    · rw [if_pos hlate, if_pos hlate]
      dsimp only
      rw [if_neg (show ¬ r.remaining ≤ 2 by omega), hring]
      rfl
    · by_cases hearly : error < -(s.audio.slipLimit : Int)
      · have hhead : s.audio.ring.getD (0 - 1) zeroFrame = f0 := by
          rw [hring]
          rfl
        rw [if_neg hlate, if_pos hearly, if_neg hlate, if_pos hearly]
        dsimp only
        rw [if_neg (show ¬ r.remaining ≤ 0 by omega), hhead]
        rfl
      · rw [if_neg hlate, if_neg hearly, if_neg hlate, if_neg hearly]
        dsimp only
        rw [if_neg (show ¬ r.remaining ≤ 1 by omega), hring]
        rfl
  case further =>
    have hnot : s.audio.state ≠ .idle := by obtain h | h := hstate <;> rw [h] <;> nofun
    have hne : s.audio.ring ≠ [] := by rw [hring]; nofun
    have hgive := give_of_further hblocks hfurther s.agreedUs
    rw [hring] at hgive
    refine congrArg Host.Outcome.next ((playFrame_of_given hstate (hsilence hnot) hne hgive).trans ?_)
    rw [Audio.leave, hring]
    rfl

/-- Settles O40: the stamp and the silence timer, and codec frames. -/
theorem streamPlaysFrameByFrame : Obligations.StreamPlaysFrameByFrame :=
  ⟨stampAndSilenceMoveTheStream, codecFrameGivesTheNextFrame⟩

end Sys2Proof.Machine
end

