-- ==== Sys2Proof/Proofs/CaptureBlocks.lean ====
section
/-! PROOF. Capture: samples join the FILLING buffer and sixteen form a block (R145, R157). O41 rests on them. -/

namespace Sys2Proof.Machine

/-- The AUDIO slot's load that R157 counts as a lost block, while loads are taken. -/
theorem captureLoses_iff {s : State} (hload : s.loadRefused = false) :
    s.captureLoses = true ↔
      s.slots.audio.state = .pending ∨ s.slots.audio.state = .sending ∧ s.slots.audio.held.isSome = true := by
  rw [State.captureLoses, hload, Bool.false_or]
  cases s.slots.audio.state <;> simp

theorem loadCapture_of_kept {s : State} (hload : s.loadRefused = false) (h : ¬ s.captureLoses = true)
    (body : List Byte) :
    loadCapture body s =
      { s with slots := { s.slots with audio := s.slots.audio.load (ownContent s 4 1 body) } } := by
  rw [loadCapture, loadSlot_of_taken hload]
  exact if_neg h

/-- R157: a lost block is counted and latches AUDIO. -/
theorem loadCapture_of_lost {s : State} (hload : s.loadRefused = false) (h : s.captureLoses = true)
    (body : List Byte) :
    loadCapture body s =
      latch .audio
        { s with
          slots := { s.slots with audio := s.slots.audio.load (ownContent s 4 1 body) }
          audio := { s.audio with captureOverruns := bump s.audio.captureOverruns } } := by
  rw [loadCapture, loadSlot_of_taken hload]
  exact if_pos h

/-- R49, R54: while loads are taken a latch moves the alarm flags and the ALARM slot, and nothing else. -/
theorem latch_eq_of_inService {s : State} (f : Flag) (hlife : s.loader.life = .running)
    (hcut : s.spine.standing ≠ .cut) :
    latch f s =
      { s with
        alarms := (latch f s).alarms
        slots := { s.slots with alarm := (latch f s).slots.alarm } } := by
  cases hlatched : s.alarms.latched.getLsbD f.number with
  | true => rw [latch_of_latched hlatched]
  | false =>
    cases hmessage : s.alarms.message.getLsbD f.number with
    | false =>
      rw [latch_of_unlatched_disabled hlatched hmessage]
      rfl
    | true =>
      rw [latch_of_unlatched_enabled hlatched hmessage, loadAlarm_eq, if_pos ⟨hlife, hcut⟩]
      rfl

theorem captureBody_eq (sequence : Byte) (k : CaptureBuffer) :
    captureBody sequence k =
      [sequence] ++ beBytes 4 (k.stamp % 2 ^ 32) ++ k.samples.flatMap fun v => beBytes 2 v.toNat := by
  rw [captureBody, beBits, low32, BitVec.toNat_ofNat]
  rfl

/-- R157: the buffer that takes the next sample. -/
def State.fillingNow (s : State) (inA : Bool) : CaptureBuffer :=
  if inA then s.audio.capture.a else s.audio.capture.b

/-- R157: a sample joins the FILLING buffer. -/
def State.joinedNow (s : State) (inA : Bool) (mic : BitVec 16) : CaptureBuffer :=
  { state := .filling
    stamp := if (s.fillingNow inA).samples = [] then s.agreedUs else (s.fillingNow inA).stamp
    samples := (s.fillingNow inA).samples ++ [mic] }

/-- R157: the capture after a block is formed from the FILLING buffer. -/
def Capture.passed (c : Capture) (inA : Bool) : Capture :=
  { c with
    a := if inA then freeBuffer else fillingBuffer
    b := if inA then fillingBuffer else freeBuffer
    sequence := c.sequence + 1
    blocks := bump c.blocks }

theorem add_eq_joinedNow {s : State} {inA : Bool} (h : (s.fillingNow inA).state = .filling) (mic : BitVec 16) :
    (s.fillingNow inA).add mic s.agreedUs = s.joinedNow inA mic := by
  rw [CaptureBuffer.add, State.joinedNow, h]
  exact congrArg
    (fun stamp : Nat => (⟨.filling, stamp, (s.fillingNow inA).samples ++ [mic]⟩ : CaptureBuffer))
    (if_congr List.isEmpty_iff rfl rfl)

/-- R157: with capture running, the sample joins the FILLING buffer, which may complete. -/
theorem captureSample_eq {s : State} {inA : Bool} (mic : BitVec 16) (hcapturing : s.capturing = true)
    (hA : inA = true → s.audio.capture.a.state = .filling)
    (hB : inA = false → s.audio.capture.a.state ≠ .filling ∧ s.audio.capture.b.state = .filling) :
    captureSample mic s =
      if (s.joinedNow inA mic).samples.length < 16 then
        s.updCapture fun c =>
          if inA then { c with a := s.joinedNow inA mic } else { c with b := s.joinedNow inA mic }
      else
        loadCapture (captureBody s.audio.capture.sequence (s.joinedNow inA mic))
          (s.updCapture fun c => c.passed inA) := by
  rw [captureSample, if_pos hcapturing]
  cases inA with
  | true =>
    rw [if_pos (hA rfl), ← add_eq_joinedNow (s := s) (inA := true) (hA rfl)]
    rfl
  | false =>
    obtain ⟨hnot, hfilling⟩ := hB rfl
    rw [if_neg hnot, if_pos hfilling, ← add_eq_joinedNow (s := s) (inA := false) hfilling]
    rfl

/-- R157, R152: CODEC_FRAME while capture runs and the stream is IDLE. -/
theorem exec_codecFrame_of_idle {s : State} (mic : BitVec 16) (hrole : s.straps.role = .headset)
    (hstate : s.audio.state = .idle) :
    exec (.codecFrame mic) s = .next
      (captureSample mic { s with pins := { s.pins with codecOut := { left := 0, right := 0 } } }) := by
  have hgive : giveFrame s = (zeroFrame, s) := by simp only [giveFrame, hstate]
  rw [← playFrame_of_silent hgive (countSilence_of_idle hstate)]
  exact congrArg Host.Outcome.next (if_pos hrole)

/-- R157: the AUDIO slot's content for a capture block. -/
theorem ownContent_captureBody (s : State) (sequence : Byte) (k : CaptureBuffer) :
    ownContent s 4 1 (captureBody sequence k) =
      { rank := BitVec.ofNat 12 (4 * 256 + 8 + s.straps.node.val)
        body := [sequence] ++ beBytes 4 (k.stamp % 2 ^ 32) ++ k.samples.flatMap fun v => beBytes 2 v.toNat
        singleShot := false
        loop := false } := by
  rw [captureBody_eq]
  rfl

/-- Settles O41: samples join the FILLING buffer; the sixteenth forms a block, which is loaded or lost. -/
theorem captureFormsABlockOfSixteen : Obligations.CaptureFormsABlockOfSixteen := by
  intro s mic inA hrole hswitch hlife hcut hstate hA hB c filling stamp samples joined free fresh pins formed slot loses
  obtain ⟨v, hv⟩ : ∃ v : State, v = { s with pins := pins } := ⟨_, rfl⟩
  have hjoined : v.joinedNow inA mic = joined := by
    subst hv
    rfl
  have hload : v.loadRefused = false := by
    subst hv
    exact (loadRefused_eq_false_iff _).mpr ⟨hlife, hcut⟩
  have hcapturing : v.capturing = true := by
    simp [hv, State.capturing, State.inService, hrole, hswitch, hlife, hcut]
  have hexec : exec (.codecFrame mic) s = .next (captureSample mic v) := by
    rw [hv]
    exact exec_codecFrame_of_idle mic hrole hstate
  have haudio : v.audio = s.audio := by
    subst hv
    rfl
  have hsample := captureSample_eq (s := v) mic hcapturing (by rwa [haudio]) (by rwa [haudio])
  rw [hjoined] at hsample
  obtain ⟨w, hw⟩ : ∃ w : State, w = v.updCapture fun c => c.passed inA := ⟨_, rfl⟩
  rw [← hw] at hsample
  have hwload : w.loadRefused = false := by
    subst hw
    exact hload
  have hwslots : w.slots = s.slots := by
    subst hw hv
    rfl
  have hslot : w.slots.audio.load (ownContent w 4 1 (captureBody v.audio.capture.sequence joined)) = slot := by
    subst hw hv
    rw [ownContent_captureBody]
    rfl
  have hloses : w.captureLoses = true ↔ loses := by
    rw [captureLoses_iff hwload, hwslots]
  rw [hexec, hsample]
  refine ⟨fun hshort => ?short, fun hfull hkept => ?kept, fun hfull hlost => ?lost⟩
  case short =>
    rw [if_pos (show joined.samples.length < 16 from hshort)]
    subst hv
    cases inA <;> rfl
  case kept =>
    rw [if_neg (show ¬ joined.samples.length < 16 from hfull.ge.not_gt),
      loadCapture_of_kept hwload (mt hloses.mp hkept), hslot, hw, hv]
    rfl
  case lost =>
    rw [if_neg (show ¬ joined.samples.length < 16 from hfull.ge.not_gt),
      loadCapture_of_lost hwload (hloses.mpr hlost), hslot]
    obtain ⟨x, hx⟩ : ∃ x : State, x =
        { w with
          slots := { w.slots with audio := slot }
          audio := { w.audio with captureOverruns := bump w.audio.captureOverruns } } := ⟨_, rfl⟩
    rw [← hx]
    have hmoved := latch_eq_of_inService (s := x) .audio
      (by subst hx hw hv; exact hlife) (by subst hx hw hv; exact hcut)
    refine ⟨_, rfl, ?_, ?_, ?_, ?_⟩
    · rw [latch_audio, hx, hw, hv]
      rfl
    · rw [latch_latched, BitVec.getLsbD_or, show Flag.audio.mask.getLsbD 8 = true from rfl, Bool.or_true]
    · rw [hmoved, hx]
    · refine hmoved.trans ?_
      rw [latch_audio, hx, hw, hv]
      rfl

end Sys2Proof.Machine
end

