-- ==== Sys2Proof/Proofs/AudioCommands.lean ====
section
/-! PROOF. SET GAIN and CAPTURE (R156, R158). O42 rests on them. -/

namespace Sys2Proof.Machine

/-- R158: the capture once its switch is set. -/
def Capture.switched (k : Capture) (on : Bool) : Capture :=
  if on = k.switch then k
  else if on then { k with switch := true : Capture }.start
  else { k with switch := false : Capture }.discard

theorem setCapture_eq {s : State} (on : Bool) (hservice : s.inService = true) :
    setCapture on s = { s with audio := { s.audio with capture := s.audio.capture.switched on } } := by
  unfold setCapture Capture.switched
  by_cases hsame : on = s.audio.capture.switch
  · rw [if_pos hsame, if_pos hsame]
  · rw [if_neg hsame, if_neg hsame]
    cases on with
    | true =>
      rw [if_pos rfl, if_pos rfl]
      exact if_pos hservice
    | false => rfl

theorem switch_switched (k : Capture) (on : Bool) : (k.switched on).switch = on := by
  unfold Capture.switched
  by_cases hsame : on = k.switch
  · rw [if_pos hsame, hsame]
  · rw [if_neg hsame]
    cases on <;> rfl

theorem sequence_switched (k : Capture) (on : Bool) : (k.switched on).sequence = k.sequence := by
  unfold Capture.switched
  split
  · rfl
  · split <;> rfl

theorem blocks_switched (k : Capture) (on : Bool) : (k.switched on).blocks = k.blocks := by
  unfold Capture.switched
  split
  · rfl
  · split <;> rfl

theorem beBytes_one_bit (b : Bool) : beBytes 1 (bit b) = [if b then 1 else 0] := by
  cases b <;> rfl

/-- R158: CAPTURE on a HEADSET in service. -/
theorem answerCapture_eq {c : Command} {s : State} {arg : Byte} (harg : c.args = [arg])
    (hrole : s.straps.role = .headset) (hservice : s.inService = true) :
    answerCapture c s =
      { result := movedResult (decide (1 < arg.toNat))
        data := [if s.audio.capture.switch then 1 else 0, if decide (arg ≠ 0) then 1 else 0,
          s.audio.capture.sequence] ++ beBytes 2 s.audio.capture.blocks.toNat
        state := { s with audio := { s.audio with capture := s.audio.capture.switched (decide (arg ≠ 0)) } } } := by
  have hbyte : byteAt c.args 0 = arg := by
    rw [harg]
    rfl
  obtain ⟨t, ht⟩ : ∃ t : State, t = { s with
      audio := { s.audio with capture := s.audio.capture.switched (decide (arg ≠ 0)) } } := ⟨_, rfl⟩
  have hcapture : t.audio.capture = s.audio.capture.switched (decide (arg ≠ 0)) := by rw [ht]
  have hservice' : t.inService = true := by
    subst ht
    exact hservice
  have hcapturing : t.capturing = decide (arg ≠ 0) := by
    have hrole' : t.straps.role = .headset := by rw [ht, hrole]
    rw [State.capturing, hrole', hcapture, switch_switched, hservice', Bool.and_true]
    rfl
  have hsequence : beBits 1 s.audio.capture.sequence = [s.audio.capture.sequence] := by
    rw [beBits, beBytes_one, BitVec.ofNat_toNat, BitVec.setWidth_eq]
  rw [answerCapture, hbyte, setCapture_eq _ hservice, ← ht]
  rw [hcapturing, hcapture, sequence_switched, blocks_switched, beBytes_one_bit, beBytes_one_bit, hsequence]
  rfl

/-- Settles O42: SET GAIN and CAPTURE. -/
theorem audioCommandsOnHeadset : Obligations.AudioCommandsOnHeadset := by
  unfold Obligations.AudioCommandsOnHeadset
  intro s c rest hpath hrole
  refine ⟨fun gain hcode hargs => ?gain, fun arg hcode hargs => ?capture⟩
  case gain =>
    intro set after
    have hexec : exec .setGain s = .next (answerWith (· == 9) (onHeadset answerSetGain) s) := rfl
    have harg : fieldAt c.args 0 2 = gain.toNat := by
      rw [hargs]
      exact fromBytes_beBytes_two gain.isLt
    have hanswer : answerSetGain c (beginAnswer c rest s) =
        { result := movedResult (decide (256 < gain.toNat))
          data := beBytes 2 set ++ beBytes 2 (Stated.gain after)
          state := { beginAnswer c rest s with audio := { s.audio with gain := set } } } := by
      simp only [answerSetGain, harg, outputGain_eq]
      rfl
    rw [hexec, answerWith_onHeadset hpath hrole (by simp [hcode]) hanswer rfl rfl rfl rfl, code_movedResult]
    rfl
  case capture =>
    intro k on k'
    have hexec : exec .capture s = .next (answerWith (· == 8) (onHeadset answerCapture) s) := rfl
    obtain ⟨-, -, hlife, hcut, -⟩ := id hpath
    have hservice : (beginAnswer c rest s).inService = true := by
      simp [State.inService, beginAnswer, hlife, hcut]
    have hanswer := answerCapture_eq (s := beginAnswer c rest s) hargs hrole hservice
    rw [hexec, answerWith_onHeadset hpath hrole (by simp [hcode]) hanswer rfl rfl rfl rfl, code_movedResult]
    rfl

end Sys2Proof.Machine
end

