-- ==== Sys2Proof/Proofs/PowerSteps.lean ====
section
/-! PROOF. The step and the lane it acts on, the POWER slot and the grant (R103, R168 to R170, R173, R174). -/

namespace Sys2Proof.Machine

/-! ### The slots but ALARM while a condition moves -/

theorem get_arise_of_ne {m : SlotName} (h : m ≠ .alarm) (f : Flag) (s : State) :
    (arise f s).slots.get m = s.slots.get m := by
  unfold arise
  split
  · rfl
  · exact get_latch_of_ne (s := s.updAlarms _) h f

theorem get_setCondition_of_ne {m : SlotName} (h : m ≠ .alarm) (f : Flag) (present : Bool) (s : State) :
    (setCondition f present s).slots.get m = s.slots.get m := by
  unfold setCondition
  split
  · exact get_arise_of_ne h f s
  · rfl

@[simp] theorem latch_slots_power (f : Flag) (s : State) : (latch f s).slots.power = s.slots.power :=
  get_latch_of_ne (m := .power) nofun f s

@[simp] theorem setCondition_slots_power (f : Flag) (present : Bool) (s : State) :
    (setCondition f present s).slots.power = s.slots.power :=
  get_setCondition_of_ne (m := .power) nofun f present s

/-! ### The step acts on the lane -/

/-- R103, R174: the lane sender when the step becomes `v`. -/
def State.laneTxAt (s : State) (v : Fin 4) : LaneSender :=
  if s.straps.role = .console ∧ s.pins.laneSignal = true ∧ v = 0 then
    { s.laneTx with packet := none, laneDowns := bump s.laneTx.laneDowns }
  else s.laneTx

theorem laneTxAt_of_falls {s : State} {v : Fin 4} (hrole : s.straps.role = .console)
    (hsignal : s.pins.laneSignal = true) (hzero : v = 0) : s.laneTxAt v =
      { s.laneTx with packet := none, laneDowns := bump s.laneTx.laneDowns } :=
  if_pos ⟨hrole, hsignal, hzero⟩

theorem laneTxAt_of_stays {s : State} {v : Fin 4}
    (h : ¬ (s.straps.role = .console ∧ s.pins.laneSignal = true ∧ v = 0)) : s.laneTxAt v = s.laneTx := if_neg h

theorem setStep_of_eq {v : Fin 4} {s : State} (h : s.power.step = v) : setStep v s = s := if_pos h

/-- R103, R174: a change of the step settles the lane. -/
theorem setStep_of_ne {v : Fin 4} {s : State} (h : s.power.step ≠ v) :
    setStep v s = refreshLane { s with power := { s.power with step := v }, laneTx := s.laneTxAt v } := by
  obtain ⟨u, hu⟩ : ∃ u : State, u = s.updPower fun p => { p with step := v } := ⟨_, rfl⟩
  have hset : setStep v s = refreshLane (if s.laneUp && !u.laneUp then laneGoesDown noPixels u else u) := by
    rw [hu]
    exact if_neg h
  rw [hset]
  congr 1
  have hstays (hup : (s.laneUp && !u.laneUp) = false)
      (h : ¬ (s.straps.role = .console ∧ s.pins.laneSignal = true ∧ v = 0)) :
      (if (s.laneUp && !u.laneUp) = true then laneGoesDown noPixels u else u) =
        { s with power := { s.power with step := v }, laneTx := s.laneTxAt v } := by
    rw [hup, if_neg nofun, laneTxAt_of_stays h, hu]
    rfl
  cases hrole : s.straps.role with
  | console =>
    by_cases hsignal : s.pins.laneSignal = true
    · by_cases hzero : v = 0
      · have hup : s.laneUp = true := by simp [State.laneUp, hrole, hsignal, ← hzero, h]
        have hnot : u.laneUp = false := by simp [State.laneUp, hu, hrole, hzero]
        have hdown : laneGoesDown noPixels u =
            u.updLaneTx fun t => { t with packet := none, laneDowns := bump t.laneDowns } := by
          simp only [laneGoesDown, hu, updPower_straps, hrole]
        rw [hup, hnot, hdown, laneTxAt_of_falls hrole hsignal hzero, hu]
        rfl
      · have hup : u.laneUp = true := by simp [State.laneUp, hu, hrole, hsignal, hzero]
        exact hstays (by rw [hup, Bool.not_true, Bool.and_false]) fun ⟨_, _, hz⟩ => hzero hz
    · have hup : s.laneUp = false := by simp [State.laneUp, hrole, hsignal]
      exact hstays (by rw [hup, Bool.false_and]) fun ⟨_, hs, _⟩ => hsignal hs
  | headset =>
    have hup : u.laneUp = s.laneUp := by simp [State.laneUp, hu, hrole]
    exact hstays (by rw [hup, Bool.and_not_self]) fun ⟨hr, _⟩ => by simp [hrole] at hr
  | supply =>
    have hup : u.laneUp = s.laneUp := by simp [State.laneUp, hu, hrole]
    exact hstays (by rw [hup, Bool.and_not_self]) fun ⟨hr, _⟩ => by simp [hrole] at hr

@[simp] theorem setStep_laneRx (v : Fin 4) (s : State) : (setStep v s).laneRx = s.laneRx := by
  by_cases h : s.power.step = v
  · rw [setStep_of_eq h]
  · rw [setStep_of_ne h]
    simp

@[simp] theorem setStep_store (v : Fin 4) (s : State) : (setStep v s).store = s.store := by
  by_cases h : s.power.step = v
  · rw [setStep_of_eq h]
  · rw [setStep_of_ne h]
    simp

@[simp] theorem setStep_slots_power (v : Fin 4) (s : State) : (setStep v s).slots.power = s.slots.power := by
  by_cases h : s.power.step = v
  · rw [setStep_of_eq h]
  · rw [setStep_of_ne h]
    exact setCondition_slots_power ..

/-- R103, R174: a change of the step has its statement's effect on the lane. -/
theorem laneFollowsStep_setStep (v : Fin 4) (s : State) : Stated.laneFollowsStep s (setStep v s) := by
  by_cases h : s.power.step = v
  · rw [setStep_of_eq h]
    exact ⟨fun ⟨_, _, hne, hzero⟩ => absurd hzero hne, fun _ => rfl, fun _ hne => absurd rfl hne⟩
  · have hlaneTx : (setStep v s).laneTx = s.laneTxAt v := by
      rw [setStep_of_ne h]
      simp
    have hstep : (setStep v s).power.step = v := by rw [setStep_power]
    refine ⟨fun ⟨hrole, hsignal, _, hzero⟩ => ?_, fun hnot => ?_, fun hrole _ => ?_⟩
    · rw [hlaneTx]
      exact laneTxAt_of_falls hrole hsignal (hstep.symm.trans hzero)
    · rw [hlaneTx]
      exact laneTxAt_of_stays fun ⟨hrole, hsignal, hzero⟩ =>
        hnot ⟨hrole, hsignal, fun h0 => h (h0.trans hzero.symm), hstep.trans hzero⟩
    · rw [hstep, setStep_of_ne h]
      obtain ⟨w, hw⟩ : ∃ w : State, w =
          { s with power := { s.power with step := v }, laneTx := s.laneTxAt v } := ⟨_, rfl⟩
      have hpresent : (refreshLane w).alarms.present.getLsbD 11 = w.laneCondition :=
        setCondition_present .lane _ w
      rw [← hw, hpresent, hw]
      simp [State.laneCondition, State.laneUp, hrole, and_comm]

/-- The step of `r` stays or falls to that of `s`, and the lane follows it (R103, R170). -/
structure LaneFalls (r s : State) : Prop where
  straps : s.straps = r.straps
  pins : s.pins = r.pins
  loader : s.loader = r.loader
  le : s.power.step ≤ r.power.step
  follows : Stated.laneFollowsStep r s
  kept : s.power.step = r.power.step → s.alarms.present.getLsbD 11 = r.alarms.present.getLsbD 11

theorem LaneFalls.of_same {r s : State} (hstraps : s.straps = r.straps) (hpins : s.pins = r.pins)
    (hloader : s.loader = r.loader) (hstep : s.power.step = r.power.step) (hlane : s.laneTx = r.laneTx)
    (hpresent : s.alarms.present.getLsbD 11 = r.alarms.present.getLsbD 11) : LaneFalls r s :=
  ⟨hstraps, hpins, hloader, hstep.le, ⟨fun ⟨_, _, hne, hzero⟩ => absurd (hstep.symm.trans hzero) hne, fun _ => hlane,
    fun _ hne => absurd hstep hne⟩, fun _ => hpresent⟩

theorem LaneFalls.setStep {v : Fin 4} {s : State} (h : v ≤ s.power.step) : LaneFalls s (setStep v s) := by
  refine ⟨by simp, by simp, by simp, by rwa [setStep_power], laneFollowsStep_setStep v s, fun hsame => ?_⟩
  rw [setStep_power] at hsame
  rw [setStep_of_eq hsame.symm]

/-- The lane's partner, the role and the life stay; so the lane follows over two falls as over one. -/
theorem LaneFalls.trans {r s t : State} (h : LaneFalls r s) (h' : LaneFalls s t) : LaneFalls r t := by
  obtain ⟨hfalls, hstays, hpresent⟩ := h.follows
  obtain ⟨hfalls', hstays', hpresent'⟩ := h'.follows
  rw [h.straps, h.pins] at hfalls' hstays'
  rw [h.straps, h.pins, h.loader] at hpresent'
  refine ⟨h'.straps.trans h.straps, h'.pins.trans h.pins, h'.loader.trans h.loader, h'.le.trans h.le,
    ⟨fun ⟨hrole, hsignal, hne, hzero⟩ => ?_, fun hnot => ?_, fun hrole hne => ?_⟩, fun hsame => ?_⟩
  · by_cases hmid : s.power.step = 0
    · rw [hstays' (fun ⟨_, _, h0, _⟩ => h0 hmid), hfalls ⟨hrole, hsignal, hne, hmid⟩]
    · have hlane : s.laneTx = r.laneTx := hstays fun ⟨_, _, _, h0⟩ => hmid h0
      rw [hfalls' ⟨hrole, hsignal, hmid, hzero⟩, hlane]
  · have hmid : s.power.step = 0 → t.power.step = 0 := fun h0 => Fin.le_zero_iff.mp (h0 ▸ h'.le)
    rw [hstays' fun ⟨hrole, hsignal, hne, hzero⟩ => hnot ⟨hrole, hsignal, fun h0 => hne ?_, hzero⟩,
      hstays fun ⟨hrole, hsignal, hne, hzero⟩ => hnot ⟨hrole, hsignal, hne, hmid hzero⟩]
    exact Fin.le_zero_iff.mp (h0 ▸ h.le)
  · by_cases hlast : t.power.step = s.power.step
    · rw [h'.kept hlast, hpresent hrole (hlast ▸ hne), hlast]
    · exact hpresent' hrole hlast
  · have hmid : s.power.step = r.power.step := le_antisymm h.le (hsame ▸ h'.le)
    exact (h'.kept (hsame.trans hmid.symm)).trans (h.kept hmid)

/-- A step that stays and then moves, in either direction, moves the lane as the move alone. -/
theorem LaneFalls.follows_of_stays {r s t : State} (h : LaneFalls r s) (hsame : s.power.step = r.power.step)
    (h' : Stated.laneFollowsStep s t) : Stated.laneFollowsStep r t := by
  obtain ⟨-, hstays, -⟩ := h.follows
  have hlane : s.laneTx = r.laneTx := hstays fun ⟨_, _, hne, hzero⟩ => hne (hsame.symm.trans hzero)
  rw [Stated.laneFollowsStep, h.straps, h.pins, h.loader, hsame, hlane] at h'
  exact h'

/-! ### The fall to the target -/

theorem target_eq (s : State) : s.target = Stated.target s.power.settings s.power.grant := rfl

/-- R170: the power unit when the step has been checked against its target. -/
theorem fallToTarget_power_eq (s : State) :
    (fallToTarget s).power =
      if s.target < s.power.step then
        { s.power with rise := 0, stepFalls := bump s.power.stepFalls, step := s.target }
      else s.power := by
  unfold fallToTarget
  split
  · rw [setStep_power]
    rfl
  · rfl

theorem fallToTarget_of_le {s : State} (h : s.power.step ≤ s.target) : fallToTarget s = s :=
  if_neg (Fin.not_lt.mpr h)

theorem LaneFalls.fallToTarget (s : State) : LaneFalls s (fallToTarget s) := by
  by_cases h : s.target < s.power.step
  · obtain ⟨u, hu⟩ : ∃ u : State, u = s.updPower fun p =>
        { p with rise := 0, stepFalls := bump p.stepFalls } := ⟨_, rfl⟩
    have hsame : LaneFalls s u := by
      subst hu
      exact .of_same rfl rfl rfl rfl rfl rfl
    have hfall : Machine.fallToTarget s = Machine.setStep s.target u := by
      rw [hu]
      exact if_pos h
    rw [hfall]
    refine hsame.trans (.setStep ?_)
    rw [hu]
    exact h.le
  · rw [fallToTarget_of_le (Fin.not_lt.mp h)]
    exact .of_same rfl rfl rfl rfl rfl rfl

@[simp] theorem fallToTarget_slots_power (s : State) : (Machine.fallToTarget s).slots.power = s.slots.power := by
  unfold Machine.fallToTarget
  split <;> simp

@[simp] theorem fallToTarget_laneRx (s : State) : (Machine.fallToTarget s).laneRx = s.laneRx := by
  unfold Machine.fallToTarget
  split <;> simp

@[simp] theorem fallToTarget_store (s : State) : (Machine.fallToTarget s).store = s.store := by
  unfold Machine.fallToTarget
  split <;> simp

/-! ### The grant -/

/-- R168: a sum of figures over flagged entries. -/
theorem sumOver_ifFlag (es : List PowerEntry) (flag : PowerEntry → Bool) (figure : PowerEntry → Nat) :
    (sumOver es fun e => ifFlag (flag e) (figure e)) = Stated.total es flag figure := by
  unfold sumOver Stated.total ifFlag
  induction es with
  | nil => rfl
  | cons e es ih =>
    rw [List.map_cons, List.sum_cons, ih]
    cases h : flag e with
    | true => rw [List.filter_cons_of_pos h, List.map_cons, List.sum_cons, if_pos rfl]
    | false => rw [List.filter_cons_of_neg (by simp [h]), if_neg nofun, Nat.zero_add]

/-- R168: the grant of the model is the share that the statements write out. -/
theorem grantOf_eq {own : PowerEntry} (hle : own.floor ≤ own.desire) (es : List PowerEntry) (reserve : Nat) :
    grantOf own (offered es - reserve) (floors es) (desires es) = Stated.share es own reserve := by
  unfold grantOf Stated.share offered floors desires
  rw [sumOver_ifFlag, sumOver_ifFlag, sumOver_ifFlag]
  dsimp only
  obtain ⟨pool, hpool⟩ : ∃ n, n = Stated.total es (·.supplier) (·.available) - reserve := ⟨_, rfl⟩
  obtain ⟨f, hf⟩ : ∃ n, n = Stated.total es (·.consumer) (·.floor) := ⟨_, rfl⟩
  obtain ⟨d, hd⟩ : ∃ n, n = Stated.total es (·.consumer) (·.desire) := ⟨_, rfl⟩
  rw [← hpool, ← hf, ← hd]
  refine if_congr (by simp) rfl ?_
  by_cases hcovers : d ≤ pool
  · rw [if_pos hcovers, if_pos hcovers]
  · rw [if_neg hcovers, if_neg hcovers]
    by_cases hfloors : f ≤ pool
    · have hfd : f ≤ d := by omega
      rw [if_pos hfloors, if_pos hfloors, ← Int.ofNat_sub hle, ← Int.ofNat_sub hfloors, ← Int.ofNat_sub hfd]
      rw [← Int.natCast_mul, ← Int.ofNat_tdiv, ← Int.natCast_add, Int.toNat_natCast]
    · rw [if_neg hfloors, if_neg hfloors]

theorem regrant_power_of_supplied {s : State} {own : PowerEntry} (hown : s.power.view[s.straps.node] = some own)
    (hany : s.freshEntries.any (·.supplier) = true) (hle : own.floor ≤ own.desire) :
    (regrant s).power = s.power.supply (offered s.freshEntries - s.power.settings.reserve)
      (Stated.share s.freshEntries own s.power.settings.reserve) := by
  unfold regrant
  dsimp only
  rw [if_pos hany, hown, ← grantOf_eq hle]
  rfl

theorem regrant_power_of_none {s : State} (hany : s.freshEntries.any (·.supplier) = false) :
    (regrant s).power = s.power.holdOver := by
  unfold regrant
  dsimp only
  rw [if_neg (by rw [hany]; nofun)]
  rfl

theorem regrant_counts (s : State) :
    (regrant s).power.rise = s.power.rise ∧ (regrant s).power.stepFalls = s.power.stepFalls := by
  unfold regrant
  dsimp only
  split
  · split <;> exact ⟨rfl, rfl⟩
  · rw [updPower_power, Power.holdOver]
    split
    · split <;> exact ⟨rfl, rfl⟩
    · exact ⟨rfl, rfl⟩

/-- R168 to R170: a recomputation of the grant, with the step checked against it. -/
theorem recompute_regranted {s : State} {own : PowerEntry} (hown : s.power.view[s.straps.node] = some own)
    (hle : own.floor ≤ own.desire) : Stated.regranted s s.freshEntries own (recompute s) := by
  obtain ⟨hsettings, hstep, -⟩ := regrant_power s
  have hpower : (recompute s).power =
      if (regrant s).target < (regrant s).power.step then
        { (regrant s).power with
          rise := 0, stepFalls := bump (regrant s).power.stepFalls, step := (regrant s).target }
      else (regrant s).power := fallToTarget_power_eq (regrant s)
  have hkeeps {α : Type} (get : Power → α)
      (hget : ∀ (p : Power) rise falls step, get { p with rise := rise, stepFalls := falls, step := step } = get p) :
      get (recompute s).power = get (regrant s).power := by
    rw [hpower]
    split
    · exact hget ..
    · rfl
  have hgrant : (recompute s).power.grant = (regrant s).power.grant := hkeeps (·.grant) fun _ _ _ _ => rfl
  have hholdover : (recompute s).power.holdover = (regrant s).power.holdover := hkeeps (·.holdover) fun _ _ _ _ => rfl
  have hsupplied : (recompute s).power.supplied = (regrant s).power.supplied := hkeeps (·.supplied) fun _ _ _ _ => rfl
  have hbegun : (recompute s).power.holdoversBegun = (regrant s).power.holdoversBegun :=
    hkeeps (·.holdoversBegun) fun _ _ _ _ => rfl
  have htarget : Stated.target s.power.settings (recompute s).power.grant = (regrant s).target := by
    rw [hgrant, target_eq, hsettings]
  obtain ⟨hrise, hfalls⟩ := regrant_counts s
  unfold Stated.regranted
  dsimp only
  rw [htarget]
  refine ⟨fun hany => ?_, fun hany hsup => ?_, fun hany hsup => ?_, ?_, ?_, ?_⟩
  · rw [hgrant, hholdover, hsupplied, regrant_power_of_supplied hown hany hle]
    exact ⟨rfl, rfl, rfl⟩
  · rw [hgrant, hholdover, hsupplied, hbegun, regrant_power_of_none hany, Power.holdOver, if_pos hsup]
    cases s.power.holdover <;> simp [hsup]
  · rw [hgrant, hsupplied, regrant_power_of_none hany, Power.holdOver, if_neg (by rw [hsup]; nofun)]
    exact ⟨rfl, hsup⟩
  · rw [hpower, hstep]
    split
    · rfl
    · exact hstep
  · rw [hpower, hstep]
    split
    · rfl
    · exact hrise
  · rw [hpower, hstep]
    split
    · exact congrArg bump hfalls
    · exact hfalls

theorem LaneFalls.recompute (s : State) : LaneFalls s (recompute s) := by
  obtain ⟨-, hstep, -⟩ := regrant_power s
  have hsame : LaneFalls s (regrant s) := .of_same (by simp) (by simp) (by simp) hstep (by simp) (by simp)
  exact hsame.trans (.fallToTarget (regrant s))

/-- R170, R173: a recomputation that keeps the step moves no slot and no flag. -/
theorem recompute_of_step_kept {s : State} (h : (Machine.recompute s).power.step = s.power.step) :
    (Machine.recompute s).slots = s.slots ∧ (Machine.recompute s).alarms = s.alarms := by
  obtain ⟨-, hstep, -⟩ := regrant_power s
  have hle : (regrant s).power.step ≤ (regrant s).target := by
    refine Fin.not_lt.mp fun hlt => ?_
    have hfall : (Machine.recompute s).power.step = (regrant s).target := by
      change (Machine.fallToTarget (regrant s)).power.step = _
      rw [fallToTarget_power_eq, if_pos hlt]
    rw [h, ← hstep] at hfall
    exact hlt.ne hfall.symm
  have hkept : Machine.recompute s = regrant s := fallToTarget_of_le hle
  rw [hkept]
  exact ⟨by simp, by simp⟩

@[simp] theorem recompute_slots_power (s : State) : (Machine.recompute s).slots.power = s.slots.power := by
  simp [Machine.recompute]

@[simp] theorem recompute_laneRx (s : State) : (Machine.recompute s).laneRx = s.laneRx := by
  simp [Machine.recompute]

@[simp] theorem recompute_store (s : State) : (Machine.recompute s).store = s.store := by
  simp [Machine.recompute]

/-! ### The POWER slot -/

theorem flagByte_three (a b c : Bool) : flagByte [a, b, c] = Stated.flags a b c false := by
  cases a <;> cases b <;> cases c <;> rfl

/-- R173: the POWER content of the model is the one that the statements write out. -/
theorem ownContent_powerBody (s : State) : ownContent s 5 0 (powerBody s) = Stated.powerContent s := by
  unfold ownContent powerBody Stated.powerContent
  dsimp only
  rw [flagByte_three, beBytes_one]
  rfl

/-- R173: the POWER slot is loaded in RUNNING and outside CUT. -/
theorem loadPower_slots_power {s : State} (hlife : s.loader.life = .running) (hcut : s.spine.standing ≠ .cut) :
    (loadPower s).slots.power = s.slots.power.load (Stated.powerContent (loadPower s)) := by
  have hcontent : Stated.powerContent (loadPower s) = Stated.powerContent s := by simp [Stated.powerContent]
  rw [hcontent, loadPower, if_pos hlife, loadSlot_of_taken ((loadRefused_eq_false_iff s).mpr ⟨hlife, hcut⟩),
    ownContent_powerBody]
  rfl

/-- R168, R170, R173: what a recomputation outside a reading leaves, as O43 states it. -/
theorem recomputeAndAnnounce_spec {s : State} {own : PowerEntry} (hown : s.power.view[s.straps.node] = some own)
    (hle : own.floor ≤ own.desire) :
    Stated.regranted s s.freshEntries own (recomputeAndAnnounce s) ∧
      Stated.laneFollowsStep s (recomputeAndAnnounce s) ∧
      ((recomputeAndAnnounce s).power.step = s.power.step →
        (recomputeAndAnnounce s).slots = s.slots ∧ (recomputeAndAnnounce s).alarms = s.alarms) ∧
      ((recomputeAndAnnounce s).power.step ≠ s.power.step → s.loader.life = .running → s.spine.standing ≠ .cut →
        (recomputeAndAnnounce s).slots.power =
          s.slots.power.load (Stated.powerContent (recomputeAndAnnounce s))) := by
  by_cases hstep : (Machine.recompute s).power.step = s.power.step
  · have hafter : recomputeAndAnnounce s = Machine.recompute s := if_pos hstep
    rw [hafter]
    exact ⟨recompute_regranted hown hle, (LaneFalls.recompute s).follows, fun _ => recompute_of_step_kept hstep,
      fun hne => absurd hstep hne⟩
  · have hafter : recomputeAndAnnounce s = loadPower (Machine.recompute s) := if_neg hstep
    have hsame : LaneFalls (Machine.recompute s) (loadPower (Machine.recompute s)) :=
      .of_same (by simp) (by simp) (by simp) (by simp) (by simp) (by simp)
    have hpower : (loadPower (Machine.recompute s)).power = (Machine.recompute s).power := by simp
    rw [hafter]
    refine ⟨?_, ((LaneFalls.recompute s).trans hsame).follows, fun h => ?_, fun _ hlife hcut => ?_⟩
    · unfold Stated.regranted
      rw [hpower]
      exact recompute_regranted hown hle
    · rw [hpower] at h
      exact absurd h hstep
    · rw [loadPower_slots_power (by simpa using hlife) (by simpa using hcut)]
      simp

end Sys2Proof.Machine
end

