-- ==== Sys2Proof/Proofs/PowerView.lean ====
section
/-! PROOF. POWER messages and the expiry of entries (R163, R164). O43 rests on them. -/

namespace Sys2Proof.Machine

theorem putAt_eq_set {α : Type} {n : Nat} (v : Vector α n) (i : Fin n) (x : α) : putAt v i x = v.set i x := rfl

theorem powerMalformed_eq_false {rank : Rank} {body : List Byte} (hlength : body.length = 13)
    (htopic : rankTopic rank = 0) (hstep : (byteAt body 9).toNat ≤ 3)
    (hbattery : (byteAt body 12).toNat ≤ 100 ∨ byteAt body 12 = 255) : powerMalformed rank body = false := by
  have hlevel : (decide (100 < (byteAt body 12).toNat) && byteAt body 12 != 255) = false := by
    obtain h | h := hbattery
    · rw [decide_eq_false (Nat.not_lt.mpr h), Bool.false_and]
    · rw [h]
      rfl
  rw [powerMalformed, hlength, htopic, decide_eq_false (Nat.not_lt.mpr hstep), hlevel]
  rfl

/-- R164: a well formed POWER message sets its origin's entry. -/
theorem takePower_of_formed {rank : Rank} {body : List Byte} {o : Node} (h : powerMalformed rank body = false)
    (horigin : rankOrigin rank = o) (s : State) :
    takePower rank body s =
      recomputeAndAnnounce
        { s with
          power :=
            { s.power with
              view := s.power.view.set o (some (carriedEntry body s.time.localCount))
              taken := bump s.power.taken } } := by
  rw [takePower, h, horigin]
  rfl

/-- R163: the mark on an entry that is not fresh leaves the fresh entries. -/
theorem freshEntries_of_expired {s : State} {o : Node} {e : PowerEntry} (hother : o ≠ s.straps.node)
    (hentry : s.power.view[o] = some e) (hage : 16 * e.lastHeard + 3 * s.powerPeriod ≤ 16 * s.time.localCount) :
    Stated.freshEntries s (s.power.view.set o (some { e with expired := true })) =
      Stated.freshEntries s s.power.view := by
  unfold Stated.freshEntries
  congr 1
  funext n
  by_cases hn : n = o
  · have hstale : ¬ 16 * s.time.localCount < 16 * e.lastHeard + 3 * s.powerPeriod := Nat.not_lt.mpr hage
    subst hn
    have hset : (s.power.view.set n (some { e with expired := true }))[n] = some { e with expired := true } := by
      rw [← putAt_eq_set, getElem_putAt, if_pos rfl]
    rw [hset, hentry]
    dsimp only
    rw [if_neg (not_or.mpr ⟨hother, hstale⟩), if_neg (not_or.mpr ⟨hother, hstale⟩)]
  · have hset : (s.power.view.set o (some { e with expired := true }))[n] = s.power.view[n] := by
      rw [← putAt_eq_set, getElem_putAt, if_neg hn]
    rw [hset]

/-- R164: a POWER message. -/
theorem powerMessageSetsItsEntry (s : State) (m : Received) (o : Node) (hreceiving : Stated.receiving s)
    (hcheck : m.check = spineCheck m.rank m.body) (hrank : m.rank = BitVec.ofNat 12 (5 * 256 + o.val))
    (hother : o ≠ s.straps.node) (hlength : m.body.length = 13)
    (hstep : (byteAt m.body 9).toNat ≤ 3) (hbattery : (byteAt m.body 12).toNat ≤ 100 ∨ byteAt m.body 12 = 255)
    (hunit : Stated.toUnit s m.rank)
    (hstanding : standingOf s.spine.sfc (Stated.afterReceipt s.spine.tfc) s.spine.strain = s.spine.standing) :
    ∃ p k, p.standing = s.spine.standing ∧ exec (.messageTaken m) s = .next
      (recomputeAndAnnounce
        { s with
          spine := p
          intake := k
          power :=
            { s.power with
              view := s.power.view.set o (some (carriedEntry m.body s.time.localCount))
              taken := bump s.power.taken } }) := by
  have hnat : m.rank.toNat = 5 * 256 + o.val := by
    rw [hrank, BitVec.toNat_ofNat]
    omega
  have hclass : rankClass m.rank = 5 := by unfold rankClass; omega
  have htopic : rankTopic m.rank = 0 := by unfold rankTopic; omega
  have horigin : rankOrigin m.rank = o := (rankOrigin_eq_iff ..).mpr (by omega)
  obtain ⟨p, k, hkept, hexec⟩ := exec_messageTaken_of_unit (u := .power) hreceiving hcheck (by omega)
    (by rw [hnat]; intro h; exact hother (Fin.ext (by omega))) (by rw [unitFor, hclass] <;> rfl) hunit hstanding
  exact ⟨p, k, hkept, hexec.trans (congrArg Host.Outcome.next
    (takePower_of_formed (powerMalformed_eq_false hlength htopic hstep hbattery) horigin _))⟩

/-- R163: the expiry of an entry of another node that is out of time. -/
theorem exec_powerEntryExpiry {s : State} {o : Node} {e : PowerEntry} (hother : o ≠ s.straps.node)
    (hentry : s.power.view[o] = some e) (hnew : e.expired = false)
    (hage : 16 * e.lastHeard + 3 * s.powerPeriod ≤ 16 * s.time.localCount) :
    exec (.powerEntryExpiry o) s = .next
      (recomputeAndAnnounce
        { s with
          power :=
            { s.power with
              view := s.power.view.set o (some { e with expired := true })
              expired := bump s.power.expired } }) := by
  have hstale : s.powerAge e = false := decide_eq_false (Nat.not_lt.mpr hage)
  have hdue : s.entryDue o = true := by
    rw [State.entryDue, hentry]
    dsimp only
    rw [hstale, hnew, bne_iff_ne.mpr hother]
    rfl
  have hmarked : (s.power.view[o].map fun e => { e with expired := true }) = some { e with expired := true } := by
    rw [hentry]
    rfl
  have hexpire := congrArg
    (fun x => recomputeAndAnnounce
      { s with power := { s.power with view := s.power.view.set o x, expired := bump s.power.expired } }) hmarked
  exact congrArg Host.Outcome.next ((if_pos hdue).trans hexpire)

/-- R163, R168: a recomputation leaves the entries and their counters. -/
theorem recomputeAndAnnounce_entries (s : State) :
    (recomputeAndAnnounce s).power.view = s.power.view ∧ (recomputeAndAnnounce s).power.taken = s.power.taken ∧
      (recomputeAndAnnounce s).power.expired = s.power.expired := by
  have hregrant : (regrant s).power.view = s.power.view ∧ (regrant s).power.taken = s.power.taken ∧
      (regrant s).power.expired = s.power.expired := by
    unfold regrant
    dsimp only
    split
    · split <;> exact ⟨rfl, rfl, rfl⟩
    · rw [updPower_power, Power.holdOver]
      split
      · split <;> exact ⟨rfl, rfl, rfl⟩
      · exact ⟨rfl, rfl, rfl⟩
  have hrecompute : (recompute s).power.view = s.power.view ∧ (recompute s).power.taken = s.power.taken ∧
      (recompute s).power.expired = s.power.expired := by
    rw [recompute, fallToTarget_power_eq]
    split <;> exact hregrant
  unfold recomputeAndAnnounce
  dsimp only
  split
  · exact hrecompute
  · simpa using hrecompute

@[simp] theorem recomputeAndAnnounce_laneRx (s : State) : (recomputeAndAnnounce s).laneRx = s.laneRx := by
  unfold recomputeAndAnnounce
  dsimp only
  split <;> simp

@[simp] theorem recomputeAndAnnounce_store (s : State) : (recomputeAndAnnounce s).store = s.store := by
  unfold recomputeAndAnnounce
  dsimp only
  split <;> simp

/-- Settles O43: a POWER message and the expiry of an entry. -/
theorem powerViewChangesRegrant : Obligations.PowerViewChangesRegrant := by
  refine ⟨?_, ?_⟩
  · intro s m o own hreceiving hcheck hrank hother hlength hstep hbattery hunit hstanding hown hle entry
    obtain ⟨p, k, hkept, hexec⟩ := powerMessageSetsItsEntry s m o hreceiving hcheck hrank hother hlength hstep hbattery
      hunit hstanding
    obtain ⟨u, hu⟩ : ∃ u : State, u =
        { s with
          spine := p
          intake := k
          power := { s.power with view := s.power.view.set o (some entry), taken := bump s.power.taken } } := ⟨_, rfl⟩
    have hexec : exec (.messageTaken m) s = .next (recomputeAndAnnounce u) := by
      rw [hu]
      exact hexec
    have hown' : u.power.view[u.straps.node] = some own := by
      subst hu
      have hset : (putAt s.power.view o (some entry))[s.straps.node] = some own := by
        rw [getElem_putAt, if_neg hother.symm, hown]
      exact hset
    have hfresh : u.freshEntries = Stated.freshEntries s (s.power.view.set o (some entry)) := by
      rw [freshEntries_eq_stated, hu]
      rfl
    obtain ⟨hview, htaken, -⟩ := recomputeAndAnnounce_entries u
    obtain ⟨hregranted, hlane, hsame, hmoved⟩ := recomputeAndAnnounce_spec hown' hle
    rw [hfresh] at hregranted
    refine ⟨_, hexec, ?_, ?_, ?_, ?_, ?_, ?_, ?_⟩
    · rw [hview, hu]
    · rw [htaken, hu]
    · subst hu
      exact hregranted
    · subst hu
      exact hlane
    · subst hu
      exact hsame
    · subst hu
      exact fun hne hlife hcut => hmoved hne hlife (hkept ▸ hcut)
    · apply State.ext_parts <;> simp [hu]
  · intro s o e own hother hentry hnew hage hown hle
    obtain ⟨u, hu⟩ : ∃ u : State, u =
        { s with
          power :=
            { s.power with
              view := s.power.view.set o (some { e with expired := true })
              expired := bump s.power.expired } } := ⟨_, rfl⟩
    have hexec : exec (.powerEntryExpiry o) s = .next (recomputeAndAnnounce u) := by
      rw [hu]
      exact exec_powerEntryExpiry hother hentry hnew hage
    have hown' : u.power.view[u.straps.node] = some own := by
      subst hu
      have hset : (putAt s.power.view o (some { e with expired := true }))[s.straps.node] = some own := by
        rw [getElem_putAt, if_neg hother.symm, hown]
      exact hset
    have hfresh : u.freshEntries = Stated.freshEntries s s.power.view := by
      rw [freshEntries_eq_stated, ← freshEntries_of_expired hother hentry hage, hu]
      rfl
    obtain ⟨hview, -, hexpired⟩ := recomputeAndAnnounce_entries u
    obtain ⟨hregranted, hlane, hsame, hmoved⟩ := recomputeAndAnnounce_spec hown' hle
    rw [hfresh] at hregranted
    refine ⟨_, hexec, ?_, ?_, ?_, ?_, ?_, ?_, ?_⟩
    · rw [hview, hu]
    · rw [hexpired, hu]
    · subst hu
      exact hregranted
    · subst hu
      exact hlane
    · subst hu
      exact hsame
    · subst hu
      exact hmoved
    · apply State.ext_parts <;> simp [hu]

end Sys2Proof.Machine
end

