-- ==== Sys2Proof/Proofs/LoadTests.lean ====
section
/-! PROOF. The tests of a reading's load and the step settled after them (R166, R170 to R172). -/

namespace Sys2Proof.Machine

/-! ### What a move of the step leaves -/

@[simp] theorem setStep_overdraw (v : Fin 4) (s : State) :
    (setStep v s).isLatched .overdraw = s.isLatched .overdraw := by
  by_cases h : s.power.step = v
  · rw [setStep_of_eq h]
  · rw [setStep_of_ne h]
    exact setCondition_latched_of_ne (f := .lane) (g := .overdraw) (by decide) _ _

theorem fallToTarget_overdraw (s : State) : (fallToTarget s).isLatched .overdraw = s.isLatched .overdraw := by
  unfold fallToTarget
  split
  · exact setStep_overdraw ..
  · rfl

/-- R171, R172: nothing that the tests and the step change is in `get`. -/
def StepFree {α : Type} (get : Power → α) : Prop :=
  ∀ (p : Power) (step : Fin 4) (rise yellow : Nat) (falls rises yellows reds : Counter),
    get { p with step := step, rise := rise, yellow := yellow, stepFalls := falls, stepRises := rises
                 yellowEvents := yellows, redEvents := reds } = get p

/-- R170: nothing that the step settled changes is in `get`. -/
def RiseFree {α : Type} (get : Power → α) : Prop :=
  ∀ (p : Power) (step : Fin 4) (rise : Nat) (falls rises : Counter),
    get { p with step := step, rise := rise, stepFalls := falls, stepRises := rises } = get p

theorem StepFree.riseFree {α : Type} {get : Power → α} (h : StepFree get) : RiseFree get :=
  fun p step rise falls rises => h p step rise p.yellow falls rises p.yellowEvents p.redEvents

/-! ### The tests -/

/-- R172: the load that came is above grant + Rd. -/
def State.redNow (s : State) (came : Bool) : Prop := came = true ∧ s.power.grant + s.power.settings.red < s.power.load

/-- R171: the load that came is above grant + Y. -/
def State.yellowNow (s : State) (came : Bool) : Prop :=
  came = true ∧ s.power.grant + s.power.settings.yellow < s.power.load

/-- R166: the state after step 5 of a reading. -/
def tested (came : Bool) (s : State) : State := if came then overdrawTests s else s

theorem redActs_power (s : State) :
    (redActs s).power =
      { s.power with step := 0, rise := 0, yellow := 0, redEvents := bump s.power.redEvents } := by
  simp [redActs, setStep_power]

theorem redActs_overdraw (s : State) : (redActs s).isLatched .overdraw = true := by
  rw [redActs, State.isLatched, has, latch_latched, BitVec.getLsbD_or, getLsbD_number_mask, Bool.or_true]

theorem tested_of_red {came : Bool} {s : State} (hred : s.redNow came) : tested came s = redActs s := by
  obtain ⟨rfl, hred⟩ := hred
  exact if_pos hred

/-- R171: the second load in a row above grant + Y lowers the step. -/
theorem tested_of_fall {came : Bool} {s : State} (hred : ¬ s.redNow came) (hyellow : s.yellowNow came)
    (hsecond : s.power.yellow ≠ 0) (hstep : s.power.step ≠ 0) :
    tested came s =
      setStep (s.power.step - 1)
        { s with
          power :=
            { s.power with
              yellow := 0
              yellowEvents := bump s.power.yellowEvents
              stepFalls := bump s.power.stepFalls } } := by
  obtain ⟨rfl, hyellow⟩ := hyellow
  have hnot : ¬ s.power.grant + s.power.settings.red < s.power.load := fun h => hred ⟨rfl, h⟩
  have htests : overdrawTests s = yellowActs s := (if_neg hnot).trans (if_pos hyellow)
  have hmore : ¬ s.power.yellow + 1 < 2 := by omega
  have hacts : yellowActs s =
      yellowFall (s.updPower fun p => { p with yellow := 0, yellowEvents := bump p.yellowEvents }) := if_neg hmore
  exact htests.trans (hacts.trans (if_neg hstep))

theorem yellowLowers_of_fall {came : Bool} {s : State} (hred : ¬ s.redNow came) (hyellow : s.yellowNow came)
    (hsecond : s.power.yellow ≠ 0) (hstep : s.power.step ≠ 0) : (came && yellowLowers s) = true := by
  obtain ⟨rfl, hyellow⟩ := hyellow
  have hnot : ¬ s.power.grant + s.power.settings.red < s.power.load := fun h => hred ⟨rfl, h⟩
  have hmore : 2 ≤ s.power.yellow + 1 := by omega
  rw [yellowLowers]
  rw [decide_eq_false hnot, decide_eq_true hyellow, decide_eq_true hmore, bne_iff_ne.mpr hstep]
  rfl

/-- R171: the tests in which the step stays. -/
theorem tested_of_stay {came : Bool} {s : State} (hred : ¬ s.redNow came)
    (hstay : ¬ s.yellowNow came ∨ s.power.yellow = 0 ∨ s.power.step = 0) :
    ∃ yellow yellows,
      tested came s = { s with power := { s.power with yellow := yellow, yellowEvents := yellows } } ∧
        (¬ s.yellowNow came → yellow = (if came then 0 else s.power.yellow) ∧ yellows = s.power.yellowEvents) ∧
        (s.yellowNow came → yellow = (if s.power.yellow = 0 then 1 else 0) ∧
          yellows = bump s.power.yellowEvents) := by
  cases came with
  | false => exact ⟨_, _, rfl, fun _ => ⟨rfl, rfl⟩, fun ⟨h, _⟩ => nomatch h⟩
  | true =>
    have hnot : ¬ s.power.grant + s.power.settings.red < s.power.load := fun h => hred ⟨rfl, h⟩
    by_cases hyellow : s.power.grant + s.power.settings.yellow < s.power.load
    · have htests : overdrawTests s = yellowActs s := (if_neg hnot).trans (if_pos hyellow)
      by_cases hfirst : s.power.yellow = 0
      · have hone : s.power.yellow + 1 < 2 := by omega
        refine ⟨_, _, htests.trans (if_pos hone), fun h => absurd ⟨rfl, hyellow⟩ h, fun _ => ⟨?_, rfl⟩⟩
        rw [if_pos hfirst]
        change s.power.yellow + 1 = 1
        rw [hfirst]
      · have hmore : ¬ s.power.yellow + 1 < 2 := by omega
        have hzero : s.power.step = 0 := (hstay.resolve_left fun h => h ⟨rfl, hyellow⟩).resolve_left hfirst
        have hacts : yellowActs s =
            yellowFall (s.updPower fun p => { p with yellow := 0, yellowEvents := bump p.yellowEvents }) := if_neg hmore
        exact ⟨_, _, htests.trans (hacts.trans (if_pos hzero)), fun h => absurd ⟨rfl, hyellow⟩ h,
          fun _ => ⟨(if_neg hfirst).symm, rfl⟩⟩
    · exact ⟨_, _, (if_neg hnot).trans (if_neg hyellow), fun _ => ⟨rfl, rfl⟩, fun ⟨_, h⟩ => absurd h hyellow⟩

theorem yellowLowers_of_stay {came : Bool} {s : State}
    (hstay : ¬ s.yellowNow came ∨ s.power.yellow = 0 ∨ s.power.step = 0) : (came && yellowLowers s) = false := by
  rw [Bool.eq_false_iff]
  intro h
  simp only [yellowLowers, Bool.and_eq_true, decide_eq_true_eq, bne_iff_ne] at h
  obtain ⟨hcame, ⟨⟨-, hyellow⟩, hmore⟩, hstep⟩ := h
  obtain h | h | h := hstay
  · exact h ⟨hcame, hyellow⟩
  · omega
  · exact hstep h

/-! ### The step settled -/

/-- R166, R170: the step settled where it is at or below its target. -/
theorem settleStep_of_le {s : State} (fell : Bool) (hle : s.power.step ≤ s.target) :
    settleStep fell s =
      if s.isLatched .overdraw then setStep 0 (s.updPower fun p => { p with rise := 0 })
      else if fell then s.updPower fun p => { p with rise := 0 }
      else riseStep s := by
  rw [settleStep, fallToTarget_of_le hle]

theorem settleStep_of_latched {s : State} (fell : Bool) (hle : s.power.step ≤ s.target)
    (hlatched : s.isLatched .overdraw = true) :
    settleStep fell s = setStep 0 { s with power := { s.power with rise := 0 } } :=
  (settleStep_of_le fell hle).trans (if_pos hlatched)

theorem settleStep_of_fell {s : State} (hle : s.power.step ≤ s.target) (hcalm : s.isLatched .overdraw = false) :
    settleStep true s = { s with power := { s.power with rise := 0 } } :=
  (settleStep_of_le true hle).trans ((if_neg (by rw [hcalm]; nofun)).trans (if_pos rfl))

theorem settleStep_of_calm {s : State} (hle : s.power.step ≤ s.target) (hcalm : s.isLatched .overdraw = false) :
    settleStep false s = riseStep s :=
  (settleStep_of_le false hle).trans ((if_neg (by rw [hcalm]; nofun)).trans (if_neg nofun))

theorem riseStep_of_at {s : State} (h : s.target ≤ s.power.step) :
    riseStep s = { s with power := { s.power with rise := 0 } } := if_neg (Fin.not_lt.mpr h)

theorem riseStep_of_wait {s : State} (h : s.power.step < s.target) (hrise : s.power.rise < 2) :
    riseStep s = { s with power := { s.power with rise := s.power.rise + 1 } } :=
  (if_pos h).trans (if_pos (Nat.succ_lt_succ hrise))

theorem riseStep_of_third {s : State} (h : s.power.step < s.target) (hrise : 2 ≤ s.power.rise) :
    riseStep s =
      setStep (s.power.step + 1)
        { s with power := { s.power with rise := 0, stepRises := bump s.power.stepRises } } :=
  (if_pos h).trans (if_neg (Nat.not_lt.mpr (Nat.succ_le_succ hrise)))

/-- R170, R171, R172: the step, the rise count and the events when the step has been settled. -/
theorem settleStep_spec {s : State} (fell : Bool) (hle : s.power.step ≤ s.target) :
    (s.isLatched .overdraw = true →
      (settleStep fell s).power.step = 0 ∧ (settleStep fell s).power.rise = 0) ∧
    (s.isLatched .overdraw = false → fell = true →
      (settleStep fell s).power.step = s.power.step ∧ (settleStep fell s).power.rise = 0) ∧
    (s.isLatched .overdraw = false → fell = false →
      (s.target ≤ s.power.step →
        (settleStep fell s).power.step = s.power.step ∧ (settleStep fell s).power.rise = 0) ∧
      (s.power.step < s.target → s.power.rise < 2 →
        (settleStep fell s).power.step = s.power.step ∧ (settleStep fell s).power.rise = s.power.rise + 1) ∧
      (s.power.step < s.target → 2 ≤ s.power.rise →
        (settleStep fell s).power.step = s.power.step + 1 ∧ (settleStep fell s).power.rise = 0 ∧
          (settleStep fell s).power.stepRises = bump s.power.stepRises)) := by
  refine ⟨fun hlatched => ?_, fun hcalm hfell => ?_, fun hcalm hfell => ⟨fun hat => ?_, fun hbelow hrise => ?_,
    fun hbelow hrise => ?_⟩⟩
  · rw [settleStep_of_latched fell hle hlatched, setStep_power]
    exact ⟨rfl, rfl⟩
  · rw [hfell, settleStep_of_fell hle hcalm]
    exact ⟨rfl, rfl⟩
  · rw [hfell, settleStep_of_calm hle hcalm, riseStep_of_at hat]
    exact ⟨rfl, rfl⟩
  · rw [hfell, settleStep_of_calm hle hcalm, riseStep_of_wait hbelow hrise]
    exact ⟨rfl, rfl⟩
  · rw [hfell, settleStep_of_calm hle hcalm, riseStep_of_third hbelow hrise, setStep_power]
    exact ⟨rfl, rfl, rfl⟩

/-- R170: the step settles at most one above, and only where nothing holds it. -/
theorem laneFalls_settleStep {s : State} (fell : Bool) (hle : s.power.step ≤ s.target)
    (h : s.isLatched .overdraw = true ∨ fell = true ∨ s.target ≤ s.power.step) : LaneFalls s (settleStep fell s) := by
  have hrise (rise : Nat) : LaneFalls s { s with power := { s.power with rise := rise } } :=
    .of_same rfl rfl rfl rfl rfl rfl
  cases hlatched : s.isLatched .overdraw with
  | true =>
    rw [settleStep_of_latched fell hle hlatched]
    exact (hrise 0).trans (.setStep (Fin.zero_le _))
  | false =>
    cases fell with
    | true =>
      rw [settleStep_of_fell hle hlatched]
      exact hrise 0
    | false =>
      rw [settleStep_of_calm hle hlatched, riseStep_of_at ((h.resolve_left (by simp [hlatched])).resolve_left nofun)]
      exact hrise 0

/-- R103, R170, R174: the lane follows the step that a reading settles. -/
theorem laneFollowsStep_settleStep {r s : State} (fell : Bool) (hle : s.power.step ≤ s.target) (h : LaneFalls r s)
    (hsame : s.isLatched .overdraw = false → fell = false → s.power.step < s.target →
      s.power.step = r.power.step) : Stated.laneFollowsStep r (settleStep fell s) := by
  by_cases hholds : s.isLatched .overdraw = true ∨ fell = true ∨ s.target ≤ s.power.step
  · exact (h.trans (laneFalls_settleStep fell hle hholds)).follows
  · obtain ⟨hcalm, hrest⟩ := not_or.mp hholds
    obtain ⟨hfell, hbelow⟩ := not_or.mp hrest
    have hcalm : s.isLatched .overdraw = false := by simpa using hcalm
    have hfell : fell = false := by simpa using hfell
    have hbelow : s.power.step < s.target := not_le.mp hbelow
    have hstep := hsame hcalm hfell hbelow
    rw [hfell, settleStep_of_calm hle hcalm]
    by_cases hrise : s.power.rise < 2
    · rw [riseStep_of_wait hbelow hrise]
      exact (h.trans (.of_same rfl rfl rfl rfl rfl rfl)).follows
    · rw [riseStep_of_third hbelow (not_lt.mp hrise)]
      obtain ⟨u, hu⟩ : ∃ u : State, u =
          { s with power := { s.power with rise := 0, stepRises := bump s.power.stepRises } } := ⟨_, rfl⟩
      have hlane : LaneFalls r u := h.trans (by subst hu; exact .of_same rfl rfl rfl rfl rfl rfl)
      rw [← hu]
      exact hlane.follows_of_stays (by rw [hu]; exact hstep) (laneFollowsStep_setStep ..)

/-! ### What the tests and the step settled leave -/

theorem RiseFree.setStep {α : Type} {get : Power → α} (h : RiseFree get) (v : Fin 4) (s : State) :
    get (Machine.setStep v s).power = get s.power := by
  rw [setStep_power]
  exact h s.power v _ _ _

theorem RiseFree.fallToTarget {α : Type} {get : Power → α} (h : RiseFree get) (s : State) :
    get (Machine.fallToTarget s).power = get s.power := by
  rw [fallToTarget_power_eq]
  split
  · exact h s.power _ _ _ _
  · rfl

theorem StepFree.tested {α : Type} {get : Power → α} (h : StepFree get) (came : Bool) (s : State) :
    get (tested came s).power = get s.power := by
  by_cases hred : s.redNow came
  · rw [tested_of_red hred, redActs_power]
    exact h s.power _ _ _ _ _ _ _
  · by_cases hstay : ¬ s.yellowNow came ∨ s.power.yellow = 0 ∨ s.power.step = 0
    · obtain ⟨yellow, yellows, htested, -⟩ := tested_of_stay hred hstay
      rw [htested]
      exact h s.power _ _ _ _ _ _ _
    · obtain ⟨hyellow, hrest⟩ := not_or.mp hstay
      obtain ⟨hsecond, hstep⟩ := not_or.mp hrest
      rw [tested_of_fall hred (not_not.mp hyellow) hsecond hstep, setStep_power]
      exact h s.power _ _ _ _ _ _ _

theorem RiseFree.settleStep {α : Type} {get : Power → α} (h : RiseFree get) (fell : Bool) (s : State) :
    get (Machine.settleStep fell s).power = get s.power := by
  refine Eq.trans ?_ (h.fallToTarget s)
  obtain ⟨u, hu⟩ : ∃ u, u = Machine.fallToTarget s := ⟨_, rfl⟩
  rw [Machine.settleStep, ← hu]
  split
  · exact (h.setStep 0 _).trans (h u.power _ _ _ _)
  · split
    · exact h u.power _ _ _ _
    · unfold riseStep
      split
      · split
        · exact h u.power _ _ _ _
        · exact (h.setStep _ _).trans (h u.power _ _ _ _)
      · exact h u.power _ _ _ _

@[simp] theorem riseStep_slots_power (s : State) : (riseStep s).slots.power = s.slots.power := by
  unfold riseStep
  split
  · split <;> simp
  · rfl

@[simp] theorem riseStep_laneRx (s : State) : (riseStep s).laneRx = s.laneRx := by
  unfold riseStep
  split
  · split <;> simp
  · rfl

@[simp] theorem riseStep_store (s : State) : (riseStep s).store = s.store := by
  unfold riseStep
  split
  · split <;> simp
  · rfl

@[simp] theorem settleStep_slots_power (fell : Bool) (s : State) :
    (Machine.settleStep fell s).slots.power = s.slots.power := by
  unfold Machine.settleStep
  dsimp only
  split
  · simp
  · split <;> simp

@[simp] theorem settleStep_laneRx (fell : Bool) (s : State) : (Machine.settleStep fell s).laneRx = s.laneRx := by
  unfold Machine.settleStep
  dsimp only
  split
  · simp
  · split <;> simp

@[simp] theorem settleStep_store (fell : Bool) (s : State) : (Machine.settleStep fell s).store = s.store := by
  unfold Machine.settleStep
  dsimp only
  split
  · simp
  · split <;> simp

theorem settleStep_overdraw (fell : Bool) (s : State) :
    (Machine.settleStep fell s).isLatched .overdraw = s.isLatched .overdraw := by
  have hrise (u : State) : (riseStep u).isLatched .overdraw = u.isLatched .overdraw := by
    unfold riseStep
    split
    · split
      · rfl
      · exact setStep_overdraw ..
    · rfl
  refine Eq.trans ?_ (fallToTarget_overdraw s)
  obtain ⟨u, hu⟩ : ∃ u, u = Machine.fallToTarget s := ⟨_, rfl⟩
  rw [Machine.settleStep, ← hu]
  split
  · exact setStep_overdraw ..
  · split
    · rfl
    · exact hrise u

/-- What the tests leave of the rest of the state (R171, R172). -/
theorem tested_rest (came : Bool) (s : State) :
    (tested came s).slots.power = s.slots.power ∧ (tested came s).laneRx = s.laneRx ∧
      (tested came s).store = s.store ∧ LaneFalls s (tested came s) := by
  by_cases hred : s.redNow came
  · rw [tested_of_red hred]
    obtain ⟨u, hu⟩ : ∃ u, u = setStep 0 s := ⟨_, rfl⟩
    have hfall : LaneFalls s u := hu ▸ .setStep (Fin.zero_le _)
    have hlatch : LaneFalls u (redActs s) := by
      refine .of_same ?_ ?_ ?_ ?_ ?_ ?_
      · simp [redActs, hu]
      · simp [redActs, hu]
      · simp [redActs, hu]
      · simp [redActs, hu]
      · simp [redActs, hu]
      · simp [redActs, hu, latch_present]
    exact ⟨by simp [redActs], by simp [redActs], by simp [redActs], hfall.trans hlatch⟩
  · by_cases hstay : ¬ s.yellowNow came ∨ s.power.yellow = 0 ∨ s.power.step = 0
    · obtain ⟨yellow, yellows, htested, -⟩ := tested_of_stay hred hstay
      rw [htested]
      exact ⟨rfl, rfl, rfl, .of_same rfl rfl rfl rfl rfl rfl⟩
    · obtain ⟨hyellow, hrest⟩ := not_or.mp hstay
      obtain ⟨hsecond, hstep⟩ := not_or.mp hrest
      rw [tested_of_fall hred (not_not.mp hyellow) hsecond hstep]
      obtain ⟨u, hu⟩ : ∃ u : State, u =
          { s with
            power :=
              { s.power with
                yellow := 0
                yellowEvents := bump s.power.yellowEvents
                stepFalls := bump s.power.stepFalls } } := ⟨_, rfl⟩
      have hsame : LaneFalls s u := by
        subst hu
        exact .of_same rfl rfl rfl rfl rfl rfl
      have hle : s.power.step - 1 ≤ u.power.step := by
        subst hu
        change s.power.step - 1 ≤ s.power.step
        omega
      rw [← hu]
      refine ⟨?_, ?_, ?_, hsame.trans (.setStep hle)⟩
      · rw [setStep_slots_power, hu]
      · rw [setStep_laneRx, hu]
      · rw [setStep_store, hu]

@[simp] theorem tested_frame (c : Bool) (s : State) :
    (tested c s).pending = s.pending ∧ (tested c s).free = s.free ∧ (tested c s).pins = s.pins ∧
    (tested c s).straps = s.straps ∧ (tested c s).loader = s.loader ∧ (tested c s).spine = s.spine ∧
    (tested c s).intake = s.intake ∧ (tested c s).cmd = s.cmd ∧ (tested c s).time = s.time ∧
    (tested c s).sched = s.sched ∧ (tested c s).motion = s.motion ∧ (tested c s).dials = s.dials ∧
    (tested c s).scan = s.scan ∧ (tested c s).audio = s.audio ∧ (tested c s).port = s.port := by
  unfold tested
  split <;> simp

@[simp] theorem tested_slots_power (came : Bool) (s : State) : (tested came s).slots.power = s.slots.power := by
  obtain ⟨h, -⟩ := tested_rest came s
  exact h

@[simp] theorem tested_laneRx (came : Bool) (s : State) : (tested came s).laneRx = s.laneRx := by
  obtain ⟨-, h, -⟩ := tested_rest came s
  exact h

@[simp] theorem tested_store (came : Bool) (s : State) : (tested came s).store = s.store := by
  obtain ⟨-, -, h, -⟩ := tested_rest came s
  exact h

/-! ### The tests with the step settled after them -/

/-- R166: the state after steps 5 and 6 of a reading. -/
def settledFrom (came : Bool) (s : State) : State :=
  Machine.settleStep (came && yellowLowers s) (Machine.tested came s)

/-- The events, which the step settled leaves as the tests left them. -/
theorem settleStep_events (fell : Bool) (s : State) :
    (Machine.settleStep fell s).power.yellow = s.power.yellow ∧
      (Machine.settleStep fell s).power.yellowEvents = s.power.yellowEvents ∧
      (Machine.settleStep fell s).power.redEvents = s.power.redEvents :=
  ⟨RiseFree.settleStep (get := (·.yellow)) (fun _ _ _ _ _ => rfl) fell s,
    RiseFree.settleStep (get := (·.yellowEvents)) (fun _ _ _ _ _ => rfl) fell s,
    RiseFree.settleStep (get := (·.redEvents)) (fun _ _ _ _ _ => rfl) fell s⟩

/-- R172: the red margin acts. -/
theorem settledFrom_of_red {came : Bool} {s : State} (hred : s.redNow came) :
    (settledFrom came s).power.step = 0 ∧ (settledFrom came s).power.rise = 0 ∧
      (settledFrom came s).power.yellow = 0 ∧ (settledFrom came s).power.redEvents = bump s.power.redEvents ∧
      (settledFrom came s).power.yellowEvents = s.power.yellowEvents ∧
      (settledFrom came s).isLatched .overdraw = true := by
  obtain ⟨u, hu⟩ : ∃ u, u = redActs s := ⟨_, rfl⟩
  have hpower : u.power =
      { s.power with step := 0, rise := 0, yellow := 0, redEvents := bump s.power.redEvents } := by
    rw [hu, redActs_power]
  have hlatched : u.isLatched .overdraw = true := by
    rw [hu, redActs_overdraw]
  have hle : u.power.step ≤ u.target := by
    rw [hpower]
    exact Fin.zero_le _
  obtain ⟨hstep, -⟩ := settleStep_spec (came && yellowLowers s) hle
  obtain ⟨hyellow, hyellows, hreds⟩ := settleStep_events (came && yellowLowers s) u
  rw [settledFrom, tested_of_red hred, ← hu, settleStep_overdraw, hyellow, hyellows, hreds, hpower]
  obtain ⟨hzero, hrise⟩ := hstep hlatched
  exact ⟨hzero, hrise, rfl, rfl, rfl, hlatched⟩

/-- R171: the yellow margin lowers the step. -/
theorem settledFrom_of_fall {came : Bool} {s : State} (hle : s.power.step ≤ s.target) (hred : ¬ s.redNow came)
    (hyellow : s.yellowNow came) (hsecond : s.power.yellow ≠ 0) (hstep : s.power.step ≠ 0) :
    (settledFrom came s).power.redEvents = s.power.redEvents ∧
      (settledFrom came s).isLatched .overdraw = s.isLatched .overdraw ∧
      (settledFrom came s).power.yellow = 0 ∧ (settledFrom came s).power.yellowEvents = bump s.power.yellowEvents ∧
      (s.isLatched .overdraw = true →
        (settledFrom came s).power.step = 0 ∧ (settledFrom came s).power.rise = 0) ∧
      (s.isLatched .overdraw = false →
        (settledFrom came s).power.step = s.power.step - 1 ∧ (settledFrom came s).power.rise = 0) := by
  obtain ⟨u, hu⟩ : ∃ u, u = Machine.tested came s := ⟨_, rfl⟩
  have htested := hu.trans (tested_of_fall hred hyellow hsecond hstep)
  have hpower : u.power =
      { s.power with
        yellow := 0
        yellowEvents := bump s.power.yellowEvents
        stepFalls := bump s.power.stepFalls
        step := s.power.step - 1 } := by
    rw [htested, setStep_power]
  have hlatched : u.isLatched .overdraw = s.isLatched .overdraw := by
    rw [htested, setStep_overdraw]
    rfl
  have hbelow : u.power.step ≤ u.target := by
    have htarget : u.target = s.target := by
      rw [target_eq, hpower]
      rfl
    rw [htarget, hpower]
    change s.power.step - 1 ≤ s.target
    omega
  obtain ⟨hzero, hfell, -⟩ := settleStep_spec true hbelow
  obtain ⟨hy, hyellows, hreds⟩ := settleStep_events true u
  rw [settledFrom, yellowLowers_of_fall hred hyellow hsecond hstep, ← hu, settleStep_overdraw, hy, hyellows, hreds,
    hlatched]
  refine ⟨by rw [hpower], rfl, by rw [hpower], by rw [hpower], fun h => hzero (hlatched.trans h), fun h => ?_⟩
  obtain ⟨hkept, hrise⟩ := hfell (hlatched.trans h) rfl
  exact ⟨hkept.trans (by rw [hpower]), hrise⟩

/-- R170, R171: the tests leave the step, which may rise. -/
theorem settledFrom_of_stay {came : Bool} {s : State} (hle : s.power.step ≤ s.target) (hred : ¬ s.redNow came)
    (hstay : ¬ s.yellowNow came ∨ s.power.yellow = 0 ∨ s.power.step = 0) :
    (settledFrom came s).power.redEvents = s.power.redEvents ∧
      (settledFrom came s).isLatched .overdraw = s.isLatched .overdraw ∧
      (¬ s.yellowNow came → (settledFrom came s).power.yellow = (if came then 0 else s.power.yellow) ∧
        (settledFrom came s).power.yellowEvents = s.power.yellowEvents) ∧
      (s.yellowNow came → (settledFrom came s).power.yellow = (if s.power.yellow = 0 then 1 else 0) ∧
        (settledFrom came s).power.yellowEvents = bump s.power.yellowEvents) ∧
      (s.isLatched .overdraw = true →
        (settledFrom came s).power.step = 0 ∧ (settledFrom came s).power.rise = 0) ∧
      (s.isLatched .overdraw = false →
        (s.target ≤ s.power.step →
          (settledFrom came s).power.step = s.power.step ∧ (settledFrom came s).power.rise = 0) ∧
        (s.power.step < s.target → s.power.rise < 2 →
          (settledFrom came s).power.step = s.power.step ∧
            (settledFrom came s).power.rise = s.power.rise + 1) ∧
        (s.power.step < s.target → 2 ≤ s.power.rise →
          (settledFrom came s).power.step = s.power.step + 1 ∧ (settledFrom came s).power.rise = 0 ∧
            (settledFrom came s).power.stepRises = bump s.power.stepRises)) := by
  obtain ⟨yellow, yellows, htested, hcalm, hover⟩ := tested_of_stay hred hstay
  obtain ⟨u, hu⟩ : ∃ u, u = Machine.tested came s := ⟨_, rfl⟩
  have hstate := hu.trans htested
  have hpower : u.power = { s.power with yellow := yellow, yellowEvents := yellows } := by rw [hstate]
  have hlatched : u.isLatched .overdraw = s.isLatched .overdraw := by
    rw [hstate]
    rfl
  have htarget : u.target = s.target := by
    rw [target_eq, hpower]
    rfl
  have hspec := settleStep_spec false (s := u) (by rw [htarget, hpower]; exact hle)
  obtain ⟨hy, hyellows, hreds⟩ := settleStep_events false u
  rw [hlatched, htarget, hpower] at hspec
  obtain ⟨hzero, -, hsettles⟩ := hspec
  rw [settledFrom, yellowLowers_of_stay hstay, ← hu, settleStep_overdraw, hy, hyellows, hreds, hlatched, hpower]
  exact ⟨rfl, rfl, hcalm, hover, hzero, fun h => hsettles h rfl⟩

/-- R103, R174: the lane follows the step over the tests and the step settled. -/
theorem laneFollowsStep_settledFrom {came : Bool} {r s : State} (hle : s.power.step ≤ s.target) (h : LaneFalls r s)
    (hsame : s.power.step < s.target → s.power.step = r.power.step) :
    Stated.laneFollowsStep r (settledFrom came s) := by
  obtain ⟨-, -, -, hfalls⟩ := tested_rest came s
  have htarget : (Machine.tested came s).target = s.target := by
    have hsettings := StepFree.tested (get := (·.settings)) (fun _ _ _ _ _ _ _ _ => rfl) came s
    have hgrant := StepFree.tested (get := (·.grant)) (fun _ _ _ _ _ _ _ _ => rfl) came s
    rw [target_eq, target_eq, hsettings, hgrant]
  refine laneFollowsStep_settleStep _ (by rw [htarget]; exact hfalls.le.trans hle) (h.trans hfalls)
    fun hcalm hfell hbelow => ?_
  by_cases hred : s.redNow came
  · rw [tested_of_red hred, redActs_overdraw] at hcalm
    nomatch hcalm
  · by_cases hstay : ¬ s.yellowNow came ∨ s.power.yellow = 0 ∨ s.power.step = 0
    · obtain ⟨yellow, yellows, htested, -⟩ := tested_of_stay hred hstay
      rw [htarget] at hbelow
      rw [htested] at hbelow ⊢
      exact hsame hbelow
    · obtain ⟨hyellow, hrest⟩ := not_or.mp hstay
      obtain ⟨hsecond, hstep⟩ := not_or.mp hrest
      rw [yellowLowers_of_fall hred (not_not.mp hyellow) hsecond hstep] at hfell
      nomatch hfell

end Sys2Proof.Machine
end

