-- ==== Sys2Proof/Proofs/Readings.lean ====
section
/-! PROOF. The completion of a reading up to its tests: the answers taken, the battery marks, the own entry and the
holdover count (R165 to R169). -/

namespace Sys2Proof.Machine

/-! ### The answers -/

theorem meterValue_eq {α : Type} (x : MeterAnswer α) : meterValue x = Stated.value x := by
  cases x <;> rfl

theorem answered_iff {α : Type} (x : MeterAnswer α) : x.answered = true ↔ x ≠ .awaited := by
  cases x <;> simp [MeterAnswer.answered]

theorem joinAnswer_eq {α : Type} [DecidableEq α] (held new : MeterAnswer α) :
    joinAnswer held new = if held = .awaited then new else held := by
  cases held <;> rfl

theorem exec_meterReadingComplete {s : State} {r : MeterReading} (h : s.power.reading = some r)
    (l : MeterAnswer (BitVec 16)) (b : MeterAnswer Byte) :
    exec (.meterReadingComplete l b) s = .next (answerReading r l b s) := by
  change execMeterReadingComplete l b s = _
  rw [execMeterReadingComplete, h]

theorem exec_meterReadingTimeout {s : State} {r : MeterReading} (h : s.power.reading = some r)
    (l : MeterAnswer (BitVec 16)) (b : MeterAnswer Byte) :
    exec (.meterReadingTimeout l b) s =
      .next (if s.meterLimit r then completeReading (r.join l b) s else s) := by
  change execMeterReadingTimeout l b s = _
  rw [execMeterReadingTimeout, h]

theorem meterLimit_of_within {s : State} {r : MeterReading} (h : s.time.localCount < r.since + 2000) :
    s.meterLimit r = false := decide_eq_false (Nat.not_le.mpr h)

theorem meterLimit_of_out {s : State} {r : MeterReading} (h : r.since + 2000 ≤ s.time.localCount) :
    s.meterLimit r = true := decide_eq_true h

/-- R165: every device asked has answered. -/
theorem whole_join_iff (r : MeterReading) (l : MeterAnswer (BitVec 16)) (b : MeterAnswer Byte) (role : Role) :
    (r.join l b).whole role = true ↔
      (if r.load = .awaited then l else r.load) ≠ .awaited ∧
        (role = .supply → (if r.battery = .awaited then b else r.battery) ≠ .awaited) := by
  rw [MeterReading.whole, MeterReading.join, joinAnswer_eq, joinAnswer_eq, Bool.and_eq_true, answered_iff,
    Bool.or_eq_true, answered_iff, bne_iff_ne]
  exact and_congr_right fun _ => Decidable.imp_iff_not_or.symm

/-- R165: a command that completes the reading in flight. -/
theorem exec_of_completes {s : State} {i : Instr} {load : MeterAnswer (BitVec 16)} {battery : MeterAnswer Byte}
    (h : Stated.completes s i load battery) :
    exec i s =
      .next (readingWork (Stated.value load).isSome (takeReading (Stated.value load) (Stated.value battery) s)) := by
  rw [← meterValue_eq, ← meterValue_eq]
  obtain ⟨r, l, b, hreading, ⟨hin, rfl, hload, hload', hbattery, hbattery'⟩ | ⟨hout, ⟨rfl, hload, hbattery⟩ |
    ⟨rfl, hload, hbattery⟩⟩⟩ := h
  · have hjoin : r.join l b = { r with load := load, battery := battery } := by
      rw [MeterReading.join, joinAnswer_eq, joinAnswer_eq, ← hload, ← hbattery]
    have hwhole : (r.join l b).whole s.straps.role = true :=
      (whole_join_iff ..).mpr ⟨hload ▸ hload', hbattery ▸ hbattery'⟩
    rw [exec_meterReadingComplete hreading, answerReading, meterLimit_of_within hin, if_neg nofun]
    dsimp only
    rw [if_pos hwhole, hjoin]
    rfl
  · have hjoin : r.join l b = { r with load := load, battery := battery } := by
      rw [MeterReading.join, joinAnswer_eq, joinAnswer_eq, ← hload, ← hbattery]
    rw [exec_meterReadingTimeout hreading, meterLimit_of_out hout, if_pos rfl, hjoin]
    rfl
  · rw [exec_meterReadingComplete hreading, answerReading, meterLimit_of_out hout, if_pos rfl, hload, hbattery]
    rfl

theorem readingHoldsItsAnswers : Stated.ReadingHoldsItsAnswers := by
  refine ⟨fun s r l b hreading hin => ⟨fun hawaits => ?_, ?_⟩, fun s l b hnone => ⟨?_, ?_⟩⟩
  · have hpart : ¬ (r.join l b).whole s.straps.role = true := by
      rw [whole_join_iff]
      rintro ⟨hload, hbattery⟩
      obtain h | ⟨hrole, h⟩ := hawaits
      · exact hload h
      · exact hbattery hrole h
    rw [exec_meterReadingComplete hreading, answerReading, meterLimit_of_within hin, if_neg nofun]
    dsimp only
    rw [if_neg hpart, MeterReading.join, joinAnswer_eq, joinAnswer_eq]
    rfl
  · rw [exec_meterReadingTimeout hreading, meterLimit_of_within hin]
    rfl
  · change execMeterReadingComplete l b s = _
    rw [execMeterReadingComplete, hnone]
  · change execMeterReadingTimeout l b s = _
    rw [execMeterReadingTimeout, hnone]

/-! ### Before the tests -/

/-- R165 to R167: the power unit once the answers are in and the own entry is set anew. -/
def State.measured (s : State) (load : MeterAnswer (BitVec 16)) (battery : MeterAnswer Byte) : Power :=
  { s.power with
    reading := none
    load := ((Stated.value load).map (·.toNat)).getD s.power.load
    battery := Stated.level s battery
    ownAvailable := Stated.offers s battery
    meterFailures := BitVec.ofNat 16
      (min
        (s.power.meterFailures.toNat +
          ((if (Stated.value load).isNone then 1 else 0) +
            (if s.straps.role = .supply ∧ (Stated.value battery).isNone then 1 else 0))) 65535)
    view := s.power.view.set s.straps.node (some (Stated.ownEntry s (Stated.offers s battery))) }

/-- R165: the battery level after a reading. -/
theorem level_eq (s : State) (battery : MeterAnswer Byte) :
    (if s.straps.role = .supply then ((Stated.value battery).map fun b => min b.toNat 100) <|> s.power.battery
      else s.power.battery) = Stated.level s battery := by
  unfold Stated.level
  refine if_congr Iff.rfl ?_ rfl
  cases Stated.value battery <;> rfl

/-- R161, R167: what the station offers from the reading on. -/
theorem readingAvailable_eq (s : State) (load : MeterAnswer (BitVec 16)) (battery : MeterAnswer Byte) :
    readingAvailable (takeReading (Stated.value load) (Stated.value battery) s) = Stated.offers s battery := by
  obtain ⟨u, hu⟩ : ∃ u, u = takeReading (Stated.value load) (Stated.value battery) s := ⟨_, rfl⟩
  have hstraps : u.straps = s.straps := by rw [hu]; rfl
  have hsettings : u.power.settings = s.power.settings := by rw [hu]; rfl
  have hbattery : u.power.battery = Stated.level s battery := by rw [hu, ← level_eq]; rfl
  rw [← hu, readingAvailable, Stated.offers, hstraps, hsettings, hbattery]
  cases s.straps.supplyPresent with
  | false => rfl
  | true =>
    by_cases hrole : s.straps.role = .supply
    · cases Stated.level s battery <;> simp [PowerSettings.offer, hrole]
    · simp [hrole]

/-- R165, R167: the answers taken, with what the station offers from then on. -/
theorem takeReading_power (s : State) (load : MeterAnswer (BitVec 16)) (battery : MeterAnswer Byte) :
    { (takeReading (Stated.value load) (Stated.value battery) s).power with
      ownAvailable := readingAvailable (takeReading (Stated.value load) (Stated.value battery) s) } =
      { s.measured load battery with view := s.power.view } := by
  have hbit (b : Bool) : bit b = if b = true then 1 else 0 := rfl
  have hfailed : bit (decide (s.straps.role = .supply) && (Stated.value battery).isNone) =
      if s.straps.role = .supply ∧ (Stated.value battery).isNone = true then 1 else 0 := by
    rw [hbit]
    exact if_congr (by simp) rfl rfl
  rw [State.measured, ← hfailed, ← level_eq, readingAvailable_eq]
  rfl

theorem batteryMarks_power (s : State) :
    (batteryMarks s).power = { s.power with ownAvailable := readingAvailable s } := by
  unfold batteryMarks
  dsimp only
  split <;> simp

/-- R166: the power unit after steps 1 and 2 of a reading. -/
theorem measured_power (s : State) (load : MeterAnswer (BitVec 16)) (battery : MeterAnswer Byte) :
    (setOwnEntry (batteryMarks (takeReading (Stated.value load) (Stated.value battery) s))).power =
      s.measured load battery := by
  obtain ⟨u, hu⟩ : ∃ u, u = batteryMarks (takeReading (Stated.value load) (Stated.value battery) s) := ⟨_, rfl⟩
  have hstraps : u.straps = s.straps := by simp [hu]
  have htime : u.time = s.time := by simp [hu]
  have hpower : u.power = { s.measured load battery with view := s.power.view } := by
    rw [hu, batteryMarks_power, takeReading_power]
  rw [← hu, setOwnEntry, updPower_power, hpower, hstraps, htime]
  rfl

/-- The state in which the holdover count is made (R166, step 3). -/
def State.marked (s : State) (load : MeterAnswer (BitVec 16)) (battery : MeterAnswer Byte) : State :=
  setOwnEntry (batteryMarks (takeReading (Stated.value load) (Stated.value battery) s))

theorem setCondition_present_of_ne {f g : Flag} (h : g.number ≠ f.number) (present : Bool) (s : State) :
    (setCondition f present s).alarms.present.getLsbD g.number = s.alarms.present.getLsbD g.number := by
  have hmask : f.mask.getLsbD g.number = false := by
    rw [getLsbD_mask f (by cases g <;> decide), decide_eq_false h]
  have hnumber : g.number < 12 := by cases g <;> decide
  unfold setCondition
  split
  · unfold arise
    split
    · rfl
    · rw [latch_present]
      change (s.alarms.present ||| f.mask).getLsbD g.number = _
      rw [BitVec.getLsbD_or, hmask, Bool.or_false]
  · change (s.alarms.present &&& ~~~f.mask).getLsbD g.number = _
    rw [BitVec.getLsbD_and, BitVec.getLsbD_not, hmask, decide_eq_true hnumber]
    exact Bool.and_true _

/-- R166: the battery marks and the own entry leave the lane and OVERDRAW. -/
theorem marked_rest (s : State) (load : MeterAnswer (BitVec 16)) (battery : MeterAnswer Byte) :
    (s.marked load battery).slots.power = s.slots.power ∧
      (s.marked load battery).isLatched .overdraw = s.isLatched .overdraw ∧ LaneFalls s (s.marked load battery) := by
  obtain ⟨u, hu⟩ : ∃ u, u = takeReading (Stated.value load) (Stated.value battery) s := ⟨_, rfl⟩
  have hpower := measured_power s load battery
  have halarms : (s.marked load battery).alarms = (batteryMarks u).alarms := by simp [State.marked, setOwnEntry, hu]
  have hslots : (s.marked load battery).slots = (batteryMarks u).slots := by simp [State.marked, setOwnEntry, hu]
  have hualarms : u.alarms = s.alarms := by simp [hu]
  have huslots : u.slots = s.slots := by simp [hu]
  have hmarks : (batteryMarks u).slots.power = u.slots.power ∧
      (batteryMarks u).isLatched .overdraw = u.isLatched .overdraw ∧
      (batteryMarks u).alarms.present.getLsbD 11 = u.alarms.present.getLsbD 11 := by
    unfold batteryMarks
    dsimp only
    split
    · exact ⟨setCondition_slots_power .., setCondition_latched_of_ne (f := .battery) (g := .overdraw) (by decide) _ _,
        setCondition_present_of_ne (f := .battery) (g := .lane) (by decide) _ _⟩
    · exact ⟨rfl, rfl, rfl⟩
  obtain ⟨hslot, hlatched, hpresent⟩ := hmarks
  refine ⟨by rw [hslots, hslot, huslots], ?_, .of_same ?_ ?_ ?_ ?_ ?_ ?_⟩
  · unfold State.isLatched at hlatched ⊢
    rw [halarms, hlatched, hualarms]
  · simp [State.marked, setOwnEntry]
  · simp [State.marked, setOwnEntry]
  · simp [State.marked, setOwnEntry]
  · rw [State.marked, hpower]
    rfl
  · simp [State.marked, setOwnEntry]
  · rw [halarms, hpresent, hualarms]

/-- R166, R169: the state in which the grant of a reading is recomputed. -/
def State.counted (s : State) (load : MeterAnswer (BitVec 16)) (battery : MeterAnswer Byte) : State :=
  (s.marked load battery).updPower (·.countHoldover)

/-- R166: the state in which a reading's tests are made. -/
def State.atTests (s : State) (load : MeterAnswer (BitVec 16)) (battery : MeterAnswer Byte) : State :=
  recompute (s.counted load battery)

theorem exec_of_completes_eq {s : State} {i : Instr} {load : MeterAnswer (BitVec 16)} {battery : MeterAnswer Byte}
    (h : Stated.completes s i load battery) :
    exec i s = .next
      (loadPower
        (settleStep ((Stated.value load).isSome && yellowLowers (s.atTests load battery))
          (tested (Stated.value load).isSome (s.atTests load battery)))) := exec_of_completes h

theorem counted_power (s : State) (load : MeterAnswer (BitVec 16)) (battery : MeterAnswer Byte) :
    (s.counted load battery).power = (s.measured load battery).countHoldover :=
  congrArg Power.countHoldover (measured_power s load battery)

theorem counted_rest (s : State) (load : MeterAnswer (BitVec 16)) (battery : MeterAnswer Byte) :
    (s.counted load battery).straps = s.straps ∧ (s.counted load battery).time = s.time ∧
      (s.counted load battery).sched = s.sched ∧ (s.counted load battery).spine = s.spine := by
  simp [State.counted, State.marked, setOwnEntry]

/-- R169: what the holdover count can change. -/
theorem countHoldover_shape (p : Power) : ∃ holdover supplied grant ended,
    p.countHoldover =
      { p with holdover := holdover, supplied := supplied, grant := grant, holdoversEnded := ended } := by
  unfold Power.countHoldover
  split
  · exact ⟨p.holdover, p.supplied, p.grant, p.holdoversEnded, rfl⟩
  · split
    · exact ⟨_, p.supplied, p.grant, p.holdoversEnded, rfl⟩
    · exact ⟨_, _, _, _, rfl⟩

/-- R168 to R170: what a recomputation can change. -/
theorem recompute_shape (s : State) : ∃ holdover supplied pool grant begun step rise falls,
    (recompute s).power =
      { s.power with
        holdover := holdover, supplied := supplied, pool := pool, grant := grant, holdoversBegun := begun
        step := step, rise := rise, stepFalls := falls } := by
  have hregrant : ∃ holdover supplied pool grant begun, (regrant s).power =
      { s.power with
        holdover := holdover, supplied := supplied, pool := pool, grant := grant, holdoversBegun := begun } := by
    unfold regrant
    dsimp only
    split
    · split
      · exact ⟨_, _, _, _, _, rfl⟩
      · exact ⟨_, _, _, _, s.power.holdoversBegun, rfl⟩
    · rw [updPower_power, Power.holdOver]
      split
      · split
        · exact ⟨s.power.holdover, s.power.supplied, _, s.power.grant, s.power.holdoversBegun, rfl⟩
        · exact ⟨_, s.power.supplied, _, s.power.grant, _, rfl⟩
      · exact ⟨s.power.holdover, s.power.supplied, _, _, s.power.holdoversBegun, rfl⟩
  obtain ⟨holdover, supplied, pool, grant, begun, hregrant⟩ := hregrant
  rw [recompute, fallToTarget_power_eq]
  split
  · rw [hregrant]
    exact ⟨_, _, _, _, _, _, _, _, rfl⟩
  · rw [hregrant]
    exact ⟨_, _, _, _, _, s.power.step, s.power.rise, s.power.stepFalls, rfl⟩

/-- R166: what steps 3 and 4 of a reading can change. -/
theorem atTests_shape (s : State) (load : MeterAnswer (BitVec 16)) (battery : MeterAnswer Byte) :
    ∃ holdover supplied pool grant begun ended step rise falls,
      (s.atTests load battery).power =
        { s.measured load battery with
          holdover := holdover, supplied := supplied, pool := pool, grant := grant, holdoversBegun := begun
          holdoversEnded := ended, step := step, rise := rise, stepFalls := falls } := by
  obtain ⟨holdover, supplied, grant, ended, hcount⟩ := countHoldover_shape (s.measured load battery)
  obtain ⟨holdover', supplied', pool', grant', begun', step', rise', falls', hshape⟩ :=
    recompute_shape (s.counted load battery)
  rw [State.atTests, hshape, counted_power, hcount]
  exact ⟨_, _, _, _, _, _, _, _, _, rfl⟩

/-- R163, R166: the fresh entries of a reading. -/
theorem counted_freshEntries (s : State) (load : MeterAnswer (BitVec 16)) (battery : MeterAnswer Byte) :
    (s.counted load battery).freshEntries = Stated.readingEntries s battery := by
  obtain ⟨u, hu⟩ : ∃ u, u = s.counted load battery := ⟨_, rfl⟩
  obtain ⟨hstraps, htime, hsched, -⟩ := counted_rest s load battery
  obtain ⟨holdover, supplied, grant, ended, hcount⟩ := countHoldover_shape (s.measured load battery)
  have hpower := counted_power s load battery
  rw [← hu] at hstraps htime hsched hpower ⊢
  rw [freshEntries_eq_stated, Stated.readingEntries, Stated.freshEntries, Stated.freshEntries, State.powerPeriod,
    State.powerPeriod, hstraps, htime, hsched, hpower, hcount]
  rfl

theorem counted_own (s : State) (load : MeterAnswer (BitVec 16)) (battery : MeterAnswer Byte) :
    (s.counted load battery).power.view[(s.counted load battery).straps.node] =
      some (Stated.ownEntry s (Stated.offers s battery)) := by
  obtain ⟨holdover, supplied, grant, ended, hcount⟩ := countHoldover_shape (s.measured load battery)
  obtain ⟨hstraps, -⟩ := counted_rest s load battery
  have hset : (putAt s.power.view s.straps.node (some (Stated.ownEntry s (Stated.offers s battery))))[s.straps.node] =
      some (Stated.ownEntry s (Stated.offers s battery)) := by
    rw [getElem_putAt, if_pos rfl]
  rw [counted_power, hcount]
  simp only [hstraps]
  exact hset

/-- R168 to R170: the grant of a reading. -/
theorem atTests_regranted {s : State} (load : MeterAnswer (BitVec 16)) (battery : MeterAnswer Byte)
    (hdraws : drawsOk s.power.settings) :
    Stated.regranted (s.counted load battery) (Stated.readingEntries s battery)
      (Stated.ownEntry s (Stated.offers s battery)) (s.atTests load battery) := by
  obtain ⟨h12, h23⟩ := hdraws
  rw [← counted_freshEntries s load battery]
  exact recompute_regranted (counted_own s load battery) (h12.trans h23)

/-- R166: what stands of the rest of the state at a reading's tests. -/
theorem atTests_rest (s : State) (load : MeterAnswer (BitVec 16)) (battery : MeterAnswer Byte) :
    (s.atTests load battery).slots.power = s.slots.power ∧
      (s.atTests load battery).isLatched .overdraw = s.isLatched .overdraw ∧ LaneFalls s (s.atTests load battery) := by
  obtain ⟨hslot, hlatched, hlane⟩ := marked_rest s load battery
  obtain ⟨holdover, supplied, grant, ended, hcount⟩ := countHoldover_shape (s.measured load battery)
  have hsame : LaneFalls (s.marked load battery) (s.counted load battery) := by
    refine .of_same rfl rfl rfl ?_ rfl rfl
    rw [counted_power, hcount, State.marked, measured_power]
  refine ⟨?_, ?_, (hlane.trans hsame).trans (.recompute _)⟩
  · rw [State.atTests, recompute_slots_power, ← hslot]
    rfl
  · have halarms : (regrant (s.counted load battery)).alarms = (s.counted load battery).alarms := by simp
    rw [State.atTests, recompute, fallToTarget_overdraw, State.isLatched, halarms, ← hlatched]
    rfl

end Sys2Proof.Machine
end

