-- ==== Sys2Proof/Proofs/ReadingOutcomes.lean ====
section
/-! PROOF. What a reading settles: the step, the holdover and the offer (R165 to R174). O44 rests on them. -/

namespace Sys2Proof.Machine

/-! ### The reading as a whole -/

/-- The state after step 6 of a reading (R166). -/
def State.settled (s : State) (load : MeterAnswer (BitVec 16)) (battery : MeterAnswer Byte) : State :=
  settledFrom (Stated.value load).isSome (s.atTests load battery)

/-- What neither the recomputation nor the tests nor the step change stays as measured. -/
theorem loadPower_settled_keeps {α : Type} {get : Power → α} (h : StepFree get) (s : State)
    (load : MeterAnswer (BitVec 16)) (battery : MeterAnswer Byte) :
    get (loadPower (s.settled load battery)).power = get (s.atTests load battery).power := by
  rw [(by simp : (loadPower (s.settled load battery)).power = (s.settled load battery).power)]
  exact (h.riseFree.settleStep _ _).trans (h.tested _ _)

theorem loadPower_settled_rest (s : State) (load : MeterAnswer (BitVec 16)) (battery : MeterAnswer Byte) :
    loadPower (s.settled load battery) =
      { s with
        power := (loadPower (s.settled load battery)).power
        slots := (loadPower (s.settled load battery)).slots
        alarms := (loadPower (s.settled load battery)).alarms
        laneTx := (loadPower (s.settled load battery)).laneTx } := by
  apply State.ext_parts <;> simp [State.settled, settledFrom, State.atTests, State.counted, State.marked, setOwnEntry]

theorem settled_service (s : State) (load : MeterAnswer (BitVec 16)) (battery : MeterAnswer Byte) :
    (s.settled load battery).loader = s.loader ∧ (s.settled load battery).spine = s.spine := by
  simp [State.settled, settledFrom, State.atTests, State.counted, State.marked, setOwnEntry]

/-- R168 to R170: the grant of a reading and the step checked against it, where a supplier is fresh. -/
theorem atTests_of_supplied {s : State} (load : MeterAnswer (BitVec 16)) (battery : MeterAnswer Byte)
    (hdraws : drawsOk s.power.settings) (hany : (Stated.readingEntries s battery).any (·.supplier) = true) :
    let g := Stated.share (Stated.readingEntries s battery) (Stated.ownEntry s (Stated.offers s battery))
      s.power.settings.reserve
    let target := Stated.target s.power.settings g
    (s.atTests load battery).power.grant = g ∧ (s.atTests load battery).power.holdover = none ∧
      (s.atTests load battery).power.supplied = true ∧ (s.atTests load battery).target = target ∧
      (s.atTests load battery).power.step = (if target < s.power.step then target else s.power.step) ∧
      (s.atTests load battery).power.rise = (if target < s.power.step then 0 else s.power.rise) := by
  intro g target
  obtain ⟨holdover, supplied, grant, ended, hcount⟩ := countHoldover_shape (s.measured load battery)
  obtain ⟨_, _, _, _, _, _, _, _, _, hshape⟩ := atTests_shape s load battery
  have hcounted := (counted_power s load battery).trans hcount
  have hregranted := atTests_regranted load battery hdraws
  rw [Stated.regranted, hcounted] at hregranted
  obtain ⟨hsupplied, -, -, hstep, hrise, -⟩ := hregranted
  obtain ⟨hgrant, hholdover, hknown⟩ := hsupplied hany
  have hgrant : (s.atTests load battery).power.grant = g := hgrant
  have htarget : (s.atTests load battery).target = target := by
    have hsettings : (s.atTests load battery).power.settings = s.power.settings := by rw [hshape]; rfl
    rw [target_eq, hgrant, hsettings]
  rw [hgrant] at hstep hrise
  exact ⟨hgrant, hholdover, hknown, htarget, hstep, hrise⟩

/-- R171, R172: a load that came back is above the grant by a margin. -/
theorem came_above_iff (came : Option (BitVec 16)) (grant margin before : Nat) :
    (∃ l, came = some l ∧ grant + margin < l.toNat) ↔
      came.isSome = true ∧ grant + margin < (came.map (·.toNat)).getD before := by
  cases came <;> simp

theorem readingTestsTheLoadAndSettlesTheStep : Stated.ReadingTestsTheLoadAndSettlesTheStep := by
  intro s i load battery hcompletes hdraws own es hany p came g target step rise red yellow failed
  obtain ⟨hgrant, hholdover, hsupplied, htarget, hstep, hrise⟩ := atTests_of_supplied load battery hdraws hany
  obtain ⟨_, _, _, _, _, _, _, _, _, hshape⟩ := atTests_shape s load battery
  obtain ⟨hslot, hlatched, hlane⟩ := atTests_rest s load battery
  have hexec : exec i s = .next (loadPower (s.settled load battery)) := exec_of_completes_eq hcompletes
  have hlife := hlane.loader
  obtain ⟨c, hc⟩ : ∃ c, c = s.atTests load battery := ⟨_, rfl⟩
  obtain ⟨e, he⟩ : ∃ e, e = s.settled load battery := ⟨_, rfl⟩
  have hsettled : e = settledFrom came.isSome c := by rw [he, hc]; rfl
  have hpower : (loadPower e).power = e.power := by simp
  have halarms : (loadPower e).alarms = e.alarms := by simp
  have hkeeps {α : Type} {get : Power → α} (h : StepFree get) : get (loadPower e).power = get c.power := by
    rw [he, hc]
    exact loadPower_settled_keeps h s load battery
  have hloaded : c.power.load = (came.map (·.toNat)).getD p.load := by rw [hc, hshape]; rfl
  have hsettings : c.power.settings = p.settings := by rw [hc, hshape]; rfl
  have hyellow : c.power.yellow = p.yellow := by rw [hc, hshape]; rfl
  have hyellows : c.power.yellowEvents = p.yellowEvents := by rw [hc, hshape]; rfl
  have hreds : c.power.redEvents = p.redEvents := by rw [hc, hshape]; rfl
  have hrises : c.power.stepRises = p.stepRises := by rw [hc, hshape]; rfl
  rw [← hc] at hgrant hholdover hsupplied htarget hstep hrise hslot hlatched hlane
  have habove (margin : Nat) : (∃ l, came = some l ∧ g + margin < l.toNat) ↔
      came.isSome = true ∧ c.power.grant + margin < c.power.load := by
    rw [hgrant, hloaded]
    exact came_above_iff ..
  have hred : red ↔ c.redNow came.isSome := by
    rw [State.redNow, hsettings]
    exact habove _
  have hyellowNow : yellow ↔ c.yellowNow came.isSome := by
    rw [State.yellowNow, hsettings]
    exact habove _
  have hle : c.power.step ≤ c.target := by
    rw [htarget, hstep]
    split
    · exact le_rfl
    · exact not_lt.mp ‹_›
  have hsame : c.power.step < c.target → c.power.step = s.power.step := by
    rw [htarget, hstep]
    intro h
    split at h
    · exact absurd h (lt_irrefl _)
    · exact if_neg ‹_›
  have hfollows : Stated.laneFollowsStep s e := by
    rw [hsettled]
    exact laneFollowsStep_settledFrom hle hlane hsame
  have hoverdraw : (loadPower e).isLatched .overdraw = e.isLatched .overdraw := by
    unfold State.isLatched
    rw [halarms]
  have hmeasured {α : Type} {get : Power → α} (h : StepFree get) {v : α}
      (hv : get (s.atTests load battery).power = v) : get (loadPower e).power = v :=
    (hkeeps h).trans (hc ▸ hv)
  rw [← he] at hexec
  refine ⟨_, hexec, ?grant, ?holdover, ?supplied, ?load, ?reading, ?battery, ?offer, ?failures, ?red, ?calm, ?below,
    ?above, ?latched, ?step, ?lane, ?slot, ?rest⟩
  case grant => exact (hkeeps (get := (·.grant)) fun _ _ _ _ _ _ _ _ => rfl).trans hgrant
  case holdover => exact (hkeeps (get := (·.holdover)) fun _ _ _ _ _ _ _ _ => rfl).trans hholdover
  case supplied => exact (hkeeps (get := (·.supplied)) fun _ _ _ _ _ _ _ _ => rfl).trans hsupplied
  case load =>
    refine ((hkeeps (get := (·.load)) fun _ _ _ _ _ _ _ _ => rfl).trans hloaded).trans ?_
    cases came <;> rfl
  case reading =>
    exact hmeasured (get := (·.reading)) (fun _ _ _ _ _ _ _ _ => rfl) (by rw [hshape]; rfl)
  case battery =>
    exact hmeasured (get := (·.battery)) (fun _ _ _ _ _ _ _ _ => rfl) (by rw [hshape]; rfl)
  case offer =>
    exact hmeasured (get := (·.ownAvailable)) (fun _ _ _ _ _ _ _ _ => rfl) (by rw [hshape]; rfl)
  case failures =>
    exact hmeasured (get := (·.meterFailures)) (fun _ _ _ _ _ _ _ _ => rfl) (by rw [hshape]; rfl)
  case red =>
    intro h
    rw [hpower, hoverdraw, hsettled, ← hreds, ← hyellows]
    exact settledFrom_of_red (hred.mp h)
  case calm =>
    intro h
    rw [hpower, hoverdraw, hsettled, ← hreds, ← hlatched]
    by_cases hstay : ¬ c.yellowNow came.isSome ∨ c.power.yellow = 0 ∨ c.power.step = 0
    · obtain ⟨hr, ho, -⟩ := settledFrom_of_stay hle (mt hred.mpr h) hstay
      exact ⟨hr, ho⟩
    · obtain ⟨hy, hrest⟩ := not_or.mp hstay
      obtain ⟨hsecond, hnonzero⟩ := not_or.mp hrest
      obtain ⟨hr, ho, -⟩ := settledFrom_of_fall hle (mt hred.mpr h) (not_not.mp hy) hsecond hnonzero
      exact ⟨hr, ho⟩
  case below =>
    intro h hy
    have hcalm := mt hyellowNow.mpr hy
    obtain ⟨-, -, hbelow, -⟩ := settledFrom_of_stay hle (mt hred.mpr h) (.inl hcalm)
    rw [hpower, hsettled, ← hyellow, ← hyellows]
    exact hbelow hcalm
  case above =>
    intro h hy
    have hnow := hyellowNow.mp hy
    rw [hpower, hsettled, ← hyellow, ← hyellows]
    by_cases hstay : ¬ c.yellowNow came.isSome ∨ c.power.yellow = 0 ∨ c.power.step = 0
    · obtain ⟨-, -, -, habove, -⟩ := settledFrom_of_stay hle (mt hred.mpr h) hstay
      exact habove hnow
    · obtain ⟨hsecond, hnonzero⟩ := not_or.mp (not_or.mp hstay).2
      obtain ⟨-, -, hzero, hcount, -⟩ := settledFrom_of_fall hle (mt hred.mpr h) hnow hsecond hnonzero
      exact ⟨hzero.trans (if_neg hsecond).symm, hcount⟩
  case latched =>
    intro h ho
    rw [hpower, hsettled]
    by_cases hstay : ¬ c.yellowNow came.isSome ∨ c.power.yellow = 0 ∨ c.power.step = 0
    · obtain ⟨-, -, -, -, hzero, -⟩ := settledFrom_of_stay hle (mt hred.mpr h) hstay
      exact hzero (hlatched.trans ho)
    · obtain ⟨hy, hrest⟩ := not_or.mp hstay
      obtain ⟨hsecond, hnonzero⟩ := not_or.mp hrest
      obtain ⟨-, -, -, -, hzero, -⟩ := settledFrom_of_fall hle (mt hred.mpr h) (not_not.mp hy) hsecond hnonzero
      exact hzero (hlatched.trans ho)
  case step =>
    intro h ho
    rw [hpower, hsettled, ← hrises]
    rw [← hyellow]
    change (yellow → 1 ≤ c.power.yellow → step ≠ 0 → _) ∧ _
    have hstep : c.power.step = step := hstep
    have hrise : c.power.rise = rise := hrise
    have htarget : c.target = target := htarget
    rw [← hstep, ← hrise, ← htarget]
    refine ⟨fun hy hsecond hnonzero => ?_, fun hstay => ?_⟩
    · obtain ⟨-, -, -, -, -, hfalls⟩ :=
        settledFrom_of_fall hle (mt hred.mpr h) (hyellowNow.mp hy) (Nat.one_le_iff_ne_zero.mp hsecond) hnonzero
      exact hfalls (hlatched.trans ho)
    · obtain ⟨-, -, -, -, -, hsettles⟩ :=
        settledFrom_of_stay hle (mt hred.mpr h) (hstay.imp_left fun hy => mt hyellowNow.mpr hy)
      exact hsettles (hlatched.trans ho)
  case lane =>
    unfold Stated.laneFollowsStep
    rw [hpower, halarms, (by simp : (loadPower e).laneTx = e.laneTx)]
    exact hfollows
  case slot =>
    intro hrun hcut
    obtain ⟨hloader, hspine⟩ := settled_service s load battery
    rw [← he] at hloader hspine
    have hkept : e.slots.power = s.slots.power := by
      rw [hsettled, settledFrom, settleStep_slots_power, tested_slots_power, hslot]
    rw [loadPower_slots_power (by rw [hloader]; exact hrun) (by rw [hspine]; exact hcut), hkept]
  case rest =>
    rw [he]
    exact loadPower_settled_rest s load battery

/-- R169: the power unit of a reading that finds no supplier, but for the step and the tests. -/
theorem loadPower_settled_of_none {α : Type} {get : Power → α} (h : StepFree get) {s : State}
    (load : MeterAnswer (BitVec 16)) (battery : MeterAnswer Byte)
    (hnone : (Stated.readingEntries s battery).any (·.supplier) = false) :
    get (loadPower (s.settled load battery)).power = get (s.measured load battery).countHoldover.holdOver := by
  have hregrant : (regrant (s.counted load battery)).power = (s.measured load battery).countHoldover.holdOver := by
    rw [regrant_power_of_none (by rw [counted_freshEntries]; exact hnone), counted_power]
  rw [← hregrant]
  exact (loadPower_settled_keeps h s load battery).trans (h.riseFree.fallToTarget _)

theorem holdoverCountsReadings : Stated.HoldoverCountsReadings := by
  intro s i load battery hcompletes hnone p
  have hexec : exec i s = .next (loadPower (s.settled load battery)) := exec_of_completes_eq hcompletes
  have hkeeps {α : Type} {get : Power → α} (h : StepFree get) := loadPower_settled_of_none h load battery hnone
  have hgrant := hkeeps (get := (·.grant)) fun _ _ _ _ _ _ _ _ => rfl
  have hholdover := hkeeps (get := (·.holdover)) fun _ _ _ _ _ _ _ _ => rfl
  have hsupplied := hkeeps (get := (·.supplied)) fun _ _ _ _ _ _ _ _ => rfl
  have hbegun := hkeeps (get := (·.holdoversBegun)) fun _ _ _ _ _ _ _ _ => rfl
  have hended := hkeeps (get := (·.holdoversEnded)) fun _ _ _ _ _ _ _ _ => rfl
  refine ⟨_, hexec, fun hsup hoff => ?_, fun n hsup hon hfew => ?_, fun n hon hmany => ?_, fun hsup hoff => ?_,
    loadPower_settled_rest s load battery⟩
  · have hover : (s.measured load battery).countHoldover.holdOver =
        { s.measured load battery with
          pool := 0, holdover := some 0, holdoversBegun := bump p.holdoversBegun } := by
      have hcount : (s.measured load battery).countHoldover = s.measured load battery := by
        unfold Power.countHoldover
        rw [show (s.measured load battery).holdover = none from hoff]
      rw [hcount, Power.holdOver, if_pos (show (s.measured load battery).supplied = true from hsup),
        show (s.measured load battery).holdover = none from hoff]
      rfl
    rw [hgrant, hholdover, hsupplied, hbegun, hended, hover]
    exact ⟨rfl, hsup, rfl, rfl, rfl⟩
  · have hover : (s.measured load battery).countHoldover.holdOver =
        { s.measured load battery with pool := 0, holdover := some (n + 1) } := by
      have hcount : (s.measured load battery).countHoldover =
          { s.measured load battery with holdover := some (n + 1) } := by
        unfold Power.countHoldover
        rw [show (s.measured load battery).holdover = some n from hon]
        exact if_pos (by omega)
      rw [hcount, Power.holdOver]
      exact if_pos hsup
    rw [hgrant, hholdover, hsupplied, hbegun, hended, hover]
    exact ⟨rfl, hsup, rfl, rfl, rfl⟩
  · have hover : (s.measured load battery).countHoldover.holdOver =
        { s.measured load battery with
          pool := 0, holdover := none, supplied := false, grant := p.settings.draw[0]
          holdoversEnded := bump p.holdoversEnded } := by
      have hcount : (s.measured load battery).countHoldover =
          { s.measured load battery with
            holdover := none, supplied := false, grant := p.settings.draw[0]
            holdoversEnded := bump p.holdoversEnded } := by
        unfold Power.countHoldover
        rw [show (s.measured load battery).holdover = some n from hon]
        exact if_neg (by omega)
      rw [hcount]
      rfl
    rw [hgrant, hholdover, hsupplied, hbegun, hended, hover]
    exact ⟨rfl, rfl, rfl, rfl, rfl⟩
  · have hover : (s.measured load battery).countHoldover.holdOver =
        { s.measured load battery with pool := 0, grant := p.settings.draw[0] } := by
      have hcount : (s.measured load battery).countHoldover = s.measured load battery := by
        unfold Power.countHoldover
        rw [show (s.measured load battery).holdover = none from hoff]
      rw [hcount, Power.holdOver, if_neg (by rw [show (s.measured load battery).supplied = false from hsup]; nofun)]
      rfl
    rw [hgrant, hholdover, hsupplied, hover]
    exact ⟨rfl, hsup, hoff⟩

/-! ### The battery and the lane of a SUPPLY -/

/-- What the step leaves on a SUPPLY: its lane sender and the BATTERY condition (R106, R167). -/
structure SupplyKept (r s : State) : Prop where
  straps : s.straps = r.straps
  laneTx : s.laneTx = r.laneTx
  present : s.alarms.present.getLsbD 10 = r.alarms.present.getLsbD 10
  latched : s.isLatched .battery = r.isLatched .battery

theorem SupplyKept.of_alarms {r s : State} (hstraps : s.straps = r.straps) (hlane : s.laneTx = r.laneTx)
    (halarms : s.alarms = r.alarms) : SupplyKept r s :=
  ⟨hstraps, hlane, by rw [halarms], by rw [State.isLatched, halarms]; rfl⟩

theorem SupplyKept.trans {r s t : State} (h : SupplyKept r s) (h' : SupplyKept s t) : SupplyKept r t :=
  ⟨h'.straps.trans h.straps, h'.laneTx.trans h.laneTx, h'.present.trans h.present, h'.latched.trans h.latched⟩

theorem SupplyKept.setStep {s : State} (hrole : s.straps.role = .supply) (v : Fin 4) :
    SupplyKept s (Machine.setStep v s) := by
  by_cases h : s.power.step = v
  · rw [setStep_of_eq h]
    exact .of_alarms rfl rfl rfl
  · have hlane : s.laneTxAt v = s.laneTx := laneTxAt_of_stays fun ⟨hr, _⟩ => by simp [hrole] at hr
    rw [setStep_of_ne h, hlane]
    exact ⟨by simp, by simp, setCondition_present_of_ne (f := .lane) (g := .battery) (by decide) _ _,
      setCondition_latched_of_ne (f := .lane) (g := .battery) (by decide) _ _⟩

theorem SupplyKept.setStep_of {r s : State} (h : SupplyKept r s) (hrole : r.straps.role = .supply) (v : Fin 4) :
    SupplyKept r (Machine.setStep v s) :=
  h.trans (.setStep (by rw [h.straps]; exact hrole) v)

theorem SupplyKept.fallToTarget {s : State} (hrole : s.straps.role = .supply) :
    SupplyKept s (Machine.fallToTarget s) := by
  unfold Machine.fallToTarget
  split
  · exact (SupplyKept.of_alarms rfl rfl rfl : SupplyKept s (s.updPower _)).setStep_of hrole _
  · exact .of_alarms rfl rfl rfl

theorem SupplyKept.tested {s : State} (hrole : s.straps.role = .supply) (came : Bool) :
    SupplyKept s (Machine.tested came s) := by
  by_cases hred : s.redNow came
  · have hzero := SupplyKept.setStep hrole 0
    rw [tested_of_red hred]
    refine hzero.trans ⟨by simp [redActs], by simp [redActs], by simp [redActs, latch_present], ?_⟩
    rw [redActs, State.isLatched, has, latch_latched]
    exact getLsbD_or_mask_of_ne (f := .overdraw) (g := .battery) _ (by decide)
  · by_cases hstay : ¬ s.yellowNow came ∨ s.power.yellow = 0 ∨ s.power.step = 0
    · obtain ⟨yellow, yellows, htested, -⟩ := tested_of_stay hred hstay
      rw [htested]
      exact .of_alarms rfl rfl rfl
    · obtain ⟨hyellow, hrest⟩ := not_or.mp hstay
      obtain ⟨hsecond, hstep⟩ := not_or.mp hrest
      obtain ⟨u, hu⟩ : ∃ u : State, u =
          { s with
            power :=
              { s.power with
                yellow := 0
                yellowEvents := bump s.power.yellowEvents
                stepFalls := bump s.power.stepFalls } } := ⟨_, rfl⟩
      have hsame : SupplyKept s u := .of_alarms (by rw [hu]) (by rw [hu]) (by rw [hu])
      rw [tested_of_fall hred (not_not.mp hyellow) hsecond hstep, ← hu]
      exact hsame.setStep_of hrole _

theorem SupplyKept.settleStep {s : State} (hrole : s.straps.role = .supply) (fell : Bool) :
    SupplyKept s (Machine.settleStep fell s) := by
  have hfall := SupplyKept.fallToTarget hrole
  have hsame (f : Power → Power) : SupplyKept s ((Machine.fallToTarget s).updPower f) :=
    hfall.trans (.of_alarms rfl rfl rfl)
  unfold Machine.settleStep
  dsimp only
  split
  · exact (hsame _).setStep_of hrole 0
  · split
    · exact hsame _
    · unfold riseStep
      split
      · split
        · exact hsame _
        · exact (hsame _).setStep_of hrole _
      · exact hsame _

/-- R166, R167: from step 1 of a reading on, a SUPPLY keeps its lane and the BATTERY condition. -/
theorem supplyKept_settled {s : State} (load : MeterAnswer (BitVec 16)) (battery : MeterAnswer Byte)
    (hrole : s.straps.role = .supply) :
    SupplyKept (batteryMarks (takeReading (Stated.value load) (Stated.value battery) s))
      (loadPower (s.settled load battery)) := by
  obtain ⟨u, hu⟩ : ∃ u, u = batteryMarks (takeReading (Stated.value load) (Stated.value battery) s) := ⟨_, rfl⟩
  have hurole : u.straps.role = .supply := by simp [hu, hrole]
  have hregrant : SupplyKept u (regrant (s.counted load battery)) := by
    refine .of_alarms ?_ ?_ ?_ <;> simp [hu, State.counted, State.marked, setOwnEntry]
  have hatTests : SupplyKept u (s.atTests load battery) :=
    hregrant.trans (.fallToTarget (by rw [hregrant.straps]; exact hurole))
  have htested := hatTests.trans
    (.tested (by rw [hatTests.straps]; exact hurole) (Stated.value load).isSome)
  have hsettled : SupplyKept u (s.settled load battery) :=
    htested.trans (.settleStep (by rw [htested.straps]; exact hurole) _)
  rw [← hu]
  exact hsettled.trans (.of_alarms (by simp) (by simp) (by simp))

/-- R167: the BATTERY condition at a reading of a SUPPLY. -/
theorem batteryMarks_of_supply {s : State} (load : MeterAnswer (BitVec 16)) (battery : MeterAnswer Byte)
    (hrole : s.straps.role = .supply) : ∃ u : State, u.alarms = s.alarms ∧
    batteryMarks (takeReading (Stated.value load) (Stated.value battery) s) =
      setCondition .battery (s.power.settings.isEmpty (Stated.level s battery)) u := by
  obtain ⟨a, ha⟩ : ∃ a, a = takeReading (Stated.value load) (Stated.value battery) s := ⟨_, rfl⟩
  have harole : a.straps.role = .supply := by simp [ha, hrole]
  have hlevel : a.power.battery = Stated.level s battery := by rw [ha, ← level_eq]; rfl
  have hsettings : a.power.settings = s.power.settings := by rw [ha]; rfl
  rw [← ha, ← hlevel, ← hsettings]
  exact ⟨a.updPower fun p => { p with ownAvailable := readingAvailable a }, by simp [ha], if_pos harole⟩

theorem batteryMarksSetTheOffer : Stated.BatteryMarksSetTheOffer := by
  intro s i load battery hcompletes hrole p level
  have hexec : exec i s = .next (loadPower (s.settled load battery)) := exec_of_completes_eq hcompletes
  obtain ⟨_, _, _, _, _, _, _, _, _, hshape⟩ := atTests_shape s load battery
  have hkeeps {α : Type} {get : Power → α} (h : StepFree get) {v : α}
      (hv : get (s.atTests load battery).power = v) : get (loadPower (s.settled load battery)).power = v :=
    (loadPower_settled_keeps h s load battery).trans hv
  obtain ⟨u, hu, hmarks⟩ := batteryMarks_of_supply load battery hrole
  have hkept := supplyKept_settled load battery hrole
  refine ⟨_, hexec, ?battery, ?offer, ?load, ?failures, ?unknown, ?known, ?own, ?rest⟩
  case battery => exact hkeeps (get := (·.battery)) (fun _ _ _ _ _ _ _ _ => rfl) (by rw [hshape]; rfl)
  case offer => exact hkeeps (get := (·.ownAvailable)) (fun _ _ _ _ _ _ _ _ => rfl) (by rw [hshape]; rfl)
  case load =>
    refine hkeeps (get := (·.load)) (fun _ _ _ _ _ _ _ _ => rfl) ?_
    rw [hshape]
    change ((Stated.value load).map (·.toNat)).getD p.load = _
    cases Stated.value load <;> rfl
  case failures =>
    refine hkeeps (get := (·.meterFailures)) (fun _ _ _ _ _ _ _ _ => rfl) ?_
    rw [hshape]
    simp only [State.measured, hrole, true_and, Nat.add_assoc]
    rfl
  case own =>
    have hview : (loadPower (s.settled load battery)).power.view =
        putAt s.power.view s.straps.node (some (Stated.ownEntry s (Stated.offers s battery))) :=
      hkeeps (get := (·.view)) (fun _ _ _ _ _ _ _ _ => rfl) (by rw [hshape]; rfl)
    rw [hview, getElem_putAt, if_pos rfl]
  case unknown =>
    intro hnone
    rw [hkept.present, hmarks, show Stated.level s battery = none from hnone]
    exact setCondition_present .battery _ u
  case known =>
    intro b hb _
    have hempty : s.power.settings.isEmpty (Stated.level s battery) = decide (b ≤ p.settings.empty) := by
      rw [show Stated.level s battery = some b from hb]
      rfl
    refine ⟨?_, fun hlow hbefore => ?_⟩
    · rw [hkept.present, hmarks, ← hempty]
      exact setCondition_present .battery _ u
    · have hlatched : (loadPower (s.settled load battery)).isLatched .battery = true := by
        rw [hkept.latched, hmarks, hempty, decide_eq_true hlow]
        exact arise_latched (f := .battery) (by rw [hu]; exact hbefore)
      exact hlatched
  case rest =>
    have hlane : (loadPower (s.settled load battery)).laneTx = s.laneTx := by
      rw [hkept.laneTx]
      simp
    rw [← hlane]
    exact loadPower_settled_rest s load battery

/-- Settles O44: what a reading waits for and what it settles. -/
theorem readingSettlesStepAndOffer : Obligations.ReadingSettlesStepAndOffer :=
  ⟨readingHoldsItsAnswers, readingTestsTheLoadAndSettlesTheStep, holdoverCountsReadings, batteryMarksSetTheOffer⟩

end Sys2Proof.Machine
end

