-- ==== Sys2Proof/Proofs/PortRecords.lean ====
section
/-! PROOF. The records of the computer at the local port (R27, R97, R179 to R182). O45 rests on them. -/

namespace Sys2Proof.Machine

theorem portReady_iff (s : State) : s.portReady = true ↔ Stated.portReady s := by
  simp [State.portReady, State.consoleActive, Stated.portReady, Stated.console]

/-- R182: an outcome joins the outcomes, of which fewer than 4 wait. -/
theorem withOutcome_of_ready {p : LocalPort} (h : p.outcomes.length < 4) (o : SendOutcome) (a : BitVec 8) :
    Stated.withOutcome p o a = { p with outcomes := p.outcomes ++ [{ outcome := o, attempts := a }] } :=
  if_pos (by omega)

theorem answerBusy_of_ready {s : State} (h : s.port.outcomes.length < 4) (c : BusyCause) :
    answerBusy c s =
      { s with
        port :=
          { s.port with
            busy := bump s.port.busy
            outcomes := s.port.outcomes ++ [{ outcome := .busy c, attempts := 0 }] } } := by
  have hport := withOutcome_of_ready (p := { s.port with busy := bump s.port.busy }) h (.busy c) 0
  exact congrArg (fun p => { s with port := p }) hport

theorem pushOutcome_of_ready {s : State} (h : s.port.outcomes.length < 4) (o : SendOutcome) (a : BitVec 8) :
    pushOutcome o a s =
      { s with port := { s.port with outcomes := s.port.outcomes ++ [{ outcome := o, attempts := a }] } } :=
  congrArg (fun p => { s with port := p }) (withOutcome_of_ready h o a)

/-- R180: a SEND that is well formed, with a rank that the rank field holds. -/
theorem exec_send {s : State} {r : SendRecord} (hready : Stated.portReady s) (hlength : r.length.toNat = r.body.length)
    (hbody : r.body.length ≤ 40) (hrank : r.rank.toNat < 4096) :
    exec (.send r) s = .next
      (if isDirect (r.rank.setWidth 12) r.body s.straps.node then deliverDirect (r.rank.setWidth 12) r.body s
      else sendThroughPort r (r.rank.setWidth 12) s) := by
  have hformed : sendMalformed r = false := by
    rw [sendMalformed, hlength, decide_eq_false (Nat.not_lt.mpr hbody), bne_self_eq_false]
    rfl
  have hsend : sendRecord r s =
      if isDirect (r.rank.setWidth 12) r.body s.straps.node then deliverDirect (r.rank.setWidth 12) r.body s
      else sendThroughPort r (r.rank.setWidth 12) s := by
    rw [sendRecord, sendRank, if_pos hrank, if_pos hrank]
  rw [← hsend]
  exact congrArg Host.Outcome.next ((if_pos ((portReady_iff s).mpr hready)).trans (if_neg (by rw [hformed]; nofun)))

theorem toNat_setWidth_rank {rank : BitVec 16} (h : rank.toNat < 4096) : (rank.setWidth 12).toNat = rank.toNat := by
  rw [BitVec.toNat_setWidth]
  omega

theorem isDirect_iff {rank : BitVec 16} (h : rank.toNat < 4096) (body : List Byte) (n : Node) :
    isDirect (rank.setWidth 12) body n = true ↔
      rank.toNat / 256 = 6 ∧ body ≠ [] ∧ (byteAt body 0).toNat = n.val := by
  rw [isDirect, rankClass, toNat_setWidth_rank h]
  simp [and_assoc]

/-- R36, R37: a command that reaches its own node's unit, which has room. -/
theorem takeCommand_of_room {s : State} {rank : BitVec 16} {body : List Byte} (hrank : rank.toNat < 4096)
    (hbody : body.length ≤ 40) (hnode : (byteAt body 0).toNat = s.straps.node.val) (hroom : s.cmd.queue.length < 8) :
    takeCommand (rank.setWidth 12) body true s =
      { s with
        cmd :=
          if 2 ≤ body.length ∧ admits (BitVec.ofNat 5 (rank.toNat / 8 % 32)) (body.length - 2) = true then
            { s.cmd with
              queue := s.cmd.queue ++
                [{ origin := Fin.ofNat 8 (rank.toNat % 8)
                   code := BitVec.ofNat 5 (rank.toNat / 8 % 32)
                   tag := byteAt body 1
                   args := body.drop 2
                   isLocal := true }] }
          else { s.cmd with malformed := bump s.cmd.malformed } } := by
  by_cases hlong : 2 ≤ body.length
  · have hown : addressed s body = true := (addressed_iff s body).mpr (.inl hnode)
    rw [takeCommand_of_addressed _ true hlong hbody hown, toNat_setWidth_rank hrank]
    by_cases hadmits : admits (BitVec.ofNat 5 (rank.toNat / 8 % 32)) (body.length - 2) = true
    · rw [if_pos hadmits, if_pos ⟨hlong, hadmits⟩]
      have hcommand : commandOf (rank.setWidth 12) body true =
          { origin := Fin.ofNat 8 (rank.toNat % 8)
            code := BitVec.ofNat 5 (rank.toNat / 8 % 32)
            tag := byteAt body 1
            args := body.drop 2
            isLocal := true } := by
        rw [commandOf, rankOrigin, rankTopic, toNat_setWidth_rank hrank]
        rfl
      rw [← hcommand]
      exact congrArg (fun cmd => { s with cmd := cmd }) (if_pos hroom)
    · rw [if_neg hadmits, if_neg (fun ⟨_, h⟩ => hadmits h)]
      rfl
  · rw [takeCommand_of_length true s (.inl (not_le.mp hlong)), if_neg (fun ⟨h, _⟩ => hlong h)]
    rfl

theorem sendToOwnNodeIsDeliveredDirectly : Stated.SendToOwnNodeIsDeliveredDirectly := by
  intro s r hready hlength hbody hnonempty hclass hnode code good
  have hrank : r.rank.toNat < 4096 := by omega
  have hdirect : isDirect (r.rank.setWidth 12) r.body s.straps.node = true :=
    (isDirect_iff hrank ..).mpr ⟨hclass, hnonempty, hnode⟩
  have hfew : s.port.outcomes.length < 4 := hready.2
  rw [exec_send hready hlength hbody hrank, if_pos hdirect, deliverDirect]
  congr 1
  by_cases hroom : s.cmd.queue.length < 8
  · rw [if_neg (Nat.not_le.mpr hroom), if_pos hroom]
    rw [takeCommand_of_room hrank hbody hnode hroom]
    refine pushOutcome_of_ready ?_ .sent 0
    exact hfew
  · rw [if_pos (Nat.not_lt.mp hroom), if_neg hroom]
    exact answerBusy_of_ready hfew .queue

theorem sendLoadsThePortSlot : Stated.SendLoadsThePortSlot := by
  intro s r hready hlength hbody hrank helse content sl busy
  have hdirect : ¬ isDirect (r.rank.setWidth 12) r.body s.straps.node = true := by
    rw [isDirect_iff hrank]
    rintro ⟨hclass, hnonempty, hnode⟩
    obtain h | h | h := helse
    · exact h hclass
    · exact hnonempty h
    · exact h hnode
  have hfew : s.port.outcomes.length < 4 := hready.2
  have hcontent : portContent r (r.rank.setWidth 12) s.straps.node = content := by
    have hown : withOrigin (r.rank.setWidth 12) s.straps.node =
        BitVec.ofNat 12 (r.rank.toNat / 8 * 8 + s.straps.node.val) := by
      rw [withOrigin, mkRank, rankClass, rankTopic, toNat_setWidth_rank hrank]
      congr 2
      omega
    rw [portContent, hown]
  rw [exec_send hready hlength hbody hrank, if_neg hdirect, sendThroughPort]
  congr 1
  dsimp only
  cases hload : s.loadRefused with
  | true =>
    have hout : s.loader.life ≠ .running ∨ s.spine.standing = .cut := (loadRefused_eq_true_iff s).mp hload
    rw [if_pos rfl, if_pos hout]
    exact answerBusy_of_ready (s := countRefused .port s) hfew .refused
  | false =>
    have hin : ¬ (s.loader.life ≠ .running ∨ s.spine.standing = .cut) := by
      rw [← loadRefused_eq_true_iff, hload]
      nofun
    rw [if_neg nofun, if_neg hin, hcontent, loadSlot_of_taken hload]
    have hslot (v : Slot) (hv : sl.load content = v) :
        s.updSlot .port (·.load content) = { s with slots := { s.slots with port := v } } := by
      rw [← hv]
      rfl
    cases hstate : sl.state with
    | empty =>
      rw [if_neg fun ⟨h, _⟩ => nomatch h]
      exact hslot _ (by rw [Slot.load, hstate])
    | pending =>
      rw [if_neg fun ⟨h, _⟩ => nomatch h]
      exact hslot _ (by rw [Slot.load, hstate])
    | sending =>
      by_cases hheld : sl.held.isSome = true
      · rw [if_pos ⟨rfl, hheld⟩]
        exact (answerBusy_of_ready hfew .held).trans (if_pos hheld).symm
      · rw [if_neg fun ⟨_, h⟩ => hheld h]
        refine (hslot _ ?_).trans (if_neg hheld).symm
        rw [Slot.load, hstate]
        dsimp only
        rw [if_neg hheld]

theorem exec_of_ready {s : State} (hready : Stated.portReady s) :
    exec .abort s = .next (abortPort s) ∧ (∀ x, exec (.tag x) s = .next (placeTag x s)) ∧
      exec .ack s = .next (s.updIntake fun k => { k with overrun := false }) ∧
      exec .portError s = .next (countPortError s) := by
  have h := (portReady_iff s).mpr hready
  exact ⟨congrArg Host.Outcome.next (if_pos h), fun x => congrArg Host.Outcome.next (if_pos h),
    congrArg Host.Outcome.next (if_pos h), congrArg Host.Outcome.next (if_pos h)⟩

theorem otherRecordsAtThePort : Stated.OtherRecordsAtThePort := by
  intro s hready sl
  obtain ⟨habort, htag, hack, herror⟩ := exec_of_ready hready
  have hfew : s.port.outcomes.length < 4 := hready.2
  refine ⟨?abort, fun x => ?tag, hack, herror, fun r hlength => ?send⟩
  case abort =>
    rw [habort, abortPort]
    cases hstate : sl.state with
    | empty =>
      rfl
    | pending =>
      exact congrArg Host.Outcome.next (pushOutcome_of_ready (s := s.updSlot .port (·.clear)) hfew .aborted sl.attempts)
    | sending =>
      exact congrArg
        (fun state => Host.Outcome.next
          { s with slots := { s.slots with port := { sl with state := state, held := none, abortMark := true } } })
        hstate
  case tag =>
    rw [htag, placeTag]
    congr 1
    by_cases hroom : s.laneTx.tags.length < 4
    · rw [if_pos hroom, if_pos hroom]
      rfl
    · rw [if_neg hroom, if_neg hroom]
      exact answerBusy_of_ready (s := s.updLaneTx _) hfew .tags
  case send =>
    have hmalformed : sendMalformed r = true := by
      rw [sendMalformed, bne_iff_ne.mpr hlength, Bool.true_or]
    exact congrArg Host.Outcome.next ((if_pos ((portReady_iff s).mpr hready)).trans (if_pos hmalformed))

theorem portNotReadyTakesNoRecord : Stated.PortNotReadyTakesNoRecord := by
  intro s hnot
  have h : ¬ s.portReady = true := mt (portReady_iff s).mp hnot
  exact ⟨fun r => congrArg Host.Outcome.next (if_neg h), congrArg Host.Outcome.next (if_neg h),
    fun x => congrArg Host.Outcome.next (if_neg h), congrArg Host.Outcome.next (if_neg h),
    congrArg Host.Outcome.next (if_neg h), fun straps => congrArg Host.Outcome.next (if_neg h)⟩

/-- Settles O45: SEND, ABORT, TAG, ACK and what is no record. -/
theorem portRecordsAreHandled : Obligations.PortRecordsAreHandled :=
  ⟨sendToOwnNodeIsDeliveredDirectly, sendLoadsThePortSlot, otherRecordsAtThePort, portNotReadyTakesNoRecord⟩

end Sys2Proof.Machine
end

