-- ==== Sys2Proof/Proofs/OutgoingLink.lean ====
section
/-! PROOF. The outgoing link of the local port (R34, R178, R182). O46 rests on them. -/

namespace Sys2Proof.Machine

theorem recordBytes_eq (k : OutKind) (contents : List Byte) :
    recordBytes k contents = Stated.record (BitVec.ofNat 8 k.code) contents := by
  rw [recordBytes, Stated.record, beBytes_one]
  rfl

theorem outcomeBytes_eq (o : OutcomeRecord) :
    outcomeBytes o = [BitVec.ofNat 8 o.outcome.code, o.attempts, BitVec.ofNat 8 o.outcome.causeCode] := by
  rw [outcomeBytes, beBits, beBytes_one, beBytes_one, beBytes_one, BitVec.ofNat_toNat, BitVec.setWidth_eq]
  rfl

theorem exec_outgoingRecordStart {s : State} (hconsole : Stated.console s) (hidle : s.port.out = none) :
    exec .outgoingRecordStart s = .next (startOutgoing s) := by
  refine congrArg Host.Outcome.next (if_pos ?_)
  rw [consoleActive_of_console hconsole, hidle]
  rfl

theorem exec_outgoingRecordEnd {s : State} {r : OutRecord} (h : s.port.out = some r) :
    exec .outgoingRecordEnd s = .next (endOutgoing r s) := by
  change execOutgoingRecordEnd s = _
  rw [execOutgoingRecordEnd, h]

/-- R182: a record starts, which clears the abort mark. -/
theorem startRecord_eq (k : OutKind) (contents : List Byte) (s : State) :
    startRecord k contents s =
      { s with
        port :=
          { s.port with
            abortMark := false
            out := some { kind := k, bytes := Stated.record (BitVec.ofNat 8 k.code) contents } } } := by
  rw [startRecord, recordBytes_eq]
  rfl

/-- R34: what the end of a MESSAGE record frees. -/
theorem freeTransfer_of_some {s : State} {e : QueueEntry} (h : s.intake.inTransfer = some e) :
    freeTransfer s = entryFreed e { s with intake := { s.intake with inTransfer := none } } := by
  rw [freeTransfer, h]
  rfl

theorem freeTransfer_of_none {s : State} (h : s.intake.inTransfer = none) : freeTransfer s = s := by
  rw [freeTransfer, h]

theorem endOutgoing_of_message {r : OutRecord} (h : r.kind = .message) (s : State) :
    endOutgoing r s = freeTransfer { s with port := { s.port with out := none } } := by
  rw [endOutgoing, h]
  rfl

theorem endOutgoing_of_other {r : OutRecord} (h : r.kind ≠ .message) (s : State) :
    endOutgoing r s = { s with port := { s.port with out := none } } := by
  cases hkind : r.kind with
  | message => exact absurd hkind h
  | outcome =>
    rw [endOutgoing, hkind]
    rfl
  | portStatus =>
    rw [endOutgoing, hkind]
    rfl

/-- Settles O46: the arbiter of the outgoing link, and the end of a record. -/
theorem outgoingLinkServesInOrder : Obligations.OutgoingLinkServesInOrder := by
  refine ⟨fun s hconsole hidle => ?_, fun s r hout => ?_⟩
  · rw [exec_outgoingRecordStart hconsole hidle]
    refine ⟨fun o rest houtcomes => ?_, fun x houtcomes hstatus => ?_, fun e rest houtcomes hstatus hqueue => ?_,
      fun houtcomes hstatus hqueue => ?_⟩
    · have hstart : startOutgoing s =
          startRecord .outcome (outcomeBytes o) (s.updPort fun p => { p with outcomes := rest }) := by
        rw [startOutgoing, houtcomes]
      rw [hstart, startRecord_eq, outcomeBytes_eq]
      rfl
    · have hstart : startOutgoing s = startRecord .portStatus x (s.updPort fun p => { p with status := none }) := by
        rw [startOutgoing, houtcomes, hstatus]
      rw [hstart, startRecord_eq]
      rfl
    · have hstart : startOutgoing s =
          startRecord .message (headBytes e ++ e.body)
            (s.updIntake fun k => { k with queue := rest, inTransfer := some e, split := false }) := by
        rw [startOutgoing, houtcomes, hstatus]
        dsimp only
        rw [startOutMessage, hqueue]
      rw [hstart, startRecord_eq, headBytes_eq_stated]
      rfl
    · rw [startOutgoing, houtcomes, hstatus]
      dsimp only
      rw [startOutMessage, hqueue]
  · rw [exec_outgoingRecordEnd hout]
    congr 1
    by_cases hkind : r.kind ≠ .message
    · exact (endOutgoing_of_other hkind s).trans (if_pos hkind).symm
    · rw [endOutgoing_of_message (not_not.mp hkind)]
      refine Eq.trans ?_ (if_neg hkind).symm
      cases htransfer : s.intake.inTransfer with
      | none => exact freeTransfer_of_none (s := { s with port := _ }) htransfer
      | some e =>
        exact freeTransfer_of_some (s := { s with port := { s.port with out := none } }) htransfer

end Sys2Proof.Machine
end

