-- ==== Sys2Proof/Proofs/PowerOnAndRestart.lean ====
section
/-! PROOF. Power-on and restart (R59, R92, R106, R176, R178, R182). O47 rests on them. -/

namespace Sys2Proof.Machine

theorem getElem_replicate_fin {α : Type} {n : Nat} (x : α) (i : Fin n) : (Vector.replicate n x)[i] = x := by
  simp

theorem slotsAtPowerOn_get (n : SlotName) :
    slotsAtPowerOn.get n =
      { state := .empty
        content := { rank := 0, body := [], singleShot := false, loop := false }
        abortMark := false
        attempts := 0
        held := none
        superseded := 0 } := by
  cases n <;> rfl

theorem powerOnTakesPowerOnValues : Stated.PowerOnTakesPowerOnValues := by
  intro s straps
  have hidle (i : Fin 8) : (schedAtPowerOn.entries[i]).action = .none := by
    rw [schedAtPowerOn, getElem_replicate_fin]
    rfl
  have heye (e : Eye) : ∀ n, ((Both.same (receiverEyeAtPowerOn n)).get e).accepted = 0 ∧
      ((Both.same (receiverEyeAtPowerOn n)).get e).lastLoaded = none := by
    intro n
    cases e <;> exact ⟨rfl, rfl⟩
  have hopen (b : Fin 256) (st : Settings) : (storeAtPowerOn st).buffers[b] = bufferAtPowerOn :=
    getElem_replicate_fin ..
  have htable (o : Node) (st : Settings) : (timeAtPowerOn st).table[o] = none := getElem_replicate_fin ..
  refine ⟨_, rfl, rfl, rfl, rfl, rfl, rfl, rfl, rfl, rfl, fun o => htable o _, rfl, rfl, rfl, rfl,
    fun n => slotsAtPowerOn_get n, rfl, rfl, rfl, rfl, rfl, rfl, fun i => hidle i, rfl, rfl, rfl, rfl, rfl, rfl, rfl,
    fun e => heye e _, fun b => ?_, rfl, rfl, rfl, rfl, rfl, rfl, rfl, rfl, rfl, rfl, rfl, rfl, rfl, rfl, rfl, rfl,
    rfl, rfl⟩
  have hbuffer := hopen b (defaultSettings straps.role straps.node)
  exact hbuffer ▸ ⟨rfl, rfl, rfl, rfl⟩

/-- R106: the lane receiver's epoch is the restart epoch mod 256. -/
theorem setWidth_eight_succ (epoch : BitVec 16) :
    (epoch + 1).setWidth 8 = BitVec.ofNat 8 ((epoch.toNat + 1) % 256) := by
  refine BitVec.eq_of_toNat_eq ?_
  rw [BitVec.toNat_setWidth, BitVec.toNat_add, BitVec.toNat_ofNat]
  have hone : (1 : BitVec 16).toNat = 1 := rfl
  omega

theorem restartKeepsAgreedTimeDialsAndEpoch : Stated.RestartKeepsAgreedTimeDialsAndEpoch := by
  intro s i straps hrow
  have hexec : exec i s = .next (restartWith straps s) := by
    obtain ⟨rfl, hready⟩ | ⟨rfl, hdue⟩ := hrow
    · exact congrArg Host.Outcome.next (if_pos ((portReady_iff s).mpr hready))
    · exact congrArg Host.Outcome.next (if_pos hdue)
  refine ⟨_, _, hexec, rfl, ?_, rfl, ?_, rfl, rfl, rfl, rfl, rfl⟩
  · change min (16 * ((0 : Nat) : Int) + (s.agreed : Int)).toNat agreedCap = s.agreed
    have hcap : s.agreed ≤ agreedCap := Nat.min_le_right ..
    omega
  · rw [← setWidth_eight_succ]
    rfl

/-- Settles O47: power-on and restart. -/
theorem powerOnAndRestartBeginAnew : Obligations.PowerOnAndRestartBeginAnew :=
  ⟨powerOnTakesPowerOnValues, restartKeepsAgreedTimeDialsAndEpoch⟩

end Sys2Proof.Machine
end

