-- ==== Sys2Proof/Proofs/ScheduleChecks.lean ====
section
/-! PROOF. The loader's seven steps on the schedule leave entries that break no rule, and leave alone entries that break
none (R73). O48 rests on them. -/

namespace Sys2Proof.Machine

/-! ### The single steps -/

theorem getElem_map_fin {α β : Type} {n : Nat} (f : α → β) (v : Vector α n) (i : Fin n) : (v.map f)[i] = f v[i] :=
  Vector.getElem_map ..

theorem getElem_ofFn_fin {α : Type} {n : Nat} (f : Fin n → α) (i : Fin n) : (Vector.ofFn f)[i] = f i :=
  Vector.getElem_ofFn ..

theorem roleHas_iff (role : Role) (a : Action) : roleHas role a = true ↔ Stated.roleAllows role a := by
  cases a <;> simp [roleHas, Stated.roleAllows]

theorem isDuplicate_iff (es : Vector SchedEntry 8) (i : Fin 8) :
    isDuplicate es i = true ↔ es[i].action ≠ .none ∧ ∃ k : Fin 8, k < i ∧ es[k].action = es[i].action := by
  simp only [isDuplicate, Bool.and_eq_true, bne_iff_ne, List.any_eq_true, decide_eq_true_eq, beq_iff_eq]
  refine and_congr_right fun _ => ⟨fun ⟨k, _, h⟩ => ⟨k, h⟩, fun ⟨k, h⟩ => ⟨k, mem_allEntries k, h⟩⟩

/-- Step 2 at one entry. -/
def checkDouble (es : Vector SchedEntry 8) (i : Fin 8) : SchedEntry := if isDuplicate es i then es[i].disable else es[i]

/-- A step keeps an entry or disables it. -/
def KeptOrOff (e e' : SchedEntry) : Prop := e' = e ∨ e' = e.disable

theorem checkDouble_keptOrOff (es : Vector SchedEntry 8) (i : Fin 8) : KeptOrOff es[i] (checkDouble es i) := by
  unfold checkDouble
  split
  · exact .inr rfl
  · exact .inl rfl

theorem checkMode_keptOrOff (e : SchedEntry) : KeptOrOff e (checkMode e) := by
  unfold checkMode
  split
  · exact .inr rfl
  · exact .inl rfl

theorem checkSource_keptOrOff (es : Vector SchedEntry 8) (i : Fin 8) : KeptOrOff es[i] (checkSource es i) := by
  unfold checkSource
  dsimp only
  split
  · exact .inl rfl
  · split
    · exact .inr rfl
    · exact .inl rfl

theorem KeptOrOff.eq_of_alive {e e' : SchedEntry} (h : KeptOrOff e e') (halive : e'.action ≠ .none) : e' = e :=
  h.resolve_right fun hoff => halive (by rw [hoff]; rfl)

theorem KeptOrOff.mode {e e' : SchedEntry} (h : KeptOrOff e e') : e'.mode = e.mode := by
  obtain rfl | rfl := h <;> rfl

theorem isCounted_iff (e : SchedEntry) : isCounted e = true ↔ ∃ src n progress, e.mode = .counted src n progress := by
  unfold isCounted
  cases e.mode <;> simp

theorem isCounted_of_repeating {e : SchedEntry} {period phase due : Nat} (h : e.mode = .repeating period phase due) :
    isCounted e = false := by
  rw [isCounted, h]

theorem exists_repeating_of_not_counted {e : SchedEntry} (h : ¬ isCounted e = true) :
    ∃ period phase due, e.mode = .repeating period phase due := by
  rw [isCounted_iff] at h
  cases hmode : e.mode with
  | repeating period phase due => exact ⟨_, _, _, rfl⟩
  | counted src n progress => exact absurd ⟨_, _, _, hmode⟩ h

/-- Step 3 leaves BEACON, FRAME and SAMPLE in REPEAT mode. -/
theorem checkMode_of_alive {e : SchedEntry} (halive : (checkMode e).action ≠ .none) {src : Fin 8} {n progress : Nat}
    (hmode : e.mode = .counted src n progress) : e.action ≠ .beacon ∧ e.action ≠ .frame ∧ e.action ≠ .sample := by
  have hcounted : isCounted e = true := (isCounted_iff e).mpr ⟨_, _, _, hmode⟩
  refine ⟨fun h => halive ?_, fun h => halive ?_, fun h => halive ?_⟩
  · rw [checkMode, if_pos ⟨hcounted, .inl h⟩]
    rfl
  · rw [checkMode, if_pos ⟨hcounted, .inr (.inl h)⟩]
    rfl
  · rw [checkMode, if_pos ⟨hcounted, .inr (.inr h)⟩]
    rfl

/-- Step 4 at a COUNTED entry. -/
theorem checkSource_of_counted {es : Vector SchedEntry 8} {i src : Fin 8} {n progress : Nat}
    (hmode : es[i].mode = .counted src n progress) :
    checkSource es i =
      if src = i ∨ isCounted es[src] ∨ es[src].action = .none then es[i].disable else es[i] := by
  rw [checkSource, hmode]

theorem checkSource_of_repeating {es : Vector SchedEntry 8} {i : Fin 8} {period phase due : Nat}
    (hmode : es[i].mode = .repeating period phase due) : checkSource es i = es[i] := by
  rw [checkSource, hmode]

/-! ### Steps 1 to 4 -/

/-- The entries after step 4, which have kept or lost their action. -/
def actionsChecked (role : Role) (es : Vector SchedEntry 8) : Vector SchedEntry 8 :=
  let es := es.map (checkRole role)
  let es := Vector.ofFn fun i => checkDouble es i
  let es := es.map checkMode
  Vector.ofFn fun i => checkSource es i

theorem checkEntries_eq (role : Role) (es : Vector SchedEntry 8) :
    checkEntries role es =
      (((actionsChecked role es).map checkPeriod).map
        (checkEffective ((actionsChecked role es).map checkPeriod))).map checkPhase := rfl

/-- R73, steps 1 to 4: what an entry that keeps its action fulfils. -/
def actionsGood (role : Role) (es : Vector SchedEntry 8) : Prop :=
  ∀ i : Fin 8, es[i].action ≠ .none →
    Stated.roleAllows role es[i].action ∧ (∀ k : Fin 8, k < i → es[k].action ≠ es[i].action) ∧
      ∀ src n progress, es[i].mode = .counted src n progress →
        es[i].action ≠ .beacon ∧ es[i].action ≠ .frame ∧ es[i].action ≠ .sample ∧ src ≠ i ∧
          es[src].action ≠ .none ∧ ∃ period phase due, es[src].mode = .repeating period phase due

theorem actionsChecked_good (role : Role) (es : Vector SchedEntry 8) : actionsGood role (actionsChecked role es) := by
  obtain ⟨e1, h1⟩ : ∃ e1, e1 = es.map (checkRole role) := ⟨_, rfl⟩
  obtain ⟨e2, h2⟩ : ∃ e2, e2 = Vector.ofFn fun i => checkDouble e1 i := ⟨_, rfl⟩
  obtain ⟨e3, h3⟩ : ∃ e3, e3 = e2.map checkMode := ⟨_, rfl⟩
  obtain ⟨e4, h4⟩ : ∃ e4, e4 = Vector.ofFn fun i => checkSource e3 i := ⟨_, rfl⟩
  have he4 : actionsChecked role es = e4 := by
    rw [h4, h3, h2, h1]
    rfl
  have h1i (i : Fin 8) : e1[i] = checkRole role es[i] := by rw [h1, getElem_map_fin]
  have h2i (i : Fin 8) : e2[i] = checkDouble e1 i := by rw [h2, getElem_ofFn_fin]
  have h3i (i : Fin 8) : e3[i] = checkMode e2[i] := by rw [h3, getElem_map_fin]
  have h4i (i : Fin 8) : e4[i] = checkSource e3 i := by rw [h4, getElem_ofFn_fin]
  rw [he4]
  have hthree {i : Fin 8} (halive : e4[i].action ≠ .none) : e4[i] = e3[i] := by
    rw [h4i] at halive ⊢
    exact (checkSource_keptOrOff e3 i).eq_of_alive halive
  have htwo {i : Fin 8} (halive : e3[i].action ≠ .none) : e3[i] = e2[i] := by
    rw [h3i] at halive ⊢
    exact (checkMode_keptOrOff _).eq_of_alive halive
  have hone {i : Fin 8} (halive : e2[i].action ≠ .none) : e2[i] = e1[i] := by
    rw [h2i] at halive ⊢
    exact (checkDouble_keptOrOff e1 i).eq_of_alive halive
  intro i halive
  have halive3 : e3[i].action ≠ .none := hthree halive ▸ halive
  have halive2 : e2[i].action ≠ .none := htwo halive3 ▸ halive3
  have halive1 : e1[i].action ≠ .none := hone halive2 ▸ halive2
  have hall : e4[i] = e1[i] := (hthree halive).trans ((htwo halive3).trans (hone halive2))
  refine ⟨?_, fun k hk hsame => ?_, fun src n progress hmode => ?_⟩
  · rw [hall]
    refine (roleHas_iff role _).mp ?_
    rw [h1i] at halive1 ⊢
    unfold checkRole at halive1 ⊢
    split
    · assumption
    · rename_i h
      rw [if_neg h] at halive1
      exact absurd rfl halive1
  · have haliveK : e4[k].action ≠ .none := hsame ▸ halive
    have haliveK3 : e3[k].action ≠ .none := hthree haliveK ▸ haliveK
    have hallK : e4[k] = e1[k] :=
      (hthree haliveK).trans ((htwo haliveK3).trans (hone (htwo haliveK3 ▸ haliveK3)))
    have hdup : isDuplicate e1 i = true :=
      (isDuplicate_iff e1 i).mpr ⟨halive1, k, hk, by rw [← hallK, ← hall, hsame]⟩
    rw [h2i, checkDouble, if_pos hdup] at halive2
    exact halive2 rfl
  · rw [hthree halive] at hmode ⊢
    have hmode2 : e2[i].mode = .counted src n progress := htwo halive3 ▸ hmode
    obtain ⟨hbeacon, hframe, hsample⟩ := checkMode_of_alive (h3i i ▸ halive3) hmode2
    rw [htwo halive3]
    have hsource : ¬ (src = i ∨ isCounted e3[src] = true ∨ e3[src].action = .none) := by
      intro h
      rw [h4i, checkSource_of_counted hmode, if_pos h] at halive
      exact halive rfl
    obtain ⟨hne, hrest⟩ := not_or.mp hsource
    obtain ⟨hrepeats, hsrc⟩ := not_or.mp hrest
    obtain ⟨period, phase, due, hperiod⟩ := exists_repeating_of_not_counted hrepeats
    have hkept : e4[src] = e3[src] := by rw [h4i, checkSource_of_repeating hperiod]
    rw [hkept]
    exact ⟨hbeacon, hframe, hsample, hne, hsrc, _, _, _, hperiod⟩

/-! ### Steps 5 to 7 -/

/-- Step 5: the period nearest to one given that its action can have (R73). -/
def periodFit (a : Action) (period : Nat) : Nat :=
  if a = .sample then clampNat period (periodRange a).1 (periodRange a).2 / 16 * 16
  else clampNat period (periodRange a).1 (periodRange a).2

theorem periodGood_iff {a : Action} (h : a ≠ .none) (period : Nat) :
    Stated.periodGood a period ↔
      ((periodRange a).1 ≤ period ∧ period ≤ (periodRange a).2) ∧ (a = .sample → period % 16 = 0) := by
  cases a <;> simp [Stated.periodGood, periodRange, and_assoc] at h ⊢

theorem periodRange_le (a : Action) : (periodRange a).1 ≤ (periodRange a).2 := by
  cases a <;> decide

theorem periodFit_good {a : Action} (h : a ≠ .none) (period : Nat) : Stated.periodGood a (periodFit a period) := by
  have hbounds := clampNat_bounds (periodRange_le a) period
  rw [periodGood_iff h, periodFit]
  by_cases hsample : a = .sample
  · subst hsample
    have hlow : (periodRange .sample).1 = 4000 := rfl
    rw [if_pos rfl]
    omega
  · rw [if_neg hsample]
    exact ⟨hbounds, fun h => absurd h hsample⟩

theorem periodFit_of_good {a : Action} (h : a ≠ .none) {period : Nat} (hgood : Stated.periodGood a period) :
    periodFit a period = period := by
  obtain ⟨⟨hlow, hhigh⟩, hmultiple⟩ := (periodGood_iff h period).mp hgood
  rw [periodFit, clampNat_of_mem hlow hhigh]
  by_cases hsample : a = .sample
  · rw [if_pos hsample]
    have := hmultiple hsample
    omega
  · exact if_neg hsample

theorem period_pos {a : Action} (h : a ≠ .none) {period : Nat} (hgood : Stated.periodGood a period) : 0 < period := by
  obtain ⟨⟨hlow, -⟩, -⟩ := (periodGood_iff h period).mp hgood
  have hpos : 0 < (periodRange a).1 := by
    cases a with
    | none => exact absurd rfl h
    | _ => decide
  omega

theorem checkPeriod_of_repeating {e : SchedEntry} {period phase due : Nat} (halive : e.action ≠ .none)
    (hmode : e.mode = .repeating period phase due) :
    checkPeriod e = { e with mode := .repeating (periodFit e.action period) phase due } := by
  rw [checkPeriod, hmode]
  exact if_neg halive

theorem checkPeriod_of_counted {e : SchedEntry} {src : Fin 8} {n progress : Nat}
    (hmode : e.mode = .counted src n progress) : checkPeriod e = e := by
  rw [checkPeriod, hmode]

theorem checkPeriod_action (e : SchedEntry) : (checkPeriod e).action = e.action := by
  unfold checkPeriod
  split
  · rfl
  · split <;> rfl

theorem fitN_of_some {p n lo hi m : Nat} (h : fitN p n lo hi = some m) : lo ≤ p * m ∧ p * m ≤ hi := by
  unfold fitN at h
  split at h
  · nomatch h
  · rename_i hp
    have hpos : 0 < p := Nat.pos_of_ne_zero hp
    split at h
    · dsimp only at h
      split at h
      · rename_i hfit
        obtain rfl := Option.some.inj h
        refine ⟨?_, hfit.2⟩
        have hceil := Nat.lt_div_mul_add hpos (a := lo + p - 1)
        rw [Nat.mul_comm]
        omega
      · nomatch h
    · split at h
      · dsimp only at h
        split at h
        · rename_i hfit
          obtain rfl := Option.some.inj h
          exact ⟨hfit.2, Nat.mul_div_le ..⟩
        · nomatch h
      · obtain rfl := Option.some.inj h
        omega

theorem fitN_of_mem {p n lo hi : Nat} (hp : p ≠ 0) (hlo : lo ≤ p * n) (hhi : p * n ≤ hi) : fitN p n lo hi = some n := by
  rw [fitN, if_neg hp, if_neg (Nat.not_lt.mpr hlo), if_neg (Nat.not_lt.mpr hhi)]

theorem checkEffective_of_repeating {es : Vector SchedEntry 8} {e : SchedEntry} {period phase due : Nat}
    (hmode : e.mode = .repeating period phase due) : checkEffective es e = e := by
  rw [checkEffective, hmode]

theorem checkEffective_of_none {es : Vector SchedEntry 8} {e : SchedEntry} (h : e.action = .none) :
    checkEffective es e = e := by
  unfold checkEffective
  split
  · rfl
  · exact if_pos h

/-- Step 6 at a COUNTED entry whose effective period can be brought into its range. -/
theorem checkEffective_of_fit {es : Vector SchedEntry 8} {e : SchedEntry} {src : Fin 8} {n m progress : Nat}
    (halive : e.action ≠ .none) (hmode : e.mode = .counted src n progress)
    (hfit : fitN (sourcePeriod es src) n (periodRange e.action).1 (periodRange e.action).2 = some m) :
    checkEffective es e = { e with mode := .counted src m progress } := by
  rw [checkEffective, hmode]
  dsimp only
  rw [if_neg halive, hfit]

theorem checkEffective_of_misfit {es : Vector SchedEntry 8} {e : SchedEntry} {src : Fin 8} {n progress : Nat}
    (halive : e.action ≠ .none) (hmode : e.mode = .counted src n progress)
    (hfit : fitN (sourcePeriod es src) n (periodRange e.action).1 (periodRange e.action).2 = none) :
    checkEffective es e = e.disable := by
  rw [checkEffective, hmode]
  dsimp only
  rw [if_neg halive, hfit]

theorem checkEffective_action (es : Vector SchedEntry 8) (e : SchedEntry) :
    (checkEffective es e).action = e.action ∨ (checkEffective es e).action = .none := by
  unfold checkEffective
  split
  · exact .inl rfl
  · split
    · exact .inl rfl
    · split
      · exact .inl rfl
      · exact .inr rfl

theorem checkPhase_of_repeating {e : SchedEntry} {period phase due : Nat} (halive : e.action ≠ .none)
    (hmode : e.mode = .repeating period phase due) :
    checkPhase e = { e with mode := .repeating period (if period ≤ phase then period - 1 else phase) due } := by
  rw [checkPhase, hmode]
  dsimp only
  rw [if_neg halive]
  split
  · rfl
  · rw [← hmode]

theorem checkPhase_of_counted {e : SchedEntry} {src : Fin 8} {n progress : Nat}
    (hmode : e.mode = .counted src n progress) : checkPhase e = e := by
  rw [checkPhase, hmode]

theorem checkPhase_action (e : SchedEntry) : (checkPhase e).action = e.action := by
  unfold checkPhase
  split
  · rfl
  · split
    · rfl
    · split <;> rfl

/-- R73: the entries that the loader's steps leave break no rule. -/
theorem checkEntries_good (role : Role) (es : Vector SchedEntry 8) :
    Stated.entriesGood role (checkEntries role es) := by
  obtain ⟨e4, h4⟩ : ∃ e4, e4 = actionsChecked role es := ⟨_, rfl⟩
  obtain ⟨e5, h5⟩ : ∃ e5, e5 = e4.map checkPeriod := ⟨_, rfl⟩
  obtain ⟨e6, h6⟩ : ∃ e6, e6 = e5.map (checkEffective e5) := ⟨_, rfl⟩
  have hgood : actionsGood role e4 := h4 ▸ actionsChecked_good role es
  rw [checkEntries_eq, ← h4, ← h5, ← h6]
  have h5i (i : Fin 8) : e5[i] = checkPeriod e4[i] := by rw [h5, getElem_map_fin]
  have h6i (i : Fin 8) : e6[i] = checkEffective e5 e5[i] := by rw [h6, getElem_map_fin]
  have h7i (i : Fin 8) : (e6.map checkPhase)[i] = checkPhase e6[i] := getElem_map_fin ..
  have haction {i : Fin 8} (halive : (e6.map checkPhase)[i].action ≠ .none) :
      (e6.map checkPhase)[i].action = e4[i].action := by
    rw [h7i, checkPhase_action] at halive ⊢
    rw [h6i] at halive ⊢
    exact ((checkEffective_action e5 e5[i]).resolve_right halive).trans (by rw [h5i, checkPeriod_action])
  have hrepeats {i : Fin 8} {period phase due : Nat} (halive : e4[i].action ≠ .none)
      (hmode : e4[i].mode = .repeating period phase due) : (e6.map checkPhase)[i] =
        { action := e4[i].action
          mode := .repeating (periodFit e4[i].action period)
            (if periodFit e4[i].action period ≤ phase then periodFit e4[i].action period - 1 else phase) due } ∧
      e5[i].mode = .repeating (periodFit e4[i].action period) phase due := by
    have hfive : e5[i] = { e4[i] with mode := .repeating (periodFit e4[i].action period) phase due } := by
      rw [h5i, checkPeriod_of_repeating halive hmode]
    have hmode5 : e5[i].mode = .repeating (periodFit e4[i].action period) phase due := by rw [hfive]
    have hsix : e6[i] = e5[i] := by rw [h6i, checkEffective_of_repeating hmode5]
    rw [h7i, hsix, checkPhase_of_repeating (by rw [hfive]; exact halive) hmode5, hfive]
    exact ⟨rfl, rfl⟩
  have hcounts {i src : Fin 8} {n progress : Nat} (halive : (e6.map checkPhase)[i].action ≠ .none)
      (hmode : e4[i].mode = .counted src n progress) : ∃ m,
        (e6.map checkPhase)[i] = { action := e4[i].action, mode := .counted src m progress } ∧
        (periodRange e4[i].action).1 ≤ sourcePeriod e5 src * m ∧
        sourcePeriod e5 src * m ≤ (periodRange e4[i].action).2 := by
    have halive4 : e4[i].action ≠ .none := haction halive ▸ halive
    have hfive : e5[i] = e4[i] := by rw [h5i, checkPeriod_of_counted hmode]
    rw [h7i, checkPhase_action] at halive
    cases hfit : fitN (sourcePeriod e5 src) n (periodRange e4[i].action).1 (periodRange e4[i].action).2 with
    | none =>
      have hsix : e6[i] = e4[i].disable := by
        rw [h6i, hfive, checkEffective_of_misfit halive4 hmode hfit]
      rw [hsix] at halive
      exact absurd rfl halive
    | some m =>
      have hsix : e6[i] = { e4[i] with mode := .counted src m progress } := by
        rw [h6i, hfive, checkEffective_of_fit halive4 hmode hfit]
      refine ⟨m, ?_, fitN_of_some hfit⟩
      rw [h7i, hsix, checkPhase_of_counted rfl]
  intro i halive
  have hsame := haction halive
  have halive4 : e4[i].action ≠ .none := hsame ▸ halive
  obtain ⟨hrole, hsingle, hcounted⟩ := hgood i halive4
  refine ⟨hsame ▸ hrole, fun k hk hdouble => ?_, fun period phase due hmode => ?_, fun src n progress hmode => ?_⟩
  · have haliveK : (e6.map checkPhase)[k].action ≠ .none := hdouble ▸ halive
    exact hsingle k hk (by rw [← haction haliveK, hdouble, hsame])
  · cases hmode4 : e4[i].mode with
    | counted src n progress =>
      obtain ⟨m, hentry, -⟩ := hcounts halive hmode4
      rw [hentry] at hmode
      nomatch hmode
    | repeating period' phase' due' =>
      obtain ⟨hentry, -⟩ := hrepeats halive4 hmode4
      have hfit := periodFit_good halive4 period'
      have hpos := period_pos halive4 hfit
      rw [hentry] at hmode ⊢
      injection hmode with hperiod hphase hdue
      subst hperiod hphase
      refine ⟨hfit, ?_⟩
      split <;> omega
  · cases hmode4 : e4[i].mode with
    | repeating period' phase' due' =>
      obtain ⟨hentry, -⟩ := hrepeats halive4 hmode4
      rw [hentry] at hmode
      nomatch hmode
    | counted src' n' progress' =>
      obtain ⟨m, hentry, hlow, hhigh⟩ := hcounts halive hmode4
      obtain ⟨hbeacon, hframe, hsample, hne, halivesrc, period, phase, due, hsrc⟩ := hcounted _ _ _ hmode4
      rw [hentry] at hmode
      injection hmode with hsrceq hn hprogress
      subst hsrceq hn
      obtain ⟨hsrcentry, hfive⟩ := hrepeats halivesrc hsrc
      have hsource : sourcePeriod e5 src' = periodFit e4[src'].action period := by
        rw [sourcePeriod, hfive]
      rw [hsource] at hlow hhigh
      rw [hsame, hsrcentry]
      exact ⟨hbeacon, hframe, hsample, hne, halivesrc, _, _, _, rfl,
        (periodGood_iff halive4 _).mpr ⟨⟨hlow, hhigh⟩, fun h => absurd h hsample⟩⟩

/-! ### Entries that break no rule stay -/

theorem ext_fin {α : Type} {n : Nat} {v w : Vector α n} (h : ∀ i : Fin n, v[i] = w[i]) : v = w :=
  Vector.ext fun i hi => h ⟨i, hi⟩

theorem disable_of_none {e : SchedEntry} (h : e.action = .none) : e.disable = e := by
  obtain ⟨action, mode⟩ := e
  obtain rfl : action = .none := h
  rfl

theorem actionsChecked_of_good {role : Role} {es : Vector SchedEntry 8} (hgood : Stated.entriesGood role es) :
    actionsChecked role es = es := by
  have hrole : es.map (checkRole role) = es := by
    refine ext_fin fun i => ?_
    rw [getElem_map_fin, checkRole]
    refine if_pos ((roleHas_iff role _).mpr ?_)
    by_cases hnone : es[i].action = .none
    · rw [hnone]
      trivial
    · obtain ⟨hallows, -⟩ := hgood i hnone
      exact hallows
  have hdouble : (Vector.ofFn fun i => checkDouble es i) = es := by
    refine ext_fin fun i => ?_
    rw [getElem_ofFn_fin, checkDouble]
    refine if_neg fun hdup => ?_
    obtain ⟨hsome, k, hk, hsame⟩ := (isDuplicate_iff es i).mp hdup
    obtain ⟨-, hsingle, -⟩ := hgood i hsome
    exact hsingle k hk hsame
  have hmode : es.map checkMode = es := by
    refine ext_fin fun i => ?_
    rw [getElem_map_fin, checkMode]
    refine if_neg fun ⟨hcounted, haction⟩ => ?_
    obtain ⟨src, n, progress, hcounts⟩ := (isCounted_iff _).mp hcounted
    have hsome : es[i].action ≠ .none := by obtain h | h | h := haction <;> rw [h] <;> nofun
    obtain ⟨-, -, -, hrest⟩ := hgood i hsome
    obtain ⟨hbeacon, hframe, hsample, -⟩ := hrest _ _ _ hcounts
    obtain h | h | h := haction
    · exact hbeacon h
    · exact hframe h
    · exact hsample h
  have hsource : (Vector.ofFn fun i => checkSource es i) = es := by
    refine ext_fin fun i => ?_
    rw [getElem_ofFn_fin]
    cases hcounts : es[i].mode with
    | repeating period phase due => exact checkSource_of_repeating hcounts
    | counted src n progress =>
      rw [checkSource_of_counted hcounts]
      by_cases hnone : es[i].action = .none
      · rw [disable_of_none hnone]
        exact ite_self _
      · obtain ⟨-, -, -, hrest⟩ := hgood i hnone
        obtain ⟨-, -, -, hne, hsome, period, phase, due, hrepeats, -⟩ := hrest _ _ _ hcounts
        refine if_neg ?_
        rintro (h | h | h)
        · exact hne h
        · rw [isCounted_of_repeating hrepeats] at h
          nomatch h
        · exact hsome h
  rw [actionsChecked, hrole, hdouble, hmode, hsource]

/-- R73: entries that break no rule pass the loader's steps as they are. -/
theorem checkEntries_of_good {role : Role} {es : Vector SchedEntry 8} (hgood : Stated.entriesGood role es) :
    checkEntries role es = es := by
  have hperiod : es.map checkPeriod = es := by
    refine ext_fin fun i => ?_
    rw [getElem_map_fin]
    by_cases hnone : es[i].action = .none
    · unfold checkPeriod
      split
      · rfl
      · exact if_pos hnone
    · obtain ⟨-, -, hrepeats, -⟩ := hgood i hnone
      cases hmode : es[i].mode with
      | counted src n progress => exact checkPeriod_of_counted hmode
      | repeating period phase due =>
        obtain ⟨hfit, -⟩ := hrepeats _ _ _ hmode
        rw [checkPeriod_of_repeating hnone hmode, periodFit_of_good hnone hfit, ← hmode]
  have heffective : es.map (checkEffective es) = es := by
    refine ext_fin fun i => ?_
    rw [getElem_map_fin]
    by_cases hnone : es[i].action = .none
    · exact checkEffective_of_none hnone
    · cases hmode : es[i].mode with
      | repeating period phase due => exact checkEffective_of_repeating hmode
      | counted src n progress =>
        obtain ⟨-, -, -, hcounted⟩ := hgood i hnone
        obtain ⟨-, -, -, -, -, period, phase, due, hrepeats, hfit⟩ := hcounted _ _ _ hmode
        have hsource : sourcePeriod es src = period := by rw [sourcePeriod, hrepeats]
        obtain ⟨⟨hlow, hhigh⟩, -⟩ := (periodGood_iff hnone _).mp hfit
        have hpos := period_pos hnone hfit
        have hperiod : period ≠ 0 := fun h => by simp [h] at hpos
        rw [checkEffective_of_fit hnone hmode (m := n) (by rw [hsource]; exact fitN_of_mem hperiod hlow hhigh), ← hmode]
  have hphase : es.map checkPhase = es := by
    refine ext_fin fun i => ?_
    rw [getElem_map_fin]
    by_cases hnone : es[i].action = .none
    · unfold checkPhase
      split
      · rfl
      · exact if_pos hnone
    · cases hmode : es[i].mode with
      | counted src n progress => exact checkPhase_of_counted hmode
      | repeating period phase due =>
        obtain ⟨-, -, hrepeats, -⟩ := hgood i hnone
        obtain ⟨-, hbelow⟩ := hrepeats _ _ _ hmode
        rw [checkPhase_of_repeating hnone hmode, if_neg (Nat.not_le.mpr hbelow), ← hmode]
  rw [checkEntries_eq, actionsChecked_of_good hgood, hperiod, heffective, hphase]

/-- R73: an entry's installation breaks no rule. -/
theorem entriesGood_installed {role : Role} {es : Vector SchedEntry 8} (hgood : Stated.entriesGood role es)
    (agreed : Nat) : Stated.entriesGood role (es.map fun e : SchedEntry => e.installed agreed) := by
  have haction (i : Fin 8) : (es.map fun e : SchedEntry => e.installed agreed)[i].action = es[i].action := by
    rw [getElem_map_fin, SchedEntry.installed]
    cases es[i].mode <;> rfl
  have hrepeats {i : Fin 8} {period phase due : Nat} (hmode : es[i].mode = .repeating period phase due) :
      (es.map fun e : SchedEntry => e.installed agreed)[i].mode =
        .repeating period phase (firstDue agreed period phase) := by
    rw [getElem_map_fin, SchedEntry.installed, hmode]
  have hcounts {i src : Fin 8} {n progress : Nat} (hmode : es[i].mode = .counted src n progress) :
      (es.map fun e : SchedEntry => e.installed agreed)[i].mode = .counted src n 0 := by
    rw [getElem_map_fin, SchedEntry.installed, hmode]
  intro i halive
  rw [haction] at halive ⊢
  obtain ⟨hrole, hsingle, hrepeating, hcounted⟩ := hgood i halive
  refine ⟨hrole, fun k hk => by rw [haction]; exact hsingle k hk, fun period phase due hmode => ?_,
    fun src n progress hmode => ?_⟩
  · cases hbefore : es[i].mode with
    | counted src n progress =>
      rw [hcounts hbefore] at hmode
      nomatch hmode
    | repeating period' phase' due' =>
      rw [hrepeats hbefore] at hmode
      injection hmode with hperiod hphase
      subst hperiod hphase
      exact hrepeating _ _ _ hbefore
  · cases hbefore : es[i].mode with
    | repeating period' phase' due' =>
      rw [hrepeats hbefore] at hmode
      nomatch hmode
    | counted src' n' progress' =>
      rw [hcounts hbefore] at hmode
      injection hmode with hsrc hn
      subst hsrc hn
      obtain ⟨hbeacon, hframe, hsample, hne, hsome, period, phase, due, hsource, hfit⟩ := hcounted _ _ _ hbefore
      rw [haction]
      exact ⟨hbeacon, hframe, hsample, hne, hsome, _, _, _, hrepeats hsource, hfit⟩

/-- R74: the first due is the smallest due time not earlier than agreed time. -/
theorem firstDue_spec {agreed period phase : Nat} (h : 0 < period) :
    ∃ j, firstDue agreed period phase = phase + j * period ∧ agreed ≤ phase + j * period ∧
      ∀ j', agreed ≤ phase + j' * period → j ≤ j' := by
  unfold firstDue
  split
  · exact ⟨0, by omega, by omega, fun _ _ => Nat.zero_le _⟩
  · rename_i hlate
    have hceil := Nat.lt_div_mul_add h (a := agreed - phase + period - 1)
    refine ⟨_, rfl, by omega, fun j' hj' => ?_⟩
    refine Nat.le_of_lt_succ ((Nat.div_lt_iff_lt_mul h).mpr ?_)
    rw [Nat.succ_mul]
    omega

end Sys2Proof.Machine
end

