-- ==== Sys2Proof/Proofs/SettingsChecks.lean ====
section
/-! PROOF. The loader's other checks: what they leave lies in its range, and what lies there they leave (R80, R92, R113,
R117, R128, R145, R161). O48 rests on them. -/

namespace Sys2Proof.Machine

/-! ### Geometry (R113) -/

theorem checkGeometry_of_good {g : Geometry} (h : Stated.geometryGood g) : checkGeometry g = g := by
  obtain ⟨hS, hmod, hlow, hhigh, hlines, hW, hW'⟩ := h
  have hS' : checkLines g.S = g.S := if_pos hS
  have hpos : 0 < 8 * g.S := by omega
  have hH : checkHeight g.S g.H = g.H := by
    have hmultiple : g.H / (8 * g.S) * (8 * g.S) = g.H := by
      rw [Nat.mul_comm]
      exact Nat.mul_div_cancel' (Nat.dvd_of_mod_eq_zero hmod)
    rw [checkHeight, hmultiple]
    exact clampNat_of_mem hlow (by omega)
  rw [checkGeometry, hS']
  rw [hH, clampNat_of_mem hW hW']

/-! ### Band maps (R117) -/

theorem runsMeet_eq_false_iff (a b : Band) :
    runsMeet a b = false ↔
      a.count = 0 ∨ b.count = 0 ∨ a.base + a.count ≤ b.base ∨ b.base + b.count ≤ a.base := by
  rw [← Bool.not_eq_true]
  simp only [runsMeet, Bool.and_eq_true, decide_eq_true_eq]
  omega

theorem mapsGood_iff (m : Nat) (bands : Both (Vector Band 8)) : Stated.mapsGood m bands ↔ mapsOk m bands := by
  have hapart (a b : Band) : bandsApart a b ↔ (a.access = .live → b.access = .live →
      a.count = 0 ∨ b.count = 0 ∨ a.base + a.count ≤ b.base ∨ b.base + b.count ≤ a.base) := by
    rw [bandsApart, runsMeet_eq_false_iff]
  unfold Stated.mapsGood mapsOk
  refine and_congr Iff.rfl ?_
  rw [show bandsApart = _ from funext fun a => funext fun b => propext (hapart a b)]

theorem checkRun_of_runOk {m : Nat} {b : Band} (h : runOk m b) : checkRun m b = b := by
  unfold checkRun
  split
  · rename_i hlive
    obtain ⟨hrun, hcount⟩ := h hlive
    rw [if_neg (Nat.not_lt.mpr hrun), Nat.min_eq_left hcount]
  · rfl

theorem checkOverlap_of_pairwise {before bs : List Band} (h : (before ++ bs).Pairwise bandsApart) :
    checkOverlap before bs = bs := by
  induction bs generalizing before with
  | nil => rfl
  | cons b rest ih =>
    have hapart : ∀ a ∈ before, bandsApart a b := fun a ha =>
      (List.pairwise_append.mp h).2.2 a ha b List.mem_cons_self
    have hnot : ¬ (b.access = .live ∧ before.any (fun a => a.access == .live && runsMeet a b) = true) := by
      rintro ⟨hlive, hany⟩
      obtain ⟨a, ha, hmeets⟩ := List.any_eq_true.mp hany
      obtain ⟨hlive', hruns⟩ := Bool.and_eq_true_iff.mp hmeets
      rw [hapart a ha (beq_iff_eq.mp hlive') hlive] at hruns
      nomatch hruns
    simp only [checkOverlap, if_neg hnot]
    rw [ih (by rw [← List.append_cons]; exact h)]

/-- R117: descriptors that no pass finds fault with pass as they are. -/
theorem checkBands_of_good {m : Nat} {bands : Both (Vector Band 8)} (h : mapsOk m bands) :
    checkBands m bands = bands := by
  obtain ⟨hruns, hapart⟩ := h
  have hmap : (bands.left.toList ++ bands.right.toList).map (checkRun m) =
      bands.left.toList ++ bands.right.toList :=
    (List.map_congr_left fun b hb => checkRun_of_runOk (hruns b hb)).trans (List.map_id _)
  have hlength (v : Vector Band 8) : v.toList.length = 8 := Vector.length_toList
  have hleft : (Vector.ofFn fun i : Fin 8 => bandAt (bands.left.toList ++ bands.right.toList) i.val) = bands.left := by
    refine ext_fin fun i => ?_
    rw [getElem_ofFn_fin, bandAt, List.getD_eq_getElem _ _ (by simp; omega), List.getElem_append_left (by simp)]
    exact Vector.getElem_toList ..
  have hright : (Vector.ofFn fun i : Fin 8 => bandAt (bands.left.toList ++ bands.right.toList) (8 + i.val)) =
      bands.right := by
    refine ext_fin fun i => ?_
    rw [getElem_ofFn_fin, bandAt, List.getD_eq_getElem _ _ (by simp; omega), List.getElem_append_right (by simp)]
    simp
  rw [checkBands, hmap, checkOverlap_of_pairwise (by simpa using hapart)]
  rw [hleft, hright]

theorem checkBands_eq_self_iff (m : Nat) (bands : Both (Vector Band 8)) :
    checkBands m bands = bands ↔ Stated.mapsGood m bands := by
  rw [mapsGood_iff]
  exact ⟨fun h => h ▸ checkBands_ok m bands, checkBands_of_good⟩

/-! ### Scan (R128) -/

/-- The ranges of the scan's values (08). -/
def scanRanged (v : ScanSettings) : Prop :=
  16 ≤ v.lp ∧ v.lp ≤ 4000 ∧ v.glow ≤ 5000 ∧ v.hmax ≤ 30000 ∧ v.kx ≤ 1048575 ∧ v.ky ≤ 1048575 ∧ -64 ≤ v.lensStep ∧
    v.lensStep ≤ 64 ∧ v.maxshift ≤ 255 ∧ ∀ k : Fin 4, v.brightness[k] ≤ 256

theorem clampScan_ranged (v : ScanSettings) : scanRanged (clampScan v) := by
  obtain ⟨hlp, hlp'⟩ := clampNat_bounds (lo := 16) (hi := 4000) (by omega) v.lp
  obtain ⟨hlens, hlens'⟩ := clampInt_bounds (lo := -64) (hi := 64) (by omega) v.lensStep
  refine ⟨hlp, hlp', Nat.min_le_right .., Nat.min_le_right .., Nat.min_le_right .., Nat.min_le_right .., hlens, hlens',
    Nat.min_le_right .., fun k => ?_⟩
  rw [clampScan, getElem_map_fin]
  exact Nat.min_le_right ..

theorem clampScan_of_ranged {v : ScanSettings} (h : scanRanged v) : clampScan v = v := by
  obtain ⟨hlp, hlp', hglow, hhmax, hkx, hky, hlens, hlens', hshift, hbright⟩ := h
  have hbrightness : v.brightness.map (min · 256) = v.brightness :=
    ext_fin fun k => by rw [getElem_map_fin, Nat.min_eq_left (hbright k)]
  rw [clampScan, clampNat_of_mem hlp hlp', Nat.min_eq_left hglow, Nat.min_eq_left hhmax, Nat.min_eq_left hkx,
    Nat.min_eq_left hky, clampInt_of_mem hlens hlens', Nat.min_eq_left hshift, hbrightness]

/-- R73: entries that break no rule have one FRAME entry at most, in REPEAT mode. -/
theorem framePeriodOf_cases {role : Role} {es : Vector SchedEntry 8} (hgood : Stated.entriesGood role es) :
    (framePeriodOf es = none ∧ ∀ k : Fin 8, es[k].action ≠ .frame) ∨
      ∃ (i : Fin 8) (period phase due : Nat),
        es[i] = { action := .frame, mode := .repeating period phase due } ∧ framePeriodOf es = some period ∧
          100000 ≤ period ∧ period ≤ 250000 ∧
            ∀ (k : Fin 8) (p ph d : Nat), es[k] = { action := .frame, mode := .repeating p ph d } → p = period := by
  by_cases hframe : ∃ i : Fin 8, es[i].action = .frame
  · obtain ⟨i, hi⟩ := hframe
    have hsome : es[i].action ≠ .none := by rw [hi]; nofun
    obtain ⟨-, -, hrepeats, hcounted⟩ := hgood i hsome
    have hsingle : ∀ k : Fin 8, k ≠ i → es[k].action ≠ .frame := by
      intro k hk hframe
      obtain hlt | hlt := lt_or_gt_of_ne hk
      · obtain ⟨-, hdouble, -⟩ := hgood i hsome
        exact hdouble k hlt (hframe.trans hi.symm)
      · obtain ⟨-, hdouble, -⟩ := hgood k (by rw [hframe]; nofun)
        exact hdouble i hlt (hi.trans hframe.symm)
    cases hmode : es[i].mode with
    | counted src n progress =>
      obtain ⟨-, hnot, -⟩ := hcounted _ _ _ hmode
      exact absurd hi hnot
    | repeating period phase due =>
      have hentry : es[i] = { action := .frame, mode := .repeating period phase due } := by
        rw [← hi, ← hmode]
      obtain ⟨hfit, -⟩ := hrepeats _ _ _ hmode
      rw [hi] at hfit
      refine .inr ⟨i, period, phase, due, hentry, periodOf_of_single (k := ⟨es, 0⟩) hentry hsingle, hfit.1, hfit.2,
        fun k p ph d hk => ?_⟩
      by_cases hki : k = i
      · rw [hki, hentry] at hk
        injection hk with _ hm
        injection hm with hp
        exact hp.symm
      · exact absurd (by rw [hk]) (hsingle k hki)
  · have hnone : ∀ k : Fin 8, es[k].action ≠ .frame := fun k hk => hframe ⟨k, hk⟩
    refine .inl ⟨?_, hnone⟩
    have hfind : es.toList.find? (·.action == .frame) = none := by
      rw [List.find?_eq_none]
      intro x hx
      obtain ⟨j, hj, rfl⟩ := List.mem_iff_getElem.mp hx
      have := hnone ⟨j, by simpa using hj⟩
      simpa using this
    rw [framePeriodOf, Schedule.periodOf, hfind]
    rfl

/-- R128: H × LP stays below the FRAME entry's period. -/
def scanFits (es : Vector SchedEntry 8) (h : Nat) (v : ScanSettings) : Prop :=
  ∀ (k : Fin 8) (period phase due : Nat), es[k] = { action := .frame, mode := .repeating period phase due } →
    h * v.lp < period

theorem lineTooLong_eq_false_iff {role : Role} {es : Vector SchedEntry 8} (hgood : Stated.entriesGood role es) (h : Nat)
    (v : ScanSettings) : lineTooLong (framePeriodOf es) h v = false ↔ scanFits es h v := by
  obtain ⟨hnone, hframe⟩ | ⟨i, period, phase, due, hentry, hperiod, -, -, hsame⟩ := framePeriodOf_cases hgood
  · rw [hnone]
    exact ⟨fun _ k p ph d hk => absurd (by rw [hk]) (hframe k), fun _ => rfl⟩
  · rw [hperiod, lineTooLong, decide_eq_false_iff_not, Nat.not_le]
    refine ⟨fun hlt k p ph d hk => ?_, fun hfits => hfits i period phase due hentry⟩
    rw [hsame k p ph d hk]
    exact hlt

theorem scanGood_iff (es : Vector SchedEntry 8) (h : Nat) (v : ScanSettings) :
    Stated.scanGood es h v ↔ scanRanged v ∧ scanFits es h v := by
  simp only [Stated.scanGood, scanRanged, scanFits, and_assoc]

/-- R128: the scan's values after the line period's check. -/
theorem checkLinePeriod_ranged {role : Role} {es : Vector SchedEntry 8} {g : Geometry}
    (hgood : Stated.entriesGood role es) (hg : Stated.geometryGood g) {v : ScanSettings} (hv : scanRanged v) :
    scanRanged (checkLinePeriod (framePeriodOf es) g.H v) ∧
      ∀ (k : Fin 8) (period phase due : Nat), es[k] = { action := .frame, mode := .repeating period phase due } →
        g.H * (checkLinePeriod (framePeriodOf es) g.H v).lp ≤ period := by
  cases hlong : lineTooLong (framePeriodOf es) g.H v with
  | false =>
    have hkept : checkLinePeriod (framePeriodOf es) g.H v = v := if_neg (by rw [hlong]; nofun)
    rw [hkept]
    exact ⟨hv, fun k p ph d hk => ((lineTooLong_eq_false_iff hgood g.H v).mp hlong k p ph d hk).le⟩
  | true =>
    obtain ⟨hnone, -⟩ | ⟨i, period, phase, due, -, hperiod, hlow, hhigh, hsame⟩ := framePeriodOf_cases hgood
    · rw [hnone] at hlong
      nomatch hlong
    · have hcut : checkLinePeriod (framePeriodOf es) g.H v = { v with lp := period / g.H } := by
        rw [checkLinePeriod, if_pos hlong, hperiod]
        rfl
      obtain ⟨hS, -, hHlow, hHhigh, -⟩ := hg
      have hHpos : 64 ≤ g.H := by omega
      have hlp : 16 ≤ period / g.H := (Nat.le_div_iff_mul_le (by omega)).mpr (by omega)
      have hlp' : period / g.H ≤ 4000 := Nat.div_le_of_le_mul (by omega)
      obtain ⟨-, -, hrest⟩ := hv
      rw [hcut]
      refine ⟨⟨hlp, hlp', hrest⟩, fun k p ph d hk => ?_⟩
      rw [hsame k p ph d hk]
      exact Nat.mul_div_le ..

/-! ### Motion, dials and power (R80, R92, R161) -/

theorem axesClash_eq_false_iff (m : Axes AxisMap) :
    axesClash m = false ↔ m.yaw.axis ≠ m.pitch.axis ∧ m.yaw.axis ≠ m.roll.axis ∧ m.pitch.axis ≠ m.roll.axis := by
  simp [axesClash, and_assoc]

theorem clampMotion_good (k : MotionSettings) : Stated.motionGood (clampMotion k) := by
  have hbias (b : Int) := clampInt_bounds (lo := -4096) (hi := 4095) (by omega) b
  have hgain (g : Nat) := clampNat_bounds (lo := 1) (hi := 65535) (by omega) g
  obtain ⟨hlow, hhigh⟩ := clampNat_bounds (lo := 50) (hi := 5000) (by omega) k.readLimit
  have haxes : axesClash (clampMotion k).axisMap = false := by
    change axesClash (if axesClash k.axisMap then defaultAxisMap else k.axisMap) = false
    cases h : axesClash k.axisMap with
    | true => exact (by decide : axesClash defaultAxisMap = false)
    | false => exact h
  refine ⟨hlow, hhigh, ?_, ?_, (axesClash_eq_false_iff _).mp haxes⟩
  · rintro b (rfl | rfl | rfl) <;> exact hbias _
  · rintro g (rfl | rfl | rfl) <;> exact hgain _

theorem clampMotion_of_good {k : MotionSettings} (h : Stated.motionGood k) : clampMotion k = k := by
  obtain ⟨hlow, hhigh, hbias, hgain, haxes⟩ := h
  have hb (b : Int) (hb : b = k.bias.yaw ∨ b = k.bias.pitch ∨ b = k.bias.roll) : clampInt b (-4096) 4095 = b :=
    clampInt_of_mem (hbias b hb).1 (hbias b hb).2
  have hg (g : Nat) (hg : g = k.gain.yaw ∨ g = k.gain.pitch ∨ g = k.gain.roll) : clampNat g 1 65535 = g :=
    clampNat_of_mem (hgain g hg).1 (hgain g hg).2
  have hbiases : k.bias.map (clampInt · (-4096) 4095) = k.bias := by
    rw [Axes.map, hb _ (.inl rfl), hb _ (.inr (.inl rfl)), hb _ (.inr (.inr rfl))]
  have hgains : k.gain.map (clampNat · 1 65535) = k.gain := by
    rw [Axes.map, hg _ (.inl rfl), hg _ (.inr (.inl rfl)), hg _ (.inr (.inr rfl))]
  rw [clampMotion, (axesClash_eq_false_iff _).mpr haxes, hbiases, hgains, clampNat_of_mem hlow hhigh]
  rfl

theorem checkDial_of_good {default d : DialRange} (hlow : d.min ≤ d.start) (hhigh : d.start ≤ d.max) :
    checkDial default d = d := by
  have hnot : ¬ d.max < d.min := by omega
  rw [checkDial, if_neg hnot]
  rw [clampInt_of_mem hlow hhigh]

theorem checkPower_of_good {role : Role} {p : PowerSettings} (h : Stated.figuresGood role p) :
    checkPower role p = p := by
  obtain ⟨h01, h12, h23, hred, hlow, hempty, hsupply⟩ := h
  have hdraw : #v[p.draw[0], max p.draw[1] p.draw[0], max p.draw[2] (max p.draw[1] p.draw[0]),
      max p.draw[3] (max p.draw[2] (max p.draw[1] p.draw[0]))] = p.draw := by
    rw [Nat.max_eq_left h01, Nat.max_eq_left h12, Nat.max_eq_left h23]
    refine Vector.ext fun i hi => ?_
    match i, hi with
    | 0, _ => rfl
    | 1, _ => rfl
    | 2, _ => rfl
    | 3, _ => rfl
  have hempty' : (if role = .supply then min (min p.empty 100) (min p.low 100) else min p.empty 100) = p.empty := by
    split
    · obtain ⟨hle, -⟩ := hsupply ‹_›
      omega
    · omega
  have hlast : (if role = .supply then min p.availableLow p.availableFull else p.availableLow) = p.availableLow := by
    split
    · obtain ⟨-, hle⟩ := hsupply ‹_›
      omega
    · rfl
  rw [checkPower]
  rw [hdraw, Nat.max_eq_left hred, hempty', Nat.min_eq_left hlow, hlast]

end Sys2Proof.Machine
end

