-- ==== Sys2Proof/Proofs/LoadedSettings.lean ====
section
/-! PROOF. The settings the loader obtains: in their ranges always, and those of the image where no check finds fault
with them (R73, R113, R117, R128, R161, R177). O48 rests on them. -/

namespace Sys2Proof.Machine

/-- The settings of an image after every check (R177). -/
def checked (role : Role) (v : Settings) : Settings := checkLast role (checkMaps (checkFirst role v))

/-- The line period's check acts on the settings of an image (R128). -/
def lineCut (role : Role) (v : Settings) : Bool := lineCheckActs (checkMaps (checkFirst role v))

/-- What the loader leaves: every setting in its range, H × LP at most the frame period (R73, R113, R117, R128,
R161). -/
structure SettingsRanged (role : Role) (v : Settings) : Prop where
  entries : Stated.entriesGood role v.entries
  geometry : Stated.geometryGood v.geometry
  maps : Stated.mapsGood v.geometry.bandSlices v.bands
  scan : scanRanged v.scan
  line : ∀ (k : Fin 8) (period phase due : Nat),
    v.entries[k] = { action := .frame, mode := .repeating period phase due } → v.geometry.H * v.scan.lp ≤ period
  motion : Stated.motionGood v.motion
  loaded : LoadedOk role v

theorem checked_ranged (role : Role) (node : Node) (image : List Byte) :
    SettingsRanged role (checked role (readImage image (defaultSettings role node))) := by
  have hentries := checkEntries_good role (readImage image (defaultSettings role node)).entries
  have hgeometry := checkGeometry_good (readImage image (defaultSettings role node)).geometry
  obtain ⟨hscan, hline⟩ := checkLinePeriod_ranged hentries hgeometry
    (clampScan_ranged (readImage image (defaultSettings role node)).scan)
  exact ⟨hentries, hgeometry, (mapsGood_iff ..).mpr (checkBands_ok ..), hscan, hline, clampMotion_good _,
    loadedOk_image role node image⟩

theorem SettingsRanged.good {role : Role} {v : Settings} (h : SettingsRanged role v)
    (hfits : scanFits v.entries v.geometry.H v.scan) : Stated.settingsGood role v := by
  obtain ⟨-, -, ⟨he0, he0'⟩, ⟨he1, he1'⟩, hpower, ⟨hstrain, hstrain'⟩, ⟨hstep, hstep'⟩, ⟨hslip, hslip'⟩⟩ := h.loaded
  exact ⟨h.entries, h.geometry, h.maps, (scanGood_iff ..).mpr ⟨h.scan, hfits⟩, h.motion, he0, he0', he1, he1', hslip,
    hslip', hpower, hstrain, hstrain', hstep, hstep'⟩

/-- R177: settings that no range and no check finds fault with pass as they are. -/
theorem checked_of_good {role : Role} {v : Settings} (h : Stated.settingsGood role v) :
    checked role v = v ∧ lineCut role v = false := by
  obtain ⟨hentries, hgeometry, hmaps, hscan, hmotion, he0, he0', he1, he1', hslip, hslip', hpower, hstrain, hstrain',
    hstep, hstep'⟩ := h
  obtain ⟨hranged, hfits⟩ := (scanGood_iff ..).mp hscan
  have hfirst : checkFirst role v = v := by
    rw [checkFirst, checkEntries_of_good hentries, checkGeometry_of_good hgeometry]
  have hbands : checkMaps v = v := by
    rw [checkMaps, (checkBands_eq_self_iff ..).mpr hmaps]
  have hline : lineTooLong (framePeriodOf v.entries) v.geometry.H v.scan = false :=
    (lineTooLong_eq_false_iff hentries ..).mpr hfits
  have hclamped := clampScan_of_ranged hranged
  have hperiod : checkLinePeriod (framePeriodOf v.entries) v.geometry.H v.scan = v.scan :=
    if_neg (by rw [hline]; nofun)
  rw [checked, lineCut, hfirst, hbands]
  refine ⟨?_, by rw [lineCheckActs, hclamped, hline]⟩
  rw [checkLast, hclamped, hperiod, clampMotion_of_good hmotion, checkDial_of_good he0 he0', checkDial_of_good he1 he1',
    clampNat_of_mem hslip hslip', checkPower_of_good hpower, clampNat_of_mem hstrain hstrain',
    clampNat_of_mem hstep hstep']

/-- R177: PROFILE is latched for settings exactly if a range or a check finds fault with them. -/
theorem settingsGood_iff (role : Role) (node : Node) (image : List Byte) :
    Stated.settingsGood role (readImage image (defaultSettings role node)) ↔
      checked role (readImage image (defaultSettings role node)) = readImage image (defaultSettings role node) ∧
        lineCut role (readImage image (defaultSettings role node)) = false := by
  refine ⟨checked_of_good, fun ⟨hsame, hcut⟩ => ?_⟩
  have hranged := checked_ranged role node image
  obtain ⟨v, hv⟩ : ∃ v, v = readImage image (defaultSettings role node) := ⟨_, rfl⟩
  rw [← hv] at hsame hcut hranged ⊢
  have hline : lineTooLong (framePeriodOf (checked role v).entries) (checked role v).geometry.H (clampScan v.scan) =
      false := hcut
  have hscan : (checked role v).scan = clampScan v.scan :=
    if_neg fun h => Bool.false_ne_true (hcut.symm.trans h)
  have hfits := (lineTooLong_eq_false_iff hranged.entries (checked role v).geometry.H (clampScan v.scan)).mp hline
  rw [← hscan] at hfits
  exact hsame ▸ hranged.good hfits

/-! ### The defaults -/

/-- R73: one entry of a table breaks no rule, as a test that can be run. -/
def entrySound (role : Role) (es : Vector SchedEntry 8) (i : Fin 8) : Bool :=
  roleHas role es[i].action && !isDuplicate es i &&
    match es[i].mode with
    | .repeating period phase _ => periodFit es[i].action period == period && decide (phase < period)
    | .counted src n _ =>
      es[i].action != .beacon && es[i].action != .frame && es[i].action != .sample && src != i &&
        es[src].action != .none && !isCounted es[src] &&
          decide ((periodRange es[i].action).1 ≤ sourcePeriod es src * n) &&
            decide (sourcePeriod es src * n ≤ (periodRange es[i].action).2)

theorem entriesGood_of_sound {role : Role} {es : Vector SchedEntry 8}
    (h : ∀ i : Fin 8, es[i].action = .none ∨ entrySound role es i = true) : Stated.entriesGood role es := by
  intro i halive
  have hsound := (h i).resolve_left halive
  rw [entrySound, Bool.and_eq_true, Bool.and_eq_true, Bool.not_eq_true', ← Bool.not_eq_true] at hsound
  obtain ⟨⟨hrole, hsingle⟩, hmode⟩ := hsound
  rw [isDuplicate_iff] at hsingle
  refine ⟨(roleHas_iff ..).mp hrole, fun k hk hsame => hsingle ⟨halive, k, hk, hsame⟩, fun period phase due
    hrepeats => ?_, fun src n progress hcounts => ?_⟩
  · rw [hrepeats] at hmode
    simp only [Bool.and_eq_true, beq_iff_eq, decide_eq_true_eq] at hmode
    obtain ⟨hfit, hbelow⟩ := hmode
    exact ⟨hfit ▸ periodFit_good halive period, hbelow⟩
  · rw [hcounts] at hmode
    simp only [Bool.and_eq_true, bne_iff_ne, Bool.not_eq_true', decide_eq_true_eq] at hmode
    obtain ⟨⟨⟨⟨⟨⟨⟨hbeacon, hframe⟩, hsample⟩, hne⟩, hsome⟩, hrepeats⟩, hlow⟩, hhigh⟩ := hmode
    obtain ⟨period, phase, due, hsource⟩ := exists_repeating_of_not_counted (by rw [hrepeats]; nofun)
    rw [sourcePeriod, hsource] at hlow hhigh
    exact ⟨hbeacon, hframe, hsample, hne, hsome, period, phase, due, hsource,
      (periodGood_iff halive _).mpr ⟨⟨hlow, hhigh⟩, fun h => absurd h hsample⟩⟩

theorem entriesGood_defaults (role : Role) (node : Node) : Stated.entriesGood role (defaultEntries role node) := by
  refine entriesGood_of_sound ?_
  cases role <;> revert node <;> decide

theorem lineTooLong_defaults (role : Role) (node : Node) :
    lineTooLong (framePeriodOf (defaultEntries role node)) 1536 defaultScan = false := by
  cases role <;> revert node <;> decide

theorem settingsGood_defaults (role : Role) (node : Node) : Stated.settingsGood role (defaultSettings role node) := by
  have hentries := entriesGood_defaults role node
  have hloaded := loadedOk_defaults role node
  have hscan : scanRanged defaultScan := by
    unfold scanRanged
    decide
  have hfits := (lineTooLong_eq_false_iff hentries 1536 defaultScan).mp (lineTooLong_defaults role node)
  have hkept : clampMotion defaultMotion = defaultMotion := by decide
  have hmotion : Stated.motionGood defaultMotion := hkept ▸ clampMotion_good defaultMotion
  have hranged : SettingsRanged role (defaultSettings role node) :=
    ⟨hentries, hloaded.geometry, (mapsGood_iff ..).mpr hloaded.maps, hscan, fun k p ph d hk => (hfits k p ph d hk).le,
      hmotion, hloaded⟩
  exact hranged.good hfits

/-- R177: whatever is loaded lies in its ranges. -/
theorem loadProfile_ranged (straps : Straps) (image : List Byte) :
    SettingsRanged straps.role (loadProfile straps image).settings := by
  unfold loadProfile
  split
  · exact checked_ranged straps.role straps.node image
  · obtain ⟨hentries, hgeometry, hmaps, hscan, hmotion, -⟩ := settingsGood_defaults straps.role straps.node
    obtain ⟨hranged, hfits⟩ := (scanGood_iff ..).mp hscan
    exact ⟨hentries, hgeometry, hmaps, hranged, fun k p ph d hk => (hfits k p ph d hk).le, hmotion,
      loadedOk_defaults straps.role straps.node⟩

end Sys2Proof.Machine
end

