-- ==== Sys2Proof/Proofs/Installation.lean ====
section
/-! PROOF. What an installation puts in every block that takes settings (R177). O48 rests on them. -/

namespace Sys2Proof.Machine

theorem exec_profileInstalled {s : State} (image : List Byte) (hlife : s.loader.life = .loading) :
    exec (.profileInstalled image) s = .next (install (loadProfile s.straps image) s) :=
  congrArg Host.Outcome.next (if_pos hlife)

theorem exec_profileMemoryTimeout {s : State} (hlife : s.loader.life = .loading)
    (hpresent : s.straps.profilePresent = true) (hout : 10000 ≤ s.time.localCount) :
    exec .profileMemoryTimeout s = .next (install (loadDefaults s.straps.role s.straps.node) s) := by
  refine congrArg Host.Outcome.next (if_pos ?_)
  simp [State.memoryOut, hlife, hpresent, hout]

theorem install_sched (l : Loaded) (s : State) :
    (install l s).sched =
      { s.sched with entries := l.settings.entries.map fun e : SchedEntry => e.installed s.agreed } := by
  simp [install, installSettings]

theorem install_intake (l : Loaded) (s : State) :
    (install l s).intake = { s.intake with table := l.settings.table } := by
  simp [install, installSettings]

theorem install_power_settings (l : Loaded) (s : State) :
    (install l s).power.settings = l.settings.power ∧ (install l s).power.grant = l.settings.power.draw[0] := by
  simp [install, installSettings, installPower, setOwnEntry]

theorem install_time (l : Loaded) (s : State) :
    (install l s).time = { s.time with stepLimit := l.settings.stepLimit, timer := some (s.agreed : Int) } := by
  have htime : (latchLoaded l (installSettings l.settings s)).time =
      { s.time with stepLimit := l.settings.stepLimit } := by
    simp [installSettings]
  have hlisten (u : State) : (enterListening u).time = { u.time with timer := some (u.agreed : Int) } := by
    unfold enterListening
    dsimp only
    split <;> simp [State.agreed]
  rw [install, hlisten, State.agreed, htime]
  rfl

/-- R177, R182: a CONSOLE forms a PORT STATUS at the end of its installation. -/
theorem install_port_status (l : Loaded) {s : State} (hrole : s.straps.role = .console) :
    (install l s).port.status.isSome = true := by
  have hlisten (u : State) (hu : u.straps.role = .console) : (enterListening u).port.status.isSome = true := by
    unfold enterListening
    dsimp only
    split
    · rfl
    · rename_i h
      exact absurd hu h
  exact hlisten _ (by simp [hrole])

/-- R51: the alarm set while the settings take their places. -/
theorem installSettings_alarms (v : Settings) (s : State) :
    (installSettings v s).alarms = { s.alarms with wire := v.wire, message := v.message } := by
  simp [installSettings]

theorem install_alarms_eq (l : Loaded) (s : State) :
    (install l s).alarms = (latchLoaded l (installSettings l.settings s)).alarms := by
  simp [install]

/-- R51, R177: a flag that the loader does not hand over is latched where it was. -/
theorem latchLoaded_alarms_of_clean {l : Loaded} (hprofile : l.profile = false) (hmap : l.map = false) (s : State) :
    latchLoaded l s = s := by
  rw [latchLoaded, hprofile, hmap]
  rfl

theorem latchLoaded_masks (l : Loaded) (s : State) :
    (latchLoaded l s).alarms.wire = s.alarms.wire ∧ (latchLoaded l s).alarms.message = s.alarms.message := by
  have hlatch (f : Flag) (u : State) : (latch f u).alarms.wire = u.alarms.wire ∧
      (latch f u).alarms.message = u.alarms.message := by
    cases h : u.isLatched f with
    | false => rw [latch_alarms h]; exact ⟨rfl, rfl⟩
    | true => rw [latch_of_latched h]; exact ⟨rfl, rfl⟩
  unfold latchLoaded
  dsimp only
  cases l.profile <;> cases l.map
  · exact ⟨rfl, rfl⟩
  · exact hlatch .map s
  · exact hlatch .profile s
  · obtain ⟨hw, hm⟩ := hlatch .map (latch .profile s)
    obtain ⟨hw', hm'⟩ := hlatch .profile s
    exact ⟨hw.trans hw', hm.trans hm'⟩

theorem isLatched_latch (f g : Flag) (s : State) :
    (latch f s).isLatched g = (s.isLatched g || decide (g.number = f.number)) := by
  rw [State.isLatched, has, latch_latched, BitVec.getLsbD_or, getLsbD_mask f (by cases g <;> decide)]
  rfl

theorem latchLoaded_latched (l : Loaded) (s : State) :
    (latchLoaded l s).isLatched .profile = (s.isLatched .profile || l.profile) ∧
      (latchLoaded l s).isLatched .map = (s.isLatched .map || l.map) := by
  have hprofile : (Flag.profile.number = Flag.map.number) = False := by decide
  have hmap : (Flag.map.number = Flag.profile.number) = False := by decide
  unfold latchLoaded
  dsimp only
  cases l.profile <;> cases l.map <;> simp [isLatched_latch, hprofile, hmap]

theorem install_slots_port (l : Loaded) (s : State) : (install l s).slots.port = s.slots.port := by
  have hslots : (install l s).slots = (latchLoaded l (installSettings l.settings s)).slots := by simp [install]
  have hsettings : (installSettings l.settings s).slots = s.slots := by simp
  rw [hslots, ← hsettings]
  unfold latchLoaded
  dsimp only
  cases l.profile <;> cases l.map <;> simp

/-! ### The entries installed (R74) -/

theorem installed_action (e : SchedEntry) (agreed : Nat) : (e.installed agreed).action = e.action := by
  unfold SchedEntry.installed
  split <;> rfl

theorem installed_of_repeating {e : SchedEntry} {period phase due : Nat} (h : e.mode = .repeating period phase due)
    (agreed : Nat) : (e.installed agreed).mode = .repeating period phase (firstDue agreed period phase) := by
  rw [SchedEntry.installed, h]

theorem installed_of_counted {e : SchedEntry} {src : Fin 8} {n progress : Nat} (h : e.mode = .counted src n progress)
    (agreed : Nat) : (e.installed agreed).mode = .counted src n 0 := by
  rw [SchedEntry.installed, h]

theorem of_installed_repeating {e : SchedEntry} {agreed period phase due : Nat}
    (h : (e.installed agreed).mode = .repeating period phase due) :
    due = firstDue agreed period phase ∧ ∃ due', e.mode = .repeating period phase due' := by
  cases hmode : e.mode with
  | counted src n progress =>
    rw [installed_of_counted hmode] at h
    nomatch h
  | repeating period' phase' due' =>
    rw [installed_of_repeating hmode] at h
    injection h with hperiod hphase hdue
    subst hperiod hphase
    exact ⟨hdue.symm, _, rfl⟩

theorem of_installed_counted {e : SchedEntry} {agreed : Nat} {src : Fin 8} {n progress : Nat}
    (h : (e.installed agreed).mode = .counted src n progress) :
    progress = 0 ∧ ∃ progress', e.mode = .counted src n progress' := by
  cases hmode : e.mode with
  | repeating period' phase' due' =>
    rw [installed_of_repeating hmode] at h
    nomatch h
  | counted src' n' progress' =>
    rw [installed_of_counted hmode] at h
    injection h with hsrc hn hprogress
    subst hsrc hn
    exact ⟨hprogress.symm, _, rfl⟩

theorem install_entry (l : Loaded) (s : State) (k : Fin 8) :
    (install l s).sched.entries[k] = l.settings.entries[k].installed s.agreed := by
  rw [install_sched]
  exact getElem_map_fin ..

end Sys2Proof.Machine
end

