-- ==== Sys2Proof/Proofs/ProfileInstalled.lean ====
section
/-! PROOF. The installation of the defaults, of any image, and of a usable one (R70, R73, R92, R113, R117, R128, R161,
R177). O48 rests on them. -/

namespace Sys2Proof.Machine

/-! ### No usable image -/

theorem exec_of_missing {s : State} {i : Instr} (hlife : s.loader.life = .loading)
    (hrow : (∃ image, i = .profileInstalled image ∧ (s.straps.profilePresent = false ∨ imageGood image = false)) ∨
      i = .profileMemoryTimeout ∧ s.straps.profilePresent = true ∧ 10000 ≤ s.time.localCount) :
    exec i s = .next (install (loadDefaults s.straps.role s.straps.node) s) := by
  obtain ⟨image, rfl, hbad⟩ | ⟨rfl, hpresent, hout⟩ := hrow
  · have hnot : (s.straps.profilePresent && imageGood image) = false := by
      obtain h | h := hbad
      · rw [h, Bool.false_and]
      · rw [h, Bool.and_false]
    rw [exec_profileInstalled image hlife, loadProfile, hnot]
    rfl
  · exact exec_profileMemoryTimeout hlife hpresent hout

/-- R51: the defaults latch PROFILE alone, which drives the alert wire. -/
theorem install_defaults_alarms {s : State} (role : Role) (node : Node) :
    (install (loadDefaults role node) s).isLatched .profile = true ∧
      (s.alarms.latched = 0 → s.alarms.unsent = 0 →
        (install (loadDefaults role node) s).alarms.latched = 1 ∧
          (install (loadDefaults role node) s).alarms.unsent = 1) := by
  obtain ⟨u, hu⟩ : ∃ u, u = installSettings (defaultSettings role node) s := ⟨_, rfl⟩
  have halarms : (install (loadDefaults role node) s).alarms = (latch .profile u).alarms := by
    rw [install_alarms_eq, hu]
    rfl
  have hualarms : u.alarms = { s.alarms with wire := defaultWire, message := defaultMessage } := by
    rw [hu, installSettings_alarms]
    rfl
  refine ⟨?_, fun hlatched hunsent => ?_⟩
  · have hlatches := isLatched_latch .profile .profile u
    rw [decide_eq_true rfl, Bool.or_true] at hlatches
    rw [State.isLatched, halarms]
    exact hlatches
  · have hnot : u.isLatched .profile = false := by
      rw [State.isLatched, hualarms, hlatched]
      rfl
    rw [halarms, latch_alarms hnot, hualarms, hlatched, hunsent]
    have hmarked : defaultMessage.getLsbD Flag.profile.number = true := by decide
    exact ⟨rfl, if_pos hmarked⟩

theorem defaultBands_eq (b : Fin 8) :
    defaultBands.left[b] = Stated.defaultBand (12 * b.val) ∧
      defaultBands.right[b] = Stated.defaultBand (96 + 12 * b.val) := by
  revert b
  decide

theorem defaultEntries_eq (role : Role) (node : Node) :
    defaultEntries role node = Stated.defaultSchedule role node.val := by
  cases role <;> rfl

/-- R74: an entry with an action has the first due that its mode asks for. -/
theorem install_entry_due {role : Role} {l : Loaded} (hgood : Stated.entriesGood role l.settings.entries) {s : State}
    {k : Fin 8} {period phase due : Nat} (hmode : (install l s).sched.entries[k].mode = .repeating period phase due)
    (halive : (install l s).sched.entries[k].action ≠ .none) :
    ∃ j, due = phase + j * period ∧ s.agreed ≤ due ∧ ∀ j', s.agreed ≤ phase + j' * period → j ≤ j' := by
  rw [install_entry] at hmode halive
  rw [installed_action] at halive
  obtain ⟨hdue, due', hbefore⟩ := of_installed_repeating hmode
  obtain ⟨-, -, hrepeats, -⟩ := hgood k halive
  obtain ⟨hfit, -⟩ := hrepeats _ _ _ hbefore
  obtain ⟨j, hj, hreached, hleast⟩ := firstDue_spec (agreed := s.agreed) (phase := phase) (period_pos halive hfit)
  rw [← hj, ← hdue] at hreached
  exact ⟨j, hdue.trans hj, hreached, hleast⟩

/-- R92: a count that is moved into the range is marked. -/
theorem atRestart_limit (d : DialState) (r : DialRange) (hmoved : (d.atRestart r).count ≠ d.count) :
    (d.atRestart r).limit = true :=
  Bool.or_eq_true_iff.mpr (.inr (bne_iff_ne.mpr hmoved))

theorem missingProfileInstallsDefaults : Stated.MissingProfileInstallsDefaults := by
  intro s i hlife hrow
  obtain ⟨d, hd⟩ : ∃ d, d = loadDefaults s.straps.role s.straps.node := ⟨_, rfl⟩
  have hsettings : d.settings = defaultSettings s.straps.role s.straps.node := by rw [hd]; rfl
  have htime := install_time d s
  have hspine := install_spine d s
  have halarms := installSettings_alarms d.settings s
  obtain ⟨hwire, hmessage⟩ := latchLoaded_masks d (installSettings d.settings s)
  rw [← install_alarms_eq, halarms, hsettings] at hwire hmessage
  obtain ⟨hlatched, hfresh⟩ := install_defaults_alarms (s := s) s.straps.role s.straps.node
  rw [← hd] at hlatched hfresh
  have hstore := install_store d s
  have hsched := install_sched d s
  obtain ⟨hpower, hgrant⟩ := install_power_settings d s
  have haudio := install_audio d s
  rw [hsettings] at htime hspine hstore hsched hpower hgrant haudio
  have hdials := install_dials d s
  rw [hsettings] at hdials
  refine ⟨install d s, hd ▸ exec_of_missing hlife hrow, install_loader d s, by rw [htime], by rw [htime],
    by rw [htime]; rfl, by rw [hspine]; rfl, by rw [hspine], hwire, hmessage, hlatched, fun h h' => ?alert,
    by rw [hstore]; rfl, fun b => ?bands, ?scan, ?motion, ?e0, ?e1, ?table, fun e => ?eyes, by rw [haudio]; rfl,
    by rw [haudio]; rfl, ?figures, ?grant, fun k => ?entries, fun k period phase due hmode halive => ?dues,
    fun hpowerOn _ => ?powerOn, fun hrestart => ?restart, fun hrole => install_port_status d hrole,
    install_slots_port d s, by simp, ?queue⟩
  case alert =>
    obtain ⟨hl, hu⟩ := hfresh h h'
    refine ⟨hl, hu, ?_⟩
    have hdrives : (1 &&& defaultWire != 0) = true := by decide
    rw [State.alertDriven, hl, hwire]
    exact hdrives
  case bands =>
    rw [hstore]
    exact defaultBands_eq b
  case scan =>
    rw [install_scan, hsettings]
    rfl
  case motion =>
    rw [install_motion, hsettings]
    rfl
  case e0 =>
    rw [hdials]
    split <;> rfl
  case e1 =>
    rw [hdials]
    split <;> rfl
  case table =>
    rw [install_intake, hsettings]
    rfl
  case eyes =>
    have hslices : (defaultSettings s.straps.role s.straps.node).geometry.slices = 96 := by
      change defaultGeometry.slices = 96
      decide
    rw [install_laneRx, hsettings, hslices]
    cases e <;> exact ⟨rfl, rfl⟩
  case figures =>
    rw [hpower]
    change defaultPower s.straps.role = _
    cases s.straps.role <;> rfl
  case grant =>
    rw [hgrant]
    change (defaultPower s.straps.role).draw[0] = _
    cases s.straps.role <;> rfl
  case entries =>
    intro e
    have he : d.settings.entries[k] = e := by
      have hentries : d.settings.entries = Stated.defaultSchedule s.straps.role s.straps.node.val := by
        rw [hsettings]
        exact defaultEntries_eq ..
      rw [hentries]
    rw [install_entry, he]
    exact ⟨installed_action .., fun period phase due hmode _ => ⟨_, installed_of_repeating hmode _⟩,
      fun src n progress hmode => installed_of_counted hmode _⟩
  case dues =>
    have hgood : Stated.entriesGood s.straps.role d.settings.entries := by
      rw [hsettings]
      exact entriesGood_defaults s.straps.role s.straps.node
    exact install_entry_due hgood hmode halive
  case powerOn =>
    rw [hdials, hpowerOn]
    exact ⟨rfl, rfl, rfl, rfl, rfl, rfl, rfl, rfl⟩
  case restart =>
    rw [hdials, hrestart, within_eq _ (by decide), within_eq _ (by decide)]
    exact ⟨rfl, rfl, atRestart_limit _ _, rfl, rfl, atRestart_limit _ _⟩
  case queue => rw [install_intake]

end Sys2Proof.Machine
end

