-- ==== Sys2Proof/Proofs/ImageInstalled.lean ====
section
/-! PROOF. The installation of any image, and of a usable one: the ranges, the values and the flags (R73, R74, R113,
R117, R128, R161, R177). With these O48 is settled. -/

namespace Sys2Proof.Machine

/-! ### Every image -/

theorem installedSettingsLieInTheirRanges : Stated.InstalledSettingsLieInTheirRanges := by
  intro s image hlife
  obtain ⟨l, hl⟩ : ∃ l, l = loadProfile s.straps image := ⟨_, rfl⟩
  have hranged : SettingsRanged s.straps.role l.settings := hl ▸ loadProfile_ranged s.straps image
  have hloaded := hranged.loaded
  obtain ⟨hlp, hlp', hglow, hhmax, hkx, hky, hlens, hlens', hshift, hbright⟩ := hranged.scan
  have hexec : exec (.profileInstalled image) s = .next (install l s) := hl ▸ exec_profileInstalled image hlife
  have hdials := install_dialsOk hloaded s
  refine ⟨install l s, hexec, ?_⟩
  rw [install_loader, install_spine, install_time, install_audio, install_motion, install_sched, install_scan,
    install_store, (install_power_settings l s).1]
  refine ⟨rfl, hloaded.strain.1, hloaded.strain.2, hloaded.stepLimit.1, hloaded.stepLimit.2, hloaded.slipLimit.1,
    hloaded.slipLimit.2, hranged.motion, entriesGood_installed hranged.entries s.agreed,
    fun k src n progress hmode _ => ?_, hlp, hlp', hglow, hhmax, hkx, hky, hlens, hlens', hshift, hbright,
    fun k period phase due hentry => ?_, hranged.geometry, hranged.maps, hdials, hloaded.power⟩
  · rw [getElem_map_fin] at hmode
    exact (of_installed_counted hmode).1
  · rw [getElem_map_fin] at hentry
    have hmode : (l.settings.entries[k].installed s.agreed).mode = .repeating period phase due := by rw [hentry]
    have haction : l.settings.entries[k].action = .frame := by
      rw [← installed_action l.settings.entries[k] s.agreed, hentry]
    obtain ⟨-, due', hbefore⟩ := of_installed_repeating hmode
    exact hranged.line k period phase due' (by rw [← haction, ← hbefore])

/-! ### A usable image -/

theorem loadProfile_of_usable {straps : Straps} {image : List Byte} (hpresent : straps.profilePresent = true)
    (hgood : imageGood image = true) : loadProfile straps image = loadImage straps.role straps.node image :=
  if_pos (by rw [hpresent, hgood]; rfl)

theorem loadImage_settings (role : Role) (node : Node) (image : List Byte) :
    (loadImage role node image).settings = checked role (readImage image (defaultSettings role node)) := rfl

/-- R177: a setting that is made of its number. -/
theorem setting_read {α : Type} (image : List Byte) (off len default : Nat) (read : Nat → α) :
    setting image off len (read default) read = read (Stated.given image off len default) :=
  (apply_ite read _ _ _).symm

theorem clampNat_eq_clamped {lo hi : Nat} (h : lo ≤ hi) (v : Nat) : clampNat v lo hi = Stated.clamped lo hi v := by
  unfold clampNat Stated.clamped
  split
  · omega
  · split <;> omega

/-- R51: a mask is its 12 bits. -/
theorem setting_mask (image : List Byte) (off : Nat) (default : BitVec 12) :
    setting image off 2 default (BitVec.ofNat 12) = BitVec.ofNat 12 (Stated.given image off 2 default.toNat) := by
  rw [← setting_read (read := BitVec.ofNat 12), BitVec.ofNat_toNat, BitVec.setWidth_eq]

/-- R146: the capture switch, off beyond the image's length. -/
theorem setting_switch (image : List Byte) :
    setting image 296 1 false (fun v => v != 0) = decide (Stated.given image 296 1 0 ≠ 0) := by
  have hread := setting_read image 296 1 0 (fun v : Nat => v != 0)
  refine hread.trans ?_
  rw [Bool.eq_iff_iff, bne_iff_ne, decide_eq_true_iff]

/-- R80: an image that ends within the axis map leaves it at its default. -/
theorem checked_axisMap_of_short (role : Role) (node : Node) {image : List Byte} (hshort : fieldAt image 0 2 < 268) :
    (checked role (readImage image (defaultSettings role node))).motion.axisMap = defaultAxisMap := by
  have hread : setting image 265 3 defaultAxisMap readAxes = defaultAxisMap := if_neg (Nat.not_le.mpr hshort)
  change (if axesClash (setting image 265 3 defaultAxisMap readAxes) then defaultAxisMap
    else setting image 265 3 defaultAxisMap readAxes) = defaultAxisMap
  rw [hread, ite_self]

/-- R128: the check of the line period moves LP alone. -/
theorem checkLinePeriod_rest (framePeriod : Option Nat) (h : Nat) (c : ScanSettings) :
    checkLinePeriod framePeriod h c = { c with lp := (checkLinePeriod framePeriod h c).lp } := by
  unfold checkLinePeriod
  split <;> rfl

/-- R128: the scan values but for LP after every check. -/
theorem checked_scan (role : Role) (v : Settings) :
    ∃ lp, (checked role v).scan = { clampScan v.scan with lp := lp } :=
  ⟨_, checkLinePeriod_rest ..⟩

theorem usableImageInstallsItsValues : Stated.UsableImageInstallsItsValues := by
  intro s image hlife hpresent hgood d at'
  obtain ⟨l, hl⟩ : ∃ l, l = loadImage s.straps.role s.straps.node image := ⟨_, rfl⟩
  have hexec : exec (.profileInstalled image) s = .next (install l s) := by
    rw [hl, ← loadProfile_of_usable hpresent hgood]
    exact exec_profileInstalled image hlife
  have hsettings : l.settings = checked s.straps.role (readImage image d) := hl ▸ loadImage_settings ..
  obtain ⟨lp, hscan⟩ := checked_scan s.straps.role (readImage image d)
  obtain ⟨hwire, hmessage⟩ := latchLoaded_masks l (installSettings l.settings s)
  rw [← install_alarms_eq, installSettings_alarms] at hwire hmessage
  refine ⟨install l s, hexec, ?_⟩
  rw [hwire, hmessage, install_store, install_scan, install_motion, install_audio, (install_power_settings l s).1,
    install_spine, install_time, hsettings, hscan]
  refine ⟨setting_mask .., setting_mask .., clampNat_eq_clamped (by decide) _, Nat.min_comm .., Nat.min_comm ..,
    Nat.min_comm .., Nat.min_comm .., Nat.min_comm .., fun k => ?brightness, ?gain,
    checked_axisMap_of_short s.straps.role s.straps.node, clampNat_eq_clamped (by decide) _,
    clampNat_eq_clamped (by decide) _, setting_switch image, ?draw, rfl, rfl, rfl, rfl,
    clampNat_eq_clamped (by decide) _, clampNat_eq_clamped (by decide) _⟩
  case brightness =>
    change ((readScan image d.scan).brightness.map (min · 256))[k] = _
    rw [getElem_map_fin, Nat.min_comm]
    exact congrArg (min 256) (getElem_ofFn_fin ..)
  case gain =>
    have hgain (g : Nat) : clampNat g 1 65535 = Stated.clamped 1 65535 g := clampNat_eq_clamped (by decide) g
    change ({ yaw := clampNat _ 1 65535, pitch := clampNat _ 1 65535, roll := clampNat _ 1 65535 } : Axes Nat) = _
    rw [hgain, hgain, hgain]
    rfl
  case draw =>
    change (readPower image d.power).draw[0] = _
    exact getElem_ofFn_fin (i := 0) ..

/-! ### The flags -/

/-- R51, R177: PROFILE is latched for a code that is moved and for what a range or a check finds fault with. -/
theorem loadImage_profile_iff (role : Role) (node : Node) (image : List Byte) :
    (loadImage role node image).profile = true ↔
      codesMoved image = true ∨ ¬ Stated.settingsGood role (readImage image (defaultSettings role node)) := by
  rw [settingsGood_iff]
  change (codesMoved image || decide (checked role (readImage image (defaultSettings role node)) ≠
    readImage image (defaultSettings role node)) ||
      lineCut role (readImage image (defaultSettings role node))) = true ↔ _
  rw [Bool.or_assoc, Bool.or_eq_true, Bool.or_eq_true, decide_eq_true_iff, not_and_or, Bool.not_eq_false]

/-- R117, R177: MAP is latched on a HEADSET whose descriptors fail a pass. -/
theorem loadImage_map_iff (role : Role) (node : Node) (image : List Byte) :
    (loadImage role node image).map = true ↔
      role = .headset ∧ ¬ Stated.mapsGood (loadImage role node image).settings.geometry.bandSlices
        (readImage image (defaultSettings role node)).bands := by
  rw [← checkBands_eq_self_iff]
  change (decide (checkBands (loadImage role node image).settings.geometry.bandSlices
    (readImage image (defaultSettings role node)).bands ≠ (readImage image (defaultSettings role node)).bands) &&
      role == .headset) = true ↔ _
  rw [Bool.and_eq_true, decide_eq_true_iff, beq_iff_eq, and_comm]

theorem install_latched (l : Loaded) (s : State) :
    (install l s).isLatched .profile = (s.isLatched .profile || l.profile) ∧
      (install l s).isLatched .map = (s.isLatched .map || l.map) := by
  have hbefore (f : Flag) : (installSettings l.settings s).isLatched f = s.isLatched f := by
    rw [State.isLatched, installSettings_alarms]
    rfl
  have hafter (f : Flag) : (install l s).isLatched f = (latchLoaded l (installSettings l.settings s)).isLatched f := by
    rw [State.isLatched, install_alarms_eq]
    rfl
  rw [hafter, hafter, ← hbefore, ← hbefore]
  exact latchLoaded_latched ..

/-- R72, R74: what becomes of one entry of a good schedule. -/
theorem install_entry_of_good {role : Role} {l : Loaded} (hgood : Stated.entriesGood role l.settings.entries)
    (s : State) (k : Fin 8) :
    (install l s).sched.entries[k].action = l.settings.entries[k].action ∧
      (∀ period phase due, l.settings.entries[k].mode = .repeating period phase due →
        l.settings.entries[k].action ≠ .none →
        ∃ j, (install l s).sched.entries[k].mode = .repeating period phase (phase + j * period) ∧
          s.agreed ≤ phase + j * period ∧ ∀ j', s.agreed ≤ phase + j' * period → j ≤ j') ∧
      ∀ src n progress, l.settings.entries[k].mode = .counted src n progress →
        (install l s).sched.entries[k].mode = .counted src n 0 := by
  rw [install_entry]
  refine ⟨installed_action .., fun period phase due hmode halive => ?_, fun src n progress hmode =>
    installed_of_counted hmode _⟩
  obtain ⟨-, -, hrepeats, -⟩ := hgood k halive
  obtain ⟨hfit, -⟩ := hrepeats _ _ _ hmode
  obtain ⟨j, hj, hreached, hleast⟩ := firstDue_spec (agreed := s.agreed) (phase := phase) (period_pos halive hfit)
  exact ⟨j, by rw [installed_of_repeating hmode, hj], hreached, hleast⟩

theorem install_ranges (l : Loaded) (s : State) :
    (install l s).dials.e0.range = l.settings.e0 ∧ (install l s).dials.e1.range = l.settings.e1 := by
  rw [install_dials]
  split <;> exact ⟨rfl, rfl⟩

theorem checksLatchProfileAndMap : Stated.ChecksLatchProfileAndMap := by
  intro s image hlife hpresent hgood hprofile hmap v
  obtain ⟨l, hl⟩ : ∃ l, l = loadImage s.straps.role s.straps.node image := ⟨_, rfl⟩
  have hexec : exec (.profileInstalled image) s = .next (install l s) := by
    rw [hl, ← loadProfile_of_usable hpresent hgood]
    exact exec_profileInstalled image hlife
  have hsettings : l.settings = checked s.straps.role v := hl ▸ loadImage_settings ..
  have hprofileIff : l.profile = true ↔ codesMoved image = true ∨ ¬ Stated.settingsGood s.straps.role v :=
    hl ▸ loadImage_profile_iff ..
  have hmapIff : l.map = true ↔
      s.straps.role = .headset ∧ ¬ Stated.mapsGood l.settings.geometry.bandSlices v.bands := hl ▸ loadImage_map_iff ..
  obtain ⟨hlatchedProfile, hlatchedMap⟩ := install_latched l s
  rw [hprofile, Bool.false_or] at hlatchedProfile
  rw [hmap, Bool.false_or] at hlatchedMap
  have hstore := install_store l s
  refine ⟨install l s, hexec, hlatchedProfile ▸ hprofileIff, ?_, fun hcodes hv => ?_⟩
  · rw [hlatchedMap, hstore]
    exact hmapIff
  · obtain ⟨hsame, -⟩ := checked_of_good hv
    rw [hsame] at hsettings
    have ⟨hentries, _, hmaps, _⟩ := hv
    have hclean : l.profile = false := by
      rw [← Bool.not_eq_true, hprofileIff, hcodes]
      exact fun h => h.elim Bool.false_ne_true fun h => h hv
    have hapart : l.map = false := by
      rw [← Bool.not_eq_true, hmapIff, hsettings]
      exact fun ⟨_, h⟩ => h hmaps
    have halarms : (install l s).alarms = { s.alarms with wire := v.wire, message := v.message } := by
      rw [install_alarms_eq, latchLoaded_alarms_of_clean hclean hapart, installSettings_alarms, hsettings]
    obtain ⟨hrange0, hrange1⟩ := install_ranges l s
    obtain ⟨hpower, hgrant⟩ := install_power_settings l s
    have hentry := install_entry_of_good (l := l) (hsettings ▸ hentries) s
    simp only [hsettings] at hentry
    rw [halarms, install_intake, hstore, install_scan, install_motion, hrange0, hrange1, install_audio, hpower, hgrant,
      install_spine, install_time, hsettings]
    exact ⟨rfl, rfl, hentry, rfl, rfl, rfl, rfl, rfl, rfl, rfl, rfl, rfl, rfl, rfl, rfl⟩

/-- Settles O48: a missing or bad image installs the defaults; every image leaves each setting in its range; a usable
one installs its values; and the flags say which checks found fault. -/
theorem profileInstallationLeavesGoodSettings : Obligations.ProfileInstallationLeavesGoodSettings :=
  ⟨missingProfileInstallsDefaults, installedSettingsLieInTheirRanges, usableImageInstallsItsValues,
    checksLatchProfileAndMap⟩

end Sys2Proof.Machine
end
